-- ==== Sys2Proof/Word.lean ====
section
/-! DEFINITION. Word.lean: the word types of the Worgar (R126, R129, R149) and the sparse maps its state is kept in. -/

namespace Sys2Proof

/-- A scalar register, an address as it is computed (R149, R71). -/
abbrev Word := BitVec 64

/-- A lane word (R8). -/
abbrev LWord := BitVec 32

/-- One byte of memory. -/
abbrev Byte := BitVec 8

/-- Numbers of scalar registers `x0`–`x31`, predicates, masks, vector and small-matrix registers (R129). -/
abbrev XReg := BitVec 5
abbrev PReg := BitVec 3
abbrev KReg := BitVec 3
abbrev VNum := BitVec 6
abbrev MReg := BitVec 2

/-- A sparse map: pairs of a key and a value in strictly rising order of the keys. -/
abbrev AMap (α : Type) := List (Nat × α)

end Sys2Proof
end

