-- ==== Sys2Proof/Config.lean ====
section
/-! DEFINITION. Config.lean: what an implementation fixes and what the spec leaves open. Every constant below is opaque: a free
value, of which nothing can be proved but that it is one fixed value (log 4). -/

namespace Sys2Proof.Config

/-- The byte numbered n of what the spec leaves unspecified: lane scratch and TCM stack contents at start (R55), lane state
after a fractional lane loss (R309). -/
opaque freeByte : Nat → Byte

/-- The word numbered n of what the spec leaves unspecified. -/
opaque freeWord : Nat → Word

/-- A choice among permitted outcomes: the winner among colliding elements (R90), the order of element writes. -/
opaque pick : Nat → Nat

/-- Lane cycles that pass before the hart picked next issues, beyond the first (R151, R178, R292): not fixed by the rules. -/
opaque stallCycles : Nat → Nat

/-- The power demand that the arbiter estimates (R357): not fixed by the rules. -/
opaque demand : Nat → Nat

/-- The fixed functions of R125 before their bounds are applied: numerator over 2 ^ 400 of the magnitude, for the operation
numbered op (0 VEXP2, 1 VLOG2, 2 VRCP, 3 VRSQ), of the input's fp32 bits and the rounding mode. -/
opaque approx : (op mode bits : Nat) → Nat

/-- The standard cryptographic functions that the spec names and does not define (R344 to R347): SHAKE256, ML-DSA-65,
ML-KEM-768 and AES-256-GCM, as functions of byte strings. -/
opaque shake256 : List Byte → (len : Nat) → List Byte
opaque mlDsaKeys : (seed : List Byte) → List Byte × List Byte
opaque mlDsaSign : (key msg : List Byte) → List Byte
opaque mlDsaVerify : (key msg sig : List Byte) → Bool
opaque mlKemKeys : (seed : List Byte) → List Byte × List Byte
opaque mlKemDecaps : (secret ct : List Byte) → List Byte
opaque aesGcmSeal : (key nonce header plain : List Byte) → List Byte
opaque aesGcmOpen : (key nonce header sealed : List Byte) → Option (List Byte)

/-- The transport headers of a packet, which RoCEv2 defines and the spec does not (R337, R346): by operation, queue pair number, remote
key, address and length, and the packet's number in the operation. -/
opaque transportHeader : (op qpn rkey addr len n : Nat) → List Byte

/-- Which of its path MTUs a queue pair has (R337): not fixed by the rules. -/
opaque pathMtu : (port qpn : Nat) → Nat

/-- What is fused in the hub: the digest of the firmware key and the unique secret (R344). -/
opaque fusedDigest : List Byte
opaque fusedSecret : List Byte

/-- The certificate that a Kentacen manufacturing key gives for an identity (R344). -/
opaque certificate : List Byte → List Byte

/-- The S288 port group that the module occupies (R343). -/
opaque moduleNumber : Nat

/-- The hash that spreads lines over the scale-up ports (R343): one fixed function that the rules do not give. -/
opaque portHash : Nat → Nat

/-- Bytes that the module's random source gives (R346). -/
opaque random : Nat → List Byte

end Sys2Proof.Config
end

