-- ==== Sys2Proof/Syntax.lean ====
section
/-! DEFINITION. Syntax.lean: the instructions and events of the Worgar, one constructor for each row of the opcode table.
The 234 rows with a word are the instructions of Syldardo (R126 to R138); a constructor holds the fields of the word that the
row leaves free, by R128. The 68 rows without a word are the steps of the sequencer, the engines, the hub, the steward, the host
and the world around the module; a constructor holds what such a step names. -/

namespace Sys2Proof

/-- Trap causes, codes 1 to 20 of R297. -/
inductive Cause
  | illegal | priv | align | attrSplit | rowAddr | pageWin | pageFault | prot | regClosed | tagMismatch
  | poison | dataErr | refDeadline | actAlert | laneLoss | bkpt | waypoint | step | swTrap | filmFull
  deriving DecidableEq, Repr

/-- Who activates a way (R17, R21, R315): a row instruction, the base layer, a stream channel or a speculative pre-activation acting for a
hart, or the hub path. -/
inductive ActSource
  | row (h : Nat) | base (h : Nat) | stream (h n : Nat) | spec (h : Nat) | hub
  deriving DecidableEq, Repr

/-- Why the steward ends a task (R57, R253): after the fault presented by a hart, for another reason, after a column failed,
after a remote store failed (R342), or because a hart's code could not be copied (R52). -/
inductive EndReason
  | fault (h : Nat)
  | ended
  | mcheck
  | remote (h : Nat) (pc va : Word)
  | codeCopy (rank : Nat) (cause : Cause) (va : Nat)
  deriving DecidableEq, Repr

/-- What the steward does to a hart that it holds, or to the TCM and the training row of its column (R16, R19, R34, R142, R234, R296,
R300, R321, R335): a scalar register, predicate, mask, `vl`; open ways with their image, lane word or tag of a register; matrix entry,
shape with form (0 general, 1 Cholesky, 2 LU), permutation or lane flags; a scratch word, a tile cell or scale, a generator; a write of a
system register; a byte of the hart's TCM share, of its kernel's code in the column's TCM, of row 2111 of a way, or of the hart's debug
block; an `RFT` on the hart's behalf; the giving of its stopped state to the tenant. -/
inductive StewardEdit
  | x (r : XReg) (v : BitVec 64)
  | p (r : PReg) (b : Bool)
  | mask (k : KReg) (bits : Nat)
  | vl (n : Nat)
  | word (v : VNum) (j : Nat) (bits : BitVec 32) (poison : Bool)
  | tag (v : VNum) (t : BitVec 5) (scale : VNum)
  | entry (lane : Nat) (m : MReg) (i j : Nat) (bits : BitVec 32)
  | ways (v : VNum) (open' image : Nat)
  | shape (m : MReg) (rows cols form : Nat)
  | perm (lane : Nat) (m : MReg) (rows : List Nat)
  | laneFlags (lane : Nat) (bits : BitVec 3)
  | scratch (lane n : Nat) (bits : BitVec 32) (poison : Bool)
  | tile (scale : Bool) (key : Nat) (b : BitVec 8) (poison : Bool)
  | generator (lane : Nat) (bits : BitVec 32)
  | system (n : Nat) (v : BitVec 64)
  | tcm (off : Nat) (b : BitVec 8)
  | code (off : Nat) (b : BitVec 8)
  | testRow (way off : Nat) (b : BitVec 8)
  | block (off : Nat) (b : BitVec 8)
  | rft
  | dump
  deriving DecidableEq, Repr

/-- What another module writes: its bytes, or of one byte the nibble named (R199, R341). -/
structure PeerWrite where
  bytes : List (BitVec 8)
  high  : Option Bool := none
  deriving DecidableEq, Repr

/-- The ratio of the array timing domain to the base clock (R25). -/
inductive ArrayRatio
  | r1to1 | r4to5 | r2to3 | r1to2
  deriving DecidableEq, Repr

/-- A host queue pair: port 0–3 and queue pair number (R337, R341). -/
structure HostQp where
  port : Nat
  qpn  : Nat
  deriving DecidableEq, Repr

/-- An agent that writes a hub register (R276, R341, R360). -/
inductive Agent
  | steward | host | module
  deriving DecidableEq, Repr

/-- A memory region that the steward registers for a partition (R338). A region with `queues` set covers the descriptors of the
user queues `base` to `base + size - 1`; any other covers `size` bytes of virtual addresses from `base`. -/
structure MemRegion where
  rkey   : Nat
  part   : Nat
  root   : Nat
  base   : Nat
  size   : Nat
  rd     : Bool
  wr     : Bool
  queues : Bool
  deriving DecidableEq, Repr

/-- The rows of the opcode table. -/
inductive Instr
  | add (d : XReg) (a : XReg) (b : XReg)
  | sub (d : XReg) (a : XReg) (b : XReg)
  | mul (d : XReg) (a : XReg) (b : XReg)
  | mulh (d : XReg) (a : XReg) (b : XReg)
  | mulhu (d : XReg) (a : XReg) (b : XReg)
  | div (d : XReg) (a : XReg) (b : XReg)
  | divu (d : XReg) (a : XReg) (b : XReg)
  | rem (d : XReg) (a : XReg) (b : XReg)
  | remu (d : XReg) (a : XReg) (b : XReg)
  | and (d : XReg) (a : XReg) (b : XReg)
  | or (d : XReg) (a : XReg) (b : XReg)
  | xor (d : XReg) (a : XReg) (b : XReg)
  | shl (d : XReg) (a : XReg) (b : XReg)
  | shr (d : XReg) (a : XReg) (b : XReg)
  | sra (d : XReg) (a : XReg) (b : XReg)
  | min (d : XReg) (a : XReg) (b : XReg)
  | max (d : XReg) (a : XReg) (b : XReg)
  | minu (d : XReg) (a : XReg) (b : XReg)
  | maxu (d : XReg) (a : XReg) (b : XReg)
  | clz (d : XReg) (a : XReg)
  | ctz (d : XReg) (a : XReg)
  | popc (d : XReg) (a : XReg)
  | sel (d : XReg) (a : XReg) (b : XReg) (p : BitVec 3)
  | addi (d : XReg) (a : XReg) (imm : BitVec 16)
  | andi (d : XReg) (a : XReg) (imm : BitVec 16)
  | ori (d : XReg) (a : XReg) (imm : BitVec 16)
  | xori (d : XReg) (a : XReg) (imm : BitVec 16)
  | shli (d : XReg) (a : XReg) (s : BitVec 6)
  | shri (d : XReg) (a : XReg) (s : BitVec 6)
  | srai (d : XReg) (a : XReg) (s : BitVec 6)
  | lui (d : XReg) (imm : BitVec 16)
  | addpc (d : XReg) (imm : BitVec 16)
  | fadd (d : XReg) (a : XReg) (b : XReg) (t : BitVec 3)
  | fsub (d : XReg) (a : XReg) (b : XReg) (t : BitVec 3)
  | fmul (d : XReg) (a : XReg) (b : XReg) (t : BitVec 3)
  | fma (d : XReg) (a : XReg) (b : XReg) (t : BitVec 3)
  | fmin (d : XReg) (a : XReg) (b : XReg) (t : BitVec 3)
  | fmax (d : XReg) (a : XReg) (b : XReg) (t : BitVec 3)
  | fcmp (p : BitVec 3) (a : XReg) (b : XReg) (c : BitVec 3) (t : BitVec 3)
  | fcvt (d : XReg) (a : XReg) (u : BitVec 3) (t : BitVec 3)
  | cmp (p : BitVec 3) (a : XReg) (b : XReg) (c : BitVec 3)
  | pand (d : BitVec 3) (a : BitVec 3) (b : BitVec 3)
  | por (d : BitVec 3) (a : BitVec 3) (b : BitVec 3)
  | pxor (d : BitVec 3) (a : BitVec 3) (b : BitVec 3)
  | pnot (d : BitVec 3) (a : BitVec 3)
  | cmpi (p : BitVec 3) (a : XReg) (c : BitVec 3) (imm : BitVec 13)
  | bp (p : BitVec 3) (neg : Bool) (off : BitVec 22)
  | jal (d : XReg) (imm : BitVec 14)
  | jalr (d : XReg) (a : XReg) (imm : BitVec 14)
  | loop (a : XReg) (imm : BitVec 14)
  | ldb (d : XReg) (a : XReg) (imm : BitVec 13)
  | ldbu (d : XReg) (a : XReg) (imm : BitVec 13)
  | ldh (d : XReg) (a : XReg) (imm : BitVec 13)
  | ldhu (d : XReg) (a : XReg) (imm : BitVec 13)
  | ldw (d : XReg) (a : XReg) (imm : BitVec 13)
  | ldwu (d : XReg) (a : XReg) (imm : BitVec 13)
  | ldd (d : XReg) (a : XReg) (imm : BitVec 13)
  | stb (s : XReg) (a : XReg) (imm : BitVec 13)
  | sth (s : XReg) (a : XReg) (imm : BitVec 13)
  | stw (s : XReg) (a : XReg) (imm : BitVec 13)
  | std (s : XReg) (a : XReg) (imm : BitVec 13)
  | amoadd (d : XReg) (a : XReg) (b : XReg) (s : BitVec 3) (ord : BitVec 2) (dw : Bool)
  | amoand (d : XReg) (a : XReg) (b : XReg) (s : BitVec 3) (ord : BitVec 2) (dw : Bool)
  | amoor (d : XReg) (a : XReg) (b : XReg) (s : BitVec 3) (ord : BitVec 2) (dw : Bool)
  | amoxor (d : XReg) (a : XReg) (b : XReg) (s : BitVec 3) (ord : BitVec 2) (dw : Bool)
  | amomin (d : XReg) (a : XReg) (b : XReg) (s : BitVec 3) (ord : BitVec 2) (dw : Bool)
  | amomax (d : XReg) (a : XReg) (b : XReg) (s : BitVec 3) (ord : BitVec 2) (dw : Bool)
  | amominu (d : XReg) (a : XReg) (b : XReg) (s : BitVec 3) (ord : BitVec 2) (dw : Bool)
  | amomaxu (d : XReg) (a : XReg) (b : XReg) (s : BitVec 3) (ord : BitVec 2) (dw : Bool)
  | amoswap (d : XReg) (a : XReg) (b : XReg) (s : BitVec 3) (ord : BitVec 2) (dw : Bool)
  | amocas (d : XReg) (a : XReg) (b : XReg) (s : BitVec 3) (ord : BitVec 2) (dw : Bool)
  | fence (s : BitVec 3) (ord : BitVec 2)
  | nop
  | srd (d : XReg) (r : BitVec 12)
  | swr (a : XReg) (r : BitVec 12)
  | fpmodeWrite (h : Nat) (v : BitVec 64)
  | fpflagsRead (h : Nat) (d : XReg)
  | fpflagsWrite (h : Nat) (v : BitVec 64)
  | mstatAccess (h : Nat) (d : XReg) (v : Option (BitVec 64))
  | refownerWrite (h : Nat) (v : BitVec 64)
  | errcolClear (c : Nat)
  | act (v : VNum) (a : XReg) (n : BitVec 3)
  | acts (v : VNum) (a : XReg) (n : BitVec 3)
  | wb (v : VNum) (a : XReg)
  | wbk (v : VNum) (a : XReg) (k : BitVec 3)
  | pre (v : VNum)
  | preall
  | ref (n : BitVec 8)
  | refn (a : XReg)
  | vgeom (g : BitVec 2)
  | vtype (d : VNum) (s : VNum) (t : BitVec 5)
  | vsetvl (d : XReg) (a : XReg) (w : BitVec 2)
  | vlopen (d : VNum)
  | pfx (k : BitVec 3) (pol : Bool) (dt : Bool) (zero : Bool) (c : VNum) (cpen : Bool)
  | vadd (part : BitVec 3) (d : VNum) (a : VNum) (b : VNum) (ca : Bool) (cb : Bool) (dt : Bool)
  | vsub (part : BitVec 3) (d : VNum) (a : VNum) (b : VNum) (ca : Bool) (cb : Bool) (dt : Bool)
  | vmul (part : BitVec 3) (d : VNum) (a : VNum) (b : VNum) (ca : Bool) (cb : Bool) (dt : Bool)
  | vmulh (part : BitVec 3) (d : VNum) (a : VNum) (b : VNum) (ca : Bool) (cb : Bool) (dt : Bool)
  | vmad (part : BitVec 3) (d : VNum) (a : VNum) (b : VNum) (ca : Bool) (cb : Bool) (dt : Bool)
  | vnmad (part : BitVec 3) (d : VNum) (a : VNum) (b : VNum) (ca : Bool) (cb : Bool) (dt : Bool)
  | vmin (part : BitVec 3) (d : VNum) (a : VNum) (b : VNum) (ca : Bool) (cb : Bool) (dt : Bool)
  | vmax (part : BitVec 3) (d : VNum) (a : VNum) (b : VNum) (ca : Bool) (cb : Bool) (dt : Bool)
  | vabs (part : BitVec 3) (d : VNum) (a : VNum) (ca : Bool) (dt : Bool)
  | vneg (part : BitVec 3) (d : VNum) (a : VNum) (ca : Bool) (dt : Bool)
  | vcvt (part : BitVec 3) (d : VNum) (a : VNum) (ca : Bool) (dt : Bool)
  | vdot (part : BitVec 3) (d : VNum) (a : VNum) (b : VNum) (ca : Bool) (cb : Bool) (dt : Bool)
  | vand (part : BitVec 3) (d : VNum) (a : VNum) (b : VNum) (ca : Bool) (cb : Bool) (dt : Bool)
  | vor (part : BitVec 3) (d : VNum) (a : VNum) (b : VNum) (ca : Bool) (cb : Bool) (dt : Bool)
  | vxor (part : BitVec 3) (d : VNum) (a : VNum) (b : VNum) (ca : Bool) (cb : Bool) (dt : Bool)
  | vshl (part : BitVec 3) (d : VNum) (a : VNum) (b : VNum) (ca : Bool) (cb : Bool) (dt : Bool)
  | vshr (part : BitVec 3) (d : VNum) (a : VNum) (b : VNum) (ca : Bool) (cb : Bool) (dt : Bool)
  | vdiv (part : BitVec 3) (d : VNum) (a : VNum) (b : VNum) (ca : Bool) (cb : Bool) (dt : Bool)
  | vsqrt (part : BitVec 3) (d : VNum) (a : VNum) (ca : Bool) (dt : Bool)
  | vrcp (part : BitVec 3) (d : VNum) (a : VNum) (ca : Bool) (dt : Bool)
  | vrsq (part : BitVec 3) (d : VNum) (a : VNum) (ca : Bool) (dt : Bool)
  | vexp2 (part : BitVec 3) (d : VNum) (a : VNum) (ca : Bool) (dt : Bool)
  | vlog2 (part : BitVec 3) (d : VNum) (a : VNum) (ca : Bool) (dt : Bool)
  | vscale (part : BitVec 3) (d : VNum) (a : VNum) (b : VNum) (ca : Bool) (cb : Bool) (dt : Bool)
  | vcmpEq (part : BitVec 3) (k : BitVec 3) (a : VNum) (b : VNum) (ca : Bool) (cb : Bool) (dt : Bool)
  | vcmpNe (part : BitVec 3) (k : BitVec 3) (a : VNum) (b : VNum) (ca : Bool) (cb : Bool) (dt : Bool)
  | vcmpLt (part : BitVec 3) (k : BitVec 3) (a : VNum) (b : VNum) (ca : Bool) (cb : Bool) (dt : Bool)
  | vcmpLtu (part : BitVec 3) (k : BitVec 3) (a : VNum) (b : VNum) (ca : Bool) (cb : Bool) (dt : Bool)
  | vcmpGe (part : BitVec 3) (k : BitVec 3) (a : VNum) (b : VNum) (ca : Bool) (cb : Bool) (dt : Bool)
  | vcmpGeu (part : BitVec 3) (k : BitVec 3) (a : VNum) (b : VNum) (ca : Bool) (cb : Bool) (dt : Bool)
  | vsel (part : BitVec 3) (d : VNum) (a : VNum) (b : VNum) (ca : Bool) (cb : Bool) (dt : Bool)
  | vaddVx (d : VNum) (a : VNum) (b : XReg) (ca : Bool) (dt : Bool) (p : BitVec 2)
  | vsubVx (d : VNum) (a : VNum) (b : XReg) (ca : Bool) (dt : Bool) (p : BitVec 2)
  | vmulVx (d : VNum) (a : VNum) (b : XReg) (ca : Bool) (dt : Bool) (p : BitVec 2)
  | vmulhVx (d : VNum) (a : VNum) (b : XReg) (ca : Bool) (dt : Bool) (p : BitVec 2)
  | vmadVx (d : VNum) (a : VNum) (b : XReg) (ca : Bool) (dt : Bool) (p : BitVec 2)
  | vnmadVx (d : VNum) (a : VNum) (b : XReg) (ca : Bool) (dt : Bool) (p : BitVec 2)
  | vminVx (d : VNum) (a : VNum) (b : XReg) (ca : Bool) (dt : Bool) (p : BitVec 2)
  | vmaxVx (d : VNum) (a : VNum) (b : XReg) (ca : Bool) (dt : Bool) (p : BitVec 2)
  | vdotVx (d : VNum) (a : VNum) (b : XReg) (ca : Bool) (dt : Bool) (p : BitVec 2)
  | vandVx (d : VNum) (a : VNum) (b : XReg) (ca : Bool) (dt : Bool) (p : BitVec 2)
  | vorVx (d : VNum) (a : VNum) (b : XReg) (ca : Bool) (dt : Bool) (p : BitVec 2)
  | vxorVx (d : VNum) (a : VNum) (b : XReg) (ca : Bool) (dt : Bool) (p : BitVec 2)
  | vshlVx (d : VNum) (a : VNum) (b : XReg) (ca : Bool) (dt : Bool) (p : BitVec 2)
  | vshrVx (d : VNum) (a : VNum) (b : XReg) (ca : Bool) (dt : Bool) (p : BitVec 2)
  | vdivVx (d : VNum) (a : VNum) (b : XReg) (ca : Bool) (dt : Bool) (p : BitVec 2)
  | vscaleVx (d : VNum) (a : VNum) (b : XReg) (ca : Bool) (dt : Bool) (p : BitVec 2)
  | vcmpEqVx (k : BitVec 3) (a : VNum) (b : XReg) (ca : Bool) (dt : Bool) (p : BitVec 2)
  | vcmpNeVx (k : BitVec 3) (a : VNum) (b : XReg) (ca : Bool) (dt : Bool) (p : BitVec 2)
  | vcmpLtVx (k : BitVec 3) (a : VNum) (b : XReg) (ca : Bool) (dt : Bool) (p : BitVec 2)
  | vcmpLtuVx (k : BitVec 3) (a : VNum) (b : XReg) (ca : Bool) (dt : Bool) (p : BitVec 2)
  | vcmpGeVx (k : BitVec 3) (a : VNum) (b : XReg) (ca : Bool) (dt : Bool) (p : BitVec 2)
  | vcmpGeuVx (k : BitVec 3) (a : VNum) (b : XReg) (ca : Bool) (dt : Bool) (p : BitVec 2)
  | vselVx (d : VNum) (a : VNum) (b : XReg) (ca : Bool) (dt : Bool) (p : BitVec 2)
  | vsplat (d : VNum) (b : XReg) (dt : Bool)
  | viota (d : VNum) (dt : Bool)
  | vext (d : XReg) (a : VNum) (b : XReg) (ca : Bool) (dt : Bool)
  | vins (d : VNum) (xs : XReg) (b : XReg) (dt : Bool)
  | kand (d : BitVec 3) (a : BitVec 3) (b : BitVec 3)
  | kor (d : BitVec 3) (a : BitVec 3) (b : BitVec 3)
  | kxor (d : BitVec 3) (a : BitVec 3) (b : BitVec 3)
  | knot (d : BitVec 3) (a : BitVec 3)
  | kmov (d : BitVec 3) (a : BitVec 3)
  | kset (d : BitVec 3) (x : XReg)
  | kpop (a : BitVec 3) (x : XReg)
  | kfirst (a : BitVec 3) (x : XReg)
  | kany (p : BitVec 3) (a : BitVec 3)
  | kall (p : BitVec 3) (a : BitVec 3)
  | vradd (d : XReg) (a : VNum) (b : XReg) (ca : Bool) (dt : Bool) (wide : Bool)
  | vrmax (d : XReg) (a : VNum) (b : XReg) (ca : Bool) (dt : Bool) (wide : Bool)
  | vrmin (d : XReg) (a : VNum) (b : XReg) (ca : Bool) (dt : Bool) (wide : Bool)
  | vld (d : VNum) (b : XReg) (dt : Bool)
  | vlds (d : VNum) (s : XReg) (b : XReg) (dt : Bool)
  | vldx (d : VNum) (vi : VNum) (b : XReg) (ca : Bool) (dt : Bool)
  | vldxo (d : VNum) (vi : VNum) (b : XReg) (ca : Bool) (dt : Bool)
  | vlsx (d : VNum) (vi : VNum) (b : XReg) (ca : Bool) (dt : Bool)
  | vst (d : VNum) (b : XReg) (ca : Bool) (dt : Bool)
  | vsts (d : VNum) (s : XReg) (b : XReg) (ca : Bool) (dt : Bool)
  | vstx (d : VNum) (vi : VNum) (b : XReg) (ca : Bool) (dt : Bool)
  | vstxo (d : VNum) (vi : VNum) (b : XReg) (ca : Bool) (dt : Bool)
  | vssx (d : VNum) (vi : VNum) (b : XReg) (ca : Bool) (dt : Bool)
  | vupdAdd (d : VNum) (vi : VNum) (b : XReg) (ca : Bool) (dt : Bool)
  | vupdMin (d : VNum) (vi : VNum) (b : XReg) (ca : Bool) (dt : Bool)
  | vupdMax (d : VNum) (vi : VNum) (b : XReg) (ca : Bool) (dt : Bool)
  | vupdAnd (d : VNum) (vi : VNum) (b : XReg) (ca : Bool) (dt : Bool)
  | vupdOr (d : VNum) (vi : VNum) (b : XReg) (ca : Bool) (dt : Bool)
  | vupdXor (d : VNum) (vi : VNum) (b : XReg) (ca : Bool) (dt : Bool)
  | vperm (d : VNum) (a : VNum) (b : VNum) (ca : Bool) (cb : Bool) (dt : Bool)
  | vcomp (d : VNum) (a : VNum) (ca : Bool) (dt : Bool)
  | vcompIdx (d : VNum) (a : VNum) (b : VNum) (ca : Bool) (dt : Bool)
  | vexpd (d : VNum) (a : VNum) (ca : Bool) (dt : Bool)
  | vrot (d : VNum) (a : VNum) (b : XReg) (ca : Bool) (dt : Bool)
  | vslideup (d : VNum) (a : VNum) (b : XReg) (ca : Bool) (dt : Bool)
  | vslidedn (d : VNum) (a : VNum) (b : XReg) (ca : Bool) (dt : Bool)
  | vcapp (a : VNum) (b : XReg) (ca : Bool) (dt : Bool)
  | vshuf (d : VNum) (a : VNum) (b : XReg) (ca : Bool) (dt : Bool)
  | vbcast (d : VNum) (a : VNum) (b : XReg) (ca : Bool) (dt : Bool)
  | vallredAdd (d : VNum) (a : VNum) (ca : Bool) (dt : Bool)
  | vallredMax (d : VNum) (a : VNum) (ca : Bool) (dt : Bool)
  | vallredMin (d : VNum) (a : VNum) (ca : Bool) (dt : Bool)
  | svfence
  | vdrain (s : BitVec 3)
  | tcfg (a : XReg)
  | tld (v : VNum) (a : XReg)
  | tmul (v : VNum) (a : XReg)
  | tmuls (d : VNum) (v : VNum) (a : XReg)
  | trd (d : VNum) (a : XReg)
  | tacc (d : VNum) (a : XReg)
  | tzero (a : XReg)
  | trel
  | mset (d : BitVec 2) (c : BitVec 3) (r : BitVec 3)
  | mld (d : BitVec 2) (x : XReg)
  | mst (d : BitVec 2) (x : XReg)
  | mmul (d : BitVec 2) (a : BitVec 2) (b : BitVec 2)
  | mmac (d : BitVec 2) (a : BitVec 2) (b : BitVec 2)
  | madd (d : BitVec 2) (a : BitVec 2) (b : BitVec 2)
  | mtrn (d : BitVec 2) (a : BitVec 2)
  | mchol (d : BitVec 2) (a : BitVec 2)
  | mlu (d : BitVec 2) (a : BitVec 2)
  | msolv (d : BitVec 2) (a : BitVec 2) (b : BitVec 2)
  | mscal (d : BitVec 2) (a : BitVec 2) (x : XReg)
  | mid (d : BitVec 2)
  | mflag (f : BitVec 2) (k : BitVec 3)
  | tspawn (d : XReg) (a : XReg)
  | texit
  | tyield
  | tinfo (d : XReg) (s : BitVec 5)
  | qpush (a : XReg) (b : XReg) (p : BitVec 3)
  | qpop (d : XReg) (a : XReg) (p : BitVec 3)
  | keyrel (a : XReg)
  | keyq (d : XReg) (a : XReg)
  | strip (d : XReg) (a : XReg) (p : BitVec 3)
  | bar (s : BitVec 3)
  | bara (s : BitVec 3)
  | barw (s : BitVec 3)
  | scfg (d : XReg) (a : XReg) (n : BitVec 2)
  | sstep (n : BitVec 2)
  | sstat (d : XReg) (n : BitVec 2)
  | sclose (n : BitVec 2)
  | waitev (d : XReg) (a : XReg) (m : BitVec 12)
  | trap (c : BitVec 12)
  | rft
  | halt
  | bbh (a : XReg) (imm : BitVec 12)
  | mark (c : BitVec 12)
  | bkpt (c : BitVec 12)
  | sequencerIssue (c : Nat)
  | wayActivation (c way row : Nat) (src : ActSource) (segs : Nat)
  | elementGroupValid (h v g : Nat)
  | alertDeadline (c way row : Nat)
  | speculativePreactivation (h c way row : Nat)
  | speculativeDiscard (c n : Nat)
  | class5Promotion (c n : Nat)
  | vectorRetire (h : Nat)
  | storeBufferPerform (h n : Nat)
  | trapDelivery (h : Nat) (cause : Cause) (pc info : BitVec 64)
  | asyncDelivery (h : Nat)
  | stewardResume (h : Nat) (pc : Option (BitVec 64)) (xs : List StewardEdit)
  | stewardDeliver (h : Nat)
  | taskEnd (t : Nat) (why : EndReason)
  | taskCompletion (t : Nat)
  | doorbell (q p : Nat)
  | queueBind
  | queueUnbind (slot : Nat)
  | dispatchHead (q : Nat)
  | dependenceReread (t : Nat)
  | agingTick (t : Nat)
  | taskStart (t : Nat) (pick : List Nat)
  | hartGrant (t : Nat) (pick : List Nat)
  | preemptionRequest (t : Nat)
  | sliceExpiry (t : Nat) (waiter : Nat)
  | hartHalt (h : Nat)
  | hartSaved (h : Nat)
  | hartResume (h : Nat)
  | barrierPhase (t : Nat)
  | collectiveJoin (t stack : Nat)
  | collectiveTransport (h g : Nat)
  | tldTransfer (h : Nat)
  | streamFetch (h n : Nat)
  | waitevWake (h : Nat)
  | waitevTimeout (h : Nat)
  | shootdown (root : Nat) (vpages : List Nat)
  | rowWindowReload (c t vpage : Nat) (leaf : BitVec 64)
  | rowWindowTimeout (h : Nat)
  | remoteResponse (id : Nat) (data : Option Nat)
  | remoteTimeout (id : Nat)
  | scaleupPortFailure (port : Nat)
  | refreshInterval (c : Nat)
  | laneRetirement (c cluster : Nat)
  | remapUpdate (c way spare row : Nat)
  | arrayRatioChange (stack : Nat) (ratio : ArrayRatio)
  | budgetRecompute
  | monitorReading (temps : List (List Nat)) (lowRows okRows : List (Nat × Nat))
  | powerOn
  | powerRemoval
  | rdmaWrite (qp : HostQp) (rkey va : Nat) (data : List (BitVec 8))
  | rdmaRead (qp : HostQp) (rkey va n : Nat)
  | fetchAndAdd (qp : HostQp) (rkey va : Nat) (v : BitVec 64)
  | cmpAndSwap (qp : HostQp) (rkey va : Nat) (cmp swap : BitVec 64)
  | unsupportedOperation (qp : HostQp) (opcode : Nat)
  | attestationRequest (port : Nat) (nonce : List (BitVec 8)) (part : Nat)
  | keyEncapsulation (port part : Nat) (ct : List (BitVec 8))
  | modcapWrite (v : BitVec 16)
  | registerWrite (who : Agent) (addr : Nat) (v : BitVec 64)
  | incomingRemoteAccess (pa : Nat) (n : Nat) (data : Option PeerWrite)
  | partitionCreation (part : Nat) (confidential : Bool) (regions : List MemRegion)
  | scalarRetire (h : Nat)
  | elementWritePerform (h n : Nat)
  deriving DecidableEq, Repr

end Sys2Proof
end

