-- ==== Sys2Proof/WellFormed.lean ====
section
/-! DEFINITION. WellFormed.lean: which fields of an instruction word hold an assigned value, whatever the hart (R137, R139).
A word that breaks one of these checks raises ILLEGAL. Checks that need the kernel header, the geometry or a register value are
made by the instruction's meaning. -/

namespace Sys2Proof

/-- The system register numbers of R141. -/
def sysRegListed (n : Nat) : Bool :=
  [0x000, 0x001, 0x002, 0x003, 0x004, 0x010, 0x011, 0x020, 0x021, 0x022, 0x023, 0x030, 0x031, 0x032, 0x033, 0x040, 0x041,
   0x050, 0x051, 0x060, 0x061, 0x062].contains n

/-- Type codes of `FCVT`: 3 is unassigned, and one of the two types is a floating type (R167). -/
def fcvtOk (dst src : Nat) : Bool :=
  dst != 3 && src != 3 && (dst < 3 || src < 3)

/-- R189, R44: the type code is listed; a type that is not MX names no scale register; an MX type names another register. -/
def vtypeOk (vd vs code : Nat) : Bool :=
  (code ≤ 5 || (8 ≤ code && code ≤ 0x15)) && (if 0x10 ≤ code then vs != vd else vs == 0)

/-- The fields of the instruction hold assigned values. Every event is well formed. -/
def Instr.wf : Instr → Bool
  | .add .. => true
  | .sub .. => true
  | .mul .. => true
  | .mulh .. => true
  | .mulhu .. => true
  | .div .. => true
  | .divu .. => true
  | .rem .. => true
  | .remu .. => true
  | .and .. => true
  | .or .. => true
  | .xor .. => true
  | .shl .. => true
  | .shr .. => true
  | .sra .. => true
  | .min .. => true
  | .max .. => true
  | .minu .. => true
  | .maxu .. => true
  | .clz .. => true
  | .ctz .. => true
  | .popc .. => true
  | .sel .. => true
  | .addi .. => true
  | .andi .. => true
  | .ori .. => true
  | .xori .. => true
  | .shli .. => true
  | .shri .. => true
  | .srai .. => true
  | .lui .. => true
  | .addpc .. => true
  | .fadd _ _ _ t => t.toNat < 3
  | .fsub _ _ _ t => t.toNat < 3
  | .fmul _ _ _ t => t.toNat < 3
  | .fma _ _ _ t => t.toNat < 3
  | .fmin _ _ _ t => t.toNat < 3
  | .fmax _ _ _ t => t.toNat < 3
  | .fcmp _ _ _ c t => t.toNat < 3 && (c.toNat < 3 || c.toNat == 4)
  | .fcvt _ _ u t => fcvtOk u.toNat t.toNat
  | .cmp _ _ _ c => c.toNat < 6
  | .pand .. => true
  | .por .. => true
  | .pxor .. => true
  | .pnot .. => true
  | .cmpi _ _ c _ => c.toNat < 6
  | .bp .. => true
  | .jal .. => true
  | .jalr .. => true
  | .loop .. => true
  | .ldb .. => true
  | .ldbu .. => true
  | .ldh .. => true
  | .ldhu .. => true
  | .ldw .. => true
  | .ldwu .. => true
  | .ldd .. => true
  | .stb .. => true
  | .sth .. => true
  | .stw .. => true
  | .std .. => true
  | .amoadd _ _ _ s _ _ => s.toNat < 5
  | .amoand _ _ _ s _ _ => s.toNat < 5
  | .amoor _ _ _ s _ _ => s.toNat < 5
  | .amoxor _ _ _ s _ _ => s.toNat < 5
  | .amomin _ _ _ s _ _ => s.toNat < 5
  | .amomax _ _ _ s _ _ => s.toNat < 5
  | .amominu _ _ _ s _ _ => s.toNat < 5
  | .amomaxu _ _ _ s _ _ => s.toNat < 5
  | .amoswap _ _ _ s _ _ => s.toNat < 5
  | .amocas _ _ _ s _ _ => s.toNat < 5
  | .fence s ord => s.toNat < 5 && ord.toNat != 0
  | .nop .. => true
  | .srd _ r => sysRegListed r.toNat
  | .swr _ r => sysRegListed r.toNat
  | .fpmodeWrite .. => true
  | .fpflagsRead .. => true
  | .fpflagsWrite .. => true
  | .mstatAccess .. => true
  | .refownerWrite .. => true
  | .errcolClear .. => true
  | .act .. => true
  | .acts .. => true
  | .wb .. => true
  | .wbk .. => true
  | .pre .. => true
  | .preall .. => true
  | .ref n => n.toNat != 0
  | .refn .. => true
  | .vgeom .. => true
  | .vtype d s t => vtypeOk d.toNat s.toNat t.toNat
  | .vsetvl .. => true
  | .vlopen .. => true
  | .pfx _ _ _ _ c cpen => cpen || c.toNat == 0
  | .vadd .. => true
  | .vsub .. => true
  | .vmul .. => true
  | .vmulh .. => true
  | .vmad .. => true
  | .vnmad .. => true
  | .vmin .. => true
  | .vmax .. => true
  | .vabs .. => true
  | .vneg .. => true
  | .vcvt .. => true
  | .vdot .. => true
  | .vand .. => true
  | .vor .. => true
  | .vxor .. => true
  | .vshl .. => true
  | .vshr .. => true
  | .vdiv .. => true
  | .vsqrt .. => true
  | .vrcp .. => true
  | .vrsq .. => true
  | .vexp2 .. => true
  | .vlog2 .. => true
  | .vscale .. => true
  | .vcmpEq .. => true
  | .vcmpNe .. => true
  | .vcmpLt .. => true
  | .vcmpLtu .. => true
  | .vcmpGe .. => true
  | .vcmpGeu .. => true
  | .vsel .. => true
  | .vaddVx .. => true
  | .vsubVx .. => true
  | .vmulVx .. => true
  | .vmulhVx .. => true
  | .vmadVx .. => true
  | .vnmadVx .. => true
  | .vminVx .. => true
  | .vmaxVx .. => true
  | .vdotVx .. => true
  | .vandVx .. => true
  | .vorVx .. => true
  | .vxorVx .. => true
  | .vshlVx .. => true
  | .vshrVx .. => true
  | .vdivVx .. => true
  | .vscaleVx .. => true
  | .vcmpEqVx .. => true
  | .vcmpNeVx .. => true
  | .vcmpLtVx .. => true
  | .vcmpLtuVx .. => true
  | .vcmpGeVx .. => true
  | .vcmpGeuVx .. => true
  | .vselVx .. => true
  | .vsplat .. => true
  | .viota .. => true
  | .vext .. => true
  | .vins .. => true
  | .kand .. => true
  | .kor .. => true
  | .kxor .. => true
  | .knot .. => true
  | .kmov .. => true
  | .kset .. => true
  | .kpop .. => true
  | .kfirst .. => true
  | .kany .. => true
  | .kall .. => true
  | .vradd .. => true
  | .vrmax .. => true
  | .vrmin .. => true
  | .vld .. => true
  | .vlds .. => true
  | .vldx .. => true
  | .vldxo .. => true
  | .vlsx .. => true
  | .vst .. => true
  | .vsts .. => true
  | .vstx .. => true
  | .vstxo .. => true
  | .vssx .. => true
  | .vupdAdd .. => true
  | .vupdMin .. => true
  | .vupdMax .. => true
  | .vupdAnd .. => true
  | .vupdOr .. => true
  | .vupdXor .. => true
  | .vperm .. => true
  | .vcomp .. => true
  | .vcompIdx d a b _ _ => b != d && b != a
  | .vexpd .. => true
  | .vrot .. => true
  | .vslideup .. => true
  | .vslidedn .. => true
  | .vcapp .. => true
  | .vshuf .. => true
  | .vbcast .. => true
  | .vallredAdd .. => true
  | .vallredMax .. => true
  | .vallredMin .. => true
  | .svfence .. => true
  | .vdrain s => s.toNat < 5
  | .tcfg .. => true
  | .tld .. => true
  | .tmul .. => true
  | .tmuls .. => true
  | .trd .. => true
  | .tacc .. => true
  | .tzero .. => true
  | .trel .. => true
  | .mset _ c r => c.toNat < 6 && r.toNat < 6
  | .mld .. => true
  | .mst .. => true
  | .mmul .. => true
  | .mmac .. => true
  | .madd .. => true
  | .mtrn .. => true
  | .mchol .. => true
  | .mlu .. => true
  | .msolv .. => true
  | .mscal .. => true
  | .mid .. => true
  | .mflag .. => true
  | .tspawn .. => true
  | .texit .. => true
  | .tyield .. => true
  | .tinfo _ s => s.toNat < 12
  | .qpush .. => true
  | .qpop .. => true
  | .keyrel .. => true
  | .keyq .. => true
  | .strip d _ _ => d.toNat % 2 == 0 && 2 ≤ d.toNat && d.toNat ≤ 28
  | .bar s => 1 ≤ s.toNat && s.toNat < 5
  | .bara s => 1 ≤ s.toNat && s.toNat < 5
  | .barw s => 1 ≤ s.toNat && s.toNat < 5
  | .scfg .. => true
  | .sstep .. => true
  | .sstat .. => true
  | .sclose .. => true
  | .waitev _ _ m => m.toNat < 64
  | .trap .. => true
  | .rft .. => true
  | .halt .. => true
  | .bbh .. => true
  | .mark .. => true
  | .bkpt .. => true
  | .sequencerIssue .. => true
  | .wayActivation .. => true
  | .elementGroupValid .. => true
  | .alertDeadline .. => true
  | .speculativePreactivation .. => true
  | .speculativeDiscard .. => true
  | .class5Promotion .. => true
  | .vectorRetire .. => true
  | .storeBufferPerform .. => true
  | .trapDelivery .. => true
  | .asyncDelivery .. => true
  | .stewardResume .. => true
  | .stewardDeliver .. => true
  | .taskEnd .. => true
  | .taskCompletion .. => true
  | .doorbell .. => true
  | .queueBind .. => true
  | .queueUnbind .. => true
  | .dispatchHead .. => true
  | .dependenceReread .. => true
  | .agingTick .. => true
  | .taskStart .. => true
  | .hartGrant .. => true
  | .preemptionRequest .. => true
  | .sliceExpiry .. => true
  | .hartHalt .. => true
  | .hartSaved .. => true
  | .hartResume .. => true
  | .barrierPhase .. => true
  | .collectiveJoin .. => true
  | .collectiveTransport .. => true
  | .tldTransfer .. => true
  | .streamFetch .. => true
  | .waitevWake .. => true
  | .waitevTimeout .. => true
  | .shootdown .. => true
  | .rowWindowReload .. => true
  | .rowWindowTimeout .. => true
  | .remoteResponse .. => true
  | .remoteTimeout .. => true
  | .scaleupPortFailure .. => true
  | .refreshInterval .. => true
  | .laneRetirement .. => true
  | .remapUpdate .. => true
  | .arrayRatioChange .. => true
  | .budgetRecompute .. => true
  | .monitorReading .. => true
  | .powerOn .. => true
  | .powerRemoval .. => true
  | .rdmaWrite .. => true
  | .rdmaRead .. => true
  | .fetchAndAdd .. => true
  | .cmpAndSwap .. => true
  | .unsupportedOperation .. => true
  | .attestationRequest .. => true
  | .keyEncapsulation .. => true
  | .modcapWrite .. => true
  | .registerWrite .. => true
  | .incomingRemoteAccess .. => true
  | .partitionCreation .. => true
  | .scalarRetire .. => true
  | .elementWritePerform .. => true

end Sys2Proof
end

