-- ==== Sys2Proof/Decode.lean ====
section
/-! DEFINITION. Decode.lean: from an instruction word to the instruction (R126 to R139), total on any word, and the encoder. -/

namespace Sys2Proof

/-- Why a word is no instruction; each raises ILLEGAL (R139). -/
inductive DecodeError
  | unassignedMajor (major : Nat)  -- R137: a major opcode that the map does not assign
  | unassigned                     -- R139: an unassigned selector, or a nonzero reserved field
  | badField                       -- R139: a field outside its assigned values (Instr.wf)
  deriving DecidableEq, Repr

/-- Bits [lo + n - 1 : lo] of the word w (R6). -/
def bits (w lo n : Nat) : Nat := w / 2 ^ lo % 2 ^ n

def decodeMajor01 (w : Nat) : Except DecodeError Instr :=
  if bits w 0 11 = 0 then .ok (.add (.ofNat 5 (bits w 21 5)) (.ofNat 5 (bits w 16 5)) (.ofNat 5 (bits w 11 5)))
  else if bits w 0 11 = 1 then .ok (.sub (.ofNat 5 (bits w 21 5)) (.ofNat 5 (bits w 16 5)) (.ofNat 5 (bits w 11 5)))
  else if bits w 0 11 = 2 then .ok (.mul (.ofNat 5 (bits w 21 5)) (.ofNat 5 (bits w 16 5)) (.ofNat 5 (bits w 11 5)))
  else if bits w 0 11 = 3 then .ok (.mulh (.ofNat 5 (bits w 21 5)) (.ofNat 5 (bits w 16 5)) (.ofNat 5 (bits w 11 5)))
  else if bits w 0 11 = 4 then .ok (.mulhu (.ofNat 5 (bits w 21 5)) (.ofNat 5 (bits w 16 5)) (.ofNat 5 (bits w 11 5)))
  else if bits w 0 11 = 5 then .ok (.div (.ofNat 5 (bits w 21 5)) (.ofNat 5 (bits w 16 5)) (.ofNat 5 (bits w 11 5)))
  else if bits w 0 11 = 6 then .ok (.divu (.ofNat 5 (bits w 21 5)) (.ofNat 5 (bits w 16 5)) (.ofNat 5 (bits w 11 5)))
  else if bits w 0 11 = 7 then .ok (.rem (.ofNat 5 (bits w 21 5)) (.ofNat 5 (bits w 16 5)) (.ofNat 5 (bits w 11 5)))
  else if bits w 0 11 = 8 then .ok (.remu (.ofNat 5 (bits w 21 5)) (.ofNat 5 (bits w 16 5)) (.ofNat 5 (bits w 11 5)))
  else if bits w 0 11 = 9 then .ok (.and (.ofNat 5 (bits w 21 5)) (.ofNat 5 (bits w 16 5)) (.ofNat 5 (bits w 11 5)))
  else if bits w 0 11 = 10 then .ok (.or (.ofNat 5 (bits w 21 5)) (.ofNat 5 (bits w 16 5)) (.ofNat 5 (bits w 11 5)))
  else if bits w 0 11 = 11 then .ok (.xor (.ofNat 5 (bits w 21 5)) (.ofNat 5 (bits w 16 5)) (.ofNat 5 (bits w 11 5)))
  else if bits w 0 11 = 12 then .ok (.shl (.ofNat 5 (bits w 21 5)) (.ofNat 5 (bits w 16 5)) (.ofNat 5 (bits w 11 5)))
  else if bits w 0 11 = 13 then .ok (.shr (.ofNat 5 (bits w 21 5)) (.ofNat 5 (bits w 16 5)) (.ofNat 5 (bits w 11 5)))
  else if bits w 0 11 = 14 then .ok (.sra (.ofNat 5 (bits w 21 5)) (.ofNat 5 (bits w 16 5)) (.ofNat 5 (bits w 11 5)))
  else if bits w 0 11 = 15 then .ok (.min (.ofNat 5 (bits w 21 5)) (.ofNat 5 (bits w 16 5)) (.ofNat 5 (bits w 11 5)))
  else if bits w 0 11 = 16 then .ok (.max (.ofNat 5 (bits w 21 5)) (.ofNat 5 (bits w 16 5)) (.ofNat 5 (bits w 11 5)))
  else if bits w 0 11 = 17 then .ok (.minu (.ofNat 5 (bits w 21 5)) (.ofNat 5 (bits w 16 5)) (.ofNat 5 (bits w 11 5)))
  else if bits w 0 11 = 18 then .ok (.maxu (.ofNat 5 (bits w 21 5)) (.ofNat 5 (bits w 16 5)) (.ofNat 5 (bits w 11 5)))
  else if bits w 0 16 = 19 then .ok (.clz (.ofNat 5 (bits w 21 5)) (.ofNat 5 (bits w 16 5)))
  else if bits w 0 16 = 20 then .ok (.ctz (.ofNat 5 (bits w 21 5)) (.ofNat 5 (bits w 16 5)))
  else if bits w 0 16 = 21 then .ok (.popc (.ofNat 5 (bits w 21 5)) (.ofNat 5 (bits w 16 5)))
  else if bits w 0 8 = 32 then .ok (.sel (.ofNat 5 (bits w 21 5)) (.ofNat 5 (bits w 16 5)) (.ofNat 5 (bits w 11 5)) (.ofNat 3 (bits w 8 3)))
  else .error .unassigned

def decodeMajor02 (w : Nat) : Except DecodeError Instr :=
  .ok (.addi (.ofNat 5 (bits w 21 5)) (.ofNat 5 (bits w 16 5)) (.ofNat 16 (bits w 0 16)))

def decodeMajor03 (w : Nat) : Except DecodeError Instr :=
  .ok (.andi (.ofNat 5 (bits w 21 5)) (.ofNat 5 (bits w 16 5)) (.ofNat 16 (bits w 0 16)))

def decodeMajor04 (w : Nat) : Except DecodeError Instr :=
  .ok (.ori (.ofNat 5 (bits w 21 5)) (.ofNat 5 (bits w 16 5)) (.ofNat 16 (bits w 0 16)))

def decodeMajor05 (w : Nat) : Except DecodeError Instr :=
  .ok (.xori (.ofNat 5 (bits w 21 5)) (.ofNat 5 (bits w 16 5)) (.ofNat 16 (bits w 0 16)))

def decodeMajor06 (w : Nat) : Except DecodeError Instr :=
  if bits w 6 10 = 0 then .ok (.shli (.ofNat 5 (bits w 21 5)) (.ofNat 5 (bits w 16 5)) (.ofNat 6 (bits w 0 6)))
  else if bits w 6 10 = 4 then .ok (.shri (.ofNat 5 (bits w 21 5)) (.ofNat 5 (bits w 16 5)) (.ofNat 6 (bits w 0 6)))
  else if bits w 6 10 = 8 then .ok (.srai (.ofNat 5 (bits w 21 5)) (.ofNat 5 (bits w 16 5)) (.ofNat 6 (bits w 0 6)))
  else .error .unassigned

def decodeMajor07 (w : Nat) : Except DecodeError Instr :=
  if bits w 16 5 = 0 then .ok (.lui (.ofNat 5 (bits w 21 5)) (.ofNat 16 (bits w 0 16)))
  else .error .unassigned

def decodeMajor08 (w : Nat) : Except DecodeError Instr :=
  if bits w 16 5 = 0 then .ok (.addpc (.ofNat 5 (bits w 21 5)) (.ofNat 16 (bits w 0 16)))
  else .error .unassigned

def decodeMajor09 (w : Nat) : Except DecodeError Instr :=
  if bits w 0 5 = 0 ∧ bits w 8 3 = 0 then .ok (.fadd (.ofNat 5 (bits w 21 5)) (.ofNat 5 (bits w 16 5)) (.ofNat 5 (bits w 11 5)) (.ofNat 3 (bits w 5 3)))
  else if bits w 0 5 = 1 ∧ bits w 8 3 = 0 then .ok (.fsub (.ofNat 5 (bits w 21 5)) (.ofNat 5 (bits w 16 5)) (.ofNat 5 (bits w 11 5)) (.ofNat 3 (bits w 5 3)))
  else if bits w 0 5 = 2 ∧ bits w 8 3 = 0 then .ok (.fmul (.ofNat 5 (bits w 21 5)) (.ofNat 5 (bits w 16 5)) (.ofNat 5 (bits w 11 5)) (.ofNat 3 (bits w 5 3)))
  else if bits w 0 5 = 3 ∧ bits w 8 3 = 0 then .ok (.fma (.ofNat 5 (bits w 21 5)) (.ofNat 5 (bits w 16 5)) (.ofNat 5 (bits w 11 5)) (.ofNat 3 (bits w 5 3)))
  else if bits w 0 5 = 4 ∧ bits w 8 3 = 0 then .ok (.fmin (.ofNat 5 (bits w 21 5)) (.ofNat 5 (bits w 16 5)) (.ofNat 5 (bits w 11 5)) (.ofNat 3 (bits w 5 3)))
  else if bits w 0 5 = 5 ∧ bits w 8 3 = 0 then .ok (.fmax (.ofNat 5 (bits w 21 5)) (.ofNat 5 (bits w 16 5)) (.ofNat 5 (bits w 11 5)) (.ofNat 3 (bits w 5 3)))
  else if bits w 0 5 = 6 ∧ bits w 24 2 = 0 then .ok (.fcmp (.ofNat 3 (bits w 21 3)) (.ofNat 5 (bits w 16 5)) (.ofNat 5 (bits w 11 5)) (.ofNat 3 (bits w 8 3)) (.ofNat 3 (bits w 5 3)))
  else if bits w 0 5 = 7 ∧ bits w 11 5 = 0 then .ok (.fcvt (.ofNat 5 (bits w 21 5)) (.ofNat 5 (bits w 16 5)) (.ofNat 3 (bits w 8 3)) (.ofNat 3 (bits w 5 3)))
  else .error .unassigned

def decodeMajor10 (w : Nat) : Except DecodeError Instr :=
  if bits w 3 8 = 0 ∧ bits w 24 2 = 0 then .ok (.cmp (.ofNat 3 (bits w 21 3)) (.ofNat 5 (bits w 16 5)) (.ofNat 5 (bits w 11 5)) (.ofNat 3 (bits w 0 3)))
  else if bits w 0 11 = 256 ∧ bits w 14 2 = 0 ∧ bits w 19 2 = 0 ∧ bits w 24 2 = 0 then .ok (.pand (.ofNat 3 (bits w 21 3)) (.ofNat 3 (bits w 16 3)) (.ofNat 3 (bits w 11 3)))
  else if bits w 0 11 = 257 ∧ bits w 14 2 = 0 ∧ bits w 19 2 = 0 ∧ bits w 24 2 = 0 then .ok (.por (.ofNat 3 (bits w 21 3)) (.ofNat 3 (bits w 16 3)) (.ofNat 3 (bits w 11 3)))
  else if bits w 0 11 = 258 ∧ bits w 14 2 = 0 ∧ bits w 19 2 = 0 ∧ bits w 24 2 = 0 then .ok (.pxor (.ofNat 3 (bits w 21 3)) (.ofNat 3 (bits w 16 3)) (.ofNat 3 (bits w 11 3)))
  else if bits w 0 16 = 259 ∧ bits w 19 2 = 0 ∧ bits w 24 2 = 0 then .ok (.pnot (.ofNat 3 (bits w 21 3)) (.ofNat 3 (bits w 16 3)))
  else .error .unassigned

def decodeMajor11 (w : Nat) : Except DecodeError Instr :=
  if bits w 24 2 = 0 then .ok (.cmpi (.ofNat 3 (bits w 21 3)) (.ofNat 5 (bits w 16 5)) (.ofNat 3 (bits w 13 3)) (.ofNat 13 (bits w 0 13)))
  else .error .unassigned

def decodeMajor12 (w : Nat) : Except DecodeError Instr :=
  .ok (.bp (.ofNat 3 (bits w 23 3)) (bits w 22 1 == 1) (.ofNat 22 (bits w 0 22)))

def decodeMajor13 (w : Nat) : Except DecodeError Instr :=
  if bits w 14 7 = 0 then .ok (.jal (.ofNat 5 (bits w 21 5)) (.ofNat 14 (bits w 0 14)))
  else if bits w 14 2 = 1 then .ok (.jalr (.ofNat 5 (bits w 21 5)) (.ofNat 5 (bits w 16 5)) (.ofNat 14 (bits w 0 14)))
  else if bits w 14 2 = 2 ∧ bits w 21 5 = 0 then .ok (.loop (.ofNat 5 (bits w 16 5)) (.ofNat 14 (bits w 0 14)))
  else .error .unassigned

def decodeMajor14 (w : Nat) : Except DecodeError Instr :=
  if bits w 13 3 = 0 then .ok (.ldb (.ofNat 5 (bits w 21 5)) (.ofNat 5 (bits w 16 5)) (.ofNat 13 (bits w 0 13)))
  else if bits w 13 3 = 1 then .ok (.ldbu (.ofNat 5 (bits w 21 5)) (.ofNat 5 (bits w 16 5)) (.ofNat 13 (bits w 0 13)))
  else if bits w 13 3 = 2 then .ok (.ldh (.ofNat 5 (bits w 21 5)) (.ofNat 5 (bits w 16 5)) (.ofNat 13 (bits w 0 13)))
  else if bits w 13 3 = 3 then .ok (.ldhu (.ofNat 5 (bits w 21 5)) (.ofNat 5 (bits w 16 5)) (.ofNat 13 (bits w 0 13)))
  else if bits w 13 3 = 4 then .ok (.ldw (.ofNat 5 (bits w 21 5)) (.ofNat 5 (bits w 16 5)) (.ofNat 13 (bits w 0 13)))
  else if bits w 13 3 = 5 then .ok (.ldwu (.ofNat 5 (bits w 21 5)) (.ofNat 5 (bits w 16 5)) (.ofNat 13 (bits w 0 13)))
  else if bits w 13 3 = 6 then .ok (.ldd (.ofNat 5 (bits w 21 5)) (.ofNat 5 (bits w 16 5)) (.ofNat 13 (bits w 0 13)))
  else .error .unassigned

def decodeMajor15 (w : Nat) : Except DecodeError Instr :=
  if bits w 13 3 = 0 then .ok (.stb (.ofNat 5 (bits w 21 5)) (.ofNat 5 (bits w 16 5)) (.ofNat 13 (bits w 0 13)))
  else if bits w 13 3 = 1 then .ok (.sth (.ofNat 5 (bits w 21 5)) (.ofNat 5 (bits w 16 5)) (.ofNat 13 (bits w 0 13)))
  else if bits w 13 3 = 2 then .ok (.stw (.ofNat 5 (bits w 21 5)) (.ofNat 5 (bits w 16 5)) (.ofNat 13 (bits w 0 13)))
  else if bits w 13 3 = 3 then .ok (.std (.ofNat 5 (bits w 21 5)) (.ofNat 5 (bits w 16 5)) (.ofNat 13 (bits w 0 13)))
  else .error .unassigned

def decodeMajor16 (w : Nat) : Except DecodeError Instr :=
  if bits w 0 4 = 0 ∧ bits w 5 1 = 0 then .ok (.amoadd (.ofNat 5 (bits w 21 5)) (.ofNat 5 (bits w 16 5)) (.ofNat 5 (bits w 11 5)) (.ofNat 3 (bits w 8 3)) (.ofNat 2 (bits w 6 2)) (bits w 4 1 == 1))
  else if bits w 0 4 = 1 ∧ bits w 5 1 = 0 then .ok (.amoand (.ofNat 5 (bits w 21 5)) (.ofNat 5 (bits w 16 5)) (.ofNat 5 (bits w 11 5)) (.ofNat 3 (bits w 8 3)) (.ofNat 2 (bits w 6 2)) (bits w 4 1 == 1))
  else if bits w 0 4 = 2 ∧ bits w 5 1 = 0 then .ok (.amoor (.ofNat 5 (bits w 21 5)) (.ofNat 5 (bits w 16 5)) (.ofNat 5 (bits w 11 5)) (.ofNat 3 (bits w 8 3)) (.ofNat 2 (bits w 6 2)) (bits w 4 1 == 1))
  else if bits w 0 4 = 3 ∧ bits w 5 1 = 0 then .ok (.amoxor (.ofNat 5 (bits w 21 5)) (.ofNat 5 (bits w 16 5)) (.ofNat 5 (bits w 11 5)) (.ofNat 3 (bits w 8 3)) (.ofNat 2 (bits w 6 2)) (bits w 4 1 == 1))
  else if bits w 0 4 = 4 ∧ bits w 5 1 = 0 then .ok (.amomin (.ofNat 5 (bits w 21 5)) (.ofNat 5 (bits w 16 5)) (.ofNat 5 (bits w 11 5)) (.ofNat 3 (bits w 8 3)) (.ofNat 2 (bits w 6 2)) (bits w 4 1 == 1))
  else if bits w 0 4 = 5 ∧ bits w 5 1 = 0 then .ok (.amomax (.ofNat 5 (bits w 21 5)) (.ofNat 5 (bits w 16 5)) (.ofNat 5 (bits w 11 5)) (.ofNat 3 (bits w 8 3)) (.ofNat 2 (bits w 6 2)) (bits w 4 1 == 1))
  else if bits w 0 4 = 6 ∧ bits w 5 1 = 0 then .ok (.amominu (.ofNat 5 (bits w 21 5)) (.ofNat 5 (bits w 16 5)) (.ofNat 5 (bits w 11 5)) (.ofNat 3 (bits w 8 3)) (.ofNat 2 (bits w 6 2)) (bits w 4 1 == 1))
  else if bits w 0 4 = 7 ∧ bits w 5 1 = 0 then .ok (.amomaxu (.ofNat 5 (bits w 21 5)) (.ofNat 5 (bits w 16 5)) (.ofNat 5 (bits w 11 5)) (.ofNat 3 (bits w 8 3)) (.ofNat 2 (bits w 6 2)) (bits w 4 1 == 1))
  else if bits w 0 4 = 8 ∧ bits w 5 1 = 0 then .ok (.amoswap (.ofNat 5 (bits w 21 5)) (.ofNat 5 (bits w 16 5)) (.ofNat 5 (bits w 11 5)) (.ofNat 3 (bits w 8 3)) (.ofNat 2 (bits w 6 2)) (bits w 4 1 == 1))
  else if bits w 0 4 = 9 ∧ bits w 5 1 = 0 then .ok (.amocas (.ofNat 5 (bits w 21 5)) (.ofNat 5 (bits w 16 5)) (.ofNat 5 (bits w 11 5)) (.ofNat 3 (bits w 8 3)) (.ofNat 2 (bits w 6 2)) (bits w 4 1 == 1))
  else if bits w 0 6 = 63 ∧ bits w 11 15 = 0 then .ok (.fence (.ofNat 3 (bits w 8 3)) (.ofNat 2 (bits w 6 2)))
  else .error .unassigned

def decodeMajor17 (w : Nat) : Except DecodeError Instr :=
  if bits w 0 26 = 0 then .ok (.nop)
  else if bits w 12 9 = 4 then .ok (.srd (.ofNat 5 (bits w 21 5)) (.ofNat 12 (bits w 0 12)))
  else if bits w 12 4 = 8 ∧ bits w 21 5 = 0 then .ok (.swr (.ofNat 5 (bits w 16 5)) (.ofNat 12 (bits w 0 12)))
  else .error .unassigned

def decodeMajor18 (w : Nat) : Except DecodeError Instr :=
  if bits w 0 12 = 0 then .ok (.act (.ofNat 6 (bits w 20 6)) (.ofNat 5 (bits w 15 5)) (.ofNat 3 (bits w 12 3)))
  else if bits w 0 12 = 1 then .ok (.acts (.ofNat 6 (bits w 20 6)) (.ofNat 5 (bits w 15 5)) (.ofNat 3 (bits w 12 3)))
  else if bits w 0 15 = 2 then .ok (.wb (.ofNat 6 (bits w 20 6)) (.ofNat 5 (bits w 15 5)))
  else if bits w 0 4 = 3 ∧ bits w 7 8 = 0 then .ok (.wbk (.ofNat 6 (bits w 20 6)) (.ofNat 5 (bits w 15 5)) (.ofNat 3 (bits w 4 3)))
  else if bits w 0 20 = 4 then .ok (.pre (.ofNat 6 (bits w 20 6)))
  else if bits w 0 26 = 5 then .ok (.preall)
  else if bits w 0 4 = 6 ∧ bits w 12 14 = 0 then .ok (.ref (.ofNat 8 (bits w 4 8)))
  else if bits w 0 15 = 7 ∧ bits w 20 6 = 0 then .ok (.refn (.ofNat 5 (bits w 15 5)))
  else .error .unassigned

def decodeMajor19 (w : Nat) : Except DecodeError Instr :=
  if bits w 0 4 = 0 ∧ bits w 6 20 = 0 then .ok (.vgeom (.ofNat 2 (bits w 4 2)))
  else if bits w 0 9 = 1 then .ok (.vtype (.ofNat 6 (bits w 20 6)) (.ofNat 6 (bits w 14 6)) (.ofNat 5 (bits w 9 5)))
  else if bits w 0 4 = 2 ∧ bits w 6 3 = 0 ∧ bits w 14 6 = 0 ∧ bits w 25 1 = 0 then .ok (.vsetvl (.ofNat 5 (bits w 20 5)) (.ofNat 5 (bits w 9 5)) (.ofNat 2 (bits w 4 2)))
  else if bits w 0 20 = 3 then .ok (.vlopen (.ofNat 6 (bits w 20 6)))
  else .error .unassigned

def decodeMajor1A (w : Nat) : Except DecodeError Instr :=
  if bits w 0 13 = 0 then .ok (.pfx (.ofNat 3 (bits w 23 3)) (bits w 22 1 == 1) (bits w 21 1 == 1) (bits w 20 1 == 1) (.ofNat 6 (bits w 14 6)) (bits w 13 1 == 1))
  else .error .unassigned

def decodeMajor1C (w : Nat) : Except DecodeError Instr :=
  if bits w 0 5 = 0 then .ok (.vadd (.ofNat 3 (w / 2 ^ 26 - 28)) (.ofNat 6 (bits w 20 6)) (.ofNat 6 (bits w 14 6)) (.ofNat 6 (bits w 8 6)) (bits w 7 1 == 1) (bits w 6 1 == 1) (bits w 5 1 == 1))
  else if bits w 0 5 = 1 then .ok (.vsub (.ofNat 3 (w / 2 ^ 26 - 28)) (.ofNat 6 (bits w 20 6)) (.ofNat 6 (bits w 14 6)) (.ofNat 6 (bits w 8 6)) (bits w 7 1 == 1) (bits w 6 1 == 1) (bits w 5 1 == 1))
  else if bits w 0 5 = 2 then .ok (.vmul (.ofNat 3 (w / 2 ^ 26 - 28)) (.ofNat 6 (bits w 20 6)) (.ofNat 6 (bits w 14 6)) (.ofNat 6 (bits w 8 6)) (bits w 7 1 == 1) (bits w 6 1 == 1) (bits w 5 1 == 1))
  else if bits w 0 5 = 3 then .ok (.vmulh (.ofNat 3 (w / 2 ^ 26 - 28)) (.ofNat 6 (bits w 20 6)) (.ofNat 6 (bits w 14 6)) (.ofNat 6 (bits w 8 6)) (bits w 7 1 == 1) (bits w 6 1 == 1) (bits w 5 1 == 1))
  else if bits w 0 5 = 4 then .ok (.vmad (.ofNat 3 (w / 2 ^ 26 - 28)) (.ofNat 6 (bits w 20 6)) (.ofNat 6 (bits w 14 6)) (.ofNat 6 (bits w 8 6)) (bits w 7 1 == 1) (bits w 6 1 == 1) (bits w 5 1 == 1))
  else if bits w 0 5 = 5 then .ok (.vnmad (.ofNat 3 (w / 2 ^ 26 - 28)) (.ofNat 6 (bits w 20 6)) (.ofNat 6 (bits w 14 6)) (.ofNat 6 (bits w 8 6)) (bits w 7 1 == 1) (bits w 6 1 == 1) (bits w 5 1 == 1))
  else if bits w 0 5 = 6 then .ok (.vmin (.ofNat 3 (w / 2 ^ 26 - 28)) (.ofNat 6 (bits w 20 6)) (.ofNat 6 (bits w 14 6)) (.ofNat 6 (bits w 8 6)) (bits w 7 1 == 1) (bits w 6 1 == 1) (bits w 5 1 == 1))
  else if bits w 0 5 = 7 then .ok (.vmax (.ofNat 3 (w / 2 ^ 26 - 28)) (.ofNat 6 (bits w 20 6)) (.ofNat 6 (bits w 14 6)) (.ofNat 6 (bits w 8 6)) (bits w 7 1 == 1) (bits w 6 1 == 1) (bits w 5 1 == 1))
  else if bits w 0 5 = 8 ∧ bits w 6 1 = 0 ∧ bits w 8 6 = 0 then .ok (.vabs (.ofNat 3 (w / 2 ^ 26 - 28)) (.ofNat 6 (bits w 20 6)) (.ofNat 6 (bits w 14 6)) (bits w 7 1 == 1) (bits w 5 1 == 1))
  else if bits w 0 5 = 9 ∧ bits w 6 1 = 0 ∧ bits w 8 6 = 0 then .ok (.vneg (.ofNat 3 (w / 2 ^ 26 - 28)) (.ofNat 6 (bits w 20 6)) (.ofNat 6 (bits w 14 6)) (bits w 7 1 == 1) (bits w 5 1 == 1))
  else if bits w 0 5 = 10 ∧ bits w 6 1 = 0 ∧ bits w 8 6 = 0 then .ok (.vcvt (.ofNat 3 (w / 2 ^ 26 - 28)) (.ofNat 6 (bits w 20 6)) (.ofNat 6 (bits w 14 6)) (bits w 7 1 == 1) (bits w 5 1 == 1))
  else if bits w 0 5 = 11 then .ok (.vdot (.ofNat 3 (w / 2 ^ 26 - 28)) (.ofNat 6 (bits w 20 6)) (.ofNat 6 (bits w 14 6)) (.ofNat 6 (bits w 8 6)) (bits w 7 1 == 1) (bits w 6 1 == 1) (bits w 5 1 == 1))
  else if bits w 0 5 = 12 then .ok (.vand (.ofNat 3 (w / 2 ^ 26 - 28)) (.ofNat 6 (bits w 20 6)) (.ofNat 6 (bits w 14 6)) (.ofNat 6 (bits w 8 6)) (bits w 7 1 == 1) (bits w 6 1 == 1) (bits w 5 1 == 1))
  else if bits w 0 5 = 13 then .ok (.vor (.ofNat 3 (w / 2 ^ 26 - 28)) (.ofNat 6 (bits w 20 6)) (.ofNat 6 (bits w 14 6)) (.ofNat 6 (bits w 8 6)) (bits w 7 1 == 1) (bits w 6 1 == 1) (bits w 5 1 == 1))
  else if bits w 0 5 = 14 then .ok (.vxor (.ofNat 3 (w / 2 ^ 26 - 28)) (.ofNat 6 (bits w 20 6)) (.ofNat 6 (bits w 14 6)) (.ofNat 6 (bits w 8 6)) (bits w 7 1 == 1) (bits w 6 1 == 1) (bits w 5 1 == 1))
  else if bits w 0 5 = 15 then .ok (.vshl (.ofNat 3 (w / 2 ^ 26 - 28)) (.ofNat 6 (bits w 20 6)) (.ofNat 6 (bits w 14 6)) (.ofNat 6 (bits w 8 6)) (bits w 7 1 == 1) (bits w 6 1 == 1) (bits w 5 1 == 1))
  else if bits w 0 5 = 16 then .ok (.vshr (.ofNat 3 (w / 2 ^ 26 - 28)) (.ofNat 6 (bits w 20 6)) (.ofNat 6 (bits w 14 6)) (.ofNat 6 (bits w 8 6)) (bits w 7 1 == 1) (bits w 6 1 == 1) (bits w 5 1 == 1))
  else if bits w 0 5 = 17 then .ok (.vdiv (.ofNat 3 (w / 2 ^ 26 - 28)) (.ofNat 6 (bits w 20 6)) (.ofNat 6 (bits w 14 6)) (.ofNat 6 (bits w 8 6)) (bits w 7 1 == 1) (bits w 6 1 == 1) (bits w 5 1 == 1))
  else if bits w 0 5 = 18 ∧ bits w 6 1 = 0 ∧ bits w 8 6 = 0 then .ok (.vsqrt (.ofNat 3 (w / 2 ^ 26 - 28)) (.ofNat 6 (bits w 20 6)) (.ofNat 6 (bits w 14 6)) (bits w 7 1 == 1) (bits w 5 1 == 1))
  else if bits w 0 5 = 19 ∧ bits w 6 1 = 0 ∧ bits w 8 6 = 0 then .ok (.vrcp (.ofNat 3 (w / 2 ^ 26 - 28)) (.ofNat 6 (bits w 20 6)) (.ofNat 6 (bits w 14 6)) (bits w 7 1 == 1) (bits w 5 1 == 1))
  else if bits w 0 5 = 20 ∧ bits w 6 1 = 0 ∧ bits w 8 6 = 0 then .ok (.vrsq (.ofNat 3 (w / 2 ^ 26 - 28)) (.ofNat 6 (bits w 20 6)) (.ofNat 6 (bits w 14 6)) (bits w 7 1 == 1) (bits w 5 1 == 1))
  else if bits w 0 5 = 21 ∧ bits w 6 1 = 0 ∧ bits w 8 6 = 0 then .ok (.vexp2 (.ofNat 3 (w / 2 ^ 26 - 28)) (.ofNat 6 (bits w 20 6)) (.ofNat 6 (bits w 14 6)) (bits w 7 1 == 1) (bits w 5 1 == 1))
  else if bits w 0 5 = 22 ∧ bits w 6 1 = 0 ∧ bits w 8 6 = 0 then .ok (.vlog2 (.ofNat 3 (w / 2 ^ 26 - 28)) (.ofNat 6 (bits w 20 6)) (.ofNat 6 (bits w 14 6)) (bits w 7 1 == 1) (bits w 5 1 == 1))
  else if bits w 0 5 = 23 then .ok (.vscale (.ofNat 3 (w / 2 ^ 26 - 28)) (.ofNat 6 (bits w 20 6)) (.ofNat 6 (bits w 14 6)) (.ofNat 6 (bits w 8 6)) (bits w 7 1 == 1) (bits w 6 1 == 1) (bits w 5 1 == 1))
  else if bits w 0 5 = 24 ∧ bits w 23 3 = 0 then .ok (.vcmpEq (.ofNat 3 (w / 2 ^ 26 - 28)) (.ofNat 3 (bits w 20 3)) (.ofNat 6 (bits w 14 6)) (.ofNat 6 (bits w 8 6)) (bits w 7 1 == 1) (bits w 6 1 == 1) (bits w 5 1 == 1))
  else if bits w 0 5 = 25 ∧ bits w 23 3 = 0 then .ok (.vcmpNe (.ofNat 3 (w / 2 ^ 26 - 28)) (.ofNat 3 (bits w 20 3)) (.ofNat 6 (bits w 14 6)) (.ofNat 6 (bits w 8 6)) (bits w 7 1 == 1) (bits w 6 1 == 1) (bits w 5 1 == 1))
  else if bits w 0 5 = 26 ∧ bits w 23 3 = 0 then .ok (.vcmpLt (.ofNat 3 (w / 2 ^ 26 - 28)) (.ofNat 3 (bits w 20 3)) (.ofNat 6 (bits w 14 6)) (.ofNat 6 (bits w 8 6)) (bits w 7 1 == 1) (bits w 6 1 == 1) (bits w 5 1 == 1))
  else if bits w 0 5 = 27 ∧ bits w 23 3 = 0 then .ok (.vcmpLtu (.ofNat 3 (w / 2 ^ 26 - 28)) (.ofNat 3 (bits w 20 3)) (.ofNat 6 (bits w 14 6)) (.ofNat 6 (bits w 8 6)) (bits w 7 1 == 1) (bits w 6 1 == 1) (bits w 5 1 == 1))
  else if bits w 0 5 = 28 ∧ bits w 23 3 = 0 then .ok (.vcmpGe (.ofNat 3 (w / 2 ^ 26 - 28)) (.ofNat 3 (bits w 20 3)) (.ofNat 6 (bits w 14 6)) (.ofNat 6 (bits w 8 6)) (bits w 7 1 == 1) (bits w 6 1 == 1) (bits w 5 1 == 1))
  else if bits w 0 5 = 29 ∧ bits w 23 3 = 0 then .ok (.vcmpGeu (.ofNat 3 (w / 2 ^ 26 - 28)) (.ofNat 3 (bits w 20 3)) (.ofNat 6 (bits w 14 6)) (.ofNat 6 (bits w 8 6)) (bits w 7 1 == 1) (bits w 6 1 == 1) (bits w 5 1 == 1))
  else if bits w 0 5 = 30 then .ok (.vsel (.ofNat 3 (w / 2 ^ 26 - 28)) (.ofNat 6 (bits w 20 6)) (.ofNat 6 (bits w 14 6)) (.ofNat 6 (bits w 8 6)) (bits w 7 1 == 1) (bits w 6 1 == 1) (bits w 5 1 == 1))
  else .error .unassigned

def decodeMajor24 (w : Nat) : Except DecodeError Instr :=
  if bits w 0 5 = 0 then .ok (.vaddVx (.ofNat 6 (bits w 20 6)) (.ofNat 6 (bits w 14 6)) (.ofNat 5 (bits w 9 5)) (bits w 8 1 == 1) (bits w 7 1 == 1) (.ofNat 2 (bits w 5 2)))
  else if bits w 0 5 = 1 then .ok (.vsubVx (.ofNat 6 (bits w 20 6)) (.ofNat 6 (bits w 14 6)) (.ofNat 5 (bits w 9 5)) (bits w 8 1 == 1) (bits w 7 1 == 1) (.ofNat 2 (bits w 5 2)))
  else if bits w 0 5 = 2 then .ok (.vmulVx (.ofNat 6 (bits w 20 6)) (.ofNat 6 (bits w 14 6)) (.ofNat 5 (bits w 9 5)) (bits w 8 1 == 1) (bits w 7 1 == 1) (.ofNat 2 (bits w 5 2)))
  else if bits w 0 5 = 3 then .ok (.vmulhVx (.ofNat 6 (bits w 20 6)) (.ofNat 6 (bits w 14 6)) (.ofNat 5 (bits w 9 5)) (bits w 8 1 == 1) (bits w 7 1 == 1) (.ofNat 2 (bits w 5 2)))
  else if bits w 0 5 = 4 then .ok (.vmadVx (.ofNat 6 (bits w 20 6)) (.ofNat 6 (bits w 14 6)) (.ofNat 5 (bits w 9 5)) (bits w 8 1 == 1) (bits w 7 1 == 1) (.ofNat 2 (bits w 5 2)))
  else if bits w 0 5 = 5 then .ok (.vnmadVx (.ofNat 6 (bits w 20 6)) (.ofNat 6 (bits w 14 6)) (.ofNat 5 (bits w 9 5)) (bits w 8 1 == 1) (bits w 7 1 == 1) (.ofNat 2 (bits w 5 2)))
  else if bits w 0 5 = 6 then .ok (.vminVx (.ofNat 6 (bits w 20 6)) (.ofNat 6 (bits w 14 6)) (.ofNat 5 (bits w 9 5)) (bits w 8 1 == 1) (bits w 7 1 == 1) (.ofNat 2 (bits w 5 2)))
  else if bits w 0 5 = 7 then .ok (.vmaxVx (.ofNat 6 (bits w 20 6)) (.ofNat 6 (bits w 14 6)) (.ofNat 5 (bits w 9 5)) (bits w 8 1 == 1) (bits w 7 1 == 1) (.ofNat 2 (bits w 5 2)))
  else if bits w 0 5 = 11 then .ok (.vdotVx (.ofNat 6 (bits w 20 6)) (.ofNat 6 (bits w 14 6)) (.ofNat 5 (bits w 9 5)) (bits w 8 1 == 1) (bits w 7 1 == 1) (.ofNat 2 (bits w 5 2)))
  else if bits w 0 5 = 12 then .ok (.vandVx (.ofNat 6 (bits w 20 6)) (.ofNat 6 (bits w 14 6)) (.ofNat 5 (bits w 9 5)) (bits w 8 1 == 1) (bits w 7 1 == 1) (.ofNat 2 (bits w 5 2)))
  else if bits w 0 5 = 13 then .ok (.vorVx (.ofNat 6 (bits w 20 6)) (.ofNat 6 (bits w 14 6)) (.ofNat 5 (bits w 9 5)) (bits w 8 1 == 1) (bits w 7 1 == 1) (.ofNat 2 (bits w 5 2)))
  else if bits w 0 5 = 14 then .ok (.vxorVx (.ofNat 6 (bits w 20 6)) (.ofNat 6 (bits w 14 6)) (.ofNat 5 (bits w 9 5)) (bits w 8 1 == 1) (bits w 7 1 == 1) (.ofNat 2 (bits w 5 2)))
  else if bits w 0 5 = 15 then .ok (.vshlVx (.ofNat 6 (bits w 20 6)) (.ofNat 6 (bits w 14 6)) (.ofNat 5 (bits w 9 5)) (bits w 8 1 == 1) (bits w 7 1 == 1) (.ofNat 2 (bits w 5 2)))
  else if bits w 0 5 = 16 then .ok (.vshrVx (.ofNat 6 (bits w 20 6)) (.ofNat 6 (bits w 14 6)) (.ofNat 5 (bits w 9 5)) (bits w 8 1 == 1) (bits w 7 1 == 1) (.ofNat 2 (bits w 5 2)))
  else if bits w 0 5 = 17 then .ok (.vdivVx (.ofNat 6 (bits w 20 6)) (.ofNat 6 (bits w 14 6)) (.ofNat 5 (bits w 9 5)) (bits w 8 1 == 1) (bits w 7 1 == 1) (.ofNat 2 (bits w 5 2)))
  else if bits w 0 5 = 23 then .ok (.vscaleVx (.ofNat 6 (bits w 20 6)) (.ofNat 6 (bits w 14 6)) (.ofNat 5 (bits w 9 5)) (bits w 8 1 == 1) (bits w 7 1 == 1) (.ofNat 2 (bits w 5 2)))
  else if bits w 0 5 = 24 ∧ bits w 23 3 = 0 then .ok (.vcmpEqVx (.ofNat 3 (bits w 20 3)) (.ofNat 6 (bits w 14 6)) (.ofNat 5 (bits w 9 5)) (bits w 8 1 == 1) (bits w 7 1 == 1) (.ofNat 2 (bits w 5 2)))
  else if bits w 0 5 = 25 ∧ bits w 23 3 = 0 then .ok (.vcmpNeVx (.ofNat 3 (bits w 20 3)) (.ofNat 6 (bits w 14 6)) (.ofNat 5 (bits w 9 5)) (bits w 8 1 == 1) (bits w 7 1 == 1) (.ofNat 2 (bits w 5 2)))
  else if bits w 0 5 = 26 ∧ bits w 23 3 = 0 then .ok (.vcmpLtVx (.ofNat 3 (bits w 20 3)) (.ofNat 6 (bits w 14 6)) (.ofNat 5 (bits w 9 5)) (bits w 8 1 == 1) (bits w 7 1 == 1) (.ofNat 2 (bits w 5 2)))
  else if bits w 0 5 = 27 ∧ bits w 23 3 = 0 then .ok (.vcmpLtuVx (.ofNat 3 (bits w 20 3)) (.ofNat 6 (bits w 14 6)) (.ofNat 5 (bits w 9 5)) (bits w 8 1 == 1) (bits w 7 1 == 1) (.ofNat 2 (bits w 5 2)))
  else if bits w 0 5 = 28 ∧ bits w 23 3 = 0 then .ok (.vcmpGeVx (.ofNat 3 (bits w 20 3)) (.ofNat 6 (bits w 14 6)) (.ofNat 5 (bits w 9 5)) (bits w 8 1 == 1) (bits w 7 1 == 1) (.ofNat 2 (bits w 5 2)))
  else if bits w 0 5 = 29 ∧ bits w 23 3 = 0 then .ok (.vcmpGeuVx (.ofNat 3 (bits w 20 3)) (.ofNat 6 (bits w 14 6)) (.ofNat 5 (bits w 9 5)) (bits w 8 1 == 1) (bits w 7 1 == 1) (.ofNat 2 (bits w 5 2)))
  else if bits w 0 5 = 30 then .ok (.vselVx (.ofNat 6 (bits w 20 6)) (.ofNat 6 (bits w 14 6)) (.ofNat 5 (bits w 9 5)) (bits w 8 1 == 1) (bits w 7 1 == 1) (.ofNat 2 (bits w 5 2)))
  else .error .unassigned

def decodeMajor25 (w : Nat) : Except DecodeError Instr :=
  if bits w 0 7 = 0 ∧ bits w 8 1 = 0 ∧ bits w 14 6 = 0 then .ok (.vsplat (.ofNat 6 (bits w 20 6)) (.ofNat 5 (bits w 9 5)) (bits w 7 1 == 1))
  else if bits w 0 7 = 1 ∧ bits w 8 12 = 0 then .ok (.viota (.ofNat 6 (bits w 20 6)) (bits w 7 1 == 1))
  else if bits w 0 7 = 2 ∧ bits w 25 1 = 0 then .ok (.vext (.ofNat 5 (bits w 20 5)) (.ofNat 6 (bits w 14 6)) (.ofNat 5 (bits w 9 5)) (bits w 8 1 == 1) (bits w 7 1 == 1))
  else if bits w 0 7 = 3 ∧ bits w 8 1 = 0 ∧ bits w 19 1 = 0 then .ok (.vins (.ofNat 6 (bits w 20 6)) (.ofNat 5 (bits w 14 5)) (.ofNat 5 (bits w 9 5)) (bits w 7 1 == 1))
  else .error .unassigned

def decodeMajor26 (w : Nat) : Except DecodeError Instr :=
  if bits w 0 17 = 0 then .ok (.kand (.ofNat 3 (bits w 23 3)) (.ofNat 3 (bits w 20 3)) (.ofNat 3 (bits w 17 3)))
  else if bits w 0 17 = 1 then .ok (.kor (.ofNat 3 (bits w 23 3)) (.ofNat 3 (bits w 20 3)) (.ofNat 3 (bits w 17 3)))
  else if bits w 0 17 = 2 then .ok (.kxor (.ofNat 3 (bits w 23 3)) (.ofNat 3 (bits w 20 3)) (.ofNat 3 (bits w 17 3)))
  else if bits w 0 20 = 3 then .ok (.knot (.ofNat 3 (bits w 23 3)) (.ofNat 3 (bits w 20 3)))
  else if bits w 0 20 = 4 then .ok (.kmov (.ofNat 3 (bits w 23 3)) (.ofNat 3 (bits w 20 3)))
  else if bits w 0 12 = 5 ∧ bits w 17 6 = 0 then .ok (.kset (.ofNat 3 (bits w 23 3)) (.ofNat 5 (bits w 12 5)))
  else if bits w 0 12 = 6 ∧ bits w 17 3 = 0 ∧ bits w 23 3 = 0 then .ok (.kpop (.ofNat 3 (bits w 20 3)) (.ofNat 5 (bits w 12 5)))
  else if bits w 0 12 = 7 ∧ bits w 17 3 = 0 ∧ bits w 23 3 = 0 then .ok (.kfirst (.ofNat 3 (bits w 20 3)) (.ofNat 5 (bits w 12 5)))
  else if bits w 0 20 = 8 then .ok (.kany (.ofNat 3 (bits w 23 3)) (.ofNat 3 (bits w 20 3)))
  else if bits w 0 20 = 9 then .ok (.kall (.ofNat 3 (bits w 23 3)) (.ofNat 3 (bits w 20 3)))
  else .error .unassigned

def decodeMajor27 (w : Nat) : Except DecodeError Instr :=
  if bits w 0 2 = 0 ∧ bits w 3 4 = 0 ∧ bits w 25 1 = 0 then .ok (.vradd (.ofNat 5 (bits w 20 5)) (.ofNat 6 (bits w 14 6)) (.ofNat 5 (bits w 9 5)) (bits w 8 1 == 1) (bits w 7 1 == 1) (bits w 2 1 == 1))
  else if bits w 0 2 = 1 ∧ bits w 3 4 = 0 ∧ bits w 25 1 = 0 then .ok (.vrmax (.ofNat 5 (bits w 20 5)) (.ofNat 6 (bits w 14 6)) (.ofNat 5 (bits w 9 5)) (bits w 8 1 == 1) (bits w 7 1 == 1) (bits w 2 1 == 1))
  else if bits w 0 2 = 2 ∧ bits w 3 4 = 0 ∧ bits w 25 1 = 0 then .ok (.vrmin (.ofNat 5 (bits w 20 5)) (.ofNat 6 (bits w 14 6)) (.ofNat 5 (bits w 9 5)) (bits w 8 1 == 1) (bits w 7 1 == 1) (bits w 2 1 == 1))
  else .error .unassigned

def decodeMajor2C (w : Nat) : Except DecodeError Instr :=
  if bits w 0 7 = 0 ∧ bits w 8 1 = 0 ∧ bits w 14 6 = 0 then .ok (.vld (.ofNat 6 (bits w 20 6)) (.ofNat 5 (bits w 9 5)) (bits w 7 1 == 1))
  else if bits w 0 7 = 1 ∧ bits w 8 1 = 0 ∧ bits w 19 1 = 0 then .ok (.vlds (.ofNat 6 (bits w 20 6)) (.ofNat 5 (bits w 14 5)) (.ofNat 5 (bits w 9 5)) (bits w 7 1 == 1))
  else if bits w 0 7 = 2 then .ok (.vldx (.ofNat 6 (bits w 20 6)) (.ofNat 6 (bits w 14 6)) (.ofNat 5 (bits w 9 5)) (bits w 8 1 == 1) (bits w 7 1 == 1))
  else if bits w 0 7 = 3 then .ok (.vldxo (.ofNat 6 (bits w 20 6)) (.ofNat 6 (bits w 14 6)) (.ofNat 5 (bits w 9 5)) (bits w 8 1 == 1) (bits w 7 1 == 1))
  else if bits w 0 7 = 4 then .ok (.vlsx (.ofNat 6 (bits w 20 6)) (.ofNat 6 (bits w 14 6)) (.ofNat 5 (bits w 9 5)) (bits w 8 1 == 1) (bits w 7 1 == 1))
  else .error .unassigned

def decodeMajor2D (w : Nat) : Except DecodeError Instr :=
  if bits w 0 7 = 0 ∧ bits w 14 6 = 0 then .ok (.vst (.ofNat 6 (bits w 20 6)) (.ofNat 5 (bits w 9 5)) (bits w 8 1 == 1) (bits w 7 1 == 1))
  else if bits w 0 7 = 1 ∧ bits w 19 1 = 0 then .ok (.vsts (.ofNat 6 (bits w 20 6)) (.ofNat 5 (bits w 14 5)) (.ofNat 5 (bits w 9 5)) (bits w 8 1 == 1) (bits w 7 1 == 1))
  else if bits w 0 7 = 2 then .ok (.vstx (.ofNat 6 (bits w 20 6)) (.ofNat 6 (bits w 14 6)) (.ofNat 5 (bits w 9 5)) (bits w 8 1 == 1) (bits w 7 1 == 1))
  else if bits w 0 7 = 3 then .ok (.vstxo (.ofNat 6 (bits w 20 6)) (.ofNat 6 (bits w 14 6)) (.ofNat 5 (bits w 9 5)) (bits w 8 1 == 1) (bits w 7 1 == 1))
  else if bits w 0 7 = 4 then .ok (.vssx (.ofNat 6 (bits w 20 6)) (.ofNat 6 (bits w 14 6)) (.ofNat 5 (bits w 9 5)) (bits w 8 1 == 1) (bits w 7 1 == 1))
  else .error .unassigned

def decodeMajor2E (w : Nat) : Except DecodeError Instr :=
  if bits w 0 7 = 0 then .ok (.vupdAdd (.ofNat 6 (bits w 20 6)) (.ofNat 6 (bits w 14 6)) (.ofNat 5 (bits w 9 5)) (bits w 8 1 == 1) (bits w 7 1 == 1))
  else if bits w 0 7 = 1 then .ok (.vupdMin (.ofNat 6 (bits w 20 6)) (.ofNat 6 (bits w 14 6)) (.ofNat 5 (bits w 9 5)) (bits w 8 1 == 1) (bits w 7 1 == 1))
  else if bits w 0 7 = 2 then .ok (.vupdMax (.ofNat 6 (bits w 20 6)) (.ofNat 6 (bits w 14 6)) (.ofNat 5 (bits w 9 5)) (bits w 8 1 == 1) (bits w 7 1 == 1))
  else if bits w 0 7 = 3 then .ok (.vupdAnd (.ofNat 6 (bits w 20 6)) (.ofNat 6 (bits w 14 6)) (.ofNat 5 (bits w 9 5)) (bits w 8 1 == 1) (bits w 7 1 == 1))
  else if bits w 0 7 = 4 then .ok (.vupdOr (.ofNat 6 (bits w 20 6)) (.ofNat 6 (bits w 14 6)) (.ofNat 5 (bits w 9 5)) (bits w 8 1 == 1) (bits w 7 1 == 1))
  else if bits w 0 7 = 5 then .ok (.vupdXor (.ofNat 6 (bits w 20 6)) (.ofNat 6 (bits w 14 6)) (.ofNat 5 (bits w 9 5)) (bits w 8 1 == 1) (bits w 7 1 == 1))
  else .error .unassigned

def decodeMajor2F (w : Nat) : Except DecodeError Instr :=
  if bits w 0 5 = 0 then .ok (.vperm (.ofNat 6 (bits w 20 6)) (.ofNat 6 (bits w 14 6)) (.ofNat 6 (bits w 8 6)) (bits w 7 1 == 1) (bits w 6 1 == 1) (bits w 5 1 == 1))
  else if bits w 0 5 = 1 ∧ bits w 6 1 = 0 ∧ bits w 8 6 = 0 then .ok (.vcomp (.ofNat 6 (bits w 20 6)) (.ofNat 6 (bits w 14 6)) (bits w 7 1 == 1) (bits w 5 1 == 1))
  else if bits w 0 5 = 2 ∧ bits w 6 1 = 0 then .ok (.vcompIdx (.ofNat 6 (bits w 20 6)) (.ofNat 6 (bits w 14 6)) (.ofNat 6 (bits w 8 6)) (bits w 7 1 == 1) (bits w 5 1 == 1))
  else if bits w 0 5 = 3 ∧ bits w 6 1 = 0 ∧ bits w 8 6 = 0 then .ok (.vexpd (.ofNat 6 (bits w 20 6)) (.ofNat 6 (bits w 14 6)) (bits w 7 1 == 1) (bits w 5 1 == 1))
  else .error .unassigned

def decodeMajor30 (w : Nat) : Except DecodeError Instr :=
  if bits w 0 7 = 0 then .ok (.vrot (.ofNat 6 (bits w 20 6)) (.ofNat 6 (bits w 14 6)) (.ofNat 5 (bits w 9 5)) (bits w 8 1 == 1) (bits w 7 1 == 1))
  else if bits w 0 7 = 1 then .ok (.vslideup (.ofNat 6 (bits w 20 6)) (.ofNat 6 (bits w 14 6)) (.ofNat 5 (bits w 9 5)) (bits w 8 1 == 1) (bits w 7 1 == 1))
  else if bits w 0 7 = 2 then .ok (.vslidedn (.ofNat 6 (bits w 20 6)) (.ofNat 6 (bits w 14 6)) (.ofNat 5 (bits w 9 5)) (bits w 8 1 == 1) (bits w 7 1 == 1))
  else if bits w 0 7 = 3 ∧ bits w 20 6 = 0 then .ok (.vcapp (.ofNat 6 (bits w 14 6)) (.ofNat 5 (bits w 9 5)) (bits w 8 1 == 1) (bits w 7 1 == 1))
  else .error .unassigned

def decodeMajor31 (w : Nat) : Except DecodeError Instr :=
  if bits w 0 7 = 0 then .ok (.vshuf (.ofNat 6 (bits w 20 6)) (.ofNat 6 (bits w 14 6)) (.ofNat 5 (bits w 9 5)) (bits w 8 1 == 1) (bits w 7 1 == 1))
  else if bits w 0 7 = 1 then .ok (.vbcast (.ofNat 6 (bits w 20 6)) (.ofNat 6 (bits w 14 6)) (.ofNat 5 (bits w 9 5)) (bits w 8 1 == 1) (bits w 7 1 == 1))
  else if bits w 0 7 = 2 ∧ bits w 9 5 = 0 then .ok (.vallredAdd (.ofNat 6 (bits w 20 6)) (.ofNat 6 (bits w 14 6)) (bits w 8 1 == 1) (bits w 7 1 == 1))
  else if bits w 0 7 = 3 ∧ bits w 9 5 = 0 then .ok (.vallredMax (.ofNat 6 (bits w 20 6)) (.ofNat 6 (bits w 14 6)) (bits w 8 1 == 1) (bits w 7 1 == 1))
  else if bits w 0 7 = 4 ∧ bits w 9 5 = 0 then .ok (.vallredMin (.ofNat 6 (bits w 20 6)) (.ofNat 6 (bits w 14 6)) (bits w 8 1 == 1) (bits w 7 1 == 1))
  else .error .unassigned

def decodeMajor32 (w : Nat) : Except DecodeError Instr :=
  if bits w 0 26 = 0 then .ok (.svfence)
  else if bits w 0 8 = 1 ∧ bits w 11 15 = 0 then .ok (.vdrain (.ofNat 3 (bits w 8 3)))
  else .error .unassigned

def decodeMajor34 (w : Nat) : Except DecodeError Instr :=
  if bits w 0 9 = 0 ∧ bits w 14 12 = 0 then .ok (.tcfg (.ofNat 5 (bits w 9 5)))
  else if bits w 0 9 = 1 ∧ bits w 20 6 = 0 then .ok (.tld (.ofNat 6 (bits w 14 6)) (.ofNat 5 (bits w 9 5)))
  else if bits w 0 9 = 2 ∧ bits w 20 6 = 0 then .ok (.tmul (.ofNat 6 (bits w 14 6)) (.ofNat 5 (bits w 9 5)))
  else if bits w 0 9 = 3 then .ok (.tmuls (.ofNat 6 (bits w 20 6)) (.ofNat 6 (bits w 14 6)) (.ofNat 5 (bits w 9 5)))
  else if bits w 0 9 = 4 ∧ bits w 14 6 = 0 then .ok (.trd (.ofNat 6 (bits w 20 6)) (.ofNat 5 (bits w 9 5)))
  else if bits w 0 9 = 5 ∧ bits w 14 6 = 0 then .ok (.tacc (.ofNat 6 (bits w 20 6)) (.ofNat 5 (bits w 9 5)))
  else if bits w 0 9 = 6 ∧ bits w 14 12 = 0 then .ok (.tzero (.ofNat 5 (bits w 9 5)))
  else if bits w 0 26 = 7 then .ok (.trel)
  else .error .unassigned

def decodeMajor38 (w : Nat) : Except DecodeError Instr :=
  if bits w 0 4 = 0 ∧ bits w 10 14 = 0 then .ok (.mset (.ofNat 2 (bits w 24 2)) (.ofNat 3 (bits w 7 3)) (.ofNat 3 (bits w 4 3)))
  else if bits w 0 15 = 1 ∧ bits w 20 4 = 0 then .ok (.mld (.ofNat 2 (bits w 24 2)) (.ofNat 5 (bits w 15 5)))
  else if bits w 0 15 = 2 ∧ bits w 20 4 = 0 then .ok (.mst (.ofNat 2 (bits w 24 2)) (.ofNat 5 (bits w 15 5)))
  else if bits w 0 20 = 3 then .ok (.mmul (.ofNat 2 (bits w 24 2)) (.ofNat 2 (bits w 22 2)) (.ofNat 2 (bits w 20 2)))
  else if bits w 0 20 = 4 then .ok (.mmac (.ofNat 2 (bits w 24 2)) (.ofNat 2 (bits w 22 2)) (.ofNat 2 (bits w 20 2)))
  else if bits w 0 20 = 5 then .ok (.madd (.ofNat 2 (bits w 24 2)) (.ofNat 2 (bits w 22 2)) (.ofNat 2 (bits w 20 2)))
  else if bits w 0 22 = 6 then .ok (.mtrn (.ofNat 2 (bits w 24 2)) (.ofNat 2 (bits w 22 2)))
  else if bits w 0 22 = 7 then .ok (.mchol (.ofNat 2 (bits w 24 2)) (.ofNat 2 (bits w 22 2)))
  else if bits w 0 22 = 8 then .ok (.mlu (.ofNat 2 (bits w 24 2)) (.ofNat 2 (bits w 22 2)))
  else if bits w 0 20 = 9 then .ok (.msolv (.ofNat 2 (bits w 24 2)) (.ofNat 2 (bits w 22 2)) (.ofNat 2 (bits w 20 2)))
  else if bits w 0 15 = 10 ∧ bits w 20 2 = 0 then .ok (.mscal (.ofNat 2 (bits w 24 2)) (.ofNat 2 (bits w 22 2)) (.ofNat 5 (bits w 15 5)))
  else if bits w 0 24 = 11 then .ok (.mid (.ofNat 2 (bits w 24 2)))
  else if bits w 0 4 = 12 ∧ bits w 9 17 = 0 then .ok (.mflag (.ofNat 2 (bits w 7 2)) (.ofNat 3 (bits w 4 3)))
  else .error .unassigned

def decodeMajor3C (w : Nat) : Except DecodeError Instr :=
  if bits w 0 16 = 0 then .ok (.tspawn (.ofNat 5 (bits w 21 5)) (.ofNat 5 (bits w 16 5)))
  else if bits w 0 26 = 1 then .ok (.texit)
  else if bits w 0 26 = 2 then .ok (.tyield)
  else if bits w 0 16 = 3 then .ok (.tinfo (.ofNat 5 (bits w 21 5)) (.ofNat 5 (bits w 16 5)))
  else if bits w 0 8 = 4 ∧ bits w 21 5 = 0 then .ok (.qpush (.ofNat 5 (bits w 16 5)) (.ofNat 5 (bits w 11 5)) (.ofNat 3 (bits w 8 3)))
  else if bits w 0 8 = 5 ∧ bits w 11 5 = 0 then .ok (.qpop (.ofNat 5 (bits w 21 5)) (.ofNat 5 (bits w 16 5)) (.ofNat 3 (bits w 8 3)))
  else if bits w 0 16 = 6 ∧ bits w 21 5 = 0 then .ok (.keyrel (.ofNat 5 (bits w 16 5)))
  else if bits w 0 16 = 7 then .ok (.keyq (.ofNat 5 (bits w 21 5)) (.ofNat 5 (bits w 16 5)))
  else if bits w 0 8 = 8 ∧ bits w 11 5 = 0 then .ok (.strip (.ofNat 5 (bits w 21 5)) (.ofNat 5 (bits w 16 5)) (.ofNat 3 (bits w 8 3)))
  else .error .unassigned

def decodeMajor3D (w : Nat) : Except DecodeError Instr :=
  if bits w 0 8 = 0 ∧ bits w 11 15 = 0 then .ok (.bar (.ofNat 3 (bits w 8 3)))
  else if bits w 0 8 = 1 ∧ bits w 11 15 = 0 then .ok (.bara (.ofNat 3 (bits w 8 3)))
  else if bits w 0 8 = 2 ∧ bits w 11 15 = 0 then .ok (.barw (.ofNat 3 (bits w 8 3)))
  else if bits w 0 11 = 8 ∧ bits w 13 3 = 0 then .ok (.scfg (.ofNat 5 (bits w 21 5)) (.ofNat 5 (bits w 16 5)) (.ofNat 2 (bits w 11 2)))
  else if bits w 0 11 = 9 ∧ bits w 13 13 = 0 then .ok (.sstep (.ofNat 2 (bits w 11 2)))
  else if bits w 0 11 = 10 ∧ bits w 13 8 = 0 then .ok (.sstat (.ofNat 5 (bits w 21 5)) (.ofNat 2 (bits w 11 2)))
  else if bits w 0 11 = 11 ∧ bits w 13 13 = 0 then .ok (.sclose (.ofNat 2 (bits w 11 2)))
  else .error .unassigned

def decodeMajor3E (w : Nat) : Except DecodeError Instr :=
  if bits w 12 4 = 0 then .ok (.waitev (.ofNat 5 (bits w 21 5)) (.ofNat 5 (bits w 16 5)) (.ofNat 12 (bits w 0 12)))
  else if bits w 12 14 = 1 then .ok (.trap (.ofNat 12 (bits w 0 12)))
  else if bits w 0 26 = 8192 then .ok (.rft)
  else if bits w 0 26 = 12288 then .ok (.halt)
  else if bits w 12 4 = 4 ∧ bits w 21 5 = 0 then .ok (.bbh (.ofNat 5 (bits w 16 5)) (.ofNat 12 (bits w 0 12)))
  else if bits w 12 14 = 5 then .ok (.mark (.ofNat 12 (bits w 0 12)))
  else if bits w 12 14 = 6 then .ok (.bkpt (.ofNat 12 (bits w 0 12)))
  else .error .unassigned
/-- The instruction whose fixed fields the word holds (R137, R138). -/
def decodeFields (w : Nat) : Except DecodeError Instr :=
  match w / 2 ^ 26 % 64 with
  | 0x01 => decodeMajor01 w
  | 0x02 => decodeMajor02 w
  | 0x03 => decodeMajor03 w
  | 0x04 => decodeMajor04 w
  | 0x05 => decodeMajor05 w
  | 0x06 => decodeMajor06 w
  | 0x07 => decodeMajor07 w
  | 0x08 => decodeMajor08 w
  | 0x09 => decodeMajor09 w
  | 0x10 => decodeMajor10 w
  | 0x11 => decodeMajor11 w
  | 0x12 => decodeMajor12 w
  | 0x13 => decodeMajor13 w
  | 0x14 => decodeMajor14 w
  | 0x15 => decodeMajor15 w
  | 0x16 => decodeMajor16 w
  | 0x17 => decodeMajor17 w
  | 0x18 => decodeMajor18 w
  | 0x19 => decodeMajor19 w
  | 0x1A => decodeMajor1A w
  | 0x1c | 0x1d | 0x1e | 0x1f | 0x20 | 0x21 | 0x22 | 0x23 => decodeMajor1C w
  | 0x24 => decodeMajor24 w
  | 0x25 => decodeMajor25 w
  | 0x26 => decodeMajor26 w
  | 0x27 => decodeMajor27 w
  | 0x2C => decodeMajor2C w
  | 0x2D => decodeMajor2D w
  | 0x2E => decodeMajor2E w
  | 0x2F => decodeMajor2F w
  | 0x30 => decodeMajor30 w
  | 0x31 => decodeMajor31 w
  | 0x32 => decodeMajor32 w
  | 0x34 => decodeMajor34 w
  | 0x38 => decodeMajor38 w
  | 0x3C => decodeMajor3C w
  | 0x3D => decodeMajor3D w
  | 0x3E => decodeMajor3E w
  | m => .error (.unassignedMajor m)

/-- The decoder: a 32-bit word to its instruction, or the reason why it is none. -/
def decode (w : Nat) : Except DecodeError Instr :=
  match decodeFields w with
  | .ok i => if i.wf then .ok i else .error .badField
  | .error e => .error e

/-- The decoder on bytes in memory order: an instruction word is stored little-endian (R126). -/
def decodeBytes (b0 b1 b2 b3 : Byte) : Except DecodeError Instr :=
  decode (b0.toNat + b1.toNat * 2 ^ 8 + b2.toNat * 2 ^ 16 + b3.toNat * 2 ^ 24)

/-- The value v of a field whose lowest bit is bit lo of the word. -/
def putAt {n : Nat} (v : BitVec n) (lo : Nat) : Nat := v.toNat * 2 ^ lo

/-- A field of one bit. -/
def flagAt (v : Bool) (lo : Nat) : Nat := v.toNat * 2 ^ lo

/-- A word from its fixed bits and its fields. -/
def wordOf (fixed : Nat) (fields : List Nat) : Nat := fixed + fields.sum

/-- The word of an instruction (R128, R137, R138); an event has none. -/
def encode : Instr → Option Nat
  | .add d a b => some (wordOf 0x4000000 [putAt d 21, putAt a 16, putAt b 11])
  | .sub d a b => some (wordOf 0x4000001 [putAt d 21, putAt a 16, putAt b 11])
  | .mul d a b => some (wordOf 0x4000002 [putAt d 21, putAt a 16, putAt b 11])
  | .mulh d a b => some (wordOf 0x4000003 [putAt d 21, putAt a 16, putAt b 11])
  | .mulhu d a b => some (wordOf 0x4000004 [putAt d 21, putAt a 16, putAt b 11])
  | .div d a b => some (wordOf 0x4000005 [putAt d 21, putAt a 16, putAt b 11])
  | .divu d a b => some (wordOf 0x4000006 [putAt d 21, putAt a 16, putAt b 11])
  | .rem d a b => some (wordOf 0x4000007 [putAt d 21, putAt a 16, putAt b 11])
  | .remu d a b => some (wordOf 0x4000008 [putAt d 21, putAt a 16, putAt b 11])
  | .and d a b => some (wordOf 0x4000009 [putAt d 21, putAt a 16, putAt b 11])
  | .or d a b => some (wordOf 0x400000a [putAt d 21, putAt a 16, putAt b 11])
  | .xor d a b => some (wordOf 0x400000b [putAt d 21, putAt a 16, putAt b 11])
  | .shl d a b => some (wordOf 0x400000c [putAt d 21, putAt a 16, putAt b 11])
  | .shr d a b => some (wordOf 0x400000d [putAt d 21, putAt a 16, putAt b 11])
  | .sra d a b => some (wordOf 0x400000e [putAt d 21, putAt a 16, putAt b 11])
  | .min d a b => some (wordOf 0x400000f [putAt d 21, putAt a 16, putAt b 11])
  | .max d a b => some (wordOf 0x4000010 [putAt d 21, putAt a 16, putAt b 11])
  | .minu d a b => some (wordOf 0x4000011 [putAt d 21, putAt a 16, putAt b 11])
  | .maxu d a b => some (wordOf 0x4000012 [putAt d 21, putAt a 16, putAt b 11])
  | .clz d a => some (wordOf 0x4000013 [putAt d 21, putAt a 16])
  | .ctz d a => some (wordOf 0x4000014 [putAt d 21, putAt a 16])
  | .popc d a => some (wordOf 0x4000015 [putAt d 21, putAt a 16])
  | .sel d a b p => some (wordOf 0x4000020 [putAt d 21, putAt a 16, putAt b 11, putAt p 8])
  | .addi d a imm => some (wordOf 0x8000000 [putAt d 21, putAt a 16, putAt imm 0])
  | .andi d a imm => some (wordOf 0xc000000 [putAt d 21, putAt a 16, putAt imm 0])
  | .ori d a imm => some (wordOf 0x10000000 [putAt d 21, putAt a 16, putAt imm 0])
  | .xori d a imm => some (wordOf 0x14000000 [putAt d 21, putAt a 16, putAt imm 0])
  | .shli d a s => some (wordOf 0x18000000 [putAt d 21, putAt a 16, putAt s 0])
  | .shri d a s => some (wordOf 0x18000100 [putAt d 21, putAt a 16, putAt s 0])
  | .srai d a s => some (wordOf 0x18000200 [putAt d 21, putAt a 16, putAt s 0])
  | .lui d imm => some (wordOf 0x1c000000 [putAt d 21, putAt imm 0])
  | .addpc d imm => some (wordOf 0x20000000 [putAt d 21, putAt imm 0])
  | .fadd d a b t => some (wordOf 0x24000000 [putAt d 21, putAt a 16, putAt b 11, putAt t 5])
  | .fsub d a b t => some (wordOf 0x24000001 [putAt d 21, putAt a 16, putAt b 11, putAt t 5])
  | .fmul d a b t => some (wordOf 0x24000002 [putAt d 21, putAt a 16, putAt b 11, putAt t 5])
  | .fma d a b t => some (wordOf 0x24000003 [putAt d 21, putAt a 16, putAt b 11, putAt t 5])
  | .fmin d a b t => some (wordOf 0x24000004 [putAt d 21, putAt a 16, putAt b 11, putAt t 5])
  | .fmax d a b t => some (wordOf 0x24000005 [putAt d 21, putAt a 16, putAt b 11, putAt t 5])
  | .fcmp p a b c t => some (wordOf 0x24000006 [putAt p 21, putAt a 16, putAt b 11, putAt c 8, putAt t 5])
  | .fcvt d a u t => some (wordOf 0x24000007 [putAt d 21, putAt a 16, putAt u 8, putAt t 5])
  | .cmp p a b c => some (wordOf 0x40000000 [putAt p 21, putAt a 16, putAt b 11, putAt c 0])
  | .pand d a b => some (wordOf 0x40000100 [putAt d 21, putAt a 16, putAt b 11])
  | .por d a b => some (wordOf 0x40000101 [putAt d 21, putAt a 16, putAt b 11])
  | .pxor d a b => some (wordOf 0x40000102 [putAt d 21, putAt a 16, putAt b 11])
  | .pnot d a => some (wordOf 0x40000103 [putAt d 21, putAt a 16])
  | .cmpi p a c imm => some (wordOf 0x44000000 [putAt p 21, putAt a 16, putAt c 13, putAt imm 0])
  | .bp p neg off => some (wordOf 0x48000000 [putAt p 23, flagAt neg 22, putAt off 0])
  | .jal d imm => some (wordOf 0x4c000000 [putAt d 21, putAt imm 0])
  | .jalr d a imm => some (wordOf 0x4c004000 [putAt d 21, putAt a 16, putAt imm 0])
  | .loop a imm => some (wordOf 0x4c008000 [putAt a 16, putAt imm 0])
  | .ldb d a imm => some (wordOf 0x50000000 [putAt d 21, putAt a 16, putAt imm 0])
  | .ldbu d a imm => some (wordOf 0x50002000 [putAt d 21, putAt a 16, putAt imm 0])
  | .ldh d a imm => some (wordOf 0x50004000 [putAt d 21, putAt a 16, putAt imm 0])
  | .ldhu d a imm => some (wordOf 0x50006000 [putAt d 21, putAt a 16, putAt imm 0])
  | .ldw d a imm => some (wordOf 0x50008000 [putAt d 21, putAt a 16, putAt imm 0])
  | .ldwu d a imm => some (wordOf 0x5000a000 [putAt d 21, putAt a 16, putAt imm 0])
  | .ldd d a imm => some (wordOf 0x5000c000 [putAt d 21, putAt a 16, putAt imm 0])
  | .stb s a imm => some (wordOf 0x54000000 [putAt s 21, putAt a 16, putAt imm 0])
  | .sth s a imm => some (wordOf 0x54002000 [putAt s 21, putAt a 16, putAt imm 0])
  | .stw s a imm => some (wordOf 0x54004000 [putAt s 21, putAt a 16, putAt imm 0])
  | .std s a imm => some (wordOf 0x54006000 [putAt s 21, putAt a 16, putAt imm 0])
  | .amoadd d a b s ord dw => some (wordOf 0x58000000 [putAt d 21, putAt a 16, putAt b 11, putAt s 8, putAt ord 6, flagAt dw 4])
  | .amoand d a b s ord dw => some (wordOf 0x58000001 [putAt d 21, putAt a 16, putAt b 11, putAt s 8, putAt ord 6, flagAt dw 4])
  | .amoor d a b s ord dw => some (wordOf 0x58000002 [putAt d 21, putAt a 16, putAt b 11, putAt s 8, putAt ord 6, flagAt dw 4])
  | .amoxor d a b s ord dw => some (wordOf 0x58000003 [putAt d 21, putAt a 16, putAt b 11, putAt s 8, putAt ord 6, flagAt dw 4])
  | .amomin d a b s ord dw => some (wordOf 0x58000004 [putAt d 21, putAt a 16, putAt b 11, putAt s 8, putAt ord 6, flagAt dw 4])
  | .amomax d a b s ord dw => some (wordOf 0x58000005 [putAt d 21, putAt a 16, putAt b 11, putAt s 8, putAt ord 6, flagAt dw 4])
  | .amominu d a b s ord dw => some (wordOf 0x58000006 [putAt d 21, putAt a 16, putAt b 11, putAt s 8, putAt ord 6, flagAt dw 4])
  | .amomaxu d a b s ord dw => some (wordOf 0x58000007 [putAt d 21, putAt a 16, putAt b 11, putAt s 8, putAt ord 6, flagAt dw 4])
  | .amoswap d a b s ord dw => some (wordOf 0x58000008 [putAt d 21, putAt a 16, putAt b 11, putAt s 8, putAt ord 6, flagAt dw 4])
  | .amocas d a b s ord dw => some (wordOf 0x58000009 [putAt d 21, putAt a 16, putAt b 11, putAt s 8, putAt ord 6, flagAt dw 4])
  | .fence s ord => some (wordOf 0x5800003f [putAt s 8, putAt ord 6])
  | .nop => some (wordOf 0x5c000000 [])
  | .srd d r => some (wordOf 0x5c004000 [putAt d 21, putAt r 0])
  | .swr a r => some (wordOf 0x5c008000 [putAt a 16, putAt r 0])
  | .act v a n => some (wordOf 0x60000000 [putAt v 20, putAt a 15, putAt n 12])
  | .acts v a n => some (wordOf 0x60000001 [putAt v 20, putAt a 15, putAt n 12])
  | .wb v a => some (wordOf 0x60000002 [putAt v 20, putAt a 15])
  | .wbk v a k => some (wordOf 0x60000003 [putAt v 20, putAt a 15, putAt k 4])
  | .pre v => some (wordOf 0x60000004 [putAt v 20])
  | .preall => some (wordOf 0x60000005 [])
  | .ref n => some (wordOf 0x60000006 [putAt n 4])
  | .refn a => some (wordOf 0x60000007 [putAt a 15])
  | .vgeom g => some (wordOf 0x64000000 [putAt g 4])
  | .vtype d s t => some (wordOf 0x64000001 [putAt d 20, putAt s 14, putAt t 9])
  | .vsetvl d a w => some (wordOf 0x64000002 [putAt d 20, putAt a 9, putAt w 4])
  | .vlopen d => some (wordOf 0x64000003 [putAt d 20])
  | .pfx k pol dt zero c cpen => some (wordOf 0x68000000 [putAt k 23, flagAt pol 22, flagAt dt 21, flagAt zero 20, putAt c 14, flagAt cpen 13])
  | .vadd part d a b ca cb dt => some (wordOf 0x70000000 [putAt part 26, putAt d 20, putAt a 14, putAt b 8, flagAt ca 7, flagAt cb 6, flagAt dt 5])
  | .vsub part d a b ca cb dt => some (wordOf 0x70000001 [putAt part 26, putAt d 20, putAt a 14, putAt b 8, flagAt ca 7, flagAt cb 6, flagAt dt 5])
  | .vmul part d a b ca cb dt => some (wordOf 0x70000002 [putAt part 26, putAt d 20, putAt a 14, putAt b 8, flagAt ca 7, flagAt cb 6, flagAt dt 5])
  | .vmulh part d a b ca cb dt => some (wordOf 0x70000003 [putAt part 26, putAt d 20, putAt a 14, putAt b 8, flagAt ca 7, flagAt cb 6, flagAt dt 5])
  | .vmad part d a b ca cb dt => some (wordOf 0x70000004 [putAt part 26, putAt d 20, putAt a 14, putAt b 8, flagAt ca 7, flagAt cb 6, flagAt dt 5])
  | .vnmad part d a b ca cb dt => some (wordOf 0x70000005 [putAt part 26, putAt d 20, putAt a 14, putAt b 8, flagAt ca 7, flagAt cb 6, flagAt dt 5])
  | .vmin part d a b ca cb dt => some (wordOf 0x70000006 [putAt part 26, putAt d 20, putAt a 14, putAt b 8, flagAt ca 7, flagAt cb 6, flagAt dt 5])
  | .vmax part d a b ca cb dt => some (wordOf 0x70000007 [putAt part 26, putAt d 20, putAt a 14, putAt b 8, flagAt ca 7, flagAt cb 6, flagAt dt 5])
  | .vabs part d a ca dt => some (wordOf 0x70000008 [putAt part 26, putAt d 20, putAt a 14, flagAt ca 7, flagAt dt 5])
  | .vneg part d a ca dt => some (wordOf 0x70000009 [putAt part 26, putAt d 20, putAt a 14, flagAt ca 7, flagAt dt 5])
  | .vcvt part d a ca dt => some (wordOf 0x7000000a [putAt part 26, putAt d 20, putAt a 14, flagAt ca 7, flagAt dt 5])
  | .vdot part d a b ca cb dt => some (wordOf 0x7000000b [putAt part 26, putAt d 20, putAt a 14, putAt b 8, flagAt ca 7, flagAt cb 6, flagAt dt 5])
  | .vand part d a b ca cb dt => some (wordOf 0x7000000c [putAt part 26, putAt d 20, putAt a 14, putAt b 8, flagAt ca 7, flagAt cb 6, flagAt dt 5])
  | .vor part d a b ca cb dt => some (wordOf 0x7000000d [putAt part 26, putAt d 20, putAt a 14, putAt b 8, flagAt ca 7, flagAt cb 6, flagAt dt 5])
  | .vxor part d a b ca cb dt => some (wordOf 0x7000000e [putAt part 26, putAt d 20, putAt a 14, putAt b 8, flagAt ca 7, flagAt cb 6, flagAt dt 5])
  | .vshl part d a b ca cb dt => some (wordOf 0x7000000f [putAt part 26, putAt d 20, putAt a 14, putAt b 8, flagAt ca 7, flagAt cb 6, flagAt dt 5])
  | .vshr part d a b ca cb dt => some (wordOf 0x70000010 [putAt part 26, putAt d 20, putAt a 14, putAt b 8, flagAt ca 7, flagAt cb 6, flagAt dt 5])
  | .vdiv part d a b ca cb dt => some (wordOf 0x70000011 [putAt part 26, putAt d 20, putAt a 14, putAt b 8, flagAt ca 7, flagAt cb 6, flagAt dt 5])
  | .vsqrt part d a ca dt => some (wordOf 0x70000012 [putAt part 26, putAt d 20, putAt a 14, flagAt ca 7, flagAt dt 5])
  | .vrcp part d a ca dt => some (wordOf 0x70000013 [putAt part 26, putAt d 20, putAt a 14, flagAt ca 7, flagAt dt 5])
  | .vrsq part d a ca dt => some (wordOf 0x70000014 [putAt part 26, putAt d 20, putAt a 14, flagAt ca 7, flagAt dt 5])
  | .vexp2 part d a ca dt => some (wordOf 0x70000015 [putAt part 26, putAt d 20, putAt a 14, flagAt ca 7, flagAt dt 5])
  | .vlog2 part d a ca dt => some (wordOf 0x70000016 [putAt part 26, putAt d 20, putAt a 14, flagAt ca 7, flagAt dt 5])
  | .vscale part d a b ca cb dt => some (wordOf 0x70000017 [putAt part 26, putAt d 20, putAt a 14, putAt b 8, flagAt ca 7, flagAt cb 6, flagAt dt 5])
  | .vcmpEq part k a b ca cb dt => some (wordOf 0x70000018 [putAt part 26, putAt k 20, putAt a 14, putAt b 8, flagAt ca 7, flagAt cb 6, flagAt dt 5])
  | .vcmpNe part k a b ca cb dt => some (wordOf 0x70000019 [putAt part 26, putAt k 20, putAt a 14, putAt b 8, flagAt ca 7, flagAt cb 6, flagAt dt 5])
  | .vcmpLt part k a b ca cb dt => some (wordOf 0x7000001a [putAt part 26, putAt k 20, putAt a 14, putAt b 8, flagAt ca 7, flagAt cb 6, flagAt dt 5])
  | .vcmpLtu part k a b ca cb dt => some (wordOf 0x7000001b [putAt part 26, putAt k 20, putAt a 14, putAt b 8, flagAt ca 7, flagAt cb 6, flagAt dt 5])
  | .vcmpGe part k a b ca cb dt => some (wordOf 0x7000001c [putAt part 26, putAt k 20, putAt a 14, putAt b 8, flagAt ca 7, flagAt cb 6, flagAt dt 5])
  | .vcmpGeu part k a b ca cb dt => some (wordOf 0x7000001d [putAt part 26, putAt k 20, putAt a 14, putAt b 8, flagAt ca 7, flagAt cb 6, flagAt dt 5])
  | .vsel part d a b ca cb dt => some (wordOf 0x7000001e [putAt part 26, putAt d 20, putAt a 14, putAt b 8, flagAt ca 7, flagAt cb 6, flagAt dt 5])
  | .vaddVx d a b ca dt p => some (wordOf 0x90000000 [putAt d 20, putAt a 14, putAt b 9, flagAt ca 8, flagAt dt 7, putAt p 5])
  | .vsubVx d a b ca dt p => some (wordOf 0x90000001 [putAt d 20, putAt a 14, putAt b 9, flagAt ca 8, flagAt dt 7, putAt p 5])
  | .vmulVx d a b ca dt p => some (wordOf 0x90000002 [putAt d 20, putAt a 14, putAt b 9, flagAt ca 8, flagAt dt 7, putAt p 5])
  | .vmulhVx d a b ca dt p => some (wordOf 0x90000003 [putAt d 20, putAt a 14, putAt b 9, flagAt ca 8, flagAt dt 7, putAt p 5])
  | .vmadVx d a b ca dt p => some (wordOf 0x90000004 [putAt d 20, putAt a 14, putAt b 9, flagAt ca 8, flagAt dt 7, putAt p 5])
  | .vnmadVx d a b ca dt p => some (wordOf 0x90000005 [putAt d 20, putAt a 14, putAt b 9, flagAt ca 8, flagAt dt 7, putAt p 5])
  | .vminVx d a b ca dt p => some (wordOf 0x90000006 [putAt d 20, putAt a 14, putAt b 9, flagAt ca 8, flagAt dt 7, putAt p 5])
  | .vmaxVx d a b ca dt p => some (wordOf 0x90000007 [putAt d 20, putAt a 14, putAt b 9, flagAt ca 8, flagAt dt 7, putAt p 5])
  | .vdotVx d a b ca dt p => some (wordOf 0x9000000b [putAt d 20, putAt a 14, putAt b 9, flagAt ca 8, flagAt dt 7, putAt p 5])
  | .vandVx d a b ca dt p => some (wordOf 0x9000000c [putAt d 20, putAt a 14, putAt b 9, flagAt ca 8, flagAt dt 7, putAt p 5])
  | .vorVx d a b ca dt p => some (wordOf 0x9000000d [putAt d 20, putAt a 14, putAt b 9, flagAt ca 8, flagAt dt 7, putAt p 5])
  | .vxorVx d a b ca dt p => some (wordOf 0x9000000e [putAt d 20, putAt a 14, putAt b 9, flagAt ca 8, flagAt dt 7, putAt p 5])
  | .vshlVx d a b ca dt p => some (wordOf 0x9000000f [putAt d 20, putAt a 14, putAt b 9, flagAt ca 8, flagAt dt 7, putAt p 5])
  | .vshrVx d a b ca dt p => some (wordOf 0x90000010 [putAt d 20, putAt a 14, putAt b 9, flagAt ca 8, flagAt dt 7, putAt p 5])
  | .vdivVx d a b ca dt p => some (wordOf 0x90000011 [putAt d 20, putAt a 14, putAt b 9, flagAt ca 8, flagAt dt 7, putAt p 5])
  | .vscaleVx d a b ca dt p => some (wordOf 0x90000017 [putAt d 20, putAt a 14, putAt b 9, flagAt ca 8, flagAt dt 7, putAt p 5])
  | .vcmpEqVx k a b ca dt p => some (wordOf 0x90000018 [putAt k 20, putAt a 14, putAt b 9, flagAt ca 8, flagAt dt 7, putAt p 5])
  | .vcmpNeVx k a b ca dt p => some (wordOf 0x90000019 [putAt k 20, putAt a 14, putAt b 9, flagAt ca 8, flagAt dt 7, putAt p 5])
  | .vcmpLtVx k a b ca dt p => some (wordOf 0x9000001a [putAt k 20, putAt a 14, putAt b 9, flagAt ca 8, flagAt dt 7, putAt p 5])
  | .vcmpLtuVx k a b ca dt p => some (wordOf 0x9000001b [putAt k 20, putAt a 14, putAt b 9, flagAt ca 8, flagAt dt 7, putAt p 5])
  | .vcmpGeVx k a b ca dt p => some (wordOf 0x9000001c [putAt k 20, putAt a 14, putAt b 9, flagAt ca 8, flagAt dt 7, putAt p 5])
  | .vcmpGeuVx k a b ca dt p => some (wordOf 0x9000001d [putAt k 20, putAt a 14, putAt b 9, flagAt ca 8, flagAt dt 7, putAt p 5])
  | .vselVx d a b ca dt p => some (wordOf 0x9000001e [putAt d 20, putAt a 14, putAt b 9, flagAt ca 8, flagAt dt 7, putAt p 5])
  | .vsplat d b dt => some (wordOf 0x94000000 [putAt d 20, putAt b 9, flagAt dt 7])
  | .viota d dt => some (wordOf 0x94000001 [putAt d 20, flagAt dt 7])
  | .vext d a b ca dt => some (wordOf 0x94000002 [putAt d 20, putAt a 14, putAt b 9, flagAt ca 8, flagAt dt 7])
  | .vins d xs b dt => some (wordOf 0x94000003 [putAt d 20, putAt xs 14, putAt b 9, flagAt dt 7])
  | .kand d a b => some (wordOf 0x98000000 [putAt d 23, putAt a 20, putAt b 17])
  | .kor d a b => some (wordOf 0x98000001 [putAt d 23, putAt a 20, putAt b 17])
  | .kxor d a b => some (wordOf 0x98000002 [putAt d 23, putAt a 20, putAt b 17])
  | .knot d a => some (wordOf 0x98000003 [putAt d 23, putAt a 20])
  | .kmov d a => some (wordOf 0x98000004 [putAt d 23, putAt a 20])
  | .kset d x => some (wordOf 0x98000005 [putAt d 23, putAt x 12])
  | .kpop a x => some (wordOf 0x98000006 [putAt a 20, putAt x 12])
  | .kfirst a x => some (wordOf 0x98000007 [putAt a 20, putAt x 12])
  | .kany p a => some (wordOf 0x98000008 [putAt p 23, putAt a 20])
  | .kall p a => some (wordOf 0x98000009 [putAt p 23, putAt a 20])
  | .vradd d a b ca dt wide => some (wordOf 0x9c000000 [putAt d 20, putAt a 14, putAt b 9, flagAt ca 8, flagAt dt 7, flagAt wide 2])
  | .vrmax d a b ca dt wide => some (wordOf 0x9c000001 [putAt d 20, putAt a 14, putAt b 9, flagAt ca 8, flagAt dt 7, flagAt wide 2])
  | .vrmin d a b ca dt wide => some (wordOf 0x9c000002 [putAt d 20, putAt a 14, putAt b 9, flagAt ca 8, flagAt dt 7, flagAt wide 2])
  | .vld d b dt => some (wordOf 0xb0000000 [putAt d 20, putAt b 9, flagAt dt 7])
  | .vlds d s b dt => some (wordOf 0xb0000001 [putAt d 20, putAt s 14, putAt b 9, flagAt dt 7])
  | .vldx d vi b ca dt => some (wordOf 0xb0000002 [putAt d 20, putAt vi 14, putAt b 9, flagAt ca 8, flagAt dt 7])
  | .vldxo d vi b ca dt => some (wordOf 0xb0000003 [putAt d 20, putAt vi 14, putAt b 9, flagAt ca 8, flagAt dt 7])
  | .vlsx d vi b ca dt => some (wordOf 0xb0000004 [putAt d 20, putAt vi 14, putAt b 9, flagAt ca 8, flagAt dt 7])
  | .vst d b ca dt => some (wordOf 0xb4000000 [putAt d 20, putAt b 9, flagAt ca 8, flagAt dt 7])
  | .vsts d s b ca dt => some (wordOf 0xb4000001 [putAt d 20, putAt s 14, putAt b 9, flagAt ca 8, flagAt dt 7])
  | .vstx d vi b ca dt => some (wordOf 0xb4000002 [putAt d 20, putAt vi 14, putAt b 9, flagAt ca 8, flagAt dt 7])
  | .vstxo d vi b ca dt => some (wordOf 0xb4000003 [putAt d 20, putAt vi 14, putAt b 9, flagAt ca 8, flagAt dt 7])
  | .vssx d vi b ca dt => some (wordOf 0xb4000004 [putAt d 20, putAt vi 14, putAt b 9, flagAt ca 8, flagAt dt 7])
  | .vupdAdd d vi b ca dt => some (wordOf 0xb8000000 [putAt d 20, putAt vi 14, putAt b 9, flagAt ca 8, flagAt dt 7])
  | .vupdMin d vi b ca dt => some (wordOf 0xb8000001 [putAt d 20, putAt vi 14, putAt b 9, flagAt ca 8, flagAt dt 7])
  | .vupdMax d vi b ca dt => some (wordOf 0xb8000002 [putAt d 20, putAt vi 14, putAt b 9, flagAt ca 8, flagAt dt 7])
  | .vupdAnd d vi b ca dt => some (wordOf 0xb8000003 [putAt d 20, putAt vi 14, putAt b 9, flagAt ca 8, flagAt dt 7])
  | .vupdOr d vi b ca dt => some (wordOf 0xb8000004 [putAt d 20, putAt vi 14, putAt b 9, flagAt ca 8, flagAt dt 7])
  | .vupdXor d vi b ca dt => some (wordOf 0xb8000005 [putAt d 20, putAt vi 14, putAt b 9, flagAt ca 8, flagAt dt 7])
  | .vperm d a b ca cb dt => some (wordOf 0xbc000000 [putAt d 20, putAt a 14, putAt b 8, flagAt ca 7, flagAt cb 6, flagAt dt 5])
  | .vcomp d a ca dt => some (wordOf 0xbc000001 [putAt d 20, putAt a 14, flagAt ca 7, flagAt dt 5])
  | .vcompIdx d a b ca dt => some (wordOf 0xbc000002 [putAt d 20, putAt a 14, putAt b 8, flagAt ca 7, flagAt dt 5])
  | .vexpd d a ca dt => some (wordOf 0xbc000003 [putAt d 20, putAt a 14, flagAt ca 7, flagAt dt 5])
  | .vrot d a b ca dt => some (wordOf 0xc0000000 [putAt d 20, putAt a 14, putAt b 9, flagAt ca 8, flagAt dt 7])
  | .vslideup d a b ca dt => some (wordOf 0xc0000001 [putAt d 20, putAt a 14, putAt b 9, flagAt ca 8, flagAt dt 7])
  | .vslidedn d a b ca dt => some (wordOf 0xc0000002 [putAt d 20, putAt a 14, putAt b 9, flagAt ca 8, flagAt dt 7])
  | .vcapp a b ca dt => some (wordOf 0xc0000003 [putAt a 14, putAt b 9, flagAt ca 8, flagAt dt 7])
  | .vshuf d a b ca dt => some (wordOf 0xc4000000 [putAt d 20, putAt a 14, putAt b 9, flagAt ca 8, flagAt dt 7])
  | .vbcast d a b ca dt => some (wordOf 0xc4000001 [putAt d 20, putAt a 14, putAt b 9, flagAt ca 8, flagAt dt 7])
  | .vallredAdd d a ca dt => some (wordOf 0xc4000002 [putAt d 20, putAt a 14, flagAt ca 8, flagAt dt 7])
  | .vallredMax d a ca dt => some (wordOf 0xc4000003 [putAt d 20, putAt a 14, flagAt ca 8, flagAt dt 7])
  | .vallredMin d a ca dt => some (wordOf 0xc4000004 [putAt d 20, putAt a 14, flagAt ca 8, flagAt dt 7])
  | .svfence => some (wordOf 0xc8000000 [])
  | .vdrain s => some (wordOf 0xc8000001 [putAt s 8])
  | .tcfg a => some (wordOf 0xd0000000 [putAt a 9])
  | .tld v a => some (wordOf 0xd0000001 [putAt v 14, putAt a 9])
  | .tmul v a => some (wordOf 0xd0000002 [putAt v 14, putAt a 9])
  | .tmuls d v a => some (wordOf 0xd0000003 [putAt d 20, putAt v 14, putAt a 9])
  | .trd d a => some (wordOf 0xd0000004 [putAt d 20, putAt a 9])
  | .tacc d a => some (wordOf 0xd0000005 [putAt d 20, putAt a 9])
  | .tzero a => some (wordOf 0xd0000006 [putAt a 9])
  | .trel => some (wordOf 0xd0000007 [])
  | .mset d c r => some (wordOf 0xe0000000 [putAt d 24, putAt c 7, putAt r 4])
  | .mld d x => some (wordOf 0xe0000001 [putAt d 24, putAt x 15])
  | .mst d x => some (wordOf 0xe0000002 [putAt d 24, putAt x 15])
  | .mmul d a b => some (wordOf 0xe0000003 [putAt d 24, putAt a 22, putAt b 20])
  | .mmac d a b => some (wordOf 0xe0000004 [putAt d 24, putAt a 22, putAt b 20])
  | .madd d a b => some (wordOf 0xe0000005 [putAt d 24, putAt a 22, putAt b 20])
  | .mtrn d a => some (wordOf 0xe0000006 [putAt d 24, putAt a 22])
  | .mchol d a => some (wordOf 0xe0000007 [putAt d 24, putAt a 22])
  | .mlu d a => some (wordOf 0xe0000008 [putAt d 24, putAt a 22])
  | .msolv d a b => some (wordOf 0xe0000009 [putAt d 24, putAt a 22, putAt b 20])
  | .mscal d a x => some (wordOf 0xe000000a [putAt d 24, putAt a 22, putAt x 15])
  | .mid d => some (wordOf 0xe000000b [putAt d 24])
  | .mflag f k => some (wordOf 0xe000000c [putAt f 7, putAt k 4])
  | .tspawn d a => some (wordOf 0xf0000000 [putAt d 21, putAt a 16])
  | .texit => some (wordOf 0xf0000001 [])
  | .tyield => some (wordOf 0xf0000002 [])
  | .tinfo d s => some (wordOf 0xf0000003 [putAt d 21, putAt s 16])
  | .qpush a b p => some (wordOf 0xf0000004 [putAt a 16, putAt b 11, putAt p 8])
  | .qpop d a p => some (wordOf 0xf0000005 [putAt d 21, putAt a 16, putAt p 8])
  | .keyrel a => some (wordOf 0xf0000006 [putAt a 16])
  | .keyq d a => some (wordOf 0xf0000007 [putAt d 21, putAt a 16])
  | .strip d a p => some (wordOf 0xf0000008 [putAt d 21, putAt a 16, putAt p 8])
  | .bar s => some (wordOf 0xf4000000 [putAt s 8])
  | .bara s => some (wordOf 0xf4000001 [putAt s 8])
  | .barw s => some (wordOf 0xf4000002 [putAt s 8])
  | .scfg d a n => some (wordOf 0xf4000008 [putAt d 21, putAt a 16, putAt n 11])
  | .sstep n => some (wordOf 0xf4000009 [putAt n 11])
  | .sstat d n => some (wordOf 0xf400000a [putAt d 21, putAt n 11])
  | .sclose n => some (wordOf 0xf400000b [putAt n 11])
  | .waitev d a m => some (wordOf 0xf8000000 [putAt d 21, putAt a 16, putAt m 0])
  | .trap c => some (wordOf 0xf8001000 [putAt c 0])
  | .rft => some (wordOf 0xf8002000 [])
  | .halt => some (wordOf 0xf8003000 [])
  | .bbh a imm => some (wordOf 0xf8004000 [putAt a 16, putAt imm 0])
  | .mark c => some (wordOf 0xf8005000 [putAt c 0])
  | .bkpt c => some (wordOf 0xf8006000 [putAt c 0])
  | .fpmodeWrite .. => none
  | .fpflagsRead .. => none
  | .fpflagsWrite .. => none
  | .mstatAccess .. => none
  | .refownerWrite .. => none
  | .errcolClear .. => none
  | .sequencerIssue .. => none
  | .wayActivation .. => none
  | .elementGroupValid .. => none
  | .alertDeadline .. => none
  | .speculativePreactivation .. => none
  | .speculativeDiscard .. => none
  | .class5Promotion .. => none
  | .vectorRetire .. => none
  | .storeBufferPerform .. => none
  | .trapDelivery .. => none
  | .asyncDelivery .. => none
  | .stewardResume .. => none
  | .stewardDeliver .. => none
  | .taskEnd .. => none
  | .taskCompletion .. => none
  | .doorbell .. => none
  | .queueBind .. => none
  | .queueUnbind .. => none
  | .dispatchHead .. => none
  | .dependenceReread .. => none
  | .agingTick .. => none
  | .taskStart .. => none
  | .hartGrant .. => none
  | .preemptionRequest .. => none
  | .sliceExpiry .. => none
  | .hartHalt .. => none
  | .hartSaved .. => none
  | .hartResume .. => none
  | .barrierPhase .. => none
  | .collectiveJoin .. => none
  | .collectiveTransport .. => none
  | .tldTransfer .. => none
  | .streamFetch .. => none
  | .waitevWake .. => none
  | .waitevTimeout .. => none
  | .shootdown .. => none
  | .rowWindowReload .. => none
  | .rowWindowTimeout .. => none
  | .remoteResponse .. => none
  | .remoteTimeout .. => none
  | .scaleupPortFailure .. => none
  | .refreshInterval .. => none
  | .laneRetirement .. => none
  | .remapUpdate .. => none
  | .arrayRatioChange .. => none
  | .budgetRecompute .. => none
  | .monitorReading .. => none
  | .powerOn .. => none
  | .powerRemoval .. => none
  | .rdmaWrite .. => none
  | .rdmaRead .. => none
  | .fetchAndAdd .. => none
  | .cmpAndSwap .. => none
  | .unsupportedOperation .. => none
  | .attestationRequest .. => none
  | .keyEncapsulation .. => none
  | .modcapWrite .. => none
  | .registerWrite .. => none
  | .incomingRemoteAccess .. => none
  | .partitionCreation .. => none
  | .scalarRetire .. => none
  | .elementWritePerform .. => none

/-- The word of an instruction as `TRAPINFO` holds it (R139, R297); 0 for an event. -/
def Instr.word (i : Instr) : Word := .ofNat 64 ((encode i).getD 0)

/-- The major opcode of an instruction, if it has a word. -/
def Instr.major (i : Instr) : Option Nat := (encode i).map (· / 2 ^ 26)

/-- The instruction that the decoder reads from a word of the opcode table, laid out in memory order. -/
def decodeTableWord (nbits w : Nat) : Option Instr :=
  let v := w % 2 ^ nbits
  (decodeBytes (.ofNat 8 v) (.ofNat 8 (v / 2 ^ 8)) (.ofNat 8 (v / 2 ^ 16)) (.ofNat 8 (v / 2 ^ 24))).toOption

end Sys2Proof
end

