-- ==== Sys2Proof/Machine/State.lean ====
section
/-! DEFINITION. Machine/State.lean: everything the spec gives the Worgar to hold, as plain data, and the state after reset. -/

namespace Sys2Proof.Machine

/-- Why the machine stops. -/
inductive Fault
  /-- Raised by `step` while module power is off, or bring-up has stopped, and no power event is due (R10, R361, R362): nothing
  runs. Safe. -/
  | noPower
  deriving DecidableEq, Repr

/-- Why a step has no meaning. -/
inductive Refusal
  /-- Raised by an arm of `exec` that is not written yet. Safe. -/
  | notModelled (mnemonic : String)
  /-- Raised by an instruction word when no hart has been picked to issue it (R293); the machine never comes to this by itself,
  since `step` decodes a word only for the hart picked. Safe. -/
  | noIssuingHart
  /-- Raised by an event that names an object that does not exist, or whose precondition does not hold: in that state the event
  does not occur. Safe. -/
  | cannotOccur
  deriving DecidableEq, Repr

/-- Type tags (R44). -/
inductive TypeTag
  | uint32 | int32 | uint16 | int16 | uint8 | int8 | fp32 | fp16 | bf16 | e4m3 | e5m2 | e2m3 | e3m2 | e2m1
  | mxE4m3 | mxE5m2 | mxE2m3 | mxE3m2 | mxE2m1 | mxInt8
  deriving DecidableEq, Repr

/-- A lane word with its poison bit (R117, R206). -/
structure LaneWord where
  val    : LWord := 0
  poison : Bool := false
  deriving DecidableEq, Repr

/-- A vector register (R34): its tag (R44), the open ways as a bit set over the register's ways, the image base (R39) and, for
the open ways, the lane words by lane word index. `invalid` is the bit set of element groups not yet valid (R130). -/
structure VReg where
  tag      : TypeTag := .uint32
  scale    : VNum := 0
  openWays : Nat := 0
  image    : Nat := 0
  words    : AMap LaneWord := []
  invalid  : Nat := 0
  deriving DecidableEq, Repr

/-- A pending prefix (R133, R135): the fields of `PFX` and bits [47:2] of the successor's address. -/
structure Pfx where
  k     : KReg
  pol   : Bool
  dt    : Bool
  zero  : Bool
  vcopy : VNum
  cpen  : Bool
  succ  : BitVec 46
  deriving DecidableEq, Repr

/-- An entry of the loop stack (R159). -/
structure LoopEntry where
  start     : Word
  last      : Word
  remaining : Word
  deriving DecidableEq, Repr

/-- The form of a small-matrix register (R234). -/
inductive MatForm
  | general | cholesky | lu
  deriving DecidableEq, Repr

/-- Shape and form of a small-matrix register, the same in every lane because every instruction acts on every lane (R236). -/
structure MatShape where
  rows : Nat := 6
  cols : Nat := 6
  form : MatForm := .general
  deriving DecidableEq, Repr

/-- A tile cell or column scale with its poison mark (R222, R226). -/
structure TileCell where
  val    : Byte := 0
  poison : Bool := false
  deriving DecidableEq, Repr

/-- A tile load whose transfer has not ended (R226): the cells or the scales it writes, by key. -/
structure TileLoad where
  src    : VNum
  scales : Bool
  items  : AMap TileCell
  deriving DecidableEq, Repr

/-- A bound stream channel (R265 to R270). `m` is the milestone register, and `ahead` the elements from m on that are in the buffer
already. `fault` is the lowest element of the strip that met a cause, and `entries` the block table entries that the strip has read.
`recRead` says that the strip read a RECORD page (R332), and `pc` is the address of the instruction that started the strip's fetch. -/
structure Channel where
  total   : Nat
  base    : Nat
  rstride : Int
  estride : Int
  rlen    : Nat
  btable  : Nat
  bsize   : Nat
  strip   : Nat
  dest    : VNum
  auto    : Bool
  k       : Nat := 0
  m       : Nat := 0
  ahead   : List Nat := []
  fault   : Option (Nat × Cause × Word) := none
  entries : AMap Word := []
  recRead : Bool := false
  pc      : Word := 0
  deriving DecidableEq, Repr

/-- A store in the store buffer (R163): physical address and bytes. -/
structure BufStore where
  pa   : Nat
  data : List Byte
  deriving DecidableEq, Repr

/-- The operation of an element access: a store, a store of one nibble (R199), an element update (R207), a load into a register, the
opening of lane words of a register at their addresses (R182), the writing back of lane words at their addresses (R184), or an append to
the queue block at the address, whose entries are to lie in the ring at the byte ranges given (R211); `read` says that its instruction has
had the block's row activated to read it. A load has the tag that its register had when it was sent, and may copy what it reads to a second
register (R176). A store or a writing back whose register is still to be filled names the register, with its tag and its scale, and takes
its elements, or its lane words by number, when it is performed. -/
inductive ElemOp
  | store | nibble (high : Bool)
  | addI | minS | minU | maxS | maxU | and | or | xor | addF | minF | maxF
  | read (vd : VNum) (tag : TypeTag) (copy : Option VNum)
  | open' (vd : VNum) (words : List (Nat × Nat))
  | back (words : List (Nat × LaneWord))
  | append (ring : List (Nat × Nat)) (read : Bool)
  | storeOf (v : VNum) (tag : TypeTag) (scale : VNum) (high : Option Bool)
  | backOf (v : VNum) (words : List (Nat × Nat))
  deriving DecidableEq, Repr

/-- An element access on its way to its home (R84, R203, R207): the instruction that sent it, its element index, physical and
virtual address, bytes, and whether the element is poisoned. `ordered`: it follows every earlier element of its instruction (R90).
`after`: the instructions on their way that come before its own, since they have a byte in common (R85). -/
structure ElemAccess where
  seq     : Nat
  idx     : Nat
  pa      : Nat
  va      : Word
  op      : ElemOp
  data    : List Byte
  poison  : Bool
  ordered : Bool
  ftz     : Bool
  pc      : Word
  after   : List Nat := []
  deriving DecidableEq, Repr

/-- What an instruction leaves to be done at its retirement, oldest first. -/
inductive AtRetire
  | swTrap (code : Word)                          -- R274
  | frame (kind : Nat) (aux : Nat)                -- R329
  | sample (cls elems lines pages acts : Nat) (sconf : Nat := 0)  -- R330
  deriving DecidableEq, Repr

/-- A vector instruction that has left the scalar stream, with its checks passed, and has not retired (R173, R220, R301): its word, and the
pc, the registers, the vector length and the prefix with which it left. `seq` numbers it among the instructions that send element accesses.
Until it is `done` it waits for what earlier ones are to write; `regs` are the vector registers that it then names, with the tags, scales
and open ways that they had. Afterwards it may have accesses on their way. `todo`, `issued`, `stalls` and `tlbMissed` are for its
retirement. -/
structure Queued where
  seq  : Nat
  word : Word
  pc   : Word
  x    : Vector Word 32
  p    : Vector Bool 8
  k    : Vector Nat 8
  vl   : Nat
  pfx  : Option Pfx
  done : Bool := false
  regs : AMap VReg := []
  todo : List AtRetire := []
  issued    : Option Word := none
  stalls    : Nat := 0
  tlbMissed : Nat := 0
  deriving DecidableEq, Repr

/-- A collective that waits for the join (R214): fn, vd, va and the value of xb. -/
structure Collective where
  fn : Nat
  vd : VNum
  va : VNum
  s  : Word
  deriving DecidableEq, Repr

/-- A collective's transport (R216): the lane words of vd still to be written. -/
structure Transport where
  vd    : VNum
  va    : VNum
  items : AMap LaneWord
  deriving DecidableEq, Repr

/-- The kinds of retirement that can be a step of its own: a scalar load, a vector instruction, a scalar action that has been
sent and completes at a halt (R150, R174, R290). -/
inductive Apart
  | load | vector | sent
  deriving DecidableEq, Repr

/-- What a Resident hart waits for (R293). -/
inductive Wait
  | none
  | barrier
  | waitev (mask : Nat)
  | collective
  | film
  | staleRow (va : Word)
  | retire (kind : Apart)
  | channel (n : Nat)
  | transport
  | tile
  | remote
  | refresh
  | access
  deriving DecidableEq, Repr

/-- Where a hart stands (R56). `halted` is a Resident hart stopped for pre-emption, whose context is not yet saved (R290). -/
inductive Residency
  | resident | halted | saved | exited | ended
  deriving DecidableEq, Repr

/-- Task mode and steward mode (R296). -/
inductive Mode
  | task | steward
  deriving DecidableEq, Repr

/-- A cause presented to the steward (R299); `cause = none` for a hart halted by a gang stop (R325) or by `HALT` (R274). `errcol`
is the column's `ERRCOL` at the fault (R303). -/
structure Presented where
  cause  : Option Cause
  pc     : Word
  info   : Word
  inh    : Bool
  errcol : Word := 0
  deriving DecidableEq, Repr

/-- What `TRAPINFO` names in a trap's cause, for a fault record (R303): nothing of the registers, a lane, or an element counted at a
width. -/
inductive Named where
  | nothing
  | lane
  | element (width : Nat)
  deriving DecidableEq, Repr

/-- What of a saved context a bad piece holds (R306): lane words of a register, scratch words, small-matrix entries, each by its key,
or scalar state. -/
inductive ContextPart
  | register (v : Nat) (words : List Nat)
  | scratch (keys : List Nat)
  | matrix (keys : List Nat)
  | scalar
  deriving DecidableEq, Repr

/-- A bad piece of a saved context: the column of the hart's partition, from 0, the shadow row's way, its physical row, the lane above which
the piece lies, and what it holds. -/
structure BadContext where
  column : Nat
  way  : Nat
  row  : Nat
  lane : Nat
  part : ContextPart
  deriving DecidableEq, Repr

/-- A hart (R34, R291). -/
structure Hart where
  task      : Nat
  rank      : Nat
  column    : Nat              -- stack × 256 + column; c0 for a wide hart
  cols      : Nat              -- m, the columns of the partition
  cluster   : Nat              -- first lane cluster
  lanes     : Nat              -- lanes in the partition; 0 for a scalar hart
  ctx       : Nat
  geom      : Nat              -- G
  status    : Residency := .resident
  mode      : Mode := .task
  presented : Option Presented := none
  named     : Named := .nothing    -- by `TRAPINFO` of a `POISON` of the instruction at hand
  haltReq   : Bool := false
  wait      : Wait := .none
  saves     : Nat := 0
  startedAt : Nat := 0
  idle      : Nat := 0         -- lane cycles since it last issued (R293)
  idleWas   : Nat := 0         -- the same before the instruction at hand was picked
  leaving   : Bool := false    -- `TEXIT` is past its completion step (R58)
  badContext : List BadContext := []
  gaveTo    : Option Nat := none   -- the task for which its lanes were taken (R288, R289)
  pc        : Word
  x         : Vector Word 32
  p         : Vector Bool 8
  vl        : Nat := 0
  k         : Vector Nat 8     -- masks, as bit sets of positions
  v         : AMap VReg := []
  matShape  : Vector MatShape 4
  mat       : AMap LWord := [] -- key ((lane × 4 + register) × 6 + i) × 6 + j
  perm      : AMap (List Nat) := []  -- key lane × 4 + register
  laneFlags : AMap (BitVec 3) := []  -- SING, NPD, SMALL from bit 0
  tileHeld  : Bool := false
  tileFmt   : Nat := 0
  tileCells : AMap TileCell := []    -- key (q × 256 + k) × 128 + c
  tileScale : AMap TileCell := []    -- key q × 128 + c; unlisted: 127
  tileBad   : AMap Unit := []        -- column poison marks, key q × 128 + c
  tileLoad  : Option TileLoad := none
  tileParity : AMap Unit := []       -- cells, by key, and scales, by key + 2^32, whose parity fails (R232)
  residue   : Option Nat := none     -- lane of a repeated residue mismatch in the instruction to come (R232)
  scratch   : AMap LaneWord := []    -- key lane × 2048 + offset / 4
  scratchAt : Nat := 0               -- where the free start contents begin
  tcm       : AMap Byte := []
  tcmAt     : Nat := 0
  fpmode    : Word := 0
  fpflags   : Word := 0
  mstat     : Word := 0
  pfxstate  : Word := 0
  trapcause : Word := 0
  trappc    : Word := 0
  trapinfo  : Word := 0
  trapvec   : Word := 0
  cycle     : Word := 0
  instret   : Word := 0
  footthr   : Word := 0x10000
  bbcbase   : Word := 0
  filmbase  : Word := 0
  filmstat  : Word := 0
  rnd       : AMap (BitVec 32) := [] -- generator states; an unlisted lane stands at its seed (R112)
  loops     : List LoopEntry := []   -- innermost first
  pfx       : Option Pfx := none
  pendLane  : Bool := false
  pendAlert : List Nat := []         -- alerted way-rows, as physical addresses, oldest first
  pendRef   : List Nat := []         -- columns whose `REFDEADLINE` is pending
  pendFilm  : Bool := false
  barA      : Nat := 0
  barAt     : Option Word := none    -- a `BAR` that has arrived and not retired (R263)
  waitFrom  : Option Nat := none     -- the column's lane cycle at which a `WAITEV` issued (R273)
  refDone   : Nat := 0               -- row-sets that a `REF` in progress has completed (R186)
  chans     : AMap Channel := []
  stores    : List BufStore := []    -- oldest first
  elems     : List ElemAccess := []  -- oldest first
  elemSeq   : Nat := 0
  vqueue    : List Queued := []      -- instructions that have left for the vector queue and not retired, oldest first (R220)
  atHead    : Bool := false          -- the instruction at hand is the first of these that is not done
  stopDue   : Bool := false          -- it goes to the steward, without a cause, once these have retired (R325)
  met       : List (Nat × Nat) := [] -- pieces that an instruction on its way, by its number, has recorded (R305)
  remote    : List Nat := []         -- remote loads outstanding
  arrived   : AMap (Option Nat) := [] -- remote data by element, none where the access failed (R342)
  coll      : Option Collective := none
  transport : Option Transport := none
  ctl       : BitVec 32 := 0
  dbg       : Option Nat := none     -- physical address of the debug block
  expo      : Nat := 0
  sampleDue : Bool := false
  missed    : Bool := false
  dropped   : Bool := false          -- frames dropped since the last frame written
  exempt    : Bool := false          -- waypoint exemption of R328
  filmFull  : Bool := false
  filmNo    : Option Nat := none     -- the place of its film among those that the steward holds
  defer     : Bool := false
  late      : Bool := false          -- the accesses of the instruction at hand are performed after it (R84)
  issueAt   : Option Word := none    -- `CYCLE` at which the instruction at hand first issued (R330)
  stalls    : Nat := 0               -- its stalls on stale row window entries (R330)
  tlbMissed : Nat := 0               -- the TLB misses of its earlier issues (R330)
  deriving DecidableEq, Repr

/-- A start record (R53). -/
structure StartRecord where
  khdr      : Nat
  params    : Word
  plist     : Nat
  pcount    : Nat
  width     : Nat
  mode      : Nat
  harts     : Nat
  ceiling   : Nat
  cls       : Nat
  cscope    : Nat
  nkeys     : Nat
  res27     : Nat
  depaddr   : Nat
  depthresh : Nat
  crec      : Nat
  trapvec   : Word
  farm      : Nat
  keys      : List Nat
  trace     : Nat
  res74     : Nat
  deriving DecidableEq, Repr

/-- A kernel header (R50). -/
structure KernelHeader where
  magic    : Nat
  geom     : Nat
  vregs    : Nat
  tile     : Nat
  smat     : Nat
  entry    : Nat
  codesize : Nat
  tcmstack : Nat
  scratch  : Nat
  minlanes : Nat
  flags    : Nat
  rest     : Nat
  deriving DecidableEq, Repr

/-- A key request or grant (R53, R284). -/
structure KeyReq where
  id   : Nat
  excl : Bool
  deriving DecidableEq, Repr

/-- An entry of a page list (R74): bits [47:21] of the virtual page, the anchor, and the leaf. -/
structure PageEntry where
  vpage : Nat
  av    : Bool
  ac    : Nat
  leaf  : Nat
  deriving DecidableEq, Repr

/-- Where a task stands: its record is at the head of a queue, it has started, or it is complete. -/
inductive TaskPhase
  | waiting | started | done
  deriving DecidableEq, Repr

/-- A task whose record the dispatcher has seen (R31, R280 to R287). -/
structure Task where
  srec      : StartRecord
  hdr       : KernelHeader
  pages     : List PageEntry
  queue     : Nat
  ticket    : Nat
  stamp     : Nat
  part      : Nat
  root      : Nat
  base      : Nat
  aged      : Nat
  slice     : Nat
  depMet    : Bool := false
  phase     : TaskPhase := .waiting
  keys      : List KeyReq          -- requests, merged (R54)
  held      : List KeyReq := []
  harts     : AMap Nat := []       -- rank → hart number
  granted   : Nat := 0
  exited    : Nat := 0
  busy      : Nat := 0
  farm      : Nat := 0             -- strip counter (R59)
  barC      : Nat := 0             -- completion count (R262)
  status    : Nat := 0
  cause     : Nat := 0
  frank     : Nat := 0xFFFFFFFF
  fpc       : Word := 0
  finfo     : Word := 0
  frec      : Nat := 0
  written   : Bool := false        -- completion record written
  expired   : Bool := false        -- its slice has run since its last start or resumption (R289)
  deriving DecidableEq, Repr

/-- A queue descriptor (R276) with its published positions (R277). -/
structure QueueDesc where
  ring      : Nat := 0
  capacity  : Nat := 0
  state     : Nat := 0
  ccap      : Nat := 0
  slice     : Nat := 0
  head      : Nat := 0
  tail      : Nat := 0
  claim     : Nat := 0
  root      : Nat := 0
  part      : Nat := 0
  published : List Nat := []
  lanesAt   : AMap Nat := []       -- lanes of the module when a position was published (R54)
  since     : Option Nat := none   -- the order in which it became active (R279)
  seen      : Option Nat := none   -- the task at its head, once the dispatcher has seen it
  deriving DecidableEq, Repr

/-- A kernel's code copy in a column's TCM (R70), with the physical page of each virtual page that it was copied from, and what it held
then: the steward may change the copy (R16). -/
structure CodeCopy where
  root  : Nat
  khdr  : Nat
  code  : List Byte
  pages : AMap Nat := []
  orig  : List Byte := []          -- the bytes as they were copied
  deriving DecidableEq, Repr

/-- A row window entry (R75, R77). -/
structure RowEntry where
  hart  : Nat
  vpage : Nat
  leaf  : Nat
  stale : Bool := false
  deriving DecidableEq, Repr

/-- The scoreboard's account of one way (R179), in lane cycles of the column. -/
structure WayTimer where
  lastAct   : Option Nat := none
  busyUntil : Nat := 0
  refnEnd   : Nat := 0             -- when its last `REFN` ends (R317)
  hidden    : Option Nat := none   -- the row last in the hidden latch (R17)
  deriving DecidableEq, Repr

/-- What a request asks of its way (R179): an activation, the close or the writing of an open way, a `REFN`, or, of every way of the
column, a row-set. -/
inductive WayAction
  | activate | close | write | refn | rowSet
  deriving DecidableEq, Repr

/-- A request that waits for a way (R21): its class, from 1 to 6, the physical row, what it acts for, and the lane cycle since which
it waits. -/
structure WayRequest where
  cls      : Nat
  way      : Nat
  row      : Nat
  hart     : Option Nat
  since    : Nat
  segs     : Nat := 8
  promoted : Bool := false
  chan     : Nat := 0              -- of class 4
  act      : WayAction := .activate
  more     : Bool := false         -- a row-set that is not the last of its `REF` (R314)
  deriving DecidableEq, Repr

/-- An open activation alert (R316): way, physical row and the hart for which it is pending. -/
structure Alert where
  way  : Nat
  row  : Nat
  hart : Option Nat
  deriving DecidableEq, Repr

/-- An entry of the basic-block counter cache (R331). -/
structure BlockCount where
  pa  : Nat
  inc : Nat
  deriving DecidableEq, Repr

/-- A column (R15). -/
structure Column where
  cycles    : Nat := 0
  lastCtx   : Nat := 7
  lastWas   : Nat := 7               -- the same before the instruction at hand was picked
  issues    : List Nat := []         -- lane cycles in which vector instructions that the duty limits last issued (R358)
  issuesWas : List Nat := []         -- the same before the instruction at hand was picked
  codes     : List CodeCopy := []
  rowWin    : List RowEntry := []
  ways      : AMap WayTimer := []    -- key layer × 8 + way
  window    : List (Nat × Nat) := [] -- starts of activations and their eighths, newest first
  winLen    : Nat := 24
  duty      : Nat := 16
  requests  : List WayRequest := []
  actCount  : AMap Nat := []         -- key (layer × 8 + way) × 4096 + physical row
  alerts    : List Alert := []
  refPos    : Nat := 0
  debt      : Int := 0
  refBusy   : Nat := 0               -- when the row-set under way ends (R179)
  refHart   : Option Nat := none     -- the hart whose `REF` the column last began and has not ended (R314)
  forced    : BitVec 16 := 0
  refowner  : Word := 0
  owner     : Option Nat := none
  refRaised : Bool := false
  errcol    : Word := 0
  clusters  : List Nat := []         -- failed clusters, in order of failure
  half      : Option Nat := none     -- the usable half of a half-capable column
  failed    : Bool := false
  remap     : AMap (Option (BitVec 32)) := []  -- the three copies, key (copy × 64 + layer × 8 + way) × 12 + n; none: uncorrectable
  table     : AMap (BitVec 32) := [] -- the entries that the base layer has loaded, key (layer × 8 + way) × 12 + n (R310)
  testRow   : AMap Byte := []        -- row 2111 of each way, key (layer × 8 + way) × 1024 + byte (R19)
  counts    : List BlockCount := []  -- least recently used first
  deriving DecidableEq, Repr

/-- A TLB entry (R73). -/
structure TlbEntry where
  root  : Nat
  vpage : Nat
  leaf  : Nat
  deriving DecidableEq, Repr

/-- A compute stack: its TLB, line cache (R79; tags of each set, least recently used first) and power block (R360). -/
structure Stack where
  tlb     : List TlbEntry := []
  lines   : AMap (List Nat) := []
  resWin  : Nat := 48
  maxWin  : Nat := 192
  cap     : Nat := 0
  tmax    : Nat := 0
  dutyLow : Nat := 15
  pest    : Nat := 0               -- in mW
  budget  : Nat := 0               -- in mW
  ratio   : ArrayRatio := .r1to1
  hot     : Bool := false
  thermal : Bool := false
  lowRows : List Nat := []
  askWin  : Nat := 24              -- what the arbiter gives the columns (R358)
  askDuty : Nat := 16
  temps   : List Nat := []         -- the last readings: eight array layers, base layer, compute layer (R361)
  rings   : List Nat := []         -- the process monitors, read at bring-up
  deriving DecidableEq, Repr

/-- What a 32-byte piece of memory reads as, when not as its bytes (R304, R364). -/
inductive PieceMark
  | uncorrectable | poison
  deriving DecidableEq, Repr

/-- An entry of the remote target table, as its four words (R341). -/
structure Target where
  w0 : Word := 0
  w1 : Word := 0
  w2 : Word := 0
  w3 : Word := 0
  deriving DecidableEq, Repr

/-- A remote element access sent and not yet completed (R342). A load fills element idx of vd. -/
structure Remote where
  hart   : Nat
  load   : Bool
  pa     : Nat
  va     : Word
  pc     : Word
  vd     : VNum
  idx    : Nat
  chan   : Option Nat
  data   : List Byte
  high   : Option Bool := none   -- the nibble that a 4-bit store writes
  port   : Nat := 0              -- host port, or 4 + scale-up port (R341, R343)
  step   : Nat := 0              -- 1: a nibble's byte has come and goes back; 2: it waits for an earlier store of a nibble there; 3: it could
                                 -- not be sent, and fails
  deriving DecidableEq, Repr

/-- An access of the hub itself to the remote window that has not ended (R248, R340): the dispatcher's read of a task's dependence
counter, or a write of its completion record. -/
structure HubAccess where
  task : Nat
  load : Bool
  pa   : Nat
  data : List Byte
  port : Nat
  deriving DecidableEq, Repr

/-- The device identity: an ML-DSA-65 key pair and its certificate (R344). -/
structure Identity where
  pub  : List Byte := []
  sec  : List Byte := []
  cert : List Byte := []
  deriving DecidableEq, Repr

/-- A firmware image in the boot flash (R344, R363). -/
structure Image where
  bytes : List Byte
  key   : List Byte
  sig   : List Byte
  deriving DecidableEq, Repr

/-- A partition (R345 to R347). -/
structure Partition where
  state   : Nat := 0
  conf    : Bool := false
  ek      : List Byte := []
  dk      : List Byte := []
  h2d     : List Byte := []
  d2h     : List Byte := []
  keyed   : Bool := false
  sealSecret : List Byte := []
  rx      : AMap Nat := []   -- packet counters, by port × 2^24 + queue pair
  tx      : AMap Nat := []
  rxFrom  : AMap Nat := []   -- where they stood when the keys came
  txFrom  : AMap Nat := []
  tagFail : Nat := 0
  classes : List Nat := []   -- fault classes of ended tasks, oldest first
  busy    : Nat := 0
  energy  : Nat := 0         -- in units of 10 nJ
  deriving DecidableEq, Repr

/-- What the steward's log holds. -/
inductive LogEntry
  | doorbell (q p : Nat)
  | completion (task : Nat)
  | trigger (launch : Nat)
  | write (addr : Nat)
  | hubPiece (pa : Nat)
  | corrected (pa : Nat)
  | hubAlert (column way row : Nat)
  | nak (port qpn : Nat)
  | remote (id : Nat)
  | port (n : Nat)
  | parity (column : Nat)
  | remap (column : Nat)
  | cluster (column cluster : Nat)
  deriving DecidableEq, Repr

/-- What the host administrator sees of a confidential partition (R347): its number, state and energy in mJ, the fault classes of its
ended tasks, oldest first, and its busy cycles. -/
structure AdminView where
  part    : Nat
  state   : Nat
  classes : List Nat
  busy    : Nat
  energy  : Nat
  deriving DecidableEq, Repr

/-- What the module sends to hosts and to other modules: answers (R337, R338, R345), and requests of its own (R337, R341, R343), those to a
host with its remote key; a store of 4 bits names the nibble; what the administrator of a partition is shown (R347); and stopped state
for its tenant (R335). -/
inductive HostReply
  | ack (qp : HostQp)
  | data (qp : HostQp) (bytes : List Byte)
  | nak (qp : HostQp)
  | dropped (qp : HostQp)
  | report (port : Nat) (bytes : List Byte)
  | write (port qpn rkey : Nat) (addr : Nat) (bytes : List Byte)
  | read (port qpn rkey : Nat) (addr n : Nat)
  | peerWrite (port number : Nat) (addr : Nat) (bytes : List Byte) (high : Option Bool)
  | peerRead (port number : Nat) (addr n : Nat)
  | remoteData (bytes : List (Option Byte))
  | account (view : AdminView)
  | dump (part : Nat) (bytes : List Byte)
  deriving DecidableEq, Repr

/-- What fails at the next bring-up (R362): a stage, the memory training of a column, an entry of a copy of its remap table as it is written
(none: it cannot be read), or the self-test of a lane cluster. -/
inductive Defect
  | stage (n : Nat)
  | training (column : Nat)
  | copy (column way copy n : Nat) (bits : Option (BitVec 32))
  | cluster (column cluster : Nat)
  deriving DecidableEq, Repr

/-- What befalls the hardware from outside the rules' own actions (R232, R304 to R306, R310, R362, R364): a single-bit error that is
corrected; a piece that becomes uncorrectable, for good where the cells themselves fail; a bad piece of a Saved hart's context; a
parity error of a tile cell or scale; a second residue mismatch of a hart's next tile or small-matrix instruction; an entry of a copy
of a remap table that changes, or that cannot be read; something that the next bring-up meets. -/
inductive Upset
  | corrected (pa : Nat)
  | piece (pa : Nat) (lasting : Bool)
  | context (hart : Nat) (bad : BadContext)
  | parity (hart key : Nat)
  | residue (hart lane : Nat)
  | remapCopy (column way copy n : Nat) (bits : Option (BitVec 32))
  | defect (d : Defect)
  deriving DecidableEq, Repr

/-- The module. The last fields are the model's own: `agenda`, `upsets`, `cur`, `turn` (log 1), `free` (log 4). -/
structure State where
  powered    : Bool
  stage      : Nat                   -- status pins (R362, R363)
  mem        : List Host.Cell        -- stacked DRAM and hub SRAM, canonical
  marks      : AMap PieceMark        -- key: address of the piece (Ops.pieceOf)
  faults     : AMap Unit             -- pieces whose cells fail for good, by physical place (R364)
  columns    : AMap Column           -- key stack × 256 + column; unlisted: as after bring-up
  stackTab   : AMap Stack
  harts      : AMap Hart
  shadows    : AMap Hart             -- results held apart until retirement (R174)
  tasks      : AMap Task
  queues     : AMap QueueDesc
  slots      : List (Nat × Nat)      -- bound queue and the stamp of its binding (R279), at most 64
  stamps     : Nat                   -- next arrival stamp (R280)
  order      : Nat                   -- next place in the order of starts and activations
  nextTask   : Nat
  nextHart   : Nat
  targets    : AMap Target
  regions    : List MemRegion
  outstanding : AMap Remote
  hubOut     : AMap HubAccess        -- the hub's own, numbered with them
  nextRemote : Nat
  ports      : Nat                   -- scale-up ports alive, as a bit set
  moduleNum  : Nat
  measured   : Vector (List Byte) 8  -- MR0 to MR7
  images     : List Image            -- boot flash
  flashRemap : AMap (BitVec 32)      -- boot flash, key column × 768 + way × 12 + n
  identity   : Identity
  partitions : AMap Partition
  films      : List (Nat × List Byte)  -- recorded films that the steward holds, each with its partition, one for each hart that recorded (R334)
  defects    : List Defect
  modcap     : Nat
  qpErrors   : List HostQp
  log        : List LogEntry         -- newest first
  replies    : List HostReply        -- newest first
  agenda     : List Instr            -- events that the outside and the engines make happen, next first
  upsets     : List Upset            -- what befalls the hardware, next first
  cur        : Option Nat
  turn       : Nat
  free       : Nat
  deriving DecidableEq, Repr

/-- The identity that the fused secret gives (R344). -/
def deviceIdentity : Identity :=
  let keys := Config.mlDsaKeys (Config.shake256 Config.fusedSecret 32)
  ⟨keys.1, keys.2, Config.certificate keys.1⟩

/-- The module after bring-up (R362): power on, pins at 0xF, memory zero, every queue disabled, no task. The values of the
fields that the spec gives no reset value for are named in log 1 to log 4. -/
def State.reset : State where
  powered := true
  stage := 15
  mem := []
  marks := []
  faults := []
  columns := []
  stackTab := []
  harts := []
  shadows := []
  tasks := []
  queues := []
  slots := []
  stamps := 0
  order := 0
  nextTask := 0
  nextHart := 0
  targets := []
  regions := []
  outstanding := []
  hubOut := []
  nextRemote := 0
  ports := 0xFFFF
  moduleNum := Config.moduleNumber % 18
  measured := Vector.replicate 8 (List.replicate 64 0)
  images := []
  flashRemap := []
  identity := deviceIdentity
  partitions := []
  films := []
  defects := []
  modcap := 1800
  qpErrors := []
  log := []
  replies := []
  agenda := []
  upsets := []
  cur := none
  turn := 0
  free := 0

end Sys2Proof.Machine
end

