-- ==== Sys2Proof/Machine/Base.lean ====
section
/-! DEFINITION. Machine/Base.lean: sparse maps, bytes, and the shape of an instruction's meaning. -/

namespace Sys2Proof.Machine

/-! ## Sparse maps: keys strictly rising -/

/-- The value at key k. -/
def find? {α : Type} : AMap α → Nat → Option α
  | [], _ => none
  | (a, v) :: m, k => if a = k then some v else if k < a then none else find? m k

/-- The value at key k, or d. -/
def look {α : Type} (m : AMap α) (k : Nat) (d : α) : α := (find? m k).getD d

/-- The map with v at key k. -/
def put {α : Type} : AMap α → Nat → α → AMap α
  | [], k, v => [(k, v)]
  | (a, w) :: m, k, v => if k < a then (k, v) :: (a, w) :: m else if k = a then (k, v) :: m else (a, w) :: put m k v

/-- The map without key k. -/
def del {α : Type} : AMap α → Nat → AMap α
  | [], _ => []
  | (a, w) :: m, k => if k = a then m else if k < a then (a, w) :: m else (a, w) :: del m k

/-- The map with every pair of a list put into it, in order. -/
def putAll {α : Type} (m : AMap α) (l : List (Nat × α)) : AMap α := l.foldl (fun m e => put m e.1 e.2) m

/-- The keys rise strictly. -/
def rising {α : Type} : AMap α → Bool
  | [] => true
  | [_] => true
  | (a, _) :: (b, w) :: m => decide (a < b) && rising ((b, w) :: m)

/-! ## Bytes -/

/-- Little-endian bytes of v (R7, R126). -/
def toBytes : (n v : Nat) → List Byte
  | 0, _ => []
  | n + 1, v => BitVec.ofNat 8 v :: toBytes n (v / 256)

/-- The number that little-endian bytes hold. -/
def ofBytes : List Byte → Nat
  | [] => 0
  | b :: bs => b.toNat + 256 * ofBytes bs

/-- n bits of v read as a two's complement number. -/
def signed (n v : Nat) : Int :=
  let u := v % 2 ^ n
  if 2 ^ n ≤ 2 * u then (u : Int) - 2 ^ n else u

/-- An integer as a word, modulo 2^64 (R149). -/
def wordOfInt (i : Int) : Word := BitVec.ofInt 64 i

/-- n bits of v, sign-extended to a word. -/
def sextWord (n v : Nat) : Word := wordOfInt (signed n v)

/-- Bit i of a bit set. -/
def hasBit (s i : Nat) : Bool := s.testBit i

/-- A bit set with bit i set to b. -/
def putBit (s i : Nat) (b : Bool) : Nat :=
  if b then s ||| 2 ^ i else if s.testBit i then s - 2 ^ i else s

/-- The numbers lo, lo + 1, …, lo + n - 1. -/
def span (lo n : Nat) : List Nat := (List.range n).map (lo + ·)

/-- The smallest number not below a quotient. -/
def ceilDiv (a b : Nat) : Nat := (a + b - 1) / b

/-- Everything from a list that satisfies p, without repeats, first occurrences first. -/
def distinct : List Nat → List Nat
  | [] => []
  | a :: l => a :: (distinct l).filter (· != a)

/-! ## Meanings -/

/-- An instruction of hart `id` on its way: the module, the hart as it will be after retirement, the next pc, whether control
was transferred, the prefix that governs it (R133) and its word. -/
structure Ctx where
  s     : State
  id    : Nat
  h     : Hart
  npc   : Word
  taken : Bool
  gov   : Option Pfx
  word  : Word
  todo  : List AtRetire

/-- An instruction that does not retire: it traps with a cause and `TRAPINFO`, or it waits and issues again. -/
inductive Stop
  | trap (cause : Cause) (info : Word) (c : Ctx)
  | wait (w : Wait) (c : Ctx)

/-- What an instruction does after the checks that all instructions share (R140). -/
abbrev Meaning := Ctx → Except Stop Ctx

/-- Raises a cause unless b holds. -/
def need (b : Bool) (cause : Cause) (info : Word) (c : Ctx) : Except Stop Unit :=
  if b then .ok () else .error (.trap cause info c)

/-- `ILLEGAL` with the instruction's word, unless b holds (R139). -/
def legal (b : Bool) (c : Ctx) : Except Stop Unit := need b .illegal c.word c

/-- `TAGMISMATCH` unless b holds (R46). -/
def tagsOk (b : Bool) (c : Ctx) : Except Stop Unit := need b .tagMismatch c.word c

/-! ## Registers -/

/-- A scalar register; `x0` reads 0 (R34, R149). -/
def Hart.getX (h : Hart) (r : XReg) : Word := if r = 0 then 0 else h.x[r.toNat]'(by have := r.isLt; omega)

/-- Writes a scalar register; a write to `x0` is discarded (R129). -/
def Hart.setX (h : Hart) (r : XReg) (v : Word) : Hart :=
  if r = 0 then h else { h with x := h.x.set r.toNat v (by have := r.isLt; omega) }

/-- A predicate; `p0` reads true. -/
def Hart.getP (h : Hart) (r : PReg) : Bool := if r = 0 then true else h.p[r.toNat]'(by have := r.isLt; omega)

/-- Writes a predicate; a write to `p0` is discarded. -/
def Hart.setP (h : Hart) (r : PReg) (b : Bool) : Hart :=
  if r = 0 then h else { h with p := h.p.set r.toNat b (by have := r.isLt; omega) }

/-- A mask, as a bit set. -/
def Hart.getK (h : Hart) (r : KReg) : Nat := h.k[r.toNat]'(by have := r.isLt; omega)

def Hart.setK (h : Hart) (r : KReg) (m : Nat) : Hart :=
  { h with k := h.k.set r.toNat m (by have := r.isLt; omega) }

/-- A vector register; one that nothing has touched is closed and tagged uint32 (R55). -/
def Hart.getV (h : Hart) (r : VNum) : VReg := look h.v r.toNat {}

def Hart.setV (h : Hart) (r : VNum) (v : VReg) : Hart := { h with v := put h.v r.toNat v }

def Ctx.x (c : Ctx) (r : XReg) : Word := c.h.getX r
def Ctx.p (c : Ctx) (r : PReg) : Bool := c.h.getP r
def Ctx.setX (c : Ctx) (r : XReg) (v : Word) : Ctx := { c with h := c.h.setX r v }
def Ctx.setP (c : Ctx) (r : PReg) (b : Bool) : Ctx := { c with h := c.h.setP r b }
def Ctx.later (c : Ctx) (e : AtRetire) : Ctx := { c with todo := c.todo ++ [e] }

/-- Raises flags (R118). -/
def Hart.raise (h : Hart) (f : Nat) : Hart := { h with fpflags := h.fpflags ||| BitVec.ofNat 64 (f % 32) }

/-! ## Parts of the module -/

def State.col (s : State) (c : Nat) : Column := look s.columns c {}
def State.setCol (s : State) (c : Nat) (v : Column) : State := { s with columns := put s.columns c v }
def State.modCol (s : State) (c : Nat) (f : Column → Column) : State := s.setCol c (f (s.col c))
def State.stk (s : State) (n : Nat) : Stack := look s.stackTab n {}
def State.modStk (s : State) (n : Nat) (f : Stack → Stack) : State := { s with stackTab := put s.stackTab n (f (s.stk n)) }
def State.hart? (s : State) (n : Nat) : Option Hart := find? s.harts n
def State.setHart (s : State) (n : Nat) (h : Hart) : State := { s with harts := put s.harts n h }
def State.modHart (s : State) (n : Nat) (f : Hart → Hart) : State :=
  match s.hart? n with
  | some h => s.setHart n (f h)
  | none => s
def State.task? (s : State) (n : Nat) : Option Task := find? s.tasks n
def State.setTask (s : State) (n : Nat) (t : Task) : State := { s with tasks := put s.tasks n t }
def State.modTask (s : State) (n : Nat) (f : Task → Task) : State :=
  match s.task? n with
  | some t => s.setTask n (f t)
  | none => s
def State.queue (s : State) (q : Nat) : QueueDesc := look s.queues q {}
def State.setQueue (s : State) (q : Nat) (d : QueueDesc) : State := { s with queues := put s.queues q d }
def State.note (s : State) (e : LogEntry) : State := { s with log := e :: s.log }
def State.reply (s : State) (r : HostReply) : State := { s with replies := r :: s.replies }

/-- A kernel header of zeros, of a task that does not exist. -/
def noHeader : KernelHeader := ⟨0, 0, 0, 0, 0, 0, 0, 0, 0, 0, 0, 0⟩

/-- The stack of a hart. -/
def Hart.stack (h : Hart) : Nat := h.column / 256

/-- A hart stands in its column: Resident, or halted and not yet saved (R290, R291). -/
def Hart.inPlace (h : Hart) : Bool := h.status == .resident || h.status == .halted

/-- The columns of a hart's partition. -/
def Hart.columns (h : Hart) : List Nat := span h.column h.cols

/-- Lanes of the partition in one column. -/
def Hart.laneCount (h : Hart) : Nat := h.lanes / h.cols

/-- The number of a hart that its task has got. -/
def State.idOf (s : State) (h : Hart) : Option Nat :=
  ((s.task? h.task).bind (fun t => find? t.harts h.rank)).filter (fun n => (s.hart? n).any (fun r => r.task == h.task && r.rank == h.rank))

/-- Does something for a hart whose record stands apart, with the hart in its place meanwhile. -/
def State.forHart (s : State) (h : Hart) (f : ActSource → State → State) : State × Hart :=
  match s.idOf h with
  | some n =>
    let s := f (.base n) (s.setHart n h)
    (s, (s.hart? n).getD h)
  | none => (f .hub s, h)

/-- The kernel header of a hart's task. -/
def State.header (s : State) (h : Hart) : KernelHeader := ((s.task? h.task).map (·.hdr)).getD noHeader

/-- The address-space root of a hart's task (R72). -/
def State.rootOf (s : State) (h : Hart) : Nat := ((s.task? h.task).map (·.root)).getD 0

/-- The partition number of a hart's task. -/
def State.partOf (s : State) (h : Hart) : Nat := ((s.task? h.task).map (·.part)).getD 0

/-- The kernel header's address (R53). -/
def State.khdrOf (s : State) (h : Hart) : Nat := ((s.task? h.task).map (·.srec.khdr)).getD 0

def Ctx.header (c : Ctx) : KernelHeader := c.s.header c.h
def Ctx.task? (c : Ctx) : Option Task := c.s.task? c.h.task

/-- The capacity of a vector register in lane words (R37). -/
def Hart.vlmax (h : Hart) : Nat := h.lanes * 512 / h.geom

/-- The rounded count of declared vector registers (R50). -/
def KernelHeader.vregCount (k : KernelHeader) : Nat := ceilDiv k.vregs 8 * 8

/-- A step that does not occur in this state. -/
def cannot : Host.Outcome State Fault Refusal := .refused .cannotOccur

end Sys2Proof.Machine
end

