-- ==== Sys2Proof/Machine/Flags.lean ====
section
/-! DEFINITION. Machine/Flags.lean: floating formats, exact values, rounding, and every flag computation (R105 to R125). -/

namespace Sys2Proof.Machine

/-! ## Formats -/

/-- What the highest exponent means: infinities and NaNs, the one NaN of fp8e4m3, or nothing special (R105). -/
inductive Specials
  | ieee | onlyNan | none
  deriving DecidableEq, Repr

/-- A floating format (R105). The largest finite value is `maxM` × 2^`maxK`; `wide` formats follow FTZ and overflow to ∞ (R110,
R115); `poisonNan` is the poison NaN (R117). -/
structure Fmt where
  bits      : Nat
  eBits     : Nat
  mBits     : Nat
  bias      : Int
  specials  : Specials
  maxM      : Nat
  maxK      : Int
  wide      : Bool
  canonNan  : Option Nat
  poisonNan : Option Nat
  deriving DecidableEq, Repr

def fp32 : Fmt := ⟨32, 8, 23, 127, .ieee, 0xFFFFFF, 104, true, some 0x7FC00000, some 0x7FA00BAD⟩
def fp16 : Fmt := ⟨16, 5, 10, 15, .ieee, 0x7FF, 5, true, some 0x7E00, some 0x7E0B⟩
def bf16 : Fmt := ⟨16, 8, 7, 127, .ieee, 0xFF, 120, true, some 0x7FC0, some 0x7FAB⟩
def fp8e4m3 : Fmt := ⟨8, 4, 3, 7, .onlyNan, 14, 5, false, some 0x7F, none⟩
def fp8e5m2 : Fmt := ⟨8, 5, 2, 15, .ieee, 7, 13, false, some 0x7E, none⟩
def fp6e2m3 : Fmt := ⟨6, 2, 3, 1, .none, 15, -1, false, none, none⟩
def fp6e3m2 : Fmt := ⟨6, 3, 2, 3, .none, 7, 2, false, none, none⟩
def fp4e2m1 : Fmt := ⟨4, 2, 1, 1, .none, 3, 1, false, none, none⟩

/-! ## Exact values -/

/-- A value: NaN, an infinity, or ±m × 2^e. -/
inductive FVal
  | nan
  | inf (neg : Bool)
  | fin (neg : Bool) (m : Nat) (e : Int)
  deriving DecidableEq, Repr

/-- The flag bits of R118. -/
def flagNV : Nat := 1
def flagDZ : Nat := 2
def flagOF : Nat := 4
def flagUF : Nat := 8
def flagNX : Nat := 16

/-- The value of an encoding (R105); with FTZ a subnormal of a wide format reads as a zero of its sign (R115). -/
def Fmt.value (f : Fmt) (ftz : Bool) (b : Nat) : FVal :=
  let neg := b.testBit (f.bits - 1)
  let e := b / 2 ^ f.mBits % 2 ^ f.eBits
  let m := b % 2 ^ f.mBits
  let top := 2 ^ f.eBits - 1
  if f.specials = .ieee ∧ e = top then (if m = 0 then .inf neg else .nan)
  else if f.specials = .onlyNan ∧ e = top ∧ m = 2 ^ f.mBits - 1 then .nan
  else if e = 0 then
    if ftz && f.wide then .fin neg 0 0 else .fin neg m (1 - f.bias - f.mBits)
  else .fin neg (m + 2 ^ f.mBits) (e - f.bias - f.mBits)

def Fmt.sign (f : Fmt) (neg : Bool) : Nat := if neg then 2 ^ (f.bits - 1) else 0

def Fmt.infinity (f : Fmt) (neg : Bool) : Nat := f.sign neg + (2 ^ f.eBits - 1) * 2 ^ f.mBits

/-- The encoding of q × 2^k with q ≤ 2^(mBits + 1) and k at least the exponent of the subnormals. -/
def Fmt.pack (f : Fmt) (neg : Bool) (q : Nat) (k : Int) : Nat :=
  let q' := if q = 2 ^ (f.mBits + 1) then 2 ^ f.mBits else q
  let k' := if q = 2 ^ (f.mBits + 1) then k + 1 else k
  if q' < 2 ^ f.mBits then f.sign neg + q'
  else f.sign neg + (k' + f.mBits + f.bias).toNat * 2 ^ f.mBits + (q' - 2 ^ f.mBits)

def Fmt.largest (f : Fmt) (neg : Bool) : Nat := f.pack neg f.maxM f.maxK

/-- A rounding environment: the mode of R108, the draw of R112 and FTZ. -/
structure RMode where
  rm   : Nat
  draw : Nat
  ftz  : Bool
  deriving DecidableEq, Repr

/-- Round to nearest even, without a draw (R111). -/
def rne (ftz : Bool) : RMode := ⟨0, 0, ftz⟩

/-- Whether a magnitude of q units and a remainder r of 2^sh, with something below when `sticky`, rounds up (R110, R113). -/
def roundsUp (r : RMode) (neg : Bool) (q rem sh : Nat) (sticky : Bool) : Bool :=
  let inexact := rem != 0 || sticky
  let half := 2 ^ sh / 2
  match r.rm with
  | 0 => decide (half < rem) && (sh != 0) || (rem == half && sh != 0 && (sticky || q % 2 == 1))
  | 1 => false
  | 2 => neg && inexact
  | 3 => !neg && inexact
  | _ => decide (65536 ≤ rem * 65536 / 2 ^ sh + r.draw)

/-- The magnitude (m + δ) × 2^e in units of 2^k, with 0 < δ < 1 when `sticky` and δ = 0 otherwise: whole units, remainder, and the
shift that the remainder is counted in. -/
def inUnits (m : Nat) (e k : Int) : Nat × Nat × Nat :=
  if k ≤ e then (m * 2 ^ (e - k).toNat, 0, 0)
  else
    let sh := (k - e).toNat
    (m / 2 ^ sh, m % 2 ^ sh, sh)

/-- A result that exceeds the largest finite value (R110). -/
def Fmt.overflow (f : Fmt) (r : RMode) (neg : Bool) : Nat × Nat :=
  let toInf := f.wide && (match r.rm with
    | 1 => false
    | 2 => neg
    | 3 => !neg
    | _ => true)
  ((if toInf then f.infinity neg else f.largest neg), flagOF + flagNX)

/-- `RoundTo` of a nonzero magnitude (R110, R113, R115): the encoding and the flags. -/
def Fmt.round (f : Fmt) (r : RMode) (neg : Bool) (m : Nat) (e : Int) (sticky : Bool) : Nat × Nat :=
  let emin : Int := 1 - f.bias
  let ex : Int := (m.log2 : Int) + e
  let k : Int := (if ex < emin then emin else ex) - f.mBits
  let u := inUnits m e k
  let inexact := u.2.1 != 0 || sticky
  let q := u.1 + (if roundsUp r neg u.1 u.2.1 u.2.2 sticky then 1 else 0)
  if f.maxK < k ∨ (k = f.maxK ∧ f.maxM < q) then f.overflow r neg
  else
    let tiny := decide (q < 2 ^ f.mBits)
    if tiny && r.ftz && f.wide then (f.sign neg, flagUF + flagNX)
    else (f.pack neg q k, (if tiny && inexact then flagUF else 0) + (if inexact then flagNX else 0))

/-- The encoding and flags of an exact value, or of one that is a little larger in magnitude when `sticky`. Formats without an
encoding for a NaN or an infinity follow R120. -/
def Fmt.encode (f : Fmt) (r : RMode) (sticky : Bool) : FVal → Nat × Nat
  | .nan => match f.canonNan with
    | some n => (n, 0)
    | none => (0, flagNV)
  | .inf neg => if f.specials = .ieee then (f.infinity neg, 0) else (f.largest neg, flagOF + flagNX)
  | .fin neg m e => if m = 0 then (f.sign neg, 0) else f.round r neg m e sticky

/-! ## Exact arithmetic -/

def FVal.neg : FVal → FVal
  | .nan => .nan
  | .inf n => .inf !n
  | .fin n m e => .fin (!n) m e

def FVal.isNan : FVal → Bool
  | .nan => true
  | _ => false

def FVal.isInf : FVal → Bool
  | .inf _ => true
  | _ => false

def FVal.isZero : FVal → Bool
  | .fin _ 0 _ => true
  | _ => false

def FVal.isNeg : FVal → Bool
  | .nan => false
  | .inf n => n
  | .fin n _ _ => n

/-- The value times 2^k. -/
def FVal.scale (v : FVal) (k : Int) : FVal :=
  match v with
  | .fin n m e => .fin n m (e + k)
  | _ => v

/-- ±m × 2^e as an integer count of 2^k, for k ≤ e. -/
def intUnits (neg : Bool) (m : Nat) (e k : Int) : Int :=
  let u : Int := ((m * 2 ^ (e - k).toNat : Nat) : Int)
  if neg then -u else u

/-- The exact sum and its NV flag (R110, R118). An exact zero has sign + except towards −∞; zeros of one sign keep it. -/
def addV (rdn : Bool) : FVal → FVal → FVal × Nat
  | .nan, _ => (.nan, 0)
  | _, .nan => (.nan, 0)
  | .inf a, .inf b => if a = b then (.inf a, 0) else (.nan, flagNV)
  | .inf a, .fin .. => (.inf a, 0)
  | .fin .., .inf b => (.inf b, 0)
  | .fin na ma ea, .fin nb mb eb =>
    if ma = 0 ∧ mb = 0 then (.fin (if na = nb then na else rdn) 0 0, 0)
    else if ma = 0 then (.fin nb mb eb, 0)
    else if mb = 0 then (.fin na ma ea, 0)
    else
      let k := min ea eb
      let t := intUnits na ma ea k + intUnits nb mb eb k
      if t = 0 then (.fin rdn 0 0, 0) else (.fin (decide (t < 0)) t.natAbs k, 0)

/-- The exact product and its NV flag. -/
def mulV : FVal → FVal → FVal × Nat
  | .nan, _ => (.nan, 0)
  | _, .nan => (.nan, 0)
  | .inf a, .inf b => (.inf (a != b), 0)
  | .inf a, .fin b m _ => if m = 0 then (.nan, flagNV) else (.inf (a != b), 0)
  | .fin a m _, .inf b => if m = 0 then (.nan, flagNV) else (.inf (a != b), 0)
  | .fin na ma ea, .fin nb mb eb => (.fin (na != nb) (ma * mb) (ea + eb), 0)

/-- The quotient to at least 128 bits, whether something is left below, and the flags NV and DZ. -/
def divV : FVal → FVal → FVal × Bool × Nat
  | .nan, _ => (.nan, false, 0)
  | _, .nan => (.nan, false, 0)
  | .inf _, .inf _ => (.nan, false, flagNV)
  | .inf a, .fin b _ _ => (.inf (a != b), false, 0)
  | .fin a _ _, .inf b => (.fin (a != b) 0 0, false, 0)
  | .fin na ma ea, .fin nb mb eb =>
    if mb = 0 then (if ma = 0 then (.nan, false, flagNV) else (.inf (na != nb), false, flagDZ))
    else if ma = 0 then (.fin (na != nb) 0 0, false, 0)
    else
      let s : Nat := 128 + mb.log2
      (.fin (na != nb) (ma * 2 ^ s / mb) (ea - eb - s), ma * 2 ^ s % mb != 0, 0)

/-- The integer square root of n, for a root below 2^b. -/
def isqrt (n : Nat) : Nat → Nat → Nat
  | 0, acc => acc
  | b + 1, acc => isqrt n b (if (acc + 2 ^ b) * (acc + 2 ^ b) ≤ n then acc + 2 ^ b else acc)

/-- The square root to at least 100 bits, whether something is left below, and NV. -/
def sqrtV : FVal → FVal × Bool × Nat
  | .nan => (.nan, false, 0)
  | .inf n => if n then (.nan, false, flagNV) else (.inf false, false, 0)
  | .fin n m e =>
    if m = 0 then (.fin n 0 0, false, 0)
    else if n then (.nan, false, flagNV)
    else
      let s : Nat := 200 + (if (e - 200) % 2 = 0 then 0 else 1)
      let w := m * 2 ^ s
      let r := isqrt w (w.log2 / 2 + 1) 0
      (.fin false r ((e - s) / 2), r * r != w, 0)

/-- Order of two values; none when either is NaN. Zeros compare equal. -/
def cmpV : FVal → FVal → Option Ordering
  | .nan, _ => none
  | _, .nan => none
  | .inf a, .inf b => some (if a = b then .eq else if a then .lt else .gt)
  | .inf a, .fin .. => some (if a then .lt else .gt)
  | .fin .., .inf b => some (if b then .gt else .lt)
  | .fin na ma ea, .fin nb mb eb =>
    let k := min ea eb
    let x := intUnits na ma ea k
    let y := intUnits nb mb eb k
    some (if x < y then .lt else if y < x then .gt else .eq)

/-- a is below b in the order of R116, which puts −0 below +0. -/
def below (a b : FVal) : Bool :=
  match cmpV a b with
  | some .lt => true
  | some .eq => a.isNeg && !b.isNeg
  | _ => false

/-- Minimum or maximum (R116): of one NaN and one number, the number. True picks the second operand. -/
def picksSecond (isMax : Bool) (a b : FVal) : Bool :=
  if a.isNan then true else if b.isNan then false else if isMax then below a b else below b a

/-! ## Operations rounded once -/

/-- RoundTo(f, a + b). -/
def fAdd (f : Fmt) (r : RMode) (a b : FVal) : Nat × Nat :=
  let t := addV (r.rm == 2) a b
  let e := f.encode r false t.1
  (e.1, e.2 ||| t.2)

/-- RoundTo(f, a × b). -/
def fMul (f : Fmt) (r : RMode) (a b : FVal) : Nat × Nat :=
  let t := mulV a b
  let e := f.encode r false t.1
  (e.1, e.2 ||| t.2)

/-- RoundTo(f, d + a × b), one rounding. -/
def fFma (f : Fmt) (r : RMode) (d a b : FVal) : Nat × Nat :=
  let p := mulV a b
  let t := addV (r.rm == 2) p.1 d
  let e := f.encode r false t.1
  (e.1, e.2 ||| t.2 ||| p.2)

/-- RoundTo(f, a ÷ b). -/
def fDiv (f : Fmt) (r : RMode) (a b : FVal) : Nat × Nat :=
  let t := divV a b
  let e := f.encode r t.2.1 t.1
  (e.1, e.2 ||| t.2.2)

/-- RoundTo(f, √a). -/
def fSqrt (f : Fmt) (r : RMode) (a : FVal) : Nat × Nat :=
  let t := sqrtV a
  let e := f.encode r t.2.1 t.1
  (e.1, e.2 ||| t.2.2)

/-- The exact sum of terms with its NV flag, as R121 forms it: infinities of both signs give NaN and NV, even beside a NaN. -/
def sumV (rdn : Bool) (ts : List (FVal × Nat)) : FVal × Nat :=
  let s := ts.foldl (fun (acc : FVal × Nat) t => let u := addV rdn acc.1 t.1; (u.1, acc.2 ||| u.2 ||| t.2))
    ((match ts with
      | [] => FVal.fin rdn 0 0
      | t :: _ => if t.1.isZero then .fin t.1.isNeg 0 0 else .fin rdn 0 0), 0)
  let both := ts.any (fun t => t.1 == .inf true) && ts.any (fun t => t.1 == .inf false)
  (s.1, if both then s.2 ||| flagNV else s.2)

/-- A floating value rounded to an integer under the mode, and whether it is inexact. -/
def roundInt (r : RMode) (neg : Bool) (m : Nat) (e : Int) : Int × Bool :=
  let u := inUnits m e 0
  let q := u.1 + (if roundsUp r neg u.1 u.2.1 u.2.2 false then 1 else 0)
  ((if neg then -(q : Int) else q), u.2.1 != 0)

/-- Saturation to lo … hi. -/
def saturate (lo hi i : Int) : Int := if i < lo then lo else if hi < i then hi else i

/-- Floating to integer (R120): rounded, then saturated with NV and no NX. -/
def toIntV (r : RMode) (lo hi : Int) : FVal → Int × Nat
  | .nan => (0, flagNV)
  | .inf n => (if n then lo else hi, flagNV)
  | .fin n m e =>
    let t := roundInt r n m e
    if t.1 < lo ∨ hi < t.1 then (saturate lo hi t.1, flagNV) else (t.1, if t.2 then flagNX else 0)

/-- An integer as a value. -/
def ofIntV (i : Int) : FVal := .fin (decide (i < 0)) i.natAbs 0

/-- A conversion to an mxint8 element (R120): the grid of step 2^−6, saturation with OF and NX, and UF for a tiny quotient. -/
def toMxInt8 (r : RMode) : FVal → Nat × Nat
  | .nan => (0, flagNV)
  | .inf n => (if n then 0x80 else 0x7F, flagOF + flagNX)
  | .fin n m e =>
    if m = 0 then (0, 0)
    else
      let t := roundInt r n m (e + 6)
      if t.1 < -128 ∨ 127 < t.1 then (((saturate (-128) 127 t.1) % 256).toNat, flagOF + flagNX)
      else
        let tiny := decide ((m.log2 : Int) + e < -6)
        ((t.1 % 256).toNat, if tiny then flagUF + flagNX else if t.2 then flagNX else 0)

/-! ## Functions with stated error (R125) -/

/-- 2^f for the fraction f / 2^160, as a count of 2^−240, by square roots of 2: exact to better than 2^−230. -/
def pow2Frac (f : Nat) : Nat :=
  ((List.range 160).foldl (fun (acc : Nat × Nat) i =>
    let root := isqrt (acc.1 * 2 ^ 240) 241 0
    (root, if f.testBit (159 - i) then acc.2 * root / 2 ^ 240 else acc.2)) (2 ^ 241, 2 ^ 240)).2

/-- 2^y for y = n / 2^160, as a magnitude count and an exponent. -/
def pow2 (n : Int) : Nat × Int := (pow2Frac (n % 2 ^ 160).toNat, n / 2 ^ 160 - 240)

/-- m × 2^e ≤ m' × 2^e'. -/
def leMag (m : Nat) (e : Int) (m' : Nat) (e' : Int) : Bool :=
  let k := min e e'
  decide (m * 2 ^ (e - k).toNat ≤ m' * 2 ^ (e' - k).toNat)

/-- The binary logarithm of a magnitude to 160 bits: an integer count of 2^−160. -/
def log2Fix (m : Nat) (e : Int) : Int :=
  let l := m.log2
  let x := if l ≤ 220 then m * 2 ^ (220 - l) else m / 2 ^ (l - 220)
  let fr := (List.range 160).foldl (fun (acc : Nat × Nat) _ =>
    let y := acc.1 * acc.1 / 2 ^ 220
    if 2 ^ 221 ≤ y then (y / 2, acc.2 * 2 + 1) else (y, acc.2 * 2)) (x, 0)
  ((l : Int) + e) * 2 ^ 160 + fr.2

/-- A finite number as a count of 2^−160, which every fp32 number is. -/
def fixOf (neg : Bool) (m : Nat) (e : Int) : Int :=
  let u := inUnits m e (-160)
  if neg then -(u.1 : Int) else u.1

/-- The result of one of the four functions in fp32 is within its bound: x is the input, y the result, both finite. -/
def withinBound (op : Nat) (x y : FVal) : Bool :=
  match x, y with
  | .fin nx mx ex, .fin ny my ey =>
    match op with
    | 0 =>
      let p := pow2 (fixOf nx mx ex)
      !ny && leMag (p.1 * (2 ^ 22 - 1)) (p.2 - 22) my ey && leMag my ey (p.1 * (2 ^ 22 + 1)) (p.2 - 22)
    | 1 =>
      let t := log2Fix mx ex
      let d : Int := fixOf ny my ey - t
      let near := leMag 1 (-1) mx ex && leMag mx ex 2 0
      decide (d.natAbs + 8 ≤ if near then 2 ^ 138 else t.natAbs / 2 ^ 22)
    | 2 => (nx == ny) && leMag ((2 ^ 21 - 1)) (-21) (mx * my) (ex + ey) && leMag (mx * my) (ex + ey) (2 ^ 21 + 1) (-21)
    | _ => !ny && leMag ((2 ^ 21 - 1) * (2 ^ 21 - 1)) (-42) (mx * my * my) (ex + 2 * ey) &&
        leMag (mx * my * my) (ex + 2 * ey) ((2 ^ 21 + 1) * (2 ^ 21 + 1)) (-42)
  | _, _ => false

/-- A power of two: its exponent. -/
def powerOfTwo : FVal → Option Int
  | .fin _ m e => if m ≠ 0 ∧ m = 2 ^ m.log2 then some ((m.log2 : Int) + e) else none
  | _ => none

/-- An integer value. -/
def integerV : FVal → Option Int
  | .fin n m e =>
    let u := inUnits m e 0
    if u.2.1 = 0 then some (if n then -(u.1 : Int) else u.1) else none
  | _ => none

/-- A result of R125 before its rounding: the value, whether something is left below it, and the flags of its operation. Special inputs
and exact cases are exact. Otherwise the value is the fp32 number that the free function of R125 gives, where it meets the bound, and in
its place the fp32 number nearest to the true value; a true value that fp32 cannot hold as a normal number stands for itself, so that it
overflows or goes below the normal range as R110 and R115 say (log 11). DESIGN CHOICE (log 11): where the bound of `VLOG2` near 1 also admits
a result that is zero or subnormal, the free value is none of these. `inBits` are the input's fp32 bits. -/
def approxV (op mode inBits : Nat) (x : FVal) : FVal × Bool × Nat :=
  let free (y : FVal) (sticky : Bool) : FVal × Bool × Nat :=
    let t := fp32.encode (rne false) sticky y
    if t.2 &&& (flagOF ||| flagUF) ≠ 0 then (y, sticky, flagNX)
    else
      let cand := Config.approx op mode inBits % 2 ^ 32
      let v := fp32.value false cand
      (if withinBound op x v && cand / 2 ^ 23 % 256 != 0 then v else fp32.value false t.1, false, flagNX)
  match op, x with
  | _, .nan => (.nan, false, 0)
  | 0, .inf n => (if n then .fin false 0 0 else .inf false, false, 0)
  | 0, .fin n m e =>
    if m = 0 then (ofIntV 1, false, 0)
    else if leMag 300 0 m e then (.fin false 1 (if n then -300 else 300), true, flagNX)
    else match integerV x with
      | some i => (.fin false 1 i, false, 0)
      | none => let p := pow2 (fixOf n m e); free (.fin false p.1 p.2) true
  | 1, .inf n => if n then (.nan, false, flagNV) else (.inf false, false, 0)
  | 1, .fin n m e =>
    if m = 0 then (.inf true, false, flagDZ)
    else if n then (.nan, false, flagNV)
    else match powerOfTwo x with
      | some i => (ofIntV i, false, 0)
      | none => let t := log2Fix m e; free (.fin (decide (t < 0)) t.natAbs (-160)) true
  | 2, .inf n => (.fin n 0 0, false, 0)
  | 2, .fin n m _ =>
    if m = 0 then (.inf n, false, flagDZ)
    else match powerOfTwo x with
      | some i => (.fin n 1 (-i), false, 0)
      | none => let t := divV (.fin false 1 0) x; free t.1 t.2.1
  | _, .inf n => if n then (.nan, false, flagNV) else (.fin false 0 0, false, 0)
  | _, .fin n m _ =>
    if m = 0 then (.inf n, false, flagDZ)
    else if n then (.nan, false, flagNV)
    else
      let q := sqrtV (divV (.fin false 1 0) x).1
      match powerOfTwo x with
      | some i => if i % 2 = 0 then (.fin false 1 (-i / 2), false, 0) else free q.1 true
      | none => free q.1 true

/-- The four functions: the fp32 approximation, rounded once to the destination under the mode (R125). -/
def approxTo (f : Fmt) (op : Nat) (r : RMode) (x : FVal) (inBits : Nat) : Nat × Nat :=
  let t := approxV op r.rm (if f = fp32 then inBits else (fp32.encode (rne false) false x).1) x
  let e := f.encode r t.2.1 t.1
  (e.1, e.2 ||| t.2.2)

/-! ## Generators (R112) -/

/-- One xorshift step. -/
def nextRand (s : BitVec 32) : BitVec 32 :=
  let s := s ^^^ (s <<< 13)
  let s := s ^^^ (s >>> 17)
  s ^^^ (s <<< 5)

/-- The seed of lane l (R112). -/
def seedOf (seed : BitVec 32) (l : Nat) : BitVec 32 :=
  let v := seed ^^^ BitVec.ofNat 32 ((l + 1) * 0x9E3779B9)
  if v = 0 then 1 else v

/-- FTZ and RM of `FPMODE` (R108). -/
def Hart.ftz (h : Hart) : Bool := h.fpmode.getLsbD 3
def Hart.rm (h : Hart) : Nat := h.fpmode.toNat % 8

/-- The generator state of lane l. -/
def Hart.rand (h : Hart) (l : Nat) : BitVec 32 := look h.rnd l (seedOf (BitVec.ofNat 32 (h.fpmode.toNat / 2 ^ 32)) l)

end Sys2Proof.Machine
end

