-- ==== Sys2Proof/Machine/Classes.lean ====
section
/-! DEFINITION. Machine/Classes.lean: keys, classes in force, and the window length that they leave a column (R281, R282, R284, R358,
R359). -/

namespace Sys2Proof.Machine

/-! ## Keys (R284) -/

/-- The slot of a key id. -/
def keySlot (id : Nat) : Nat := id % 8192 ^^^ (id / 8192 % 2048)

/-- Two requests conflict: one slot, and either is exclusive. -/
def KeyReq.meets (a b : KeyReq) : Bool := keySlot a.id == keySlot b.id && (a.excl || b.excl)

/-- The record of a waiting task is visible to the dispatcher: the seen head of an enabled queue that is bound (R278, R279). -/
def visible (s : State) (id : Nat) (t : Task) : Bool :=
  (s.queue t.queue).state == 1 && s.slots.any (·.1 == t.queue) && (s.queue t.queue).seen == some id

/-- The task waits at the dispatcher with its dependence met. -/
def waits (s : State) (id : Nat) (t : Task) : Bool := t.phase == .waiting && t.depMet && visible s id t

/-- The tasks that stand in the way of a request of task w: those that hold a conflicting grant, and those of earlier arrival that
wait for the key in a conflicting mode. -/
def keyBlockers (s : State) (id : Nat) (w : Task) (k : KeyReq) : List Nat :=
  (s.tasks.filter (fun u => u.1 != id &&
    (u.2.held.any k.meets || (waits s u.1 u.2 && decide (u.2.stamp < w.stamp) && u.2.keys.any k.meets)))).map (·.1)

/-- Every key of a task can be granted. -/
def keyGrantable (s : State) (id : Nat) (t : Task) : Bool := t.keys.all (fun k => (keyBlockers s id t k).isEmpty)

/-- A task that may start once its lanes can be granted (R285). -/
def eligible (s : State) (id : Nat) (t : Task) : Bool := waits s id t && keyGrantable s id t

/-- The tasks that inherit from a task that waits for a key: every one that holds it, and those of earlier arrival that wait for it in a
conflicting mode (R282). -/
def inheritors (s : State) (id : Nat) (w : Task) (k : KeyReq) : List Nat :=
  (s.tasks.filter (fun u => u.1 != id &&
    (u.2.held.any (fun q => keySlot q.id == keySlot k.id) ||
      (waits s u.1 u.2 && decide (u.2.stamp < w.stamp) && u.2.keys.any k.meets)))).map (·.1)

/-! ## Classes in force (R281, R282) -/

/-- One round of inheritance over the classes of all tasks. -/
def inherit (s : State) (cf : AMap Nat) : AMap Nat :=
  s.tasks.foldl (fun cf w =>
    if !waits s w.1 w.2 || keyGrantable s w.1 w.2 then cf
    else w.2.keys.foldl (fun cf k => (inheritors s w.1 w.2 k).foldl (fun cf o =>
      put cf o (min (look cf o 3) (look cf w.1 3))) cf) cf) cf

/-- Rounds of inheritance. -/
def inherits (s : State) : Nat → AMap Nat → AMap Nat
  | 0, cf => cf
  | n + 1, cf => inherits s n (inherit s cf)

/-- The class in force of a task. -/
def classOf (s : State) (id : Nat) : Nat :=
  look (inherits s s.tasks.length (s.tasks.map (fun t => (t.1, min t.2.base t.2.aged)))) id 3

/-! ## Columns -/

/-- The harts in place, but for some. -/
def inPlaceHarts (s : State) (gone : List Nat) : List (Nat × Hart) := s.harts.filter (fun e => e.2.inPlace && !gone.contains e.1)

/-- A class-0 hart is in place in a column. -/
def classZero (s : State) (c : Nat) : Bool :=
  (inPlaceHarts s []).any (fun e => e.2.columns.contains c && classOf s e.2.task == 0)

/-- The window length L of a column now: what the arbiter gave it last, within what the power block, the classes in force and the monitors now
allow: RESWIN where a class-0 hart is in place, else MAXWIN, which a hot stack's columns stand at (R358, R359, R361). -/
def State.winNow (s : State) (c : Nat) : Nat :=
  let k := s.stk (c / 256)
  if classZero s c then min (s.col c).winLen k.resWin else if k.thermal then k.maxWin else min (s.col c).winLen k.maxWin

/-- WIN of a stack: the longest L among its columns in which no class-0 hart is in place (R360). -/
def State.winShown (s : State) (stack : Nat) : Nat :=
  (((span (stack * 256) 256).filter (fun c => !classZero s c)).map s.winNow).foldl max 24

end Sys2Proof.Machine
end

