-- ==== Sys2Proof/Machine/Memory.lean ====
section
/-! DEFINITION. Machine/Memory.lean: physical addresses, bytes and pieces of memory, `ERRCOL`, page tables and translation. -/

namespace Sys2Proof.Machine

/-! ## Physical addresses (R22, R23) -/

/-- The regions of R22. -/
inductive Region
  | dram | hub | regs | reserved | remote
  deriving DecidableEq, Repr

def regionOf (pa : Nat) : Region :=
  if pa < 0x8000000000 then .dram
  else if pa < 0x8010000000 then .hub
  else if pa < 0x8020000000 then .regs
  else if pa < 0x10000000000 then .reserved
  else .remote

/-- The address lies in stacked DRAM or hub SRAM. -/
def inMemory (pa : Nat) : Bool := regionOf pa == .dram || regionOf pa == .hub

/-- Fields of a DRAM address (R23). -/
def rowOf (pa : Nat) : Nat := pa / 2 ^ 28 % 2048
def columnOf (pa : Nat) : Nat := pa / 2 ^ 16 % 4096
def layerOf (pa : Nat) : Nat := pa / 2 ^ 13 % 8
def wayOf (pa : Nat) : Nat := pa / 2 ^ 10 % 8
def laneOf (pa : Nat) : Nat := pa / 4 % 32

/-- The DRAM address of byte b of a way-row; `column` is stack × 256 + column. -/
def rowAddress (row column layer way b : Nat) : Nat :=
  row * 2 ^ 28 + column * 2 ^ 16 + layer * 2 ^ 13 + way * 2 ^ 10 + b

/-- The address that names the 32-byte piece of a byte: the lane piece of R18 in DRAM, the aligned piece of R304 in hub SRAM. -/
def pieceOf (pa : Nat) : Nat :=
  if pa < 0x8000000000 then pa / 1024 * 1024 + pa / 4 % 32 * 4 else pa / 32 * 32

/-- The bytes of a piece. -/
def pieceBytes (pa : Nat) : List Nat :=
  if pa < 0x8000000000 then (span 0 8).flatMap (fun k => span (pieceOf pa + 128 * k) 4) else span (pieceOf pa) 32

/-! ## Remap tables (R19, R310) -/

/-- Key of entry n of a way in a copy of a column's table. -/
def remapKey (copy way n : Nat) : Nat := (copy * 64 + way) * 12 + n

/-- The physical row that holds an addressable row of a way: the spare that replaces it, else the row itself. -/
def Column.physicalRow (k : Column) (way row : Nat) : Nat :=
  match (List.range 12).find? (fun n =>
      let e := look k.table (way * 12 + n) 0
      e.getLsbD 31 && e.toNat % 2048 == row) with
  | some n => 2096 + n
  | none => row

/-- The addressable row that a physical row holds; a reserved row that replaces none stands for itself. -/
def Column.addressedRow (k : Column) (way row : Nat) : Nat :=
  if row < 2096 ∨ 2108 ≤ row then row
  else
    let e := look k.table (way * 12 + (row - 2096)) 0
    if e.getLsbD 31 then e.toNat % 2048 else row

/-- The physical row of a DRAM address. -/
def physicalRow (s : State) (pa : Nat) : Nat := (s.col (columnOf pa)).physicalRow (layerOf pa * 8 + wayOf pa) (rowOf pa)

/-! ## Bytes of memory -/

/-- A byte of memory; one that is not listed reads 0 (R362 stage 7; hub SRAM: log 2). -/
def readByte (m : List Host.Cell) (a : Nat) : Byte := look m a 0

/-- Writes a byte, keeping the canonical form. -/
def writeByte (m : List Host.Cell) (a : Nat) (b : Byte) : List Host.Cell := if b = 0 then del m a else put m a b

def writeCells (m : List Host.Cell) (cells : List (Nat × Byte)) : List Host.Cell :=
  cells.foldl (fun m c => writeByte m c.1 c.2) m

/-- The canonical form of memory: addresses rise strictly, and no listed byte is 0. -/
def Memory.wf (m : List Host.Cell) : Bool := rising m && m.all (fun c => c.2 != 0)

/-- The bytes from address a up. -/
def readBytes (s : State) (a n : Nat) : List Byte := (span a n).map (readByte s.mem)

/-- The number that n bytes from address a hold. -/
def readNat (s : State) (a n : Nat) : Nat := ofBytes (readBytes s a n)

/-! ## Pieces and data errors (R304, R305, R364) -/

/-- `ERRCOL` after an uncorrectable piece of a physical row that a path with the given SRC met (R305); `way` is layer × 8 + way. -/
def Column.recordAt (c : Column) (src row way lane : Nat) : Column :=
  if c.errcol.getLsbD 63 then
    if c.errcol.toNat % 256 < 255 then { c with errcol := c.errcol + 1 } else c
  else { c with errcol := BitVec.ofNat 64 (2 ^ 63 + src * 2 ^ 38 + row * 2 ^ 26 + way * 2 ^ 20 + lane * 2 ^ 15 + 1) }

/-- Records an uncorrectable piece that a path with the given SRC met (R305); one of hub SRAM goes to the steward's log. -/
def recordPiece (s : State) (src piece : Nat) : State :=
  if regionOf piece = .dram then
    s.modCol (columnOf piece) (fun c => c.recordAt src (physicalRow s piece) (layerOf piece * 8 + wayOf piece) (laneOf piece))
  else s.note (.hubPiece piece)

/-- Records every uncorrectable piece of a list, each once. -/
def recordPieces (s : State) (src : Nat) (pieces : List Nat) : State :=
  ((distinct pieces).filter (fun p => find? s.marks p == some .uncorrectable)).foldl (fun s p => recordPiece s src p) s

/-- The pieces that n bytes from a touch. -/
def piecesOf (a n : Nat) : List Nat := distinct ((span a n).map pieceOf)

/-- A byte lies in a piece that is uncorrectable or holds the poison syndrome. -/
def badByte (s : State) (a : Nat) : Bool := (find? s.marks (pieceOf a)).isSome

/-- Some of n bytes from a is bad. -/
def badBytes (s : State) (a n : Nat) : Bool := (piecesOf a n).any (fun p => (find? s.marks p).isSome)

/-- Where a piece lies physically: in DRAM with its physical row, in hub SRAM beyond all of these. -/
def pieceKey (s : State) (piece : Nat) : Nat :=
  if regionOf piece = .dram then
    rowAddress (physicalRow s piece) (columnOf piece) (layerOf piece) (wayOf piece) (4 * laneOf piece)
  else 2 ^ 50 + piece

/-- The cells of a piece fail for good: no write makes it good, until a spare row replaces it (R364, R310). -/
def faulty (s : State) (piece : Nat) : Bool := (find? s.faults (pieceKey s piece)).isSome

/-- Gives a piece the poison syndrome; it keeps no data. One whose cells fail reads as uncorrectable all the same. -/
def poisonPiece (s : State) (piece : Nat) : State :=
  { s with
    marks := put s.marks piece (if faulty s piece then .uncorrectable else .poison)
    mem := (pieceBytes piece).foldl del s.mem }

/-- A write of some bytes of one piece (R364). -/
def writePiece (s : State) (piece : Nat) (cells : List (Nat × Byte)) (poison : Bool) : State :=
  if cells.length ≥ 32 then
    if poison then poisonPiece s piece
    else { s with
      marks := if faulty s piece then put s.marks piece .uncorrectable else del s.marks piece
      mem := writeCells s.mem cells }
  else match find? s.marks piece with
    | some .poison => s
    | some .uncorrectable => poisonPiece s piece
    | none => if poison then poisonPiece s piece else { s with mem := writeCells s.mem cells }

/-- The cells of one piece among some cells. -/
def cellsIn (cells : List (Nat × Byte)) (piece : Nat) : List (Nat × Byte) := cells.filter (fun c => pieceOf c.1 == piece)

/-- The pieces that a write covers in part. -/
def partPieces (cells : List (Nat × Byte)) : List Nat :=
  (distinct (cells.map (fun c => pieceOf c.1))).filter (fun p => decide ((cellsIn cells p).length < 32))

/-- A write of bytes, piece by piece. -/
def writePieces (s : State) (cells : List (Nat × Byte)) (poison : Bool) : State :=
  (distinct (cells.map (fun c => pieceOf c.1))).foldl (fun s p => writePiece s p (cellsIn cells p) poison) s

/-- A write of bytes, which records each uncorrectable piece that it covers in part once (R364, R305). -/
def writeAll (s : State) (src : Nat) (cells : List (Nat × Byte)) (poison : Bool) : State :=
  writePieces (recordPieces s src (partPieces cells)) cells poison

/-- A clean write of bytes from address a up. -/
def writeBytes (s : State) (src a : Nat) (data : List Byte) : State :=
  writeAll s src ((span a data.length).zip data) false

/-! ## The line cache (R79, R80) -/

/-- A stack's line cache holds the line of a DRAM byte. -/
def cached (s : State) (pa : Nat) : Bool :=
  regionOf pa == .dram && (look (s.stk (pa / 2 ^ 24 % 16)).lines (pa / 128 % 4096) []).contains (pa / 128)

/-- A load of a cacheable DRAM byte: a hit becomes most recently used, and a miss allocates when it may. -/
def touchLine (s : State) (pa : Nat) (alloc : Bool) : State :=
  if regionOf pa ≠ .dram then s else
  s.modStk (pa / 2 ^ 24 % 16) fun t =>
    let set := pa / 128 % 4096
    let tag := pa / 128
    let tags := look t.lines set []
    if tags.contains tag then { t with lines := put t.lines set (tags.filter (· != tag) ++ [tag]) }
    else if alloc then
      { t with lines := put t.lines set ((if tags.length ≥ 16 then tags.drop 1 else tags) ++ [tag]) }
    else t

/-- `WB` and `WBK` drop the cached lines of what they write. -/
def dropLines (s : State) (pas : List Nat) : State :=
  (distinct (pas.map (· / 128))).foldl (fun s tag =>
    s.modStk (tag / 2 ^ 17 % 16) fun t =>
      { t with lines := put t.lines (tag % 4096) ((look t.lines (tag % 4096) []).filter (· != tag)) }) s

/-! ## The row scoreboard (R179) -/

/-- A way and its column are free: the way neither activates nor writes nor closes, and no row-set is under way. -/
def Column.wayFree (k : Column) (way t : Nat) : Bool := decide ((look k.ways way {}).busyUntil ≤ t ∧ k.refBusy ≤ t)

/-- So many lane cycles have passed since a way was last activated. -/
def WayTimer.past (w : WayTimer) (n t : Nat) : Bool := w.lastAct.all (fun a => decide (a + n ≤ t))

/-- The eight-activate window of l lane cycles has room for some eighths, 2 lane cycles after every other activation of the column. -/
def Column.windowRoom (k : Column) (l eighths t : Nat) : Bool :=
  decide (((k.window.filter (fun e => decide (t < e.1 + l))).map (·.2)).sum + eighths ≤ 64) && k.window.all (fun e => decide (e.1 + 2 ≤ t))

/-- The scoreboard of a column whose window is l lane cycles long admits a request in lane cycle t: an activation, or a `REFN`, which counts
as two, 36 lane cycles after the way's last; a close 24 after it; a write; a row-set when this is so of every way. -/
def Column.admits (k : Column) (l : Nat) (r : WayRequest) (t : Nat) : Bool :=
  let timer := look k.ways r.way {}
  match r.act with
  | .activate => k.wayFree r.way t && timer.past 36 t && k.windowRoom l r.segs t
  | .refn => k.wayFree r.way t && timer.past 36 t && k.windowRoom l 16 t
  | .close => k.wayFree r.way t && timer.past 24 t
  | .write => k.wayFree r.way t
  | .rowSet => k.ways.all (fun e => decide (e.2.busyUntil ≤ t) && e.2.past 36 t) && decide (k.refBusy ≤ t) && k.windowRoom l 64 t

/-- Enters an activation of some eighths that starts now into the eight-activate window; what no later one can meet leaves it. -/
def Column.enter (k : Column) (eighths : Nat) : Column :=
  { k with window := ((k.cycles, eighths) :: k.window).filter (fun e => k.cycles < e.1 + 256) }

/-- A way is busy for n lane cycles: 10 with a close, 16 with a write-back. DESIGN CHOICE (log 14): a write-back leaves the hidden latch as
it is. -/
def Column.keepBusy (k : Column) (way n : Nat) : Column :=
  { k with ways := put k.ways way { look k.ways way {} with busyUntil := k.cycles + n } }

/-- A `REFN` of a way-row, by a hart or by the base layer: the way is busy 80 lane cycles, the window takes two activations, the count
starts again, and the alert on the row is satisfied (R187, R315, R316), which withdraws it where it is still pending (R302). `row` is
the physical row. The hidden latch has served other rows (R17). -/
def refreshNeighbours (s : State) (column way row : Nat) : State :=
  let k := s.col column
  let pa := rowAddress (k.addressedRow way row) column (way / 8) (way % 8) 0
  let s := s.setCol column { k.enter 16 with
    actCount := put k.actCount (way * 4096 + row) 0
    ways := put k.ways way { look k.ways way {} with busyUntil := k.cycles + 80, refnEnd := k.cycles + 80, hidden := none }
    alerts := k.alerts.filter (fun a => !(a.way == way && a.row == row))
    requests := k.requests.filter (fun q => !(q.cls == 2 && q.way == way && q.row == row)) }
  { s with harts := s.harts.map (fun e => (e.1, { e.2 with pendAlert := e.2.pendAlert.filter (· != pa) })) }

/-- The counts of the way-rows that row-set i refreshes start again (R20, R315). -/
def resetCounts (c : Column) (i : Nat) : Column :=
  { c with actCount := c.actCount.filter (fun e =>
      !(e.1 % 4096 == i || (i % 32 == 31 && e.1 % 4096 == 2048 + i / 32))) }

/-- The pending `REFDEADLINE` of a column is withdrawn once its account is below 64 (R302), and the crossing can raise again (R313). -/
def withdrawDeadline (s : State) (column : Nat) : State :=
  if (s.col column).debt < 64 then
    let s := s.modCol column (fun c => { c with refRaised := false })
    { s with harts := s.harts.map (fun e => (e.1, { e.2 with pendRef := e.2.pendRef.filter (· != column) })) }
  else s

/-- The hidden latches of a column after a row-set: each has served another row (R17). -/
def Column.dropHidden (c : Column) : Column := { c with ways := c.ways.map (fun e => (e.1, { e.2 with hidden := none })) }

/-- A row-set starts: it counts as 8 way-activations and occupies the column for 40 lane cycles; the position moves on and the account is
credited, down to −128 (R179, R186, R311). -/
def refreshSet (s : State) (column : Nat) : State :=
  let s := s.modCol column fun c =>
    let c := ((resetCounts c c.refPos).dropHidden).enter 64
    { c with
      refBusy := c.cycles + 40
      refPos := (c.refPos + 1) % 2048
      debt := if -128 < c.debt then c.debt - 1 else c.debt }
  withdrawDeadline s column

/-! ## Requests for ways, and their order (R21) -/

/-- The hart for which a source acts. -/
def sourceHart : ActSource → Option Nat
  | .row h | .base h | .stream h _ | .spec h => some h
  | .hub => none

/-- The class of a source's activations (R21). -/
def sourceClass : ActSource → Nat
  | .row _ => 3
  | .stream .. => 4
  | .base _ | .hub => 5
  | .spec _ => 6

/-- A source's request for a way at a lane cycle. -/
def requestOf (src : ActSource) (way row segs since : Nat) : WayRequest where
  cls := sourceClass src
  way := way
  row := row
  hart := sourceHart src
  since := since
  segs := segs
  chan := match src with
    | .stream _ n => n
    | _ => 0

/-- What a row instruction of a hart asks of a way, other than an activation. -/
def actionOf (hart : Nat) (act : WayAction) (way row since : Nat) : WayRequest := { requestOf (.row hart) way row 8 since with act := act }

/-- A row-set: of a hart's `REF`, or forced by the column. -/
def rowSetOf (hart : Option Nat) (more : Bool) (since : Nat) : WayRequest where
  cls := if hart.isSome then 3 else 1
  way := 0
  row := 0
  hart := hart
  since := since
  act := .rowSet
  more := more

/-- The `REFN` with which the hardware satisfies an alert. -/
def hardwareRefn (way row since : Nat) : WayRequest := { requestOf .hub way row 8 since with cls := 2, act := .refn }

/-- Two requests ask for the same. -/
def WayRequest.same (a b : WayRequest) : Bool := { a with since := 0, promoted := false } == { b with since := 0, promoted := false }

/-- A pre-activation that has waited 64 lane cycles is granted no more (R21). -/
def WayRequest.expired (r : WayRequest) (t : Nat) : Bool := r.cls == 6 && decide (r.since + 64 ≤ t)

/-- A request of class 5 that has waited 128 lane cycles goes ahead of classes 3 and 4. -/
def WayRequest.ahead (r : WayRequest) (t : Nat) : Bool := r.cls == 5 && (r.promoted || decide (r.since + 128 ≤ t))

/-- The place of a request in the order of its way: by class, one of class 5 that goes ahead between classes 2 and 3, and in class 4 by
channel. -/
def WayRequest.place (r : WayRequest) (t : Nat) : Nat := if r.ahead t then 23 else r.cls * 8 + r.chan

/-- A request is granted before another of its way; of two with one place the older is. -/
def WayRequest.first (t : Nat) (a b : WayRequest) : Bool := decide (a.place t < b.place t)

/-- Two requests are for one way, so that R21 orders them. A row-set is for every way; and what one hart's row instructions ask of a column
starts in the order of its ways (R180). -/
def WayRequest.meets (a b : WayRequest) : Bool :=
  a.way == b.way || a.act == .rowSet || b.act == .rowSet || (a.cls == 3 && b.cls == 3 && a.hart == b.hart)

/-- The request of some that is granted first. -/
def nextRequest (t : Nat) (l : List WayRequest) : Option WayRequest :=
  l.foldl (fun best r => match best with
    | none => some r
    | some b => if r.first t b then some r else best) none

/-- The list without its first element that satisfies p. -/
def dropFirst {α : Type} (p : α → Bool) : List α → List α
  | [] => []
  | a :: l => if p a then l else a :: dropFirst p l

/-- The hart whose `REF` is between two of its row-sets in a column. -/
def refreshingHart (s : State) (column : Nat) : Option Nat :=
  (s.col column).refHart.filter (fun n => (s.hart? n).any (fun h => h.inPlace && h.refDone != 0))

/-- The requests of a column that may be granted now: between the row-sets of one `REF` only those of classes 1 and 2 and the next row-set
(R314). -/
def liveRequests (s : State) (column : Nat) : List WayRequest :=
  (s.col column).requests.filter (fun q => !q.expired (s.col column).cycles &&
    (refreshingHart s column).all (fun n => decide (q.cls ≤ 2) || (q.act == .rowSet && q.hart == some n)))

/-- A request is granted now: the scoreboard admits it, and it comes before every other for its way. -/
def mayGrant (s : State) (column : Nat) (r : WayRequest) : Bool :=
  let k := s.col column
  k.admits (s.winNow column) r k.cycles && (nextRequest k.cycles ((liveRequests s column).filter r.meets)).any r.same

/-! ## Granting (R21, R315, R316) -/

/-- An activation alert's home: the hart for which a request acts, when it is in place and its partition holds the column (R316). -/
def alertHart (s : State) (column : Nat) (r : WayRequest) : Option Nat :=
  r.hart.filter (fun n => (s.hart? n).any (fun h => h.inPlace && decide (h.column ≤ column ∧ column < h.column + h.cols)))

/-- A request's activation of a physical way-row: the scoreboard enters it into the window and the way's account, the count rises, and a
count of 512 opens an alert, which becomes pending for the hart when the activation acted for one in place whose partition holds the
column; otherwise the base layer asks for a `REFN` of class 2 at once. The row stays in the hidden latch, unless only segments of it were
activated; `ACT`, of class 3, releases the latch (R17). -/
def activate (s : State) (column : Nat) (r : WayRequest) : State :=
  let c := s.col column
  let key := r.way * 4096 + r.row
  let n := look c.actCount key 0 + 1
  let c := { c.enter r.segs with
    ways := put c.ways r.way { look c.ways r.way {} with
      lastAct := some c.cycles, busyUntil := c.cycles + 12, hidden := if r.cls ≠ 3 ∧ r.segs = 8 then some r.row else none }
    actCount := put c.actCount key n }
  if n ≠ 512 then s.setCol column c
  else match alertHart s column r with
    | some h =>
      let s := s.setCol column { c with alerts := c.alerts ++ [⟨r.way, r.row, some h⟩] }
      s.modHart h (fun q => { q with
        pendAlert := q.pendAlert ++ [rowAddress (c.addressedRow r.way r.row) column (r.way / 8) (r.way % 8) 0] })
    | none =>
      let s := s.setCol column { c with
        alerts := c.alerts ++ [⟨r.way, r.row, none⟩], requests := c.requests ++ [hardwareRefn r.way r.row c.cycles] }
      if r.hart.isNone then s.note (.hubAlert column r.way r.row) else s

/-- A request is granted: it leaves those that wait, and what it asks for starts. -/
def grantRequest (s : State) (column : Nat) (r : WayRequest) : State :=
  let s := s.modCol column (fun k => { k with requests := dropFirst r.same k.requests })
  match r.act with
  | .activate => activate s column r
  | .close => s.modCol column (·.keepBusy r.way 10)
  | .write => s.modCol column (·.keepBusy r.way 16)
  | .refn => refreshNeighbours s column r.way r.row
  | .rowSet => refreshSet (if r.cls = 3 then s.modCol column (fun k => { k with refHart := if r.more then r.hart else none }) else s) column

/-- The request that a column grants next in its lane cycle. -/
def nextGrant (s : State) (column : Nat) : Option WayRequest :=
  nextRequest (s.col column).cycles ((liveRequests s column).filter (mayGrant s column))

/-- Grants up to n requests of a column in its lane cycle. -/
def serve (s : State) (column : Nat) : Nat → State
  | 0 => s
  | n + 1 => match nextGrant s column with
    | none => s
    | some r => serve (grantRequest s column r) column n

/-- A column grants what it can in its lane cycle. -/
def serveColumn (s : State) (column : Nat) : State := serve s column (s.col column).requests.length

/-- Requests join those that wait in a column. -/
def ask (s : State) (column : Nat) (l : List WayRequest) : State := s.modCol column (fun k => { k with requests := k.requests ++ l })

/-- An access to DRAM bytes through the base layer or a stream channel (R201, R219): each way-row is asked for once. DESIGN CHOICE
(log 14): several way-rows of one way in the order in which the instruction first touches them. -/
def baseAccess (s : State) (pas : List Nat) (src : ActSource) : State :=
  (distinct ((pas.filter (fun a => regionOf a == .dram)).map (· / 1024))).foldl (fun s w =>
    let pa := w * 1024
    ask s (columnOf pa) [requestOf src (layerOf pa * 8 + wayOf pa) (physicalRow s pa) 8 (s.col (columnOf pa)).cycles]) s

/-- The addresses of a load that the line cache does not serve; with each address whether its page is UC. -/
def misses (s : State) (pas : List (Nat × Bool)) : List Nat := (pas.filter (fun a => a.2 || !cached s a.1)).map (·.1)

/-- A load through the line cache (R79, R80): hits are served by it, the others activate, and a miss allocates when it may. -/
def readAccess (s : State) (pas : List (Nat × Bool)) (alloc : Bool) (src : ActSource) : State :=
  (pas.filter (fun a => !a.2)).foldl (fun s a => touchLine s a.1 alloc) (baseAccess s (misses s pas) src)

/-- Reads of the hub path, each with whether its page is UC: nothing is allocated. -/
def hubReads (s : State) (pas : List (Nat × Bool)) : State := readAccess s pas false .hub

def hubAccess (s : State) (pas : List Nat) (uncached : Bool) : State := hubReads s (pas.map (fun a => (a, uncached)))

/-! ## Page tables (R72) -/

def leafV (e : Nat) : Bool := e.testBit 0
def leafRd (e : Nat) : Bool := e.testBit 1
def leafWr (e : Nat) : Bool := e.testBit 2
def leafUc (e : Nat) : Bool := e.testBit 3
def leafNospec (e : Nat) : Bool := e.testBit 4
def leafRec (e : Nat) : Bool := e.testBit 5

/-- A leaf that raises no `PAGEFAULT`. -/
def leafOk (e : Nat) : Bool :=
  leafV e && e / 2 ^ 6 % 2 ^ 15 == 0 && e / 2 ^ 48 == 0 && !(leafWr e && !leafRd e)

/-- A valid entry of the first or second level. -/
def nextOk (e : Nat) : Bool := e.testBit 0 && e / 2 % 2 ^ 11 == 0 && e / 2 ^ 48 == 0

/-- Reads one table entry for a walk, which bypasses the line cache. DEDUCED (log 49): it acts for no hart. -/
def readEntry (s : State) (pa : Nat) : State × Option Nat :=
  if !inMemory pa then (s, none)
  else
    let s := baseAccess s [pa] .hub
    if badBytes s pa 8 then (recordPieces s 5 (piecesOf pa 8), none) else (s, some (readNat s pa 8))

/-- One level of a walk: reads the entry and hands on what it holds. -/
def walkLevel (s : State) (table index : Nat) (k : State → Nat → State × Option Nat) : State × Option Nat :=
  match readEntry s (table + 8 * index) with
  | (s, none) => (s, none)
  | (s, some e) => k s e

/-- A walk: the leaf of a virtual address, or none for `PAGEFAULT`. -/
def walk (s : State) (root va : Nat) : State × Option Nat :=
  walkLevel s root (va / 2 ^ 39 % 512) fun s e =>
    if !nextOk e then (s, none) else
    walkLevel s (e / 4096 * 4096) (va / 2 ^ 30 % 512) fun s e =>
      if !nextOk e then (s, none) else
      walkLevel s (e / 4096 * 4096) (va / 2 ^ 21 % 512) fun s e => (s, if leafOk e then some e else none)

/-- A leaf enters a stack's TLB in place of an entry of its page; the oldest of 4,096 entries makes room. -/
def enterLeaf (s : State) (stack root va leaf : Nat) : State :=
  s.modStk stack fun t => { t with
    tlb := (⟨root, va / 2 ^ 21, leaf⟩ :: t.tlb.filter (fun e => !(e.root == root && e.vpage == va / 2 ^ 21))).take 4096 }

/-- A walk, which enters its leaf. -/
def walkThrough (s : State) (stack root va : Nat) : State × Option Nat :=
  match walk s root va with
  | (s, none) => (s, none)
  | (s, some leaf) => (enterLeaf s stack root va leaf, some leaf)

/-- The leaf of a virtual address through a stack's TLB (R73). Until a shootdown drops an entry, an access translates through it or,
where the page table has changed, through what the table holds now: which of the two is free. -/
def leafThrough (s : State) (stack root va : Nat) : State × Option Nat :=
  match (s.stk stack).tlb.find? (fun e => e.root == root && e.vpage == va / 2 ^ 21) with
  | some e =>
    if (walk s root va).2 = some e.leaf then (s, some e.leaf)
    else if Config.pick s.free % 2 = 1 then walkThrough { s with free := s.free + 1 } stack root va
    else ({ s with free := s.free + 1 }, some e.leaf)
  | none => walkThrough s stack root va

/-- The physical address that a leaf gives a virtual address. -/
def leafAddress (leaf va : Nat) : Nat := leaf / 2 ^ 21 % 2 ^ 27 * 2 ^ 21 + va % 2 ^ 21

/-- A remote address names a usable target (R341). -/
def targetOk (s : State) (part pa : Nat) : Bool :=
  let t := look s.targets (pa / 2 ^ 40) {}
  let o := pa % 2 ^ 40
  t.w0.getLsbD 63 && t.w0.toNat % 2 ^ 32 == part &&
    (if t.w0.getLsbD 62 then decide (o < 2 ^ (t.w3.toNat / 2 ^ 32 % 64)) else inMemory o)

/-- What an access wants. -/
structure Want where
  rd     : Bool
  wr     : Bool
  remote : Bool    -- it may lie in the remote window
  deriving DecidableEq, Repr

/-- Checks the leaf of an address (R72, R22, R65, R341): the physical address and the leaf, or the cause. -/
def checkLeaf (s : State) (part : Nat) (w : Want) (va : Nat) : Option Nat → Except Cause (Nat × Nat)
  | none => .error .pageFault
  | some leaf =>
    let pa := leafAddress leaf va
    if (w.rd && !leafRd leaf) || (w.wr && !leafWr leaf) then .error .prot
    else match regionOf pa with
      | .reserved => .error .prot
      | .remote => if w.remote && targetOk s part pa then .ok (pa, leaf) else .error .prot
      | _ => .ok (pa, leaf)

/-- The TCM window (R69). -/
def inTcm (va : Nat) : Bool := decide (0xFFFFFFFF0000 ≤ va ∧ va < 2 ^ 48)

/-- Translation of a general access; the TCM window is not translated (R69, R71 to R73). -/
def translate (s : State) (stack root part : Nat) (w : Want) (va : Nat) : State × Except Cause (Nat × Nat) :=
  if 2 ^ 48 ≤ va then (s, .error .pageFault)
  else if inTcm va then (s, .error .prot)
  else
    match leafThrough s stack root va with
    | (s, leaf) => (s, checkLeaf s part w va leaf)

/-- Translation by the hub, through the page table itself: the dispatcher, completion records, host accesses (R51, R338). -/
def hubTranslate (s : State) (root part : Nat) (w : Want) (va : Nat) : State × Except Cause (Nat × Nat) :=
  if 2 ^ 48 ≤ va then (s, .error .pageFault)
  else if inTcm va then (s, .error .prot)
  else
    match walk s root va with
    | (s, leaf) => (s, checkLeaf s part w va leaf)

/-- The physical addresses of n bytes from a virtual address, each with its leaf, by a walk for each page; or those before the first address
that fails, with that address and its cause. -/
def hubPlaces (s : State) (root part : Nat) (w : Want) (va n : Nat) : State × List (Nat × Nat) × Option (Nat × Cause) :=
  (span (va / 2 ^ 21) (if n = 0 then 0 else (va + n - 1) / 2 ^ 21 + 1 - va / 2 ^ 21)).foldl (fun acc p =>
    match acc with
    | (s, l, some e) => (s, l, some e)
    | (s, l, none) =>
      let first := max va (p * 2 ^ 21)
      match hubTranslate s root part w first with
      | (s, .error c) => (s, l, some (first, c))
      | (s, .ok (pa, leaf)) => (s, l ++ (span pa (min (va + n) ((p + 1) * 2 ^ 21) - first)).map (·, leaf), none)) (s, [], none)

/-- Reads n bytes for the hub from a virtual address, when all of them lie in stacked DRAM or hub SRAM in readable, good pieces;
otherwise the first failing address and its cause (R51, R52, R74). -/
def hubReadBytes (s : State) (root va n : Nat) : State × Except (Nat × Cause) (List Byte) :=
  let (s, l, fail) := hubPlaces s root 0 ⟨true, false, false⟩ va n
  let good := l.takeWhile (fun e => inMemory e.1 && !badByte s e.1)
  let s := hubReads s ((l.take (good.length + 1)).map (fun e => (e.1, leafUc e.2)))
  match l[good.length]?, fail with
  | some e, _ =>
    if inMemory e.1 then (recordPieces s 6 [pieceOf e.1], .error (va + good.length, .dataErr)) else (s, .error (va + good.length, .prot))
  | none, some e => (s, .error e)
  | none, none => (s, .ok (good.map (fun e => readByte s.mem e.1)))

end Sys2Proof.Machine
end

