-- ==== Sys2Proof/Machine/Hub.lean ====
section
/-! DEFINITION. Machine/Hub.lean: the hub's queue descriptors and registers (R276 to R278, R341, R360), submission of start
records, and the records that the hub writes. -/

namespace Sys2Proof.Machine

/-! ## User queues -/

/-- A queue becomes active, or ceases to be (R279). -/
def noteActive (s : State) (q : Nat) : State :=
  let d := s.queue q
  if d.state = 1 ∧ d.head < d.tail then
    if d.since.isSome then s
    else { s.setQueue q { d with since := some s.order } with order := s.order + 1 }
  else { s.setQueue q { d with since := none } with slots := s.slots.filter (·.1 != q) }

/-- Advances tail over published positions (R277); fuel bounds the run. -/
def advanceTail : Nat → QueueDesc → QueueDesc
  | 0, d => d
  | n + 1, d =>
    if d.published.contains d.tail then
      advanceTail n { d with tail := d.tail + 1, published := d.published.filter (· != d.tail) }
    else d

/-- The lanes that the module's columns hold now. -/
def usableLanes (s : State) : Nat :=
  s.columns.foldl (fun n e => if e.2.failed then n - 32 else if e.2.half.isSome then n - 16 else n) 131072

/-- A doorbell write of p (R277), which submits the record at it (R54). -/
def ringDoorbell (s : State) (q p : Nat) : State :=
  let d := s.queue q
  if d.state ≠ 1 ∨ p < d.tail ∨ d.claim ≤ p ∨ d.head + d.capacity ≤ p then s.note (.doorbell q p)
  else
    let d := { d with published := p :: d.published.filter (· != p), lanesAt := put d.lanesAt p (usableLanes s) }
    noteActive (s.setQueue q (advanceTail d.published.length d)) q

/-- Ring and capacity are well formed (R276, R278). -/
def QueueDesc.ok (d : QueueDesc) : Bool :=
  d.ring % 128 == 0 && decide (1 ≤ d.capacity ∧ d.capacity ≤ 65536) &&
  (decide (d.ring + 128 * d.capacity ≤ 0x8000000000) ||
    decide (0x8000000000 ≤ d.ring ∧ d.ring + 128 * d.capacity ≤ 0x8010000000))

/-- Claim, copy and publication of a record as one action (R247, R277): the ticket, or none for −1. -/
def submit (s : State) (q : Nat) (record : List Byte) : State × Option Nat :=
  let d := s.queue q
  if d.state ≠ 1 ∨ d.head + d.capacity ≤ d.claim ∨ d.tail + 64 ≤ d.claim then (s, none)
  else
    let p := d.claim
    let a := d.ring + 128 * (p % d.capacity)
    let s := writeBytes (baseAccess s [a] .hub) 3 a record
    (ringDoorbell (s.setQueue q { d with claim := p + 1 }) q p, some p)

/-! ## Hub registers -/

/-- The 64-bit word of the hub register region at an address that is a multiple of 8. -/
def hubWord (s : State) (a : Nat) : Nat :=
  if a < 0x8010100000 then
    let d := s.queue ((a - 0x8010000000) / 64)
    match a % 64 / 8 with
    | 0 => d.ring
    | 1 => d.capacity + d.state * 2 ^ 32 + d.ccap * 2 ^ 40 + d.slice * 2 ^ 48
    | 2 => d.head
    | 3 => d.tail
    | 4 => d.claim
    | 6 => d.root
    | 7 => d.part
    | _ => 0
  else if a < 0x8010102000 then
    let t := look s.targets ((a - 0x8010100000) / 32) {}
    match a % 32 / 8 with
    | 0 => t.w0.toNat
    | 1 => t.w1.toNat
    | 2 => t.w2.toNat
    | _ => t.w3.toNat
  else if 0x8010200000 ≤ a ∧ a < 0x8010200100 then
    let k := s.stk ((a - 0x8010200000) / 16)
    if a % 16 = 0 then k.resWin * 2 ^ 40 + k.maxWin * 2 ^ 32 + k.cap * 2 ^ 16
    else k.tmax * 2 ^ 56 + s.winShown ((a - 0x8010200000) / 16) * 2 ^ 48 + k.dutyLow * 2 ^ 44 + k.pest / 1000 % 2 ^ 16 * 2 ^ 16 + k.budget / 1000 % 2 ^ 16
  else if a = 0x8010200100 then s.modcap
  else 0

/-- A byte as a load finds it: of memory, or of a hub register. -/
def loadByte (s : State) (pa : Nat) : Byte :=
  if regionOf pa = .regs then BitVec.ofNat 8 (hubWord s (pa / 8 * 8) / 2 ^ (8 * (pa % 8))) else readByte s.mem pa

/-- n bytes as a load finds them. -/
def loadNat (s : State) (pa n : Nat) : Nat := ofBytes ((span pa n).map (loadByte s))

/-- MODCAP as a write leaves it (R360). -/
def clampCap (v : Nat) : Nat := if 1800 < v then 1800 else if v < 900 then 900 else v

/-- A steward's write of a descriptor field (R276). A ring or capacity that is malformed puts an enabled queue in state 2
(R278). DESIGN CHOICE (log 74): a reserved state or a class cap above 3 leaves that field as it was, and a root loses its low 12 bits. -/
def writeDescriptor (s : State) (q off v : Nat) : State :=
  let d := s.queue q
  let d := match off with
    | 0 => { d with ring := v }
    | 1 => { d with
        capacity := v % 2 ^ 32
        state := if v / 2 ^ 32 % 256 ≤ 2 then v / 2 ^ 32 % 256 else d.state
        ccap := if v / 2 ^ 40 % 256 ≤ 3 then v / 2 ^ 40 % 256 else d.ccap
        slice := v / 2 ^ 48 }
    | 2 => { d with head := v, seen := none }
    | 3 => { d with tail := v }
    | 4 => { d with claim := v }
    | 6 => { d with root := v / 4096 * 4096 }
    | 7 => { d with part := v % 2 ^ 32 }
    | _ => d
  let d := if d.state = 1 ∧ !d.ok then { d with state := 2 } else d
  noteActive (s.setQueue q d) q

/-- A steward's write of a word of a target entry (R341): reserved bits stay 0. -/
def writeTarget (s : State) (n off : Nat) (v : Word) : State :=
  let t := look s.targets n {}
  let t := match off with
    | 0 => { t with w0 := v &&& 0xC0000000FFFFFFFF }
    | 1 => { t with w1 := v &&& 0x3FFFFFF }
    | 2 => { t with w2 := v }
    | _ => { t with w3 := v &&& 0x3FFFFFFFFF }
  { s with targets := put s.targets n t }

/-- A steward's write of stack word 0 of a power block (R360): a value out of range leaves its field unchanged. -/
def writePower (s : State) (n v : Nat) : State :=
  s.modStk n fun k =>
    let r := v / 2 ^ 40 % 256
    let k := if 24 ≤ r then { k with resWin := r } else k
    let m := v / 2 ^ 32 % 256
    let k := if k.resWin ≤ m then { k with maxWin := m } else k
    { k with cap := v / 2 ^ 16 % 2 ^ 16 }

/-- A write of a 64-bit word of the hub register region: a doorbell by anyone, every other field by the steward alone; the rest
is ignored and logged (R276, R341, R360). -/
def hubWrite (s : State) (who : Agent) (a : Nat) (v : Word) : State :=
  if a % 8 = 0 ∧ 0x8010000000 ≤ a ∧ a < 0x8010100000 ∧ a % 64 = 40 then ringDoorbell s ((a - 0x8010000000) / 64) v.toNat
  else if who ≠ .steward ∨ a % 8 ≠ 0 then s.note (.write a)
  else if 0x8010000000 ≤ a ∧ a < 0x8010100000 then writeDescriptor s ((a - 0x8010000000) / 64) (a % 64 / 8) v.toNat
  else if 0x8010100020 ≤ a ∧ a < 0x8010102000 then writeTarget s ((a - 0x8010100000) / 32) (a % 32 / 8) v
  else if 0x8010200000 ≤ a ∧ a < 0x8010200100 ∧ a % 16 = 0 then writePower s ((a - 0x8010200000) / 16) v.toNat
  else if a = 0x8010200100 then { s with modcap := clampCap (v.toNat % 65536) }
  else s.note (.write a)

/-- A store performed at its home: memory, or a hub register. -/
def storeBytes (s : State) (src pa : Nat) (data : List Byte) : State :=
  if regionOf pa = .regs then
    if data.length = 8 then hubWrite s .module pa (BitVec.ofNat 64 (ofBytes data)) else s.note (.write pa)
  else writeBytes s src pa data

/-- A fetch-and-add on a claim field takes the position; on any other register it changes nothing (R276). -/
def hubFetchAdd (s : State) (a : Nat) (v : Word) : State :=
  if 0x8010000000 ≤ a ∧ a < 0x8010100000 ∧ a % 64 = 32 then
    let d := s.queue ((a - 0x8010000000) / 64)
    s.setQueue ((a - 0x8010000000) / 64) { d with claim := (d.claim + v.toNat) % 2 ^ 64 }
  else s.note (.write a)

/-! ## The remote window (R337, R341, R343, R346) -/

/-- A queue pair as a key of the packet counters. -/
def qpKey (port qpn : Nat) : Nat := port * 2 ^ 24 + qpn

/-- The IV of a packet (R346): queue pair number, direction (0 host to device, 1 device to host), packet counter. -/
def packetIv (qpn dir n : Nat) : List Byte := toBytes 3 qpn ++ toBytes 1 dir ++ toBytes 8 n

/-- The operations whose packets carry a payload: a host's RDMA WRITE, the answer to a host's RDMA READ, this module's RDMA WRITE, and the
answer to this module's RDMA READ (R337). -/
inductive PacketOp
  | hostWrite | readAnswer | write | answer
  deriving DecidableEq, Repr

def PacketOp.number : PacketOp → Nat
  | .hostWrite => 0
  | .readAnswer => 1
  | .write => 2
  | .answer => 3

/-- The headers of the packets of an operation, by their number in it, which their tags cover (R346). -/
def headersOf (op : PacketOp) (qpn rkey addr len : Nat) : Nat → List Byte := Config.transportHeader op.number qpn rkey addr len

/-- The path MTU of a queue pair: 1,024, 2,048 or 4,096 bytes (R337), of which one is free (log 60). -/
def pathMtu (port qpn : Nat) : Nat := 1024 * 2 ^ (Config.pathMtu port qpn % 3)

/-- A payload in packets of n bytes, of which the last may be shorter; the fuel bounds their number. -/
def packets (n : Nat) : Nat → List Byte → List (List Byte)
  | 0, d => [d]
  | k + 1, d => if d.length ≤ n then [d] else d.take n :: packets n k (d.drop n)

/-- A queue pair has carried 2^32 packets under one key in one direction (R346). -/
def Partition.spent (p : Partition) (key : Nat) : Bool :=
  decide (2 ^ 32 ≤ look p.rx key 0 - look p.rxFrom key 0) || decide (2 ^ 32 ≤ look p.tx key 0 - look p.txFrom key 0)

/-- A partition's traffic on a queue pair is not refused: it needs no keys, or they exist and are not spent there (R346). -/
def keysReady (s : State) (part port qpn : Nat) : Bool :=
  (find? s.partitions part).all (fun p => !p.conf || (p.keyed && !p.spent (qpKey port qpn)))

/-- A payload of a partition towards a host under some headers: sealed packet by packet when the partition is confidential; none when it is
refused, since no keys exist or more than 2^32 packets would go under one key (R346). -/
def sealOut (s : State) (part port qpn : Nat) (headers : Nat → List Byte) (data : List Byte) : State × Option (List Byte) :=
  match find? s.partitions part with
  | none => (s, some data)
  | some p =>
    let key := qpKey port qpn
    let n := look p.tx key 0
    let l := packets (pathMtu port qpn) data.length data
    if !p.conf then (s, some data)
    else if !p.keyed ∨ p.spent key ∨ 2 ^ 32 < n + l.length - look p.txFrom key 0 then (s, none)
    else ({ s with partitions := put s.partitions part { p with tx := put p.tx key (n + l.length) } },
      some (l.zipIdx.flatMap (fun e => Config.aesGcmSeal p.d2h (packetIv qpn 1 (n + e.2)) (headers e.2) e.1)))

/-- What comes of a payload from a host: its bytes; a refusal; or a packet that is dropped, with the bytes of those before it. -/
inductive Payload
  | ok (s : State) (data : List Byte)
  | refused
  | dropped (s : State) (before : List Byte)

/-- Opens packets in their order, the first with number i: the bytes of those before the first whose tag fails, how many they are, and
whether it is all of them. -/
def openPackets (key : List Byte) (iv headers : Nat → List Byte) : Nat → List (List Byte) → List Byte × Nat × Bool
  | _, [] => ([], 0, true)
  | i, d :: l => match Config.aesGcmOpen key (iv i) (headers i) d with
    | none => ([], 0, false)
    | some b =>
      let r := openPackets key iv headers (i + 1) l
      (b ++ r.1, r.2.1 + 1, r.2.2)

/-- Opens the payload of an operation for a partition; a tag that fails puts the queue pair into the error state (R346). -/
def openIn (s : State) (part : Nat) (qp : HostQp) (headers : Nat → List Byte) (data : List Byte) : Payload :=
  match find? s.partitions part with
  | none => .ok s data
  | some p =>
    let key := qpKey qp.port qp.qpn
    let n := look p.rx key 0
    let l := packets (pathMtu qp.port qp.qpn + 16) data.length data
    if !p.conf then .ok s data
    else if !p.keyed ∨ p.spent key ∨ 2 ^ 32 < n + l.length - look p.rxFrom key 0 then .refused
    else
      let r := openPackets p.h2d (fun i => packetIv qp.qpn 0 (n + i)) headers 0 l
      let p := { p with rx := put p.rx key (n + r.2.1) }
      if r.2.2 then .ok { s with partitions := put s.partitions part p } r.1
      else .dropped { s with
        partitions := put s.partitions part { p with tagFail := p.tagFail + 1 }
        qpErrors := qp :: s.qpErrors } r.1

/-- The scale-up port that carries an address of the remote window (R343): the hash of its bits [39:7] puts the sixteen ports in an order
of which the first that is left carries the line, so that only the lines of a failed port move. -/
def scaleupPort (s : State) (pa : Nat) : Nat :=
  let hash := Config.portHash (pa % 2 ^ 40 / 128)
  ((List.range 16).map (fun n => (hash + n * (2 * (hash / 16) + 1)) % 16)).find? (hasBit s.ports) |>.getD 0

/-- Where an address of the remote window lies: with a host, or with a module; the port that carries it, the queue pair or module
number, the address there, the partition and the remote key (R341). -/
structure Route where
  host   : Bool
  port   : Nat
  number : Nat
  addr   : Nat
  part   : Nat
  rkey   : Nat
  deriving DecidableEq, Repr

def routeOf (s : State) (pa : Nat) : Route :=
  let t := look s.targets (pa / 2 ^ 40) {}
  let part := t.w0.toNat % 2 ^ 32
  let number := t.w1.toNat % 2 ^ 24
  if t.w0.getLsbD 62 then ⟨true, t.w1.toNat / 2 ^ 24 % 4, number, (t.w2.toNat + pa % 2 ^ 40) % 2 ^ 64, part, t.w3.toNat % 2 ^ 32⟩
  else ⟨false, scaleupPort s pa, number % 32, pa % 2 ^ 40, part, 0⟩

/-- The key of a route's port in an outstanding access. -/
def Route.portKey (r : Route) : Nat := if r.host then r.port else 4 + r.port

/-- The queue pair of a route to a host. -/
def Route.qp (r : Route) : HostQp := ⟨r.port, r.number⟩

/-- A write goes out on its route, whole or of one nibble; none when the partition's traffic is refused, or the queue pair is in the error
state (R346). -/
def sendWrite (s : State) (r : Route) (data : List Byte) (high : Option Bool) : Option State :=
  if !r.host then some (s.reply (.peerWrite r.port r.number r.addr data high))
  else if s.qpErrors.contains r.qp then none
  else match sealOut s r.part r.port r.number (headersOf .write r.number r.rkey r.addr data.length) data with
    | (s, some d) => some (s.reply (.write r.port r.number r.rkey r.addr d))
    | (_, none) => none

/-- A read of n bytes goes out on its route; none in the same cases. -/
def sendRead (s : State) (r : Route) (n : Nat) : Option State :=
  if !r.host then some (s.reply (.peerRead r.port r.number r.addr n))
  else if keysReady s r.part r.port r.number && !s.qpErrors.contains r.qp then some (s.reply (.read r.port r.number r.rkey r.addr n))
  else none

/-- Two remote accesses have a byte in common. -/
def Remote.meets (a b : Remote) : Bool := decide (a.pa < b.pa + b.data.length ∧ b.pa < a.pa + a.data.length)

/-- An access of a hart stays outstanding at a step, once it has been sent; one that could not be sent fails (R342). -/
def keepOut (s : State) (id : Nat) (r : Remote) (step : Nat) (sent : Option State) : State :=
  match sent with
  | some s => { s with outstanding := put s.outstanding id { r with step := step } }
  | none => { s with outstanding := put s.outstanding id { r with step := 3 } }

/-- An access of a hart goes out. To a host a nibble is written in two: the byte is read, and what comes back is written with the nibble in
it (R341). -/
def launch (s : State) (id : Nat) (r : Remote) : State :=
  let route := routeOf s r.pa
  keepOut s id { r with port := route.portKey } 0
    (if r.load ∨ (route.host ∧ r.high.isSome) then sendRead s route r.data.length else sendWrite s route r.data r.high)

/-- An access waits for an earlier one to some of its bytes that stores a nibble to a host, or that waits itself (R85). -/
def Remote.blocked (s : State) (id : Nat) (r : Remote) : Bool :=
  (routeOf s r.pa).host && s.outstanding.any (fun e => decide (e.1 < id) && (e.2.high.isSome || e.2.step == 2) && e.2.meets r)

/-- An access of a hart to the remote window is sent, and stays outstanding until it completes or fails (R342). -/
def sendAccess (s : State) (r : Remote) : State :=
  let id := s.nextRemote
  let s := { s with nextRemote := id + 1 }
  if r.blocked s id then { s with outstanding := put s.outstanding id { r with step := 2 } } else launch s id r

/-- Accesses that wait for no other any more go out. -/
def launchWaiting (s : State) : State :=
  s.outstanding.foldl (fun s e => if e.2.step = 2 ∧ !e.2.blocked s e.1 then launch s e.1 e.2 else s) s

/-- The payload of a host's answer to a request for n bytes at an address of the remote window: sealed in the traffic of a confidential
partition (R346). -/
def openAnswer (s : State) (pa n v : Nat) : Payload :=
  let t := routeOf s pa
  let qp : HostQp := ⟨t.port, t.number⟩
  if !t.host then .ok s (toBytes n v)
  else if s.qpErrors.contains qp then .dropped s []
  else
    let sealed := (find? s.partitions t.part).any (·.conf)
    openIn s t.part qp (headersOf .answer t.number t.rkey t.addr n) (toBytes (if sealed then n + 16 else n) v)

/-- An access of the hub itself for a task is sent, and stays outstanding until it completes or fails (R248, R340); none when the
partition's traffic is refused. -/
def sendHub (s : State) (task : Nat) (load : Bool) (pa : Nat) (data : List Byte) : Option State :=
  let route := routeOf s pa
  (if load then sendRead s route data.length else sendWrite s route data none).map (fun s => { s with
    hubOut := put s.hubOut s.nextRemote ⟨task, load, pa, data, route.portKey⟩
    nextRemote := s.nextRemote + 1 })

end Sys2Proof.Machine
end

