-- ==== Sys2Proof/Machine/Elements.lean ====
section
/-! DEFINITION. Machine/Elements.lean: type tags, where lane words and elements lie, results written into registers, and lane words and
elements as memory gives and takes them (R36 to R46, R175, R182, R184, R202, R364). -/

namespace Sys2Proof.Machine

/-! ## Type tags (R44) -/

def TypeTag.ofCode : Nat → TypeTag
  | 1 => .int32
  | 2 => .uint16
  | 3 => .int16
  | 4 => .uint8
  | 5 => .int8
  | 8 => .fp32
  | 9 => .fp16
  | 10 => .bf16
  | 11 => .e4m3
  | 12 => .e5m2
  | 13 => .e2m3
  | 14 => .e3m2
  | 15 => .e2m1
  | 16 => .mxE4m3
  | 17 => .mxE5m2
  | 18 => .mxE2m3
  | 19 => .mxE3m2
  | 20 => .mxE2m1
  | 21 => .mxInt8
  | _ => .uint32

/-- Width in bits. -/
def TypeTag.width : TypeTag → Nat
  | .uint32 | .int32 | .fp32 => 32
  | .uint16 | .int16 | .fp16 | .bf16 => 16
  | .e2m1 | .mxE2m1 => 4
  | _ => 8

/-- Bits of an element's position that hold its value: fp6 leaves bits 7 and 6 of its eight (R41). -/
def TypeTag.used : TypeTag → Nat
  | .e2m3 | .e3m2 | .mxE2m3 | .mxE3m2 => 6
  | t => t.width

def TypeTag.isInt : TypeTag → Bool
  | .uint32 | .int32 | .uint16 | .int16 | .uint8 | .int8 => true
  | _ => false

def TypeTag.isSigned : TypeTag → Bool
  | .int32 | .int16 | .int8 => true
  | _ => false

/-- fp32, fp16 or bf16: the F of R191. -/
def TypeTag.isWide : TypeTag → Bool
  | .fp32 | .fp16 | .bf16 => true
  | _ => false

def TypeTag.isMx : TypeTag → Bool
  | .mxE4m3 | .mxE5m2 | .mxE2m3 | .mxE3m2 | .mxE2m1 | .mxInt8 => true
  | _ => false

/-- The format of a floating type's elements. -/
def TypeTag.fmt? : TypeTag → Option Fmt
  | .fp32 => some Machine.fp32
  | .fp16 => some Machine.fp16
  | .bf16 => some Machine.bf16
  | .e4m3 | .mxE4m3 => some fp8e4m3
  | .e5m2 | .mxE5m2 => some fp8e5m2
  | .e2m3 | .mxE2m3 => some fp6e2m3
  | .e3m2 | .mxE3m2 => some fp6e3m2
  | .e2m1 | .mxE2m1 => some fp4e2m1
  | _ => none

/-- The unsigned and the signed integer type of a width. -/
def TypeTag.unsignedOf (t : TypeTag) : TypeTag :=
  if t.width = 32 then .uint32 else if t.width = 16 then .uint16 else .uint8
def TypeTag.signedOf (t : TypeTag) : TypeTag :=
  if t.width = 32 then .int32 else if t.width = 16 then .int16 else .int8

/-- The bits of a poisoned element of a type (R117): the poison NaN, the canonical NaN, or 0. -/
def TypeTag.poisonBits (t : TypeTag) : Nat :=
  match t.fmt? with
  | some f => (f.poisonNan.orElse (fun _ => f.canonNan)).getD 0
  | none => 0

/-- The bits are the poison NaN of the type. -/
def TypeTag.isPoisonNan (t : TypeTag) (b : Nat) : Bool :=
  match t.fmt? with
  | some f => f.poisonNan == some b
  | none => false

/-! ## Where lane words lie (R36, R39, R40, R132) -/

/-- Ways that a register spans. -/
def Hart.wayCount (h : Hart) : Nat := 64 / h.geom
/-- Layer and start way of register d. -/
def Hart.layer (h : Hart) (d : Nat) : Nat := d / (h.geom / 8)
def Hart.startWay (h : Hart) (d : Nat) : Nat := d % (h.geom / 8) * (64 / h.geom)
/-- Lane words of a register in one column of the partition. -/
def Hart.perColumn (h : Hart) : Nat := h.laneCount * 512 / h.geom
/-- Column of the partition that holds lane word j. -/
def Hart.wordColumn (h : Hart) (j : Nat) : Nat := j / h.perColumn
/-- Position along the lane. -/
def Hart.wordPos (h : Hart) (j : Nat) : Nat := j % h.perColumn / h.laneCount
/-- Partition lane index (R112). -/
def Hart.wordLane (h : Hart) (j : Nat) : Nat := h.wordColumn j * 32 + j % h.perColumn % h.laneCount
/-- Way of the register, counted from its start way. -/
def Hart.wordWay (h : Hart) (j : Nat) : Nat := h.wordPos j / 8
/-- Element group (R132). -/
def Hart.wordGroup (h : Hart) (j : Nat) : Nat := h.wordPos j / 4
/-- The offset of lane word j from the image base. -/
def Hart.wordOffset (h : Hart) (j : Nat) : Nat :=
  h.wordColumn j * 2 ^ 16 + h.wordWay j * 1024 + h.wordPos j % 8 * 128 + (4 * h.cluster + j % h.perColumn % h.laneCount) * 4
/-- Every lane word of some ways. -/
def Hart.wordsIn (h : Hart) (ways : Nat) : List Nat := (List.range h.vlmax).filter (fun j => hasBit ways (h.wordWay j))

/-- Lane word j of a register, in an open way. -/
def VReg.word (r : VReg) (j : Nat) : LaneWord := look r.words j {}
def Hart.isOpen (h : Hart) (r : VReg) (j : Nat) : Bool := hasBit r.openWays (h.wordWay j)
/-- Capacity in elements of width w (R37). -/
def Hart.capacity (h : Hart) (w : Nat) : Nat := h.vlmax * 32 / w

/-! ## Elements (R41, R42, R45) -/

/-- The lane word that holds element e of width w. -/
def elemWord (w e : Nat) : Nat := e * w / 32
/-- The bits of element e; what an fp6 position holds above its value is ignored (R41). -/
def VReg.bits (r : VReg) (w e : Nat) : Nat := (r.word (elemWord w e)).val.toNat / 2 ^ (e * w % 32) % 2 ^ min w r.tag.used

/-- Two registers carry the same tag: the type, and for an MX type the scale register (R44). -/
def VReg.sameTag (a b : VReg) : Bool := a.tag == b.tag && (!a.tag.isMx || a.scale == b.scale)

/-- Lane words of a block of 32 elements. -/
def TypeTag.blockWords (t : TypeTag) : Nat := if t.width = 4 then 4 else 8
/-- Where the scale of lane word j's block lies: the lane word of the scale register and the byte in it (R45). -/
def Hart.scalePlace (h : Hart) (t : TypeTag) (j : Nat) : Nat × Nat :=
  let b := h.wordPos j / t.blockWords
  (h.wordColumn j * h.perColumn + b / 4 * h.laneCount + j % h.perColumn % h.laneCount, b % 4)
/-- The scale byte of lane word j's block, and its poison. -/
def Hart.scaleOf (h : Hart) (r : VReg) (j : Nat) : Nat × Bool :=
  let p := h.scalePlace r.tag j
  let s := (h.getV r.scale).word p.1
  (s.val.toNat / 2 ^ (8 * p.2) % 256, s.poison)

/-- Element e of a register is poisoned: by its lane word, by its bits, or by the scale of an MX block (R117, R45). -/
def Hart.badElem (h : Hart) (r : VReg) (e : Nat) : Bool :=
  let j := elemWord r.tag.width e
  (r.word j).poison || r.tag.isPoisonNan (r.bits r.tag.width e) || (r.tag.isMx && (h.scaleOf r j).2)

/-! ## Writing elements (R175) -/

/-- A result: element index at the destination's width, bits, poison. -/
structure Elem where
  e      : Nat
  bits   : Nat
  poison : Bool
  deriving DecidableEq, Repr

/-- What an instruction writes into one lane word. -/
structure Written where
  val    : Nat := 0
  mask   : Nat := 0
  poison : Bool := false
  deriving DecidableEq, Repr

/-- Gathers results by lane word; the later of two results for one element stands. -/
def gather (w : Nat) (es : List Elem) : AMap Written :=
  es.foldl (fun m x =>
    let j := elemWord w x.e
    let old := look m j {}
    let sh := x.e * w % 32
    let field := (2 ^ w - 1) * 2 ^ sh
    put m j ⟨(old.val - (old.val &&& field)) + x.bits % 2 ^ w * 2 ^ sh, old.mask ||| field, old.poison || x.poison⟩) []

/-- The lane word after the instruction (R175). -/
def LaneWord.write (o : LaneWord) (x : Written) : LaneWord :=
  let old := o.val.toNat
  ⟨BitVec.ofNat 32 ((old - (old &&& x.mask)) + x.val), x.poison || (o.poison && x.mask != 2 ^ 32 - 1)⟩

/-- A register with results written into it; above an fp6 value the position is written as 0 (R41). DESIGN CHOICE (log 74): a load into an
fp6 register clears the two bits likewise, where an `ACT` of the same bytes keeps the whole lane word (R197). -/
def VReg.writeElems (r : VReg) (w : Nat) (es : List Elem) : VReg :=
  { r with words := (gather w (es.map (fun x => { x with bits := x.bits % 2 ^ min w r.tag.used }))).foldl (fun m x => put m x.1 ((look m x.1 {}).write x.2)) r.words }

/-! ## Lane words and elements of memory -/

/-- A lane word as an activation finds it: poisoned when its piece is bad. -/
def readLaneWord (s : State) (pa : Nat) : LaneWord :=
  if badByte s pa then ⟨0, true⟩ else ⟨BitVec.ofNat 32 (readNat s pa 4), false⟩

/-- The lane words of one piece among some lane words at their addresses. -/
def wordsOf (ws : List (Nat × LaneWord)) (piece : Nat) : List (Nat × LaneWord) := ws.filter (fun w => pieceOf w.1 == piece)

/-- The pieces that some lane words cover in part. -/
def partWords (ws : List (Nat × LaneWord)) : List Nat :=
  (distinct (ws.map (fun w => pieceOf w.1))).filter (fun p => decide ((wordsOf ws p).length < 8))

/-- Writes lane words to memory, each piece once, with the poison syndrome where a lane word of it is poisoned (R364). -/
def writeWords (s : State) (ws : List (Nat × LaneWord)) : State :=
  (distinct (ws.map (fun w => pieceOf w.1))).foldl (fun s p =>
    writePiece s p ((wordsOf ws p).flatMap (fun w => (span w.1 4).zip (toBytes 4 w.2.val.toNat))) ((wordsOf ws p).any (·.2.poison))) s

/-- The bits of an element that memory cannot give (R202). -/
def TypeTag.lostBits (t : TypeTag) : Nat := ((t.fmt?.bind (·.poisonNan))).getD 0

/-- Bytes that an element of width w touches. -/
def elemBytes (w : Nat) : Nat := if w = 4 then 1 else w / 8

/-- Element i of a tag as a load finds it in memory (R199, R202). -/
def memoryElem (s : State) (t : TypeTag) (i pa : Nat) : Elem :=
  let w := t.width
  if badBytes s pa (elemBytes w) then ⟨i, t.lostBits, true⟩
  else
    let v := loadNat s pa (elemBytes w)
    ⟨i, if w = 4 then v / 2 ^ (4 * (i % 2)) % 16 else v % 2 ^ w, false⟩

end Sys2Proof.Machine
end

