-- ==== Sys2Proof/Machine/Records.lean ====
section
/-! DEFINITION. Machine/Records.lean: what an instruction does in memory before it can act: records in rings, the store buffer, checked
places and the reads and writes of scalar instructions (R69, R78, R162, R163, R315, R321 to R329). -/

namespace Sys2Proof.Machine

/-! ## Debug records (R321 to R329) -/

/-- A field of a hart's debug block; 0 without one. -/
def dbgNat (s : State) (h : Hart) (off n : Nat) : Nat :=
  match h.dbg with
  | some d => readNat s (d + off) n
  | none => 0

/-- The size of ring i (0 frames, 1 samples, 2 film), when it is enabled (R322). -/
def ringSize (s : State) (h : Hart) (i : Nat) : Option Nat :=
  let lg := dbgNat s h (4 + i) 1
  if h.dbg.isSome ∧ 12 ≤ lg ∧ lg ≤ 32 then some (2 ^ lg) else none

/-- The virtual address of offset `at` of ring i. -/
def ringAddress (s : State) (h : Hart) (i size off : Nat) : Nat := (dbgNat s h (8 + 8 * i) 8 + off % size) % 2 ^ 64

/-- Translation for a hart. -/
def hartTranslate (s : State) (h : Hart) (w : Want) (va : Nat) : State × Except Cause (Nat × Nat) :=
  translate s h.stack (s.rootOf h) (s.partOf h) w va

/-- Where the next record of ring i goes, when there is a ring and the address can be written (R322). -/
def ringPlace (s : State) (h : Hart) (i : Nat) : State × Option Nat :=
  match ringSize s h i with
  | some size =>
    match hartTranslate s h ⟨false, true, false⟩ (ringAddress s h i size (dbgNat s h (0x20 + 8 * i) 8)) with
    | (s, .ok (pa, _)) => (s, some pa)
    | (s, .error _) => (s, none)
  | none => (s, none)

/-- A record goes to a place of ring i, and the ring's write field advances (R323): stores of the hart's own (R316). -/
def putRecord (s : State) (h : Hart) (i pa : Nat) (bytes : List Byte) : State × Hart :=
  s.forHart h fun src s =>
    writeBytes (storeBytes (baseAccess s [pa] src) 1 pa bytes) 1 (h.dbg.getD 0 + 0x20 + 8 * i)
      (toBytes 8 (dbgNat s h (0x20 + 8 * i) 8 + bytes.length))

/-- Writes a record into ring i; false where it is dropped. -/
def ringWrite (s : State) (h : Hart) (i : Nat) (bytes : List Byte) : (State × Hart) × Bool :=
  match ringPlace s h i with
  | (s, some pa) => (putRecord s h i pa bytes, true)
  | (s, none) => ((s, h), false)

/-- Whether SAFEMASK lets a field group through (R335). -/
def Hart.shows (h : Hart) (bit : Nat) : Bool := !h.ctl.getLsbD 8 || h.ctl.getLsbD (16 + bit)

/-- Offset of a pc from the kernel header. -/
def State.pcOffset (s : State) (h : Hart) (pc : Word) : Nat :=
  (((pc.toNat : Int) - s.khdrOf h) % 2 ^ 32).toNat

/-- Writes a trace frame (R329), with the fields safelight permits. -/
def writeFrame (s : State) (h : Hart) (kind : Nat) (pc : Word) (aux : Nat) : State × Hart :=
  if !h.ctl.getLsbD 2 then (s, h)
  else
    let auxShown := match kind with
      | 1 | 3 => h.shows 1
      | 2 | 4 | 5 => h.shows 2
      | _ => true
    let w0 := (if h.shows 0 then h.cycle.toNat % 2 ^ 48 else 0) + kind * 2 ^ 48
      + (if h.dropped && !h.ctl.getLsbD 8 then 2 ^ 56 else 0)
    let w1 := (if h.shows 1 then s.pcOffset h pc else 0) + (if auxShown then aux % 2 ^ 32 else 0) * 2 ^ 32
    let r := ringWrite s h 0 (toBytes 8 w0 ++ toBytes 8 w1)
    (r.1.1, { r.1.2 with dropped := !r.2 })

/-! ## The store buffer (R163) -/

/-- Performs buffered stores of a hart, oldest first. -/
def performStores (s : State) (hart : Nat) (l : List BufStore) : State :=
  l.foldl (fun s b => storeBytes (baseAccess s [b.pa] (.base hart)) 1 b.pa b.data) s

/-- Sets the whole module with the instruction's hart in its place, and takes the hart back. -/
def Ctx.global (c : Ctx) (f : State → State) : Ctx :=
  let s := f (c.s.setHart c.id c.h)
  { c with s := s, h := (s.hart? c.id).getD c.h }

/-- Performs some of the hart's buffered stores, which leave the buffer. -/
def Ctx.perform (c : Ctx) (l keep : List BufStore) : Ctx :=
  let c := c.global (fun s => performStores s c.id l)
  { c with h := { c.h with stores := keep } }

/-- Performs every buffered store of the instruction's hart. -/
def Ctx.drainStores (c : Ctx) : Ctx := c.perform c.h.stores []

def BufStore.touches (b : BufStore) (pa n : Nat) : Bool := decide (b.pa < pa + n ∧ pa < b.pa + b.data.length)

/-- The buffered stores that must be performed before an access to n bytes from pa, and the others: those to some of the bytes, and
every earlier one to a byte of one that must be performed (R85). -/
def neededStores (pa n : Nat) (l : List BufStore) : List BufStore × List BufStore :=
  l.foldr (fun b acc =>
    if b.touches pa n || acc.1.any (fun d => b.touches d.pa d.data.length) then (b :: acc.1, acc.2) else (acc.1, b :: acc.2)) ([], [])

/-- Performs the buffered stores that an access to n bytes from pa needs performed. -/
def Ctx.drainOverlap (c : Ctx) (pa n : Nat) : Ctx :=
  let r := neededStores pa n c.h.stores
  c.perform r.1 r.2

/-- Puts a store into the buffer; when 32 are waiting, the oldest is performed first. -/
def Ctx.bufferStore (c : Ctx) (b : BufStore) : Ctx :=
  if c.h.stores.length < 32 then { c with h := { c.h with stores := c.h.stores ++ [b] } }
  else c.perform (c.h.stores.take 1) (c.h.stores.drop 1 ++ [b])

/-- A byte as the hart's own load finds it: the latest buffered store to it, else memory. -/
def loadByteBuffered (s : State) (h : Hart) (pa : Nat) : Byte :=
  match h.stores.reverse.find? (fun b => decide (b.pa ≤ pa ∧ pa < b.pa + b.data.length)) with
  | some b => b.data.getD (pa - b.pa) 0
  | none => loadByte s pa

/-! ## Scalar places (R78, R162) -/

/-- Where a scalar access goes. -/
inductive Place
  | tcm (off : Nat)
  | mem (pa leaf : Nat)
  deriving DecidableEq, Repr

/-- The checks of a scalar access to n bytes: `ALIGN`, then the TCM window or translation (R162, R69). -/
def place (c : Ctx) (va : Word) (n : Nat) (w : Want) : Except Stop (Place × Ctx) :=
  if va.toNat % n ≠ 0 then .error (.trap .align va c)
  else if inTcm va.toNat then
    if va.toNat - 0xFFFFFFFF0000 + n ≤ c.header.tcmstack then .ok (.tcm (va.toNat - 0xFFFFFFFF0000), c)
    else .error (.trap .prot va c)
  else match hartTranslate c.s c.h w va.toNat with
    | (s, .error cause) => .error (.trap cause va { c with s := s })
    | (s, .ok (pa, leaf)) => .ok (.mem pa leaf, { c with s := s })

/-- As `place`, for an address that the TCM window may not hold (R247, R256, R275). -/
def placeGeneric (c : Ctx) (va : Word) (n : Nat) (w : Want) : Except Stop ((Nat × Nat) × Ctx) :=
  if va.toNat % n ≠ 0 then .error (.trap .align va c)
  else if inTcm va.toNat then .error (.trap .prot va c)
  else match hartTranslate c.s c.h w va.toNat with
    | (s, .error cause) => .error (.trap cause va { c with s := s })
    | (s, .ok (pa, leaf)) => .ok ((pa, leaf), { c with s := s })

/-- `POISON` when some of n bytes from pa lie in a bad piece, which is read; an uncorrectable one is recorded with SRC 1 (R162, R305,
R315). -/
def needGood (c : Ctx) (pa n : Nat) (info : Word) : Except Stop Unit :=
  if badBytes c.s pa n then
    .error (.trap .poison info (c.global (fun s => recordPieces (baseAccess s [pa] (.base c.id)) 1 (piecesOf pa n))))
  else .ok ()

/-- `POISON`, with a lane or an element named in `TRAPINFO` (R303, R306). -/
def poisonAt (c : Ctx) (what : Named) (n : Nat) : Stop :=
  .trap .poison (BitVec.ofNat 64 n) { c with h := { c.h with named := what } }

/-- A byte of the hart's TCM share (R69). -/
def Hart.tcmByte (h : Hart) (off : Nat) : Byte := look h.tcm off (Config.freeByte (h.tcmAt + off))

/-- What a checked scalar load finds, and the load's use of the line cache and the array. -/
def readPlace (c : Ctx) (va : Word) (n : Nat) : Place → Except Stop (Nat × Ctx)
  | .tcm off => .ok (ofBytes ((span off n).map c.h.tcmByte), c)
  | .mem pa leaf => do
    needGood c pa n va
    let c := c.global (fun s => readAccess s [(pa, leafUc leaf)] true (.base c.id))
    .ok (ofBytes ((span pa n).map (loadByteBuffered c.s c.h)), c)

/-- A checked scalar store: into the TCM bank, or into the store buffer. -/
def writePlace (c : Ctx) (data : List Byte) : Place → Ctx
  | .tcm off =>
    { c with h := { c.h with tcm := putAll c.h.tcm ((span off data.length).zip data) } }
  | .mem pa _ => c.bufferStore ⟨pa, data⟩

end Sys2Proof.Machine
end

