-- ==== Sys2Proof/Machine/Queues.lean ====
section
/-! DEFINITION. Machine/Queues.lean: queue blocks in memory (R255 to R258) and the submission of a start record by a hart (R247),
shared by `QPUSH`, `QPOP`, `VCAPP` and `TSPAWN`. -/

namespace Sys2Proof.Machine

/-! ## Start records (R247) -/

/-- The 128 bytes of a start record at va, with the checks of `TSPAWN`. -/
def startRecordAt (c : Ctx) (va : Word) : Except Stop (List Byte × Ctx) := do
  need (va.toNat % 128 == 0) .align va c
  let (p, c) ← placeGeneric c va 8 ⟨true, false, false⟩
  needGood c p.1 128 va
  let c := c.global (fun s => readAccess s [(p.1, leafUc p.2)] false (.base c.id))
  .ok ((span p.1 128).map (loadByte c.s), c)

/-- Submits a record to the user queue of the hart's task: a release of the hart's scalar accesses (R248). -/
def submitRecord (c : Ctx) (record : List Byte) : Option Nat × Ctx :=
  let c := c.drainStores
  let r := submit c.s ((c.task?.map (·.queue)).getD 0) record
  (r.2, { c with s := r.1 })

/-! ## Queue blocks (R255) -/

/-- The fields of a queue block; `zero` gathers its reserved bytes. -/
structure QBlock where
  ring      : Nat
  capacity  : Nat
  esize     : Nat
  armed     : Nat
  head      : Nat
  tail      : Nat
  dropped   : Nat
  threshold : Nat
  launch    : Nat
  zero      : Nat
  deriving DecidableEq, Repr

/-- The block at a physical address. -/
def readBlock (s : State) (pa : Nat) : QBlock where
  ring := loadNat s pa 8
  capacity := loadNat s (pa + 8) 4
  esize := loadNat s (pa + 12) 1
  armed := loadNat s (pa + 13) 1
  head := loadNat s (pa + 16) 8
  tail := loadNat s (pa + 24) 8
  dropped := loadNat s (pa + 32) 8
  threshold := loadNat s (pa + 40) 8
  launch := loadNat s (pa + 48) 8
  zero := loadNat s (pa + 14) 2 + loadNat s (pa + 56) 8

/-- tail − head, unsigned. -/
def QBlock.count (b : QBlock) : Nat := (b.tail + 2 ^ 64 - b.head) % 2 ^ 64

/-- Bytes of an entry. -/
def QBlock.entry (b : QBlock) : Nat := 2 ^ b.esize

/-- The fields are within their limits. -/
def QBlock.ok (b : QBlock) : Bool :=
  (b.esize == 2 || b.esize == 3) && decide (1 ≤ b.capacity ∧ b.capacity ≤ 2 ^ 24) && decide (b.armed ≤ 1) && b.zero == 0 &&
    b.ring % b.entry == 0 && decide (b.count ≤ b.capacity)

/-- The virtual address of entry n. -/
def QBlock.slot (b : QBlock) (n : Nat) : Nat := (b.ring + n % b.capacity * b.entry) % 2 ^ 64

/-- The physical address of a byte of the ring, when it can be accessed. -/
def slotPlace (c : Ctx) (va : Nat) : Option Nat × Ctx :=
  if inTcm va then (none, c)
  else match hartTranslate c.s c.h ⟨true, true, false⟩ va with
    | (s, .ok (pa, _)) => (if inMemory pa then some pa else none, { c with s := s })
    | (s, .error _) => (none, { c with s := s })

/-- The physical addresses of some ring addresses, when all can be accessed. -/
def slotPlaces (c : Ctx) : List Nat → Option (List Nat) × Ctx
  | [] => (some [], c)
  | va :: rest =>
    match slotPlace c va with
    | (none, c) => (none, c)
    | (some pa, c) =>
      match slotPlaces c rest with
      | (none, c) => (none, c)
      | (some l, c) => (some (pa :: l), c)

/-- The block is well formed for an action on entries ns: their physical addresses. -/
def blockPlaces (c : Ctx) (b : QBlock) (ns : List Nat) : Option (List Nat) × Ctx :=
  if !b.ok then (none, c)
  else match slotPlaces c (b.ring :: ns.map b.slot) with
    | (none, c) => (none, c)
    | (some l, c) => (some (l.drop 1), c)

/-- Checks the address of a block as a store that needs RD and WR: its physical address and leaf (R256). -/
def blockAt (c : Ctx) (va : Word) : Except Stop ((Nat × Nat) × Ctx) := placeGeneric c va 64 ⟨true, true, false⟩

/-- The read of a block at its home. -/
def Ctx.readBlockAt (c : Ctx) (p : Nat × Nat) : Ctx := c.global (fun s => readAccess s [(p.1, leafUc p.2)] false (.base c.id))

/-- An append of n entries makes the block launch. -/
def QBlock.launches (b : QBlock) (n : Nat) : Bool :=
  b.armed == 1 && b.launch != 0 && decide (b.threshold ≤ (b.count + n) % 2 ^ 64)

/-- The bytes that an append of n entries reads beside the block, and those that it writes in the block at va (R256, R327). -/
def appendRanges (b : QBlock) (va n : Nat) : List (Nat × Nat) × List (Nat × Nat) :=
  if b.launches n then ([(b.launch, 128)], [(va + 24, 8), (va + 13, 1)]) else ([], [(va + 24, 8)])

/-- Launches the start record of a block that is armed and has reached its threshold (R256). -/
def triggerCheck (c : Ctx) (pa : Nat) : Ctx :=
  let b := readBlock c.s pa
  if b.launches 0 then
    let disarm (c : Ctx) : Ctx := { c with s := storeBytes c.s 1 (pa + 13) [0] }
    match startRecordAt c (BitVec.ofNat 64 b.launch) with
    | .ok (record, c) =>
      match submitRecord c record with
      | (some _, c) => disarm c
      | (none, c) => c
    | .error (.trap _ _ c') => disarm { c with s := c'.s.note (.trigger b.launch) }
    | .error (.wait _ _) => c
  else c

/-- The array's part in what an instruction writes at some addresses, after it has read others in the array: each way-row is activated
once (R219). -/
def Ctx.writeRows (c : Ctx) (read pas : List Nat) : Ctx :=
  c.global (fun s => baseAccess s (pas.filter (fun a => !(read.map (· / 1024)).contains (a / 1024))) (.base c.id))

/-- Where an append of n words to a block would put them, when there is room and the block is well formed (R211). -/
def appendPlaces (c : Ctx) (q : QBlock) (n : Nat) : Option (List Nat) × Ctx :=
  if q.esize = 2 ∧ q.count + n ≤ q.capacity then blockPlaces c q (span q.tail n) else (none, c)

/-- The atomic action of `VCAPP` at the home of the block at pa, for words that are not none (R211); its instruction has had the rows of
some addresses activated (R219). -/
def appendWords (c : Ctx) (pa : Nat) (words read : List Nat) : Ctx :=
  let q := readBlock c.s pa
  match appendPlaces c q words.length with
  | (none, c) =>
    let c := c.writeRows read [pa]
    { c with s := storeBytes c.s 1 (pa + 32) (toBytes 8 (q.dropped + words.length)) }
  | (some pas, c) =>
    let c := c.writeRows read (pa :: pas)
    let cells := (pas.zip words).flatMap (fun e => (span e.1 4).zip (toBytes 4 e.2))
    triggerCheck { c with s := storeBytes (writeAll c.s 1 cells false) 1 (pa + 24) (toBytes 8 (q.tail + words.length)) } pa

end Sys2Proof.Machine
end

