-- ==== Sys2Proof/Machine/Ops.lean ====
section
/-! DEFINITION. Machine/Ops.lean: the operations that instructions share: records in memory, taking a trap and returning, the
store buffer, element accesses, the film, waypoints, retirement and issue. -/

namespace Sys2Proof.Machine

/-! ## Element accesses (R84, R85, R90, R93, R203, R207) -/

/-- The new value of a 32-bit word under an element update. DESIGN CHOICE (log 74): a memory word in a good piece that holds the bits of
the poison NaN is an ordinary NaN here. -/
def elemUpdate (op : ElemOp) (ftz : Bool) (m v : Nat) : Nat :=
  let f (isMax : Bool) : Nat :=
    let a := fp32.value ftz m
    let b := fp32.value ftz v
    if a.isNan && b.isNan then 0x7FC00000
    else
      let second := picksSecond isMax a b
      let t := if second then b else a
      if t.isZero then fp32.sign t.isNeg else if second then v else m
  match op with
  | .addI => (m + v) % 2 ^ 32
  | .minS => if signed 32 v < signed 32 m then v else m
  | .minU => min m v
  | .maxS => if signed 32 m < signed 32 v then v else m
  | .maxU => max m v
  | .and => m &&& v
  | .or => m ||| v
  | .xor => m ^^^ v
  | .addF => (fAdd fp32 (rne ftz) (fp32.value ftz m) (fp32.value ftz v)).1
  | .minF => f false
  | .maxF => f true
  | _ => v

/-- The byte ranges of an access. -/
def ElemAccess.ranges (e : ElemAccess) : List (Nat × Nat) :=
  match e.op with
  | .open' _ words => words.map (fun w => (w.2, 4))
  | .back words => words.map (fun w => (w.1, 4))
  | .backOf _ words => words.map (fun w => (w.1, 4))
  | .append ring _ => (e.pa, 64) :: ring
  | _ => [(e.pa, e.data.length)]

def ElemAccess.touches (e : ElemAccess) (pa : Nat) : Bool := e.ranges.any (fun r => decide (r.1 ≤ pa ∧ pa < r.1 + r.2))

/-- Two accesses have a byte in common. -/
def ElemAccess.meets (a b : ElemAccess) : Bool :=
  a.ranges.any (fun x => b.ranges.any (fun y => decide (x.1 < y.1 + y.2 ∧ y.1 < x.1 + x.2)))

/-- The registers that the access is still to fill (R204, R182). -/
def ElemAccess.fillRegs (e : ElemAccess) : List VNum :=
  match e.op with
  | .read d _ copy => d :: copy.toList
  | .open' d _ => [d]
  | _ => []

/-- The registers from which the access is to take what it writes, once that is there. -/
def ElemAccess.takes (e : ElemAccess) : List VNum :=
  match e.op with
  | .storeOf v tag scale _ => if tag.isMx then [v, scale] else [v]
  | .backOf v _ => [v]
  | _ => []

/-- The access is still to fill a register. -/
def ElemAccess.fills (e : ElemAccess) (v : VNum) : Bool := e.fillRegs.contains v

/-- The access is still to fill a register or to take what it holds. -/
def ElemAccess.uses (e : ElemAccess) (v : VNum) : Bool := e.fills v || e.takes.contains v

/-- The access belongs to an instruction that its hart has gone past before it retires (R174): no store whose elements have gone, no
update and no append. -/
def ElemAccess.isLate (e : ElemAccess) : Bool :=
  match e.op with
  | .read .. | .open' .. | .back _ | .storeOf .. | .backOf .. => true
  | _ => false

/-- The access as its hart's registers now complete it. -/
def ElemAccess.resolve (h : Hart) (e : ElemAccess) : ElemAccess :=
  match e.op with
  | .storeOf v tag scale high =>
    let r := { h.getV v with tag := tag, scale := scale }
    { e with
      op := match high with
        | some b => .nibble b
        | none => .store
      data := toBytes e.data.length (r.bits r.tag.width e.idx)
      poison := h.badElem r e.idx }
  | .backOf v words => { e with op := .back (words.map (fun w => (w.1, (h.getV v).word w.2))) }
  | _ => e

/-- Records the uncorrectable pieces that an access of an instruction meets, each once for the instruction (R305). -/
def recordFor (s : State) (hart seq src : Nat) (pieces : List Nat) : State :=
  let met := ((s.hart? hart).map (·.met)).getD []
  let bad := (distinct pieces).filter (fun p => find? s.marks p == some .uncorrectable && !met.contains (seq, p))
  if bad.isEmpty then s
  else (bad.foldl (fun s p => recordPiece s src p) s).modHart hart (fun h => { h with met := h.met ++ bad.map (fun p => (seq, p)) })

/-- An element of a load reaches its register, and the copy under the prefix (R176). -/
def fillElem (s : State) (hart : Nat) (d : VNum) (t : TypeTag) (copy : Option VNum) (e : ElemAccess) : State :=
  (recordFor s hart e.seq 1 (piecesOf e.pa e.data.length)).modHart hart fun h =>
    let h := h.setV d ((h.getV d).writeElems t.width [memoryElem s t e.idx e.pa])
    match copy with
    | some v =>
      let j := elemWord t.width e.idx
      h.setV v { h.getV v with words := put (h.getV v).words j ((h.getV d).word j) }
    | none => h

/-- The lane words of an opened way reach their register. -/
def fillWords (s : State) (hart : Nat) (d : VNum) (e : ElemAccess) (words : List (Nat × Nat)) : State :=
  (recordFor s hart e.seq 0 (words.map (fun w => pieceOf w.2))).modHart hart fun h =>
    h.setV d { h.getV d with words := putAll (h.getV d).words (words.map (fun w => (w.1, readLaneWord s w.2))) }

/-- The words that an append carries. -/
def wordsIn (data : List Byte) : List Nat := (List.range (data.length / 4)).map (fun n => ofBytes ((data.drop (4 * n)).take 4))

/-- A write of an element's bytes, which records each uncorrectable piece that it covers in part once for its instruction. -/
def writeElem (s : State) (hart : Nat) (e : ElemAccess) (cells : List (Nat × Byte)) (poison : Bool) : State :=
  writePieces (recordFor s hart e.seq 1 (partPieces cells)) cells poison

/-- Performs one element access at its home, with what it is to write; the array has seen it when it was sent. One to the remote window is
sent and stays outstanding (R342). On a hub register only a store of 8 bytes acts, as its fields allow; any other write is ignored and
logged (R276). -/
def performResolved (s : State) (hart : Nat) (e : ElemAccess) : State :=
  if regionOf e.pa = .remote then
    sendAccess s ⟨hart, false, e.pa, e.va, e.pc, 0, e.idx, none, e.data, (match e.op with | .nibble high => some high | _ => none), 0, 0⟩
  else
    match e.op with
    | .read d t copy => fillElem s hart d t copy e
    | .open' d words => fillWords s hart d e words
    | .back words =>
      dropLines (writeWords (recordFor s hart e.seq 0 (partWords words)) words) (words.map (·.1))
    | .append _ read =>
      match s.hart? hart with
      | some h =>
        let c := appendWords ⟨s, hart, h, h.pc, false, none, 0, []⟩ e.pa (wordsIn e.data) (if read then [e.pa] else [])
        c.s.setHart hart c.h
      | none => s
    | .store =>
      if regionOf e.pa = .regs then storeBytes s 1 e.pa e.data
      else writeElem s hart e ((span e.pa e.data.length).zip e.data) e.poison
    | .nibble high =>
      if regionOf e.pa = .regs then s.note (.write e.pa)
      else
        let old := (readByte s.mem e.pa).toNat
        let v := (e.data.getD 0 0).toNat % 16
        let b := if high then old % 16 + v * 16 else old / 16 * 16 + v
        writeElem s hart e [(e.pa, BitVec.ofNat 8 b)] e.poison
    | op =>
      if regionOf e.pa = .regs then s.note (.write e.pa)
      else writeElem s hart e ((span e.pa 4).zip (toBytes 4 (elemUpdate op e.ftz (readNat s e.pa 4) (ofBytes e.data)))) false

/-- Performs one element access of a hart. -/
def performElem (s : State) (hart : Nat) (e : ElemAccess) : State :=
  performResolved s hart (((s.hart? hart).map e.resolve).getD e)

/-- The access writes an element of a store. -/
def ElemOp.isStore : ElemOp → Bool
  | .store | .nibble _ | .storeOf .. => true
  | _ => false

/-- The access updates an element of memory (R207). -/
def ElemOp.isUpdate : ElemOp → Bool
  | .addI | .minS | .minU | .maxS | .maxU | .and | .or | .xor | .addF | .minF | .maxF => true
  | _ => false

/-- Two unordered elements of one instruction write one place. -/
def ElemAccess.rivals (e p : ElemAccess) : Bool := e.op.isStore && !e.ordered && p.seq == e.seq && p.pa == e.pa && p.op == e.op

/-- A list with an access put before the last of its rivals in it. -/
def ElemAccess.before (e : ElemAccess) (l : List ElemAccess) : List ElemAccess :=
  let n := l.length - 1 - (l.reverse.takeWhile (fun p => !e.rivals p)).length
  l.take n ++ e :: l.drop n

/-- Adds an access to those whose order is fixed. Where several unordered elements of one instruction write one place, which of them comes
last is free (R90). -/
def orderElem (a : Nat × List ElemAccess) (e : ElemAccess) : Nat × List ElemAccess :=
  if a.2.any e.rivals then (a.1 + 1, if Config.pick a.1 % 2 = 1 then e.before a.2 else a.2 ++ [e]) else (a.1, a.2 ++ [e])

/-- Performs element accesses in the order of the list but for rivals. -/
def performElems (s : State) (hart : Nat) (l : List ElemAccess) : State :=
  let a := l.foldl orderElem (s.free, [])
  a.2.foldl (fun s e => performElem s hart e) { s with free := a.1 }

/-- The element accesses that a hart still has on their way; what instructions that have none left have recorded is done with. -/
def Hart.withElems (h : Hart) (l : List ElemAccess) : Hart :=
  { h with elems := l, met := h.met.filter (fun m => l.any (·.seq == m.1)) }

/-- Performs some of the element accesses that the hart has sent; the others stay on their way. -/
def Ctx.performNow (c : Ctx) (l keep : List ElemAccess) : Ctx :=
  let c := c.global (fun s => performElems s c.id l)
  { c with h := c.h.withElems keep }

/-- Performs every element access of the hart that has been sent. -/
def Ctx.drainElems (c : Ctx) : Ctx :=
  c.performNow c.h.elems []

/-- An access of an earlier instruction comes before this one: they have a byte in common (R85), it fills the register from which this one
takes what it writes, or it uses one that this one fills (R173). -/
def ElemAccess.follows (e p : ElemAccess) : Bool :=
  decide (p.seq < e.seq) && (e.after.contains p.seq || e.takes.any p.fills || e.fillRegs.any p.uses)

/-- The instructions on their way that some accesses, and those before them, belong to (R85). -/
def neededSeqs (hit : ElemAccess → Bool) (l : List ElemAccess) : List Nat :=
  l.foldr (fun e acc =>
    if acc.contains e.seq || hit e then
      acc ++ (e.seq :: (l.filter e.follows).map (·.seq)).filter (fun n => !acc.contains n)
    else acc) []

/-- Performs some earlier vector instructions, and those that come before them, whole (R85). -/
def Ctx.drainSeqs (c : Ctx) (hit : ElemAccess → Bool) : Ctx :=
  let seqs := neededSeqs hit c.h.elems
  if seqs.isEmpty then c
  else
    c.performNow (c.h.elems.filter (fun e => seqs.contains e.seq)) (c.h.elems.filter (fun e => !seqs.contains e.seq))

/-- Performs the earlier vector instructions that an access to some bytes needs performed. -/
def Ctx.drainMeeting (c : Ctx) (pas : List Nat) : Ctx := c.drainSeqs (fun e => pas.any e.touches)

/-- The instructions of the vector queue that wait for what earlier ones are to write. -/
def Hart.waiting (h : Hart) : List Queued := h.vqueue.filter (fun q => !q.done)

/-- The first of them. -/
def Hart.firstWaiting (h : Hart) : Option Queued := h.vqueue.find? (fun q => !q.done)

/-- The entries of the vector queue that are taken (R220). -/
def Hart.queued (h : Hart) : Nat := h.vqueue.length

/-- Every instruction that its hart has gone past has retired. -/
def Hart.caughtUp (h : Hart) : Bool := h.vqueue.isEmpty

/-- The instructions that have retired: those that the hart has gone past but for the ones on their way (R172, R174). -/
def Hart.retired (h : Hart) : Word := h.instret - BitVec.ofNat 64 h.vqueue.length

/-- The registers that a vector instruction names: its vector fields, first its destination, the copy under its prefix, and the scales of
those that carry an MX tag. -/
def namedRegs (h : Hart) (word : Word) (pfx : Option Pfx) : List VNum :=
  let field (lo : Nat) : VNum := word.extractLsb' lo 6
  let major := word.toNat / 2 ^ 26
  let l := (if major = 0x24 ∨ major = 0x25 ∨ major = 0x2C ∨ major = 0x2D ∨ major = 0x30 then [20, 14] else [20, 14, 8]).map field
  let l := l ++ (pfx.filter (·.cpen)).toList.map (·.vcopy)
  l ++ (l.filter (fun v => (h.getV v).tag.isMx)).map (fun v => (h.getV v).scale)

/-- A waiting instruction names a register. -/
def Queued.names (q : Queued) (v : VNum) : Bool := q.regs.any (fun e => e.1 == v.toNat)

/-- The registers that it writes; `VSSX` writes none, and `VCOMP` with indices two. -/
def Queued.dests (q : Queued) : List VNum :=
  let major := q.word.toNat / 2 ^ 26
  (if major = 0x2D then [] else [q.word.extractLsb' 20 6]) ++
    (if major = 0x2F ∧ q.word.toNat % 32 = 2 then [q.word.extractLsb' 8 6] else []) ++ (q.pfx.filter (·.cpen)).toList.map (·.vcopy)

/-- An access cannot be performed before an instruction that waits in the vector queue: it takes what that one writes, or fills a register
that it names. -/
def Hart.stuck (h : Hart) (e : ElemAccess) : Bool :=
  h.waiting.any (fun q => decide (q.seq < e.seq) && (e.takes.any q.dests.contains || e.fillRegs.any q.names))

/-- An element access may be performed now: no instruction that comes before its own is still on its way, nothing of its own that must come
before it (R85, R90, R93), and nothing that waits in the vector queue. -/
def mayPerform (h : Hart) (n : Nat) : Bool :=
  match h.elems[n]? with
  | none => false
  | some e => ((h.elems.take n).all fun p =>
      if p.seq = e.seq then !e.ordered && !(p.pa == e.pa && e.op.isUpdate) else !e.follows p) && !h.stuck e

/-- Something on its way is still to write a register. -/
def Hart.awaits (h : Hart) (v : VNum) : Bool := h.elems.any (·.fills v) || h.waiting.any (·.dests.contains v)

/-- Something on its way is still to write a register or to read it. -/
def Hart.engages (h : Hart) (v : VNum) : Bool := h.elems.any (·.uses v) || h.waiting.any (·.names v)

/-- Waits while all 16 entries of the vector queue are taken (R220). -/
def needRoom (c : Ctx) : Except Stop Unit := if c.h.queued < 16 then .ok () else .error (.wait .access c)

/-- `STEP` is on (R326). -/
def Hart.stepping (h : Hart) : Bool := h.dbg.isSome && h.ctl.getLsbD 9

/-- The accesses of the instruction at hand are performed after it, in an order that R84 leaves free (log 6). -/
def Ctx.late (c : Ctx) : Bool := c.h.late && !c.h.stepping

/-- MODE of `FILMSTAT`. -/
def Hart.filmMode (h : Hart) : Nat := h.filmstat.toNat / 2 ^ 60 % 4

/-- The instruction's reads of a page that is to be recorded are filmed (R332). -/
def Ctx.films (c : Ctx) (recorded : Bool) : Bool := recorded && c.h.dbg.isSome && c.h.filmMode != 0

/-- An instruction that is performed at once waits while an earlier access that it comes after cannot be performed before an instruction of
the vector queue. -/
def inTurn (c : Ctx) (pas : List Nat) : Except Stop Unit :=
  let seqs := neededSeqs (fun e => pas.any e.touches) c.h.elems
  if c.h.elems.any (fun e => seqs.contains e.seq && c.h.stuck e) then .error (.wait .access c) else .ok ()

/-- Waits until every earlier instruction has retired (R301). -/
def afterAll (c : Ctx) : Except Stop Unit := if c.h.caughtUp then .ok () else .error (.wait .access c)

/-- Adds the element accesses of an instruction to those that the hart has sent, after the instructions with which they have a byte in
common (R85). -/
def Ctx.sendElems (c : Ctx) (es : List ElemAccess) : Ctx :=
  let after := distinct ((c.h.elems.filter (fun p => es.any p.meets)).map (·.seq))
  { c with h := { c.h with elems := c.h.elems ++ es.map (fun e => { e with after := after }), elemSeq := c.h.elemSeq + 1 } }

/-! ## Taking a trap (R299 to R302) -/

/-- Whether INH is set (R298). -/
def Hart.inh (h : Hart) : Bool := h.trapcause.getLsbD 16

/-- The code of a cause (R297). -/
def causeCode : Cause → Nat
  | .illegal => 1
  | .priv => 2
  | .align => 3
  | .attrSplit => 4
  | .rowAddr => 5
  | .pageWin => 6
  | .pageFault => 7
  | .prot => 8
  | .regClosed => 9
  | .tagMismatch => 10
  | .poison => 11
  | .dataErr => 12
  | .refDeadline => 13
  | .actAlert => 14
  | .laneLoss => 15
  | .bkpt => 16
  | .waypoint => 17
  | .step => 18
  | .swTrap => 19
  | .filmFull => 20

/-- Causes 13, 14, 15 and 20 are asynchronous. -/
def causeAsync : Cause → Bool
  | .refDeadline | .actAlert | .laneLoss | .filmFull => true
  | _ => false

/-- `PFXSTATE` with a prefix saved (R136). -/
def packPfx (p : Pfx) (succ : BitVec 46) : Word :=
  BitVec.ofNat 64 (succ.toNat * 2 ^ 18 + p.cpen.toNat * 2 ^ 13 + p.vcopy.toNat * 2 ^ 7 + p.zero.toNat * 2 ^ 6
    + p.dt.toNat * 2 ^ 5 + p.pol.toNat * 2 ^ 4 + p.k.toNat * 2 + 1)

/-- The prefix that `PFXSTATE` holds. -/
def unpackPfx (w : Word) : Pfx :=
  ⟨w.extractLsb' 1 3, w.getLsbD 4, w.getLsbD 5, w.getLsbD 6, w.extractLsb' 7 6, w.getLsbD 13, w.extractLsb' 18 46⟩

/-- A waypoint entry of the debug block: MATCH and the control word (R327). -/
def waypoint (s : State) (h : Hart) (n : Nat) : Nat × Nat := (dbgNat s h (0x40 + 16 * n) 8, dbgNat s h (0x48 + 16 * n) 8)

/-- What a debug cause does: 0 task vector, 1 steward, 2 steward and gang stop (R325, R328). A gang stop outside a gang acts as
1. -/
def debugRoute (s : State) (h : Hart) (cause : Cause) (info : Word) : Nat :=
  let r := h.ctl.toNat / 2 ^ 10 % 4
  let stop := cause = .waypoint && (waypoint s h info.toNat).2 / 4 % 4 == 1
  if stop then 2 else r

/-- The cause goes to the task vector first (R297). -/
def routedToTask (s : State) (h : Hart) (cause : Cause) (info : Word) : Bool :=
  match cause with
  | .pageWin | .pageFault | .filmFull => false
  | .bkpt | .waypoint | .step => debugRoute s h cause info == 0
  | _ => true

/-- A result held apart becomes the hart's state (R174): what happened to the hart in the meantime stays. -/
def commitShadow (s : State) (id : Nat) : State :=
  match s.hart? id, find? s.shadows id with
  | some cur, some r =>
    { s.setHart id { r with
        wait := .none, defer := false, cycle := cur.cycle, idle := cur.idle, haltReq := cur.haltReq, presented := cur.presented
        stores := cur.stores, elems := cur.elems, met := cur.met, remote := cur.remote, arrived := cur.arrived
        pendLane := cur.pendLane, pendAlert := cur.pendAlert, pendRef := cur.pendRef, pendFilm := cur.pendFilm || r.pendFilm } with
      shadows := del s.shadows id }
  | _, _ => s

/-- Cells or scales come into the tile; what is loaded again has good parity. -/
def Hart.tileIn (h : Hart) (scales : Bool) (items : AMap TileCell) : Hart :=
  let clean := items.foldl (fun m e => del m (if scales then 2 ^ 32 + e.1 else e.1)) h.tileParity
  if scales then { h with tileScale := putAll h.tileScale items, tileParity := clean }
  else { h with tileCells := putAll h.tileCells items, tileParity := clean }

/-- A hart whose collective transport and tile load have completed. -/
def Hart.finishMoves (h : Hart) : Hart :=
  let h := match h.transport with
    | some t =>
      let r := h.getV t.vd
      { h.setV t.vd { r with words := putAll r.words t.items, invalid := 0 } with transport := none }
    | none => h
  match h.tileLoad with
  | some t => { h.tileIn t.scales t.items with tileLoad := none }
  | none => h

/-- A `REF` that is abandoned between two row-sets asks for none any more (R186). -/
def dropRefresh (s : State) (id : Nat) (h : Hart) : State :=
  if h.wait = .refresh then h.columns.foldl (fun s c => s.modCol c (fun k => { k with
    requests := k.requests.filter (fun q => !(q.act == .rowSet && q.hart == some id)) })) s
  else s

/-- A hart at an instruction boundary: its buffered stores and sent element accesses are performed, and the actions already begun
complete. What a channel had on its way is fetched again. -/
def quiesce (s : State) (id : Nat) : State :=
  match s.hart? id with
  | none => s
  | some h =>
    let s := dropRefresh (performStores s id h.stores) id h
    let s := performElems s id (h.elems.filter (fun e => !h.stuck e))
    let h := { ((s.hart? id).getD h).withElems [] with
      stores := [], instret := h.retired, vqueue := [], atHead := false, stopDue := false, coll := none, wait := .none, remote := [], arrived := []
      waitFrom := none, refDone := 0, issueAt := none, stalls := 0, tlbMissed := 0 }
    { s.setHart id h.finishMoves with
      shadows := del s.shadows id
      outstanding := s.outstanding.filter (fun e => !(e.2.hart == id && e.2.load)) }

/-- The hart's halt at an instruction boundary (R290): what was not retired is abandoned, and the actions already begun
complete. -/
def haltHart (s : State) (id : Nat) : State :=
  quiesce (if (s.hart? id).map (·.wait) = some (.retire .sent) then commitShadow s id else s) id

/-- A hart of a gang that stops halts and is presented without a cause (R325). -/
def stopHart (s : State) (id : Nat) : State :=
  (haltHart s id).modHart id (fun r => { r with presented := some ⟨none, r.pc, 0, r.inh, 0⟩, mode := .steward })

/-- Every other Resident hart of a gang stops, once what waits in its vector queue has retired; one past its completion step exits
(R58). -/
def gangStop (s : State) (h : Hart) (id : Nat) : State :=
  match s.task? h.task with
  | none => s
  | some t =>
    if t.srec.mode % 2 = 0 then s
    else (t.harts.filter (fun e => e.2 != id)).foldl (fun s e =>
      match s.hart? e.2 with
      | some r =>
        if r.status ≠ .resident ∨ r.presented.isSome ∨ r.leaving then s
        else if r.vqueue.isEmpty then stopHart s e.2
        else s.setHart e.2 { r with stopDue := true }
      | none => s) s

/-- The entry to the task vector (R299): trap registers, a pending prefix moved to `PFXSTATE`, and the pc at `TRAPVEC`. The saved SUCC is the
address of the successor that the prefix has (R135). DESIGN CHOICE (log 74): so it stays where a restored prefix has met another address,
which the entry then writes to `TRAPPC`. -/
def enterVector (h : Hart) (cause : Cause) (pc info : Word) : Hart :=
  { h with
    trapcause := BitVec.ofNat 64 (2 ^ 16 + (if causeAsync cause then 2 ^ 8 else 0) + causeCode cause)
    trappc := pc
    trapinfo := info
    pfxstate := match h.pfx with
      | some p => packPfx p p.succ
      | none => h.pfxstate
    pfx := none
    pc := h.trapvec
    mode := .task
    exempt := false }

/-- TAKING AN EXCEPTION (R299): the hart record `h` of hart `id` takes a cause at `pc`. -/
def deliver (s : State) (id : Nat) (h : Hart) (cause : Cause) (pc info : Word) : State :=
  let f := writeFrame s h 2 pc (causeCode cause)
  let s := f.1
  let h := { f.2 with
    wait := .none, coll := none, remote := [], arrived := [], waitFrom := none, refDone := 0, issueAt := none, stalls := 0, tlbMissed := 0 }
  if routedToTask s h cause info ∧ h.trapvec.toNat / 4 ≠ 0 ∧ !h.inh then s.setHart id (enterVector h cause pc info)
  else
    let s := s.setHart id { h with presented := some ⟨some cause, pc, info, h.inh, (s.col h.column).errcol⟩, mode := .steward }
    match cause with
    | .bkpt | .waypoint | .step => if debugRoute s h cause info = 2 then gangStop s h id else s
    | _ => s

/-- The return from a trap (R274, R135, R300) but for the pc, which becomes `TRAPPC`: INH and a saved prefix; the instruction at
the return address is exempt from waypoints once (R328). -/
def returnFromTrap (h : Hart) : Hart :=
  let v := h.pfxstate.getLsbD 0
  { h with
    trapcause := h.trapcause &&& ~~~(0x10000 : Word)
    pfx := if v then some (unpackPfx h.pfxstate) else none
    pfxstate := if v then h.pfxstate - 1 else h.pfxstate
    mode := .task
    exempt := true }

/-- The virtual address of an alerted way-row for a hart: through its row window entries, else its stack's TLB; the physical
address where neither holds the page. -/
def alertAddress (s : State) (h : Hart) (id pa : Nat) : Nat :=
  let page := pa / 2 ^ 21
  match (s.col h.column).rowWin.find? (fun e => e.hart == id && e.leaf / 2 ^ 21 % 2 ^ 27 == page) with
  | some e => e.vpage * 2 ^ 21 + pa % 2 ^ 21
  | none =>
    match (s.stk h.stack).tlb.find? (fun e => e.root == s.rootOf h && e.leaf / 2 ^ 21 % 2 ^ 27 == page) with
    | some e => e.vpage * 2 ^ 21 + pa % 2 ^ 21
    | none => pa

/-- The asynchronous cause that is due at an instruction boundary, with its `TRAPINFO` and the hart without it (R302). -/
def dueAsync (s : State) (id : Nat) (h : Hart) : Option (Cause × Word × Hart) :=
  if h.pendLane then some (.laneLoss, BitVec.ofNat 64 h.lanes, { h with pendLane := false })
  else if h.inh then none
  else match h.pendAlert with
    | pa :: rest => some (.actAlert, BitVec.ofNat 64 (alertAddress s h id pa / 1024 * 1024), { h with pendAlert := rest })
    | [] => match h.pendRef with
      | c :: rest => some (.refDeadline, wordOfInt (s.col c).debt, { h with pendRef := rest })
      | [] => if h.pendFilm then some (.filmFull, h.filmstat, { h with pendFilm := false }) else none

/-! ## Waypoints (R327, R328) -/

/-- The ACTION of a waypoint that is on: 0 trap, 1 gang stop, 2 frame. -/
def waypointAction (w : Nat × Nat) : Option Nat :=
  let a := w.2 / 4 % 4
  if w.2 % 4 ≠ 0 ∧ a ≠ 3 then some a else none

/-- A PC or class waypoint matches an instruction. -/
def waypointMatches (w : Nat × Nat) (pc major : Nat) : Bool :=
  match w.2 % 4 with
  | 1 => let len := w.2 / 2 ^ 8 % 64; w.1 / 2 ^ len == pc / 2 ^ len
  | 3 => let mask := w.1 / 2 ^ 6 % 64; (major &&& mask) == (w.1 % 64 &&& mask)
  | _ => false

/-- A data waypoint meets a range of bytes, read or written. -/
def waypointMeets (w : Nat × Nat) (ranges : List (Nat × Nat)) (write : Bool) : Bool :=
  let size := 2 ^ (w.2 / 2 ^ 8 % 64)
  let lo := w.1 / size * size
  w.2 % 4 == 2 && (if write then w.2.testBit 5 else w.2.testBit 4) &&
    ranges.any (fun r => decide (0 < r.2 ∧ r.1 < lo + size ∧ lo < r.1 + r.2))

/-- The effect of waypoints that match: the lowest that traps or stops delivers, unless the instruction is exempt; those with the
frame action leave a frame for retirement. -/
def applyWaypoints (c : Ctx) (hit : Nat × Nat → Bool) : Except Stop Ctx :=
  if c.h.dbg.isNone then .ok c
  else
    let l := (List.range 4).filterMap (fun n =>
      let w := waypoint c.s c.h n
      if hit w then (waypointAction w).map (fun a => (n, a)) else none)
    match l.find? (fun e => e.2 != 2) with
    | some e =>
      if c.h.exempt then .ok (frames c l) else .error (.trap .waypoint (BitVec.ofNat 64 e.1) c)
    | none => .ok (frames c l)
where
  frames (c : Ctx) (l : List (Nat × Nat)) : Ctx :=
    (l.filter (fun e => e.2 == 2)).foldl (fun c e => c.later (.frame 5 e.1)) c

/-- Step 3 of R328: the data waypoints, given what the instruction reads and writes. -/
def dataWaypoints (c : Ctx) (reads writes : List (Nat × Nat)) : Except Stop Ctx :=
  applyWaypoints c (fun w => waypointMeets w reads false || waypointMeets w writes true)

/-! ## The film (R332 to R334) -/

/-- The result of a filmed instruction: predicate and VALUE. -/
structure FilmVal where
  pred : Bool := false
  lo   : Word := 0
  hi   : Word := 0
  deriving DecidableEq, Repr

/-- What the film asks of an instruction. -/
inductive FilmDo
  | pass
  | record (pa : Nat)
  | replay (v : FilmVal)
  deriving DecidableEq, Repr

/-- Where the next film record goes; none where the film ring has no room for it (R333), or cannot be written, which counts as full
(R322). DESIGN CHOICE (log 34): so does a film that is asked for where there is no film ring. -/
def filmRoom (s : State) (h : Hart) : State × Option Nat :=
  if (ringSize s h 2).all (fun size => decide (size < (dbgNat s h 0x30 8 - dbgNat s h 0x38 8) + 32)) then (s, none)
  else ringPlace s h 2

def filmIsFull (s : State) (h : Hart) : Bool := (filmRoom s h).2.isNone

/-- DIV of `FILMSTAT`. -/
def Hart.filmDiv (h : Hart) : Bool := h.filmstat.getLsbD 62

/-- `FILMSTAT` with SEQ, its bits [47:0], moved on (R324). -/
def nextSeq (w : Word) : Word := (w &&& 0xFFFF000000000000) ||| ((w + 1) &&& 0xFFFFFFFFFFFF)

/-- `FILMFULL` becomes pending the first time the ring is full. -/
def Ctx.noteFull (c : Ctx) : Ctx :=
  if c.h.filmFull then c else { c with h := { c.h with filmFull := true, pendFilm := true } }

/-- The replay diverges (R334). -/
def diverge {α : Type} (c : Ctx) : Except Stop α :=
  let h := { c.h with filmstat := c.h.filmstat ||| BitVec.ofNat 64 (2 ^ 62) }
  .error (.trap .filmFull h.filmstat { c with h := h })

/-- The next record of the film under replay: its 32 bytes and the context past it (R336). One that a bad piece holds cannot be read:
the replay diverges (log 62). -/
def nextRecord (c : Ctx) (kind : Nat) : Except Stop ((List Byte) × Ctx) :=
  match ringSize c.s c.h 2, c.h.dbg with
  | some size, some d =>
    let r := dbgNat c.s c.h 0x38 8
    if r = dbgNat c.s c.h 0x30 8 then diverge c
    else match hartTranslate c.s c.h ⟨true, false, false⟩ (ringAddress c.s c.h 2 size r) with
      | (_, .error _) => diverge c
      | (s, .ok (pa, leaf)) =>
        let c := ({ c with s := s } : Ctx).global (fun s =>
          recordPieces (readAccess s [(pa, leafUc leaf)] false (.base c.id)) 1 (piecesOf pa 32))
        let bytes := readBytes c.s pa 32
        if badBytes c.s pa 32 ∨ (bytes.getD 6 0).toNat ≠ kind ∨ ofBytes ((bytes.drop 8).take 4) ≠ c.s.pcOffset c.h c.h.pc then
          diverge c
        else .ok (bytes, { c with
          s := writeBytes c.s 1 (d + 0x38) (toBytes 8 (r + 32))
          h := { c.h with filmstat := nextSeq c.h.filmstat } })
  | _, _ => diverge c

/-- What the film asks of the next filmed event of the given KIND. In STALL mode a full ring makes the instruction wait. While DIV = 1
nothing is replayed, and SEQ holds (R324). -/
def filmGate (c : Ctx) (kind : Nat) : Except Stop (FilmDo × Ctx) :=
  if c.h.filmDiv then .ok (.pass, c) else
  match c.h.filmMode with
  | 0 => .ok (.pass, c)
  | 3 => do
    let (b, c) ← nextRecord c kind
    .ok (.replay ⟨(b.getD 7 0).toNat % 2 == 1, BitVec.ofNat 64 (ofBytes ((b.drop 16).take 8)),
      BitVec.ofNat 64 (ofBytes ((b.drop 24).take 8))⟩, c)
  | m =>
    if c.h.filmstat.getLsbD 63 then .ok (.pass, c)
    else match filmRoom c.s c.h with
      | (s, some pa) => .ok (.record pa, { c with s := s })
      | (s, none) =>
        let c := ({ c with s := s } : Ctx).noteFull
        if m = 1 then .error (.wait .film c)
        else .ok (.pass, { c with h := { c.h with filmstat := c.h.filmstat ||| BitVec.ofNat 64 (2 ^ 63) } })

/-- The steward keeps what a hart records as its film, for a replay in its partition (R334, R336, R347). -/
def keepFilm (c : Ctx) (bytes : List Byte) : Ctx :=
  let part := c.s.partOf c.h
  match c.h.filmNo with
  | some n => { c with s := { c.s with films := c.s.films.set n (part, (c.s.films.getD n (part, [])).2 ++ bytes) } }
  | none => { c with s := { c.s with films := c.s.films ++ [(part, bytes)] }, h := { c.h with filmNo := some c.s.films.length } }

/-- Writes a film record of the instruction at the place found for it, with SEQ, and counts it. -/
def filmRecord (c : Ctx) (pa kind : Nat) (pred : Bool) (value : List Byte) : Ctx :=
  let bytes := toBytes 6 (c.h.filmstat.toNat % 2 ^ 48) ++ toBytes 1 kind ++ toBytes 1 pred.toNat
    ++ toBytes 4 (c.s.pcOffset c.h c.h.pc) ++ toBytes 4 0 ++ value
  let r := putRecord c.s c.h 2 pa bytes
  let c := keepFilm { c with s := r.1, h := { r.2 with filmstat := nextSeq r.2.filmstat } } bytes
  if filmIsFull c.s c.h then c.noteFull else c

/-- An instruction whose result is filmed with KIND 1 to 11: `run` performs its action and finds the result, `replayed` what it
does in its place under replay, `result` writes the result. -/
def filmed (kind : Nat) (c : Ctx) (run : Ctx → Except Stop (FilmVal × Ctx)) (replayed : Ctx → FilmVal → Ctx)
    (result : FilmVal → Ctx → Ctx) : Except Stop Ctx := do
  let (g, c) ← filmGate c kind
  match g with
  | .replay v => .ok (result v (replayed c v))
  | .pass => do
    let (v, c) ← run c
    .ok (result v c)
  | .record pa => do
    let (v, c) ← run c
    .ok (result v (filmRecord c pa kind v.pred (toBytes 8 v.lo.toNat ++ toBytes 8 v.hi.toNat)))

/-- DIGEST of lane words (R332). -/
def digest (ws : List LaneWord) : List Byte :=
  Config.shake256 (ws.flatMap (fun w => toBytes 4 (if w.poison then 0x7FA00BAD else w.val.toNat))) 16

/-- What the film asks of a digest of the given KIND, before its instruction reads anything; none where the instruction is not filmed. Under
replay the digest is compared afterwards. -/
def digestGate (kind : Nat) (filmed : Bool) (c : Ctx) : Except Stop (Option FilmDo × Ctx) :=
  if !filmed then .ok (none, c)
  else if c.h.filmMode = 3 then .ok (some .pass, c)
  else do
    let (g, c) ← filmGate c kind
    .ok (some g, c)

/-- A filmed instruction of KIND 12 to 14, after it has found the lane words that it writes, with what the film asked. -/
def filmedDigest (kind : Nat) (c : Ctx) (g : Option FilmDo) (ws : List LaneWord) : Except Stop Ctx :=
  match g with
  | none => .ok c
  | some (.record pa) => .ok (filmRecord c pa kind false (digest ws))
  | some _ =>
    if c.h.filmMode = 3 ∧ !c.h.filmDiv then do
      let (b, c') ← nextRecord c kind
      if (b.drop 16).take 16 = digest ws then .ok c' else diverge c
    else .ok c

/-- A digest of lane words that are at hand. -/
def filmedNow (kind : Nat) (c : Ctx) (ws : List LaneWord) : Except Stop Ctx := do
  let (g, c) ← digestGate kind true c
  filmedDigest kind c g ws

/-! ## Issue and retirement -/

/-- Majors of the instructions that occupy a vector queue entry (R220). -/
def isVectorMajor (m : Nat) : Bool := decide (0x18 ≤ m ∧ m ≤ 0x38)

/-- Majors of the vector, tile and small-matrix instructions, which the issue duty limits (R358). -/
def issuesVector (m : Nat) : Bool := decide (0x1C ≤ m ∧ m ≤ 0x38)

/-- Majors that a prefix may govern (R134). -/
def prefixable (m : Nat) : Bool :=
  decide ((0x1C ≤ m ∧ m ≤ 0x25) ∨ m = 0x27 ∨ (0x2C ≤ m ∧ m ≤ 0x30))

/-- Instructions whose retirement can be a step of its own: vector instructions that act on nothing but their hart's own
registers before they retire (R174), and the scalar instructions whose latency is not fixed (R150, R151). -/
def retiresApart (i : Instr) : Option Apart :=
  match i with
  | .wb .. | .wbk .. | .pre .. | .preall | .ref .. | .refn .. | .vcapp .. | .vgeom .. | .fence .. | .texit | .tyield | .tinfo ..
  | .keyrel .. => none
  | _ => match i.major with
    | some m =>
      if m = 0x14 then some .load
      else if m = 0x16 ∨ m = 0x3C then some .sent
      else if (0x18 ≤ m ∧ m ≤ 0x2C) ∨ m = 0x2F ∨ m = 0x30 ∨ m = 0x34 ∨ m = 0x38 then some .vector
      else none
    | none => none

/-- The pc after an instruction that retires at the hart's pc without a transfer, the loop stack, and the target of a
fall-through out of a loop (R159). -/
def loopNext (h : Hart) : Word × List LoopEntry × Option Word :=
  match h.loops with
  | [] => (h.pc + 4, [], none)
  | e :: rest =>
    if h.pc ≠ e.last then (h.pc + 4, h.loops, none)
    else if e.remaining - 1 ≠ 0 then (e.start, { e with remaining := e.remaining - 1 } :: rest, none)
    else (e.last + 4, rest, some (e.last + 4))

/-- Writes a memory sample (R330). WCONF, which only timing decides, is free, and so is CPE where no element counts. -/
def writeSample (s : State) (h : Hart) (cls elems lines pages acts sconf : Nat) : State × Hart :=
  let t (n : Nat) : Nat := (Config.freeWord (s.free + n)).toNat
  let cap (b v : Nat) : Nat := if v < 2 ^ b then v else 2 ^ b - 1
  let shown (bit v : Nat) : Nat := if h.shows bit then v else 0
  let issue := h.issueAt.getD h.cycle
  let cpe := if elems = 0 then t 1 else cap 16 ((h.cycle - issue).toNat * 16 / elems)
  let bytes := toBytes 8 (shown 0 issue.toNat) ++ toBytes 4 (shown 1 (s.pcOffset h h.pc)) ++ toBytes 1 cls
    ++ toBytes 1 (if h.ctl.getLsbD 8 then 0 else h.missed.toNat) ++ toBytes 2 (shown 4 (cap 16 sconf)) ++ toBytes 4 (shown 3 elems)
    ++ toBytes 2 (shown 3 (cap 16 lines)) ++ toBytes 2 (shown 3 (cap 16 pages)) ++ toBytes 1 (shown 3 (cap 8 h.tlbMissed))
    ++ toBytes 1 (shown 3 (cap 8 h.stalls)) ++ toBytes 2 (shown 3 (cap 16 acts)) ++ toBytes 2 (shown 4 (t 0))
    ++ toBytes 2 (shown 4 cpe)
  let r := ringWrite { s with free := s.free + 2 } h 1 bytes
  (r.1.1, { r.1.2 with sampleDue := false, missed := r.1.2.missed && !r.2 })

/-- The count of retired vector instructions and the end of an exposure (R330). -/
def countVector (h : Hart) : Hart :=
  let n := h.expo + 1
  let len := 2 ^ (h.ctl.toNat / 16 % 16 + 4)
  let h := { h with expo := n }
  if h.ctl.getLsbD 3 && n % len == 0 then { h with sampleDue := true, missed := h.missed || h.sampleDue } else h

/-- What is left for retirement: frames and a sample. -/
def applyTodo (s : State) (h : Hart) (pc : Word) (todo : List AtRetire) : State × Hart :=
  todo.foldl (fun (a : State × Hart) e => match e with
    | .frame kind aux => writeFrame a.1 a.2 kind pc aux
    | .sample cls elems lines pages acts sconf =>
      if a.2.ctl.getLsbD 3 && a.2.sampleDue then writeSample a.1 a.2 cls elems lines pages acts sconf else a
    | .swTrap _ => a) (s, h)

/-- The code of a `TRAP` that has retired. -/
def swTrapOf (todo : List AtRetire) : Option Word :=
  todo.findSome? (fun e => match e with
    | .swTrap c => some c
    | _ => none)

/-- Puts a retired hart in its place. Where its retirement is a step of its own, the result is held apart (R174), and the hart
stands as before the instruction (`h0`) but for the accesses that have been made. A hart with a debug block retires in one step,
so that its records are written once. -/
def settleHart (i : Instr) (h0 : Hart) (s : State) (id : Nat) (h : Hart) : State :=
  match retiresApart i with
  | some kind =>
    if h.defer && h.dbg.isNone && h.status == .resident then
      { s.setHart id { h0 with
          wait := .retire kind, defer := false, stores := h.stores, elems := h.elems, elemSeq := h.elemSeq, met := h.met
          pendAlert := h.pendAlert, remote := h.remote, arrived := h.arrived } with
        shadows := put s.shadows id h }
    else s.setHart id h
  | none => s.setHart id h

/-- The hart that has gone past an instruction, with the next pc and the loop stack. -/
def Hart.goPast (h : Hart) (i : Instr) (pc : Word) (loops : List LoopEntry) : Hart :=
  { h with
    pc := pc, loops := loops, instret := h.instret + 1, exempt := h.exempt && i == .rft
    wait := .none, waitFrom := none, refDone := 0, issueAt := none, stalls := 0, tlbMissed := 0 }

/-- The hart as an instruction that retires leaves it. -/
def Hart.moveOn (h : Hart) (i : Instr) (pc : Word) (loops : List LoopEntry) : Hart :=
  let h := h.goPast i pc loops
  if i.major.any isVectorMajor then countVector h else h

/-- The end of a retirement: `SWTRAP` or `STEP` follows, or the hart stands in its place (R301, R326). -/
def endRetire (i : Instr) (h0 : Hart) (id : Nat) (todo : List AtRetire) (s : State) (h : Hart) : State :=
  match swTrapOf todo with
  | some code => deliver s id h .swTrap h.pc code
  | none =>
    if h.ctl.getLsbD 9 ∧ h.mode = .task ∧ !h0.inh ∧ i ≠ .texit ∧ i ≠ .rft ∧ h.status = .resident then deliver s id h .step h.pc 0
    else settleHart i h0 s id h

/-- What an instruction leaves for its retirement, with the frame of a fall-through out of a loop to the target (R159, R329). -/
def Ctx.leaves (c : Ctx) (target : Option Word) : List AtRetire :=
  c.todo ++ (target.map (fun t => AtRetire.frame 1 (c.s.pcOffset c.h t))).toList

/-- A vector instruction that its hart goes past before it retires (R220): one behind others, or one whose accesses come after it. -/
def outruns (i : Instr) (h0 : Hart) (c : Ctx) : Bool :=
  i.major.any isVectorMajor && (!c.h.vqueue.isEmpty || c.h.elems.any (fun e => e.isLate && e.seq == h0.elemSeq))

/-- The entry of the vector queue for an instruction at the hart's pc, with what is left for its retirement. -/
def Hart.entry (h : Hart) (word : Word) (regs : AMap VReg) (done : Bool) (todo : List AtRetire) : Queued :=
  ⟨h.elemSeq, word, h.pc, h.x, h.p, h.k, h.vl, h.pfx, done, regs, todo, h.issueAt, h.stalls, h.tlbMissed⟩

/-- The hart has gone past an instruction that is done but for its retirement. -/
def Hart.outrun (h : Hart) (i : Instr) (h0 : Hart) (pc : Word) (loops : List LoopEntry) (todo : List AtRetire) : Hart :=
  { h.goPast i pc loops with
    vqueue := h.vqueue ++ [{ h.entry i.word [] true todo with seq := h0.elemSeq }]
    elemSeq := if h.elemSeq = h0.elemSeq then h0.elemSeq + 1 else h.elemSeq }

/-- RETIREMENT: the instruction's results become the hart's state; the pc, the loop stack and the counters move on; then `SWTRAP`
or `STEP` follows (R159, R172, R174, R301, R326, R328). A vector instruction that its hart goes past leaves an entry in the vector queue
until it retires. -/
def retire (i : Instr) (h0 : Hart) (c : Ctx) : State :=
  let next := if c.taken then (c.npc, c.h.loops, none) else loopNext c.h
  let todo := c.leaves next.2.2
  if outruns i h0 c then { c.s.setHart c.id (c.h.outrun i h0 next.1 next.2.1 todo) with cur := none }
  else
    let a := applyTodo c.s c.h c.h.pc todo
    endRetire i h0 c.id c.todo { a.1 with cur := none } (a.2.moveOn i next.1 next.2.1)

/-- The pairing of a pending prefix with its successor (R134, R135). -/
def pairing (i : Instr) (c : Ctx) : Except Stop Unit :=
  match c.gov with
  | none => .ok ()
  | some p => legal (p.succ == c.h.pc.extractLsb' 2 46 && ((i.major.map prefixable).getD false)) c

/-- Waypoints on pc and class, the checks common to all instructions, then the instruction's own meaning (R140, R328). -/
def runInstr (i : Instr) (m : Meaning) (c : Ctx) : Except Stop Ctx := do
  let c ← applyWaypoints c (fun w => waypointMatches w c.h.pc.toNat (i.major.getD 0))
  pairing i c
  m c

/-- The context in which a hart's instruction starts: its pending prefix governs it. One that issues again after a wait keeps the cycle
of its first issue. -/
def startCtx (s : State) (id : Nat) (h : Hart) (word : Word) : Ctx :=
  ⟨s, id, { h with pfx := none, wait := .none, named := .nothing, issueAt := some (h.issueAt.getD h.cycle) }, h.pc + 4, false, h.pfx,
    word, []⟩

/-- The sequencer's account of a hart that it has picked and that has issued nothing is as before (R293). -/
def unpick (s : State) (id : Nat) (h : Hart) : State :=
  (s.modCol h.column (fun k => { k with lastCtx := k.lastWas, issues := k.issuesWas })).setHart id { h with idle := h.idleWas }

/-- Waits of an instruction that has issued: between the row-sets of a `REF`, at the join of a collective, at a barrier and in `WAITEV` (R186,
R214, R262, R273). -/
def Wait.issued : Wait → Bool
  | .refresh | .collective | .barrier | .waitev _ => true
  | _ => false

/-- A hart whose instruction waits; by any other wait it has not issued. -/
def notIssued (s : State) (id : Nat) (h : Hart) (w : Wait) : State :=
  if w.issued then s.setHart id { h with wait := w }
  else unpick s id { h with
    wait := w
    stalls := match w with
      | .staleRow _ => h.stalls + 1
      | _ => h.stalls }

/-- The end of an instruction: it retires, or takes its trap with the prefix pending again, or waits. -/
def settle (i : Instr) (h : Hart) : Except Stop Ctx → State
  | .ok c => retire i h c
  | .error (.trap cause info c) =>
    deliver { c.s with cur := none } c.id { c.h with pfx := h.pfx, exempt := false } cause h.pc info
  | .error (.wait w c) => { notIssued c.s c.id { c.h with pfx := h.pfx } w with cur := none }

/-! ## The vector queue (R173, R220, R301) -/

/-- Instructions that can pass their checks before what they read has come, and that write nothing but vector registers and lane scratch: they
wait for it in the vector queue, and the scalar stream goes on. The indexes of some decide of what they check. -/
def queueable (h : Hart) (i : Instr) : Bool :=
  match i with
  | .vcmpEq .. | .vcmpNe .. | .vcmpLt .. | .vcmpLtu .. | .vcmpGe .. | .vcmpGeu .. | .vcmpEqVx .. | .vcmpNeVx .. | .vcmpLtVx ..
  | .vcmpLtuVx .. | .vcmpGeVx .. | .vcmpGeuVx .. | .vext .. | .vcapp .. => false
  | .vlsx _ v _ _ _ | .vssx _ v _ _ _ | .vperm _ _ v _ _ _ => !h.awaits v
  | _ => i.major.any (fun m => decide ((0x1C ≤ m ∧ m ≤ 0x25) ∨ m = 0x2F ∨ m = 0x30))

/-- Instructions that go on while others wait in the vector queue: they read and write nothing of which the queue decides, look at the queue
for each register that they name, or for everything. -/
def goesOn (h : Hart) (i : Instr) : Bool :=
  match i with
  | .vsetvl .. => !h.chans.any (fun e => e.2.auto && h.engages e.2.dest)
  | .sstep n => !(find? h.chans n.toNat).any (fun ch => h.engages ch.dest)
  | .vlsx .. | .vssx .. | .vgeom .. => false
  | .svfence | .tspawn .. | .qpush .. | .qpop .. | .keyq .. | .strip .. | .tinfo .. | .bar .. | .bara .. | .barw .. | .waitev .. | .mark ..
  | .bbh .. | .vcapp .. | .scfg .. | .sstat .. | .sclose .. => true
  | _ => i.major.any (fun m => decide (m ≤ 0x09 ∨ (0x10 ≤ m ∧ m ≤ 0x1A) ∨ m = 0x26 ∨ (0x2C ≤ m ∧ m ≤ 0x2E)))

/-- The instruction is not issued until something on its way has been performed. -/
def holdBack (s : State) (id : Nat) (h : Hart) : State := { notIssued s id h .access with cur := none }

/-- The registers that an instruction names, as far as its checks go. -/
def Hart.headers (h : Hart) (word : Word) (pfx : Option Pfx) : AMap VReg :=
  putAll [] ((namedRegs h word pfx).map (fun v => (v.toNat, { h.getV v with words := [] })))

/-- An instruction that has passed its checks leaves for the vector queue. -/
def enterQueue (i : Instr) (s : State) (id : Nat) (h : Hart) (todo : List AtRetire) : State :=
  let next := loopNext h
  { s.setHart id { h.goPast i next.1 next.2.1 with
      vqueue := h.vqueue ++ [h.entry i.word (h.headers i.word h.pfx) false todo], elemSeq := h.elemSeq + 1, pfx := none } with cur := none }

/-- An instruction that waits for a register: it leaves for the vector queue, when it can and there is room, once its checks pass whatever
is still to come. -/
def tryQueue (i : Instr) (s : State) (id : Nat) (h : Hart) (m : Meaning) : State :=
  if queueable h i && decide (h.queued < 16) then
    match runInstr i m (startCtx s id { h with elems := [], vqueue := [] } i.word) with
    | .ok c => enterQueue i s id h (c.leaves (loopNext h).2.2)
    | .error _ => holdBack s id h
  else holdBack s id h

/-- The hart with which an instruction of the vector queue runs: what it left with, and what was to be written before it. -/
def Hart.forHead (h : Hart) (q : Queued) : Hart :=
  { h with
    atHead := false, vqueue := [], elems := h.elems.filter (fun e => decide (e.seq < q.seq)), dbg := none
    v := q.regs.foldl (fun m e => put m e.1 { e.2 with words := (look h.v e.1 {}).words }) h.v
    pc := q.pc, x := q.x, p := q.p, k := q.k, vl := q.vl, pfx := q.pfx }

/-- Its results become the hart's state; it is done but for its retirement. -/
def Hart.headDone (h : Hart) (q : Queued) (r : Hart) : Hart :=
  { h with
    v := q.regs.foldl (fun m e => put m e.1 { look h.v e.1 {} with words := (look r.v e.1 {}).words }) h.v
    rnd := r.rnd, fpflags := r.fpflags, scratch := r.scratch, atHead := false
    vqueue := h.vqueue.map (fun e => if e.seq = q.seq then { e with done := true, regs := [], issued := some h.cycle } else e)
    wait := if h.wait = .access then .none else h.wait }

/-- The first instruction that waits in the vector queue, run with what it left with. -/
def runHead (i : Instr) (s : State) (id : Nat) (h : Hart) (m : Meaning) : State :=
  let s := { s with cur := none }
  match h.firstWaiting with
  | none => s.setHart id { h with atHead := false }
  | some q =>
    match runInstr i m (startCtx s id (h.forHead q) q.word) with
    | .error _ => s.setHart id { h with atHead := false }
    | .ok c => c.s.setHart id (h.headDone q c.h)

/-- The oldest instruction of the vector queue is done, and nothing of it that must come before its retirement is on its way. -/
def Hart.canRetire (h : Hart) : Option Queued :=
  h.vqueue.head?.filter (fun q => q.done && !h.elems.any (fun e => e.isLate && e.seq == q.seq))

/-- It retires, with what it has left for that. -/
def retireFront (s : State) (id : Nat) (h : Hart) (q : Queued) : State :=
  let a := applyTodo s { h with pc := q.pc, issueAt := q.issued, stalls := q.stalls, tlbMissed := q.tlbMissed } q.pc q.todo
  let s := a.1.setHart id { countVector a.2 with
    pc := h.pc, issueAt := h.issueAt, stalls := h.stalls, tlbMissed := h.tlbMissed, vqueue := h.vqueue.drop 1
    wait := if h.wait = .access then .none else h.wait }
  if h.stopDue ∧ h.vqueue.length ≤ 1 then stopHart s id else s

/-- An instruction other than those of the vector queue leaves records for its retirement. -/
def records (i : Instr) (h0 : Hart) (c : Ctx) : Bool :=
  h0.dbg.isSome && !i.major.any isVectorMajor && !(c.leaves (if c.taken then none else (loopNext c.h).2.2)).isEmpty

/-- An instruction at the hart's pc. A cause of its own waits until every earlier instruction has retired (R301), and what it then finds is
found again; so do the records that it leaves (R329). -/
def runNow (i : Instr) (s : State) (id : Nat) (h : Hart) (m : Meaning) : State :=
  match runInstr i m (startCtx s id h i.word) with
  | .error (.trap cause info c) => if h.caughtUp then settle i h (.error (.trap cause info c)) else holdBack s id h
  | .error (.wait .access c) => if h.caughtUp then settle i h (.error (.wait .access c)) else tryQueue i s id h m
  | .error (.wait w c) => settle i h (.error (.wait w c))
  | .ok c => if !h.caughtUp && records i h c then holdBack s id h else settle i h (.ok c)

/-- An instruction word issued by the hart that the sequencer picked. -/
def issue (i : Instr) (s : State) (m : Meaning) : Host.Outcome State Fault Refusal :=
  match s.cur with
  | none => .refused .noIssuingHart
  | some id =>
    match s.hart? id with
    | none => .refused .noIssuingHart
    | some h => .next (
      if h.atHead then runHead i s id h m
      else if h.stepping && !h.caughtUp then holdBack s id h
      else if h.waiting.isEmpty then runNow i s id h m
      else if queueable h i then tryQueue i s id h m
      else if goesOn h i then runNow i s id h m
      else holdBack s id h)

/-- A transfer of control to a target that is a multiple of 4 (R126). -/
def Ctx.jump (c : Ctx) (target : Word) : Ctx := { c with npc := target, taken := true }

/-- `ILLEGAL` at the innermost loop's end address (R160). -/
def notAtLoopEnd (c : Ctx) : Except Stop Unit :=
  legal (match c.h.loops with
    | e :: _ => e.last != c.h.pc
    | [] => true) c

end Sys2Proof.Machine
end

