-- ==== Sys2Proof/Machine/Operands.lean ====
section
/-! DEFINITION. Machine/Operands.lean: vector operands: type tags, where elements lie, which positions are active, reading and
writing elements with poison, and the checks that vector instructions share (R36 to R46, R117, R174 to R177). -/

namespace Sys2Proof.Machine

/-! ## Operands (R42, R45, R138) -/

/-- An operand: a register, or a scalar that stands at every lane word, with its tag (R138, R190). -/
inductive Operand
  | reg (v : VNum) (r : VReg)
  | scalar (t : TypeTag) (w : Nat)
  deriving DecidableEq, Repr

def Operand.tag : Operand → TypeTag
  | .reg _ r => r.tag
  | .scalar t _ => t

/-- The bits of element e. -/
def Operand.bits (o : Operand) (e : Nat) : Nat :=
  match o with
  | .reg _ r => r.bits r.tag.width e
  | .scalar t w => w / 2 ^ (e * t.width % 32) % 2 ^ t.width

/-- The value of bits of a tag, before any block scale. -/
def TypeTag.value (t : TypeTag) (ftz : Bool) (b : Nat) : FVal :=
  match t.fmt? with
  | some f => f.value ftz (b % 2 ^ f.bits)
  | none =>
    if t = .mxInt8 then (ofIntV (signed 8 b)).scale (-6)
    else ofIntV (if t.isSigned then signed t.width b else b)

/-- The value of element e (R105, R107). -/
def Operand.value (h : Hart) (o : Operand) (e : Nat) : FVal :=
  let v := o.tag.value h.ftz (o.bits e)
  match o with
  | .reg _ r =>
    if r.tag.isMx then
      let x := (h.scaleOf r (elemWord r.tag.width e)).1
      if x = 255 then .nan else v.scale ((x : Int) - 127)
    else v
  | .scalar .. => v

/-- Element e of an operand is poisoned. -/
def Operand.poisoned (h : Hart) (o : Operand) (e : Nat) : Bool :=
  match o with
  | .reg _ r => h.badElem r e
  | .scalar t _ => t.isPoisonNan (o.bits e)

/-- Element e of a register as it arrives at position p of a register of its tag: a poisoned one as the poison of its type (R117). -/
def Hart.moved (h : Hart) (r : VReg) (p e : Nat) : Elem :=
  if h.badElem r e then ⟨p, r.tag.poisonBits, true⟩ else ⟨p, r.bits r.tag.width e, false⟩

/-- The element of an operand of width w that index i selects at governing width wg (R42). -/
def selects (wg w part i : Nat) : Nat := if w < wg then i * (wg / w) + part else i

/-! ## Active positions (R43, R176) -/

/-- The governing mask lets position i through. -/
def Ctx.masked (c : Ctx) (i : Nat) : Bool :=
  match c.gov with
  | none => true
  | some p => hasBit (c.h.getK p.k) i != p.pol

/-- Positions below `vl` and the capacity at width wg. -/
def Ctx.positions (c : Ctx) (wg : Nat) : List Nat := List.range (min c.h.vl (c.h.capacity wg))
def Ctx.active (c : Ctx) (wg : Nat) : List Nat := (c.positions wg).filter c.masked
/-- The prefix asks for zeroes at inactive positions. -/
def Ctx.zeroing (c : Ctx) : Bool := match c.gov with
  | some p => p.zero
  | none => false
/-- Inactive positions that are zeroed. -/
def Ctx.zeroed (c : Ctx) (wg : Nat) : List Nat :=
  if c.zeroing then (c.positions wg).filter (fun i => !c.masked i) else []

/-! ## Checks -/

/-- Register numbers are declared, and the hart has lanes (R51, R129, R366). -/
def Ctx.declared (c : Ctx) (rs : List VNum) : Bool :=
  c.h.lanes != 0 && rs.all (fun r => decide (r.toNat < c.header.vregCount))

/-- A copy under the prefix is allowed, with `dest` the register that the instruction writes (R134). DESIGN CHOICE (log 74): the same holds
of a prefix that `RFT` restores from a `PFXSTATE` that software wrote, whose VCOPY matters with CPEN = 1 alone. -/
def Ctx.copyOk (c : Ctx) (dest : Option VNum) : Bool :=
  match c.gov with
  | none => true
  | some p => !p.cpen || (match dest with
    | some d => d != p.vcopy && c.declared [p.vcopy]
    | none => false)

/-- The register of a copy. -/
def Ctx.copyReg (c : Ctx) : Option VNum :=
  match c.gov with
  | some p => if p.cpen then some p.vcopy else none
  | none => none

/-- `ILLEGAL` for register numbers and prefix copies. -/
def vecLegal (c : Ctx) (rs : List VNum) (dest : Option VNum) : Except Stop Unit :=
  legal (c.declared rs && c.copyOk dest) c

/-- The copy's tag equals the destination's (R134, R44). -/
def copyTag (c : Ctx) (dest : VNum) : Except Stop Unit :=
  match c.copyReg with
  | some v => tagsOk ((c.h.getV v).sameTag (c.h.getV dest)) c
  | none => .ok ()

/-- The way of every listed lane word of a register is open, else `REGCLOSED` with the register's number (R177). -/
def needOpen (c : Ctx) (v : VNum) (words : List Nat) : Except Stop Unit :=
  let r := c.h.getV v
  need (words.all (c.h.isOpen r)) .regClosed (v.setWidth 64) c

/-- The lane words of the scales that lane words js of an MX register need (R45). -/
def Hart.scaleWords (h : Hart) (r : VReg) (js : List Nat) : List Nat := js.map (fun j => (h.scalePlace r.tag j).1)

/-- The elements of an operand lie in open ways, with the scales of an MX operand (R45, R177). -/
def needElems (c : Ctx) (o : Operand) (es : List Nat) : Except Stop Unit :=
  match o with
  | .scalar .. => .ok ()
  | .reg v r => do
    let js := es.map (elemWord r.tag.width)
    needOpen c v js
    if r.tag.isMx then needOpen c r.scale (c.h.scaleWords r js) else .ok ()

/-- Some positions of a channel's strip buffer, which an instruction reads: positions of the strip wait until they have come, and one at the
channel's fault or above takes it (R267, R269). -/
def stripOk (c : Ctx) (es : List Nat) (n : Nat) (ch : Channel) : Except Stop Unit :=
  let base := ch.k * ch.strip
  let stop := min (base + ch.strip) ch.total
  match ch.fault.filter (fun f => es.any (fun p => decide (f.1 ≤ base + p))) with
  | some (_, cause, info) => .error (.trap cause info c)
  | none => if es.any (fun p => decide (base + p < stop ∧ ch.m ≤ base + p)) then .error (.wait (.channel n) c) else .ok ()

/-- A register that the instruction reads at some elements: it waits for a transport into them (R216), and for the strips of the channels
whose buffer it is (R267, R269). DESIGN CHOICE (log 74): of several such channels that with the lowest number comes first. -/
def arrived (c : Ctx) (v : VNum) (es : List Nat) : Except Stop Unit :=
  let w := (c.h.getV v).tag.width
  if c.h.transport.any (fun t => t.vd == v && es.any (fun e => (find? t.items (elemWord w e)).isSome)) then
    .error (.wait .transport c)
  else (c.h.chans.filter (fun e => e.2.dest == v)).forM (fun e => stripOk c es e.1 e.2)

/-- A register that the instruction reads at some elements, which waits for everything that is to write it (R173, R204). -/
def readable (c : Ctx) (v : VNum) (es : List Nat) : Except Stop Unit :=
  if c.h.awaits v then .error (.wait .access c) else arrived c v es

/-- A register that is to change waits for a collective's transport and a tile load that use it (R216, R226, R245). -/
def released (c : Ctx) (v : VNum) : Except Stop Unit :=
  if c.h.transport.any (fun t => t.vd == v || t.va == v) then .error (.wait .transport c)
  else if c.h.tileLoad.any (·.src == v) then .error (.wait .tile c)
  else .ok ()

/-- A register whose contents are to change waits also for what is on its way to it or takes it (R173, R204). -/
def settled (c : Ctx) (v : VNum) : Except Stop Unit :=
  if c.h.engages v then .error (.wait .access c) else released c v

/-- A channel's strip buffer raises `PROT` where it would change, with the channel's number (R267). DESIGN CHOICE (log 74): of several such
channels the lowest number. -/
def notStrip (c : Ctx) (v : VNum) : Except Stop Unit :=
  match c.h.chans.find? (fun e => e.2.dest == v) with
  | none => .ok ()
  | some (n, _) => .error (.trap .prot (BitVec.ofNat 64 n) c)

/-- A register that the instruction writes: it waits until nothing under way uses it, and is no strip buffer. -/
def writable (c : Ctx) (v : VNum) : Except Stop Unit := do
  settled c v
  notStrip c v

/-- A register that the instruction closes, opens or retags, or into which its accesses are to come: what uses the register under way has the
tag, the ways or the place in the order that it needs. -/
def changeable (c : Ctx) (v : VNum) : Except Stop Unit := do
  released c v
  notStrip c v

/-- The elements of width w in some lane words. -/
def wordElems (w : Nat) (js : List Nat) : List Nat := js.flatMap (fun j => span (j * (32 / w)) (32 / w))

/-- A check of the scales that lane words js of an MX register need (R45). -/
def onScales (f : VNum → List Nat → Except Stop Unit) (c : Ctx) (r : VReg) (js : List Nat) : Except Stop Unit :=
  if r.tag.isMx then f r.scale (wordElems (c.h.getV r.scale).tag.width (c.h.scaleWords r js)) else .ok ()

/-- A check of the register of an operand at some elements, and of the scales of an MX operand, as any operand. -/
def onOperand (f : VNum → List Nat → Except Stop Unit) (c : Ctx) (o : Operand) (es : List Nat) : Except Stop Unit :=
  match o with
  | .reg v r => do
    f v es
    onScales f c r (es.map (elemWord r.tag.width))
  | .scalar .. => .ok ()

/-- The scales that lane words js of an MX register need are readable. -/
def readableScales (c : Ctx) (r : VReg) (js : List Nat) : Except Stop Unit := onScales (readable c) c r js

/-- Reads of an operand, with the scales of an MX operand. -/
def readableOp (c : Ctx) (o : Operand) (es : List Nat) : Except Stop Unit := onOperand (readable c) c o es

/-- The same, while earlier accesses may still be on their way to it. -/
def arrivedOp (c : Ctx) (o : Operand) (es : List Nat) : Except Stop Unit := onOperand (arrived c) c o es

/-- A register that the instruction reads at some elements, as an operand. -/
def Ctx.reg (c : Ctx) (v : VNum) : Operand := .reg v (c.h.getV v)

/-- The lane words that a copy reads and writes (R176). -/
def Ctx.copyWords (c : Ctx) (wg : Nat) : List Nat := List.range (min (ceilDiv (c.h.vl * wg) 32) c.h.vlmax)

/-- The copy of register d under the prefix: nothing under way uses the register that it writes, and its lane words lie in open ways
of both (R176, R177). -/
def needCopy (c : Ctx) (d : VNum) (wg : Nat) : Except Stop Unit :=
  match c.copyReg with
  | some v => do
    writable c v
    needOpen c v (c.copyWords wg)
    needOpen c d (c.copyWords wg)
  | none => .ok ()

/-- A second residue mismatch in the accumulation path that the instruction takes raises `DATAERR`, with the lane and lane word 0
(R232, R307). -/
def residueOk (c : Ctx) : Except Stop Unit :=
  match c.h.residue with
  | some l => .error (.trap .dataErr (BitVec.ofNat 64 l) { c with h := { c.h with residue := none } })
  | none => .ok ()

/-! ## Writing elements (R175, R176) -/

/-- Writes results to a register and makes the copy that the prefix asks for (R176). -/
def Ctx.writeV (c : Ctx) (d : VNum) (wg : Nat) (es : List Elem) : Ctx :=
  let r := (c.h.getV d).writeElems (c.h.getV d).tag.width es
  let h := c.h.setV d r
  let h := match c.copyReg with
    | some v =>
      let k := h.getV v
      h.setV v { k with words := (c.copyWords wg).foldl (fun m j => put m j (r.word j)) k.words }
    | none => h
  { c with h := h }

/-- Zero elements at the given positions. -/
def zeroElems (wg w part : Nat) (is : List Nat) : List Elem := is.map (fun i => ⟨selects wg w part i, 0, false⟩)

/-- The stochastic draw for element e of a register of width w, where the mode is SR, and the hart after it (R112, R113). -/
def Hart.draw (h : Hart) (w e : Nat) : Nat × Hart :=
  if h.rm = 4 then
    let l := h.wordLane (elemWord w e)
    let s := nextRand (h.rand l)
    (s.toNat / 2 ^ 16, { h with rnd := put h.rnd l s })
  else (0, h)

end Sys2Proof.Machine
end

