-- ==== Sys2Proof/Machine/Scalar.lean ====
section
/-! DEFINITION. Machine/Scalar.lean: majors 0x01 to 0x16: integer, compare, control flow, memory, floating and atomic
instructions (R149 to R170). -/

namespace Sys2Proof.Machine

abbrev Result := Host.Outcome State Fault Refusal

/-- xd := v (R149). -/
def ret (d : XReg) (v : Word) (c : Ctx) : Except Stop Ctx := .ok (c.setX d v)

/-! ## Integer and logic (R152 to R154) -/

/-- Leading zero bits of 64. -/
def clz64 (a : Nat) : Nat := if a = 0 then 64 else 63 - a.log2

/-- Trailing zero bits of 64. -/
def ctz64 (a : Nat) : Nat := ((List.range 64).find? a.testBit).getD 64

/-- One bits of the low n. -/
def popBits (n a : Nat) : Nat := ((List.range n).filter a.testBit).length

/-- The quotient of R153. -/
def divS (a b : Word) : Word := if b = 0 then -1 else wordOfInt (a.toInt.tdiv b.toInt)
def remS (a b : Word) : Word := if b = 0 then a else wordOfInt (a.toInt.tmod b.toInt)
def divU (a b : Word) : Word := if b = 0 then -1 else a / b
def remU (a b : Word) : Word := if b = 0 then a else a % b

def minS (a b : Word) : Word := if a.toInt ≤ b.toInt then a else b
def maxS (a b : Word) : Word := if a.toInt ≤ b.toInt then b else a
def minU (a b : Word) : Word := if a.toNat ≤ b.toNat then a else b
def maxU (a b : Word) : Word := if a.toNat ≤ b.toNat then b else a

/-- A register form (R152). -/
def binary (i : Instr) (d a b : XReg) (f : Word → Word → Word) (s : State) : Result :=
  issue i s fun c => ret d (f (c.x a) (c.x b)) c

/-- An immediate form (R154). -/
def unary (i : Instr) (d a : XReg) (f : Word → Word) (s : State) : Result :=
  issue i s fun c => ret d (f (c.x a)) c

def execAdd (d a b : XReg) (s : State) : Result := binary (.add d a b) d a b (· + ·) s
def execSub (d a b : XReg) (s : State) : Result := binary (.sub d a b) d a b (· - ·) s
def execMul (d a b : XReg) (s : State) : Result := binary (.mul d a b) d a b (· * ·) s
def execMulh (d a b : XReg) (s : State) : Result :=
  binary (.mulh d a b) d a b (fun x y => wordOfInt (x.toInt * y.toInt / 2 ^ 64)) s
def execMulhu (d a b : XReg) (s : State) : Result :=
  binary (.mulhu d a b) d a b (fun x y => BitVec.ofNat 64 (x.toNat * y.toNat / 2 ^ 64)) s
def execDiv (d a b : XReg) (s : State) : Result := binary (.div d a b) d a b divS s
def execDivu (d a b : XReg) (s : State) : Result := binary (.divu d a b) d a b divU s
def execRem (d a b : XReg) (s : State) : Result := binary (.rem d a b) d a b remS s
def execRemu (d a b : XReg) (s : State) : Result := binary (.remu d a b) d a b remU s
def execAnd (d a b : XReg) (s : State) : Result := binary (.and d a b) d a b (· &&& ·) s
def execOr (d a b : XReg) (s : State) : Result := binary (.or d a b) d a b (· ||| ·) s
def execXor (d a b : XReg) (s : State) : Result := binary (.xor d a b) d a b (· ^^^ ·) s
def execShl (d a b : XReg) (s : State) : Result := binary (.shl d a b) d a b (fun x y => x <<< (y.toNat % 64)) s
def execShr (d a b : XReg) (s : State) : Result := binary (.shr d a b) d a b (fun x y => x >>> (y.toNat % 64)) s
def execSra (d a b : XReg) (s : State) : Result := binary (.sra d a b) d a b (fun x y => x.sshiftRight (y.toNat % 64)) s
def execMin (d a b : XReg) (s : State) : Result := binary (.min d a b) d a b minS s
def execMax (d a b : XReg) (s : State) : Result := binary (.max d a b) d a b maxS s
def execMinu (d a b : XReg) (s : State) : Result := binary (.minu d a b) d a b minU s
def execMaxu (d a b : XReg) (s : State) : Result := binary (.maxu d a b) d a b maxU s
def execClz (d a : XReg) (s : State) : Result := unary (.clz d a) d a (fun x => BitVec.ofNat 64 (clz64 x.toNat)) s
def execCtz (d a : XReg) (s : State) : Result := unary (.ctz d a) d a (fun x => BitVec.ofNat 64 (ctz64 x.toNat)) s
def execPopc (d a : XReg) (s : State) : Result := unary (.popc d a) d a (fun x => BitVec.ofNat 64 (popBits 64 x.toNat)) s
def execSel (d a b : XReg) (p : PReg) (s : State) : Result :=
  issue (.sel d a b p) s fun c => ret d (if c.p p then c.x a else c.x b) c

def execAddi (d a : XReg) (imm : BitVec 16) (s : State) : Result := unary (.addi d a imm) d a (· + imm.signExtend 64) s
def execAndi (d a : XReg) (imm : BitVec 16) (s : State) : Result := unary (.andi d a imm) d a (· &&& imm.setWidth 64) s
def execOri (d a : XReg) (imm : BitVec 16) (s : State) : Result := unary (.ori d a imm) d a (· ||| imm.setWidth 64) s
def execXori (d a : XReg) (imm : BitVec 16) (s : State) : Result := unary (.xori d a imm) d a (· ^^^ imm.setWidth 64) s
def execShli (d a : XReg) (n : BitVec 6) (s : State) : Result := unary (.shli d a n) d a (· <<< n.toNat) s
def execShri (d a : XReg) (n : BitVec 6) (s : State) : Result := unary (.shri d a n) d a (· >>> n.toNat) s
def execSrai (d a : XReg) (n : BitVec 6) (s : State) : Result := unary (.srai d a n) d a (·.sshiftRight n.toNat) s
def execLui (d : XReg) (imm : BitVec 16) (s : State) : Result :=
  issue (.lui d imm) s fun c => ret d (imm.signExtend 64 <<< 16) c
def execAddpc (d : XReg) (imm : BitVec 16) (s : State) : Result :=
  issue (.addpc d imm) s fun c => ret d (c.h.pc + imm.signExtend 64 <<< 2) c

/-! ## Compare and predicates (R155, R156) -/

/-- a cc b. -/
def compare (cc : BitVec 3) (a b : Word) : Bool :=
  match cc.toNat with
  | 0 => a == b
  | 1 => a != b
  | 2 => decide (a.toInt < b.toInt)
  | 3 => decide (a.toNat < b.toNat)
  | 4 => decide (b.toInt ≤ a.toInt)
  | _ => decide (b.toNat ≤ a.toNat)

def retP (d : PReg) (v : Bool) (c : Ctx) : Except Stop Ctx := .ok (c.setP d v)

def execCmp (p : PReg) (a b : XReg) (cc : BitVec 3) (s : State) : Result :=
  issue (.cmp p a b cc) s fun c => retP p (compare cc (c.x a) (c.x b)) c
def execCmpi (p : PReg) (a : XReg) (cc : BitVec 3) (imm : BitVec 13) (s : State) : Result :=
  issue (.cmpi p a cc imm) s fun c => retP p (compare cc (c.x a) (imm.signExtend 64)) c
def execPand (d a b : PReg) (s : State) : Result := issue (.pand d a b) s fun c => retP d (c.p a && c.p b) c
def execPor (d a b : PReg) (s : State) : Result := issue (.por d a b) s fun c => retP d (c.p a || c.p b) c
def execPxor (d a b : PReg) (s : State) : Result := issue (.pxor d a b) s fun c => retP d (c.p a != c.p b) c
def execPnot (d a : PReg) (s : State) : Result := issue (.pnot d a) s fun c => retP d (!c.p a) c

/-! ## Control flow (R157 to R160) -/

/-- The frame of a taken transfer (R329). -/
def Ctx.transfer (c : Ctx) (target : Word) : Ctx := (c.jump target).later (.frame 1 (c.s.pcOffset c.h target))

def LoopEntry.holds (e : LoopEntry) (a : Word) : Bool := decide (e.start.toNat ≤ a.toNat ∧ a.toNat ≤ e.last.toNat)

/-- A taken branch leaves the loops whose body holds it and not its target (R160). -/
def breakOut (pc target : Word) : List LoopEntry → List LoopEntry
  | [] => []
  | e :: rest => if e.holds pc && !e.holds target then breakOut pc target rest else e :: rest

def execBp (p : PReg) (neg : Bool) (off : BitVec 22) (s : State) : Result :=
  issue (.bp p neg off) s fun c => do
    notAtLoopEnd c
    if c.p p == neg then .ok c
    else
      let target := c.h.pc + off.signExtend 64 <<< 2
      .ok (({ c with h := { c.h with loops := breakOut c.h.pc target c.h.loops } } : Ctx).transfer target)

def execJal (d : XReg) (imm : BitVec 14) (s : State) : Result :=
  issue (.jal d imm) s fun c => do
    notAtLoopEnd c
    .ok ((c.setX d (c.h.pc + 4)).transfer (c.h.pc + imm.signExtend 64 <<< 2))

def execJalr (d a : XReg) (imm : BitVec 14) (s : State) : Result :=
  issue (.jalr d a imm) s fun c => do
    notAtLoopEnd c
    let target := c.x a + imm.signExtend 64 <<< 2
    need (target.toNat % 4 == 0) .align target c
    .ok ((c.setX d (c.h.pc + 4)).transfer target)

/-- The body of a new loop overlaps the innermost active body without lying strictly inside it (R160). -/
def overlaps (lo hi : Word) : List LoopEntry → Bool
  | [] => false
  | e :: _ =>
    let apart := decide (hi.toNat < e.start.toNat ∨ e.last.toNat < lo.toNat)
    let inside := decide (e.start.toNat ≤ lo.toNat ∧ hi.toNat < e.last.toNat)
    !apart && !inside

def execLoop (a : XReg) (imm : BitVec 14) (s : State) : Result :=
  issue (.loop a imm) s fun c => do
    notAtLoopEnd c
    let start := c.h.pc + 4
    let last := start + imm.setWidth 64 <<< 2
    legal (decide (c.h.loops.length < 4) && !overlaps start last c.h.loops) c
    if c.x a = 0 then .ok (c.jump (last + 4))
    else .ok { c with h := { c.h with loops := ⟨start, last, c.x a⟩ :: c.h.loops } }

/-! ## Loads and stores (R161 to R163) -/

/-- The film replays the instruction at hand in place of its access (R334). -/
def Hart.replays (h : Hart) : Bool := h.filmMode == 3 && !h.filmDiv

/-- The `POISON` check of a scalar access (R162), before data waypoints (R328); one that the film replays performs no access. -/
def placeGood (c : Ctx) (va : Word) (n : Nat) (filmed : Bool) : Place → Except Stop Unit
  | .tcm _ => .ok ()
  | .mem pa _ => if filmed && c.h.replays then .ok () else needGood c pa n va

/-- A scalar load of n bytes; `sext` extends its sign. A load from a RECORD page is filmed (R332). -/
def load (i : Instr) (d a : XReg) (imm : BitVec 13) (n : Nat) (sext : Bool) (s : State) : Result :=
  issue i s fun c => do
    let va := c.x a + imm.signExtend 64
    let (p, c) ← place c va n ⟨true, false, false⟩
    placeGood c va n (match p with | .mem _ leaf => leafRec leaf | .tcm _ => false) p
    let c ← dataWaypoints c [(va.toNat, n)] []
    let get (c : Ctx) : Except Stop (FilmVal × Ctx) := do
      let (v, c) ← readPlace c va n p
      .ok (⟨false, if sext then sextWord (8 * n) v else BitVec.ofNat 64 v, 0⟩, c)
    match p with
    | .mem _ leaf =>
      if leafRec leaf then filmed 11 c get (fun c _ => c) (fun v c => c.setX d v.lo)
      else do
        let (v, c) ← get c
        .ok (c.setX d v.lo)
    | .tcm _ => do
      let (v, c) ← get c
      .ok (c.setX d v.lo)

def execLdb (d a : XReg) (imm : BitVec 13) (s : State) : Result := load (.ldb d a imm) d a imm 1 true s
def execLdbu (d a : XReg) (imm : BitVec 13) (s : State) : Result := load (.ldbu d a imm) d a imm 1 false s
def execLdh (d a : XReg) (imm : BitVec 13) (s : State) : Result := load (.ldh d a imm) d a imm 2 true s
def execLdhu (d a : XReg) (imm : BitVec 13) (s : State) : Result := load (.ldhu d a imm) d a imm 2 false s
def execLdw (d a : XReg) (imm : BitVec 13) (s : State) : Result := load (.ldw d a imm) d a imm 4 true s
def execLdwu (d a : XReg) (imm : BitVec 13) (s : State) : Result := load (.ldwu d a imm) d a imm 4 false s
def execLdd (d a : XReg) (imm : BitVec 13) (s : State) : Result := load (.ldd d a imm) d a imm 8 false s

/-- A scalar store of the low n bytes of a register. -/
def store (i : Instr) (r a : XReg) (imm : BitVec 13) (n : Nat) (s : State) : Result :=
  issue i s fun c => do
    let va := c.x a + imm.signExtend 64
    let (p, c) ← place c va n ⟨false, true, false⟩
    let c ← dataWaypoints c [] [(va.toNat, n)]
    .ok (writePlace c (toBytes n (c.x r).toNat) p)

def execStb (r a : XReg) (imm : BitVec 13) (s : State) : Result := store (.stb r a imm) r a imm 1 s
def execSth (r a : XReg) (imm : BitVec 13) (s : State) : Result := store (.sth r a imm) r a imm 2 s
def execStw (r a : XReg) (imm : BitVec 13) (s : State) : Result := store (.stw r a imm) r a imm 4 s
def execStd (r a : XReg) (imm : BitVec 13) (s : State) : Result := store (.std r a imm) r a imm 8 s

/-! ## Scalar floating point (R164 to R167) -/

/-- The floating type of a type code (R164). -/
def floatOf (t : Nat) : Fmt := if t = 0 then fp32 else if t = 1 then fp16 else bf16

def Fmt.ofWord (f : Fmt) (ftz : Bool) (w : Word) : FVal := f.value ftz (w.toNat % 2 ^ f.bits)

/-- xd := a rounded result; its flags are raised. -/
def retF (d : XReg) (r : Nat × Nat) (c : Ctx) : Except Stop Ctx :=
  .ok (({ c with h := c.h.raise r.2 } : Ctx).setX d (BitVec.ofNat 64 r.1))

/-- A floating operation of two registers. -/
def floatOp (i : Instr) (d a b : XReg) (t : BitVec 3) (f : Fmt → RMode → FVal → FVal → FVal → Nat × Nat) (s : State) :
    Result :=
  issue i s fun c =>
    let fm := floatOf t.toNat
    let z := c.h.ftz
    retF d (f fm (rne z) (fm.ofWord z (c.x d)) (fm.ofWord z (c.x a)) (fm.ofWord z (c.x b))) c

def execFadd (d a b : XReg) (t : BitVec 3) (s : State) : Result :=
  floatOp (.fadd d a b t) d a b t (fun f r _ x y => fAdd f r x y) s
def execFsub (d a b : XReg) (t : BitVec 3) (s : State) : Result :=
  floatOp (.fsub d a b t) d a b t (fun f r _ x y => fAdd f r x y.neg) s
def execFmul (d a b : XReg) (t : BitVec 3) (s : State) : Result :=
  floatOp (.fmul d a b t) d a b t (fun f r _ x y => fMul f r x y) s
def execFma (d a b : XReg) (t : BitVec 3) (s : State) : Result :=
  floatOp (.fma d a b t) d a b t (fun f r o x y => fFma f r o x y) s

/-- The bits of the minimum or maximum of two encodings (R116); a subnormal that FTZ reads as zero is returned as that zero. -/
def minMaxBits (f : Fmt) (ftz isMax : Bool) (a b : Nat) : Nat :=
  let x := f.value ftz a
  let y := f.value ftz b
  if x.isNan && y.isNan then f.canonNan.getD 0
  else
    let second := picksSecond isMax x y
    let t := if second then y else x
    if t.isZero then f.sign t.isNeg else (if second then b else a) % 2 ^ f.bits

/-- `FMIN`, `FMAX`. -/
def floatMin (i : Instr) (d a b : XReg) (t : BitVec 3) (isMax : Bool) (s : State) : Result :=
  issue i s fun c =>
    let f := floatOf t.toNat
    ret d (BitVec.ofNat 64 (minMaxBits f c.h.ftz isMax ((c.x a).toNat % 2 ^ f.bits) ((c.x b).toNat % 2 ^ f.bits))) c

def execFmin (d a b : XReg) (t : BitVec 3) (s : State) : Result := floatMin (.fmin d a b t) d a b t false s
def execFmax (d a b : XReg) (t : BitVec 3) (s : State) : Result := floatMin (.fmax d a b t) d a b t true s

/-- a cc b for values (R166, R192): 0 EQ, 1 NE, 2 LT, 4 GE. -/
def compareV (cc : Nat) (a b : FVal) : Bool :=
  match cc, cmpV a b with
  | 0, o => o == some .eq
  | 1, o => o != some .eq
  | 2, o => o == some .lt
  | _, o => o == some .gt || o == some .eq

def execFcmp (p : PReg) (a b : XReg) (cc t : BitVec 3) (s : State) : Result :=
  issue (.fcmp p a b cc t) s fun c =>
    let f := floatOf t.toNat
    retP p (compareV cc.toNat (f.ofWord c.h.ftz (c.x a)) (f.ofWord c.h.ftz (c.x b))) c

/-- The limits of an integer type code: int32, uint32, int64, uint64. -/
def intLimits (t : Nat) : Int × Int :=
  match t with
  | 4 => (-2 ^ 31, 2 ^ 31 - 1)
  | 5 => (0, 2 ^ 32 - 1)
  | 6 => (-2 ^ 63, 2 ^ 63 - 1)
  | _ => (0, 2 ^ 64 - 1)

/-- The value of a register under a type code (R167). -/
def fcvtSource (t : Nat) (ftz : Bool) (w : Word) : FVal :=
  match t with
  | 4 => ofIntV (signed 32 w.toNat)
  | 5 => ofIntV (w.toNat % 2 ^ 32)
  | 6 => ofIntV w.toInt
  | 7 => ofIntV w.toNat
  | t => (floatOf t).ofWord ftz w

def execFcvt (d a : XReg) (u t : BitVec 3) (s : State) : Result :=
  issue (.fcvt d a u t) s fun c =>
    let v := fcvtSource t.toNat c.h.ftz (c.x a)
    if u.toNat < 3 then retF d ((floatOf u.toNat).encode (rne c.h.ftz) false v) c
    else
      let l := intLimits u.toNat
      let r := toIntV (rne c.h.ftz) l.1 l.2 v
      .ok (({ c with h := c.h.raise r.2 } : Ctx).setX d (wordOfInt r.1))

/-! ## Atomics (R168 to R170) -/

/-- The operations of R168. -/
inductive AmoOp
  | add | and | or | xor | min | max | minu | maxu | swap | cas
  deriving DecidableEq, Repr

/-- m′, or none for no write, of n-bit operands. -/
def amoNew (op : AmoOp) (n m b d : Nat) : Option Nat :=
  match op with
  | .add => some ((m + b) % 2 ^ n)
  | .and => some (m &&& b)
  | .or => some (m ||| b)
  | .xor => some (m ^^^ b)
  | .min => some (if signed n b < signed n m then b else m)
  | .max => some (if signed n m < signed n b then b else m)
  | .minu => some (Nat.min m b)
  | .maxu => some (Nat.max m b)
  | .swap => some b
  | .cas => if m = d then some b else none

/-- What a load at a checked place reads in the array (R79). -/
def readRows (s : State) : Place → List Nat
  | .tcm _ => []
  | .mem pa leaf => misses s [(pa, leafUc leaf)]

/-- Writes m′ at a checked place, at its home, which activates its way-row where the read of `read` has not (R201). -/
def amoWrite (c : Ctx) (read : List Nat) (n : Nat) (m' : Nat) : Place → Ctx
  | .tcm off => writePlace c (toBytes n m') (.tcm off)
  | .mem pa _ =>
    let c := c.writeRows read [pa]
    { c with s := storeBytes c.s 1 pa (toBytes n m') }

/-- An atomic of n bytes: with release it performs every buffered store first, and always those to its own bytes, before it reads anything
(R169). Under replay it takes the recorded old value and writes m′ as a plain store (R334). A fetch-and-add of a queue's claim takes positions
(R276). -/
def amo (i : Instr) (op : AmoOp) (d a b : XReg) (ord : BitVec 2) (dw : Bool) (s : State) : Result :=
  issue i s fun c => do
    let n := if dw then 8 else 4
    let va := c.x a
    let (p, c) ← place c va n ⟨true, true, false⟩
    let c := if ord.toNat ≥ 2 then c.drainStores else match p with
      | .mem pa _ => c.drainOverlap pa n
      | .tcm _ => c
    placeGood c va n true p
    let c ← dataWaypoints c [(va.toNat, n)] [(va.toNat, n)]
    let bv := (c.x b).toNat % 2 ^ (8 * n)
    let dv := (c.x d).toNat % 2 ^ (8 * n)
    let ext (m : Nat) : Word :=
      if dw ∨ op = .minu ∨ op = .maxu then BitVec.ofNat 64 m else sextWord 32 m
    filmed 1 c
      (fun c => do
        let read := readRows c.s p
        let (m, c) ← readPlace c va n p
        let c := match p, amoNew op (8 * n) m bv dv with
          | _, none => c
          | .mem pa _, some m' =>
            if regionOf pa = .regs ∧ op = .add ∧ dw then { c with s := hubFetchAdd c.s pa (c.x b) } else amoWrite c read n m' p
          | .tcm _, some m' => amoWrite c read n m' p
        .ok (⟨false, ext m, 0⟩, c))
      (fun c v => match amoNew op (8 * n) (v.lo.toNat % 2 ^ (8 * n)) bv dv with
        | some m' => writePlace c (toBytes n m') p
        | none => c)
      (fun v c => c.setX d v.lo)

def execAmoadd (d a b : XReg) (sc : BitVec 3) (ord : BitVec 2) (dw : Bool) (s : State) : Result :=
  amo (.amoadd d a b sc ord dw) .add d a b ord dw s
def execAmoand (d a b : XReg) (sc : BitVec 3) (ord : BitVec 2) (dw : Bool) (s : State) : Result :=
  amo (.amoand d a b sc ord dw) .and d a b ord dw s
def execAmoor (d a b : XReg) (sc : BitVec 3) (ord : BitVec 2) (dw : Bool) (s : State) : Result :=
  amo (.amoor d a b sc ord dw) .or d a b ord dw s
def execAmoxor (d a b : XReg) (sc : BitVec 3) (ord : BitVec 2) (dw : Bool) (s : State) : Result :=
  amo (.amoxor d a b sc ord dw) .xor d a b ord dw s
def execAmomin (d a b : XReg) (sc : BitVec 3) (ord : BitVec 2) (dw : Bool) (s : State) : Result :=
  amo (.amomin d a b sc ord dw) .min d a b ord dw s
def execAmomax (d a b : XReg) (sc : BitVec 3) (ord : BitVec 2) (dw : Bool) (s : State) : Result :=
  amo (.amomax d a b sc ord dw) .max d a b ord dw s
def execAmominu (d a b : XReg) (sc : BitVec 3) (ord : BitVec 2) (dw : Bool) (s : State) : Result :=
  amo (.amominu d a b sc ord dw) .minu d a b ord dw s
def execAmomaxu (d a b : XReg) (sc : BitVec 3) (ord : BitVec 2) (dw : Bool) (s : State) : Result :=
  amo (.amomaxu d a b sc ord dw) .maxu d a b ord dw s
def execAmoswap (d a b : XReg) (sc : BitVec 3) (ord : BitVec 2) (dw : Bool) (s : State) : Result :=
  amo (.amoswap d a b sc ord dw) .swap d a b ord dw s
def execAmocas (d a b : XReg) (sc : BitVec 3) (ord : BitVec 2) (dw : Bool) (s : State) : Result :=
  amo (.amocas d a b sc ord dw) .cas d a b ord dw s

/-- `FENCE` (R170): with release every buffered store is performed first. The acquire part orders later accesses, which this
model performs later in any case. -/
def execFence (sc : BitVec 3) (ord : BitVec 2) (s : State) : Result :=
  issue (.fence sc ord) s fun c => .ok (if ord.toNat ≥ 2 then c.drainStores else c)

end Sys2Proof.Machine
end

