-- ==== Sys2Proof/Machine/Elementwise.lean ====
section
/-! DEFINITION. Machine/Elementwise.lean: majors 0x1C to 0x24: elementwise vector arithmetic (R190 to R192). -/

namespace Sys2Proof.Machine

/-- The elementwise operations of R138 but for compares and `VSEL`. -/
inductive VOp
  | add' | sub' | mul' | mulh' | mad' | nmad' | min' | max' | abs' | neg' | cvt' | dot' | and' | or' | xor' | shl' | shr' | div'
  | sqrt' | rcp' | rsq' | exp2' | log2' | scale'
  deriving DecidableEq, Repr

/-- The comparisons of `VCMP`. -/
inductive VCc
  | eq | ne | lt | ltu | ge | geu
  deriving DecidableEq, Repr

/-- Operand B: a vector register, a scalar register (VX), or none (unary). -/
inductive BSource
  | vec (b : VNum)
  | scal (b : XReg)
  | none
  deriving DecidableEq, Repr

/-! ## Tags (R190, R191) -/

/-- The widening pairs n → W of R191. -/
def widens (n w : TypeTag) : Bool :=
  match n, w with
  | .fp16, .fp32 | .bf16, .fp32 | .int8, .int16 | .int8, .int32 | .int16, .int32
  | .uint8, .uint16 | .uint8, .uint32 | .uint16, .uint32 => true
  | _, _ => false

/-- The type codes that a `VDOT` to fp32 multiplies. -/
def dotFloat (a b : TypeTag) : Bool :=
  let half (t : TypeTag) := t == .fp16 || t == .bf16
  let byte (t : TypeTag) := t.width == 8 && !t.isInt
  let four (t : TypeTag) := t.width == 4
  (half a && half b) || (byte a && byte b) || (four a && four b)

/-- The listed combinations D; A; B (R191). -/
def listed (op : VOp) (d a b : TypeTag) : Bool :=
  let arith (t : TypeTag) := t.isInt || t.isWide
  match op with
  | .add' | .sub' | .mul' => (d == a && a == b && arith d) || (widens a d && a == b) || (widens b d && a == d)
  | .mad' | .nmad' => (d == a && a == b && arith d) || (widens a d && a == b)
  | .min' | .max' => d == a && a == b && arith d
  | .mulh' | .and' | .or' | .xor' => d == a && a == b && d.isInt
  | .shl' | .shr' => d == a && d.isInt && b == d.unsignedOf
  | .abs' | .neg' => d == a && (d.isSigned || d.isWide)
  | .div' => d == a && a == b && d.isWide
  | .sqrt' | .rcp' | .rsq' | .exp2' | .log2' => d == a && d.isWide
  | .scale' => d == a && d.isWide && b == d.signedOf
  | .cvt' => true
  | .dot' => (d == .fp32 && dotFloat a b) ||
      (d == .int32 && a.isInt && b.isInt && a.width == b.width && a.width < 32)

/-- The tag that a scalar operand takes in a VX form (R190). -/
def scalarTag (op : VOp) (a : TypeTag) : TypeTag :=
  match op with
  | .shl' | .shr' => a.unsignedOf
  | .scale' => a.signedOf
  | _ => a

/-- Operand B under a tag for the scalar form. -/
def Ctx.operandB (c : Ctx) (b : BSource) (t a : TypeTag) : Operand :=
  match b with
  | .vec v => .reg v (c.h.getV v)
  | .scal x => .scalar t ((c.x x).toNat % 2 ^ 32)
  | .none => .scalar a 0

/-! ## Results (R192) -/

/-- The operation rounds under `FPMODE`.RM, so that SR draws (R113). -/
def rounds (op : VOp) (d a : TypeTag) : Bool :=
  match op with
  | .add' | .sub' | .mul' | .mad' | .nmad' | .dot' => !d.isInt
  | .div' | .sqrt' | .rcp' | .rsq' | .exp2' | .log2' | .scale' => true
  | .cvt' => !(d.isInt && a.isInt)
  | _ => false

/-- An integer result, modulo 2^w. -/
def wrap (w : Nat) (i : Int) : Nat × Nat := ((i % 2 ^ w).toNat, 0)

/-- The bits of an element as an integer, by its tag. -/
def TypeTag.int (t : TypeTag) (b : Nat) : Int := if t.isSigned then signed t.width b else b

/-- The range of an integer type. -/
def TypeTag.limits (t : TypeTag) : Int × Int :=
  if t.isSigned then (-2 ^ (t.width - 1), 2 ^ (t.width - 1) - 1) else (0, 2 ^ t.width - 1)

/-- A conversion to a type (R120): from bits and value of the source, and the block scale of an MX destination. DESIGN CHOICE (log 73):
a signed integer to a wider unsigned type meets two rows of R120, and takes the one that saturates. -/
def convert (d a : TypeTag) (r : RMode) (bits : Nat) (v : FVal) (scale : Nat) : Nat × Nat :=
  if d.isInt then
    let l := d.limits
    if a.isInt then wrap d.width (saturate l.1 l.2 (a.int bits))
    else let t := toIntV r l.1 l.2 v; ((t.1 % 2 ^ d.width).toNat, t.2)
  else
    let q := if d.isMx then (if scale = 255 then FVal.nan else v.scale (127 - (scale : Int))) else v
    match d.fmt? with
    | some f => f.encode r false q
    | none => toMxInt8 r q

/-- The operands of one position: bits and values of a and b, and of the old d. -/
structure Args where
  a  : Nat
  b  : Nat
  d  : Nat
  av : FVal
  bv : FVal
  dv : FVal

/-- Result bits and flags of one position, for every operation but `VDOT` (R192). -/
def resultAt (op : VOp) (dt at' bt : TypeTag) (r : RMode) (x : Args) (scale : Nat) : Nat × Nat :=
  let w := dt.width
  let ai := at'.int x.a
  let bi := bt.int x.b
  let di := dt.int x.d
  let f := (dt.fmt?).getD fp32
  match op with
  | .add' => if dt.isInt then wrap w (ai + bi) else fAdd f r x.av x.bv
  | .sub' => if dt.isInt then wrap w (ai - bi) else fAdd f r x.av x.bv.neg
  | .mul' => if dt.isInt then wrap w (ai * bi) else fMul f r x.av x.bv
  | .mulh' => wrap w (ai * bi / 2 ^ w)
  | .mad' => if dt.isInt then wrap w (di + ai * bi) else fFma f r x.dv x.av x.bv
  | .nmad' => if dt.isInt then wrap w (di - ai * bi) else fFma f r x.dv x.av.neg x.bv
  | .min' => if dt.isInt then wrap w (min ai bi) else (minMaxBits f r.ftz false x.a x.b, 0)
  | .max' => if dt.isInt then wrap w (max ai bi) else (minMaxBits f r.ftz true x.a x.b, 0)
  | .abs' => if dt.isInt then wrap w ai.natAbs else (x.a % 2 ^ (w - 1), 0)
  | .neg' => if dt.isInt then wrap w (-ai) else (x.a ^^^ 2 ^ (w - 1), 0)
  | .cvt' => convert dt at' r x.a x.av scale
  | .dot' => (0, 0)
  | .and' => (x.a &&& x.b, 0)
  | .or' => (x.a ||| x.b, 0)
  | .xor' => (x.a ^^^ x.b, 0)
  | .shl' => (x.a * 2 ^ (x.b % w) % 2 ^ w, 0)
  | .shr' => wrap w (ai / 2 ^ (x.b % w))
  | .div' => fDiv f r x.av x.bv
  | .sqrt' => fSqrt f r x.av
  | .exp2' => approxTo f 0 r x.av x.a
  | .log2' => approxTo f 1 r x.av x.a
  | .rcp' => approxTo f 2 r x.av x.a
  | .rsq' => approxTo f 3 r x.av x.a
  | .scale' => f.encode r false (x.av.scale (saturate (-4000) 4000 bi))

/-- `VDOT` at one lane word (R121): the pairs of the lane word, and the old element of D. -/
def dotAt (h : Hart) (dt : TypeTag) (a b : Operand) (r : RMode) (d : Operand) (j : Nat) : Nat × Nat :=
  let n := 32 / a.tag.width
  let es := span (j * n) n
  if dt.isInt then
    wrap 32 (es.foldl (fun (t : Int) e => t + a.tag.int (a.bits e) * b.tag.int (b.bits e)) (d.bits j))
  else
    let ts := es.map (fun e => mulV (a.value h e) (b.value h e))
    let t := sumV (r.rm == 2) ((d.value h j, 0) :: ts)
    let e := fp32.encode r false t.1
    (e.1, e.2 ||| t.2)

/-- The instruction at one position: its result, with the flags and the draw put into the hart. -/
def oneResult (op : VOp) (dv : Operand) (a b : Operand) (wg part : Nat) (acc : Hart × List Elem) (i : Nat) :
    Hart × List Elem :=
  let h := acc.1
  let dt := dv.tag
  let ed := selects wg dt.width part i
  let ea := selects wg a.tag.width part i
  let eb := selects wg b.tag.width part i
  let dr := if rounds op dt a.tag then h.draw dt.width ed else (0, h)
  let h := dr.2
  let r : RMode := ⟨h.rm, dr.1, h.ftz⟩
  let n := 32 / a.tag.width
  let readsD := op == .mad' || op == .nmad' || op == .dot'
  let scale : Nat × Bool := match dv with
    | .reg _ v => if op == .cvt' && dt.isMx then h.scaleOf v (elemWord dt.width ed) else (127, false)
    | .scalar .. => (127, false)
  let bad := (if op == .dot' then (span (i * n) n).any (fun e => a.poisoned h e || b.poisoned h e)
      else a.poisoned h ea || b.poisoned h eb) || (readsD && dv.poisoned h ed) || scale.2
  if bad then (h, ⟨ed, dt.poisonBits, true⟩ :: acc.2)
  else
    let t := if op == .dot' then dotAt h dt a b r dv i
      else resultAt op dt a.tag b.tag r ⟨a.bits ea, b.bits eb, dv.bits ed, a.value h ea, b.value h eb, dv.value h ed⟩ scale.1
    (h.raise t.2, ⟨ed, t.1, false⟩ :: acc.2)

/-- The widest of the vector operands (R42). -/
def governing (d : TypeTag) (a : TypeTag) (b : Operand) : Nat :=
  max d.width (max a.width (match b with
    | .reg _ r => r.tag.width
    | .scalar .. => 0))

/-- The part is below the ratio of the governing width to the narrowest operand (R138). -/
def partOk (op : VOp) (wg part : Nat) (d a b : TypeTag) (binary : Bool) : Bool :=
  if op == .dot' then part == 0
  else
    let least := min d.width (min a.width (if binary then b.width else a.width))
    decide (part < wg / least)

/-- An elementwise instruction (R190 to R192). -/
def elementwise (i : Instr) (op : VOp) (part : Nat) (d a : VNum) (b : BSource) (s : State) : Result :=
  issue i s fun c => do
    vecLegal c (d :: a :: (match b with | .vec v => [v] | _ => [])) (some d)
    if c.h.vl = 0 then .ok c
    else do
      let dv := Operand.reg d (c.h.getV d)
      let av := Operand.reg a (c.h.getV a)
      let bv := c.operandB b (scalarTag op av.tag) av.tag
      let binary := b != .none
      let wg := governing dv.tag av.tag bv
      tagsOk (listed op dv.tag av.tag bv.tag && partOk op wg part dv.tag av.tag bv.tag binary) c
      copyTag c d
      let act := c.active wg
      let n := 32 / av.tag.width
      let es (w : Nat) := act.map (selects wg w part)
      let as' := if op == .dot' then act.flatMap (fun j => span (j * n) n) else es av.tag.width
      let bs := if op == .dot' then as' else es bv.tag.width
      writable c d
      readableOp c av as'
      readableOp c bv bs
      needOpen c d ((es dv.tag.width ++ (c.zeroed wg).map (selects wg dv.tag.width part)).map (elemWord dv.tag.width))
      needElems c av as'
      needElems c bv bs
      if op == .cvt' && dv.tag.isMx then do
          readableScales c (c.h.getV d) ((es dv.tag.width).map (elemWord dv.tag.width))
          needElems c dv (es dv.tag.width)
        else .ok ()
      needCopy c d wg
      let r := act.foldl (oneResult op dv av bv wg part) (c.h, [])
      .ok (({ c with h := r.1 } : Ctx).writeV d wg (r.2.reverse ++ zeroElems wg dv.tag.width part (c.zeroed wg)))

/-- a cc b at one position (R192): floating compares by value, LTU and GEU unsigned, the others by tag. -/
def compareAt (cc : VCc) (t : TypeTag) (a b : Nat) (av bv : FVal) : Bool :=
  match cc with
  | .eq => if t.isInt then a == b else compareV 0 av bv
  | .ne => if t.isInt then a != b else compareV 1 av bv
  | .lt => if t.isInt then decide (t.int a < t.int b) else compareV 2 av bv
  | .ge => if t.isInt then decide (t.int b ≤ t.int a) else compareV 4 av bv
  | .ltu => decide (a < b)
  | .geu => decide (b ≤ a)

/-- `VCMP` (R192): active positions get the comparison, zeroed ones 0; poison raises `POISON` with the lowest index. -/
def compareElems (i : Instr) (cc : VCc) (part : Nat) (k : KReg) (a : VNum) (b : BSource) (s : State) : Result :=
  issue i s fun c => do
    vecLegal c (a :: (match b with | .vec v => [v] | _ => [])) none
    if c.h.vl = 0 then .ok c
    else do
      let av := Operand.reg a (c.h.getV a)
      let t := av.tag
      let bv := c.operandB b t t
      let intOnly := cc == .ltu || cc == .geu
      tagsOk (t == bv.tag && (t.isInt || (t.isWide && !intOnly)) && part == 0) c
      let wg := t.width
      let act := c.active wg
      readableOp c av act
      readableOp c bv act
      needElems c av act
      needElems c bv act
      match act.find? (fun e => av.poisoned c.h e || bv.poisoned c.h e) with
      | some e => .error (poisonAt c (.element wg) e)
      | none =>
        let m := act.foldl (fun m e =>
          putBit m e (compareAt cc t (av.bits e) (bv.bits e) (av.value c.h e) (bv.value c.h e))) (c.h.getK k)
        let m := (c.zeroed wg).foldl (fun m e => putBit m e false) m
        .ok { c with h := c.h.setK k m }

/-- `VSEL` (R193): every position below `vl` is written from va or vb, by the prefix's mask or by `k0`. DESIGN CHOICE (log 73): both
sources must be open at every position, the one not selected too. -/
def selectElems (i : Instr) (part : Nat) (d a : VNum) (b : BSource) (s : State) : Result :=
  issue i s fun c => do
    vecLegal c (d :: a :: (match b with | .vec v => [v] | _ => [])) (some d)
    if c.h.vl = 0 then .ok c
    else do
      let t := (c.h.getV d).tag
      let av := Operand.reg a (c.h.getV a)
      let bv := c.operandB b av.tag av.tag
      let same (v : VNum) : Bool := (c.h.getV d).sameTag (c.h.getV v)
      tagsOk (same a && (match b with | .vec v => same v | _ => true) && part == 0) c
      copyTag c d
      let w := t.width
      let is := c.positions w
      let pick (e : Nat) : Bool := match c.gov with
        | some _ => c.masked e
        | none => hasBit (c.h.getK 0) e
      writable c d
      readableOp c av is
      readableOp c bv is
      needOpen c d (is.map (elemWord w))
      needElems c av is
      needElems c bv is
      needCopy c d w
      let out := is.map fun e =>
        let o := if pick e then av else bv
        if o.poisoned c.h e then ⟨e, t.poisonBits, true⟩ else ⟨e, o.bits e, false⟩
      .ok (c.writeV d w out)

/-! ## The instructions -/

def execVadd (part : BitVec 3) (d a b : VNum) (ca cb dt : Bool) (s : State) : Result :=
  elementwise (.vadd part d a b ca cb dt) .add' part.toNat d a (.vec b) s
def execVsub (part : BitVec 3) (d a b : VNum) (ca cb dt : Bool) (s : State) : Result :=
  elementwise (.vsub part d a b ca cb dt) .sub' part.toNat d a (.vec b) s
def execVmul (part : BitVec 3) (d a b : VNum) (ca cb dt : Bool) (s : State) : Result :=
  elementwise (.vmul part d a b ca cb dt) .mul' part.toNat d a (.vec b) s
def execVmulh (part : BitVec 3) (d a b : VNum) (ca cb dt : Bool) (s : State) : Result :=
  elementwise (.vmulh part d a b ca cb dt) .mulh' part.toNat d a (.vec b) s
def execVmad (part : BitVec 3) (d a b : VNum) (ca cb dt : Bool) (s : State) : Result :=
  elementwise (.vmad part d a b ca cb dt) .mad' part.toNat d a (.vec b) s
def execVnmad (part : BitVec 3) (d a b : VNum) (ca cb dt : Bool) (s : State) : Result :=
  elementwise (.vnmad part d a b ca cb dt) .nmad' part.toNat d a (.vec b) s
def execVmin (part : BitVec 3) (d a b : VNum) (ca cb dt : Bool) (s : State) : Result :=
  elementwise (.vmin part d a b ca cb dt) .min' part.toNat d a (.vec b) s
def execVmax (part : BitVec 3) (d a b : VNum) (ca cb dt : Bool) (s : State) : Result :=
  elementwise (.vmax part d a b ca cb dt) .max' part.toNat d a (.vec b) s
def execVabs (part : BitVec 3) (d a : VNum) (ca dt : Bool) (s : State) : Result :=
  elementwise (.vabs part d a ca dt) .abs' part.toNat d a .none s
def execVneg (part : BitVec 3) (d a : VNum) (ca dt : Bool) (s : State) : Result :=
  elementwise (.vneg part d a ca dt) .neg' part.toNat d a .none s
def execVcvt (part : BitVec 3) (d a : VNum) (ca dt : Bool) (s : State) : Result :=
  elementwise (.vcvt part d a ca dt) .cvt' part.toNat d a .none s
def execVdot (part : BitVec 3) (d a b : VNum) (ca cb dt : Bool) (s : State) : Result :=
  elementwise (.vdot part d a b ca cb dt) .dot' part.toNat d a (.vec b) s
def execVand (part : BitVec 3) (d a b : VNum) (ca cb dt : Bool) (s : State) : Result :=
  elementwise (.vand part d a b ca cb dt) .and' part.toNat d a (.vec b) s
def execVor (part : BitVec 3) (d a b : VNum) (ca cb dt : Bool) (s : State) : Result :=
  elementwise (.vor part d a b ca cb dt) .or' part.toNat d a (.vec b) s
def execVxor (part : BitVec 3) (d a b : VNum) (ca cb dt : Bool) (s : State) : Result :=
  elementwise (.vxor part d a b ca cb dt) .xor' part.toNat d a (.vec b) s
def execVshl (part : BitVec 3) (d a b : VNum) (ca cb dt : Bool) (s : State) : Result :=
  elementwise (.vshl part d a b ca cb dt) .shl' part.toNat d a (.vec b) s
def execVshr (part : BitVec 3) (d a b : VNum) (ca cb dt : Bool) (s : State) : Result :=
  elementwise (.vshr part d a b ca cb dt) .shr' part.toNat d a (.vec b) s
def execVdiv (part : BitVec 3) (d a b : VNum) (ca cb dt : Bool) (s : State) : Result :=
  elementwise (.vdiv part d a b ca cb dt) .div' part.toNat d a (.vec b) s
def execVsqrt (part : BitVec 3) (d a : VNum) (ca dt : Bool) (s : State) : Result :=
  elementwise (.vsqrt part d a ca dt) .sqrt' part.toNat d a .none s
def execVrcp (part : BitVec 3) (d a : VNum) (ca dt : Bool) (s : State) : Result :=
  elementwise (.vrcp part d a ca dt) .rcp' part.toNat d a .none s
def execVrsq (part : BitVec 3) (d a : VNum) (ca dt : Bool) (s : State) : Result :=
  elementwise (.vrsq part d a ca dt) .rsq' part.toNat d a .none s
def execVexp2 (part : BitVec 3) (d a : VNum) (ca dt : Bool) (s : State) : Result :=
  elementwise (.vexp2 part d a ca dt) .exp2' part.toNat d a .none s
def execVlog2 (part : BitVec 3) (d a : VNum) (ca dt : Bool) (s : State) : Result :=
  elementwise (.vlog2 part d a ca dt) .log2' part.toNat d a .none s
def execVscale (part : BitVec 3) (d a b : VNum) (ca cb dt : Bool) (s : State) : Result :=
  elementwise (.vscale part d a b ca cb dt) .scale' part.toNat d a (.vec b) s
def execVaddVx (d a : VNum) (b : XReg) (ca dt : Bool) (p : BitVec 2) (s : State) : Result :=
  elementwise (.vaddVx d a b ca dt p) .add' p.toNat d a (.scal b) s
def execVsubVx (d a : VNum) (b : XReg) (ca dt : Bool) (p : BitVec 2) (s : State) : Result :=
  elementwise (.vsubVx d a b ca dt p) .sub' p.toNat d a (.scal b) s
def execVmulVx (d a : VNum) (b : XReg) (ca dt : Bool) (p : BitVec 2) (s : State) : Result :=
  elementwise (.vmulVx d a b ca dt p) .mul' p.toNat d a (.scal b) s
def execVmulhVx (d a : VNum) (b : XReg) (ca dt : Bool) (p : BitVec 2) (s : State) : Result :=
  elementwise (.vmulhVx d a b ca dt p) .mulh' p.toNat d a (.scal b) s
def execVmadVx (d a : VNum) (b : XReg) (ca dt : Bool) (p : BitVec 2) (s : State) : Result :=
  elementwise (.vmadVx d a b ca dt p) .mad' p.toNat d a (.scal b) s
def execVnmadVx (d a : VNum) (b : XReg) (ca dt : Bool) (p : BitVec 2) (s : State) : Result :=
  elementwise (.vnmadVx d a b ca dt p) .nmad' p.toNat d a (.scal b) s
def execVminVx (d a : VNum) (b : XReg) (ca dt : Bool) (p : BitVec 2) (s : State) : Result :=
  elementwise (.vminVx d a b ca dt p) .min' p.toNat d a (.scal b) s
def execVmaxVx (d a : VNum) (b : XReg) (ca dt : Bool) (p : BitVec 2) (s : State) : Result :=
  elementwise (.vmaxVx d a b ca dt p) .max' p.toNat d a (.scal b) s
def execVdotVx (d a : VNum) (b : XReg) (ca dt : Bool) (p : BitVec 2) (s : State) : Result :=
  elementwise (.vdotVx d a b ca dt p) .dot' p.toNat d a (.scal b) s
def execVandVx (d a : VNum) (b : XReg) (ca dt : Bool) (p : BitVec 2) (s : State) : Result :=
  elementwise (.vandVx d a b ca dt p) .and' p.toNat d a (.scal b) s
def execVorVx (d a : VNum) (b : XReg) (ca dt : Bool) (p : BitVec 2) (s : State) : Result :=
  elementwise (.vorVx d a b ca dt p) .or' p.toNat d a (.scal b) s
def execVxorVx (d a : VNum) (b : XReg) (ca dt : Bool) (p : BitVec 2) (s : State) : Result :=
  elementwise (.vxorVx d a b ca dt p) .xor' p.toNat d a (.scal b) s
def execVshlVx (d a : VNum) (b : XReg) (ca dt : Bool) (p : BitVec 2) (s : State) : Result :=
  elementwise (.vshlVx d a b ca dt p) .shl' p.toNat d a (.scal b) s
def execVshrVx (d a : VNum) (b : XReg) (ca dt : Bool) (p : BitVec 2) (s : State) : Result :=
  elementwise (.vshrVx d a b ca dt p) .shr' p.toNat d a (.scal b) s
def execVdivVx (d a : VNum) (b : XReg) (ca dt : Bool) (p : BitVec 2) (s : State) : Result :=
  elementwise (.vdivVx d a b ca dt p) .div' p.toNat d a (.scal b) s
def execVscaleVx (d a : VNum) (b : XReg) (ca dt : Bool) (p : BitVec 2) (s : State) : Result :=
  elementwise (.vscaleVx d a b ca dt p) .scale' p.toNat d a (.scal b) s

/-! ## Compare -/

def execVcmpEq (part : BitVec 3) (k : KReg) (a b : VNum) (ca cb dt : Bool) (s : State) : Result :=
  compareElems (.vcmpEq part k a b ca cb dt) .eq part.toNat k a (.vec b) s
def execVcmpNe (part : BitVec 3) (k : KReg) (a b : VNum) (ca cb dt : Bool) (s : State) : Result :=
  compareElems (.vcmpNe part k a b ca cb dt) .ne part.toNat k a (.vec b) s
def execVcmpLt (part : BitVec 3) (k : KReg) (a b : VNum) (ca cb dt : Bool) (s : State) : Result :=
  compareElems (.vcmpLt part k a b ca cb dt) .lt part.toNat k a (.vec b) s
def execVcmpLtu (part : BitVec 3) (k : KReg) (a b : VNum) (ca cb dt : Bool) (s : State) : Result :=
  compareElems (.vcmpLtu part k a b ca cb dt) .ltu part.toNat k a (.vec b) s
def execVcmpGe (part : BitVec 3) (k : KReg) (a b : VNum) (ca cb dt : Bool) (s : State) : Result :=
  compareElems (.vcmpGe part k a b ca cb dt) .ge part.toNat k a (.vec b) s
def execVcmpGeu (part : BitVec 3) (k : KReg) (a b : VNum) (ca cb dt : Bool) (s : State) : Result :=
  compareElems (.vcmpGeu part k a b ca cb dt) .geu part.toNat k a (.vec b) s
def execVcmpEqVx (k : KReg) (a : VNum) (b : XReg) (ca dt : Bool) (p : BitVec 2) (s : State) : Result :=
  compareElems (.vcmpEqVx k a b ca dt p) .eq p.toNat k a (.scal b) s
def execVcmpNeVx (k : KReg) (a : VNum) (b : XReg) (ca dt : Bool) (p : BitVec 2) (s : State) : Result :=
  compareElems (.vcmpNeVx k a b ca dt p) .ne p.toNat k a (.scal b) s
def execVcmpLtVx (k : KReg) (a : VNum) (b : XReg) (ca dt : Bool) (p : BitVec 2) (s : State) : Result :=
  compareElems (.vcmpLtVx k a b ca dt p) .lt p.toNat k a (.scal b) s
def execVcmpLtuVx (k : KReg) (a : VNum) (b : XReg) (ca dt : Bool) (p : BitVec 2) (s : State) : Result :=
  compareElems (.vcmpLtuVx k a b ca dt p) .ltu p.toNat k a (.scal b) s
def execVcmpGeVx (k : KReg) (a : VNum) (b : XReg) (ca dt : Bool) (p : BitVec 2) (s : State) : Result :=
  compareElems (.vcmpGeVx k a b ca dt p) .ge p.toNat k a (.scal b) s
def execVcmpGeuVx (k : KReg) (a : VNum) (b : XReg) (ca dt : Bool) (p : BitVec 2) (s : State) : Result :=
  compareElems (.vcmpGeuVx k a b ca dt p) .geu p.toNat k a (.scal b) s

/-! ## Select -/

def execVsel (part : BitVec 3) (d a b : VNum) (ca cb dt : Bool) (s : State) : Result :=
  selectElems (.vsel part d a b ca cb dt) part.toNat d a (.vec b) s
def execVselVx (d a : VNum) (b : XReg) (ca dt : Bool) (p : BitVec 2) (s : State) : Result :=
  selectElems (.vselVx d a b ca dt p) p.toNat d a (.scal b) s

end Sys2Proof.Machine
end

