-- ==== Sys2Proof/Machine/Movement.lean ====
section
/-! DEFINITION. Machine/Movement.lean: majors 0x25 to 0x27, 0x2F and 0x30 but for `VCAPP`: data movement, masks, reductions,
permutes, compress and expand (R193 to R195, R209, R210). -/

namespace Sys2Proof.Machine

/-! ## Data movement (R193) -/

/-- An instruction that writes one value to each active position of vd, found from the position. -/
def fill (i : Instr) (d : VNum) (intOnly : Bool) (f : Ctx → Nat → Nat) (s : State) : Result :=
  issue i s fun c => do
    vecLegal c [d] (some d)
    if c.h.vl = 0 then .ok c
    else do
      let t := (c.h.getV d).tag
      let w := t.width
      tagsOk (t.isInt || !intOnly) c
      copyTag c d
      let act := c.active w
      writable c d
      needOpen c d ((act ++ c.zeroed w).map (elemWord w))
      needCopy c d w
      .ok (c.writeV d w (act.map (fun e => ⟨e, f c e % 2 ^ w, false⟩) ++ zeroElems w w 0 (c.zeroed w)))

def execVsplat (d : VNum) (b : XReg) (dt : Bool) (s : State) : Result :=
  fill (.vsplat d b dt) d false (fun c _ => (c.x b).toNat) s
def execViota (d : VNum) (dt : Bool) (s : State) : Result := fill (.viota d dt) d true (fun _ e => e) s

/-- Element bits extended to a word by their tag. DESIGN CHOICE (log 73): mxint8 is no signed tag here, and is zero-extended. -/
def TypeTag.extend (t : TypeTag) (b : Nat) : Word := if t.isSigned then sextWord t.width b else BitVec.ofNat 64 b

def execVext (d : XReg) (a : VNum) (b : XReg) (ca dt : Bool) (s : State) : Result :=
  issue (.vext d a b ca dt) s fun c => do
    vecLegal c [a] none
    let r := c.h.getV a
    let w := r.tag.width
    let j := (c.x b).toNat
    if j < min c.h.vl (c.h.capacity w) ∧ c.masked j then do
      readableOp c (c.reg a) [j]
      needElems c (c.reg a) [j]
      if c.h.badElem r j then .error (poisonAt c (.element w) j) else .ok ()
      ret d (r.tag.extend (r.bits w j)) c
    else ret d 0 c

def execVins (d : VNum) (x b : XReg) (dt : Bool) (s : State) : Result :=
  issue (.vins d x b dt) s fun c => do
    vecLegal c [d] (some d)
    if c.h.vl = 0 then .ok c
    else do
      let w := (c.h.getV d).tag.width
      let j := (c.x x).toNat
      copyTag c d
      writable c d
      let hit := decide (j < min c.h.vl (c.h.capacity w)) && c.masked j
      needOpen c d (if hit then [elemWord w j] else [])
      needCopy c d w
      .ok (c.writeV d w (if hit then [⟨j, (c.x b).toNat % 2 ^ w, false⟩] else []))

/-! ## Masks (R194) -/

/-- Positions that masks have (R194). -/
def Ctx.maskLen (c : Ctx) : Nat := min c.h.vl (c.h.vlmax * 8)

/-- A mask written below `vl` from a function of the position. -/
def maskOp (i : Instr) (d : KReg) (f : Ctx → Nat → Bool) (s : State) : Result :=
  issue i s fun c => do
    legal (c.h.lanes != 0) c
    .ok { c with h := c.h.setK d ((List.range c.maskLen).foldl (fun m e => putBit m e (f c e)) (c.h.getK d)) }

def execKand (d a b : KReg) (s : State) : Result :=
  maskOp (.kand d a b) d (fun c e => hasBit (c.h.getK a) e && hasBit (c.h.getK b) e) s
def execKor (d a b : KReg) (s : State) : Result :=
  maskOp (.kor d a b) d (fun c e => hasBit (c.h.getK a) e || hasBit (c.h.getK b) e) s
def execKxor (d a b : KReg) (s : State) : Result :=
  maskOp (.kxor d a b) d (fun c e => hasBit (c.h.getK a) e != hasBit (c.h.getK b) e) s
def execKnot (d a : KReg) (s : State) : Result := maskOp (.knot d a) d (fun c e => !hasBit (c.h.getK a) e) s
def execKmov (d a : KReg) (s : State) : Result := maskOp (.kmov d a) d (fun c e => hasBit (c.h.getK a) e) s
def execKset (d : KReg) (x : XReg) (s : State) : Result := maskOp (.kset d x) d (fun c e => decide (e < (c.x x).toNat)) s

/-- What a mask instruction returns, once the hart has masks. -/
def maskOut (i : Instr) (f : Ctx → Ctx) (s : State) : Result :=
  issue i s fun c => do
    legal (c.h.lanes != 0) c
    .ok (f c)

/-- The positions below `vl` at which a mask is set. -/
def Ctx.maskHits (c : Ctx) (a : KReg) : List Nat := (List.range c.maskLen).filter (hasBit (c.h.getK a))

def execKpop (a : KReg) (x : XReg) (s : State) : Result :=
  maskOut (.kpop a x) (fun c => c.setX x (BitVec.ofNat 64 (c.maskHits a).length)) s
def execKfirst (a : KReg) (x : XReg) (s : State) : Result :=
  maskOut (.kfirst a x) (fun c => c.setX x (match (c.maskHits a).head? with
    | some e => BitVec.ofNat 64 e
    | none => -1)) s
def execKany (p : PReg) (a : KReg) (s : State) : Result :=
  maskOut (.kany p a) (fun c => c.setP p (!(c.maskHits a).isEmpty)) s
def execKall (p : PReg) (a : KReg) (s : State) : Result :=
  maskOut (.kall p a) (fun c => c.setP p ((List.range c.maskLen).all (hasBit (c.h.getK a)))) s

/-! ## Reductions (R122, R195) -/

/-- The result type of a reduction: integer width and signedness, or a floating format. -/
inductive RedType
  | int (w : Nat) (isSigned : Bool)
  | float (f : Fmt)
  deriving DecidableEq, Repr

/-- R of R195. -/
def redType (t : TypeTag) (wide : Bool) : Option RedType :=
  if t.isInt then some (.int (if wide then 64 else t.width) t.isSigned)
  else match t, wide with
    | .fp32, false => some (.float fp32)
    | .fp32, true => none
    | .fp16, false => some (.float fp16)
    | .bf16, false => some (.float bf16)
    | _, false => none
    | _, true => some (.float fp32)

/-- Combines neighbours of a tree level; an empty leaf hands the other child on (R122). -/
def treeLevel {α : Type} (f : α → α → α) : List (Option α) → List (Option α)
  | some a :: some b :: l => some (f a b) :: treeLevel f l
  | some a :: none :: l => some a :: treeLevel f l
  | none :: b :: l => b :: treeLevel f l
  | l => l

/-- The root of the tree, by as many levels as fuel gives. -/
def treeRoot {α : Type} (f : α → α → α) : Nat → List (Option α) → Option α
  | 0, l => (l.head?).join
  | n + 1, l => if l.length ≤ 1 then (l.head?).join else treeRoot f n (treeLevel f l)

/-- A sum of two values rounded to a format, as a value, with the flags of both (R122). -/
def sumNode (f : Fmt) (ftz : Bool) (a b : FVal × Nat) : FVal × Nat :=
  let t := fAdd f (rne ftz) a.1 b.1
  (f.value ftz t.1, t.2 ||| a.2 ||| b.2)

/-- The operations of a reduction. -/
inductive RedOp
  | add | max | min
  deriving DecidableEq, Repr

/-- An integer reduction of seed and elements: bits at width w. -/
def reduceInt (op : RedOp) (w : Nat) (isSigned : Bool) (seed : Int) (es : List Int) : Word :=
  let r := es.foldl (fun (x : Int) e => match op with
    | .add => x + e
    | .max => if x < e then e else x
    | .min => if e < x then e else x) seed
  if isSigned then sextWord w (r % 2 ^ w).toNat else BitVec.ofNat 64 (r % 2 ^ w).toNat

/-- A floating reduction: the seed's bits in R, and for each position below `vl` the value of a present leaf, exact until the first sum
that it enters. -/
def reduceFloat (op : RedOp) (f : Fmt) (ftz : Bool) (seed : Nat) (leaves : List (Option FVal)) : Nat × Nat :=
  match op with
  | .add =>
    match treeRoot (sumNode f ftz) 64 (leaves.map (·.map (fun v => (v, 0)))) with
    | some r =>
      let t := fAdd f (rne ftz) (f.value ftz seed) r.1
      (t.1, t.2 ||| r.2)
    | none => (seed, 0)
  | _ =>
    let best := (leaves.filterMap id).foldl (fun x v => if picksSecond (op == .max) x v then v else x) (f.value ftz seed)
    f.encode (rne ftz) false best

/-- `VRADD`, `VRMAX`, `VRMIN`. -/
def reduction (i : Instr) (op : RedOp) (d : XReg) (a : VNum) (b : XReg) (wide : Bool) (s : State) : Result :=
  issue i s fun c => do
    vecLegal c [a] none
    if c.h.vl = 0 then ret d (c.x b) c
    else do
      let r := c.h.getV a
      let o := Operand.reg a r
      let w := r.tag.width
      match redType r.tag wide with
      | none => .error (.trap .tagMismatch c.word c)
      | some t => do
        let act := c.active w
        readableOp c o act
        needElems c o act
        match act.find? (o.poisoned c.h) with
        | some e => .error (poisonAt c (.element w) e)
        | none =>
          match t with
          | .int rw sg =>
            let seed : Int := if sg then signed rw (c.x b).toNat else ((c.x b).toNat % 2 ^ rw : Nat)
            ret d (reduceInt op rw sg seed (act.map (fun e => r.tag.int (o.bits e)))) c
          | .float f =>
            let leaves := (c.positions w).map (fun e => if c.masked e then some (o.value c.h e) else none)
            retF d (reduceFloat op f c.h.ftz ((c.x b).toNat % 2 ^ f.bits) leaves) c

def execVradd (d : XReg) (a : VNum) (b : XReg) (ca dt wide : Bool) (s : State) : Result :=
  reduction (.vradd d a b ca dt wide) .add d a b wide s
def execVrmax (d : XReg) (a : VNum) (b : XReg) (ca dt wide : Bool) (s : State) : Result :=
  reduction (.vrmax d a b ca dt wide) .max d a b wide s
def execVrmin (d : XReg) (a : VNum) (b : XReg) (ca dt wide : Bool) (s : State) : Result :=
  reduction (.vrmin d a b ca dt wide) .min d a b wide s

/-! ## Permutes (R209) -/

/-- What a position of a permute receives: an element of va, zero, or nothing; and whether the choice itself is poisoned. -/
inductive Pick
  | elem (j : Nat)
  | zero
  | keep
  | bad
  deriving DecidableEq, Repr

/-- A permute: n source positions; vb, where there is one, holds the indices. DESIGN CHOICE (log 16): of several closed registers vb
comes first, then vd, then va. -/
def permute (i : Instr) (d a : VNum) (b : Option VNum) (f : Ctx → Nat → Nat → Pick) (s : State) : Result :=
  issue i s fun c => do
    vecLegal c (d :: a :: b.toList) (some d)
    if c.h.vl = 0 then .ok c
    else do
      let r := c.h.getV a
      let w := r.tag.width
      let bt := (b.map (fun v => (c.h.getV v).tag)).getD .uint32
      tagsOk ((c.h.getV d).sameTag r && (b.isNone || (bt.isInt && bt.width == w))) c
      copyTag c d
      let n := min c.h.vl (c.h.capacity w)
      let act := c.active w
      writable c d
      match b with
        | some v => do
          readable c v act
          needOpen c v (act.map (elemWord w))
        | none => .ok ()
      let picks := act.map (fun e => (e, f c n e))
      let inactive := (picks.filter (fun p => p.2 == .keep)).map (·.1)
      let zeroes := c.zeroed w ++ (if c.zeroing then inactive else [])
      let js := picks.filterMap (fun p => match p.2 with
        | .elem j => some j
        | _ => none)
      readableOp c (c.reg a) js
      needOpen c d (((picks.filter (fun p => p.2 != .keep)).map (·.1) ++ zeroes).map (elemWord w))
      needElems c (c.reg a) js
      needCopy c d w
      let out := picks.filterMap (fun p => match p.2 with
        | .elem j => some (c.h.moved r p.1 j)
        | .zero => some ⟨p.1, 0, false⟩
        | .bad => some ⟨p.1, r.tag.poisonBits, true⟩
        | .keep => none)
      .ok (c.writeV d w (out ++ zeroElems w w 0 zeroes))

def execVperm (d a b : VNum) (ca cb dt : Bool) (s : State) : Result :=
  permute (.vperm d a b ca cb dt) d a (some b) (fun c n e =>
    let r := c.h.getV b
    let j := r.bits r.tag.width e
    if (r.word (elemWord r.tag.width e)).poison then .bad else if j < n then .elem j else .zero) s
def execVrot (d a : VNum) (b : XReg) (ca dt : Bool) (s : State) : Result :=
  permute (.vrot d a b ca dt) d a none (fun c n e => .elem ((e + (c.x b).toNat) % n)) s
def execVslideup (d a : VNum) (b : XReg) (ca dt : Bool) (s : State) : Result :=
  permute (.vslideup d a b ca dt) d a none (fun c _ e => if (c.x b).toNat ≤ e then .elem (e - (c.x b).toNat) else .keep) s
def execVslidedn (d a : VNum) (b : XReg) (ca dt : Bool) (s : State) : Result :=
  permute (.vslidedn d a b ca dt) d a none (fun c n e => if e + (c.x b).toNat < n then .elem (e + (c.x b).toNat) else .zero) s

/-! ## Compress and expand (R210) -/

/-- `VCOMP`, with the indices to vb where there is one. -/
def compress (i : Instr) (d a : VNum) (b : Option VNum) (s : State) : Result :=
  issue i s fun c => do
    vecLegal c (d :: a :: b.toList) (some d)
    legal (b.all (fun v => v != d && v != a)) c
    if c.h.vl = 0 then .ok c
    else do
      let r := c.h.getV a
      let w := r.tag.width
      let bt := (b.map (fun v => (c.h.getV v).tag)).getD .uint32
      tagsOk ((c.h.getV d).sameTag r && (b.isNone || (bt.isInt && bt.width == w))) c
      copyTag c d
      let act := c.active w
      let n := (c.positions w).length
      let rest := if c.zeroing then span act.length (n - act.length) else []
      let out := List.range act.length ++ rest
      writable c d
      readableOp c (c.reg a) act
      needOpen c d (out.map (elemWord w))
      needElems c (c.reg a) act
      match b with
        | some v => do
          writable c v
          needOpen c v (out.map (elemWord w))
        | none => .ok ()
      needCopy c d w
      let ts := (List.range act.length).zip act
      let data := ts.map (fun p => c.h.moved r p.1 p.2)
      let idx := ts.map (fun p => (⟨p.1, p.2 % 2 ^ w, false⟩ : Elem))
      let h := match b with
        | some v => c.h.setV v ((c.h.getV v).writeElems w (idx ++ zeroElems w w 0 rest))
        | none => c.h
      .ok (({ c with h := h } : Ctx).writeV d w (data ++ zeroElems w w 0 rest))

def execVcomp (d a : VNum) (ca dt : Bool) (s : State) : Result := compress (.vcomp d a ca dt) d a none s
def execVcompIdx (d a b : VNum) (ca dt : Bool) (s : State) : Result := compress (.vcompIdx d a b ca dt) d a (some b) s

def execVexpd (d a : VNum) (ca dt : Bool) (s : State) : Result :=
  issue (.vexpd d a ca dt) s fun c => do
    vecLegal c [d, a] (some d)
    if c.h.vl = 0 then .ok c
    else do
      let r := c.h.getV a
      let w := r.tag.width
      tagsOk ((c.h.getV d).sameTag r) c
      copyTag c d
      let act := c.active w
      writable c d
      readableOp c (c.reg a) (List.range act.length)
      needOpen c d ((act ++ c.zeroed w).map (elemWord w))
      needElems c (c.reg a) (List.range act.length)
      needCopy c d w
      let data := (act.zip (List.range act.length)).map (fun p => c.h.moved r p.1 p.2)
      .ok (c.writeV d w (data ++ zeroElems w w 0 (c.zeroed w)))

end Sys2Proof.Machine
end

