-- ==== Sys2Proof/Machine/Collective.lean ====
section
/-! DEFINITION. Machine/Collective.lean: major 0x31 (R213 to R216, R245): the collectives of a hart's own slices, the join of a
gang's instances, and the transport. -/

namespace Sys2Proof.Machine

/-! ## Values (R213, R215) -/

/-- The positions of a slice: bits and poison where the position is active. -/
abbrev Slice := List (Option (Nat × Bool))

/-- Position i of slice p. -/
def sliceAt (l : List Slice) (p i : Nat) : Option (Nat × Bool) := ((l.getD p [])[i]?).join

/-- The elements of a hart's register as cells: those of the listed positions that are active, a poisoned one as the poison of its type
(R117). -/
def cellsOf (h : Hart) (r : VReg) (ps : List Nat) : Slice :=
  ps.map (fun e => if e < h.vl then some ((h.moved r e e).bits, (h.moved r e e).poison) else none)

/-- A rounded sum of two encodings with the flags of both children; a child alone stays as it is (R122). -/
def sumBits (f : Fmt) (ftz : Bool) (a b : Nat × Nat) : Nat × Nat :=
  let t := fAdd f (rne ftz) (f.value ftz a.1) (f.value ftz b.1)
  (t.1, t.2 ||| a.2 ||| b.2)

/-- The combination of `VALLRED` over the slices in which a position is active: bits, poison and flags. -/
def combine (op : RedOp) (t : TypeTag) (ftz : Bool) (l : List (Option (Nat × Bool))) : (Nat × Bool) × Nat :=
  let present := l.filterMap id
  if present.any (·.2) then ((t.poisonBits, true), 0)
  else if t.isInt then
    let w := t.width
    let r := reduceInt op w t.isSigned ((present.head?.map (fun e => t.int e.1)).getD 0)
      ((present.drop 1).map (fun e => t.int e.1))
    ((r.toNat % 2 ^ w, false), 0)
  else
    let f := (t.fmt?).getD fp32
    match op with
    | .add =>
      let r := (treeRoot (sumBits f ftz) 64 (l.map (·.map (fun e => (e.1, 0))))).getD (0, 0)
      ((r.1, false), r.2)
    | _ =>
      let bits := match present with
        | [] => 0
        | e :: rest => rest.foldl (fun b x => minMaxBits f ftz (op == .max) b x.1) e.1
      ((bits, false), 0)

/-- What position i of slice p receives, of P slices, under the selector s (R215). -/
def received (fn : Nat) (t : TypeTag) (ftz : Bool) (l : List Slice) (p s i : Nat) : (Nat × Bool) × Nat :=
  let n := l.length
  let copy (q : Nat) : (Nat × Bool) × Nat := ((sliceAt l q i).getD (0, false), 0)
  if n ≤ 1 then copy p
  else match fn with
    | 0 => copy ((p + s) % n)
    | 1 => copy (s % n)
    | _ => combine (if fn = 2 then .add else if fn = 3 then .max else .min) t ftz ((List.range n).map (fun q => sliceAt l q i))

/-- The tags that R215 allows. -/
def collTagsOk (fn : Nat) (d a : VReg) : Bool := d.sameTag a && (fn ≤ 1 || d.tag.isInt || d.tag.isWide)

/-! ## One instance -/

/-- The instance's own checks of vd and va (R214, R216, R267): its active positions. One at `vl` = 0 writes no register, and has none to
check (R62). -/
def collReady (c : Ctx) (d a : VNum) : Except Stop Unit := do
  if c.h.transport.isSome then .error (.wait .transport c) else .ok ()
  if c.h.vl = 0 then .ok ()
  else do
    let act := c.positions (c.h.getV d).tag.width
    writable c d
    readableOp c (c.reg a) act
    needOpen c d (act.map (elemWord (c.h.getV d).tag.width))
    needElems c (c.reg a) act

/-- Retirement of an instance with the results of its active positions and the flags they raise: the transport of the lane words begins
(R216). One that the film holds back, or that diverges under replay, has raised nothing (R119, R333, R334). -/
def beginTransport (c : Ctx) (d a : VNum) (es : List Elem) (flags : Nat) : Except Stop Ctx := do
  let r := c.h.getV d
  let w := r.tag.width
  let items : AMap LaneWord := (gather w es).map (fun x => (x.1, (r.word x.1).write x.2))
  let c ← filmedNow 13 c (items.map (·.2))
  let groups := items.foldl (fun g x => putBit g (c.h.wordGroup x.1) true) r.invalid
  let c := { c with h := c.h.raise flags }
  .ok (if items.isEmpty then c
    else { c with h := { c.h.setV d { r with invalid := groups } with transport := some ⟨d, a, items⟩ } })

/-- The results of one participant, which owns the slices from p on, and the flags they raise. -/
def collResults (c : Ctx) (fn : Nat) (d : VNum) (s : Nat) (l : List Slice) (slices : List (Nat × List Nat)) : List Elem × Nat :=
  let t := (c.h.getV d).tag
  let act := c.positions t.width
  let rs := slices.flatMap (fun p => (p.2.zipIdx.filter (fun e => act.contains e.1)).map (fun e =>
    (e.1, received fn t c.h.ftz l p.1 s e.2)))
  (rs.map (fun r => ⟨r.1, r.2.1.1, r.2.1.2⟩), rs.foldl (fun f r => f ||| r.2.2) 0)

/-- The hart belongs to a gang. -/
def Ctx.gang (c : Ctx) : Bool := (c.task?.map (fun t => t.srec.mode % 2 == 1)).getD false

/-- The slices of a hart outside a gang: one per column, with the positions of each. -/
def ownSlices (h : Hart) (w : Nat) : List (Nat × List Nat) :=
  let n := h.perColumn * 32 / w
  (List.range h.cols).map (fun q => (q, span (q * n) n))

/-- A collective outside a gang completes by itself; in a gang the instance waits for the join. -/
def collective (i : Instr) (fn : Nat) (d a : VNum) (xb : Option XReg) (s : State) : Result :=
  issue i s fun c => do
    legal (c.declared [d, a]) c
    let sel := (xb.map c.x).getD 0
    if c.gang then
      if c.h.transport.isSome then .error (.wait .transport c)
      else .error (.wait .collective { c with h := { c.h with coll := some ⟨fn, d, a, sel⟩ } })
    else if c.h.vl = 0 then filmedNow 13 c []
    else do
      let r := c.h.getV a
      need (collTagsOk fn (c.h.getV d) r) .tagMismatch (BitVec.ofNat 64 fn) c
      collReady c d a
      let own := ownSlices c.h r.tag.width
      let l := own.map (fun p => cellsOf c.h r p.2)
      let es := collResults c fn d sel.toNat l own
      beginTransport c d a es.1 es.2

def execVshuf (d a : VNum) (b : XReg) (ca dt : Bool) (s : State) : Result := collective (.vshuf d a b ca dt) 0 d a (some b) s
def execVbcast (d a : VNum) (b : XReg) (ca dt : Bool) (s : State) : Result := collective (.vbcast d a b ca dt) 1 d a (some b) s
def execVallredAdd (d a : VNum) (ca dt : Bool) (s : State) : Result := collective (.vallredAdd d a ca dt) 2 d a none s
def execVallredMax (d a : VNum) (ca dt : Bool) (s : State) : Result := collective (.vallredMax d a ca dt) 3 d a none s
def execVallredMin (d a : VNum) (ca dt : Bool) (s : State) : Result := collective (.vallredMin d a ca dt) 4 d a none s

/-! ## The join of a gang (R214) -/

/-- The instruction of an instance that waits for the join. -/
def Collective.instr (k : Collective) : Instr :=
  match k.fn with
  | 0 => .vshuf k.vd k.va 0 false false
  | 1 => .vbcast k.vd k.va 0 false false
  | 2 => .vallredAdd k.vd k.va false false
  | 3 => .vallredMax k.vd k.va false false
  | _ => .vallredMin k.vd k.va false false

/-- The participants of a stack, lowest rank first. -/
def participants (s : State) (t : Task) (stack : Nat) : List (Nat × Hart) :=
  t.harts.filterMap (fun e => match s.hart? e.2 with
    | some h => if (h.status = .resident ∨ h.status = .halted) ∧ h.stack = stack then some (e.2, h) else none
    | none => none)

/-- Every participant has issued its instance. -/
def joinDue (l : List (Nat × Hart)) : Bool := !l.isEmpty && l.all (fun e => e.2.wait == .collective && e.2.coll.isSome)

/-- fn and the registers of an instance. -/
def instanceRegs (h : Hart) : Nat × VReg × VReg :=
  match h.coll with
  | some k => (k.fn, h.getV k.vd, h.getV k.va)
  | none => (0, {}, {})

/-- Two instances agree in fn and in the tags of vd and va (R214). -/
def sameInstance (a b : Nat × VReg × VReg) : Bool := a.1 == b.1 && a.2.1.sameTag b.2.1 && a.2.2.sameTag b.2.2

/-- The meaning of the instance of participant p at the join. -/
def joinMeaning (l : List (Nat × Hart)) (p : Nat) (k : Collective) (c : Ctx) : Except Stop Ctx := do
  let all := l.map (fun e => instanceRegs e.2)
  let first := all.headD (0, {}, {})
  need (all.all (sameInstance first) && collTagsOk first.1 first.2.1 first.2.2) .tagMismatch (BitVec.ofNat 64 first.1) c
  collReady c k.vd k.va
  let w := first.2.1.tag.width
  let every (h : Hart) : List Nat := List.range (h.capacity w)
  let cells := l.map (fun e => match e.2.coll with
    | some q => cellsOf e.2 (e.2.getV q.va) (every e.2)
    | none => [])
  let es := collResults c k.fn k.vd k.s.toNat cells [(p, every c.h)]
  beginTransport { c with h := { c.h with coll := none } } k.vd k.va es.1 es.2

/-- The outcome of a participant's instance. -/
def joinOutcome (s : State) (l : List (Nat × Hart)) (p id : Nat) (h : Hart) (k : Collective) : Except Stop Ctx :=
  runInstr k.instr (joinMeaning l p k) (startCtx s id h k.instr.word)

/-- Settles the instances whose outcome satisfies a test, in rank order. -/
def settleJoin (s : State) (l : List (Nat × Hart)) (only : Except Stop Ctx → Bool) : State :=
  l.zipIdx.foldl (fun s e =>
    match s.hart? e.1.1 with
    | some h => match h.coll with
      | some k =>
        let o := joinOutcome s l e.2 e.1.1 h k
        if only o then settle k.instr h o else s
      | none => s
    | none => s) s

def stopKind : Except Stop Ctx → Nat
  | .ok _ => 0
  | .error (.trap ..) => 1
  | .error (.wait ..) => 2

/-- The harts that find their film full for the first time at a join. -/
def newlyFull (s : State) (l : List (Nat × Hart)) : List Nat :=
  l.zipIdx.filterMap (fun e => match e.1.2.coll.map (joinOutcome s l e.2 e.1.1 e.1.2) with
    | some (.error (.wait .film c)) => if c.h.filmFull && !e.1.2.filmFull then some e.1.1 else none
    | _ => none)

/-- `FILMFULL` becomes pending for a hart that waits (R333). -/
def noteHeld (s : State) (id : Nat) : State := s.modHart id (fun h => { h with filmFull := true, pendFilm := true })

/-- `COLLECTIVE_JOIN`: the instances of a stack retire together, once all have passed their checks; one that fails a check takes
its trap, when its hart's earlier instructions have retired (R301), and the others go on waiting. -/
def execCollectiveJoin (t stack : Nat) (s : State) : Result :=
  match s.task? t with
  | none => cannot
  | some task =>
    let l := participants s task stack
    if !joinDue l then cannot
    else
      let kinds := l.zipIdx.map (fun e => match e.1.2.coll with
        | some k => stopKind (joinOutcome s l e.2 e.1.1 e.1.2 k)
        | none => 2)
      if kinds.all (· == 0) then .next (settleJoin s l (fun _ => true))
      else if kinds.any (· == 1) then
        if (l.zip kinds).all (fun e => e.2 != 1 || e.1.2.caughtUp) then .next (settleJoin s l (fun o => stopKind o == 1)) else cannot
      else if (newlyFull s l).isEmpty then cannot
      else .next ((newlyFull s l).foldl noteHeld s)

/-! ## Transport (R216) -/

/-- `COLLECTIVE_TRANSPORT` writes the lane words of one element group of vd; with the last group the transport ends. -/
def execCollectiveTransport (h g : Nat) (s : State) : Result :=
  match s.hart? h with
  | none => cannot
  | some hart =>
    match hart.transport with
    | none => cannot
    | some t =>
      let now := t.items.filter (fun e => hart.wordGroup e.1 == g)
      let rest := t.items.filter (fun e => hart.wordGroup e.1 != g)
      if now.isEmpty ∨ (find? s.shadows h).isSome then cannot
      else
        let r := hart.getV t.vd
        let r := { r with words := putAll r.words now, invalid := putBit r.invalid g false }
        .next (s.setHart h { hart.setV t.vd r with
          transport := if rest.isEmpty then none else some { t with items := rest }
          wait := if hart.wait = .transport then .none else hart.wait })

end Sys2Proof.Machine
end

