-- ==== Sys2Proof/Machine/Row.lean ====
section
/-! DEFINITION. Machine/Row.lean: majors 0x18 to 0x1A: row instructions, configuration and `PFX` (R133, R181 to R189), with the
refresh of row-sets (R311 to R314). -/

namespace Sys2Proof.Machine

/-! ## Translation (R76, R77) -/

/-- Translates a row address through the hart's row window entries: the physical address and the leaf. With `reg` the layer and
way must be the register's. An address outside stacked DRAM lies in no column, and one in the reserved region raises `PROT` (R22,
R24). Of two entries of one page, which only a page list changed since its dispatch can give (R74, R103), the first in list order
translates: DESIGN CHOICE (log 50). -/
def translateRow (c : Ctx) (va : Word) (reg : Option VNum) (rd wr : Bool) : Except Stop (Nat × Nat) :=
  if 2 ^ 48 ≤ va.toNat then .error (.trap .pageFault va c)
  else if inTcm va.toNat then .error (.trap .prot va c)
  else match (c.s.col c.h.column).rowWin.find? (fun e => e.hart == c.id && e.vpage == va.toNat / 2 ^ 21) with
    | none => .error (.trap .pageWin va c)
    | some e =>
      if e.stale then .error (.wait (.staleRow va) c)
      else
        let pa := leafAddress e.leaf va.toNat
        let mine := match reg with
          | some v => layerOf pa == c.h.layer v.toNat && wayOf pa == c.h.startWay v.toNat
          | none => true
        if regionOf pa = .reserved then .error (.trap .prot va c)
        else if regionOf pa ≠ .dram ∨ pa % 1024 ≠ 0 ∨ columnOf pa ≠ c.h.column ∨ !mine then .error (.trap .rowAddr va c)
        else if (rd && !leafRd e.leaf) || (wr && !leafWr e.leaf) then .error (.trap .prot va c)
        else .ok (pa, e.leaf)

/-! ## What row instructions ask of the ways (R179, R180) -/

/-- The open ways of a register in a column: layer × 8 + way. -/
def Hart.openWays (h : Hart) (v : VNum) : List Nat :=
  ((List.range h.wayCount).filter (hasBit (h.getV v).openWays)).map (fun w => h.layer v.toNat * 8 + h.startWay v.toNat + w)

/-- A hart's row instruction asks something of some ways, in their order, in every column of the partition. Its hart's next issue waits until
all of it has started. -/
def askWays (s : State) (id : Nat) (h : Hart) (ways : List Nat) (act : WayAction) : State :=
  h.columns.foldl (fun s col => ask s col (ways.map (fun w => actionOf id act w 0 (s.col col).cycles))) s

/-- The open ways of a register close. -/
def closeWays (s : State) (id : Nat) (h : Hart) (v : VNum) : State := askWays s id h (h.openWays v) .close

/-- The open ways of several registers close, in ascending register order. -/
def closeAll (s : State) (id : Nat) (h : Hart) (vs : List VNum) : State := askWays s id h (vs.flatMap h.openWays) .close

/-! ## ACT and ACTS (R182, R183) -/

/-- Activates ways of a register in every column of the partition, for the segments above the hart's lanes (R35, R180); the row goes
through the hidden latch into the register latch, and does not stay in the hidden one (R17). -/
def activateWays (s : State) (id : Nat) (h : Hart) (v row n : Nat) : State :=
  h.columns.foldl (fun s col => ask s col ((span (h.startWay v) n).map (fun w =>
    let way := h.layer v * 8 + w
    requestOf (.row id) way ((s.col col).physicalRow way row) (h.laneCount / 4) (s.col col).cycles))) s

/-- Byte ranges of lane words at their virtual addresses (R327). -/
def wordRanges (h : Hart) (va : Nat) (js : List Nat) : List (Nat × Nat) := js.map (fun j => (va + h.wordOffset j, 4))

/-- The sample of a row instruction (R330). -/
def rowSample (h : Hart) (pa : Nat) (js : List Nat) (acts : Nat) : AtRetire :=
  .sample 7 js.length (distinct (js.map (fun j => (pa + h.wordOffset j) / 128))).length (if js.isEmpty then 0 else 1) acts

/-- The element groups of some lane words, as not yet valid in a result held apart (R130, R182); in a result that retires at once
all are valid. -/
def pendingGroups (h : Hart) (js : List Nat) : Nat :=
  if h.defer && h.dbg.isNone then js.foldl (fun g j => putBit g (h.wordGroup j) true) 0 else 0

/-- The accesses of an `ACT` that its hart goes past: one for each lane word. -/
def openAccesses (c : Ctx) (v : VNum) (va : Word) (pa : Nat) (js : List Nat) : List ElemAccess :=
  js.map (fun j => ⟨c.h.elemSeq, j, pa, va, .open' v [(j, pa + c.h.wordOffset j)], [], false, false, false, c.h.pc, []⟩)

/-- The lane words of a register that is opened or closed: those that accesses on their way are still to take stay until then. -/
def Hart.leftWords (h : Hart) (v : VNum) : AMap LaneWord := if h.engages v then (h.getV v).words else []

/-- `ACT`, and with `sure` `ACTS`. DESIGN CHOICE (log 74): the `PROT` of a channel's strip buffer (R267) comes before what R76 checks; and an
`ACT` or a `WB` at `vl` = 0 reads or writes its lane words all the same, which data waypoints meet (R181, R327). -/
def openRow (i : Instr) (sure : Bool) (v : VNum) (a : XReg) (n : BitVec 3) (s : State) : Result :=
  issue i s fun c => do
    legal (c.declared [v] && decide (n.toNat < c.h.wayCount ∨ n = 0)) c
    changeable c v
    let va := c.x a
    let (pa, leaf) ← translateRow c va (some v) true false
    let ways := if n = 0 then c.h.wayCount else n.toNat
    let js := c.h.wordsIn (2 ^ ways - 1)
    let c ← dataWaypoints c (wordRanges c.h va.toNat js) []
    let opened (ws : AMap LaneWord) (invalid : Nat) (c : Ctx) : Ctx :=
      ({ c with h := c.h.setV v { c.h.getV v with openWays := 2 ^ ways - 1, image := pa, words := ws, invalid := invalid } } : Ctx).later
        (rowSample c.h pa js (ways * c.h.cols))
    let start (c : Ctx) : Ctx :=
      { c with s := activateWays (closeWays c.s c.id c.h v) c.id c.h v.toNat (rowOf pa) ways }
    if c.late && !sure && !c.films (leafRec leaf) then do
      needRoom c
      let c := start c
      .ok ((opened (c.h.leftWords v) 0 c).sendElems (openAccesses c v va pa js))
    else do
      settled c v
      inTurn c (js.map (fun j => pa + c.h.wordOffset j))
      let (film, c) ← digestGate 12 (leafRec leaf) c
      let c := start (c.drainMeeting (js.map (fun j => pa + c.h.wordOffset j)))
      let c := { c with s := recordPieces c.s 0 (js.map (fun j => pieceOf (pa + c.h.wordOffset j))) }
      match (if sure then js.find? (fun j => badByte c.s (pa + c.h.wordOffset j)) else none) with
      | some j => .error (.trap .dataErr (BitVec.ofNat 64 (j * 2 ^ 16 + c.h.wordLane j)) c)
      | none =>
        let ws := js.map (fun j => (j, readLaneWord c.s (pa + c.h.wordOffset j)))
        let c ← filmedDigest 12 c film (ws.map (·.2))
        .ok (opened ws (pendingGroups c.h js) c)

def execAct (v : VNum) (a : XReg) (n : BitVec 3) (s : State) : Result := openRow (.act v a n) false v a n s
def execActs (v : VNum) (a : XReg) (n : BitVec 3) (s : State) : Result := openRow (.acts v a n) true v a n s

/-! ## WB and WBK (R184) -/

/-- The accesses of a `WB` or `WBK` that its hart goes past: one for each lane word. -/
def backAccesses (c : Ctx) (v : VNum) (va : Word) (pa : Nat) (js : List Nat) : List ElemAccess :=
  js.map (fun j => ⟨c.h.elemSeq, j, pa, va, .back [(pa + c.h.wordOffset j, (c.h.getV v).word j)], [], false, false, false, c.h.pc, []⟩)

/-- The same, where something is still to write v. -/
def backLater (c : Ctx) (v : VNum) (va : Word) (pa : Nat) (js : List Nat) : List ElemAccess :=
  js.map (fun j => ⟨c.h.elemSeq, j, pa, va, .backOf v [(pa + c.h.wordOffset j, j)], [], false, false, false, c.h.pc, []⟩)

/-- Writes lane words of v to the image that xa names; every open way of v is busy meanwhile. -/
def writeBack (i : Instr) (v : VNum) (a : XReg) (choose : Ctx → Except Stop (List Nat)) (s : State) : Result :=
  issue i s fun c => do
    legal (c.declared [v]) c
    let va := c.x a
    let (pa, _) ← translateRow c va (some v) false true
    let r := c.h.getV v
    need (r.openWays != 0) .regClosed (v.setWidth 64) c
    let js ← choose c
    if c.late then arrived c v (wordElems r.tag.width js) else readable c v (wordElems r.tag.width js)
    let c ← dataWaypoints c [] (wordRanges c.h va.toNat js)
    let busy (c : Ctx) : Ctx :=
      ({ c with s := askWays c.s c.id c.h (c.h.openWays v) .write } : Ctx).later (rowSample c.h pa js 0)
    if c.late then do
      needRoom c
      .ok ((busy c).sendElems (if c.h.awaits v then backLater c v va pa js else backAccesses c v va pa js))
    else do
      let pas := js.map (fun j => pa + c.h.wordOffset j)
      inTurn c pas
      let c := c.drainMeeting pas
      let ws := js.map (fun j => (pa + c.h.wordOffset j, r.word j))
      .ok (busy { c with s := dropLines (writeWords (recordPieces c.s 0 (partWords ws)) ws) pas })

def execWb (v : VNum) (a : XReg) (s : State) : Result :=
  writeBack (.wb v a) v a (fun c => .ok (c.h.wordsIn (c.h.getV v).openWays)) s

/-- `WBK` writes the lane words that hold a position active under mask k and `vl`; such a position in a closed way raises
`REGCLOSED`. -/
def execWbk (v : VNum) (a : XReg) (k : KReg) (s : State) : Result :=
  writeBack (.wbk v a k) v a (fun c => do
    let w := (c.h.getV v).tag.width
    let js := distinct (((c.positions w).filter (hasBit (c.h.getK k))).map (elemWord w))
    needOpen c v js
    .ok js) s

/-! ## PRE and PREALL (R185) -/

/-- Closes a register and discards its contents; the tag stays. -/
def closeReg (h : Hart) (v : VNum) : Hart :=
  let r := h.getV v
  if r.openWays = 0 then h else h.setV v { r with openWays := 0, words := h.leftWords v, invalid := 0 }

def execPre (v : VNum) (s : State) : Result :=
  issue (.pre v) s fun c => do
    legal (c.declared [v]) c
    changeable c v
    .ok (({ c with s := closeWays c.s c.id c.h v, h := closeReg c.h v } : Ctx).later (.sample 7 0 0 0 0))

/-- The declared registers of a hart. -/
def Ctx.registers (c : Ctx) : List VNum :=
  if c.h.lanes = 0 then [] else (List.range c.header.vregCount).map (BitVec.ofNat 6)

def execPreall (s : State) : Result :=
  issue .preall s fun c => do
    c.registers.forM (changeable c)
    .ok (({ c with
      s := closeAll c.s c.id c.h c.registers, h := c.registers.foldl closeReg c.h } : Ctx).later (.sample 7 0 0 0 0))

/-! ## Refresh (R20, R186, R187, R311 to R314) -/

/-- `REF n`: a row-set in each column of the partition is asked for at each issue, until n are; the next issue waits until each column has
started it. A halt between two of them abandons the instruction with those that it completed credited, and it then starts afresh
(R186). DESIGN CHOICE (log 74): its sample counts no activations, since a row-set names no row for its hart (R330). -/
def execRef (n : BitVec 8) (s : State) : Result :=
  issue (.ref n) s fun c =>
    let k := c.h.refDone
    let more := decide (k + 1 < n.toNat)
    let c := if k < n.toNat then
        { c with s := c.h.columns.foldl (fun s col => ask s col [rowSetOf (some c.id) more (s.col col).cycles]) c.s }
      else c
    if more then .error (.wait .refresh { c with h := { c.h with refDone := k + 1 } })
    else .ok (c.later (.sample 7 0 0 0 0))

def execRefn (a : XReg) (s : State) : Result :=
  issue (.refn a) s fun c => do
    let (pa, _) ← translateRow c (c.x a) none true false
    let way := layerOf pa * 8 + wayOf pa
    .ok (({ c with s := c.h.columns.foldl (fun s col =>
      ask s col [actionOf c.id .refn way ((s.col col).physicalRow way (rowOf pa)) (s.col col).cycles]) c.s } : Ctx).later
        (.sample 7 0 0 0 (2 * c.h.cols)))

/-! ## Configuration (R38, R47, R63, R188, R189) -/

/-- Moves a bound channel to its next strip, for an instruction at pc (R268). -/
def Channel.advance (ch : Channel) (pc : Word) : Channel :=
  if ch.total ≤ ch.k * ch.strip then ch
  else
    let k := ch.k + 1
    { ch with k := k, m := min (k * ch.strip) ch.total, ahead := [], fault := none, entries := [], recRead := false, pc := pc }

/-- `VGEOM`: every register is closed, tagged uint32 and discarded, `vl` is 0 and the channels are closed; it waits for the accesses that
the hart has gone past (R63). -/
def execVgeom (g : BitVec 2) (s : State) : Result :=
  issue (.vgeom g) s fun c => do
    let geom := 8 * 2 ^ g.toNat
    legal (c.h.lanes != 0 && decide (c.header.vregCount ≤ geom)) c
    if !c.h.waiting.isEmpty || c.h.elems.any (·.isLate) then .error (.wait .access c) else .ok ()
    if c.h.transport.isSome then .error (.wait .transport c) else .ok ()
    if c.h.tileLoad.isSome then .error (.wait .tile c) else .ok ()
    let s := closeAll c.s c.id c.h c.registers
    .ok { c with
      s := { s with outstanding := s.outstanding.filter (fun e => !(e.2.hart == c.id && e.2.chan.isSome)) }
      h := { c.h with geom := geom, v := [], vl := 0, chans := [] } }

def execVtype (d sc : VNum) (t : BitVec 5) (s : State) : Result :=
  issue (.vtype d sc t) s fun c => do
    let tag := TypeTag.ofCode t.toNat
    legal (c.declared (if tag.isMx then [d, sc] else [d])) c
    changeable c d
    .ok { c with h := c.h.setV d { c.h.getV d with tag := tag, scale := sc } }

/-- The width of a code of `VSETVL` or `STRIP`. -/
def widthOf (w : Nat) : Nat := 4 * 2 ^ w

/-- The vector length granted (R47). -/
def grantVl (h : Hart) (ceiling q w : Nat) : Nat :=
  let c := if ceiling = 0 then h.vlmax else ceiling
  min q (min (h.vlmax * 32 / w) (c * 32 / w))

/-- `VSETVL`; channels with AUTO advance at its retirement (R268). -/
def execVsetvl (d a : XReg) (w : BitVec 2) (s : State) : Result :=
  issue (.vsetvl d a w) s fun c => do
    legal (c.h.lanes != 0) c
    let vl := grantVl c.h ((c.task?.map (·.srec.ceiling)).getD 0) (c.x a).toNat (widthOf w.toNat)
    let chans := c.h.chans.map (fun e => (e.1, if e.2.auto then e.2.advance c.h.pc else e.2))
    ret d (BitVec.ofNat 64 vl) { c with h := { c.h with vl := vl, chans := chans } }

def execVlopen (d : VNum) (s : State) : Result :=
  issue (.vlopen d) s fun c => do
    legal (c.declared [d]) c
    let r := c.h.getV d
    .ok { c with h := { c.h with vl := c.h.lanes * 8 * popBits 8 r.openWays * 32 / r.tag.width } }

/-- `PFX` leaves a pending prefix for the instruction at the next word (R133 to R135). -/
def execPfx (k : KReg) (pol dt zero : Bool) (v : VNum) (cpen : Bool) (s : State) : Result :=
  issue (.pfx k pol dt zero v cpen) s fun c => do
    legal (c.h.lanes != 0 && (!cpen || c.declared [v])) c
    notAtLoopEnd c
    .ok { c with h := { c.h with pfx := some ⟨k, pol, dt, zero, v, cpen, (c.h.pc + 4).extractLsb' 2 46⟩ } }

end Sys2Proof.Machine
end

