-- ==== Sys2Proof/Machine/VMem.lean ====
section
/-! DEFINITION. Machine/VMem.lean: majors 0x2C to 0x2E, `VCAPP` and 0x32: vector memory, lane scratch, update at memory, capture,
and the ordering of the two streams (R197 to R207, R211, R212, R217, R218). -/

namespace Sys2Proof.Machine

/-! ## Addresses (R197, R199) -/

/-- How element addresses are formed. -/
inductive VForm
  | unit
  | strided (s : XReg)
  | indexed (vi : VNum) (ordered : Bool)
  deriving DecidableEq, Repr

/-- off(i) of R197. -/
def Ctx.offset (c : Ctx) (vi : VNum) (i : Nat) : Word :=
  let r := c.h.getV vi
  r.tag.extend (r.bits r.tag.width i)

/-- The address of element i of width w. -/
def Ctx.elemAddress (c : Ctx) (f : VForm) (w : Nat) (base : Word) (i : Nat) : Word :=
  match f with
  | .unit => base + BitVec.ofNat 64 (i * w / 8)
  | .strided s => base + BitVec.ofNat 64 i * c.x s
  | .indexed vi _ => base + c.offset vi i

/-- An element that has passed translation. -/
structure Touch where
  i    : Nat
  va   : Word
  pa   : Nat
  leaf : Nat
  deriving DecidableEq, Repr

/-- Translates the elements in order. -/
def translateAll (c : Ctx) (w : Want) : List (Nat × Word) → Except Stop (List Touch × Ctx)
  | [] => .ok ([], c)
  | (i, va) :: rest =>
    if inTcm va.toNat then .error (.trap .prot va c)
    else match hartTranslate c.s c.h w va.toNat with
      | (s, .error cause) => .error (.trap cause va { c with s := s })
      | (s, .ok (pa, leaf)) => do
        let (l, c) ← translateAll { c with s := s } w rest
        .ok (⟨i, va, pa, leaf⟩ :: l, c)

/-- Attributes that the pages of one instruction share. -/
def leafAttrs (e : Nat) : Nat := e / 8 % 8

/-- `ATTR.SPLIT` (R78). -/
def sameAttrs (c : Ctx) : List Touch → Except Stop Unit
  | [] => .ok ()
  | t :: rest =>
    match rest.find? (fun u => leafAttrs u.leaf != leafAttrs t.leaf) with
    | some u => .error (.trap .attrSplit u.va c)
    | none => .ok ()

/-- The pages of some addresses that the hart's stack holds no TLB entry for. -/
def tlbMisses (s : State) (h : Hart) (es : List (Nat × Word)) : Nat :=
  ((distinct (es.map (fun e => e.2.toNat / 2 ^ 21))).filter (fun p =>
    !(s.stk h.stack).tlb.any (fun e => e.root == s.rootOf h && e.vpage == p))).length

/-- The TLB misses of the instruction at hand count in its sample (R330). -/
def Ctx.countMisses (c : Ctx) (es : List (Nat × Word)) : Ctx :=
  { c with h := { c.h with tlbMissed := c.h.tlbMissed + tlbMisses c.s c.h es } }

/-- The checks of R78 on the active elements, of n bytes each. -/
def checkTouches (c : Ctx) (w : Want) (n : Nat) (es : List (Nat × Word)) : Except Stop (List Touch × Ctx) :=
  match es.find? (fun e => e.2.toNat % n != 0) with
  | some e => .error (.trap .align e.2 c)
  | none => do
    let (ts, c) ← translateAll (c.countMisses es) w es
    sameAttrs c ts
    .ok (ts, c)

/-- The index register of a form. -/
def VForm.index : VForm → List VNum
  | .indexed vi _ => [vi]
  | _ => []

/-- The index register pairs with elements of width w (R198). -/
def indexTag (c : Ctx) (f : VForm) (w : Nat) : Except Stop Unit :=
  match f with
  | .unit => .ok ()
  | .strided _ => tagsOk (w != 4) c
  | .indexed vi _ => tagsOk (w != 4 && (c.h.getV vi).tag.isInt && (c.h.getV vi).tag.width == w) c

/-- `REGCLOSED` and waits for the index register. -/
def indexReady (c : Ctx) (f : VForm) (act : List Nat) : Except Stop Unit :=
  match f with
  | .indexed vi _ => do
    readable c vi act
    needOpen c vi (act.map (elemWord (c.h.getV vi).tag.width))
  | _ => .ok ()

/-- `POISON` at the lowest active element, counted at width w, of which p holds. -/
def noPoison (c : Ctx) (w : Nat) (act : List Nat) (p : Nat → Bool) : Except Stop Unit :=
  match act.find? p with
  | some i => .error (poisonAt c (.element w) i)
  | none => .ok ()

/-- A poisoned index. -/
def indexPoison (c : Ctx) (f : VForm) (act : List Nat) : Except Stop Unit :=
  match f with
  | .indexed vi _ => noPoison c (c.h.getV vi).tag.width act (c.h.badElem (c.h.getV vi))
  | _ => .ok ()

/-- The class of a memory sample (R330). -/
def sampleClass (c : Ctx) (f : VForm) (w : Nat) : Nat :=
  match f with
  | .unit => 0
  | .strided s =>
    let d := (c.x s).toInt.natAbs
    if d = elemBytes w then 0 else if d ≠ 0 ∧ 2 ^ Nat.log2 d = d then 1 else 2
  | .indexed _ ordered => if ordered then 4 else 3

/-- Way-rows that a base-layer access of these addresses activates. -/
def baseCount (pas : List Nat) : Nat := (distinct ((pas.filter (fun a => regionOf a == .dram)).map (· / 1024))).length

/-- The sample of a vector memory instruction. -/
def memSample (cls : Nat) (ts : List Touch) (acts : Nat) : AtRetire :=
  .sample cls ts.length (distinct (ts.map (·.pa / 128))).length (distinct (ts.map (·.va.toNat / 2 ^ 21))).length acts

/-- The bytes that an instruction touches, for waypoints. -/
def touchRanges (n : Nat) (ts : List Touch) : List (Nat × Nat) := ts.map (fun t => (t.va.toNat, n))

/-! ## Loads (R197 to R204) -/

/-- The footprint of a load (R80). -/
def footprint (c : Ctx) (f : VForm) (w : Nat) (ts : List Touch) : Nat :=
  match f with
  | .unit => ceilDiv (c.h.vl * w) 8
  | _ =>
    let vas := ts.map (·.va.toNat)
    vas.foldl max 0 + elemBytes w - vas.foldl min (2 ^ 64)

/-- Sends remote elements, whose data has not come (R342). -/
def sendRemote (c : Ctx) (d : VNum) (w : Nat) (ts : List Touch) : Ctx :=
  ts.foldl (fun c t =>
    let id := c.s.nextRemote
    { c with
      s := sendAccess c.s ⟨c.id, true, t.pa, t.va, c.h.pc, d, t.i, none, List.replicate (elemBytes w) 0, none, 0, 0⟩
      h := { c.h with remote := c.h.remote ++ [id] } }) c

/-- An element of memory as a load takes it: its value, or none where it is bad. -/
def memoryValue (s : State) (w pa : Nat) : Option Nat :=
  if badBytes s pa (elemBytes w) then none else some (loadNat s pa (elemBytes w))

/-- An ordered load goes on in ascending order until it comes to a remote element whose data has not come: that one is still to be
sent (R204). -/
def orderedLoad (c : Ctx) (w : Nat) : List Touch → Ctx × Option Touch
  | [] => (c, none)
  | t :: rest =>
    if (find? c.h.arrived t.i).isSome then orderedLoad c w rest
    else if regionOf t.pa = .remote then (c, some t)
    else orderedLoad { c with h := { c.h with arrived := put c.h.arrived t.i (memoryValue c.s w t.pa) } } w rest

/-- Waits until every remote element has its data; what is then left is read from memory. -/
def awaitRemote (c : Ctx) (d : VNum) (w : Nat) (ordered : Bool) (ts : List Touch) : Except Stop Ctx :=
  if !c.h.remote.isEmpty then .error (.wait .remote c)
  else if !ts.any (fun t => regionOf t.pa == .remote) then .ok c
  else if ordered then
    match orderedLoad c w ts with
    | (_, none) => .ok c
    | (c, some t) => .error (.wait .remote (sendRemote c d w [t]))
  else
    let l := ts.filter (fun t => regionOf t.pa == .remote && (find? c.h.arrived t.i).isNone)
    if l.isEmpty then .ok c else .error (.wait .remote (sendRemote c d w l))

/-- Element i as the load finds it: as it has come, or in memory. -/
def loadElem (c : Ctx) (t : TypeTag) (u : Touch) : Elem :=
  let w := t.width
  match find? c.h.arrived u.i with
  | some (some v) => ⟨u.i, if w = 4 then v / 2 ^ (4 * (u.i % 2)) % 16 else v % 2 ^ w, false⟩
  | some none => ⟨u.i, t.lostBits, true⟩
  | none => memoryElem c.s t u.i u.pa

/-- The lane words of a register that elements of width w at some positions lie in, in order. -/
def writtenWords (r : VReg) (w : Nat) (es : List Nat) : List LaneWord :=
  ((gather w (es.map (fun e => ⟨e, 0, false⟩))).map (·.1)).map r.word

/-- The elements of an indexed form are ordered. -/
def VForm.ordered : VForm → Bool
  | .indexed _ o => o
  | _ => false

/-- The accesses of a load that its hart goes past. -/
def readAccesses (c : Ctx) (d : VNum) (w : Nat) (ordered : Bool) (ts : List Touch) : List ElemAccess :=
  ts.map (fun t => ⟨c.h.elemSeq, t.i, t.pa, t.va, .read d (c.h.getV d).tag c.copyReg, List.replicate (elemBytes w) 0, false, ordered, false, c.h.pc, []⟩)

/-- The array's and the line cache's part in a load of some elements (R79, R80, R219). -/
def Ctx.readTouches (c : Ctx) (ts : List Touch) (alloc : Bool) : Ctx :=
  c.global (fun s => readAccess s (ts.map (fun t => (t.pa, leafUc t.leaf))) alloc (.base c.id))

/-- A vector load. It is performed at once, or its elements are on their way when its hart goes on (R84, R90). -/
def vload (i : Instr) (d : VNum) (f : VForm) (b : XReg) (s : State) : Result :=
  issue i s fun c => do
    vecLegal c (d :: f.index) (some d)
    if c.h.vl = 0 then .ok c
    else do
      let t := (c.h.getV d).tag
      let w := t.width
      indexTag c f w
      copyTag c d
      let act := c.active w
      let later := c.late && !c.zeroing && c.copyReg.isNone
      if later then changeable c d else writable c d
      needOpen c d ((act ++ c.zeroed w).map (elemWord w))
      indexReady c f act
      needCopy c d w
      indexPoison c f act
      let (ts, c) ← checkTouches c ⟨true, false, true⟩ (elemBytes w) (act.map (fun e => (e, c.elemAddress f w (c.x b) e)))
      let c ← dataWaypoints c (touchRanges (elemBytes w) ts) []
      let alloc := decide (footprint c f w ts ≤ c.h.footthr.toNat % 2 ^ 32)
      let record := ts.any (fun t => leafRec t.leaf)
      let acts := baseCount (misses c.s (ts.map (fun t => (t.pa, leafUc t.leaf))))
      if c.late && !c.films record && !ts.any (fun t => regionOf t.pa == .remote) then do
        needRoom c
        let c := c.readTouches ts alloc
        .ok (((c.writeV d w (zeroElems w w 0 (c.zeroed w))).sendElems (readAccesses c d w f.ordered ts)).later
          (memSample (sampleClass c f w) ts acts))
      else do
        settled c d
        inTurn c (ts.flatMap (fun t => span t.pa (elemBytes w)))
        let (film, c) ← digestGate 12 record c
        let c := c.drainMeeting (ts.flatMap (fun t => span t.pa (elemBytes w)))
        let c ← awaitRemote c d w f.ordered ts
        let acts := baseCount (misses c.s (ts.map (fun t => (t.pa, leafUc t.leaf))))
        let c := c.readTouches ts alloc
        let c := { c with s := recordPieces c.s 1 (ts.flatMap (fun t => piecesOf t.pa (elemBytes w))) }
        let es := ts.map (loadElem c t) ++ zeroElems w w 0 (c.zeroed w)
        let c ← filmedDigest 12 c film (writtenWords ((c.writeV d w es).h.getV d) w (es.map (·.e)))
        let c := c.writeV d w es
        .ok (({ c with h := { c.h with arrived := [] } } : Ctx).later (memSample (sampleClass c f w) ts acts))

def execVld (d : VNum) (b : XReg) (dt : Bool) (s : State) : Result := vload (.vld d b dt) d .unit b s
def execVlds (d : VNum) (st b : XReg) (dt : Bool) (s : State) : Result := vload (.vlds d st b dt) d (.strided st) b s
def execVldx (d vi : VNum) (b : XReg) (ca dt : Bool) (s : State) : Result :=
  vload (.vldx d vi b ca dt) d (.indexed vi false) b s
def execVldxo (d vi : VNum) (b : XReg) (ca dt : Bool) (s : State) : Result :=
  vload (.vldxo d vi b ca dt) d (.indexed vi true) b s

/-! ## Stores and updates (R197 to R204, R207) -/

/-- The array's part in the element writes of an instruction: each way-row is activated once (R219). -/
def Ctx.writeTouches (c : Ctx) (ts : List Touch) : Ctx := c.global (fun s => baseAccess s (ts.map (·.pa)) (.base c.id))

/-- The access that a store sends for an element: with its bits, or, where something is still to write the register, to take them from
it. -/
def storeAccess (c : Ctx) (d : VNum) (w : Nat) (ordered : Bool) (t : Touch) : ElemAccess :=
  let high := if w = 4 then some (t.i % 2 == 1) else none
  let r := c.h.getV d
  if c.h.awaits d || r.tag.isMx && c.h.awaits r.scale then
    ⟨c.h.elemSeq, t.i, t.pa, t.va, .storeOf d r.tag r.scale high, List.replicate (elemBytes w) 0, false, ordered, false, c.h.pc, []⟩
  else
    ⟨c.h.elemSeq, t.i, t.pa, t.va, (match high with | some b => .nibble b | none => .store), toBytes (elemBytes w) (r.bits w t.i),
      c.h.badElem r t.i, ordered, false, c.h.pc, []⟩

/-- A vector store. Its elements need not have come yet when they are sent, unless a remote address asks whether they are poisoned (R301). -/
def vstore (i : Instr) (d : VNum) (f : VForm) (b : XReg) (s : State) : Result :=
  issue i s fun c => do
    vecLegal c (d :: f.index) none
    if c.h.vl = 0 then .ok c
    else do
      let r := c.h.getV d
      let w := r.tag.width
      indexTag c f w
      let act := c.active w
      if c.late then arrivedOp c (c.reg d) act else readableOp c (c.reg d) act
      needElems c (c.reg d) act
      indexReady c f act
      indexPoison c f act
      let (ts, c) ← checkTouches c ⟨false, true, true⟩ (elemBytes w) (act.map (fun e => (e, c.elemAddress f w (c.x b) e)))
      if ts.any (fun t => regionOf t.pa == .remote) then do
        readableOp c (c.reg d) act
        noPoison c w act (c.h.badElem r)
      else .ok ()
      if c.h.awaits d then needRoom c else .ok ()
      let c ← dataWaypoints c [] (touchRanges (elemBytes w) ts)
      .ok (((c.writeTouches ts).sendElems (ts.map (storeAccess c d w f.ordered))).later
        (memSample (sampleClass c f w) ts (baseCount (ts.map (·.pa)))))

def execVst (d : VNum) (b : XReg) (ca dt : Bool) (s : State) : Result := vstore (.vst d b ca dt) d .unit b s
def execVsts (d : VNum) (st b : XReg) (ca dt : Bool) (s : State) : Result := vstore (.vsts d st b ca dt) d (.strided st) b s
def execVstx (d vi : VNum) (b : XReg) (ca dt : Bool) (s : State) : Result :=
  vstore (.vstx d vi b ca dt) d (.indexed vi false) b s
def execVstxo (d vi : VNum) (b : XReg) (ca dt : Bool) (s : State) : Result :=
  vstore (.vstxo d vi b ca dt) d (.indexed vi true) b s

/-- The operations of `VUPD`. -/
inductive UpdOp
  | add | min | max | and | or | xor
  deriving DecidableEq, Repr

/-- The element operation for a data tag; none for a combination that R207 does not list. -/
def UpdOp.on : UpdOp → TypeTag → Option ElemOp
  | .add, .int32 | .add, .uint32 => some .addI
  | .min, .int32 => some .minS
  | .min, .uint32 => some .minU
  | .max, .int32 => some .maxS
  | .max, .uint32 => some .maxU
  | .and, .int32 | .and, .uint32 => some .and
  | .or, .int32 | .or, .uint32 => some .or
  | .xor, .int32 | .xor, .uint32 => some .xor
  | .add, .fp32 => some .addF
  | .min, .fp32 => some .minF
  | .max, .fp32 => some .maxF
  | _, _ => none

/-- `VUPD` (R207). DESIGN CHOICE (log 74): the poison of its data is checked with that of its indexes, before the addresses. -/
def vupdate (i : Instr) (op : UpdOp) (d vi : VNum) (b : XReg) (s : State) : Result :=
  issue i s fun c => do
    vecLegal c [d, vi] none
    if c.h.vl = 0 then .ok c
    else
      let r := c.h.getV d
      match op.on r.tag with
      | none => .error (.trap .tagMismatch c.word c)
      | some eop => do
        let f : VForm := .indexed vi false
        indexTag c f 32
        let act := c.active 32
        readable c d act
        needOpen c d (act.map (elemWord 32))
        indexReady c f act
        noPoison c 32 act (fun e => c.h.badElem r e || c.h.badElem (c.h.getV vi) e)
        let (ts, c) ← checkTouches c ⟨true, true, false⟩ 4 (act.map (fun e => (e, c.elemAddress f 32 (c.x b) e)))
        let c ← dataWaypoints c (touchRanges 4 ts) (touchRanges 4 ts)
        let es := ts.map (fun t => (⟨c.h.elemSeq, t.i, t.pa, t.va, eop, toBytes 4 (r.bits 32 t.i), false, false, c.h.ftz,
          c.h.pc, []⟩ : ElemAccess))
        .ok (((c.writeTouches ts).sendElems es).later (memSample 6 ts (baseCount (ts.map (·.pa)))))

def execVupdAdd (d vi : VNum) (b : XReg) (ca dt : Bool) (s : State) : Result := vupdate (.vupdAdd d vi b ca dt) .add d vi b s
def execVupdMin (d vi : VNum) (b : XReg) (ca dt : Bool) (s : State) : Result := vupdate (.vupdMin d vi b ca dt) .min d vi b s
def execVupdMax (d vi : VNum) (b : XReg) (ca dt : Bool) (s : State) : Result := vupdate (.vupdMax d vi b ca dt) .max d vi b s
def execVupdAnd (d vi : VNum) (b : XReg) (ca dt : Bool) (s : State) : Result := vupdate (.vupdAnd d vi b ca dt) .and d vi b s
def execVupdOr (d vi : VNum) (b : XReg) (ca dt : Bool) (s : State) : Result := vupdate (.vupdOr d vi b ca dt) .or d vi b s
def execVupdXor (d vi : VNum) (b : XReg) (ca dt : Bool) (s : State) : Result := vupdate (.vupdXor d vi b ca dt) .xor d vi b s

/-! ## Lane scratch (R66, R206) -/

/-- A word of lane scratch; one that nothing has written has free contents (R55). -/
def Hart.scratchWord (h : Hart) (key : Nat) : LaneWord :=
  look h.scratch key ⟨(Config.freeWord (h.scratchAt + key)).setWidth 32, false⟩

/-- The key of the scratch word at a byte offset in a partition lane. -/
def scratchKey (lane off : Nat) : Nat := lane * 2048 + off / 4

/-- The checks of `VLSX` and `VSSX`: the active elements with their offsets. -/
def scratchChecks (c : Ctx) (d vi : VNum) (b : XReg) (load : Bool) : Except Stop (List (Nat × Nat)) := do
  let w := (c.h.getV d).tag.width
  indexTag c (.indexed vi false) w
  if load then copyTag c d else .ok ()
  let act := c.active w
  if load then writable c d else readableOp c (c.reg d) act
  if load then needOpen c d ((act ++ c.zeroed w).map (elemWord w)) else needElems c (c.reg d) act
  indexReady c (.indexed vi false) act
  if load then needCopy c d w else .ok ()
  indexPoison c (.indexed vi false) act
  let offs := act.map (fun e => (e, ((c.x b).toNat : Int) +
    (if (c.h.getV vi).tag.isSigned then (c.offset vi e).toInt else ((c.offset vi e).toNat : Int))))
  match offs.find? (fun o => o.2 % (elemBytes w : Int) != 0) with
  | some o => .error (.trap .align (wordOfInt o.2) c)
  | none =>
    match offs.find? (fun o => decide (o.2 < 0 ∨ (c.header.scratch : Int) < o.2 + elemBytes w)) with
    | some o => .error (.trap .prot (wordOfInt o.2) c)
    | none => .ok (offs.map (fun o => (o.1, o.2.toNat)))

/-- Lane cycles that a lane-scratch instruction loses to bank conflicts (R67, R68): in each window of 16 positions of a lane, those of its
busiest bank beyond what its elements take in four banks, with the lanes in step. -/
def scratchConflicts (h : Hart) (w : Nat) (offs : List (Nat × Nat)) : Nat :=
  let place (e : Nat) : Nat := h.wordPos (elemWord w e) * (32 / w) + e * w % 32 / w
  let bank (off : Nat) : Nat := off / 4 % 4 ^^^ off / 64 % 4
  let most (l : List Nat) : Nat := l.foldl max 0
  ((distinct (offs.map (fun o => place o.1 / 16))).map (fun n =>
    let mine := offs.filter (fun o => place o.1 / 16 == n)
    let lanes := (distinct (mine.map (fun o => h.wordLane (elemWord w o.1)))).map (fun l =>
      mine.filter (fun o => h.wordLane (elemWord w o.1) == l))
    most (lanes.map (fun l => most ((List.range 4).map (fun b => (l.filter (fun o => bank o.2 == b)).length)))) -
      most (lanes.map (fun l => ceilDiv l.length 4)))).sum

/-- The sample of a lane-scratch instruction. -/
def scratchSample (h : Hart) (w : Nat) (offs : List (Nat × Nat)) : AtRetire :=
  .sample 5 offs.length 0 0 0 (scratchConflicts h w offs)

def execVlsx (d vi : VNum) (b : XReg) (ca dt : Bool) (s : State) : Result :=
  issue (.vlsx d vi b ca dt) s fun c => do
    vecLegal c [d, vi] (some d)
    if c.h.vl = 0 then .ok c
    else do
      let t := (c.h.getV d).tag
      let w := t.width
      let offs ← scratchChecks c d vi b true
      let es := offs.map (fun o =>
        let x := c.h.scratchWord (scratchKey (c.h.wordLane (elemWord w o.1)) o.2)
        (⟨o.1, if x.poison then t.lostBits else x.val.toNat / 2 ^ (8 * (o.2 % 4)) % 2 ^ w, x.poison⟩ : Elem))
      .ok ((c.writeV d w (es ++ zeroElems w w 0 (c.zeroed w))).later (scratchSample c.h w offs))

/-- Writes elements into lane scratch in ascending index order, so that the higher index stands: bits, mask and poison gathered by
word. -/
def scratchWrites (h : Hart) (r : VReg) (offs : List (Nat × Nat)) : AMap Written :=
  let w := r.tag.width
  offs.foldl (fun m o =>
    let key := scratchKey (h.wordLane (elemWord w o.1)) o.2
    let old := look m key {}
    let sh := 8 * (o.2 % 4)
    let field := (2 ^ w - 1) * 2 ^ sh
    put m key ⟨(old.val - (old.val &&& field)) + r.bits w o.1 * 2 ^ sh, old.mask ||| field, old.poison || h.badElem r o.1⟩) []

def execVssx (d vi : VNum) (b : XReg) (ca dt : Bool) (s : State) : Result :=
  issue (.vssx d vi b ca dt) s fun c => do
    vecLegal c [d, vi] none
    if c.h.vl = 0 then .ok c
    else do
      let offs ← scratchChecks c d vi b false
      let scratch := (scratchWrites c.h (c.h.getV d) offs).foldl
        (fun m x => put m x.1 ((c.h.scratchWord x.1).write x.2)) c.h.scratch
      .ok (({ c with h := { c.h with scratch := scratch } } : Ctx).later
        (scratchSample c.h (c.h.getV d).tag.width offs))

/-! ## Capture (R211, R212) -/

/-- The lowest entry, by its place among those written, with a byte in a bad piece that the append does not cover whole. -/
def badEntry (s : State) (pas : List Nat) : Option Nat :=
  let bytes := pas.flatMap (fun p => span p 4)
  (List.range pas.length).find? (fun n =>
    let p := pieceOf (pas.getD n 0)
    (find? s.marks p).isSome && !(pieceBytes p).all bytes.contains)

/-- What `VCAPP` reads and writes at places of its block's ring that it has found, or at none where nothing is appended. -/
def cappRanges (q : QBlock) (va n : Nat) (places : Option (List Nat)) : List (Nat × Nat) × List (Nat × Nat) :=
  match places with
  | none => ([(va, 64)], [(va + 32, 8)])
  | some _ =>
    let r := appendRanges q va n
    ((va, 64) :: r.1, r.2 ++ (span q.tail n).map (fun e => (q.slot e, 4)))

/-- The start record that an append of n entries to a block reads, where it can. -/
def launchPlace (c : Ctx) (q : QBlock) (n : Nat) : Option (Nat × Nat) :=
  if q.launches n && q.launch % 128 == 0 && !inTcm q.launch then (hartTranslate c.s c.h ⟨true, false, false⟩ q.launch).2.toOption else none

/-- The virtual addresses that an append of n entries translates: the ring, the entries and the start record that it launches; none where
nothing is appended. -/
def QBlock.reached (q : QBlock) (n : Nat) : List Nat :=
  if q.ok && q.esize == 2 && decide (q.count + n ≤ q.capacity) then
    (q.ring :: (span q.tail n).map q.slot) ++ (if q.launches n && q.launch % 128 == 0 then [q.launch] else [])
  else []

/-- With each page that an append translates and that misses the TLB counted (R330). -/
def Ctx.countBlock (c : Ctx) (q : QBlock) (n : Nat) : Ctx := c.countMisses ((q.reached n).map (fun a => (0, BitVec.ofNat 64 a)))

/-- Where n bytes from a virtual address up lie, by page, as the hart's TLB or its page table has it. -/
def placesOf (s : State) (h : Hart) (va n : Nat) : List (Nat × Nat) :=
  (span (va / 2 ^ 21) ((va + n - 1) / 2 ^ 21 + 1 - va / 2 ^ 21)).flatMap (fun p =>
    let lo := max va (p * 2 ^ 21)
    let held := ((s.stk h.stack).tlb.find? (fun e => e.root == s.rootOf h && e.vpage == p)).map (·.leaf)
    (held.toList ++ (walk s (s.rootOf h) lo).2.toList).map (fun l => (leafAddress l lo, min (va + n) ((p + 1) * 2 ^ 21) - lo)))

/-- Where the ring of a block lies, and the start record that it may launch: what an append may reach. -/
def ringRanges (s : State) (h : Hart) (q : QBlock) : List (Nat × Nat) :=
  if q.ok then placesOf s h q.ring (q.capacity * q.entry) ++ (if q.armed = 1 ∧ q.launch ≠ 0 then placesOf s h q.launch 128 else []) else []

/-- The sample of a `VCAPP` of n entries, which has read some addresses in the array, writes others and reads a start record to launch. DESIGN
CHOICE (log 74): its class, for which the table has none, is 3, indexed (R330). -/
def cappSample (s : State) (n : Nat) (read pas : List Nat) (launch : Option (Nat × Nat)) : AtRetire :=
  let all := pas ++ (launch.map (·.1)).toList
  .sample 3 n (distinct (all.map (· / 128))).length (distinct (all.map (· / 2 ^ 21))).length
    (baseCount (read ++ pas ++ misses s (launch.map (fun p => (p.1, leafUc p.2))).toList))

/-- `VCAPP`. DESIGN CHOICE (log 16): where no position is active it accesses nothing, and the block's address is not checked. Its action at
the block's home, which finds the block as it is then, can come after its hart has gone on (R85, R218). -/
def execVcapp (a : VNum) (b : XReg) (ca dt : Bool) (s : State) : Result :=
  issue (.vcapp a b ca dt) s fun c => do
    vecLegal c [a] none
    if c.h.vl = 0 then .ok c
    else do
      let r := c.h.getV a
      tagsOk (r.tag == .uint32 || r.tag == .int32) c
      let act := c.active 32
      readable c a act
      needOpen c a (act.map (elemWord 32))
      if act.isEmpty then .ok (c.later (.sample 3 0 0 0 0))
      else do
        let va := c.x b
        let (p, c) ← blockAt (c.countMisses [(0, va)]) va
        let pa := p.1
        noPoison c 32 act (c.h.badElem r)
        inTurn c (span pa 64)
        let c := c.drainMeeting (span pa 64)
        needGood c pa 64 va
        let read := misses c.s [(pa, leafUc p.2)]
        let c := c.readBlockAt p
        let q := readBlock c.s pa
        let n := act.length
        let (places, c) := appendPlaces (c.countBlock q n) q n
        let pas := places.getD []
        inTurn c (pas.flatMap (fun p => span p 4))
        let c := c.drainMeeting (pas.flatMap (fun p => span p 4))
        match badEntry c.s pas with
        | some e =>
          let c := c.writeRows read pas
          .error (.trap .poison (BitVec.ofNat 64 (q.slot (q.tail + e))) { c with s := recordPieces c.s 1 (pas.map pieceOf) })
        | none => .ok ()
        let ranges := cappRanges q va.toNat n places
        let c ← dataWaypoints c ranges.1 ranges.2
        let words := act.map (r.bits 32)
        let launch := if places.isSome then launchPlace c q n else none
        let c := c.later (cappSample c.s n read (pa :: pas) launch)
        if c.late && !(c.h.dbg.isSome && c.h.ctl.getLsbD 3) then
          .ok (c.sendElems [⟨c.h.elemSeq, 0, pa, va, .append (ringRanges c.s c.h q) (!read.isEmpty), words.flatMap (toBytes 4), false, false,
            false, c.h.pc, []⟩])
        else do
          let at' := (launch.map (fun p => span p.1 128)).getD []
          inTurn c at'
          .ok (appendWords (c.drainMeeting at') pa words read)

/-! ## Ordering (R217, R218) -/

/-- `SVFENCE`: every earlier scalar store is performed before any later vector access. -/
def execSvfence (s : State) : Result := issue .svfence s fun c => .ok c.drainStores

/-- Waits until every remote write of the hart has completed or failed (R342). -/
def awaitRemoteWrites (c : Ctx) (scope : Nat) : Except Stop Unit :=
  if scope = 4 ∧ c.s.outstanding.any (fun e => e.2.hart == c.id && !e.2.load) then .error (.wait .remote c) else .ok ()

def execVdrain (sc : BitVec 3) (s : State) : Result :=
  issue (.vdrain sc) s fun c => do
    let c := c.drainElems
    awaitRemoteWrites c sc.toNat
    .ok c

end Sys2Proof.Machine
end

