-- ==== Sys2Proof/Machine/Tile.lean ====
section
/-! DEFINITION. Machine/Tile.lean: major 0x34, the tile unit (R221 to R233). -/

namespace Sys2Proof.Machine

/-! ## The tile and the accumulator rows (R222, R223) -/

/-- Rows of cells of a format. -/
def tileRows (fmt : Nat) : Nat := if fmt = 3 then 256 else 128

/-- The tags of the A operand of a format. -/
def tileOperand (fmt : Nat) (t : TypeTag) : Bool :=
  match fmt with
  | 0 | 1 => t == .int8 || t == .uint8
  | 2 => t == .mxInt8
  | _ => t == .mxE2m1

/-- The source tag of `TLD` of cells. -/
def tileSource : Nat → TypeTag
  | 1 => .uint8
  | 3 => .e2m1
  | _ => .int8

/-- The value of a cell under the scale of its column. -/
def cellValue (fmt cell scale : Nat) : FVal :=
  match fmt with
  | 0 => ofIntV (signed 8 cell)
  | 1 => ofIntV (cell % 256)
  | 2 => if scale = 255 then .nan else (ofIntV (signed 8 cell)).scale ((scale : Int) - 133)
  | _ => if scale = 255 then .nan else (fp4e2m1.value false (cell % 16)).scale ((scale : Int) - 127)

/-- Key of cell (k, c) of tile q. -/
def cellKey (q k c : Nat) : Nat := (q * 256 + k) * 128 + c

def Hart.cell (h : Hart) (q k c : Nat) : TileCell := look h.tileCells (cellKey q k c) {}
def Hart.colScale (h : Hart) (q c : Nat) : TileCell := look h.tileScale (q * 128 + c) ⟨127, false⟩

/-- The scratch word of entry c of accumulator row r in tile q. -/
def accKey (q r c : Nat) : Nat := scratchKey (q * 32 + c % 32) (16 * r + c / 32 * 4)

/-- Row r lies below the declared lane scratch. -/
def Ctx.rowUsable (c : Ctx) (r : Nat) : Bool := decide (16 * (r + 1) ≤ c.header.scratch)

/-- A lane word read as an fp32 element is poisoned. -/
def LaneWord.badF32 (w : LaneWord) : Bool := w.poison || w.val == 0x7FA00BAD

/-- The poisoned fp32 word. -/
def badWord : LaneWord := ⟨0x7FA00BAD, true⟩

/-- Every tile of the hart, with every output column. -/
def Hart.outputs (h : Hart) : List (Nat × Nat) :=
  (List.range h.cols).flatMap (fun q => (List.range 128).map (fun c => (q, c)))

/-- Writes lane-scratch words. -/
def Hart.putScratch (h : Hart) (ws : List (Nat × LaneWord)) : Hart := { h with scratch := putAll h.scratch ws }

/-! ## Checks -/

/-- `ILLEGAL` unless the hart holds a tile slot (R221). -/
def tileLegal (c : Ctx) (rs : List VNum) : Except Stop Unit :=
  legal (c.h.tileHeld && c.header.tile == 1 && c.h.lanes % 32 == 0 && c.declared rs) c

/-- Bits of xa outside a mask of fields are 0, else `ILLEGAL` with the value (R224). -/
def tileValue (c : Ctx) (v : Word) (mask : Word) : Except Stop Unit := need (v &&& ~~~mask == 0) .illegal v c

/-- A cause whose `TRAPINFO` the spec does not state takes a free value. -/
def needFree (b : Bool) (cause : Cause) (c : Ctx) : Except Stop Unit :=
  if b then .ok ()
  else .error (.trap cause (Config.freeWord c.s.free) { c with s := { c.s with free := c.s.free + 1 } })

/-- Waits until a transfer has ended. -/
def tileIdle (c : Ctx) : Except Stop Unit := if c.h.tileLoad.isSome then .error (.wait .tile c) else .ok ()

/-- Waits for the rows below n, and for scales. -/
def tileReady (c : Ctx) (reads : Nat → Bool) : Except Stop Unit :=
  match c.h.tileLoad with
  | none => .ok ()
  | some t => if t.scales || t.items.any (fun e => reads (e.1 / 128 % 256)) then .error (.wait .tile c) else .ok ()

/-- The tile as after `TCFG` of a format. -/
def Hart.clearTile (h : Hart) (fmt : Nat) : Hart :=
  { h with tileFmt := fmt, tileCells := [], tileScale := [], tileBad := [], tileLoad := none, tileParity := [] }

/-! ## Instructions -/

/-- At `vl` = 0 a tile instruction changes nothing (R62). -/
def tileOp (i : Instr) (rs : List VNum) (m : Ctx → Except Stop Ctx) (s : State) : Result :=
  issue i s fun c => do
    tileLegal c rs
    if c.h.vl = 0 then .ok c else m c

def execTcfg (a : XReg) (s : State) : Result :=
  tileOp (.tcfg a) [] (fun c => do
    tileValue c (c.x a) 0xF
    need (decide ((c.x a).toNat ≤ 3)) .illegal (c.x a) c
    tileIdle c
    .ok { c with h := c.h.clearTile (c.x a).toNat }) s

/-- The cells or scales that a `TLD` moves (R226). -/
def loadItems (h : Hart) (r : VReg) (t : Nat) (scales : Bool) : AMap TileCell :=
  let w := r.tag.width
  let n := h.perColumn * 32 / w
  let cell (e : Nat) : TileCell := ⟨BitVec.ofNat 8 (r.bits w e), (r.word (elemWord w e)).poison⟩
  putAll [] ((List.range h.cols).flatMap (fun q =>
    ((List.range n).filter (fun p => decide (q * n + p < h.vl) && (!scales || decide (p < 128)))).map (fun p =>
      (if scales then q * 128 + p else cellKey q (t + p / 128) (p % 128), cell (q * n + p)))))

/-- `TLD` (R226). DESIGN CHOICE (log 74): with S = 1 every position below `vl` must be open, the ignored ones from 128 up too. -/
def execTld (v : VNum) (a : XReg) (s : State) : Result :=
  tileOp (.tld v a) [v] (fun c => do
    let x := c.x a
    let sc := x.getLsbD 15
    let t := x.toNat % 256
    tileValue c x 0x80FF
    need (!sc || t == 0) .illegal x c
    let r := c.h.getV v
    tagsOk (if sc then r.tag == .uint8 && decide (2 ≤ c.h.tileFmt) else r.tag == tileSource c.h.tileFmt) c
    needOpen c v ((c.positions r.tag.width).map (elemWord r.tag.width))
    needFree (sc || decide (t + ceilDiv c.h.vl 128 ≤ tileRows c.h.tileFmt)) .prot c
    readable c v (c.positions r.tag.width)
    tileIdle c
    .ok { c with h := { c.h with tileLoad := some ⟨v, sc, loadItems c.h r t sc⟩ } }) s

/-- One output of a multiply: the exact sum of the products of some (row, value) pairs with the column's cells, added to the
accumulator entry with one rounding (R124, R227, R228), and its flags. -/
def tileSum (h : Hart) (q c r : Nat) (terms : List (Nat × FVal)) (bad : Bool) : LaneWord × Nat :=
  let acc := h.scratchWord (accKey q r c)
  let scale := h.colScale q c
  let cells := terms.map (fun t => (t.2, h.cell q t.1 c))
  if bad || acc.badF32 || (find? h.tileBad (q * 128 + c)).isSome || cells.any (·.2.poison)
      || (decide (2 ≤ h.tileFmt) && scale.poison && !cells.isEmpty) then (badWord, 0)
  else
    let products := cells.map (fun x => mulV x.1 (cellValue h.tileFmt x.2.val.toNat scale.val.toNat))
    let t := sumV false ((.fin false 0 0, 0) :: products)
    let e := fAdd fp32 (rne h.ftz) (fp32.value h.ftz acc.val.toNat) t.1
    (⟨BitVec.ofNat 32 e.1, false⟩, e.2)

/-- The key of a column's scale among the parities. -/
def scaleParity (q c : Nat) : Nat := 2 ^ 32 + q * 128 + c

/-- The output columns in which a cell or scale that an instruction reads fails its parity (R232). -/
def parityColumns (h : Hart) (terms : List (Nat × FVal)) : List Nat :=
  if h.tileParity.isEmpty then []
  else (h.outputs.filter (fun o =>
    terms.any (fun t => (find? h.tileParity (cellKey o.1 t.1 o.2)).isSome) ||
      (decide (2 ≤ h.tileFmt) && !terms.isEmpty && (find? h.tileParity (scaleParity o.1 o.2)).isSome))).map (fun o => o.1 * 128 + o.2)

/-- Output columns with a parity error are poisoned from now on, and the events are logged. -/
def markParity (c : Ctx) (terms : List (Nat × FVal)) : Ctx :=
  (parityColumns c.h terms).foldl (fun c k =>
    { c with s := c.s.note (.parity (c.h.column + k / 128)), h := { c.h with tileBad := put c.h.tileBad k () } }) c

/-- Writes the results of a row of outputs, and raises their flags. -/
def accumulate (c : Ctx) (r : Nat) (terms : List (Nat × FVal)) (bad : Bool) : Ctx :=
  let c := markParity c terms
  let rs := c.h.outputs.map (fun o => (accKey o.1 r o.2, tileSum c.h o.1 o.2 r terms bad))
  { c with h := (c.h.putScratch (rs.map (fun x => (x.1, x.2.1)))).raise (rs.foldl (fun f x => f ||| x.2.2) 0) }

def execTmul (v : VNum) (a : XReg) (s : State) : Result :=
  tileOp (.tmul v a) [v] (fun c => do
    let x := c.x a
    tileValue c x 0xFF01FF
    let r := x.toNat % 512
    let sl := x.toNat / 2 ^ 16 % 256
    let k := tileRows c.h.tileFmt
    let reg := c.h.getV v
    let o := Operand.reg v reg
    tagsOk (tileOperand c.h.tileFmt reg.tag) c
    let cap := c.h.capacity reg.tag.width
    let es := (span (sl * k) k).filter (fun e => decide (e < c.h.vl ∧ e < cap))
    needElems c o es
    needFree (decide ((sl + 1) * k ≤ cap) && c.rowUsable r) .prot c
    readableOp c o es
    residueOk c
    tileReady c (fun row => decide (sl * k + row < c.h.vl))
    .ok (accumulate c r (es.map (fun e => (e - sl * k, o.value c.h e))) (es.any (o.poisoned c.h)))) s

/-- `TMULS`. DESIGN CHOICE (log 16): a row that is not usable comes before an index of 128 or more. -/
def execTmuls (d v : VNum) (a : XReg) (s : State) : Result :=
  tileOp (.tmuls d v a) [d, v] (fun c => do
    let x := c.x a
    tileValue c x 0x1FF
    let r := x.toNat % 512
    let vals := c.h.getV d
    let idx := c.h.getV v
    let o := Operand.reg d vals
    tagsOk (decide (c.h.tileFmt ≤ 2) && tileOperand c.h.tileFmt vals.tag && (idx.tag == .int8 || idx.tag == .uint8)) c
    let es := c.positions 8
    needElems c o es
    needOpen c v (es.map (elemWord 8))
    needFree (c.rowUsable r) .prot c
    readableOp c o es
    readable c v es
    match es.find? (fun e => decide (128 ≤ idx.bits 8 e)) with
    | some e => .error (.trap .prot (BitVec.ofNat 64 e) c)
    | none => .ok ()
    noPoison c 8 es (c.h.badElem idx)
    residueOk c
    tileReady c (fun row => es.any (fun e => idx.bits 8 e == row))
    .ok (accumulate c r (es.map (fun e => (idx.bits 8 e, o.value c.h e))) (es.any (o.poisoned c.h)))) s

/-- The checks that `TRD` and `TACC` share, with those of the use that they make of vd after its `REGCLOSED`: the row (R231). -/
def accChecks (c : Ctx) (d : VNum) (x : Word) (use : Except Stop Unit) : Except Stop Nat := do
  tileValue c x 0x1FF
  tagsOk ((c.h.getV d).tag == .fp32) c
  needOpen c d (c.h.outputs.map (fun o => o.1 * c.h.perColumn + o.2))
  use
  need (c.rowUsable x.toNat) .prot x c
  .ok x.toNat

def execTrd (d : VNum) (a : XReg) (s : State) : Result :=
  tileOp (.trd d a) [d] (fun c => do
    let r ← accChecks c d (c.x a) (writable c d)
    let es := c.h.outputs.map (fun o =>
      let w := c.h.scratchWord (accKey o.1 r o.2)
      (⟨o.1 * c.h.perColumn + o.2, if w.badF32 then 0x7FA00BAD else w.val.toNat, w.badF32⟩ : Elem))
    .ok (c.writeV d 32 es)) s

/-- `TACC` (R231): a column that is marked poisoned poisons what it gives there too (R232). -/
def execTacc (d : VNum) (a : XReg) (s : State) : Result :=
  tileOp (.tacc d a) [d] (fun c => do
    let r ← accChecks c d (c.x a) (readable c d (c.h.outputs.map (fun o => o.1 * c.h.perColumn + o.2)))
    residueOk c
    let reg := c.h.getV d
    let rs := c.h.outputs.map (fun o =>
      let key := accKey o.1 r o.2
      let w := c.h.scratchWord key
      let v := reg.word (o.1 * c.h.perColumn + o.2)
      if w.badF32 || v.badF32 || (find? c.h.tileBad (o.1 * 128 + o.2)).isSome then (key, badWord, 0)
      else
        let e := fAdd fp32 (rne c.h.ftz) (fp32.value c.h.ftz w.val.toNat) (fp32.value c.h.ftz v.val.toNat)
        (key, (⟨BitVec.ofNat 32 e.1, false⟩ : LaneWord), e.2))
    .ok { c with h := (c.h.putScratch (rs.map (fun x => (x.1, x.2.1)))).raise (rs.foldl (fun f x => f ||| x.2.2) 0) }) s

def execTzero (a : XReg) (s : State) : Result :=
  tileOp (.tzero a) [] (fun c => do
    let x := c.x a
    tileValue c x 0x1FF01FF
    let r := x.toNat % 512
    let n := x.toNat / 2 ^ 16 % 512 + 1
    need (decide (r + n ≤ 512) && c.rowUsable (r + n - 1)) .prot x c
    .ok { c with h := c.h.putScratch ((span r n).flatMap (fun row =>
      c.h.outputs.map (fun o => (accKey o.1 row o.2, (⟨0, false⟩ : LaneWord))))) }) s

/-- `TREL` gives the tile units back (R230); `TEXIT` performs it too (R249). -/
def Hart.releaseTile (h : Hart) : Hart := { h.clearTile 0 with tileHeld := false }

def execTrel (s : State) : Result :=
  tileOp .trel [] (fun c => do
    tileIdle c
    .ok { c with h := c.h.releaseTile }) s

/-! ## Transfer (R226) -/

/-- The part of a transfer that moves next: a tile row in each column, or the scales. -/
def nextRow (t : TileLoad) : Nat → Bool :=
  match t.items with
  | [] => fun _ => true
  | e :: _ => if t.scales then fun _ => true else fun key => key / 128 % 256 == e.1 / 128 % 256

/-- `TLD_TRANSFER` moves the lowest tile row that is still to be moved in each column. -/
def execTldTransfer (h : Nat) (s : State) : Result :=
  match s.hart? h with
  | none => cannot
  | some hart =>
    match hart.tileLoad with
    | none => cannot
    | some t =>
      if (find? s.shadows h).isSome then cannot
      else
        let now := t.items.filter (fun e => nextRow t e.1)
        let rest := t.items.filter (fun e => !nextRow t e.1)
        let hart := hart.tileIn t.scales now
        .next (s.setHart h { hart with
          tileLoad := if rest.isEmpty then none else some { t with items := rest }
          wait := if hart.wait = .tile then .none else hart.wait })

end Sys2Proof.Machine
end

