-- ==== Sys2Proof/Machine/SmallMat.lean ====
section
/-! DEFINITION. Machine/SmallMat.lean: major 0x38, the small-matrix unit of each lane (R234 to R243). -/

namespace Sys2Proof.Machine

/-! ## Values with flags (R117, R118, R123) -/

/-- fp32 bits and the flags of the roundings that they come from. -/
structure FV where
  bits  : Nat
  flags : Nat := 0
  deriving DecidableEq, Repr

/-- A poisoned entry (R234). -/
def FV.bad (a : FV) : Bool := a.bits == 0x7FA00BAD
def poisonFV : FV := ⟨0x7FA00BAD, 0⟩
def FV.val (ftz : Bool) (a : FV) : FVal := fp32.value ftz a.bits

/-- The result of a rounded operation on some operands: poisoned when one of them is. -/
def rounded (l : List FV) (r : Nat × Nat) : FV :=
  if l.any (·.bad) then poisonFV else ⟨r.1, l.foldl (fun f x => f ||| x.flags) r.2⟩

def FV.add (ftz : Bool) (a b : FV) : FV := rounded [a, b] (fAdd fp32 (rne ftz) (a.val ftz) (b.val ftz))
def FV.mul (ftz : Bool) (a b : FV) : FV := rounded [a, b] (fMul fp32 (rne ftz) (a.val ftz) (b.val ftz))
def FV.div (ftz : Bool) (a b : FV) : FV := rounded [a, b] (fDiv fp32 (rne ftz) (a.val ftz) (b.val ftz))
def FV.sqrt (ftz : Bool) (a : FV) : FV := rounded [a] (fSqrt fp32 (rne ftz) (a.val ftz))
/-- d + a × b. -/
def FV.fma (ftz : Bool) (a b d : FV) : FV :=
  rounded [a, b, d] (fFma fp32 (rne ftz) (d.val ftz) (a.val ftz) (b.val ftz))
/-- d − a × b. -/
def FV.fms (ftz : Bool) (a b d : FV) : FV :=
  rounded [a, b, d] (fFma fp32 (rne ftz) (d.val ftz) (a.val ftz).neg (b.val ftz))

/-- A matrix as a list of rows. -/
abbrev Mat := List (List FV)
def Mat.at (m : Mat) (i j : Nat) : FV := (m.getD i []).getD j ⟨0, 0⟩
def Mat.of (r c : Nat) (f : Nat → Nat → FV) : Mat := (List.range r).map (fun i => (List.range c).map (f i))
def Mat.set (m : Mat) (i j : Nat) (v : FV) : Mat := List.set m i ((m.getD i []).set j v)
/-- The flags of the entries that are not poisoned. -/
def Mat.flags (m : Mat) : Nat := m.flatten.foldl (fun f x => if x.bad then f else f ||| x.flags) 0

/-! ## Registers (R234) -/

def matKey (lane reg i j : Nat) : Nat := ((lane * 4 + reg) * 6 + i) * 6 + j

def Hart.shape (h : Hart) (m : MReg) : MatShape := h.matShape[m.toNat]'(by have := m.isLt; omega)
def Hart.setShape (h : Hart) (m : MReg) (s : MatShape) : Hart :=
  { h with matShape := h.matShape.set m.toNat s (by have := m.isLt; omega) }

/-- Partition lanes. -/
def Hart.laneList (h : Hart) : List Nat :=
  (List.range h.cols).flatMap (fun q => (List.range h.laneCount).map (fun l => q * 32 + l))

/-- A register's matrix in a lane. -/
def Hart.getMat (h : Hart) (lane : Nat) (m : MReg) : Mat :=
  let s := h.shape m
  Mat.of s.rows s.cols (fun i j => ⟨(look h.mat (matKey lane m.toNat i j) 0).toNat, 0⟩)

/-- Writes a matrix into a register of one lane. -/
def Hart.putMat (h : Hart) (lane : Nat) (m : MReg) (x : Mat) : Hart :=
  { h with mat := putAll h.mat ((x.zipIdx).flatMap (fun row =>
      row.1.zipIdx.map (fun e => (matKey lane m.toNat row.2 e.2, BitVec.ofNat 32 e.1.bits)))) }

/-- `ILLEGAL` without lanes or small-matrix registers (R129, R236). -/
def matLegal (c : Ctx) : Except Stop Unit := legal (c.h.lanes != 0 && c.header.smat == 1) c

/-- An instruction that gives md a matrix in every lane, with a shape, after its tag check; `sums`: it goes through the accumulation path
(R232). -/
def matOp (sums : Bool) (i : Instr) (d : MReg) (ok : Hart → Bool) (shape : Hart → MatShape) (f : Ctx → Nat → Mat) (s : State) : Result :=
  issue i s fun c => do
    matLegal c
    tagsOk (ok c.h) c
    if sums then residueOk c else .ok ()
    let rs := c.h.laneList.map (fun l => (l, f c l))
    let h := rs.foldl (fun h r => h.putMat r.1 d r.2) (c.h.setShape d (shape c.h))
    .ok { c with h := h.raise (rs.foldl (fun fl r => fl ||| r.2.flags) 0) }

/-- A general shape. -/
def general (r c : Nat) : MatShape := ⟨r, c, .general⟩
/-- The shape of a register, in general form. -/
def Hart.plain (h : Hart) (m : MReg) : MatShape := { h.shape m with form := .general }

/-! ## Moves and elementwise operations (R238) -/

def execMset (d : MReg) (cols rows : BitVec 3) (s : State) : Result :=
  issue (.mset d cols rows) s fun c => do
    matLegal c
    legal (decide (rows.toNat ≤ 5 ∧ cols.toNat ≤ 5)) c
    let z := Mat.of (rows.toNat + 1) (cols.toNat + 1) (fun _ _ => ⟨0, 0⟩)
    let h := c.h.laneList.foldl (fun h l => h.putMat l d z) (c.h.setShape d (general (rows.toNat + 1) (cols.toNat + 1)))
    .ok { c with h := h }

def execMid (d : MReg) (s : State) : Result :=
  matOp false (.mid d) d (fun _ => true) (·.plain d)
    (fun c _ => Mat.of (c.h.shape d).rows (c.h.shape d).cols (fun i j => ⟨if i = j then 0x3F800000 else 0, 0⟩)) s

/-- `ALIGN` and `PROT` of `MLD` and `MST`. -/
def matPlace (c : Ctx) (d : MReg) (a : Word) : Except Stop Nat := do
  let sh := c.h.shape d
  need (a.toNat % 4 == 0) .align a c
  need (decide (a.toNat + 4 * (sh.rows * sh.cols) ≤ c.header.scratch)) .prot a c
  .ok a.toNat

def execMld (d : MReg) (x : XReg) (s : State) : Result :=
  issue (.mld d x) s fun c => do
    matLegal c
    let a ← matPlace c d (c.x x)
    let sh := c.h.shape d
    let h := c.h.laneList.foldl (fun h l => h.putMat l d (Mat.of sh.rows sh.cols (fun i j =>
      let w := c.h.scratchWord (scratchKey l (a + 4 * (i * sh.cols + j)))
      ⟨if w.poison then 0x7FA00BAD else w.val.toNat, 0⟩))) (c.h.setShape d (c.h.plain d))
    .ok { c with h := h }

def execMst (d : MReg) (x : XReg) (s : State) : Result :=
  issue (.mst d x) s fun c => do
    matLegal c
    let a ← matPlace c d (c.x x)
    let sh := c.h.shape d
    let ws := c.h.laneList.flatMap (fun l => (List.range (sh.rows * sh.cols)).map (fun n =>
      let v := (c.h.getMat l d).at (n / sh.cols) (n % sh.cols)
      (scratchKey l (a + 4 * n), (⟨BitVec.ofNat 32 v.bits, v.bad⟩ : LaneWord))))
    .ok { c with h := c.h.putScratch ws }

def execMadd (d a b : MReg) (s : State) : Result :=
  matOp true (.madd d a b) d
    (fun h => decide ((h.shape a).rows = (h.shape b).rows ∧ (h.shape a).cols = (h.shape b).cols)) (·.plain a)
    (fun c l =>
      let x := c.h.getMat l a
      let y := c.h.getMat l b
      Mat.of (c.h.shape a).rows (c.h.shape a).cols (fun i j => (x.at i j).add c.h.ftz (y.at i j))) s

def execMscal (d a : MReg) (x : XReg) (s : State) : Result :=
  matOp false (.mscal d a x) d (fun _ => true) (·.plain a)
    (fun c l =>
      let m := c.h.getMat l a
      let k : FV := ⟨(c.x x).toNat % 2 ^ 32, 0⟩
      Mat.of (c.h.shape a).rows (c.h.shape a).cols (fun i j => (m.at i j).mul c.h.ftz k)) s

def execMtrn (d a : MReg) (s : State) : Result :=
  matOp false (.mtrn d a) d (fun _ => true) (fun h => general (h.shape a).cols (h.shape a).rows)
    (fun c l =>
      let m := c.h.getMat l a
      Mat.of (c.h.shape a).cols (c.h.shape a).rows (fun i j => m.at j i)) s

/-- The chain of R123 from a start. -/
def chain (ftz : Bool) (x y : Mat) (n i j : Nat) (start : FV) : FV :=
  (List.range n).foldl (fun t k => (x.at i k).fma ftz (y.at k j) t) start

/-- A product with a start for each entry. -/
def product (c : Ctx) (l : Nat) (a b : MReg) (start : Nat → Nat → FV) : Mat :=
  let x := c.h.getMat l a
  let y := c.h.getMat l b
  Mat.of (c.h.shape a).rows (c.h.shape b).cols (fun i j => chain c.h.ftz x y (c.h.shape a).cols i j (start i j))

def execMmul (d a b : MReg) (s : State) : Result :=
  matOp true (.mmul d a b) d (fun h => (h.shape a).cols == (h.shape b).rows)
    (fun h => general (h.shape a).rows (h.shape b).cols)
    (fun c l => product c l a b (fun _ _ => ⟨0, 0⟩)) s

def execMmac (d a b : MReg) (s : State) : Result :=
  matOp true (.mmac d a b) d
    (fun h => decide ((h.shape a).cols = (h.shape b).rows ∧ (h.shape d).rows = (h.shape a).rows
      ∧ (h.shape d).cols = (h.shape b).cols))
    (fun h => general (h.shape a).rows (h.shape b).cols)
    (fun c l =>
      let m := c.h.getMat l d
      product c l a b (fun i j => m.at i j)) s

/-! ## Factorisations (R239, R240) -/

/-- What a factorisation of one lane leaves: the factor, the permutation, the lane flags and the floating flags. -/
structure Factor where
  m     : Mat
  perm  : List Nat := []
  sing  : Bool := false
  npd   : Bool := false
  small : Bool := false
  fail  : Bool := false
  flags : Nat := 0
  deriving DecidableEq, Repr

/-- Less in magnitude, for values that are not NaN. -/
def smaller (a b : FVal) : Bool :=
  match a, b with
  | .nan, _ => false
  | _, .nan => false
  | .inf _, _ => false
  | .fin .., .inf _ => true
  | .fin _ m e, .fin _ m' e' => below (.fin false m e) (.fin false m' e')

/-- A nonzero pivot is below TINY (R235). -/
def isTiny (ftz : Bool) (tiny : Nat) (p : FVal) : Bool := smaller p (fp32.value ftz tiny)

/-- d > 0. -/
def positive : FVal → Bool
  | .nan => false
  | .inf n => !n
  | .fin n m _ => !n && m != 0

/-- Column j of `MCHOL`. -/
def cholColumn (ftz : Bool) (tiny n : Nat) (a : Mat) (f : Factor) (j : Nat) : Factor :=
  let clear (x : FV) : FV := ⟨x.bits, 0⟩
  let sub (i : Nat) (from' : FV) : FV :=
    (List.range j).foldl (fun t k => (clear (f.m.at i k)).fms ftz (clear (f.m.at j k)) t) from'
  let d := sub j (a.at j j)
  let v := d.val ftz
  if f.fail || !positive v then
    let f := if f.fail then f else { f with npd := true, sing := f.sing || v.isZero, flags := f.flags ||| d.flags }
    { f with fail := true, m := (span j (n - j)).foldl (fun m i => m.set i j ⟨0x7FC00000, 0⟩) f.m }
  else
    let root := (clear d).sqrt ftz
    let f := { f with
      small := f.small || isTiny ftz tiny v
      m := f.m.set j j (clear root)
      flags := f.flags ||| d.flags ||| root.flags }
    (span (j + 1) (n - 1 - j)).foldl (fun g i =>
      let q := (sub i (a.at i j)).div ftz (clear root)
      { g with m := g.m.set i j (clear q), flags := g.flags ||| q.flags }) f

def cholesky (ftz : Bool) (tiny n : Nat) (a : Mat) : Factor :=
  (List.range n).foldl (cholColumn ftz tiny n a) { m := Mat.of n n (fun _ _ => ⟨0, 0⟩) }

/-- The pivot row of step k of `MLU`. -/
def pivotRow (ftz : Bool) (n k : Nat) (a : Mat) : Nat :=
  let rows := span k (n - k)
  match rows.find? (fun i => ((a.at i k).val ftz).isNan) with
  | some i => i
  | none => rows.foldl (fun p i => if smaller ((a.at p k).val ftz) ((a.at i k).val ftz) then i else p) k

/-- A list with the places i and j exchanged. -/
def swapAt {α : Type} (l : List α) (i j : Nat) : List α :=
  match l[i]?, l[j]? with
  | some x, some y => (l.set i y).set j x
  | _, _ => l

/-- Step k of `MLU`. -/
def luStep (ftz : Bool) (tiny n : Nat) (f : Factor) (k : Nat) : Factor :=
  let p := pivotRow ftz n k f.m
  let f := { f with m := swapAt f.m k p, perm := swapAt f.perm k p }
  let piv := f.m.at k k
  let v := piv.val ftz
  if v.isZero then { f with sing := true }
  else
    let f := { f with small := f.small || isTiny ftz tiny v }
    (span (k + 1) (n - 1 - k)).foldl (fun g i =>
      let q := (g.m.at i k).div ftz piv
      let g := { g with m := g.m.set i k ⟨q.bits, 0⟩, flags := g.flags ||| q.flags }
      (span (k + 1) (n - 1 - k)).foldl (fun g j =>
        let t := (g.m.at i k).fms ftz (g.m.at k j) (g.m.at i j)
        { g with m := g.m.set i j ⟨t.bits, 0⟩, flags := g.flags ||| t.flags }) g) f

def luFactor (ftz : Bool) (tiny n : Nat) (a : Mat) : Factor :=
  (List.range n).foldl (luStep ftz tiny n) { m := a, perm := List.range n }

/-- Lane flags as they are kept: SING, NPD, SMALL from bit 0. -/
def Factor.bits (f : Factor) : BitVec 3 := BitVec.ofNat 3 (f.sing.toNat + 2 * f.npd.toNat + 4 * f.small.toNat)

/-- `MCHOL` and `MLU`: `reads` says which entries are read, and a poisoned one raises `POISON`. -/
def factorise (i : Instr) (d a : MReg) (form : MatForm) (reads : Nat → Nat → Bool) (f : Bool → Nat → Nat → Mat → Factor)
    (s : State) : Result :=
  issue i s fun c => do
    matLegal c
    let sh := c.h.shape a
    tagsOk (sh.rows == sh.cols) c
    let n := sh.rows
    let isBad (l : Nat) : Bool :=
      let m := c.h.getMat l a
      (List.range n).any (fun i => (List.range n).any (fun j => reads i j && (m.at i j).bad))
    match c.h.laneList.find? isBad with
    | some l => .error (poisonAt c .lane l)
    | none => do
      residueOk c
      let rs := c.h.laneList.map (fun l => (l, f c.h.ftz (c.h.mstat.toNat / 2 ^ 32) n (c.h.getMat l a)))
      let h := rs.foldl (fun h r =>
        let h := h.putMat r.1 d r.2.m
        { h with
          perm := put h.perm (r.1 * 4 + d.toNat) r.2.perm
          laneFlags := put h.laneFlags r.1 r.2.bits
          mstat := h.mstat ||| r.2.bits.setWidth 64 }) (c.h.setShape d ⟨n, n, form⟩)
      .ok { c with h := h.raise (rs.foldl (fun fl r => fl ||| r.2.flags) 0) }

def execMchol (d a : MReg) (s : State) : Result :=
  factorise (.mchol d a) d a .cholesky (fun i j => decide (j ≤ i)) cholesky s
def execMlu (d a : MReg) (s : State) : Result := factorise (.mlu d a) d a .lu (fun _ _ => true) luFactor s

/-! ## Solving (R241) -/

/-- One unknown: the right side less a sum over ks, divided by the diagonal entry, or not. -/
def unknown (ftz : Bool) (coef : Nat → FV) (xs : Nat → FV) (ks : List Nat) (right : FV) (diag : Option FV) : FV :=
  let t := ks.foldl (fun t k => (coef k).fms ftz (xs k) t) right
  match diag with
  | some q => t.div ftz q
  | none => t

/-- The solution for one column of the right side. -/
def solveColumn (ftz : Bool) (n : Nat) (chol : Bool) (f : Mat) (perm : List Nat) (b : Nat → FV) : List FV :=
  let start := List.replicate n (⟨0, 0⟩ : FV)
  let get (l : List FV) (k : Nat) : FV := l.getD k ⟨0, 0⟩
  let y := (List.range n).foldl (fun (l : List FV) i =>
    let right := if chol then b i else b (perm.getD i i)
    l.set i (unknown ftz (fun k => f.at i k) (get l) (List.range i) right (if chol then some (f.at i i) else none))) start
  (List.range n).reverse.foldl (fun (l : List FV) i =>
    l.set i (unknown ftz (fun k => if chol then f.at k i else f.at i k) (get l) (span (i + 1) (n - 1 - i)) (get y i)
      (some (f.at i i)))) start

def execMsolv (d a b : MReg) (s : State) : Result :=
  matOp true (.msolv d a b) d
    (fun h => (h.shape a).form != .general && (h.shape a).rows == (h.shape a).cols && (h.shape a).cols == (h.shape b).rows)
    (fun h => general (h.shape a).rows (h.shape b).cols)
    (fun c l =>
      let n := (c.h.shape a).rows
      let m := c.h.getMat l a
      let rhs := c.h.getMat l b
      let cols := (List.range (c.h.shape b).cols).map (fun j =>
        solveColumn c.h.ftz n ((c.h.shape a).form == .cholesky) m (look c.h.perm (l * 4 + a.toNat) []) (fun i => rhs.at i j))
      Mat.of n (c.h.shape b).cols (fun i j => (cols.getD j []).getD i ⟨0, 0⟩)) s

/-! ## MFLAG (R242) -/

/-- Flag f of a lane. -/
def Hart.laneFlag (h : Hart) (lane f : Nat) : Bool :=
  let b := look h.laneFlags lane 0
  if f = 3 then b != 0 else b.getLsbD f

def execMflag (f : BitVec 2) (k : KReg) (s : State) : Result :=
  issue (.mflag f k) s fun c => do
    matLegal c
    .ok { c with h := c.h.setK k ((List.range c.h.vl).foldl (fun m i =>
      putBit m i (decide (i < c.h.vlmax) && c.h.laneFlag (c.h.wordLane i) f.toNat)) (c.h.getK k)) }

end Sys2Proof.Machine
end

