-- ==== Sys2Proof/Machine/Channels.lean ====
section
/-! DEFINITION. Machine/Channels.lean: stream channels (R264 to R271): `SCFG`, `SSTEP`, `SSTAT`, `SCLOSE` and the fetch. -/

namespace Sys2Proof.Machine

/-! ## Binding (R265, R266) -/

/-- Bytes of a block that an instruction reads without a trap; what a bad piece gives is free (R306). -/
def blockByte (s : State) (pa : Nat) : Byte := if badByte s pa then Config.freeByte (s.free + pa % 128) else loadByte s pa

/-- n bytes of a channel block. -/
def blockNat (s : State) (pa n : Nat) : Nat := ofBytes ((span pa n).map (blockByte s))

/-- The offset of the first malformed field of a channel block, where there is one: a register's capacity bounds the strip. -/
def badField (c : Ctx) (pa : Nat) : Option Nat :=
  let f (off n : Nat) : Nat := blockNat c.s (pa + off) n
  let dest := f 0x30 1
  let declared := decide (dest < c.header.vregCount)
  let cap := c.h.capacity (c.h.getV (BitVec.ofNat 6 dest)).tag.width
  let fields : List (Nat × Bool) :=
    [(0x00, decide (1 ≤ f 0 8 ∧ f 0 8 < 2 ^ 48)),
     (0x1C, decide (1 ≤ f 0x1C 4 ∧ f 0x1C 4 ≤ 2 ^ 24)),
     (0x20, f 0x20 8 % 8 == 0),
     (0x28, f 0x20 8 == 0 || decide (1 ≤ f 0x28 4 ∧ f 0x28 4 ≤ 2 ^ 20)),
     (0x2C, decide (1 ≤ f 0x2C 4) && (!declared || decide (f 0x2C 4 ≤ cap))),
     (0x30, declared),
     (0x31, decide (f 0x31 1 ≤ 1)),
     (0x32, f 0x32 14 == 0)]
  (fields.find? (fun e => !e.2)).map (·.1)

/-- The channel that a block describes, for an instruction at pc. -/
def channelOf (s : State) (pa : Nat) (pc : Word) : Channel where
  total := blockNat s pa 8
  base := blockNat s (pa + 8) 8
  rstride := signed 64 (blockNat s (pa + 0x10) 8)
  estride := signed 32 (blockNat s (pa + 0x18) 4)
  rlen := blockNat s (pa + 0x1C) 4
  btable := blockNat s (pa + 0x20) 8
  bsize := blockNat s (pa + 0x28) 4
  strip := blockNat s (pa + 0x2C) 4
  dest := BitVec.ofNat 6 (blockNat s (pa + 0x30) 1)
  auto := blockNat s (pa + 0x31) 1 % 2 == 1
  pc := pc

/-- Another hart of the column holds a channel; a Saved hart keeps its binding (R270). -/
def heldByOther (s : State) (id : Nat) (h : Hart) (n : Nat) : Bool :=
  s.harts.any (fun e => e.1 != id && e.2.column == h.column && (find? e.2.chans n).isSome &&
    (e.2.status == .resident || e.2.status == .halted || e.2.status == .saved))

/-- `SCLOSE` of a channel (R270): accesses of its fetch that have not come back are dropped. -/
def closeChannel (s : State) (id : Nat) (h : Hart) (n : Nat) : State × Hart :=
  ({ s with outstanding := s.outstanding.filter (fun e => !(e.2.hart == id && e.2.chan == some n)) },
    { h with chans := del h.chans n })

/-- `ILLEGAL` on a hart without lanes (R264). -/
def chanLegal (c : Ctx) : Except Stop Unit := legal (c.h.lanes != 0) c

/-- Binds channel n as the block at va describes it: the register takes 0, or 1 where another hart holds the channel (R266, R270). -/
def bindChannel (d : XReg) (n : BitVec 2) (va : Word) (pa : Nat) (c : Ctx) : Except Stop Ctx :=
  match badField c pa with
  | some off => .error (.trap .prot (va + BitVec.ofNat 64 off) c)
  | none => do
    let ch := channelOf c.s pa c.h.pc
    let w := (c.h.getV ch.dest).tag.width
    tagsOk (w != 4) c
    needOpen c ch.dest ((List.range ch.strip).map (elemWord w))
    settled c ch.dest
    let c := { c with s := { c.s with free := c.s.free + 128 } }
    if heldByOther c.s c.id c.h n.toNat then ret d 1 c
    else
      let c := c.drainStores
      let r := closeChannel c.s c.id c.h n.toNat
      ret d 0 { c with s := r.1, h := { r.2 with chans := put r.2.chans n.toNat ch } }

def execScfg (d a : XReg) (n : BitVec 2) (s : State) : Result :=
  issue (.scfg d a n) s fun c => do
    chanLegal c
    let va := c.x a
    let (p, c) ← placeGeneric c va 64 ⟨true, false, false⟩
    let c := c.drainOverlap p.1 64
    bindChannel d n va p.1 (c.global (fun s =>
      recordPieces (readAccess s [(p.1, leafUc p.2)] false (.base c.id)) 1 (piecesOf p.1 64)))

/-! ## Advancing, status, closing (R268, R270, R271) -/

/-- `SSTEP`; a channel that the hart does not hold has no strip to advance. -/
def execSstep (n : BitVec 2) (s : State) : Result :=
  issue (.sstep n) s fun c => do
    chanLegal c
    match find? c.h.chans n.toNat with
    | none => .ok c
    | some ch =>
      let c := c.drainStores
      .ok { c with h := { c.h with chans := put c.h.chans n.toNat (ch.advance c.h.pc) } }

/-- The end of the strip: one past its last element. -/
def Channel.stop (ch : Channel) : Nat := min (ch.k * ch.strip + ch.strip) ch.total

/-- The state code of a bound channel. -/
def Channel.state (ch : Channel) : Nat :=
  if ch.fault.isSome then 4
  else if ch.total ≤ ch.k * ch.strip then 3
  else if ch.m = ch.stop then 2
  else 1

/-- What `SSTAT` returns. -/
def chanStatus (s : State) (id : Nat) (h : Hart) (n : Nat) : Word :=
  match find? h.chans n with
  | some ch => BitVec.ofNat 64 (ch.state * 2 ^ 48 + ch.m)
  | none => if heldByOther s id h n then BitVec.ofNat 64 (5 * 2 ^ 48) else 0

def execSstat (d : XReg) (n : BitVec 2) (s : State) : Result :=
  issue (.sstat d n) s fun c => do
    chanLegal c
    filmed 8 c (fun c => .ok (⟨false, chanStatus c.s c.id c.h n.toNat, 0⟩, c)) (fun c _ => c) (fun v c => c.setX d v.lo)

def execSclose (n : BitVec 2) (s : State) : Result :=
  issue (.sclose n) s fun c => do
    chanLegal c
    if (find? c.h.chans n.toNat).isNone then .ok c
    else
      let r := closeChannel c.s c.id c.h n.toNat
      .ok { c with s := r.1, h := r.2 }

/-! ## The fetch (R265, R267, R269) -/

/-- Elements of the strip that may still come into the buffer: from the milestone on, below one that met a cause. -/
def Channel.missing (ch : Channel) : List Nat :=
  (span ch.m (((ch.fault.map (·.1)).getD ch.stop) - ch.m)).filter (fun e => !ch.ahead.contains e)

/-- The milestone and the elements ahead of it, once element e is in the buffer (R267). -/
def Channel.take (ch : Channel) (e : Nat) : Channel :=
  let have' := e :: ch.ahead
  let m := ch.m + ((span ch.m (ch.stop - ch.m)).takeWhile have'.contains).length
  { ch with m := m, ahead := have'.filter (fun n => decide (m ≤ n)) }

/-- The block table entry of element e, as the strip has it or reads it (R266), with RECORD of a page that is read; or its cause. -/
def tableEntry (s : State) (id n : Nat) (h : Hart) (ch : Channel) (e : Nat) : State × Except (Cause × Word) (Channel × Nat) :=
  let b := e / ch.rlen / ch.bsize
  match find? ch.entries b with
  | some v => (s, .ok (ch, v.toNat))
  | none =>
    let va := (ch.btable + 8 * b) % 2 ^ 64
    if inTcm va then (s, .error (.prot, BitVec.ofNat 64 va))
    else match hartTranslate s h ⟨true, false, false⟩ va with
      | (s, .error cause) => (s, .error (cause, BitVec.ofNat 64 va))
      | (s, .ok (pa, leaf)) =>
        let s := readAccess s [(pa, leafUc leaf)] false (.stream id n)
        if badBytes s pa 8 then (recordPieces s 2 (piecesOf pa 8), .error (.poison, BitVec.ofNat 64 va))
        else
          let v := loadNat s pa 8
          (s, .ok ({ ch with entries := put ch.entries b (BitVec.ofNat 64 v), recRead := ch.recRead || leafRec leaf }, v))

/-- The address of element e, with the channel as the reading of its block table leaves it, or the cause (R265, R269). -/
def elementAddress (s : State) (id n : Nat) (h : Hart) (ch : Channel) (e : Nat) : State × Except (Cause × Word) (Channel × Word) :=
  let i := e / ch.rlen
  let j := e % ch.rlen
  if ch.btable = 0 then (s, .ok (ch, wordOfInt (ch.base + i * ch.rstride + j * ch.estride)))
  else match tableEntry s id n h ch e with
    | (s, .error x) => (s, .error x)
    | (s, .ok (ch, v)) => (s, .ok (ch, wordOfInt (v + ch.base + (i % ch.bsize : Nat) * ch.rstride + j * ch.estride)))

/-- Where element e lies: the channel, virtual and physical address and leaf, or the cause that it meets. -/
def elementPlace (s : State) (id n : Nat) (h : Hart) (ch : Channel) (e : Nat) :
    State × Except (Cause × Word) (Channel × Word × Nat × Nat) :=
  match elementAddress s id n h ch e with
  | (s, .error x) => (s, .error x)
  | (s, .ok (ch, va)) =>
    if va.toNat % ((h.getV ch.dest).tag.width / 8) ≠ 0 then (s, .error (.align, va))
    else if inTcm va.toNat then (s, .error (.prot, va))
    else match hartTranslate s h ⟨true, false, true⟩ va.toNat with
      | (s, .error cause) => (s, .error (cause, va))
      | (s, .ok (pa, leaf)) => (s, .ok (ch, va, pa, leaf))

/-- The lowest of some elements that meets a cause; the others' places go unused (R269). -/
def lowestFault (id n : Nat) (h : Hart) : List Nat → State → Channel → State × Channel × Option (Nat × Cause × Word)
  | [], s, ch => (s, ch, none)
  | e :: l, s, ch =>
    match elementPlace s id n h ch e with
    | (s, .error x) => (s, ch, some (e, x.1, x.2))
    | (s, .ok (ch, _)) => lowestFault id n h l s ch

/-- The film holds back element e of a strip: with it the strip ends, which is filmed, and in STALL mode the film is full (R333). -/
def stripHeld (s : State) (h : Hart) (ch : Channel) (e : Nat) (record : Bool) : Bool :=
  (ch.take e).m == ch.stop && (ch.recRead || record) && h.filmMode == 1 && !h.filmDiv && !h.filmstat.getLsbD 63 && filmIsFull s h

/-- What a hart whose strip is held does: it notes that the film is full, the first time. -/
def holdStrip (s : State) (id : Nat) (h : Hart) : Option State := if h.filmFull then none else some (noteHeld s id)

/-- An element arrives in the strip buffer, and the milestone follows; the end of a strip that has read a RECORD page is filmed
(KIND 14, R332). None: the strip waits. -/
def deliverElement (s : State) (id n : Nat) (h : Hart) (ch : Channel) (e : Nat) (x : Elem) (record : Bool) : Option State :=
  let r := h.getV ch.dest
  let w := r.tag.width
  let r' := r.writeElems w [x]
  let ch' := { ch.take e with recRead := ch.recRead || record }
  let wake (h : Hart) : Hart := { h with wait := if h.wait = .channel n then .none else h.wait }
  if ch'.m = ch.stop ∧ ch'.recRead then
    let c : Ctx := ⟨s, id, { h with pc := ch.pc }, 0, false, none, 0, []⟩
    match filmedNow 14 c (writtenWords r' w (List.range (ch.stop - ch.k * ch.strip))) with
    | .ok c => some (c.s.setHart id (wake { c.h.setV ch.dest r' with pc := h.pc, chans := put h.chans n ch' }))
    | .error (.trap cause info c) => if h.caughtUp then some (deliver c.s id { c.h with pc := h.pc } cause h.pc info) else none
    | .error (.wait _ _) => none
  else some (s.setHart id (wake { h.setV ch.dest r' with chans := put h.chans n ch' }))

/-- The fetch of element e of channel n, once no element before it meets a cause. -/
def fetchElement (s : State) (id n : Nat) (h : Hart) (ch : Channel) (e : Nat) : Option State :=
  match elementPlace s id n h ch e with
  | (_, .error _) => none
  | (s, .ok (ch, va, pa, leaf)) =>
    let t := (h.getV ch.dest).tag
    let size := t.width / 8
    if regionOf pa = .remote then
      let s := sendAccess s ⟨id, true, pa, va, h.pc, ch.dest, e, some n, List.replicate size 0, none, 0, 0⟩
      some (s.modHart id (fun h => { h with chans := put h.chans n ch }))
    else
      if stripHeld s h ch e (leafRec leaf) then holdStrip s id h
      else
      let s := readAccess s [(pa, leafUc leaf)] false (.stream id n)
      let x : Elem :=
        if badBytes s pa size then ⟨e - ch.k * ch.strip, t.lostBits, true⟩ else ⟨e - ch.k * ch.strip, loadNat s pa size, false⟩
      let s := recordPieces s 2 (piecesOf pa size)
      deliverElement s id n ((s.hart? id).getD h) ch e x (leafRec leaf)

/-- `STREAM_FETCH`: channel n fetches one of the elements that its strip lacks; which one is free (R267). The lowest element up to it
that meets a cause puts the channel in fault, and nothing from there on is written (R269). -/
def execStreamFetch (id n : Nat) (s : State) : Result :=
  match s.hart? id with
  | none => cannot
  | some h =>
    match find? h.chans n with
    | none => cannot
    | some ch =>
      let sent := (s.outstanding.filter (fun o => o.2.hart == id && o.2.chan == some n)).map (·.2.idx)
      let l := ch.missing.filter (fun e => !sent.contains e)
      if h.status ≠ .resident ∨ (find? s.shadows id).isSome ∨ l.isEmpty then cannot
      else
        let e := l.getD (Config.pick s.free % l.length) ch.m
        match lowestFault id n h (ch.missing.filter (fun a => decide (a ≤ e))) { s with free := s.free + 1 } ch with
        | (s, ch, some f) =>
          .next (s.modHart id (fun h => { h with
            chans := put h.chans n { ch with fault := some f }
            wait := if h.wait = .channel n then .none else h.wait }))
        | (s, ch, none) =>
          match fetchElement s id n ((s.hart? id).getD h) ch e with
          | some s => .next s
          | none => cannot

end Sys2Proof.Machine
end

