-- ==== Sys2Proof/Machine/SysReg.lean ====
section
/-! DEFINITION. Machine/SysReg.lean: major 0x17: `NOP`, `SRD`, `SWR`, and the events that access a system register (R141, R142,
R171). -/

namespace Sys2Proof.Machine

/-- `REFDEBT` of a column (R312). -/
def refdebt (c : Column) : Word := BitVec.ofNat 64 (c.forced.toNat * 2 ^ 16 + (c.debt % 65536).toNat)

/-- The value of a system register for a hart (R141, R365). -/
def sysRead (s : State) (h : Hart) (n : Nat) : Word :=
  match n with
  | 0x000 => BitVec.ofNat 64 h.vlmax
  | 0x001 => BitVec.ofNat 64 h.geom
  | 0x002 => BitVec.ofNat 64 h.ctx
  | 0x003 => BitVec.ofNat 64 (h.column % 256)
  | 0x004 => BitVec.ofNat 64 h.stack
  | 0x010 => h.cycle
  | 0x011 => h.retired
  | 0x020 => h.trapcause
  | 0x021 => h.trappc
  | 0x022 => h.trapinfo
  | 0x023 => h.trapvec
  | 0x030 => h.fpmode
  | 0x031 => h.fpflags
  | 0x032 => h.mstat
  | 0x033 => h.pfxstate
  | 0x040 => h.footthr
  | 0x041 => h.bbcbase
  | 0x050 => h.filmbase
  | 0x051 => h.filmstat
  | 0x060 => (s.col h.column).errcol
  | 0x061 => (s.col h.column).refowner
  | 0x062 => refdebt (s.col h.column)
  | _ => 0

/-- The registers that task mode may write (R142). -/
def taskWritable (n : Nat) : Bool :=
  [0x020, 0x021, 0x022, 0x023, 0x030, 0x031, 0x032, 0x033, 0x040, 0x041, 0x061].contains n

/-- `FPMODE` as a write leaves it; the generators are seeded anew (R108, R112). -/
def writeFpmode (h : Hart) (v : Word) : Hart := { h with fpmode := v &&& 0xFFFFFFFF0000000F, rnd := [] }

/-- `MSTAT` as a write leaves it: TINY written, summary bits cleared by 1 (R235). -/
def writeMstat (h : Hart) (v : Word) : Hart :=
  { h with mstat := (v &&& 0xFFFFFFFF00000000) ||| (h.mstat &&& 0x7 &&& ~~~v) }

/-- `ERRCOL` as a steward's write leaves it (R305): a 1 in V clears the record, a 1 in a bit of COUNT clears that bit. -/
def writeErrcol (e v : Word) : Word := if v.getLsbD 63 then 0 else e &&& ~~~(v &&& 0xFF)

/-- A write of `REFOWNER` in task mode (R312): V = 1 names the hart in every column of its partition; V = 0 clears the register
where the hart is the owner. -/
def writeOwner (s : State) (id : Nat) (h : Hart) (v : Word) : State :=
  h.columns.foldl (fun s n => s.modCol n fun c =>
    if v.getLsbD 8 then { c with refowner := BitVec.ofNat 64 (2 ^ 8 + h.ctx), owner := some id }
    else if c.owner = some id then { c with refowner := 0, owner := none }
    else c) s

/-- Clears V in each column of a hart's partition where the hart is the owner (R312). -/
def dropOwner (s : State) (id : Nat) (h : Hart) : State :=
  h.columns.foldl (fun s n => s.modCol n fun c =>
    if c.owner = some id then { c with refowner := c.refowner &&& 0x7, owner := none } else c) s

/-- The hart that stands in a column under a context number: one whose column it is, else a wide one whose partition holds it. -/
def hartAt (s : State) (column ctx : Nat) : Option Nat :=
  let here := s.harts.filter (fun e => e.2.inPlace && e.2.columns.contains column && e.2.ctx == ctx)
  ((here.find? (·.2.column == column)).orElse (fun _ => here.head?)).map (·.1)

/-- A steward's write of `REFOWNER`: any value. -/
def stewardOwner (s : State) (column : Nat) (v : Word) : State :=
  s.modCol column fun c =>
    { c with refowner := v &&& 0x107, owner := if v.getLsbD 8 then hartAt s column (v.toNat % 8) else none }

/-- A write of a per-hart register, field by field (R6). -/
def writeOwn (h : Hart) (n : Nat) (v : Word) : Hart :=
  match n with
  | 0x020 => { h with trapcause := v &&& 0x101FF }
  | 0x021 => { h with trappc := v }
  | 0x022 => { h with trapinfo := v }
  | 0x023 => { h with trapvec := v &&& ~~~(3 : Word) }
  | 0x030 => writeFpmode h v
  | 0x031 => { h with fpflags := v &&& 0x1F }
  | 0x032 => writeMstat h v
  | 0x033 => { h with pfxstate := v &&& ~~~(0x3C000 : Word) }
  | 0x040 => { h with footthr := v &&& 0xFFFFFFFF }
  | 0x041 => { h with bbcbase := v &&& 0xFFFFFFFFFFF8 }
  | 0x050 => { h with filmbase := v &&& 0xFFFFFFFFFFFF }
  | 0x051 => { h with filmstat := v &&& 0xF000FFFFFFFFFFFF }
  | _ => h

/-- A write of a system register by the instruction's hart, or by the steward for a hart in steward mode. -/
def sysWrite (c : Ctx) (n : Nat) (v : Word) : Ctx :=
  match n with
  | 0x060 => { c with s := c.s.modCol c.h.column (fun k => { k with errcol := writeErrcol k.errcol v }) }
  | 0x061 => if c.h.mode = .task then { c with s := writeOwner c.s c.id c.h v } else c.global (fun s => stewardOwner s c.h.column v)
  | _ => { c with h := writeOwn c.h n v }

def execNop (s : State) : Result := issue .nop s fun c => .ok c

/-- `FPMODE` and `FPFLAGS`, which stand at what every earlier instruction leaves (R109, R119). -/
def afterRetirement (n : Nat) : Bool := n == 0x030 || n == 0x031

/-- `SRD`; a read of `CYCLE` is filmed (R171). -/
def execSrd (d : XReg) (r : BitVec 12) (s : State) : Result :=
  issue (.srd d r) s fun c =>
    if afterRetirement r.toNat then
      (afterAll c).bind (fun _ => ret d (sysRead c.s c.h r.toNat) c)
    else if r = 0x010 then
      filmed 10 c (fun c => .ok (⟨false, c.h.cycle, 0⟩, c)) (fun c _ => c) (fun v c => c.setX d v.lo)
    else ret d (sysRead c.s c.h r.toNat) c

/-- `SWR` (R142, R171): a reserved RM raises `ILLEGAL`, a register that task mode may not write `PRIV`. -/
def execSwr (a : XReg) (r : BitVec 12) (s : State) : Result :=
  issue (.swr a r) s fun c => do
    let v := c.x a
    need (!(r == 0x030 && decide (4 < v.toNat % 8))) .illegal v c
    need (c.h.mode == .steward || taskWritable r.toNat) .priv c.word c
    if afterRetirement r.toNat then afterAll c else .ok ()
    .ok (sysWrite c r.toNat v)

/-! ## Accesses as events -/

/-- An event that acts on a hart whose earlier instructions have all retired. -/
def onHart (s : State) (n : Nat) (f : Hart → State) : Result :=
  match s.hart? n with
  | some h => if (find? s.shadows n).isSome ∨ !h.caughtUp then cannot else .next (f h)
  | none => cannot

/-- FPMODE_WRITE (R109): the write and the seeding anew; a reserved RM raises `ILLEGAL` (R108), with the value in `TRAPINFO`
(R297). -/
def execFpmodeWrite (n : Nat) (v : Word) (s : State) : Result :=
  onHart s n fun h =>
    if 4 < v.toNat % 8 then deliver s n h .illegal h.pc v
    else s.setHart n (writeFpmode h v)

/-- FPFLAGS_READ (R119). -/
def execFpflagsRead (n : Nat) (d : XReg) (s : State) : Result :=
  onHart s n fun h => s.setHart n (h.setX d h.fpflags)

/-- FPFLAGS_WRITE (R118). -/
def execFpflagsWrite (n : Nat) (v : Word) (s : State) : Result :=
  onHart s n fun h => s.setHart n { h with fpflags := v &&& 0x1F }

/-- MSTAT_ACCESS (R235): a read into xd, or a write. -/
def execMstatAccess (n : Nat) (d : XReg) (v : Option Word) (s : State) : Result :=
  onHart s n fun h => match v with
    | none => s.setHart n (h.setX d h.mstat)
    | some v => s.setHart n (writeMstat h v)

/-- REFOWNER_WRITE (R312). -/
def execRefownerWrite (n : Nat) (v : Word) (s : State) : Result :=
  onHart s n fun h => writeOwner s n h v

/-- ERRCOL_CLEAR (R305): the steward writes 1 to V. -/
def execErrcolClear (c : Nat) (s : State) : Result :=
  if c < 4096 then .next (s.modCol c (fun k => { k with errcol := 0 })) else cannot

end Sys2Proof.Machine
end

