-- ==== Sys2Proof/Machine/Sched.lean ====
section
/-! DEFINITION. Machine/Sched.lean: the lane allocator's placement, the order of service, and the leaving of a column (R31 to R33, R49,
R61, R70, R75, R285 to R288, R331). -/

namespace Sys2Proof.Machine

/-! ## Places in columns (R32, R33, R286) -/

/-- Lanes of a width code. -/
def widthLanes (w : Nat) : Nat := if w = 0 then 0 else 2 * 2 ^ w
/-- Columns of a width code. -/
def widthCols (w : Nat) : Nat := if w ≤ 4 then 1 else 2 ^ (w - 4)
/-- Clusters that a hart of a width code takes in each of its columns. -/
def widthClusters (w : Nat) : Nat := if w = 0 then 0 else if w ≤ 4 then 2 ^ (w - 1) else 8

/-- A place for a hart: column (c0 for a wide hart) and first cluster. -/
structure Spot where
  column  : Nat
  cluster : Nat
  deriving DecidableEq, Repr

/-- The clusters at which a hart of a width may begin in a column, as the column's failures allow (R32, R309). -/
def columnSpots (s : State) (w c : Nat) : List Nat :=
  let k := s.col c
  let n := widthClusters w
  if k.failed then []
  else if w = 0 then [0]
  else match k.half with
    | some half => if n ≤ 4 then (span (4 * half) 4).filter (· % n == 0) else []
    | none =>
      if w ≤ 4 then (List.range 8).filter (· % n == 0)
      else
        let m := widthCols w
        if c % m = 0 ∧ (span c m).all (fun q => !(s.col q).failed && (s.col q).half.isNone) then [0] else []

/-- A hart holds one of n clusters from cl in column c. -/
def Hart.holds (h : Hart) (c cl n : Nat) : Bool :=
  decide (h.lanes ≠ 0 ∧ h.column ≤ c ∧ c < h.column + h.cols ∧ h.cluster < cl + n ∧ cl < h.cluster + h.laneCount / 4)

/-- The hart contexts of a column that no hart in place uses. -/
def freeCtxs (s : State) (gone : List Nat) (c : Nat) : List Nat :=
  let used := ((inPlaceHarts s gone).filter (fun e => e.2.column == c)).map (fun e => e.2.ctx)
  (List.range 8).filter (fun n => !used.contains n)

/-- The hart context that a hart new to a column gets: the lowest free one, where it can be one to which no Saved hart returns
(R365). -/
def freeCtx (s : State) (gone : List Nat) (c : Nat) : Option Nat :=
  let kept := (s.harts.filter (fun e => e.2.status == .saved && e.2.column == c)).map (fun e => e.2.ctx)
  let free := freeCtxs s gone c
  (free.find? (fun n => !kept.contains n)).orElse (fun _ => free.head?)

/-- Bytes of a column's TCM in use: the shares of harts in place and Saved, and the code copies (R70, R291). -/
def tcmUsed (s : State) (c : Nat) : Nat :=
  ((s.harts.filter (fun e => (e.2.inPlace || e.2.status == .saved) && e.2.column == c)).map
    (fun e => (s.header e.2).tcmstack)).sum + ((s.col c).codes.map (·.code.length)).sum

/-- A page of a leaf contains a column (R23, R75). -/
def pageHas (leaf c : Nat) : Bool := leaf / 2 ^ 21 % 128 == c / 32

/-- The row window entries that a page list gives the harts of a column: those whose leaf names a page of stacked DRAM that contains
it. -/
def entriesIn (l : List PageEntry) (c : Nat) : List PageEntry :=
  l.filter (fun e => leafV e.leaf && regionOf (leafAddress e.leaf 0) == .dram && pageHas e.leaf c)

/-- The row window entries that a task's harts take in a column. -/
def rowEntries (t : Task) (c : Nat) : List PageEntry := entriesIn t.pages c

/-- Row window entries in use. -/
def rowsUsed (s : State) (gone : List Nat) (c : Nat) : Nat :=
  ((s.col c).rowWin.filter (fun e => !gone.contains e.hart)).length

/-- The code of a task is in a column. -/
def hasCode (s : State) (t : Task) (c : Nat) : Bool :=
  (s.col c).codes.any (fun k => k.root == t.root && k.khdr == t.srec.khdr)

/-- The lanes of a place are free. -/
def lanesFree (s : State) (gone : List Nat) (w : Nat) (p : Spot) : Bool :=
  w == 0 || (inPlaceHarts s gone).all (fun e =>
    (List.range (widthCols w)).all (fun q => !e.2.holds (p.column + q) p.cluster (widthClusters w)))

/-- The power of activation in one column with a window of L lane cycles, and of its lanes at full duty, in mW: from the nominal figures of
R29 and R360 (log 35). -/
def windowPower (l : Nat) : Nat := ceilDiv 7865 l
def lanePower : Nat := 164

/-- The leakage of a stack and its budget at the full cap, in mW (R357, R360). -/
def leakage : Nat := 12500
def fullBudget : Nat := 84375

/-- The reserve of one class-0 column, in mW (R359): activation at RESWIN together with its lanes at full duty. -/
def reserveOf (s : State) (stack : Nat) : Nat := windowPower (s.stk stack).resWin + lanePower

/-- Columns of a stack in which a hart of class 0 is in place. -/
def reservedCols (s : State) (gone : List Nat) (stack : Nat) : List Nat :=
  distinct (((inPlaceHarts s gone).filter (fun e => e.2.stack == stack && classOf s e.2.task == 0)).flatMap (fun e => e.2.columns))

/-- The reserve of a class-0 hart of some columns, added to those held in the stack and to the leakage, fits the budget that the stack has at
the full cap (R359). -/
def reserveFits (s : State) (gone : List Nat) (cls cols column : Nat) : Bool :=
  let held := reservedCols s gone (column / 256)
  cls != 0 || decide ((held.length + ((span column cols).filter (fun c => !held.contains c)).length) * reserveOf s (column / 256)
    + leakage ≤ fullBudget)

/-- A hart of a task fits at a place, with some harts gone (R286). -/
def fits (s : State) (gone : List Nat) (id : Nat) (t : Task) (p : Spot) : Bool :=
  let w := t.srec.width
  lanesFree s gone w p && (freeCtx s gone p.column).isSome &&
  decide (tcmUsed s p.column + t.hdr.tcmstack + (if hasCode s t p.column then 0 else t.hdr.codesize) ≤ 65536) &&
  decide (rowsUsed s gone p.column + (rowEntries t p.column).length ≤ 1024) &&
  (t.hdr.tile == 0 || (inPlaceHarts s gone).all (fun e =>
    !(e.2.tileHeld && (List.range (widthCols w)).any (fun q => decide (e.2.column ≤ p.column + q ∧ p.column + q < e.2.column + e.2.cols))))) &&
  reserveFits s gone (classOf s id) (widthCols w) p.column

/-- The column that an entry anchors. -/
def PageEntry.anchor (e : PageEntry) : Nat := e.leaf / 2 ^ 21 % 128 * 32 + e.ac

/-- Placement follows the page list. -/
def Task.pinned (t : Task) : Bool := decide (0 < t.srec.pcount ∧ 0 < t.hdr.vregs)

/-- The columns that an entry offers, lowest first. -/
def PageEntry.columns (e : PageEntry) : List Nat :=
  if e.av then [e.anchor] else span (e.leaf / 2 ^ 21 % 128 * 32) 32

/-- The columns that rank r tries, in order. Without a page list the allocator may choose any; `pick` is its choice, and without one
it takes the lowest (R286). -/
def tryColumns (t : Task) (r : Nat) (pick : Option Nat) : List Nat :=
  if t.pinned then
    let n := r % t.pages.length
    let order := t.pages.drop n ++ t.pages.take n
    let order := match order with
      | e :: rest => if e.av then [e] else e :: rest
      | [] => []
    (order.flatMap (·.columns)).filter (fun c => (span c (widthCols t.srec.width)).all (fun q => t.pages.any (fun e => pageHas e.leaf q)))
  else match pick with
    | some c => if c < 4096 then [c] else []
    | none => List.range 4096

/-- The place that rank r gets, with some harts gone. -/
def placeFor (s : State) (gone : List Nat) (id : Nat) (t : Task) (r : Nat) (pick : Option Nat) : Option Spot :=
  (tryColumns t r pick).findSome? (fun c =>
    ((columnSpots s t.srec.width c).map (fun cl => (⟨c, cl⟩ : Spot))).find? (fits s gone id t))

/-! ## Harts at their start (R55) -/

/-- A hart as it starts. -/
def newHart (s : State) (id : Nat) (t : Task) (r : Nat) (p : Spot) (ctx : Nat) (ctl : BitVec 32) : Hart where
  task := id
  rank := r
  column := p.column
  cols := widthCols t.srec.width
  cluster := p.cluster
  lanes := widthLanes t.srec.width
  ctx := ctx
  geom := 8 * 2 ^ t.hdr.geom
  startedAt := s.order
  pc := BitVec.ofNat 64 (t.srec.khdr + t.hdr.entry)
  x := ((((Vector.replicate 32 (0 : Word)).set 2 (BitVec.ofNat 64 (0xFFFFFFFF0000 + t.hdr.tcmstack))).set 3 t.srec.params).set 4
    (BitVec.ofNat 64 r)).set 5 (BitVec.ofNat 64 t.srec.harts)
  p := (Vector.replicate 8 false).set 0 true
  k := Vector.replicate 8 0
  matShape := Vector.replicate 4 {}
  tileHeld := decide (t.hdr.tile = 1 ∧ 4 ≤ t.srec.width)
  scratchAt := s.free
  tcmAt := s.free
  trapvec := t.srec.trapvec &&& ~~~(3 : Word)
  filmstat := BitVec.ofNat 64 (ctl.toNat % 4 * 2 ^ 60)
  ctl := ctl

/-- The physical pages of n bytes from a virtual address, by virtual page. -/
def codePages (s : State) (root va n : Nat) : AMap Nat :=
  (span (va / 2 ^ 21) ((va + n - 1) / 2 ^ 21 + 1 - va / 2 ^ 21)).filterMap (fun p =>
    match (walk s root (p * 2 ^ 21)).2 with
    | some leaf => some (p, leafAddress leaf 0 / 2 ^ 21)
    | none => none)

/-- A hart of a task put at a place, with its row window entries and the code of its kernel. DESIGN CHOICE (log 74): the grant of a later hart
is no start of its task, whose slice runs on (R289). -/
def addHart (s : State) (id : Nat) (t : Task) (r : Nat) (p : Spot) (code : List Byte) : State :=
  let n := s.nextHart
  let safe := (look s.partitions t.part {}).conf
  let ctl := BitVec.ofNat 32 t.srec.trace ||| (if safe then 0x100 else 0)
  let h := newHart s id t r p ((freeCtx s [] p.column).getD 0) ctl
  let s := { s with free := s.free + 2 ^ 20, nextHart := n + 1, order := s.order + 1 }
  let s := s.modCol p.column fun c => { c with
    codes := if c.codes.any (fun k => k.root == t.root && k.khdr == t.srec.khdr) then c.codes
      else c.codes ++ [⟨t.root, t.srec.khdr, code, codePages s t.root t.srec.khdr code.length, code⟩]
    rowWin := c.rowWin ++ (rowEntries t p.column).map (fun e => ⟨n, e.vpage, e.leaf, false⟩) }
  let s := s.setHart n h
  s.setTask id { t with harts := put t.harts r n, granted := t.granted + 1 }

/-- A film as the steward places it in a ring of a hart's address space, a record of 32 bytes after the other (R336). DESIGN CHOICE (log 33): it
needs WR, and leaves out what it cannot write. -/
def placeFilm (s : State) (h : Hart) (base : Nat) (film : List Byte) : State :=
  (List.range (film.length / 32)).foldl (fun s n =>
    match hubTranslate s (s.rootOf h) (s.partOf h) ⟨false, true, false⟩ (base + 32 * n) with
    | (s, .ok (pa, _)) => writeBytes (baseAccess s [pa] .hub) 3 pa ((film.drop (32 * n)).take 32)
    | (s, .error _) => s) s

/-- log₂ of the ring size that a free value asks for: 0 for no ring, or 12 to 32 (R322). -/
def ringLog (v : Nat) : Nat := if v % 22 = 0 then 0 else 11 + v % 22

/-- log₂ of the least ring size that holds some bytes. -/
def fitLog (n : Nat) : Nat := max 12 (Nat.log2 (n - 1) + 1)

/-- The hart's debug block, where CTL asks for one (R322): at an address of hub SRAM that the steward chooses, with CTL in it, ring sizes
and bases and waypoints that the steward chooses, and the write positions 0. For a replay the steward chooses one of the films that it holds
of the hart's partition (R347) and places it whole in the film ring: filmwrite is its length and filmread 0 (R336). -/
def giveDebugBlock (s : State) (n : Nat) : State :=
  match s.hart? n with
  | none => s
  | some h =>
    if h.ctl = 0 then s
    else
      let d := 0x8000000000 + Config.pick s.free % 2 ^ 21 * 128
      let films := (s.films.filter (fun f => f.1 == s.partOf h)).map (·.2)
      let film := if h.ctl.toNat % 4 = 3 then films.getD (Config.pick (s.free + 1) % films.length) [] else []
      let sizes := [ringLog (Config.pick (s.free + 2)), ringLog (Config.pick (s.free + 3)),
        if film.isEmpty then ringLog (Config.pick (s.free + 4)) else fitLog film.length]
      let bases := sizes.zipIdx.map (fun e => (Config.freeWord (s.free + 5 + e.2)).toNat % 2 ^ 48 / 2 ^ e.1 * 2 ^ e.1)
      let wps := (span (s.free + 8) 8).flatMap (fun i => toBytes 8 (Config.freeWord i).toNat)
      let s := { s with free := s.free + 16 }
      let s := writeBytes s 3 d (toBytes 4 h.ctl.toNat ++ sizes.flatMap (toBytes 1) ++ [0] ++ bases.flatMap (toBytes 8) ++
        toBytes 8 0 ++ toBytes 8 0 ++ toBytes 8 film.length ++ toBytes 8 0 ++ wps)
      let s := placeFilm s h (bases.getD 2 0) film
      s.setHart n { h with
        dbg := some d
        filmbase := if h.ctl.toNat % 4 = 0 then 0 else BitVec.ofNat 64 (bases.getD 2 0) }

/-- The places that harts of a task from rank r on get, with some harts gone. -/
def placeRest (s : State) (gone : List Nat) (id : Nat) : Nat → Nat → Option (List Spot)
  | 0, _ => some []
  | n + 1, r =>
    match s.task? id with
    | none => none
    | some t =>
      match placeFor s gone id t r none with
      | none => none
      | some p => (placeRest (addHart s id t r p (List.replicate t.hdr.codesize 0)) gone id n (r + 1)).map (p :: ·)

/-- Harts of a task from rank r on fit at some places together, with some harts gone. -/
def placesFit (s : State) (gone : List Nat) (id : Nat) : Nat → List Spot → Bool
  | _, [] => true
  | r, p :: l =>
    match s.task? id with
    | none => false
    | some t => fits s gone id t p && placesFit (addHart s id t r p (List.replicate t.hdr.codesize 0)) gone id (r + 1) l

/-- The harts that a task needs placed next: all of a gang, else one. -/
def Task.batch (t : Task) : Nat := if t.srec.mode % 2 = 1 then t.srec.harts else 1

/-- All harts of a gang, or the next hart of another task, can be placed with some harts gone. -/
def canPlace (s : State) (gone : List Nat) (id : Nat) (t : Task) : Bool := (placeRest s gone id t.batch t.granted).isSome

/-- A page list from its bytes: the entries, each with what of it is marked 0 (R74). -/
def parsePages (b : List Byte) (n : Nat) : List (PageEntry × Nat) :=
  (List.range n).map (fun i =>
    let v := ofBytes ((b.drop (16 * i)).take 8)
    (⟨v / 2 ^ 21 % 2 ^ 27, v.testBit 5, v % 32, ofBytes ((b.drop (16 * i + 8)).take 8)⟩, v / 2 ^ 48 + v / 2 ^ 6 % 2 ^ 15))

/-- The page list of a task as it stands in memory (R103); one that cannot be read stays as it was (log 50). -/
def pagesNow (s : State) (t : Task) : State × List PageEntry :=
  if t.srec.pcount = 0 then (s, t.pages)
  else match hubReadBytes s t.root t.srec.plist (16 * t.srec.pcount) with
    | (s, .ok b) => (s, (parsePages b t.srec.pcount).map (·.1))
    | (s, .error _) => (s, t.pages)

/-- A Saved hart can return: its own columns, lanes and hart context are free, the row window entries that its task's page list
now gives it fit, and so does its reserve (R49, R75, R287, R359, R365). -/
def canReturn (s : State) (gone : List Nat) (h : Hart) : Bool :=
  match s.task? h.task with
  | none => false
  | some t =>
    (h.lanes == 0 || (inPlaceHarts s gone).all (fun e => h.columns.all (fun c => !e.2.holds c h.cluster (h.laneCount / 4)))) &&
    (freeCtxs s gone h.column).contains h.ctx && h.columns.all (fun c => !(s.col c).failed) &&
    decide (rowsUsed s gone h.column + (entriesIn (pagesNow s t).2 h.column).length ≤ 1024) &&
    reserveFits s gone (classOf s h.task) h.cols h.column

/-! ## Order of service (R285) -/

/-- Lanes: clusters of columns, as a bit set each. -/
abbrev Lanes := List (Nat × Nat)

/-- A task's wanted lanes before it has all its harts: all lanes of the columns where a hart still to be placed could stand alone. -/
def wantedLanes (s : State) (t : Task) : Lanes :=
  let ranks := span t.granted (min (t.srec.harts - t.granted) t.pages.length)
  let cols := if t.pinned then distinct (ranks.flatMap (fun r => tryColumns t r none)) else List.range 4096
  let ok := cols.filter (fun c => !(columnSpots s t.srec.width c).isEmpty &&
    decide (t.hdr.tcmstack + t.hdr.codesize ≤ 65536 ∧ (rowEntries t c).length ≤ 1024))
  (ok.flatMap (fun c => span c (widthCols t.srec.width))).map (fun c => (c, 255))

/-- The lanes of a hart. -/
def Hart.lanesOf (h : Hart) : Lanes :=
  if h.lanes = 0 then [] else h.columns.map (fun c => (c, (2 ^ (h.laneCount / 4) - 1) * 2 ^ h.cluster))

/-- Two sets of lanes meet. -/
def lanesMeet (a b : Lanes) : Bool := a.any (fun x => b.any (fun y => x.1 == y.1 && x.2 &&& y.2 != 0))

/-- The Saved harts of a task, which wait to resume. -/
def savedHarts (s : State) (id : Nat) : List Hart :=
  (s.harts.filter (fun e => e.2.task == id && e.2.status == .saved)).map (·.2)

/-- A started task that has not been ended still waits for harts that it has not got. -/
def Task.growing (t : Task) : Bool := decide (t.srec.mode % 2 = 0 ∧ t.granted < t.srec.harts ∧ t.status = 0)

/-- The lanes that a task waits for; none when it waits for no lanes. -/
def waitingLanes (s : State) (id : Nat) (t : Task) : Lanes :=
  match t.phase with
  | .waiting => if eligible s id t then wantedLanes s t else []
  | .started => (if t.growing then wantedLanes s t else []) ++ (savedHarts s id).flatMap (·.lanesOf)
  | .done => []

/-- A task's lanes were taken for another (R289, R250), which still waits. -/
def gaveWay (s : State) (id waiter : Nat) : Bool :=
  s.harts.any (fun e => e.2.task == id && e.2.gaveTo == some waiter && (e.2.status == .halted || e.2.status == .saved)) &&
    (s.task? waiter).any (fun t => !(waitingLanes s waiter t).isEmpty)

/-- A task is served before another: class in force, then stamp. Of two tasks of one class, one of which gave its lanes to the other, the
other goes first until it has them (log 36). -/
def before (s : State) (a : Nat) (ta : Task) (b : Nat) (tb : Task) : Bool :=
  let ca := classOf s a
  let cb := classOf s b
  decide (ca < cb) || (ca == cb && (gaveWay s b a || (!gaveWay s a b && decide (ta.stamp < tb.stamp))))

/-- A task that is served earlier waits for some of the lanes. -/
def heldBack (s : State) (id : Nat) (t : Task) (wanted : Lanes) : Bool :=
  s.tasks.any (fun u => u.1 != id && before s u.1 u.2 id t && lanesMeet (waitingLanes s u.1 u.2) wanted)

/-- A task that waits for no more lanes has them: what others gave up for it, they may have again. -/
def takenUp (s : State) (id : Nat) : State :=
  match s.task? id with
  | none => s
  | some t =>
    if (waitingLanes s id t).isEmpty then
      { s with harts := s.harts.map (fun e => if e.2.gaveTo = some id then (e.1, { e.2 with gaveTo := none }) else e) }
    else s

/-! ## Leaving a column -/

/-- An add at a counter's home (R331). DEDUCED (log 49): it acts for no hart. -/
def addCounter (s : State) (pa n : Nat) : State :=
  storeBytes (baseAccess s [pa] .hub) 1 pa (toBytes 8 (loadNat s pa 8 + n))

/-- Flushes every entry of a column's counter cache. -/
def flushCounts (s : State) (column : Nat) : State :=
  let l := (s.col column).counts
  (l.foldl (fun s e => if e.inc = 0 then s else addCounter s e.pa e.inc) s).modCol column (fun c => { c with counts := [] })

/-- The hart's row window entries are freed (R75). -/
def freeRows (s : State) (id column : Nat) : State :=
  s.modCol column (fun c => { c with rowWin := c.rowWin.filter (·.hart != id) })

/-- Drops the code of a kernel from a column that no hart of it is Resident or Saved in (R70). -/
def dropCode (s : State) (h : Hart) : State :=
  if s.harts.any (fun e => (e.2.inPlace || e.2.status == .saved) && e.2.column == h.column && s.rootOf e.2 == s.rootOf h &&
      s.khdrOf e.2 == s.khdrOf h) then s
  else s.modCol h.column (fun c => { c with
    codes := c.codes.filter (fun k => !(k.root == s.rootOf h && k.khdr == s.khdrOf h)) })

/-- A hart without the state that it gives up. -/
def Hart.releaseAll (h : Hart) : Hart :=
  { h with
    v := [], vl := 0, chans := [], tileHeld := false, tileFmt := 0, tileCells := [], tileScale := [], tileBad := []
    tileLoad := none, scratch := [], tcm := [], stores := [], elems := [], vqueue := [], atHead := false, stopDue := false, met := [], coll := none, transport := none, remote := []
    arrived := [], pfx := none, loops := [], wait := .none, presented := none, haltReq := false, barAt := none
    waitFrom := none, gaveTo := none, leaving := false, badContext := [], tileParity := [], residue := none, issueAt := none
    stalls := 0, tlbMissed := 0, pendAlert := [], pendLane := false, pendRef := [], pendFilm := false }

/-- A hart leaves for good, as Exited or Ended: its registers are discarded, and its shares return to the allocator (R56, R249). -/
def leave (s : State) (id : Nat) (h : Hart) (st : Residency) : State :=
  let s := dropOwner s id h
  let s := s.setHart id { h.releaseAll with status := st }
  let s := freeRows s id h.column
  let s := dropCode s h
  s.modTask h.task (fun t => { t with
    busy := t.busy + h.cycle.toNat
    exited := if st = .exited then t.exited + 1 else t.exited })

/-- The task is at its base class again when every hart that has not exited is Resident (R281). -/
def resetAging (s : State) (id : Nat) : State :=
  match s.task? id with
  | none => s
  | some t =>
    if t.granted = t.srec.harts ∧ t.harts.all (fun e => match s.hart? e.2 with
        | some h => h.status == .resident || h.status == .exited
        | none => true) then
      s.setTask id { t with aged := t.base }
    else s

end Sys2Proof.Machine
end

