-- ==== Sys2Proof/Machine/System.lean ====
section
/-! DEFINITION. Machine/System.lean: majors 0x3C to 0x3E but for the channels: tasks, queues, keys, strips, barriers, waiting, traps
and debug (R246 to R263, R272 to R275). -/

namespace Sys2Proof.Machine

/-! ## Tasks (R247 to R251) -/

def execTspawn (d a : XReg) (s : State) : Result :=
  issue (.tspawn d a) s fun c => do
    let va := c.x a
    need (va.toNat % 128 == 0) .align va c
    let (p, c) ← placeGeneric c va 8 ⟨true, false, false⟩
    placeGood c va 128 true (.mem p.1 p.2)
    let c ← dataWaypoints c [(va.toNat, 128)] []
    filmed 5 c
      (fun c => do
        let c := c.drainStores
        let (record, c) ← startRecordAt c va
        let r := submitRecord c record
        .ok (⟨false, (r.1.map (BitVec.ofNat 64)).getD (-1), 0⟩, r.2))
      (fun c _ => c)
      (fun v c => c.setX d v.lo)

/-- A task's completion scope is `SYSTEM`: its cscope says so, or its completion record lies in the remote window (R340). -/
def systemScope (s : State) (t : Task) : Bool :=
  t.srec.cscope == 4 || (match (hubTranslate s t.root t.part ⟨false, true, true⟩ t.srec.crec).2 with
    | .ok (pa, _) => regionOf pa == .remote
    | .error _ => false)

/-- The ordering step of R96: vector accesses, counts and buffered stores are performed, and at `SYSTEM` scope the remote writes have
ended. -/
def orderingStep (c : Ctx) : Except Stop Ctx := do
  let c := c.drainElems
  let c := c.global (fun s => flushCounts s c.h.column)
  let c := c.drainStores
  awaitRemoteWrites c (if c.task?.any (systemScope c.s) then 4 else 0)
  .ok c

/-- `TEXIT` (R249). Once its completion step has begun the hart leaves, whatever it still waits for (R58). -/
def execTexit (s : State) : Result :=
  issue .texit s fun c => do
    afterAll c
    let c ← orderingStep { c with h := { c.h with leaving := true } }
    if c.h.transport.isSome then .error (.wait .transport c) else .ok ()
    if c.h.tileLoad.isSome then .error (.wait .tile c) else .ok ()
    let c := c.h.chans.foldl (fun (c : Ctx) e =>
      let r := closeChannel c.s c.id c.h e.1
      { c with s := r.1, h := r.2 }) c
    let h := c.h
    .ok ((c.global (fun s => leave s c.id h .exited)).later (.frame 8 0))

/-- The harts of a task that stand in their columns. -/
def taskHarts (s : State) (t : Task) : List (Nat × Hart) :=
  t.harts.filterMap (fun e => (s.hart? e.2).bind (fun h => if h.inPlace then some (e.2, h) else none))

/-- A task needs some of the lanes that another holds, with its dependence and keys met: for a hart that it has not got, and that cannot
be placed as things stand, or for a Saved one that cannot return (R250). -/
def needsLanes (s : State) (id : Nat) (t : Task) (held : Lanes) : Bool :=
  let hart := lanesMeet (wantedLanes s t) held && !canPlace s [] id t
  match t.phase with
  | .waiting => eligible s id t && hart
  | .started => (t.growing && hart) || (savedHarts s id).any (fun h => lanesMeet h.lanesOf held && !canReturn s [] h)
  | .done => false

/-- A task other than the given one that needs lanes of a set and has a class in force not above cls: the one served first. -/
def lanesWanted (s : State) (id cls : Nat) (held : Lanes) : Option Nat :=
  let l := s.tasks.filter (fun u => u.1 != id && decide (classOf s u.1 ≤ cls) && needsLanes s u.1 u.2 held)
  (l.foldl (fun (best : Option (Nat × Task)) u => match best with
    | none => some u
    | some b => if before s u.1 u.2 b.1 b.2 then some u else best) none).map (·.1)

/-- Marks harts for pre-emption in favour of a task; those of a task of the same class in force give way to it (R289, R250). -/
def askHalt (s : State) (ids : List Nat) (waiter : Nat) : State :=
  ids.foldl (fun s n => s.modHart n (fun h => { h with
    haltReq := true, gaveTo := if classOf s h.task = classOf s waiter then some waiter else none })) s

/-- `TYIELD` offers the hart's lanes, and in a gang all of its task's, to a task that needs lanes of the yielding task. -/
def execTyield (s : State) : Result :=
  issue .tyield s fun c =>
    match c.task? with
    | none => .ok c
    | some t =>
      let gang := t.srec.mode % 2 = 1
      if gang ∧ c.h.rank ≠ 0 then .ok c
      else
        let mine := taskHarts c.s t
        match lanesWanted c.s c.h.task (classOf c.s c.h.task) (mine.flatMap (·.2.lanesOf)) with
        | none => .ok c
        | some w => .ok (c.global (fun s => askHalt s (if gang then mine.map (·.1) else [c.id]) w))

/-- Key entry i of the start record still holds its key; merged duplicates show in the lower entry. -/
def keyBits (t : Task) : Nat :=
  let ids := (t.srec.keys.take t.srec.nkeys).map (· % 2 ^ 24)
  (List.range ids.length).foldl (fun b i =>
    let id := ids.getD i 0
    putBit b i (!(ids.take i).contains id && t.held.any (·.id == id))) 0

/-- The values of `TINFO`. -/
def taskInfo (s : State) (h : Hart) (t : Task) (sel : Nat) : Word :=
  match sel with
  | 0 => BitVec.ofNat 64 t.ticket
  | 1 => BitVec.ofNat 64 t.queue
  | 2 => BitVec.ofNat 64 h.rank
  | 3 => BitVec.ofNat 64 t.srec.harts
  | 4 => BitVec.ofNat 64 (classOf s h.task)
  | 5 => BitVec.ofNat 64 h.lanes
  | 6 => t.srec.params
  | 7 => BitVec.ofNat 64 t.srec.crec
  | 8 => BitVec.ofNat 64 t.srec.farm
  | 9 => BitVec.ofNat 64 (keyBits t)
  | 10 => BitVec.ofNat 64 h.saves
  | _ => BitVec.ofNat 64 t.exited

def execTinfo (d : XReg) (sel : BitVec 5) (s : State) : Result :=
  issue (.tinfo d sel) s fun c => do
    legal (decide (sel.toNat ≤ 11)) c
    let v := (c.task?.map (fun t => taskInfo c.s c.h t sel.toNat)).getD 0
    if sel = 4 ∨ sel = 9 ∨ sel = 10 ∨ sel = 11 then
      filmed 7 c (fun c => .ok (⟨false, v, 0⟩, c)) (fun c _ => c) (fun v c => c.setX d v.lo)
    else ret d v c

/-! ## Queues (R256) -/

/-- The entry of a block at a position, when the block is well formed for it, and the context after its checks. -/
def queueEntry (c : Ctx) (b : QBlock) (n : Nat) (blocked : Bool) : Option Nat × Ctx :=
  if blocked then (none, c)
  else match blockPlaces c b [n] with
    | (some [pa], c) => (some pa, c)
    | (_, c) => (none, c)

/-- What `QPUSH` or `QPOP` finds before it acts: the block, the entry at a position where the block is well formed and does not turn the
action away, and what it has read in the array. The hart's earlier stores to the same bytes are performed first (R85), and a bad piece of
block or entry raises `POISON`. Under replay nothing is read. -/
def queuePlan (c : Ctx) (p : Nat × Nat) (va : Word) (at' : QBlock → Nat) (blocked : QBlock → Bool) :
    Except Stop ((QBlock × Option Nat × List Nat) × Ctx) :=
  if c.h.replays then .ok ((readBlock c.s p.1, none, []), c)
  else do
    let c := c.drainOverlap p.1 64
    needGood c p.1 64 va
    let read := misses c.s [(p.1, leafUc p.2)]
    let c := c.readBlockAt p
    let q := readBlock c.s p.1
    let (slot, c) := queueEntry c q (at' q) (!q.ok || blocked q)
    match slot with
    | some e => do
      let c := c.drainOverlap e q.entry
      needGood c e q.entry (BitVec.ofNat 64 (q.slot (at' q)))
      .ok ((q, slot, read), c)
    | none => .ok ((q, slot, read), c)

/-- The action of `QPUSH` on the block at pa: a full or malformed block gives 1 (R256); else it is a release, for which the hart's earlier
stores are performed (R257). -/
def pushEntry (plan : QBlock × Option Nat × List Nat) (b : XReg) (pa : Nat) (c : Ctx) : Except Stop (FilmVal × Ctx) :=
  match plan with
  | (_, none, _) => .ok (⟨true, 0, 0⟩, c)
  | (q, some e, read) =>
    let c := c.drainStores.writeRows read [pa, e]
    let s := storeBytes c.s 1 e (toBytes q.entry (c.x b).toNat)
    let s := storeBytes s 1 (pa + 24) (toBytes 8 (q.tail + 1))
    .ok (⟨false, 0, 0⟩, triggerCheck { c with s := s } pa)

/-- The action of `QPOP` on the block at pa: an empty or malformed block gives 1 and the value 0 (R256). -/
def popEntry (plan : QBlock × Option Nat × List Nat) (pa : Nat) (c : Ctx) : Except Stop (FilmVal × Ctx) :=
  match plan with
  | (_, none, _) => .ok (⟨true, 0, 0⟩, c)
  | (q, some e, read) =>
    let c := c.writeRows read [pa, e]
    let v := loadNat c.s e q.entry
    .ok (⟨false, BitVec.ofNat 64 v, 0⟩, { c with s := storeBytes c.s 1 (pa + 16) (toBytes 8 (q.head + 1)) })

def execQpush (a b : XReg) (p : PReg) (s : State) : Result :=
  issue (.qpush a b p) s fun c => do
    let va := c.x a
    let (place, c) ← blockAt c va
    let (plan, c) ← queuePlan c place va (·.tail) (fun q => q.count == q.capacity)
    let r := appendRanges plan.1 va.toNat 1
    let c ← if c.h.replays then .ok c
      else if plan.2.1.isNone then dataWaypoints c [(va.toNat, 64)] []
      else dataWaypoints c ((va.toNat, 64) :: r.1) ((plan.1.slot plan.1.tail, plan.1.entry) :: r.2)
    filmed 3 c (pushEntry plan b place.1) (fun c _ => c) (fun v c => c.setP p v.pred)

def execQpop (d a : XReg) (p : PReg) (s : State) : Result :=
  issue (.qpop d a p) s fun c => do
    let va := c.x a
    let (place, c) ← blockAt c va
    let (plan, c) ← queuePlan c place va (·.head) (fun q => q.count == 0)
    let c ← if c.h.replays then .ok c
      else if plan.2.1.isNone then dataWaypoints c [(va.toNat, 64)] []
      else dataWaypoints c [(va.toNat, 64), (plan.1.slot plan.1.head, plan.1.entry)] [(va.toNat + 16, 8)]
    filmed 2 c (popEntry plan place.1) (fun c _ => c) (fun v c => (c.setX d v.lo).setP p v.pred)

/-! ## Keys (R259, R260) and strips (R261) -/

/-- A key id register: bits above 24 raise `ILLEGAL` with the value. -/
def keyId (c : Ctx) (a : XReg) : Except Stop Nat := do
  need (decide ((c.x a).toNat < 2 ^ 24)) .illegal (c.x a) c
  .ok (c.x a).toNat

def execKeyrel (a : XReg) (s : State) : Result :=
  issue (.keyrel a) s fun c => do
    let id ← keyId c a
    let c := c.drainElems.drainStores
    .ok { c with s := c.s.modTask c.h.task (fun t => { t with held := t.held.filter (·.id != id) }) }

/-- What `KEYQ` returns for a key. DESIGN CHOICE (log 27): a task whose keys can be granted, and that waits only for lanes, waits at the
dispatcher for them all the same (R61, R284). -/
def keyState (s : State) (id key : Nat) : Word :=
  let mine := ((s.task? id).map (·.held)).getD []
  let b0 := mine.any (·.id == key)
  let b1 := mine.any (fun k => k.id == key && k.excl)
  let b2 := s.tasks.any (fun u => u.1 != id && u.2.held.any (fun k => keySlot k.id == keySlot key))
  let b3 := s.tasks.any (fun u => waits s u.1 u.2 && u.2.keys.any (fun k => keySlot k.id == keySlot key))
  BitVec.ofNat 64 (b0.toNat + 2 * b1.toNat + 4 * b2.toNat + 8 * b3.toNat)

def execKeyq (d a : XReg) (s : State) : Result :=
  issue (.keyq d a) s fun c => do
    let key ← keyId c a
    filmed 6 c (fun c => .ok (⟨false, keyState c.s c.h.task key, 0⟩, c)) (fun c _ => c) (fun v c => c.setX d v.lo)

/-- A claim of a strip: base, count, predicate (R59, R261, R295). -/
def claimStrip (t : Task) (q limit : Nat) : Nat × Nat × Bool :=
  if t.srec.farm = 0 then (0, 0, false)
  else if t.srec.farm ≤ t.farm then (t.srec.farm, 0, false)
  else (t.farm, min q (min limit (t.srec.farm - t.farm)), true)

def execStrip (d a : XReg) (p : PReg) (s : State) : Result :=
  issue (.strip d a p) s fun c => do
    legal (d.toNat % 2 == 0 && decide (2 ≤ d.toNat ∧ d.toNat ≤ 28)) c
    let x := (c.x a).toNat
    need (decide (x < 2 ^ 50)) .illegal (c.x a) c
    let q := x % 2 ^ 48
    let limit := if c.h.lanes = 0 then q else c.h.vlmax * 32 / widthOf (x / 2 ^ 48)
    filmed 4 c
      (fun c =>
        match c.task? with
        | none => .ok (⟨false, 0, 0⟩, c)
        | some t =>
          let r := claimStrip t q limit
          let s := c.s.setTask c.h.task { t with farm := if r.2.2 then t.farm + r.2.1 else t.farm }
          .ok (⟨r.2.2, BitVec.ofNat 64 r.1, BitVec.ofNat 64 r.2.1⟩, { c with s := s }))
      (fun c _ => c)
      (fun v c => ((c.setX d v.lo).setX (d + 1) v.hi).setP p v.pred)

/-! ## Barriers (R262, R263) -/

/-- The completion count of the hart's gang. -/
def Ctx.barC (c : Ctx) : Nat := (c.task?.map (·.barC)).getD 0

/-- `ILLEGAL` outside a gang, or for a scope outside 1 to 4. -/
def barLegal (c : Ctx) (sc : BitVec 3) : Except Stop Unit := legal (c.gang && decide (1 ≤ sc.toNat ∧ sc.toNat ≤ 4)) c

/-- Waits until C ≥ A. -/
def barWait (c : Ctx) : Except Stop Ctx := if c.h.barA ≤ c.barC then .ok c else .error (.wait .barrier c)

/-- `BAR`: an arrival that was made stays made when the wait is abandoned, and the instruction then only waits. -/
def execBar (sc : BitVec 3) (s : State) : Result :=
  issue (.bar sc) s fun c => do
    barLegal c sc
    let c := c.drainStores
    let arrive := decide (c.h.barA = c.barC) && c.h.barAt != some c.h.pc
    let c ← barWait (if arrive then { c with h := { c.h with barA := c.h.barA + 1, barAt := some c.h.pc } } else c)
    .ok { c with h := { c.h with barAt := none } }

def execBara (sc : BitVec 3) (s : State) : Result :=
  issue (.bara sc) s fun c => do
    barLegal c sc
    let c ← barWait c.drainStores
    .ok { c with h := { c.h with barA := c.h.barA + 1 } }

def execBarw (sc : BitVec 3) (s : State) : Result :=
  issue (.barw sc) s fun c => do
    barLegal c sc
    barWait c.drainStores

/-! ## Waiting, traps and debug (R272 to R275) -/

/-- The events of a mask that hold. -/
def eventsHeld (s : State) (id : Nat) (h : Hart) (mask : Nat) : Nat :=
  let chan (n : Nat) : Bool := match find? h.chans n with
    | some ch => decide (2 ≤ ch.state)
    | none => false
  let c := ((s.task? h.task).map (·.barC)).getD 0
  let debt := h.columns.any (fun k => (s.col k).owner == some id && decide ((s.col k).debt ≥ 32))
  let bits := (List.range 4).foldl (fun b n => putBit b n (chan n)) 0
  mask &&& (bits + 16 * (decide (h.barA ≤ c)).toNat + 32 * debt.toNat)

/-- The timeout of a `WAITEV` that issued at a lane cycle has ended. -/
def timedOut (s : State) (h : Hart) (from' : Nat) (timeout : Nat) : Bool :=
  decide (min timeout (2 ^ 26) ≤ (s.col h.column).cycles - from')

def execWaitev (d a : XReg) (m : BitVec 12) (s : State) : Result :=
  issue (.waitev d a m) s fun c => do
    legal (decide (m.toNat < 64)) c
    let start := c.h.waitFrom.getD (c.s.col c.h.column).cycles
    filmed 9 c
      (fun c =>
        let held := eventsHeld c.s c.id c.h m.toNat
        if held ≠ 0 ∨ timedOut c.s c.h start (c.x a).toNat then .ok (⟨false, BitVec.ofNat 64 held, 0⟩, c)
        else .error (.wait (.waitev m.toNat) { c with h := { c.h with waitFrom := some start } }))
      (fun c _ => c)
      (fun v c => c.setX d v.lo)

def execTrap (code : BitVec 12) (s : State) : Result :=
  issue (.trap code) s fun c => do
    afterAll c
    .ok (c.later (.swTrap (code.setWidth 64)))

def execRft (s : State) : Result :=
  issue .rft s fun c => do
    notAtLoopEnd c
    let target := c.h.trappc
    need (target.toNat % 4 == 0) .align target c
    .ok ((({ c with h := { returnFromTrap c.h with pc := c.h.pc } } : Ctx).jump target).later
      (.frame 3 (c.s.pcOffset c.h target)))

def execHalt (s : State) : Result :=
  issue .halt s fun c => do
    need (c.h.mode == .steward) .priv c.word c
    afterAll c
    .ok { c with h := { c.h with presented := some ⟨none, (loopNext c.h).1, 0, c.h.inh, (c.s.col c.h.column).errcol⟩ } }

/-- Counts once at an address in a column's counter cache (R331). -/
def countBlock (s : State) (column pa : Nat) : State :=
  let l := (s.col column).counts
  match l.find? (·.pa == pa) with
  | some e =>
    let inc := e.inc + 1
    let s := if inc = 2 ^ 32 - 1 then addCounter s pa inc else s
    s.modCol column (fun c => { c with counts := l.filter (·.pa != pa) ++ [⟨pa, if inc = 2 ^ 32 - 1 then 0 else inc⟩] })
  | none =>
    let s := match l with
      | e :: _ => if 64 ≤ l.length then addCounter s e.pa e.inc else s
      | [] => s
    s.modCol column (fun c => { c with counts := (if 64 ≤ l.length then l.drop 1 else l) ++ [⟨pa, 1⟩] })

/-- `BBH` (R128, R275). -/
def execBbh (a : XReg) (imm : BitVec 12) (s : State) : Result :=
  issue (.bbh a imm) s fun c => do
    if c.h.bbcbase = 0 then .ok c
    else do
      let va := c.h.bbcbase + 8 * (c.x a + imm.signExtend 64)
      let (p, c) ← placeGeneric c va 8 ⟨true, true, false⟩
      let c ← dataWaypoints c [(va.toNat, 8)] [(va.toNat, 8)]
      .ok (c.global (fun s => countBlock s c.h.column p.1))

def execMark (code : BitVec 12) (s : State) : Result :=
  issue (.mark code) s fun c => .ok (c.later (.frame 4 code.toNat))

def execBkpt (code : BitVec 12) (s : State) : Result :=
  issue (.bkpt code) s fun c => .error (.trap .bkpt (code.setWidth 64) c)

end Sys2Proof.Machine
end

