-- ==== Sys2Proof/Machine/Tasks.lean ====
section
/-! DEFINITION. Machine/Tasks.lean: the queue scheduler, the dispatcher, the lane allocator's grants, pre-emption, the end of tasks and
completion records (R50 to R58, R74, R252 to R254, R276 to R291, R303). -/

namespace Sys2Proof.Machine

/-! ## Reading records (R50, R53, R74) -/

/-- n bytes of a record at an offset, as a number. -/
def field (b : List Byte) (off n : Nat) : Nat := ofBytes ((b.drop off).take n)

/-- A start record from its 128 bytes. -/
def parseRecord (b : List Byte) : StartRecord where
  khdr := field b 0 8
  params := BitVec.ofNat 64 (field b 8 8)
  plist := field b 0x10 8
  pcount := field b 0x18 4
  width := field b 0x1C 1
  mode := field b 0x1D 1
  harts := field b 0x1E 2
  ceiling := field b 0x20 4
  cls := field b 0x24 1
  cscope := field b 0x25 1
  nkeys := field b 0x26 1
  res27 := field b 0x27 1
  depaddr := field b 0x28 8
  depthresh := field b 0x30 8
  crec := field b 0x38 8
  trapvec := BitVec.ofNat 64 (field b 0x40 8)
  farm := field b 0x48 8
  keys := (List.range 8).map (fun i => field b (0x50 + 4 * i) 4)
  trace := field b 0x70 4
  res74 := field b 0x74 12

/-- A kernel header from its 64 bytes. -/
def parseHeader (b : List Byte) : KernelHeader :=
  ⟨field b 0 4, field b 4 1, field b 5 1, field b 6 1, field b 7 1, field b 8 4, field b 12 4, field b 16 4, field b 20 4,
    field b 24 2, field b 26 2, field b 28 36⟩

/-- Reserved values and bits of CTL (R321). -/
def traceOk (t : Nat) : Bool := t / 2 ^ 24 == 0 && t / 2 ^ 12 % 16 == 0 && t / 2 ^ 10 % 4 != 3

/-- A start record that R54 does not reject, submitted when the module had so many lanes. -/
def recordOk (lanes : Nat) (r : StartRecord) : Bool :=
  decide (r.pcount ≤ 1024 ∧ r.width ≤ 7 ∧ r.mode ≤ 1 ∧ 1 ≤ r.harts ∧ r.harts ≤ 32768 ∧ r.cls ≤ 3 ∧ r.cscope ≤ 4 ∧ r.nkeys ≤ 8
    ∧ r.res27 = 0 ∧ r.res74 = 0) && (r.keys.take r.nkeys).all (fun k => decide (k < 2 ^ 25)) && traceOk r.trace &&
  r.crec % 64 == 0 && (r.mode == 0 || decide (r.harts * widthLanes r.width ≤ lanes))

/-- The key requests of a record, with duplicates merged (R54). -/
def mergeKeys : List Nat → List KeyReq
  | [] => []
  | k :: l =>
    let rest := mergeKeys l
    let id := k % 2 ^ 24
    ⟨id, k.testBit 24 || rest.any (fun r => r.id == id && r.excl)⟩ :: rest.filter (·.id != id)

/-! ## Completion records (R252 to R254) -/

/-- The 64 bytes of a completion record. -/
def completionBytes (t : Task) (status cause rank : Nat) (pc info : Word) (frec : Nat) : List Byte :=
  toBytes 4 status ++ toBytes 4 cause ++ toBytes 4 rank ++ toBytes 4 t.exited ++ toBytes 8 pc.toNat ++ toBytes 8 info.toNat ++
    toBytes 8 t.busy ++ toBytes 8 frec ++ List.replicate 16 0

/-- A write of the hub path for a task at a physical address; none when it is refused. -/
def hubStore (s : State) (id pa : Nat) (data : List Byte) : Option State :=
  if regionOf pa = .remote then sendHub s id false pa data
  else some (storeBytes (baseAccess s [pa] .hub) 3 pa data)

/-- Writes a completion record: every field but status, then status. One that cannot be written is logged. -/
def writeCompletionRecord (s : State) (id root part crec : Nat) (bytes : List Byte) : State :=
  if crec % 64 ≠ 0 then s.note (.completion id)
  else match hubTranslate s root part ⟨false, true, true⟩ crec with
    | (s, .error _) => s.note (.completion id)
    | (s, .ok (pa, _)) =>
      ((hubStore s id (pa + 4) (bytes.drop 4)).bind (fun s => hubStore s id pa (bytes.take 4))).getD (s.note (.completion id))

/-- The fault class of an ended task (R347). -/
def faultClass (status cause : Nat) : Nat :=
  if status = 0x22 ∨ cause = 12 then 3
  else if cause = 6 ∨ cause = 7 then 2
  else if cause = 0 then 0
  else if cause ≤ 5 ∨ (8 ≤ cause ∧ cause ≤ 11) ∨ cause = 19 then 1
  else 4

/-- The state of a partition: running while a task of it runs (R345). -/
def partitionState (s : State) (part : Nat) : Nat :=
  if s.tasks.any (fun t => t.2.part == part && t.2.phase == .started && !t.2.written) then 1 else (look s.partitions part {}).state

/-- What the host administrator sees of a partition (R347). -/
def adminView (s : State) (part : Nat) : AdminView :=
  let p := look s.partitions part {}
  ⟨part, partitionState s part, p.classes, p.busy, p.energy / 100000⟩

/-- The account of a partition after a task; of a confidential one the administrator is shown these items alone (R347). -/
def accountTask (s : State) (t : Task) (status cause : Nat) : State :=
  match find? s.partitions t.part with
  | none => s
  | some p =>
    let p := { p with
      busy := p.busy + t.busy
      classes := p.classes ++ [faultClass status cause]
      state := if faultClass status cause = 0 then p.state else 2 }
    let s := { s with partitions := put s.partitions t.part p }
    if p.conf then s.reply (.account (adminView s t.part)) else s

/-- Head of a queue moves past its record. -/
def takeHead (s : State) (q : Nat) : State :=
  let d := s.queue q
  noteActive (s.setQueue q { d with head := d.head + 1, seen := none, lanesAt := del d.lanesAt d.head }) q

/-- A task is complete: its record is written, then its keys are free (R57, R94, R254). -/
def finishTask (s : State) (id : Nat) (t : Task) (status : Nat) : State :=
  let s := writeCompletionRecord s id t.root t.part t.srec.crec (completionBytes t status t.cause t.frank t.fpc t.finfo t.frec)
  accountTask (s.setTask id { t with held := [], phase := .done, written := true, status := status }) t status t.cause

/-- `TASK_COMPLETION`: every hart has exited, or the steward has ended the task; at `SYSTEM` scope its remote writes have ended. -/
def execTaskCompletion (id : Nat) (s : State) : Result :=
  match s.task? id with
  | none => cannot
  | some t =>
    let remote := systemScope s t ∧ s.outstanding.any (fun e => !e.2.load && t.harts.any (fun h => h.2 == e.2.hart))
    if t.phase ≠ .started ∨ t.written ∨ remote then cannot
    else if t.status ≠ 0 then .next (finishTask s id t t.status)
    else if t.exited = t.srec.harts then .next (finishTask s id t 1)
    else cannot

/-! ## The end of a task by the steward (R57, R253, R303) -/

/-- Lane and element that a fault record names: for `DATAERR` the lane; for `POISON` what its `TRAPINFO` names (0xFFFFFFFF: none). -/
def faultLane (h : Hart) (cause : Cause) (info : Word) : Nat × Nat :=
  match cause, h.named with
  | .dataErr, _ => (info.toNat % 65536, 0xFFFFFFFF)
  | .poison, .lane => (info.toNat, 0xFFFFFFFF)
  | .poison, .element w => (h.wordLane (elemWord w info.toNat), info.toNat)
  | _, _ => (0xFFFFFFFF, 0xFFFFFFFF)

/-- The fields of a fault record; `errcol` is the column's `ERRCOL` at the fault. -/
def faultRecord (h : Hart) (cause : Cause) (pc info : Word) (inh : Bool) (errcol : Word) (conf : Bool) : List Byte :=
  let l := faultLane h cause info
  toBytes 4 1 ++ toBytes 4 (causeCode cause) ++ toBytes 4 h.rank ++ toBytes 2 h.stack ++ toBytes 2 (h.column % 256) ++
    toBytes 1 h.ctx ++ toBytes 1 (inh.toNat + 2 * conf.toNat) ++ toBytes 2 0 ++
    toBytes 4 (if inh then h.trapcause.toNat % 256 else 0) ++ toBytes 8 pc.toNat ++ toBytes 8 info.toNat ++
    toBytes 8 errcol.toNat ++ toBytes 4 l.1 ++ toBytes 4 l.2 ++ toBytes 8 h.retired.toNat

/-- A record or dump of a partition: sealed when it is confidential (R303, R335, R347). -/
def sealRecord (p : Partition) (n : Nat) (bytes : List Byte) : List Byte :=
  if p.conf then Config.aesGcmSeal p.sealSecret (toBytes 12 n) [] bytes else bytes

/-- Writes a fault record at an address of hub SRAM that the steward chooses, sealed for a confidential partition. -/
def writeFault (s : State) (h : Hart) (cause : Cause) (pc info : Word) (inh : Bool) (errcol : Word) : State × Nat :=
  let p := look s.partitions (s.partOf h) {}
  let a := 0x8000000000 + Config.pick s.free % 2 ^ 21 * 128
  let bytes := sealRecord p s.free (faultRecord h cause pc info inh errcol p.conf)
  (writeBytes { s with free := s.free + 1 } 3 a bytes, a)

/-- What the reason gives the completion record: status, cause, rank, pc, info, with the fault record written. DESIGN CHOICE (log 73): a
task that a failed code copy ends has no fault record, and its frec is 0, since no hart of it met a fault (R52 names the other fields
alone). -/
def endFields (s : State) (t : Task) : EndReason → Option (State × Nat × Nat × Nat × Word × Word × Nat)
  | .ended => some (s, 0x21, 0, 0xFFFFFFFF, 0, 0, 0)
  | .mcheck => some (s, 0x22, 0, 0xFFFFFFFF, 0, 0, 0)
  | .codeCopy rank cause va =>
    some (s, 0x20, causeCode cause, rank, BitVec.ofNat 64 (t.srec.khdr + t.hdr.entry), BitVec.ofNat 64 va, 0)
  | .fault n =>
    match s.hart? n with
    | none => none
    | some h => match h.presented with
      | some ⟨some cause, pc, info, inh, errcol⟩ =>
        let r := writeFault s h cause pc info inh errcol
        some (r.1, 0x20, causeCode cause, h.rank, pc, info, r.2)
      | _ => none
  | .remote n pc va =>
    match s.hart? n with
    | none => none
    | some h =>
      let r := writeFault s h .prot pc va h.inh (s.col h.column).errcol
      some (r.1, 0x20, 8, h.rank, pc, va, r.2)

/-- Halts the harts of a task with the completions of R290, discards the Saved ones, and performs the ordering step in their place; one
whose `TEXIT` is past its completion step exits (R57, R58, R331). -/
def endHarts (s : State) (t : Task) : State :=
  t.harts.foldl (fun s e =>
    match s.hart? e.2 with
    | none => s
    | some h =>
      if h.inPlace then
        let s := flushCounts (haltHart s e.2) h.column
        match s.hart? e.2 with
        | some h => leave s e.2 h (if h.leaving then .exited else .ended)
        | none => s
      else if h.status = .saved then leave (flushCounts s h.column) e.2 h .ended
      else s) s

/-- The steward ends a task: its harts end, and the completion record is due. A task that has not started leaves its queue. -/
def endTask (s : State) (id : Nat) (why : EndReason) : Option State :=
  match s.task? id with
  | none => none
  | some t =>
    if t.phase = .done ∨ t.status ≠ 0 then none
    else match endFields s t why with
      | none => none
      | some (s, status, cause, rank, pc, info, frec) =>
        let mark (s : State) : State := s.modTask id (fun t => { t with
          status := status, cause := cause, frank := rank, fpc := pc, finfo := info, frec := frec, phase := .started })
        if t.phase = .waiting then some (takeHead (mark s) t.queue)
        else some (mark (endHarts s t))

def execTaskEnd (id : Nat) (why : EndReason) (s : State) : Result :=
  match endTask s id why with
  | some s => .next s
  | none => cannot

/-! ## Queues and slots (R277, R279) -/

def execDoorbell (q p : Nat) (s : State) : Result :=
  if q < 16384 then .next (ringDoorbell s q p) else cannot

/-- The class counted for the head of a queue: in force once seen, else the base class of the record as it lies in the ring. DESIGN CHOICE (log
30): in a bad piece its bytes are taken as memory holds them. -/
def headClass (s : State) (q : Nat) : Nat :=
  let d := s.queue q
  match d.seen with
  | some t => classOf s t
  | none => max (readNat s (d.ring + 128 * (d.head % d.capacity) + 0x24) 1 % 4) d.ccap

/-- Active queues without a slot, with class and order of activation. -/
def unbound (s : State) : List (Nat × Nat × Nat) :=
  s.queues.filterMap (fun e => match e.2.since with
    | some n => if s.slots.any (·.1 == e.1) then none else some (e.1, headClass s e.1, n)
    | none => none)

/-- The unbound queue that is bound next. -/
def nextQueue (l : List (Nat × Nat × Nat)) : Option Nat :=
  (l.foldl (fun (best : Option (Nat × Nat × Nat)) e => match best with
    | none => some e
    | some b => if e.2.1 < b.2.1 ∨ (e.2.1 = b.2.1 ∧ e.2.2 < b.2.2) then some e else best) none).map (·.1)

def execQueueBind (s : State) : Result :=
  if 64 ≤ s.slots.length then cannot
  else match nextQueue (unbound s) with
    | none => cannot
    | some q => .next { s with slots := s.slots ++ [(q, s.order)], order := s.order + 1 }

/-- `QUEUE_UNBIND`: a slot whose slice has run goes to a waiting queue whose head has a class number that is equal or lower. -/
def execQueueUnbind (slot : Nat) (s : State) : Result :=
  match s.slots[slot]? with
  | none => cannot
  | some (q, _) =>
    match nextQueue ((unbound s).filter (fun e => decide (e.2.1 ≤ headClass s q))) with
    | none => cannot
    | some n => .next { s with slots := s.slots.set slot (n, s.order), order := s.order + 1 }

/-! ## The dispatcher's checks (R51, R54, R74, R283) -/

/-- The status of a header, or the header (R51): the checks before the code is read. -/
def headerStatus (r : StartRecord) (k : KernelHeader) : Nat :=
  let g := 8 * 2 ^ k.geom
  if k.magic ≠ 0x5244484B ∨ k.rest ≠ 0 ∨ 1 < k.flags then 0x10
  else if 3 < k.geom ∨ 64 < k.vregs ∨ 1 < k.smat ∨ 1 < k.tile ∨ !([0, 4, 8, 16, 32, 64, 128, 256] : List Nat).contains k.minlanes then 0x11
  else if g < k.vregCount ∨ (k.vregs = 0 ∧ (k.minlanes ≠ 0 ∨ r.width ≠ 0)) then 0x12
  else if k.entry % 4 ≠ 0 ∨ k.codesize ≤ k.entry then 0x13
  else if k.tcmstack % 16 ≠ 0 ∨ 65536 < k.tcmstack ∨ k.scratch % 64 ≠ 0 ∨ 8192 < k.scratch ∨ (k.scratch ≠ 0 ∧ r.width = 0) then 0x14
  else if widthLanes r.width < k.minlanes then 0x15
  else 0

/-- Reads and checks the kernel header and the code. -/
def checkHeader (s : State) (root : Nat) (r : StartRecord) : State × Except Nat KernelHeader :=
  if r.khdr % 64 ≠ 0 then (s, .error 0x16)
  else match hubReadBytes s root r.khdr 64 with
    | (s, .error _) => (s, .error 0x16)
    | (s, .ok b) =>
      let k := parseHeader b
      let st := headerStatus r k
      if st ≠ 0 then (s, .error st)
      else match hubReadBytes s root (r.khdr + 64) (k.codesize - 64) with
        | (s, .error _) => (s, .error 0x16)
        | (s, .ok _) => (s, .ok k)

/-- An entry is well formed for a task of m columns (R74). -/
def pageOk (m : Nat) (e : PageEntry × Nat) : Bool :=
  e.2 == 0 && (e.1.av || e.1.ac == 0) && leafOk e.1.leaf && decide (leafAddress e.1.leaf 0 < 2 ^ 39) &&
    (!e.1.av || m == 1 || e.1.ac % m == 0)

/-- Reads and checks the page list. -/
def checkPages (s : State) (root : Nat) (r : StartRecord) : State × Option (List PageEntry) :=
  if r.pcount = 0 then (s, some [])
  else if r.plist % 16 ≠ 0 then (s, none)
  else match hubReadBytes s root r.plist (16 * r.pcount) with
    | (s, .error _) => (s, none)
    | (s, .ok b) =>
      let es := parsePages b r.pcount
      let vs := es.map (·.1.vpage)
      if es.all (pageOk (widthCols r.width)) ∧ (distinct vs).length = vs.length then (s, some (es.map (·.1)))
      else (s, none)

/-- What a read of the dependence counter finds; one in the remote window is yet to be read there. -/
inductive DepRead
  | met | notMet | bad
  | away (pa : Nat)
  deriving DecidableEq, Repr

/-- The dispatcher's read of a dependence counter (R53, R248). -/
def readCounter (s : State) (root part : Nat) (r : StartRecord) : State × DepRead :=
  if r.depaddr = 0 then (s, .met)
  else if r.depaddr % 8 ≠ 0 then (s, .bad)
  else match hubTranslate s root part ⟨true, false, true⟩ r.depaddr with
    | (s, .error _) => (s, .bad)
    | (s, .ok (pa, leaf)) =>
      if regionOf pa = .remote then (s, .away pa)
      else if !inMemory pa then (s, .bad)
      else
        let s := hubAccess s [pa] (leafUc leaf)
        if badBytes s pa 8 then (recordPieces s 6 (piecesOf pa 8), .bad)
        else (s, if r.depthresh ≤ readNat s pa 8 then .met else .notMet)

/-- The dispatcher sends for a counter in the remote window, where it has not yet and the partition's traffic is not refused: the task's
dependence is met when what comes back reaches the threshold (R341, R346). -/
def askCounter (s : State) (id : Nat) : DepRead → State
  | .away pa =>
    if s.hubOut.any (fun e => e.2.task == id && e.2.load) then s else (sendHub s id true pa (List.replicate 8 0)).getD s
  | _ => s

/-- A task as the dispatcher first sees it. -/
def newTask (s : State) (q : Nat) (d : QueueDesc) (r : StartRecord) (k : KernelHeader) (pages : List PageEntry) : Task where
  srec := r
  hdr := k
  pages := pages
  queue := q
  ticket := d.head
  stamp := s.stamps
  part := d.part
  root := d.root
  base := max r.cls d.ccap
  aged := max r.cls d.ccap
  slice := if d.slice = 0 then 100 else d.slice
  keys := mergeKeys (r.keys.take r.nkeys)

/-- Rejects the record at the head of a queue with a status. -/
def reject (s : State) (q : Nat) (d : QueueDesc) (r : StartRecord) (status : Nat) : State :=
  let id := s.nextTask
  let t : Task := { newTask s q d r noHeader [] with phase := .done, status := status, written := true }
  let s := writeCompletionRecord s id d.root d.part r.crec (completionBytes t status 0 0xFFFFFFFF 0 0 0)
  takeHead { s.setTask id t with nextTask := id + 1, stamps := s.stamps + 1 } q

/-- The start record at the head of a queue; what a bad piece of it reads as is free. -/
def headRecord (s : State) (d : QueueDesc) : State × StartRecord :=
  let a := d.ring + 128 * (d.head % d.capacity)
  let bytes := (span a 128).map (fun p => if badByte s p then Config.freeByte (s.free + p % 128) else readByte s.mem p)
  (recordPieces (hubAccess { s with free := s.free + 128 } [a] false) 6 (piecesOf a 128), parseRecord bytes)

/-- `DISPATCH_HEAD`: the dispatcher sees the head record of a bound queue for the first time. -/
def execDispatchHead (q : Nat) (s : State) : Result :=
  let d := s.queue q
  if d.state ≠ 1 ∨ d.tail ≤ d.head ∨ d.seen.isSome ∨ !(s.slots.any (·.1 == q)) then cannot
  else
    let (s, r) := headRecord s d
    if r.khdr = 0 then .next (takeHead s q)
    else if !recordOk (look d.lanesAt d.head (usableLanes s)) r then .next (reject s q d r 0x18)
    else match checkHeader s d.root r with
      | (s, .error st) => .next (reject s q d r st)
      | (s, .ok k) =>
        match checkPages s d.root r with
        | (s, none) => .next (reject s q d r 0x19)
        | (s, some pages) =>
          match readCounter s d.root d.part r with
          | (s, .bad) => .next (reject s q d r 0x18)
          | (s, dep) =>
            let id := s.nextTask
            let t := { newTask s q d r k pages with depMet := dep == .met }
            .next (askCounter { (s.setTask id t).setQueue q { s.queue q with seen := some id } with
              nextTask := id + 1, stamps := s.stamps + 1 } id dep)

/-- `DEPENDENCE_REREAD`: the dispatcher reads the counter of a task not yet met again. -/
def execDependenceReread (id : Nat) (s : State) : Result :=
  match s.task? id with
  | none => cannot
  | some t =>
    if t.phase ≠ .waiting ∨ t.depMet ∨ !visible s id t then cannot
    else match readCounter s t.root t.part t.srec with
      | (s, .met) => .next (s.setTask id { t with depMet := true })
      | (s, .notMet) => .next s
      | (s, .away pa) => .next (askCounter s id (.away pa))
      | (s, .bad) =>
        let s := writeCompletionRecord s id t.root t.part t.srec.crec (completionBytes t 0x18 0 0xFFFFFFFF 0 0 0)
        .next (takeHead (s.setTask id { t with phase := .done, status := 0x18, written := true }) t.queue)

/-- Some hart of a task is neither Resident nor Exited. -/
def Task.lacking (s : State) (t : Task) : Bool :=
  decide (t.granted < t.srec.harts) || t.harts.any (fun e => match s.hart? e.2 with
    | some h => h.status != .resident && h.status != .exited
    | none => false)

/-- `AGING_TICK`: 10 ms of waiting with the dependence met have passed (R281). -/
def execAgingTick (id : Nat) (s : State) : Result :=
  match s.task? id with
  | none => cannot
  | some t =>
    if t.phase = .done ∨ !t.depMet ∨ !t.lacking s then cannot
    else .next (s.setTask id { t with aged := if t.aged ≤ 1 then t.aged else t.aged - 1 })

/-! ## Grants (R52, R286, R287) -/

/-- The code for a place: what the column holds already, else read anew. -/
def fetchCode (s : State) (t : Task) (p : Spot) : State × Except (Nat × Cause) (List Byte) :=
  if hasCode s t p.column then (s, .ok [])
  else hubReadBytes s t.root t.srec.khdr t.hdr.codesize

/-- What came of placing harts. -/
inductive Placed
  | done (s : State)
  | noPlace
  | badCode (s : State) (rank : Nat) (cause : Cause) (va : Nat)

/-- Places n harts of a task from rank r on; `picks` are the columns that the allocator chooses where it may. -/
def placeHarts (id : Nat) : Nat → Nat → List Nat → State → Placed
  | 0, _, _, s => .done s
  | n + 1, r, picks, s =>
    match s.task? id with
    | none => .noPlace
    | some t =>
      match placeFor s [] id t r picks.head? with
      | none => .noPlace
      | some p =>
        match fetchCode s t p with
        | (s, .error e) => .badCode s r e.2 e.1
        | (s, .ok code) =>
          placeHarts id n (r + 1) picks.tail (giveDebugBlock (addHart s id t r p code) s.nextHart)

/-- The harts of a task placed, or the task ended because its code could not be copied. -/
def grant (s : State) (id : Nat) (t : Task) (n : Nat) (picks : List Nat) : Result :=
  match placeHarts id n t.granted picks s with
  | .done s => .next (takenUp (resetAging s id) id)
  | .noPlace => cannot
  | .badCode s rank cause va =>
    let s := s.modTask id (fun t => { t with phase := .started })
    match endTask s id (.codeCopy rank cause va) with
    | some s => .next s
    | none => cannot

/-- `TASK_START`: an eligible task whose lanes can be granted, and which no other holds back, gets its keys and its first hart, or all
harts of a gang; its record leaves the ring. -/
def execTaskStart (id : Nat) (pick : List Nat) (s : State) : Result :=
  match s.task? id with
  | none => cannot
  | some t =>
    if !eligible s id t ∨ !canPlace s [] id t ∨ heldBack s id t (wantedLanes s t) then cannot
    else
      let s := s.setTask id { t with phase := .started, held := t.keys }
      grant (takeHead s t.queue) id t t.batch pick

/-- `HART_GRANT`: the next hart of a started task that is no gang. -/
def execHartGrant (id : Nat) (pick : List Nat) (s : State) : Result :=
  match s.task? id with
  | none => cannot
  | some t =>
    if t.phase ≠ .started ∨ t.status ≠ 0 ∨ !t.growing
        ∨ heldBack s id t (wantedLanes s t) then cannot
    else grant s id t 1 pick

/-! ## Pre-emption (R288 to R291) -/

/-- The order in which a task last started or resumed. -/
def lastStart (s : State) (t : Task) : Nat := ((taskHarts s t).map (·.2.startedAt)).foldl max 0

/-- Sorts by a test that says which of two comes first. -/
def insertBy {α : Type} (first : α → α → Bool) (a : α) : List α → List α
  | [] => [a]
  | b :: l => if first a b then a :: b :: l else b :: insertBy first a l
def sortBy {α : Type} (first : α → α → Bool) : List α → List α
  | [] => []
  | a :: l => insertBy first a (sortBy first l)

/-- Victims in units that are taken together: a gang whole, otherwise harts, highest rank first. -/
def victimUnits (s : State) (t : Task) : List (List Nat) :=
  let l := taskHarts s t
  if t.srec.mode % 2 = 1 then (if l.isEmpty then [] else [l.map (·.1)])
  else (sortBy (fun (a b : Nat × Hart) => decide (b.2.rank < a.2.rank)) l).map (fun e => [e.1])

/-- The harts already chosen for pre-emption that still stand in their columns; their lanes count as freed. -/
def chosen (s : State) : List Nat := (s.harts.filter (fun e => e.2.haltReq || e.2.status == .halted)).map (·.1)

/-- Where a waiter comes to stand: places for harts from a rank on, or Saved harts on their own lanes. -/
inductive Placement
  | spots (r : Nat) (l : List Spot)
  | back (l : List Hart)
  deriving DecidableEq, Repr

/-- What a task waits for, each a waiter of its own (R287, R288): none for its next harts, or Saved harts that return together. -/
def claims (s : State) (id : Nat) (t : Task) : List (Option (List Hart)) :=
  let saved := savedHarts s id
  match t.phase with
  | .waiting => if eligible s id t then [none] else []
  | .started => (if t.growing then [none] else []) ++
      (if t.srec.mode % 2 = 0 then saved.map (fun h => some [h]) else if saved.isEmpty then [] else [some saved])
  | .done => []

/-- The lanes that a waiter wants (R285). -/
def claimLanes (s : State) (t : Task) : Option (List Hart) → Lanes
  | none => wantedLanes s t
  | some l => l.flatMap (·.lanesOf)

/-- Where a waiter can be placed once some harts are gone. -/
def placement (s : State) (gone : List Nat) (id : Nat) (t : Task) : Option (List Hart) → Option Placement
  | none => (placeRest s gone id t.batch t.granted).map (Placement.spots t.granted)
  | some l => if l.all (canReturn s gone) then some (.back l) else none

/-- A placement is possible with some harts gone. -/
def placementFits (s : State) (gone : List Nat) (id : Nat) : Placement → Bool
  | .spots r l => placesFit s gone id r l
  | .back l => l.all (canReturn s gone)

/-- Takes units until the waiter can be placed: the units taken, last first, and the placement. -/
def takeUnits (s : State) (gone : List Nat) (id : Nat) (t : Task) (claim : Option (List Hart)) :
    List (List Nat) → List (List Nat) → Option (List (List Nat) × Placement)
  | taken, rest =>
    match placement s (gone ++ taken.flatten) id t claim, rest with
    | some p, _ => some (taken, p)
    | none, [] => none
    | none, u :: us => takeUnits s gone id t claim (u :: taken) us

/-- Drops, in reverse order of taking, the units that a placement does not need. -/
def dropUnits (s : State) (gone : List Nat) (id : Nat) (p : Placement) : List (List Nat) → List (List Nat) → List (List Nat)
  | kept, [] => kept
  | kept, u :: us =>
    if placementFits s (gone ++ kept.flatten ++ us.flatten) id p then dropUnits s gone id p kept us
    else dropUnits s gone id p (u :: kept) us

/-- The victims for a waiter among tasks of some kind: greatest class first, then the most recently started. -/
def victims (s : State) (id : Nat) (t : Task) (claim : Option (List Hart)) (among : Nat → Task → Bool) : Option (List Nat) :=
  let need := claimLanes s t claim
  let gone := chosen s
  let cands := s.tasks.filter (fun u => u.1 != id && u.2.phase == .started && among u.1 u.2 &&
    lanesMeet ((taskHarts s u.2).flatMap (·.2.lanesOf)) need)
  let order := sortBy (fun (a b : Nat × Task) =>
    let ca := classOf s a.1
    let cb := classOf s b.1
    decide (cb < ca ∨ (ca = cb ∧ lastStart s b.2 ≤ lastStart s a.2))) cands
  let units := (order.flatMap (fun u => victimUnits s u.2)).filter (fun u => !u.any gone.contains)
  (takeUnits s gone id t claim [] units).map (fun l => (dropUnits s gone id l.2 [] l.1).flatten)

/-- The victims that a waiter gets, when it has no place and no task served earlier waits for its lanes. DESIGN CHOICE (log 74): a waiter that
R285 holds back gets no decision of its own before the earlier one waits no more for those lanes (R288). -/
def claimVictims (s : State) (id : Nat) (t : Task) (claim : Option (List Hart)) (among : Nat → Task → Bool) : Option (List Nat) :=
  if (placement s [] id t claim).isSome ∨ heldBack s id t (claimLanes s t claim) then none
  else (victims s id t claim among).filter (fun l => !l.isEmpty)

/-- Asks the victims of a task's first waiter that gets some to halt; `among` says which tasks give way to a waiter. -/
def preempt (s : State) (id : Nat) (t : Task) (among : Option (List Hart) → Nat → Task → Bool) : Option State :=
  ((claims s id t).findSome? (fun k => claimVictims s id t k (among k))).map (fun l => askHalt s l id)

/-- `PREEMPTION_REQUEST`: lanes for a waiter from tasks of a numerically greater class (R288). -/
def execPreemptionRequest (id : Nat) (s : State) : Result :=
  match (s.task? id).bind (fun t => preempt s id t (fun _ u _ => decide (classOf s id < classOf s u))) with
  | some s => .next s
  | none => cannot

/-- A task gives way to a waiter of class c: by its class, or, where its slice has run, to one of its own class from 1 to 3 that is to start
harts and does not only resume (R285, R289). -/
def givesWay (s : State) (c : Nat) (claim : Option (List Hart)) (u : Nat) (t : Task) : Bool :=
  decide (c < classOf s u) || (t.expired && claim.isNone && decide (c = classOf s u ∧ 1 ≤ c))

/-- `SLICE_EXPIRY`: the slice of a task has run since its last start or resumption. A waiter may then get lanes of it, and of the others of
its class whose slices have run (R289). -/
def execSliceExpiry (id waiter : Nat) (s : State) : Result :=
  match s.task? id, s.task? waiter with
  | some t, some w =>
    if t.phase ≠ .started then cannot
    else
      let s := s.setTask id { t with expired := true }
      .next ((preempt s waiter w (givesWay s (classOf s waiter))).getD s)
  | _, _ => cannot

/-- `HART_HALT`: a hart asked to halt stops at an instruction boundary (R290); one whose `TEXIT` is past its completion step exits
instead (R58). -/
def execHartHalt (h : Nat) (s : State) : Result :=
  match s.hart? h with
  | none => cannot
  | some r =>
    if r.status ≠ .resident ∨ !r.haltReq ∨ r.leaving ∨ !r.caughtUp then cannot
    else .next ((haltHart s h).modHart h (fun r => { r with status := .halted, haltReq := false }))

/-- The context of a hart goes to its shadow rows, or comes back from them: each is activated (R19, R315). DESIGN CHOICE (log 38): the row of
each open way above which its lane words lie, and one row of way 0 for the rest; the sequencer's path acts for no Resident hart. -/
def contextRows (s : State) (h : Hart) : State :=
  let ways := distinct (h.v.flatMap (fun e => h.openWays (BitVec.ofNat 6 e.1)))
  h.columns.foldl (fun s c =>
    ask s c (((ways.map (fun w => (w, 2048 + 6 * h.ctx))) ++ [(0, 2049 + 6 * h.ctx)]).map (fun (r : Nat × Nat) =>
      requestOf .hub r.1 r.2 8 (s.col c).cycles))) s

/-- `HART_SAVED`: the context of a halted hart is written to its column's shadow rows (R291). A gang is saved whole. -/
def execHartSaved (h : Nat) (s : State) : Result :=
  match s.hart? h with
  | none => cannot
  | some r =>
    if r.status ≠ .halted ∨ s.outstanding.any (fun e => e.2.hart == h && !e.2.load) then cannot
    else
      let s := contextRows (flushCounts s r.column) r
      let f := writeFrame s r 6 r.pc 0
      .next (freeRows (f.1.setHart h { f.2 with status := .saved, saves := r.saves + 1 }) h r.column)

/-- A bad piece of a saved context is recorded and poisons what it holds (R305, R306). -/
def restoreBad (s : State) (h : Hart) (b : BadContext) : State × Hart :=
  (s.modCol (h.column + b.column) (fun c => c.recordAt 4 b.row b.way b.lane),
    match b.part with
    | .register v words =>
      let r := look h.v v {}
      { h with v := put h.v v { r with words := words.foldl (fun m j => put m j { r.word j with poison := true }) r.words } }
    | .scratch keys => { h with scratch := keys.foldl (fun m k => put m k { h.scratchWord k with poison := true }) h.scratch }
    | .matrix keys => { h with mat := keys.foldl (fun m k => put m k (BitVec.ofNat 32 (TypeTag.fp32.poisonBits))) h.mat }
    | .scalar => h)

/-- A Saved hart stands in its column again, with its context restored and its row window entries loaded from its task's page list as it
now stands (R75, R103, R291); a channel's fetch starts again at its milestone (R270). -/
def returnHart (s : State) (id : Nat) (h : Hart) : State :=
  match s.task? h.task with
  | none => s
  | some t =>
    let (s, pages) := pagesNow (contextRows s h) t
    let t := { t with pages := pages, expired := false }
    let s := s.setTask h.task t
    let s := s.modCol h.column (fun c => { c with
      rowWin := c.rowWin ++ (rowEntries t h.column).map (fun e => ⟨id, e.vpage, e.leaf, false⟩) })
    let bad := h.badContext
    let h := { h with
      status := .resident, startedAt := s.order, gaveTo := none, haltReq := false, badContext := []
      chans := h.chans.map (fun (e : Nat × Channel) => (e.1, { e.2 with ahead := [], fault := none, entries := [] })) }
    let r := bad.foldl (fun (a : State × Hart) b => restoreBad a.1 a.2 b) (s, h)
    let f := writeFrame { r.1 with order := r.1.order + 1 } r.2 7 r.2.pc 0
    f.1.setHart id f.2

/-- The places at which a Saved hart may stand: its own, and after a lane loss any clusters of the usable half (R309). -/
def returnSpot (s : State) (h : Hart) : Option Hart :=
  if canReturn s [] h then some h
  else if h.pendLane ∧ h.cols = 1 ∧ h.lanes < 32 then
    ((span 0 8).map (fun cl => { h with cluster := cl })).find? (fun r =>
      (columnSpots s (Nat.log2 (max h.lanes 2) - 1) h.column).contains r.cluster && canReturn s [] r)
  else none

/-- Returns every hart of a list that is Saved, when all can return. -/
def returnAll (s : State) : List Nat → Option State
  | [] => some s
  | id :: l =>
    match s.hart? id with
    | none => none
    | some h =>
      if h.status ≠ .saved then returnAll s l
      else match returnSpot s h with
        | none => none
        | some h => returnAll (returnHart s id h) l

/-- `HART_RESUME`: a Saved hart, or all harts of a gang, on their own columns and lanes (R49, R287). A bad piece of scalar state in a
saved context ends the task (R306). -/
def execHartResume (id : Nat) (s : State) : Result :=
  match s.hart? id with
  | none => cannot
  | some h =>
    match s.task? h.task with
    | none => cannot
    | some t =>
      let gang := t.srec.mode % 2 = 1
      let ids := if gang then t.harts.map (·.2) else [id]
      let halted := gang && t.harts.any (fun e => match s.hart? e.2 with
        | some r => r.status == .halted || r.haltReq
        | none => false)
      let lanes := if gang then (savedHarts s h.task).flatMap (·.lanesOf) else h.lanesOf
      let bad := ids.any (fun n => (s.hart? n).any (fun r => r.status == .saved && r.badContext.any (·.part == .scalar)))
      if h.status ≠ .saved ∨ halted ∨ heldBack s h.task t lanes then cannot
      else match returnAll s ids with
        | some s =>
          let s := takenUp (resetAging s h.task) h.task
          .next (if bad then (endTask s h.task .mcheck).getD s else s)
        | none => cannot

/-! ## Barriers and waits -/

/-- `BARRIER_PHASE` (R262): every hart of the gang that has not exited has arrived. -/
def execBarrierPhase (id : Nat) (s : State) : Result :=
  match s.task? id with
  | none => cannot
  | some t =>
    let l := t.harts.filterMap (fun e => (s.hart? e.2).bind (fun h =>
      if h.status = .exited ∨ h.status = .ended then none else some (e.2, h)))
    if t.srec.mode % 2 = 0 ∨ l.isEmpty ∨ l.any (fun e => decide (e.2.barA ≤ t.barC)) then cannot
    else
      let s := s.setTask id { t with barC := t.barC + 1 }
      .next (l.foldl (fun s e => s.modHart e.1 (fun h => if h.wait = .barrier then { h with wait := .none } else h)) s)

/-- `WAITEV_WAKE` (R273): an event of the mask holds. -/
def execWaitevWake (id : Nat) (s : State) : Result :=
  match s.hart? id with
  | none => cannot
  | some h => match h.wait with
    | .waitev mask => if eventsHeld s id h mask ≠ 0 then .next (s.setHart id { h with wait := .none }) else cannot
    | _ => cannot

/-- `WAITEV_TIMEOUT`: the timeout of a waiting hart may have ended; the instruction tests it when it issues again. -/
def execWaitevTimeout (id : Nat) (s : State) : Result :=
  match s.hart? id with
  | none => cannot
  | some h => match h.wait with
    | .waitev _ => .next (s.setHart id { h with wait := .none })
    | _ => cannot

end Sys2Proof.Machine
end

