-- ==== Sys2Proof/Machine/Events.lean ====
section
/-! DEFINITION. Machine/Events.lean: the steps of the sequencer, the row scoreboard, retirement, trap delivery, shootdown, remote
accesses and refresh (R21, R73, R77, R100, R174, R179, R293, R296, R299, R302, R311 to R316, R342, R343). -/

namespace Sys2Proof.Machine

/-! ## Fetch (R70, R126) -/

/-- The code of a hart's kernel in its column's TCM. -/
def codeOf (s : State) (h : Hart) : Option CodeCopy :=
  (s.col h.column).codes.find? (fun k => k.root == s.rootOf h && k.khdr == s.khdrOf h)

/-- The four bytes of some code at an offset; none where not all of them lie in it. -/
def wordAt (code : List Byte) (off : Nat) : Option (List Byte) := if code.length < off + 4 then none else some ((code.drop off).take 4)

/-- The bytes of the copied word at a hart's pc; none outside its kernel's code. DESIGN CHOICE (log 74): a word that lies in the code only
in part is outside it. -/
def fetchWord (s : State) (h : Hart) : Option (List Byte) :=
  (codeOf s h).bind (fun k => if h.pc.toNat < k.khdr then none else wordAt k.code (h.pc.toNat - k.khdr))

/-- The word at a hart's pc as it was copied, before any change by the steward. -/
def copiedWord (s : State) (h : Hart) : Option (List Byte) := (codeOf s h).bind (fun k => wordAt k.orig (h.pc.toNat - k.khdr))

/-- What memory now holds where the word at a hart's pc was copied from. -/
def storedWord (s : State) (h : Hart) : Option (List Byte) :=
  ((codeOf s h).bind (fun k => find? k.pages (h.pc.toNat / 2 ^ 21))).bind (fun p =>
    let pa := p * 2 ^ 21 + h.pc.toNat % 2 ^ 21
    if badBytes s pa 4 then none else some (readBytes s pa 4))

/-- What a fetch may return: the word of the copy, and the new one, once a store has changed that word in memory (R70). -/
def nextWords (s : State) (h : Hart) : List (List Byte) :=
  match fetchWord s h, copiedWord s h, storedWord s h with
  | none, _, _ => []
  | some w, some old, some new => if new = old then [w] else [w, new]
  | some w, _, _ => [w]

/-- The majors that the next instruction of a hart may have. -/
def nextMajors (s : State) (h : Hart) : List Nat := (nextWords s h).map (fun b => ofBytes b / 2 ^ 26)

/-! ## The sequencer (R293) -/

/-- The lane cycles of some that are among a column's last 16. -/
def recent (k : Column) (l : List Nat) : List Nat := l.filter (fun t => decide (k.cycles < t + 16))

/-- What a hart issues next is limited by the issue duty: a vector, tile or small-matrix instruction of a task that is not of class 0
(R358). -/
def underDuty (s : State) (h : Hart) : Bool := (nextMajors s h).any issuesVector && classOf s h.task != 0

/-- What a row instruction of the hart has asked of the ways of its columns has not all started (R179). -/
def rowsWait (s : State) (id : Nat) (h : Hart) : Bool :=
  h.columns.any (fun c => (s.col c).requests.any (fun r => r.cls == 3 && r.hart == some id))

/-- Hart id of a column is ready. One that is to halt issues nothing more, unless its `TEXIT` is past its completion step (R58). A vector
instruction waits for an entry of the vector queue (R220) and for the issue duty (R358); the next issue waits with a row instruction (R179); what earlier instructions have on their way comes
before an asynchronous cause that is due (R302), and before a stop of the gang (R325). -/
def ready (s : State) (c id : Nat) (h : Hart) : Bool :=
  h.status == .resident && h.column == c && h.presented.isNone && (!h.haltReq || h.leaving) && !h.stopDue &&
    (h.wait == .none || h.wait == .refresh || (h.wait == .film && !filmIsFull s h)) && !rowsWait s id h &&
    (h.caughtUp || (dueAsync s id h).isNone) &&
    (decide (h.queued < 16) || !(nextMajors s h).any isVectorMajor) &&
    (decide ((recent (s.col c) (s.col c).issues).length < (s.col c).duty) || !underDuty s h)

/-- Of two harts, the one that has waited longer; ties go to the lower context. -/
def longerIdle (a b : Nat × Hart) : Nat × Hart :=
  if a.2.idle < b.2.idle ∨ (a.2.idle = b.2.idle ∧ b.2.ctx < a.2.ctx) then b else a

/-- The hart that a column's sequencer issues from next. -/
def pickHart (s : State) (c : Nat) : Option (Nat × Hart) :=
  let l := s.harts.filter (fun e => ready s c e.1 e.2)
  match l.filter (fun e => decide (1024 ≤ e.2.idle)) with
  | e :: rest => some (rest.foldl longerIdle e)
  | [] =>
    let cls := (l.map (fun e => classOf s e.2.task)).foldl min 3
    (List.range 8).findSome? (fun i =>
      l.find? (fun e => classOf s e.2.task == cls && e.2.ctx == ((s.col c).lastCtx + 1 + i) % 8))

/-- n lane cycles pass in a column: for it, and for the harts that stand in it (R172). -/
def pass (s : State) (c n : Nat) : State :=
  let s := s.modCol c (fun k => { k with cycles := k.cycles + n })
  { s with harts := s.harts.map (fun e =>
      if e.2.inPlace && e.2.column == c then
        (e.1, { e.2 with cycle := e.2.cycle + BitVec.ofNat 64 n, idle := e.2.idle + n })
      else e) }

/-- n lane cycles pass in a column, which grants what it can before and after them (R21, R179). -/
def tick (s : State) (c n : Nat) : State := serveColumn (pass (serveColumn s c) c n) c

/-- The hart picked: whether its next retirement is a step of its own, or its accesses are performed after it, is free (log 6); one whose
earlier instructions have not all retired retires at once, and while instructions wait in the vector queue its accesses are performed after
it. -/
def Hart.picked (h : Hart) (n : Nat) : Hart :=
  { h with idle := 0, idleWas := h.idle, defer := n % 3 == 1 && h.caughtUp, late := n % 3 == 2 || !h.waiting.isEmpty }

/-- The column whose sequencer issues from a hart that it has picked. -/
def Column.picks (k : Column) (ctx : Nat) (limited : Bool) : Column :=
  { k with
    lastCtx := ctx, lastWas := k.lastCtx
    issues := if limited then k.cycles :: recent k k.issues else recent k k.issues
    issuesWas := recent k k.issues }

/-- `SEQUENCER_ISSUE`: a lane cycle of column c, and as many more as the interlocks of the instruction take. The hart picked stands
in `cur`. -/
def execSequencerIssue (c : Nat) (s : State) : Result :=
  if 4096 ≤ c ∨ s.cur.isSome then cannot
  else
    let s' := tick { s with free := s.free + 2 } c (1 + Config.stallCycles s.free)
    match pickHart s' c with
    | none => .next s'
    | some e =>
      let s' := s'.modCol c (·.picks e.2.ctx (underDuty s' e.2))
      .next { s'.modHart e.1 (·.picked (Config.pick (s.free + 1))) with cur := some e.1 }

/-! ## The row scoreboard and the ways (R21, R100, R179) -/

/-- The source can act in a column: a row instruction only in those of its hart's partition, a stream channel that its hart holds. -/
def sourceOk (s : State) (c : Nat) : ActSource → Bool
  | .row n => (s.hart? n).any (fun h => h.inPlace && h.columns.contains c)
  | .stream n ch => (s.hart? n).any (fun h => h.inPlace && (find? h.chans ch).isSome)
  | .base n | .spec n => (s.hart? n).any (·.inPlace)
  | .hub => true

/-- A source may name a physical row of a way: one that holds an addressable row; the reserved rows are for the sequencer and the steward
alone (R19). -/
def rowReaches (k : Column) (way row : Nat) (src : ActSource) : Bool :=
  src == .hub || decide (k.addressedRow way row < 2048 ∧ k.physicalRow way (k.addressedRow way row) = row)

/-- `WAY_ACTIVATION` of a physical row: the request, which joins those that wait where it is not among them, is granted if it may be. -/
def execWayActivation (c way row : Nat) (src : ActSource) (segs : Nat) (s : State) : Result :=
  if 4096 ≤ c ∨ 64 ≤ way ∨ 2112 ≤ row ∨ segs = 0 ∨ 8 < segs ∨ !sourceOk s c src ∨ !rowReaches (s.col c) way row src then cannot
  else
    let r := requestOf src way row segs (s.col c).cycles
    match (s.col c).requests.find? r.same with
    | some q => if mayGrant s c q then .next (grantRequest s c q) else cannot
    | none =>
      if r.cls = 6 then cannot
      else
        let s := ask s c [r]
        .next (if mayGrant s c r then grantRequest s c r else s)

/-- The elements that a channel is declared to reach next: those that its strip lacks, and those of the strip after it. -/
def Channel.toReach (ch : Channel) : List Nat := span ch.m (min ((ch.k + 2) * ch.strip) ch.total - ch.m)

/-- The address of an element, as far as the channel has it without reading its block table. -/
def Channel.knownAddress (ch : Channel) (e : Nat) : Option Nat :=
  let i := e / ch.rlen
  let at' (v : Nat) (row : Nat) : Nat := (wordOfInt (v + ch.base + row * ch.rstride + (e % ch.rlen : Nat) * ch.estride)).toNat
  if ch.btable = 0 then some (at' 0 i) else (find? ch.entries (i / ch.bsize)).map (fun v => at' v.toNat (i % ch.bsize))

/-- The leaf of a virtual address that a hart's row window entries or its stack's TLB show, for a page that may be read ahead. -/
def shownLeaf (s : State) (n : Nat) (h : Hart) (va : Nat) : Option Nat :=
  let row := ((s.col h.column).rowWin.find? (fun e => e.hart == n && !e.stale && e.vpage == va / 2 ^ 21)).map (·.leaf)
  let held := ((s.stk h.stack).tlb.find? (fun e => e.root == s.rootOf h && e.vpage == va / 2 ^ 21)).map (·.leaf)
  (row.orElse (fun _ => held)).filter (fun l => leafV l && leafRd l && !leafNospec l)

/-- `SPECULATIVE_PREACTIVATION`: a stream channel of the hart asks for a row that it is declared to reach next, in a page that the hart's
row window entries or its stack's TLB show, and that may be read and is not NOSPEC. The strip farm declares no addresses (log 10). -/
def execSpeculativePreactivation (n c way row : Nat) (s : State) : Result :=
  match s.hart? n with
  | none => cannot
  | some h =>
    let hits (va : Nat) : Bool := (shownLeaf s n h va).any (fun l =>
      let pa := leafAddress l va
      regionOf pa == .dram && columnOf pa == c && layerOf pa * 8 + wayOf pa == way && rowOf pa == row)
    if 4096 ≤ c ∨ 64 ≤ way ∨ 2048 ≤ row ∨ h.status ≠ .resident
        ∨ !h.chans.any (fun e => e.2.toReach.any (fun i => (e.2.knownAddress i).any hits)) then cannot
    else .next (s.modCol c (fun k => { k with
      requests := k.requests ++ [requestOf (.spec n) way (k.physicalRow way row) 8 k.cycles] }))

/-- `SPECULATIVE_DISCARD`: a pre-activation that has not been granted within 64 lane cycles is dropped. -/
def execSpeculativeDiscard (c n : Nat) (s : State) : Result :=
  match (s.col c).requests[n]? with
  | some r =>
    if c < 4096 ∧ r.expired (s.col c).cycles then .next (s.modCol c (fun k => { k with requests := k.requests.eraseIdx n })) else cannot
  | none => cannot

/-- `CLASS5_PROMOTION`: a request of class 5 that has waited 128 lane cycles goes ahead of classes 3 and 4 once. -/
def execClass5Promotion (c n : Nat) (s : State) : Result :=
  match (s.col c).requests[n]? with
  | some r =>
    if c < 4096 ∧ r.cls = 5 ∧ !r.promoted ∧ r.since + 128 ≤ (s.col c).cycles then
      .next (s.modCol c (fun k => { k with requests := k.requests.set n { r with promoted := true } }))
    else cannot
  | none => cannot

/-- `ALERT_DEADLINE` (R316): the base layer asks for a `REFN` of class 2 for an alert that none is asked for yet. -/
def execAlertDeadline (c way row : Nat) (s : State) : Result :=
  let r := hardwareRefn way row (s.col c).cycles
  if (s.col c).alerts.any (fun a => a.way == way && a.row == row) && !(s.col c).requests.any r.same then .next (ask s c [r]) else cannot

/-! ## Retirement and performing (R150, R163, R174, R182, R203) -/

/-- `ELEMENT_GROUP_VALID`: group g of register v becomes valid in the result that stands apart. -/
def execElementGroupValid (n v g : Nat) (s : State) : Result :=
  match find? s.shadows n with
  | none => cannot
  | some r =>
    let reg := look r.v v {}
    if hasBit reg.invalid g ∧ !(r.transport.any (fun t => t.vd.toNat == v)) then
      .next { s with shadows := put s.shadows n { r with v := put r.v v { reg with invalid := putBit reg.invalid g false } } }
    else cannot

/-- Some element group of an activated register is still to come. -/
def groupsPending (r : Hart) : Bool := r.v.any (fun e => e.2.invalid != 0 && !(r.transport.any (fun t => t.vd.toNat == e.1)))

/-- The first instruction that waits in the vector queue can run: nothing sent before it is still to write a register that it names, or to
take one that it writes. -/
def headReady (h : Hart) : Bool :=
  match h.firstWaiting with
  | none => false
  | some q => h.elems.all (fun e => decide (q.seq < e.seq) || !(e.fillRegs.any q.names || e.takes.any q.dests.contains))

/-- `VECTOR_RETIRE`: the result of a vector instruction becomes the hart's state, or the oldest of the vector queue retires; else the first
that waits there stands in `cur` to run. -/
def execVectorRetire (n : Nat) (s : State) : Result :=
  match s.hart? n, find? s.shadows n with
  | some h, some r => if h.wait = .retire .vector ∧ !groupsPending r then .next (commitShadow s n) else cannot
  | some h, none =>
    match h.canRetire with
    | some q => .next (retireFront s n h q)
    | none =>
      if s.cur.isNone ∧ h.status = .resident ∧ headReady h then .next { s.modHart n (fun h => { h with atHead := true }) with cur := some n }
      else cannot
  | _, _ => cannot

/-- `SCALAR_RETIRE`: the result of a scalar load or of a sent action comes back, and the instruction retires. -/
def execScalarRetire (n : Nat) (s : State) : Result :=
  match s.hart? n, find? s.shadows n with
  | some h, some _ => if h.wait = .retire .load ∨ h.wait = .retire .sent then .next (commitShadow s n) else cannot
  | _, _ => cannot

/-- `STORE_BUFFER_PERFORM`: buffered store n is performed; an earlier one to a common byte goes first. -/
def execStoreBufferPerform (n i : Nat) (s : State) : Result :=
  match s.hart? n with
  | none => cannot
  | some h =>
    match h.stores[i]? with
    | none => cannot
    | some b =>
      if (h.stores.take i).any (·.touches b.pa b.data.length) then cannot
      else .next ((performStores s n [b]).modHart n (fun h => { h with stores := h.stores.eraseIdx i }))

/-- `ELEMENT_WRITE_PERFORM`: sent element access n is performed, when nothing must come before it; a hart that waits for it goes on. -/
def execElementWritePerform (n i : Nat) (s : State) : Result :=
  match s.hart? n with
  | none => cannot
  | some h =>
    match h.elems[i]? with
    | none => cannot
    | some e =>
      if mayPerform h i then
        .next ((performElem s n e).modHart n (fun h => { h.withElems (h.elems.eraseIdx i) with
          wait := if h.wait = .access then .none else h.wait }))
      else cannot

/-! ## Traps (R296, R299, R302) -/

/-- A hart at an instruction boundary: Resident, not with the steward, and nothing of an issued instruction outstanding. -/
def atBoundary (s : State) (n : Nat) (h : Hart) : Bool :=
  h.status == .resident && h.presented.isNone && (find? s.shadows n).isNone

/-- Every issued instruction of it has retired as well (R301, R302). -/
def allRetired (s : State) (n : Nat) (h : Hart) : Bool := atBoundary s n h && h.caughtUp

/-- `TRAP_DELIVERY`: a synchronous cause of the instruction at hand is delivered. -/
def execTrapDelivery (n : Nat) (cause : Cause) (pc info : Word) (s : State) : Result :=
  match s.hart? n with
  | some h => if causeAsync cause ∨ !allRetired s n h then cannot else .next (deliver s n h cause pc info)
  | none => cannot

/-- The delivery of the asynchronous cause that is due, at a boundary at which no issued instruction waits, and no `TEXIT` past its
completion step. -/
def deliverDue (s : State) (n : Nat) (h : Hart) : Option State :=
  if !allRetired s n h ∨ h.wait ≠ .none ∨ h.leaving then none
  else (dueAsync s n h).map (fun d => deliver s n d.2.2 d.1 h.pc d.2.1)

/-- `ASYNC_DELIVERY`. -/
def execAsyncDelivery (n : Nat) (s : State) : Result :=
  match (s.hart? n).bind (deliverDue s n) with
  | some s => .next s
  | none => cannot

/-- The hart with another CTL; a changed FILM is the new MODE of `FILMSTAT` (R321, R324). -/
def Hart.withCtl (h : Hart) (ctl : BitVec 32) : Hart :=
  { h with
    ctl := ctl
    filmstat := if ctl.extractLsb' 0 2 = h.ctl.extractLsb' 0 2 then h.filmstat
      else (h.filmstat &&& ~~~(0x3000000000000000 : Word)) ||| BitVec.ofNat 64 (ctl.toNat % 4 * 2 ^ 60) }

/-- ADDR of `FILMBASE`: the film ring's address, or 0 when FILM = 0 (R324). -/
def filmAddress (s : State) (h : Hart) : Word := if h.ctl.extractLsb' 0 2 = 0 then 0 else BitVec.ofNat 64 (dbgNat s h 0x18 8 % 2 ^ 48)

/-- The steward writes a byte of the hart's debug block, of which the first four are CTL; a confidential partition keeps SAFE (R321, R335).
`FILMBASE` follows FILM and filmbase (R324). -/
def writeBlock (c : Ctx) (off : Nat) (b : Byte) : Ctx :=
  match c.h.dbg with
  | some d =>
    if off < 128 then
      let s := writeBytes c.s 3 (d + off) [b]
      let safe : BitVec 32 := if (look s.partitions (s.partOf c.h) {}).conf then 0x100 else 0
      let h := if off < 4 then c.h.withCtl (BitVec.ofNat 32 (readNat s d 4) ||| safe) else c.h
      let follows := h.ctl.extractLsb' 0 2 != c.h.ctl.extractLsb' 0 2 || decide (0x18 ≤ off ∧ off < 0x20)
      { c with s := s, h := if follows then { h with filmbase := filmAddress s h } else h }
    else c
  | none => c

/-- Stopped state as its tenant gets it: sealed for a confidential partition (R335, R347). DESIGN CHOICE (log 74): it is the pc and the
scalar registers. -/
def dumpState (c : Ctx) : Ctx :=
  let part := c.s.partOf c.h
  let bytes := toBytes 8 c.npc.toNat ++ c.h.x.toList.flatMap (fun w => toBytes 8 w.toNat)
  { c with s := { c.s.reply (.dump part (sealRecord (look c.s.partitions part {}) c.s.free bytes)) with free := c.s.free + 1 } }

/-- The open ways of a register as the steward leaves them, with the image; lane words of ways that stay open keep what they hold. -/
def VReg.reopen (r : VReg) (h : Hart) (ways image : Nat) : VReg :=
  { r with
    openWays := ways, image := image, invalid := 0
    words := r.words.filter (fun e => hasBit ways (h.wordWay e.1)) }

/-- A form by its number. -/
def formOf : Nat → MatForm
  | 1 => .cholesky
  | 2 => .lu
  | _ => .general

/-- One thing that the steward does to a hart that it holds (R16, R19, R34, R142, R234, R296, R300, R321, R335). -/
def stewardEdit (c : Ctx) : StewardEdit → Ctx
  | .x r v => c.setX r v
  | .p r b => c.setP r b
  | .mask k bits => { c with h := c.h.setK k (bits % 2 ^ c.h.capacity 4) }
  | .vl n => { c with h := { c.h with vl := min n (c.h.capacity 4) } }
  | .word v j bits poison =>
    let r := c.h.getV v
    if j < c.h.vlmax ∧ c.h.isOpen r j then { c with h := c.h.setV v { r with words := put r.words j ⟨bits, poison⟩ } } else c
  | .tag v t sc =>
    if c.declared [v, sc] ∧ vtypeOk v.toNat sc.toNat t.toNat then
      { c with h := c.h.setV v { c.h.getV v with tag := .ofCode t.toNat, scale := sc } }
    else c
  | .entry lane m i j bits =>
    if lane < c.h.lanes ∧ i < 6 ∧ j < 6 ∧ c.header.smat = 1 then { c with h := { c.h with mat := put c.h.mat (matKey lane m.toNat i j) bits } }
    else c
  | .ways v ways image =>
    if c.declared [v] ∧ ways < 2 ^ c.h.wayCount then { c with h := c.h.setV v ((c.h.getV v).reopen c.h ways image) } else c
  | .shape m rows cols form =>
    if c.header.smat = 1 ∧ 1 ≤ rows ∧ rows ≤ 6 ∧ 1 ≤ cols ∧ cols ≤ 6 ∧ form < 3 then
      { c with h := { c.h with matShape := c.h.matShape.set m.toNat ⟨rows, cols, formOf form⟩ } }
    else c
  | .perm lane m rows =>
    if lane < c.h.lanes ∧ c.header.smat = 1 ∧ rows.length ≤ 6 ∧ rows.all (fun r => decide (r < rows.length)) ∧ rows = distinct rows then
      { c with h := { c.h with perm := put c.h.perm (lane * 4 + m.toNat) rows } }
    else c
  | .laneFlags lane bits =>
    if lane < c.h.lanes ∧ c.header.smat = 1 then { c with h := { c.h with laneFlags := put c.h.laneFlags lane bits } } else c
  | .scratch lane n bits poison =>
    if lane < c.h.lanes ∧ 4 * n < c.header.scratch then { c with h := { c.h with scratch := put c.h.scratch (lane * 2048 + n) ⟨bits, poison⟩ } }
    else c
  | .tile scale key b poison =>
    if c.h.tileHeld ∧ key < c.h.cols * (if scale then 128 else 32768) then
      { c with h := c.h.tileIn scale [(key, ⟨b, poison⟩)] }
    else c
  | .generator lane bits => if lane < c.h.lanes then { c with h := { c.h with rnd := put c.h.rnd lane bits } } else c
  | .system n v => if n = 0x030 ∧ 4 < v.toNat % 8 then c else sysWrite c n v
  | .tcm off b =>
    if off < c.header.tcmstack ∧ c.h.status = .saved then { c with h := { c.h with tcm := put c.h.tcm off b } } else c
  | .code off b => { c with s := c.s.modCol c.h.column (fun k => { k with
      codes := k.codes.map (fun q => if q.root = c.s.rootOf c.h ∧ q.khdr = c.s.khdrOf c.h then { q with code := q.code.set off b } else q) }) }
  | .testRow way off b =>
    if way < 64 ∧ off < 1024 then
      let s := c.s.modCol c.h.column (fun k => { k with testRow := put k.testRow (way * 1024 + off) b })
      { c with s := ask s c.h.column [requestOf .hub way 2111 8 (s.col c.h.column).cycles] }
    else c
  | .block off b => writeBlock c off b
  | .rft => { c with h := { returnFromTrap c.h with mode := .steward }, npc := c.h.trappc }
  | .dump => dumpState c

/-- What the steward may do with no hart presented: the TCM share of a hart that is not Resident, and what is no register state (R16, R69,
R321). -/
def aside : StewardEdit → Bool
  | .tcm .. | .code .. | .testRow .. | .block .. => true
  | _ => false

/-- `STEWARD_RESUME`: a hart with the steward goes on at the pc presented, after an `RFT` on its behalf at `TRAPPC`, or at another that
the steward gives, with the state that the steward leaves. A hart that is not presented stays as it is but for what the steward reaches
of it all the same. -/
def execStewardResume (n : Nat) (pc : Option Word) (xs : List StewardEdit) (s : State) : Result :=
  match s.hart? n with
  | none => cannot
  | some h =>
    match h.presented with
    | none =>
      if (find? s.shadows n).isSome ∨ pc.isSome ∨ xs.isEmpty ∨ !xs.all aside then cannot
      else
        let c := xs.foldl stewardEdit ⟨s, n, h, h.pc, false, none, 0, []⟩
        .next (c.s.setHart n c.h)
    | some p =>
      let c := xs.foldl stewardEdit ⟨s, n, { h with mode := .steward }, p.pc, false, none, 0, []⟩
      let pc := pc.getD c.npc
      if pc.toNat % 4 ≠ 0 then cannot
      else .next (c.s.setHart n { c.h with presented := none, mode := .task, pc := pc, exempt := true })

/-- `STEWARD_DELIVER`: the cause presented goes to `TRAPVEC` after all, which is a delivery of its own in the trace (R329). -/
def execStewardDeliver (n : Nat) (s : State) : Result :=
  match s.hart? n with
  | none => cannot
  | some h =>
    match h.presented with
    | some ⟨some cause, pc, info, _, _⟩ =>
      if h.trapvec.toNat / 4 = 0 then cannot
      else
        let f := writeFrame s { h with presented := none } 2 pc (causeCode cause)
        .next (f.1.setHart n (enterVector f.2 cause pc info))
    | _ => cannot

/-! ## Shootdown (R73, R77) -/

/-- `SHOOTDOWN` of some pages of an address space: TLB entries are dropped, and row window entries become stale. -/
def execShootdown (root : Nat) (vpages : List Nat) (s : State) : Result :=
  let s := { s with stackTab := s.stackTab.map (fun (e : Nat × Stack) =>
    (e.1, { e.2 with tlb := e.2.tlb.filter (fun t => !(t.root == root && vpages.contains t.vpage)) })) }
  let mine (n : Nat) : Bool := (s.hart? n).any (fun h => s.rootOf h == root)
  .next { s with columns := s.columns.map (fun (e : Nat × Column) =>
    (e.1, { e.2 with rowWin := e.2.rowWin.map (fun r => if mine r.hart && vpages.contains r.vpage then { r with stale := true } else r) })) }

/-- `ROW_WINDOW_RELOAD`: the steward reloads the stale entries of a task's page in a column from the updated page list, whose leaves are
valid and lie in stacked DRAM (R74), and what stalled on them goes on. -/
def execRowWindowReload (c t vpage : Nat) (leaf : BitVec 64) (s : State) : Result :=
  let mine (n : Nat) : Bool := (s.hart? n).any (fun h => h.task == t)
  let hit (r : RowEntry) : Bool := r.stale && r.vpage == vpage && mine r.hart
  if !((s.col c).rowWin.any hit) ∨ !leafOk leaf.toNat ∨ regionOf (leafAddress leaf.toNat 0) ≠ .dram then cannot
  else
    let woken := ((s.col c).rowWin.filter hit).map (·.hart)
    let s := s.modCol c (fun k => { k with
      rowWin := k.rowWin.map (fun r => if hit r then { r with leaf := leaf.toNat, stale := false } else r) })
    let s := s.modTask t (fun t => { t with
      pages := t.pages.map (fun p => if p.vpage = vpage then { p with leaf := leaf.toNat } else p) })
    .next { s with harts := s.harts.map (fun e => match e.2.wait with
      | .staleRow va => if woken.contains e.1 && va.toNat / 2 ^ 21 == vpage then (e.1, { e.2 with wait := .none }) else e
      | _ => e) }

/-- `ROW_WINDOW_TIMEOUT`: no reload has come. -/
def execRowWindowTimeout (n : Nat) (s : State) : Result :=
  match s.hart? n with
  | none => cannot
  | some h =>
    match h.wait with
    | .staleRow va => if h.caughtUp then .next (deliver s n h .pageWin h.pc va) else cannot
    | _ => cannot

/-! ## Remote accesses (R340 to R343, R346) -/

/-- A remote load's element reaches its instruction, or its channel. None: the hart's last instruction has not retired, or the film is
full and the strip waits. -/
def remoteLoaded (s : State) (id : Nat) (r : Remote) (h : Hart) (data : Option Nat) : Option State :=
  match r.chan with
  | none =>
    if h.remote.contains id then
      some (s.setHart r.hart { h with arrived := put h.arrived r.idx data, remote := h.remote.filter (· != id) })
    else some s
  | some n =>
    match find? h.chans n with
    | none => some s
    | some ch =>
      if !ch.missing.contains r.idx then some s
      else if (find? s.shadows r.hart).isSome then none
      else
        let t := (h.getV ch.dest).tag
        let x : Elem := match data with
          | some v => ⟨r.idx - ch.k * ch.strip, v % 2 ^ t.width, false⟩
          | none => ⟨r.idx - ch.k * ch.strip, t.lostBits, true⟩
        let (s, leaf) := hartTranslate s h ⟨true, false, true⟩ r.va.toNat
        let record := match leaf with
          | .ok (_, leaf) => leafRec leaf
          | .error _ => false
        if stripHeld s h ch r.idx record then holdStrip { s with outstanding := put s.outstanding id r } r.hart h
        else deliverElement s r.hart n h ch r.idx x record

/-- The byte that a host holds comes back to a store of 4 bits: it goes out again with the nibble in it, and the store completes when
that write does (R341). -/
def writeNibble (s : State) (id : Nat) (r : Remote) (high : Bool) (old : Nat) : State :=
  let v := (ofBytes r.data) % 16
  let d := toBytes 1 (if high then old % 16 + v * 16 else old / 16 % 16 * 16 + v)
  keepOut s id { r with data := d } 1 (sendWrite s (routeOf s r.pa) d none)

/-- The access stores a nibble to a host and has sent for the byte. -/
def Remote.asksByte (s : State) (r : Remote) : Bool := !r.load && r.high.isSome && r.step == 0 && (routeOf s r.pa).host

/-- A remote access of a hart ends, with data or, where it fails, with none; what waited for it goes out. -/
def remoteEnds (s : State) (id : Nat) (r : Remote) (data : Option Nat) : Option State :=
  match r.asksByte s, r.high, data with
  | true, some high, some old => some (writeNibble s id r high old)
  | _, _, _ =>
    let s := { s with outstanding := del s.outstanding id }
    let s := launchWaiting (if data.isNone then s.note (.remote id) else s)
    match s.hart? r.hart with
    | none => some s
    | some h =>
      let h := { h with wait := if h.wait = .remote then .none else h.wait }
      let s := s.setHart r.hart h
      if r.load then remoteLoaded s id r h data
      else if data.isNone then (endTask s h.task (.remote r.hart r.pc r.va)).orElse (fun _ => some s)
      else some s

/-- An access of the hub itself ends: the dispatcher has read a dependence counter, which meets the task's dependence when it reaches the
threshold, or a write of a completion record is done; one that fails is logged. DESIGN CHOICE (log 74): a counter that could not be read
does not meet it, and is read again. -/
def hubEnds (s : State) (id : Nat) (a : HubAccess) (data : Option Nat) : State :=
  let s := { s with hubOut := del s.hubOut id }
  let s := if data.isNone then s.note (if a.load then .remote id else .completion a.task) else s
  if a.load then
    match s.task? a.task, data with
    | some t, some v => if t.phase = .waiting ∧ t.srec.depthresh ≤ v then s.setTask a.task { t with depMet := true } else s
    | _, _ => s
  else s

/-- What answers a request for n bytes at an address of the remote window, once a host's payload is opened: a packet that is dropped leaves
the request outstanding, and one that is refused fails it (R342, R346). -/
def answered (s : State) (pa n v : Nat) (ends : State → Option Nat → Option State) : Option State :=
  match openAnswer s pa n v with
  | .ok s d => ends s (some (ofBytes d))
  | .refused => ends s none
  | .dropped s _ => some s

/-- `REMOTE_RESPONSE`: an answer with its payload as a number, an acknowledgement, or a refusal. Nothing answers an access that waits or that
could not be sent. -/
def execRemoteResponse (id : Nat) (data : Option Nat) (s : State) : Result :=
  let next := match find? s.outstanding id, find? s.hubOut id, data with
    | some r, _, some v =>
      if 2 ≤ r.step then none
      else if r.load || r.asksByte s then answered s r.pa r.data.length v (fun s d => remoteEnds s id r d) else remoteEnds s id r (some v)
    | some r, _, none => if r.step = 2 then none else remoteEnds s id r none
    | none, some a, some v =>
      if a.load then answered s a.pa a.data.length v (fun s d => some (hubEnds s id a d)) else some (hubEnds s id a (some v))
    | none, some a, none => some (hubEnds s id a none)
    | none, none, _ => none
  match next with
  | some s => .next s
  | none => cannot

/-- `REMOTE_TIMEOUT`: no response has come in time, or the access could not be sent. -/
def execRemoteTimeout (id : Nat) (s : State) : Result :=
  let next := match find? s.outstanding id, find? s.hubOut id with
    | some r, _ => if r.step = 2 then none else remoteEnds s id r none
    | none, some a => some (hubEnds s id a none)
    | none, none => none
  match next with
  | some s => .next s
  | none => cannot

/-- A write in flight goes out again on the port that its address now has. -/
def resend (s : State) (id : Nat) (r : Remote) : State :=
  let route := routeOf s r.pa
  keepOut s id { r with port := route.portKey } r.step (sendWrite s route r.data r.high)

/-- The same for a write of the hub itself. -/
def resendHub (s : State) (id : Nat) (a : HubAccess) : State :=
  let route := routeOf s a.pa
  match sendWrite s route a.data none with
  | some s => { s with hubOut := put s.hubOut id { a with port := route.portKey } }
  | none => hubEnds s id a none

/-- `SCALEUP_PORT_FAILURE`: the port leaves the hash, and the writes that were in flight on it are sent again on another. -/
def execScaleupPortFailure (port : Nat) (s : State) : Result :=
  if port < 16 ∧ hasBit s.ports port then
    let s := { s with ports := putBit s.ports port false }.note (.port port)
    let s := (s.outstanding.filter (fun e => !e.2.load && e.2.port == 4 + port && decide (e.2.step < 2))).foldl (fun s e => resend s e.1 e.2) s
    .next ((s.hubOut.filter (fun e => !e.2.load && e.2.port == 4 + port)).foldl (fun s e => resendHub s e.1 e.2) s)
  else cannot

/-- A byte of memory with one nibble of it replaced (R199). -/
def mergeNibble (s : State) (pa : Nat) (high : Bool) (b : Byte) : List Byte :=
  let old := (readByte s.mem pa).toNat
  toBytes 1 (if high then old % 16 + b.toNat % 16 * 16 else old / 16 * 16 + b.toNat % 16)

/-- `INCOMING_REMOTE_ACCESS`: another module reads n bytes, or writes them or one nibble; outside stacked DRAM and hub SRAM it is
refused. It allocates nothing in the line cache (R80). -/
def execIncomingRemoteAccess (pa n : Nat) (data : Option PeerWrite) (s : State) : Result :=
  let pas := span pa n
  if !pas.all inMemory ∨ data.any (fun d => d.bytes.length ≠ n || d.high.isSome && n != 1) then
    .next (s.reply (.remoteData (List.replicate n none)))
  else
    match data with
    | some d =>
      let s := baseAccess s pas .hub
      .next (writeBytes s 3 pa (match d.high with
        | some high => mergeNibble s pa high (d.bytes.getD 0 0)
        | none => d.bytes))
    | none =>
      let s := recordPieces (hubAccess s pas false) 3 (piecesOf pa n)
      .next (s.reply (.remoteData (pas.map (fun a => if badByte s a then none else some (readByte s.mem a)))))

/-! ## Refresh (R311 to R313) -/

/-- A hart stands in a column. -/
def occupied (s : State) (c : Nat) : Bool := s.harts.any (fun e => e.2.inPlace && e.2.columns.contains c)

/-- A column's `REFDEADLINE` becomes pending for its owner, when that is Resident, halted for pre-emption or not (R56, R291). -/
def raiseDeadline (s : State) (c : Nat) : State :=
  let s := s.modCol c (fun k => { k with refRaised := true })
  match (s.col c).owner with
  | some n => s.modHart n (fun h =>
    if h.inPlace && !h.pendRef.contains c then { h with pendRef := h.pendRef ++ [c] } else h)
  | none => s

/-- `REFRESH_INTERVAL`: one row-set is added to a column's account. -/
def execRefreshInterval (c : Nat) (s : State) : Result :=
  if 4096 ≤ c then cannot
  else
    let old := (s.col c).debt
    let s := s.modCol c (fun k => { k with debt := min 128 (k.debt + 1) })
    let s := if old = 63 ∧ !(s.col c).refRaised then raiseDeadline s c else s
    let r := rowSetOf none false (s.col c).cycles
    let s := if 127 ≤ old then ask (s.modCol c (fun k => { k with forced := k.forced + 1 })) c [r] else s
    .next (if !occupied s c ∧ 0 < (s.col c).debt then ask s c [r] else s)

end Sys2Proof.Machine
end

