-- ==== Sys2Proof/Machine/Lanes.lean ====
section
/-! DEFINITION. Machine/Lanes.lean: lane retirement, half-capable and failed columns, and row remapping (R308 to R310, R320). -/

namespace Sys2Proof.Machine

/-! ## A hart on fewer lanes (R309, R320) -/

/-- The entries of a map whose index lies in a window of the lanes, moved to the window's start; `unit` keys belong to one lane. -/
def keepLanes {α : Type} (unit lo n : Nat) (m : AMap α) : AMap α :=
  (m.filter (fun e => decide (lo ≤ e.1 / unit ∧ e.1 / unit < lo + n))).map (fun e => (e.1 - lo * unit, e.2))

/-- The state of lanes lo to lo + n - 1 of a hart, as its lanes 0 to n - 1. -/
def Hart.keepLaneState (h : Hart) (lo n : Nat) : Hart :=
  { h with
    scratch := keepLanes 2048 lo n h.scratch
    scratchAt := h.scratchAt + lo * 2048
    mat := keepLanes 144 lo n h.mat
    perm := keepLanes 4 lo n h.perm
    laneFlags := keepLanes 1 lo n h.laneFlags }

/-- Lane state that the spec leaves unspecified, for n lanes: free scratch, matrix entries, permutations and lane flags. -/
def freeLaneState (s : State) (h : Hart) (n : Nat) : State × Hart :=
  let f := s.free
  ({ s with free := f + 2 ^ 17 },
    { h with
      scratch := []
      scratchAt := f
      mat := (List.range (n * 144)).map (fun i => (i, (Config.freeWord (f + 32768 + i)).setWidth 32))
      perm := (List.range (n * 4)).map (fun i => (i, (List.range 6).map (fun j => (Config.freeWord (f + 65536 + 6 * i + j)).toNat % 6)))
      laneFlags := (List.range n).map (fun i => (i, (Config.freeWord (f + 98304 + i)).setWidth 3)) })

/-- What every hart that changes gives up: registers closed with their tags kept, `vl`, masks, generators, channels; `LANELOSS` is
pending. DESIGN CHOICE (log 73): the generators are seeded anew as the lanes change, and not only when the hart resumes. -/
def Hart.loseLanes (h : Hart) : Hart :=
  { h with
    v := h.v.map (fun e => (e.1, { e.2 with openWays := 0, words := [], invalid := 0 }))
    vl := 0, k := Vector.replicate 8 0, rnd := [], chans := [], pendLane := true }

/-- The tiles q from lo on of a wide hart, as tiles from 0 on; a hart whose partition is neither full nor wide holds none. -/
def Hart.keepTiles (h : Hart) (lo n : Nat) : Hart :=
  if n = 0 then h.releaseTile
  else { h with
    tileCells := keepLanes 32768 lo n h.tileCells
    tileScale := keepLanes 128 lo n h.tileScale
    tileBad := keepLanes 128 lo n h.tileBad
    tileParity := keepLanes 32768 lo n (h.tileParity.filter (fun e => decide (e.1 < 2 ^ 32))) ++
      (keepLanes 128 lo n ((h.tileParity.filter (fun e => decide (2 ^ 32 ≤ e.1))).map (fun e => (e.1 - 2 ^ 32, e.2)))).map
        (fun e => (e.1 + 2 ^ 32, e.2)) }

/-- Whether a hart can stand in another column of its group: a hart context, its TCM share, its kernel's code and its row window entries
find room there (R33, R70, R75). -/
def movable (s : State) (h : Hart) (t : Task) (c : Nat) : Bool :=
  !(freeCtxs s [] c).isEmpty &&
  decide (tcmUsed s c + t.hdr.tcmstack + (if hasCode s t c then 0 else t.hdr.codesize) ≤ 65536) &&
  (h.status == .saved || decide (rowsUsed s [] c + (rowEntries t c).length ≤ 1024))

/-- A hart stands in another column of its group, with its own hart context number where that is free there; its row window entries and
its kernel's code come into that column, the code read anew (R52), and the counts of the old column go home (R331). None: it cannot stand
there; a failed copy gives the cause and the address. -/
def moveHart (s : State) (n : Nat) (h : Hart) (c : Nat) : Option (State × Except (Nat × Cause) Hart) :=
  if c = h.column then some (s, .ok h)
  else match s.task? h.task with
    | none => none
    | some t =>
      if !movable s h t c then none
      else match fetchCode s t ⟨c, 0⟩ with
        | (s, .error e) => some (s, .error e)
        | (s, .ok code) =>
          let ctx := if (freeCtxs s [] c).contains h.ctx then h.ctx else (freeCtx s [] c).getD h.ctx
          let copy := if hasCode s t c then [] else [⟨t.root, t.srec.khdr, code, codePages s t.root t.srec.khdr code.length, code⟩]
          let rows := if h.status = .saved then [] else (rowEntries t c).map (fun e => (⟨n, e.vpage, e.leaf, false⟩ : RowEntry))
          let s := (freeRows (flushCounts s h.column) n h.column).modCol c (fun k => { k with codes := k.codes ++ copy, rowWin := k.rowWin ++ rows })
          let h' := { h with column := c, ctx := ctx }
          some (dropCode (s.setHart n h') h, .ok h')

/-- A hart that was not Saved becomes Saved: the counts of its column go home, a frame says so, and its row window entries are free
(R291, R329, R331). -/
def becomeSaved (s : State) (n : Nat) (h : Hart) : State × Hart :=
  if h.status = .saved then (s, h)
  else
    let s := flushCounts s h.column
    let f := writeFrame s h 6 h.pc 0
    (freeRows f.1 n h.column, { f.2 with status := .saved, saves := h.saves + 1 })

/-- The hart n of a column that has become half-capable, with half H left, as it stands afterwards (R309); none: its task ends. -/
def shrinkHart (s : State) (n : Nat) (h : Hart) (half : Nat) : Option State :=
  let s := dropOwner s n h
  let s := { s with outstanding := s.outstanding.filter (fun e => !(e.2.hart == n && e.2.chan.isSome)) }
  if h.cols = 1 then
    let h := h.loseLanes
    if h.lanes = 32 then
      some (s.setHart n ({ h.keepLaneState (16 * half) 16 with lanes := 16, cluster := 4 * half }.keepTiles 0 0))
    else
      let lanes := max 4 (h.lanes / 2)
      let r := freeLaneState s h lanes
      let b := becomeSaved r.1 n r.2
      some (b.1.setHart n { b.2 with lanes := lanes, cluster := 4 * half })
  else
    let m := h.cols / 2
    let whole (c : Nat) : Bool := (span c m).all (fun q => (s.col q).half.isNone && !(s.col q).failed)
    match [h.column, h.column + m].find? whole with
    | none => none
    | some c =>
      match moveHart s n h.loseLanes c with
      | none => none
      | some (s, .error e) => endTask s h.task (.codeCopy h.rank e.2 e.1)
      | some (s, .ok h') =>
        let lo := c - h.column
        some (s.setHart n { (h'.keepLaneState (32 * lo) (32 * m)).keepTiles lo m with cols := m, lanes := 32 * m })

/-- Ends a task with status `MCHECK`, when it has not ended. -/
def machineCheck (s : State) (t : Nat) : State := (endTask s t .mcheck).getD s

/-- A column fails: every task with a hart there ends with `MCHECK`. -/
def failColumn (s : State) (c : Nat) : State :=
  let s := s.modCol c (fun k => { k with failed := true })
  let there := s.harts.filter (fun e => (e.2.inPlace || e.2.status == .saved) && e.2.columns.contains c)
  (distinct (there.map (fun e => e.2.task))).foldl machineCheck s

/-- The usable half of a column with two failed clusters. -/
def usableHalf (a b : Nat) : Nat := if a / 4 = b / 4 then 1 - a / 4 else a / 4

/-- Every Resident hart of a column halts at an instruction boundary with the completions of R290. -/
def haltColumn (s : State) (c : Nat) (who : Hart → Bool) : State :=
  s.harts.foldl (fun s e => if e.2.status == .resident && e.2.columns.contains c && who e.2 then haltHart s e.1 else s) s

/-- Every Resident hart of a column can halt: what it has gone past has retired. -/
def columnQuiet (s : State) (c : Nat) : Bool :=
  s.harts.all (fun e => e.2.status != .resident || !e.2.columns.contains c || e.2.caughtUp)

/-- `LANE_RETIREMENT` of a cluster of column c: the first is replaced by the spare, the second leaves half a column, the third
fails it. -/
def execLaneRetirement (c cluster : Nat) (s : State) : Result :=
  let k := s.col c
  if 4096 ≤ c ∨ 8 ≤ cluster ∨ k.failed ∨ !columnQuiet s c then cannot
  else
    let s := (s.note (.cluster c cluster)).modCol c (fun k => { k with clusters := k.clusters ++ [cluster] })
    match k.clusters with
    | [] => .next (haltColumn s c (fun _ => true))
    | [a] =>
      let half := usableHalf a cluster
      let s := s.modCol c (fun k => { k with half := some half })
      let hit (h : Hart) : Bool := h.holds c (4 * (1 - half)) 4
      let s := haltColumn s c hit
      .next (s.harts.foldl (fun s e =>
        match s.hart? e.1 with
        | some h =>
          if (h.inPlace || h.status == .saved) && hit h then (shrinkHart s e.1 h half).getD (machineCheck s h.task) else s
        | none => s) s)
    | _ => .next (failColumn s c)

/-! ## Remap tables (R310) -/

/-- Entry n of a way by majority over the three copies, of which one that cannot be read agrees with none; none where no two agree. -/
def remapEntry (k : Column) (way n : Nat) : Option (BitVec 32) :=
  let e (i : Nat) : Option (BitVec 32) := look k.remap (remapKey i way n) (some 0)
  if e 0 = e 1 ∨ e 0 = e 2 then (e 0).orElse (fun _ => if e 1 = e 2 then e 1 else none) else if e 1 = e 2 then e 1 else none

/-- The entries of the copies that cannot be read, recorded: entry n of a way lies in rows 2108 to 2110 above lane n. DEDUCED (log 54): the
base layer's reading has SRC 3. -/
def recordCopies (k : Column) : Column :=
  (k.remap.filter (·.2.isNone)).foldl (fun k e => k.recordAt 3 (2108 + e.1 / 768) (e.1 % 768 / 12) (e.1 % 12)) k

/-- The base layer loads a column's table: each entry by majority, with outvoted copies rewritten; an entry without a majority fails the
column. An entry of a copy that cannot be read is an uncorrectable piece, and is recorded (R305). -/
def loadTable (s : State) (c : Nat) : State :=
  let s := s.modCol c recordCopies
  let k := s.col c
  let entries := (distinct (k.remap.map (·.1 % 768))).map (fun e => (e, remapEntry k (e / 12) (e % 12)))
  if entries.any (·.2.isNone) then failColumn s c
  else
    s.modCol c (fun k => { k with
      table := putAll k.table (entries.map (fun e => (e.1, e.2.getD 0)))
      remap := entries.foldl (fun m e => (List.range 3).foldl (fun m i => put m (i * 768 + e.1) (some (e.2.getD 0))) m) k.remap })

/-- The pieces of a way-row. -/
def rowPieces (c way row : Nat) : List Nat :=
  (List.range 32).map (fun l => rowAddress row c (way / 8) (way % 8) (4 * l))

/-- The rows of the three copies of a column's table in some ways, which the base layer activates (R310, R315). -/
def askCopies (s : State) (c : Nat) (ways : List Nat) : State :=
  ask s c (ways.flatMap (fun w => (List.range 3).map (fun i => requestOf .hub w (2108 + i) 8 (s.col c).cycles)))

/-- `REMAP_UPDATE`: the steward reads a row and copies it into spare row 2096 + n of its way, with the poison syndrome for what cannot be
read, and writes the entry into the boot flash and then into the three copies, which the base layer loads. A cell fault of the
replaced row is met no more (R364). The copies are written in the way, and read in every way. -/
def execRemapUpdate (c way spare row : Nat) (s : State) : Result :=
  let e : BitVec 32 := BitVec.ofNat 32 (2 ^ 31 + row)
  if 4096 ≤ c ∨ 64 ≤ way ∨ 12 ≤ spare ∨ 2048 ≤ row then cannot
  else
    let pieces := rowPieces c way row
    let lost := pieces.filter (fun p => find? s.marks p == some .uncorrectable)
    let s := recordPieces (baseAccess s (pieces.take 1) .hub) 3 pieces
    let s := { s with flashRemap := put s.flashRemap (c * 768 + way * 12 + spare) e }
    let s := (s.note (.remap c)).modCol c (fun k => { k with
      remap := (List.range 3).foldl (fun m i => put m (remapKey i way spare) (some e)) k.remap })
    let s := loadTable (askCopies (askCopies s c [way]) c (List.range 64)) c
    .next (lost.foldl poisonPiece (baseAccess s (pieces.take 1) .hub))

/-! ## What befalls the hardware (R232, R304 to R306, R310, R364) -/

/-- A hart, and its result that stands apart, change alike. -/
def changeHart (s : State) (n : Nat) (f : Hart → Hart) : State :=
  let s := s.modHart n f
  match find? s.shadows n with
  | some r => { s with shadows := put s.shadows n (f r) }
  | none => s

/-- Something befalls the hardware. A single-bit error is corrected and counted in the steward's log; the rest is met later, by whatever
reads it. -/
def befall (s : State) : Upset → State
  | .corrected pa => if inMemory pa then s.note (.corrected (pieceOf pa)) else s
  | .piece pa lasting =>
    if inMemory pa then
      { s with
        marks := put s.marks (pieceOf pa) .uncorrectable
        faults := if lasting then put s.faults (pieceKey s (pieceOf pa)) () else s.faults }
    else s
  | .context n bad => s.modHart n (fun h => if h.status = .saved ∧ bad.column < h.cols then { h with badContext := h.badContext ++ [bad] } else h)
  | .parity n key => changeHart s n (fun h => if h.tileHeld then { h with tileParity := put h.tileParity key () } else h)
  | .residue n lane => changeHart s n (fun h => if lane < h.lanes then { h with residue := some lane } else h)
  | .remapCopy c way copy n bits =>
    if c < 4096 ∧ way < 64 ∧ copy < 3 ∧ n < 12 then
      s.modCol c (fun k => { k with remap := put k.remap (remapKey copy way n) bits })
    else s
  | .defect d => { s with defects := s.defects ++ [d] }

end Sys2Proof.Machine
end

