-- ==== Sys2Proof/Machine/Platform.lean ====
section
/-! DEFINITION. Machine/Platform.lean: power, clocks, monitors, bring-up and the boot flash (R10, R27, R317, R344, R357 to R363). -/

namespace Sys2Proof.Machine

/-! ## Clock ratio (R27, R317) -/

/-- A row-set or a `REFN` is in progress in a column. -/
def refreshing (k : Column) : Bool := decide (k.cycles < k.refBusy) || k.ways.any (fun e => decide (k.cycles < e.2.refnEnd))

/-- n lane cycles pass in every column of a stack, which grants nothing. -/
def passStack (s : State) (stack n : Nat) : State := (span (stack * 256) 256).foldl (fun s c => pass s c n) s

/-- `ARRAY_RATIO_CHANGE`: a stall of at most 1 µs, 800 lane cycles, in which requests are held. The scoreboard's counts are in lane cycles and
stay. -/
def execArrayRatioChange (stack : Nat) (ratio : ArrayRatio) (s : State) : Result :=
  if 16 ≤ stack ∨ s.columns.any (fun e => e.1 / 256 == stack && refreshing e.2) then cannot
  else
    let n := Config.stallCycles s.free % 801
    .next ((passStack { s with free := s.free + 1 } stack n).modStk stack (fun k => { k with ratio := ratio }))

/-! ## Budgets, windows and duty (R357 to R361) -/

/-- Window and duty of a column: what the arbiter gives the stack's columns, the duty lower where the monitors ask for it (R358, R361); what
else holds of the window follows at each activation (`State.winNow`). The duty holds for harts of other classes than 0, in every column. -/
def columnLimits (s : State) (c : Nat) : Nat × Nat :=
  let k := s.stk (c / 256)
  let zero := classZero s c
  let low := if k.lowRows.contains (c % 256 / 16) then 8 else 16
  let hot := if k.thermal && !zero then 4 else 16
  (k.askWin, min k.askDuty (min low hot))

/-- Gives every column of a stack its window and duty, and the stack's power block what it then shows (R360). -/
def applyLimits (s : State) (stack : Nat) : State :=
  let cols := span (stack * 256) 256
  let limits := cols.map (fun c => (c, columnLimits s c))
  let s' := limits.foldl (fun s e => s.modCol e.1 (fun k => { k with winLen := e.2.1, duty := e.2.2 })) s
  s'.modStk stack (fun k => { k with dutyLow := (limits.map (·.2.2)).foldl min 16 - 1 })

/-- What the arbiter estimates that a stack's columns without a class-0 hart would take at a window of 24 and full duty, in mW: for activation
and for lanes. The figures are free, up to what so many columns can take (log 35). -/
structure Demand where
  act   : Nat
  lanes : Nat
  deriving DecidableEq, Repr

/-- Columns of a stack in which no class-0 hart is in place. -/
def openCols (s : State) (stack : Nat) : Nat := 256 - (reservedCols s [] stack).length

/-- The reserves that a stack's class-0 columns hold, in mW (R359). -/
def reserves (s : State) (stack : Nat) : Nat := (reservedCols s [] stack).length * reserveOf s stack

def estimate (s : State) (stack : Nat) : Demand :=
  let n := openCols s stack
  ⟨Config.demand (s.free + 2 * stack) % (n * windowPower 24 + 1), Config.demand (s.free + 2 * stack + 1) % (n * lanePower + 1)⟩

/-- What a stack's estimate comes to as a whole, in mW. -/
def demandOf (s : State) (stack : Nat) (d : Demand) : Nat := leakage + reserves s stack + d.act + d.lanes

/-- The shares of a pool in proportion to demands, of which none is less than the leakage: those that would be get the leakage, and the rest
of the pool is shared among the others; n rounds settle it (R357). -/
def shares (pool : Nat) (demands : List Nat) : Nat → List Bool → List Nat
  | 0, floor => floor.map (fun _ => leakage)
  | n + 1, floor =>
    let l := demands.zip floor
    let sum := ((l.filter (!·.2)).map (·.1)).sum
    let rest := pool - leakage * (floor.filter id).length
    let share := l.map (fun e => if e.2 then leakage else rest * e.1 / sum)
    let floor' := share.map (fun v => decide (v ≤ leakage))
    if floor' = floor ∨ share.all (fun v => decide (leakage ≤ v)) then share else shares pool demands n floor'

/-- The budgets of the 16 stacks in mW: their shares of the pool, each at most the stack's own cap, and at least its leakage (R357, R360). -/
def budgets (s : State) (demands : List Nat) : List Nat :=
  (shares ((s.modcap - 450) * 1000) demands 16 (demands.map (fun _ => false))).zipIdx.map (fun e =>
    let cap := (s.stk e.2).cap * 1000
    if cap = 0 then e.1 else max leakage (min e.1 cap))

/-- What a demand takes at a window of L and a duty of D, in mW. -/
def Demand.power (d : Demand) (l duty : Nat) : Nat := ceilDiv (d.act * 24) l + ceilDiv (d.lanes * duty) 16

/-- The window and the duty that keep a demand within what is left of a budget: the shortest window, else the longest with the highest
duty (R358). -/
def Demand.limits (d : Demand) (rest maxWin : Nat) : Nat × Nat :=
  match (span 24 (maxWin - 23)).find? (fun l => decide (d.power l 16 ≤ rest)) with
  | some l => (l, 16)
  | none => (maxWin, (((List.range 13).map (16 - ·)).find? (fun n => decide (d.power maxWin n ≤ rest))).getD 4)

/-- A stack gets its budget: the reserves of its class-0 columns are met first, and window and duty of the others follow from what is left
(R357 to R360). -/
def giveBudget (s : State) (stack : Nat) (d : Demand) (budget : Nat) : State :=
  let held := leakage + reserves s stack
  let l := d.limits (budget - held) (s.stk stack).maxWin
  applyLimits (s.modStk stack (fun k => { k with
    budget := budget, pest := held + d.power l.1 l.2, askWin := l.1, askDuty := l.2 })) stack

/-- The weight of a hart in the energy of its stack. -/
def Hart.weight (h : Hart) : Nat := max h.lanes 1

/-- What a partition's harts take of the energy of the 10 µs that begin, in units of 10 nJ: each stack's estimate by weight, with an error of
at most 5% (R360). How an estimate is divided among partitions is a DESIGN CHOICE (log 35). -/
def energyOf (s : State) (part error : Nat) : Nat :=
  ((List.range 16).map (fun n =>
    let here := (inPlaceHarts s []).filter (fun e => e.2.stack == n)
    let all := (here.map (fun e => e.2.weight)).sum
    let own := ((here.filter (fun e => s.partOf e.2 == part)).map (fun e => e.2.weight)).sum
    if all = 0 then 0 else (s.stk n).pest * own * (95 + error % 11) / (all * 100))).sum

/-- `BUDGET_RECOMPUTE`: every stack gets a new budget from what the arbiter estimates, with the window and the duty that follow, and the
partitions' energy totals go on. -/
def execBudgetRecompute (s : State) : Result :=
  let ds := (List.range 16).map (estimate s)
  let all := budgets s (ds.zipIdx.map (fun e => demandOf s e.2 e.1))
  let s := (ds.zip all).zipIdx.foldl (fun s e => giveBudget s e.2 e.1.1 e.1.2) { s with free := s.free + 32 }
  .next { s with
    free := s.free + s.partitions.length
    partitions := s.partitions.zipIdx.map (fun e =>
      (e.1.1, { e.1.2 with energy := e.1.2.energy + energyOf s e.1.1 (Config.pick (s.free + e.2)) })) }

/-- What a power loss leaves (R10): the boot flash, and what fails for good: cells, and lane clusters, which the next self-test meets. -/
def powerLost (s : State) : State :=
  { State.reset with
    powered := false, stage := 0, images := s.images, flashRemap := s.flashRemap, moduleNum := s.moduleNum, identity := {}
    defects := s.defects ++ s.columns.flatMap (fun e => e.2.clusters.map (Defect.cluster e.1))
    faults := s.faults, upsets := s.upsets, replies := s.replies, agenda := s.agenda, turn := s.turn, free := s.free }

def execPowerRemoval (s : State) : Result := if s.powered then .next (powerLost s) else cannot

/-- The readings of a stack's layers: the eight array layers, then the base layer and the compute layer. -/
def readLayers (k : Stack) (temps : List Nat) : Stack :=
  let top := temps.foldl max 0
  { k with
    temps := temps
    tmax := top % 256
    hot := (temps.take 8).any (fun t => decide (85 < t))
    thermal := decide (95 ≤ top) || (k.thermal && decide (90 ≤ top)) }

/-- `MONITOR_READING`: temperatures of the layers, by stack, and grid rows whose supply reads low or sound again. -/
def execMonitorReading (temps : List (List Nat)) (lowRows okRows : List (Nat × Nat)) (s : State) : Result :=
  if temps.any (·.any (fun t => decide (105 ≤ t))) then (if s.powered then .next (powerLost s) else cannot)
  else
    .next ((List.range 16).foldl (fun s n =>
      let rows (l : List (Nat × Nat)) : List Nat := (l.filter (·.1 == n)).map (·.2)
      let s := s.modStk n (fun k =>
        let k := match temps[n]? with
          | some l => readLayers k l
          | none => k
        { k with lowRows := (distinct (k.lowRows ++ rows lowRows)).filter (fun r => !(rows okRows).contains r) })
      applyLimits s n) s)

/-- `MODCAP_WRITE` by the steward. -/
def execModcapWrite (v : BitVec 16) (s : State) : Result := .next { s with modcap := clampCap v.toNat }

/-! ## Bring-up (R344, R362, R363) -/

/-- The signature check of an image against the key whose digest is fused. -/
def imageGood (i : Image) : Bool :=
  Config.shake256 i.key Config.fusedDigest.length == Config.fusedDigest && Config.mlDsaVerify i.key i.bytes i.sig

/-- The measurement of an image. -/
def extend (m : List Byte) (i : Image) : List Byte := Config.shake256 (m ++ Config.shake256 i.bytes 64) 64

/-- The image that a stage loads is verified (R344); later stages load none. -/
def imageOk (s : State) (n : Nat) : Bool := 3 < n || (s.images[n - 1]?).any imageGood

/-- Stages 1 to 3 measure their image. -/
def measure (s : State) (n : Nat) : State :=
  match s.images[n - 1]? with
  | some i => { s with measured := s.measured.setIfInBounds (n - 1) (extend (s.measured.getD (n - 1) []) i) }
  | none => s

/-- Stage 4: columns whose memory does not train are failed. -/
def trainMemory (s : State) : State :=
  s.defects.foldl (fun s d => match d with
    | .training c => s.modCol c (fun k => { k with failed := true })
    | _ => s) s

/-- Stage 5: the columns' tables as they are written from the boot flash, three copies, and as they then stand, which the base layer loads by
vote (R310). -/
def loadRemap (s : State) : State :=
  let s := s.flashRemap.foldl (fun s e => s.modCol (e.1 / 768) (fun k => { k with
    remap := (List.range 3).foldl (fun m i => put m (i * 768 + e.1 % 768) (some e.2)) k.remap })) s
  let s := s.defects.foldl (fun s d => match d with
    | .copy c way copy n bits => s.modCol c (fun k => { k with remap := put k.remap (remapKey copy way n) bits })
    | _ => s) s
  (s.columns.map (·.1)).foldl loadTable s

/-- Stage 6: clusters that fail the self-test are retired, each once (R308, R309). -/
def testLanes (s : State) : State :=
  s.defects.foldl (fun s d => match d with
    | .cluster c n => if (s.col c).clusters.contains n then s else match execLaneRetirement c n s with
      | .next s => s
      | _ => s
    | _ => s) s

/-- The piece that a physical place holds, where an address reaches it. -/
def pieceAt (s : State) (key : Nat) : Option Nat :=
  if 2 ^ 50 ≤ key then some (key - 2 ^ 50)
  else
    let row := (s.col (columnOf key)).addressedRow (layerOf key * 8 + wayOf key) (key / 2 ^ 28)
    if row < 2048 then some (rowAddress row (columnOf key) (layerOf key) (wayOf key) (key % 1024)) else none

/-- Cells that fail for good still fail after a power cycle (R364). -/
def meetFaults (s : State) : State :=
  { s with marks := s.faults.foldl (fun m e => match pieceAt s e.1 with
      | some p => put m p .uncorrectable
      | none => m) s.marks }

/-- The process monitors are read, one value for each stack; only the steward sees it (R361). -/
def readRings (s : State) : State :=
  { (List.range 16).foldl (fun s n => s.modStk n (fun k => { k with rings := [(Config.freeWord (s.free + n)).toNat] })) s with
    free := s.free + 16 }

/-- What a stage of bring-up does (R362). Memory is zero and DEBT is 0 from the power loss. -/
def doStage (s : State) (n : Nat) : State :=
  match n with
  | 1 | 2 | 3 => measure s n
  | 4 => trainMemory (readRings s)
  | 5 => loadRemap s
  | 6 => testLanes s
  | 7 => meetFaults s
  | _ => { s with identity := deviceIdentity, moduleNum := Config.moduleNumber % 18 }

/-- Stages in order; one that fails, because its image does or by a defect of the hardware, ends bring-up with the pins at it. A defect is met
once, but for those of lane clusters. -/
def bringUp : List Nat → State → State
  | [], s => { s with stage := 15, defects := s.defects.filter (fun d => match d with
      | .cluster .. => true
      | _ => false) }
  | n :: l, s =>
    if !imageOk s n then { s with stage := n }
    else if s.defects.contains (.stage n) then
      { (if n ≤ 3 then measure s n else s) with stage := n, defects := s.defects.filter (· != .stage n) }
    else bringUp l (doStage s n)

/-- `POWER_ON`: stages 1 to 8 in order, or the stage at which bring-up stops, with the status pins at it. -/
def execPowerOn (s : State) : Result :=
  if s.powered then cannot else .next (bringUp (span 1 8) { powerLost s with powered := true })

end Sys2Proof.Machine
end

