-- ==== Sys2Proof/Machine/HostPath.lean ====
section
/-! DEFINITION. Machine/HostPath.lean: what hosts and the steward do over the host ports and the hub registers (R6, R276, R337 to
R340, R345 to R347). -/

namespace Sys2Proof.Machine

/-! ## Shared checks (R338, R346) -/

/-- The host ports are up (R362). -/
def portsUp (s : State) : Bool := s.powered && s.stage == 15

/-- A remote-operation NAK for an access that a region does not allow: logged, and nothing changes. -/
def refuse (s : State) (qp : HostQp) : Result := .next ((s.note (.nak qp.port qp.qpn)).reply (.nak qp))

/-- The physical addresses of n bytes of a region from va, each with whether its page is UC, when the region allows the access and every
byte lies in it and translates. -/
def regionPlaces (s : State) (r : MemRegion) (w : Want) (va n : Nat) : State × Option (List (Nat × Bool)) :=
  if (w.rd && !r.rd) || (w.wr && !r.wr) || decide (va < r.base ∨ r.base + r.size < va + n) then (s, none)
  else match hubPlaces s r.root r.part w va n with
    | (s, l, none) => (s, some (l.map (fun e => (e.1, leafUc e.2))))
    | (s, _, some _) => (s, none)

/-- A host operation on a region: the ports are up, the queue pair is not in the error state, the region's key is known, and its partition's
traffic is not refused. -/
def hostOp (s : State) (qp : HostQp) (rkey : Nat) (k : MemRegion → Result) : Result :=
  if !portsUp s ∨ 4 ≤ qp.port then cannot
  else if s.qpErrors.contains qp then .next (s.reply (.dropped qp))
  else match s.regions.find? (fun r => r.rkey == rkey) with
    | none => refuse s qp
    | some r => if keysReady s r.part qp.port qp.qpn then k r else refuse s qp

/-- All of some addresses lie in the hub register region. -/
def allRegs (pas : List Nat) : Bool := pas.all (fun a => regionOf a == .regs)

/-! ## Operations (R337 to R339) -/

/-- A write of bytes at their physical addresses; none where the access is not one of memory or of one register word, or where a region of
queues does not allow it: it holds descriptors alone, of which claim and doorbell may be written (R338). -/
def hostStore (s : State) (queues : Bool) (pas : List Nat) (data : List Byte) : Option State :=
  if !queues && pas.all inMemory then some (writeAll (baseAccess s pas .hub) 3 (pas.zip data) false)
  else
    let a := pas.headD 0
    if !allRegs pas ∨ (queues ∧ !(a < 0x8010100000 ∧ a % 64 = 40 ∧ pas.length = 8)) then none
    else if pas.length = 8 then some (hubWrite s .host a (BitVec.ofNat 64 (ofBytes data)))
    else some (s.note (.write a))

/-- A write of a region's bytes from va; none where the region does not allow it. -/
def regionWrite (s : State) (r : MemRegion) (va : Nat) (data : List Byte) : State × Option State :=
  match regionPlaces s r ⟨false, true, false⟩ va data.length with
  | (s, none) => (s, none)
  | (s, some pas) => (s, hostStore s r.queues (pas.map (·.1)) data)

def execRdmaWrite (qp : HostQp) (rkey va : Nat) (data : List Byte) (s : State) : Result :=
  hostOp s qp rkey fun r =>
    match openIn s r.part qp (headersOf .hostWrite qp.qpn r.rkey va data.length) data with
    | .refused => refuse s qp
    | .dropped s before =>
      .next ((if before.isEmpty then s else ((regionWrite s r va before).2).getD s).reply (.dropped qp))
    | .ok s data =>
      match regionWrite s r va data with
      | (_, some s) => .next (s.reply (.ack qp))
      | (s, none) => refuse s qp

/-- Bytes as a host reads them; what a bad piece gives is free. -/
def hostBytes (s : State) (pas : List Nat) : List Byte :=
  pas.zipIdx.map (fun e => if inMemory e.1 && badByte s e.1 then Config.freeByte (s.free + e.2) else loadByte s e.1)

/-- The bytes of an RDMA READ go back to the host. -/
def answer (s : State) (r : MemRegion) (qp : HostQp) (va : Nat) (bytes : List Byte) : Result :=
  match sealOut s r.part qp.port qp.qpn (headersOf .readAnswer qp.qpn r.rkey va bytes.length) bytes with
  | (s, some d) => .next (s.reply (.data qp d))
  | (s, none) => refuse s qp

def execRdmaRead (qp : HostQp) (rkey va n : Nat) (s : State) : Result :=
  hostOp s qp rkey fun r =>
    match regionPlaces s r ⟨true, false, false⟩ va n with
    | (s, none) => refuse s qp
    | (s, some places) =>
      let pas := places.map (·.1)
      if !(allRegs pas || (!r.queues && pas.all inMemory)) then refuse s qp
      else
        let s := recordPieces (hubReads s places) 3 (distinct (pas.map pieceOf))
        answer { s with free := s.free + n } r qp va (hostBytes s pas)

/-- The place of an 8-byte atomic. -/
def atomicPlaces (s : State) (r : MemRegion) (va : Nat) : State × Option (List Nat) :=
  if va % 8 ≠ 0 then (s, none)
  else match regionPlaces s r ⟨true, true, false⟩ va 8 with
    | (s, l) => (s, l.map (·.map (·.1)))

/-- The value that an atomic gives back, in an `AtomicAckETH`, which is no payload. An uncorrectable piece is recorded here, once for the
operation (R305). -/
def atomicReply (s : State) (qp : HostQp) (pas : List Nat) : State × List Byte :=
  ((recordPieces (baseAccess s pas .hub) 3 (distinct (pas.map pieceOf))).reply (.data qp (hostBytes s pas)), hostBytes s pas)

def execFetchAndAdd (qp : HostQp) (rkey va : Nat) (v : Word) (s : State) : Result :=
  hostOp s qp rkey fun r =>
    match atomicPlaces s r va with
    | (s, none) => refuse s qp
    | (s, some pas) =>
      let a := pas.headD 0
      if r.queues ∧ !(allRegs pas ∧ a < 0x8010100000 ∧ a % 64 = 32) then refuse s qp
      else if allRegs pas then .next (hubFetchAdd (atomicReply s qp pas).1 a v)
      else if !pas.all inMemory then refuse s qp
      else
        let (s', old) := atomicReply s qp pas
        .next (writePieces { s' with free := s'.free + 8 } (pas.zip (toBytes 8 ((ofBytes old + v.toNat) % 2 ^ 64))) false)

def execCmpAndSwap (qp : HostQp) (rkey va : Nat) (cmp swap : Word) (s : State) : Result :=
  hostOp s qp rkey fun r =>
    match atomicPlaces s r va with
    | (s, none) => refuse s qp
    | (s, some pas) =>
      if r.queues then refuse s qp
      else if allRegs pas then .next ((atomicReply s qp pas).1.note (.write (pas.headD 0)))
      else if !pas.all inMemory then refuse s qp
      else
        let (s', old) := atomicReply s qp pas
        let s' := { s' with free := s'.free + 8 }
        .next (if ofBytes old = cmp.toNat then writePieces s' (pas.zip (toBytes 8 swap.toNat)) false else s')

/-- `UNSUPPORTED_OPERATION`: a remote-operation NAK, and nothing changes. DEDUCED (log 59): a queue pair in the error state answers none. -/
def execUnsupportedOperation (qp : HostQp) (_opcode : Nat) (s : State) : Result :=
  if !portsUp s ∨ 4 ≤ qp.port then cannot else .next (s.reply (if s.qpErrors.contains qp then .dropped qp else .nak qp))

/-! ## The management queue pair (R345, R346) -/

/-- Bytes 0x0000 to 0x06CF of an attestation report. -/
def reportBody (s : State) (nonce : List Byte) (part : Nat) : List Byte :=
  let p := look s.partitions part {}
  toBytes 4 1 ++ toBytes 4 part ++ toBytes 4 (partitionState s part) ++ toBytes 4 p.conf.toNat ++ nonce ++
    s.measured.toList.flatten ++ (if p.conf then p.ek else List.replicate 1184 0)

/-- `ATTESTATION_REQUEST`: the report goes back with its signature. -/
def execAttestationRequest (port : Nat) (nonce : List Byte) (part : Nat) (s : State) : Result :=
  if !portsUp s ∨ 4 ≤ port ∨ nonce.length ≠ 32 ∨ 2 ^ 32 ≤ part then cannot
  else
    let b := reportBody s nonce part
    .next (s.reply (.report port (b ++ Config.mlDsaSign s.identity.sec b)))

/-- A key derived from the shared secret (R346). -/
def deriveKey (label : List Byte) (ss : List Byte) (part : Nat) : List Byte := Config.shake256 (label ++ ss ++ toBytes 4 part) 32

/-- "WG-H2D", "WG-D2H" and "WG-SEAL". -/
def labelH2d : List Byte := [0x57, 0x47, 0x2D, 0x48, 0x32, 0x44]
def labelD2h : List Byte := [0x57, 0x47, 0x2D, 0x44, 0x32, 0x48]
def labelSeal : List Byte := [0x57, 0x47, 0x2D, 0x53, 0x45, 0x41, 0x4C]

/-- `KEY_ENCAPSULATION`: the tenant's ciphertext gives the partition its keys, from the next packet counters on. -/
def execKeyEncapsulation (port part : Nat) (ct : List Byte) (s : State) : Result :=
  if !portsUp s ∨ 4 ≤ port then cannot
  else match find? s.partitions part with
    | none => refuse s ⟨port, 1⟩
    | some p =>
      if !p.conf ∨ ct.length ≠ 1088 then refuse s ⟨port, 1⟩
      else
        let ss := Config.mlKemDecaps p.dk ct
        .next { s with partitions := put s.partitions part { p with
          h2d := deriveKey labelH2d ss part, d2h := deriveKey labelD2h ss part, sealSecret := deriveKey labelSeal ss part
          keyed := true, rxFrom := p.rx, txFrom := p.tx } }

/-- `PARTITION_CREATION` by the steward, with the memory regions that it registers; a confidential one gets its key pair. -/
def execPartitionCreation (part : Nat) (confidential : Bool) (regions : List MemRegion) (s : State) : Result :=
  if 2 ^ 32 ≤ part ∨ (find? s.partitions part).isSome then cannot
  else
    let keys := if confidential then Config.mlKemKeys (Config.random s.free) else ([], [])
    .next { s with
      free := s.free + 1
      partitions := put s.partitions part { conf := confidential, ek := keys.1, dk := keys.2 }
      regions := s.regions ++ regions.map (fun r => { r with part := part }) }

/-! ## Registers (R6, R276, R341, R360) -/

/-- `REGISTER_WRITE` of a 64-bit word of the hub register region. -/
def execRegisterWrite (who : Agent) (addr : Nat) (v : Word) (s : State) : Result :=
  if regionOf addr = .regs then .next (hubWrite s who addr v) else cannot

end Sys2Proof.Machine
end

