-- ==== Sys2Proof/Machine/Dispatch.lean ====
section
/-! DEFINITION. Machine/Dispatch.lean: one arm for each constructor of `Instr`. -/

namespace Sys2Proof.Machine

def exec (i : Instr) (s : State) : Host.Outcome State Fault Refusal :=
  match i with
  | .add d a b => Sys2Proof.Machine.execAdd d a b s
  | .sub d a b => Sys2Proof.Machine.execSub d a b s
  | .mul d a b => Sys2Proof.Machine.execMul d a b s
  | .mulh d a b => Sys2Proof.Machine.execMulh d a b s
  | .mulhu d a b => Sys2Proof.Machine.execMulhu d a b s
  | .div d a b => Sys2Proof.Machine.execDiv d a b s
  | .divu d a b => Sys2Proof.Machine.execDivu d a b s
  | .rem d a b => Sys2Proof.Machine.execRem d a b s
  | .remu d a b => Sys2Proof.Machine.execRemu d a b s
  | .and d a b => Sys2Proof.Machine.execAnd d a b s
  | .or d a b => Sys2Proof.Machine.execOr d a b s
  | .xor d a b => Sys2Proof.Machine.execXor d a b s
  | .shl d a b => Sys2Proof.Machine.execShl d a b s
  | .shr d a b => Sys2Proof.Machine.execShr d a b s
  | .sra d a b => Sys2Proof.Machine.execSra d a b s
  | .min d a b => Sys2Proof.Machine.execMin d a b s
  | .max d a b => Sys2Proof.Machine.execMax d a b s
  | .minu d a b => Sys2Proof.Machine.execMinu d a b s
  | .maxu d a b => Sys2Proof.Machine.execMaxu d a b s
  | .clz d a => Sys2Proof.Machine.execClz d a s
  | .ctz d a => Sys2Proof.Machine.execCtz d a s
  | .popc d a => Sys2Proof.Machine.execPopc d a s
  | .sel d a b p => Sys2Proof.Machine.execSel d a b p s
  | .addi d a imm => Sys2Proof.Machine.execAddi d a imm s
  | .andi d a imm => Sys2Proof.Machine.execAndi d a imm s
  | .ori d a imm => Sys2Proof.Machine.execOri d a imm s
  | .xori d a imm => Sys2Proof.Machine.execXori d a imm s
  | .shli d a s_ => Sys2Proof.Machine.execShli d a s_ s
  | .shri d a s_ => Sys2Proof.Machine.execShri d a s_ s
  | .srai d a s_ => Sys2Proof.Machine.execSrai d a s_ s
  | .lui d imm => Sys2Proof.Machine.execLui d imm s
  | .addpc d imm => Sys2Proof.Machine.execAddpc d imm s
  | .fadd d a b t => Sys2Proof.Machine.execFadd d a b t s
  | .fsub d a b t => Sys2Proof.Machine.execFsub d a b t s
  | .fmul d a b t => Sys2Proof.Machine.execFmul d a b t s
  | .fma d a b t => Sys2Proof.Machine.execFma d a b t s
  | .fmin d a b t => Sys2Proof.Machine.execFmin d a b t s
  | .fmax d a b t => Sys2Proof.Machine.execFmax d a b t s
  | .fcmp p a b c t => Sys2Proof.Machine.execFcmp p a b c t s
  | .fcvt d a u t => Sys2Proof.Machine.execFcvt d a u t s
  | .cmp p a b c => Sys2Proof.Machine.execCmp p a b c s
  | .pand d a b => Sys2Proof.Machine.execPand d a b s
  | .por d a b => Sys2Proof.Machine.execPor d a b s
  | .pxor d a b => Sys2Proof.Machine.execPxor d a b s
  | .pnot d a => Sys2Proof.Machine.execPnot d a s
  | .cmpi p a c imm => Sys2Proof.Machine.execCmpi p a c imm s
  | .bp p neg off => Sys2Proof.Machine.execBp p neg off s
  | .jal d imm => Sys2Proof.Machine.execJal d imm s
  | .jalr d a imm => Sys2Proof.Machine.execJalr d a imm s
  | .loop a imm => Sys2Proof.Machine.execLoop a imm s
  | .ldb d a imm => Sys2Proof.Machine.execLdb d a imm s
  | .ldbu d a imm => Sys2Proof.Machine.execLdbu d a imm s
  | .ldh d a imm => Sys2Proof.Machine.execLdh d a imm s
  | .ldhu d a imm => Sys2Proof.Machine.execLdhu d a imm s
  | .ldw d a imm => Sys2Proof.Machine.execLdw d a imm s
  | .ldwu d a imm => Sys2Proof.Machine.execLdwu d a imm s
  | .ldd d a imm => Sys2Proof.Machine.execLdd d a imm s
  | .stb s_ a imm => Sys2Proof.Machine.execStb s_ a imm s
  | .sth s_ a imm => Sys2Proof.Machine.execSth s_ a imm s
  | .stw s_ a imm => Sys2Proof.Machine.execStw s_ a imm s
  | .std s_ a imm => Sys2Proof.Machine.execStd s_ a imm s
  | .amoadd d a b s_ ord dw => Sys2Proof.Machine.execAmoadd d a b s_ ord dw s
  | .amoand d a b s_ ord dw => Sys2Proof.Machine.execAmoand d a b s_ ord dw s
  | .amoor d a b s_ ord dw => Sys2Proof.Machine.execAmoor d a b s_ ord dw s
  | .amoxor d a b s_ ord dw => Sys2Proof.Machine.execAmoxor d a b s_ ord dw s
  | .amomin d a b s_ ord dw => Sys2Proof.Machine.execAmomin d a b s_ ord dw s
  | .amomax d a b s_ ord dw => Sys2Proof.Machine.execAmomax d a b s_ ord dw s
  | .amominu d a b s_ ord dw => Sys2Proof.Machine.execAmominu d a b s_ ord dw s
  | .amomaxu d a b s_ ord dw => Sys2Proof.Machine.execAmomaxu d a b s_ ord dw s
  | .amoswap d a b s_ ord dw => Sys2Proof.Machine.execAmoswap d a b s_ ord dw s
  | .amocas d a b s_ ord dw => Sys2Proof.Machine.execAmocas d a b s_ ord dw s
  | .fence s_ ord => Sys2Proof.Machine.execFence s_ ord s
  | .nop => Sys2Proof.Machine.execNop s
  | .srd d r => Sys2Proof.Machine.execSrd d r s
  | .swr a r => Sys2Proof.Machine.execSwr a r s
  | .fpmodeWrite h v => Sys2Proof.Machine.execFpmodeWrite h v s
  | .fpflagsRead h d => Sys2Proof.Machine.execFpflagsRead h d s
  | .fpflagsWrite h v => Sys2Proof.Machine.execFpflagsWrite h v s
  | .mstatAccess h d v => Sys2Proof.Machine.execMstatAccess h d v s
  | .refownerWrite h v => Sys2Proof.Machine.execRefownerWrite h v s
  | .errcolClear c => Sys2Proof.Machine.execErrcolClear c s
  | .act v a n => Sys2Proof.Machine.execAct v a n s
  | .acts v a n => Sys2Proof.Machine.execActs v a n s
  | .wb v a => Sys2Proof.Machine.execWb v a s
  | .wbk v a k => Sys2Proof.Machine.execWbk v a k s
  | .pre v => Sys2Proof.Machine.execPre v s
  | .preall => Sys2Proof.Machine.execPreall s
  | .ref n => Sys2Proof.Machine.execRef n s
  | .refn a => Sys2Proof.Machine.execRefn a s
  | .vgeom g => Sys2Proof.Machine.execVgeom g s
  | .vtype d s_ t => Sys2Proof.Machine.execVtype d s_ t s
  | .vsetvl d a w => Sys2Proof.Machine.execVsetvl d a w s
  | .vlopen d => Sys2Proof.Machine.execVlopen d s
  | .pfx k pol dt zero c cpen => Sys2Proof.Machine.execPfx k pol dt zero c cpen s
  | .vadd part d a b ca cb dt => Sys2Proof.Machine.execVadd part d a b ca cb dt s
  | .vsub part d a b ca cb dt => Sys2Proof.Machine.execVsub part d a b ca cb dt s
  | .vmul part d a b ca cb dt => Sys2Proof.Machine.execVmul part d a b ca cb dt s
  | .vmulh part d a b ca cb dt => Sys2Proof.Machine.execVmulh part d a b ca cb dt s
  | .vmad part d a b ca cb dt => Sys2Proof.Machine.execVmad part d a b ca cb dt s
  | .vnmad part d a b ca cb dt => Sys2Proof.Machine.execVnmad part d a b ca cb dt s
  | .vmin part d a b ca cb dt => Sys2Proof.Machine.execVmin part d a b ca cb dt s
  | .vmax part d a b ca cb dt => Sys2Proof.Machine.execVmax part d a b ca cb dt s
  | .vabs part d a ca dt => Sys2Proof.Machine.execVabs part d a ca dt s
  | .vneg part d a ca dt => Sys2Proof.Machine.execVneg part d a ca dt s
  | .vcvt part d a ca dt => Sys2Proof.Machine.execVcvt part d a ca dt s
  | .vdot part d a b ca cb dt => Sys2Proof.Machine.execVdot part d a b ca cb dt s
  | .vand part d a b ca cb dt => Sys2Proof.Machine.execVand part d a b ca cb dt s
  | .vor part d a b ca cb dt => Sys2Proof.Machine.execVor part d a b ca cb dt s
  | .vxor part d a b ca cb dt => Sys2Proof.Machine.execVxor part d a b ca cb dt s
  | .vshl part d a b ca cb dt => Sys2Proof.Machine.execVshl part d a b ca cb dt s
  | .vshr part d a b ca cb dt => Sys2Proof.Machine.execVshr part d a b ca cb dt s
  | .vdiv part d a b ca cb dt => Sys2Proof.Machine.execVdiv part d a b ca cb dt s
  | .vsqrt part d a ca dt => Sys2Proof.Machine.execVsqrt part d a ca dt s
  | .vrcp part d a ca dt => Sys2Proof.Machine.execVrcp part d a ca dt s
  | .vrsq part d a ca dt => Sys2Proof.Machine.execVrsq part d a ca dt s
  | .vexp2 part d a ca dt => Sys2Proof.Machine.execVexp2 part d a ca dt s
  | .vlog2 part d a ca dt => Sys2Proof.Machine.execVlog2 part d a ca dt s
  | .vscale part d a b ca cb dt => Sys2Proof.Machine.execVscale part d a b ca cb dt s
  | .vcmpEq part k a b ca cb dt => Sys2Proof.Machine.execVcmpEq part k a b ca cb dt s
  | .vcmpNe part k a b ca cb dt => Sys2Proof.Machine.execVcmpNe part k a b ca cb dt s
  | .vcmpLt part k a b ca cb dt => Sys2Proof.Machine.execVcmpLt part k a b ca cb dt s
  | .vcmpLtu part k a b ca cb dt => Sys2Proof.Machine.execVcmpLtu part k a b ca cb dt s
  | .vcmpGe part k a b ca cb dt => Sys2Proof.Machine.execVcmpGe part k a b ca cb dt s
  | .vcmpGeu part k a b ca cb dt => Sys2Proof.Machine.execVcmpGeu part k a b ca cb dt s
  | .vsel part d a b ca cb dt => Sys2Proof.Machine.execVsel part d a b ca cb dt s
  | .vaddVx d a b ca dt p => Sys2Proof.Machine.execVaddVx d a b ca dt p s
  | .vsubVx d a b ca dt p => Sys2Proof.Machine.execVsubVx d a b ca dt p s
  | .vmulVx d a b ca dt p => Sys2Proof.Machine.execVmulVx d a b ca dt p s
  | .vmulhVx d a b ca dt p => Sys2Proof.Machine.execVmulhVx d a b ca dt p s
  | .vmadVx d a b ca dt p => Sys2Proof.Machine.execVmadVx d a b ca dt p s
  | .vnmadVx d a b ca dt p => Sys2Proof.Machine.execVnmadVx d a b ca dt p s
  | .vminVx d a b ca dt p => Sys2Proof.Machine.execVminVx d a b ca dt p s
  | .vmaxVx d a b ca dt p => Sys2Proof.Machine.execVmaxVx d a b ca dt p s
  | .vdotVx d a b ca dt p => Sys2Proof.Machine.execVdotVx d a b ca dt p s
  | .vandVx d a b ca dt p => Sys2Proof.Machine.execVandVx d a b ca dt p s
  | .vorVx d a b ca dt p => Sys2Proof.Machine.execVorVx d a b ca dt p s
  | .vxorVx d a b ca dt p => Sys2Proof.Machine.execVxorVx d a b ca dt p s
  | .vshlVx d a b ca dt p => Sys2Proof.Machine.execVshlVx d a b ca dt p s
  | .vshrVx d a b ca dt p => Sys2Proof.Machine.execVshrVx d a b ca dt p s
  | .vdivVx d a b ca dt p => Sys2Proof.Machine.execVdivVx d a b ca dt p s
  | .vscaleVx d a b ca dt p => Sys2Proof.Machine.execVscaleVx d a b ca dt p s
  | .vcmpEqVx k a b ca dt p => Sys2Proof.Machine.execVcmpEqVx k a b ca dt p s
  | .vcmpNeVx k a b ca dt p => Sys2Proof.Machine.execVcmpNeVx k a b ca dt p s
  | .vcmpLtVx k a b ca dt p => Sys2Proof.Machine.execVcmpLtVx k a b ca dt p s
  | .vcmpLtuVx k a b ca dt p => Sys2Proof.Machine.execVcmpLtuVx k a b ca dt p s
  | .vcmpGeVx k a b ca dt p => Sys2Proof.Machine.execVcmpGeVx k a b ca dt p s
  | .vcmpGeuVx k a b ca dt p => Sys2Proof.Machine.execVcmpGeuVx k a b ca dt p s
  | .vselVx d a b ca dt p => Sys2Proof.Machine.execVselVx d a b ca dt p s
  | .vsplat d b dt => Sys2Proof.Machine.execVsplat d b dt s
  | .viota d dt => Sys2Proof.Machine.execViota d dt s
  | .vext d a b ca dt => Sys2Proof.Machine.execVext d a b ca dt s
  | .vins d xs b dt => Sys2Proof.Machine.execVins d xs b dt s
  | .kand d a b => Sys2Proof.Machine.execKand d a b s
  | .kor d a b => Sys2Proof.Machine.execKor d a b s
  | .kxor d a b => Sys2Proof.Machine.execKxor d a b s
  | .knot d a => Sys2Proof.Machine.execKnot d a s
  | .kmov d a => Sys2Proof.Machine.execKmov d a s
  | .kset d x => Sys2Proof.Machine.execKset d x s
  | .kpop a x => Sys2Proof.Machine.execKpop a x s
  | .kfirst a x => Sys2Proof.Machine.execKfirst a x s
  | .kany p a => Sys2Proof.Machine.execKany p a s
  | .kall p a => Sys2Proof.Machine.execKall p a s
  | .vradd d a b ca dt wide => Sys2Proof.Machine.execVradd d a b ca dt wide s
  | .vrmax d a b ca dt wide => Sys2Proof.Machine.execVrmax d a b ca dt wide s
  | .vrmin d a b ca dt wide => Sys2Proof.Machine.execVrmin d a b ca dt wide s
  | .vld d b dt => Sys2Proof.Machine.execVld d b dt s
  | .vlds d s_ b dt => Sys2Proof.Machine.execVlds d s_ b dt s
  | .vldx d vi b ca dt => Sys2Proof.Machine.execVldx d vi b ca dt s
  | .vldxo d vi b ca dt => Sys2Proof.Machine.execVldxo d vi b ca dt s
  | .vlsx d vi b ca dt => Sys2Proof.Machine.execVlsx d vi b ca dt s
  | .vst d b ca dt => Sys2Proof.Machine.execVst d b ca dt s
  | .vsts d s_ b ca dt => Sys2Proof.Machine.execVsts d s_ b ca dt s
  | .vstx d vi b ca dt => Sys2Proof.Machine.execVstx d vi b ca dt s
  | .vstxo d vi b ca dt => Sys2Proof.Machine.execVstxo d vi b ca dt s
  | .vssx d vi b ca dt => Sys2Proof.Machine.execVssx d vi b ca dt s
  | .vupdAdd d vi b ca dt => Sys2Proof.Machine.execVupdAdd d vi b ca dt s
  | .vupdMin d vi b ca dt => Sys2Proof.Machine.execVupdMin d vi b ca dt s
  | .vupdMax d vi b ca dt => Sys2Proof.Machine.execVupdMax d vi b ca dt s
  | .vupdAnd d vi b ca dt => Sys2Proof.Machine.execVupdAnd d vi b ca dt s
  | .vupdOr d vi b ca dt => Sys2Proof.Machine.execVupdOr d vi b ca dt s
  | .vupdXor d vi b ca dt => Sys2Proof.Machine.execVupdXor d vi b ca dt s
  | .vperm d a b ca cb dt => Sys2Proof.Machine.execVperm d a b ca cb dt s
  | .vcomp d a ca dt => Sys2Proof.Machine.execVcomp d a ca dt s
  | .vcompIdx d a b ca dt => Sys2Proof.Machine.execVcompIdx d a b ca dt s
  | .vexpd d a ca dt => Sys2Proof.Machine.execVexpd d a ca dt s
  | .vrot d a b ca dt => Sys2Proof.Machine.execVrot d a b ca dt s
  | .vslideup d a b ca dt => Sys2Proof.Machine.execVslideup d a b ca dt s
  | .vslidedn d a b ca dt => Sys2Proof.Machine.execVslidedn d a b ca dt s
  | .vcapp a b ca dt => Sys2Proof.Machine.execVcapp a b ca dt s
  | .vshuf d a b ca dt => Sys2Proof.Machine.execVshuf d a b ca dt s
  | .vbcast d a b ca dt => Sys2Proof.Machine.execVbcast d a b ca dt s
  | .vallredAdd d a ca dt => Sys2Proof.Machine.execVallredAdd d a ca dt s
  | .vallredMax d a ca dt => Sys2Proof.Machine.execVallredMax d a ca dt s
  | .vallredMin d a ca dt => Sys2Proof.Machine.execVallredMin d a ca dt s
  | .svfence => Sys2Proof.Machine.execSvfence s
  | .vdrain s_ => Sys2Proof.Machine.execVdrain s_ s
  | .tcfg a => Sys2Proof.Machine.execTcfg a s
  | .tld v a => Sys2Proof.Machine.execTld v a s
  | .tmul v a => Sys2Proof.Machine.execTmul v a s
  | .tmuls d v a => Sys2Proof.Machine.execTmuls d v a s
  | .trd d a => Sys2Proof.Machine.execTrd d a s
  | .tacc d a => Sys2Proof.Machine.execTacc d a s
  | .tzero a => Sys2Proof.Machine.execTzero a s
  | .trel => Sys2Proof.Machine.execTrel s
  | .mset d c r => Sys2Proof.Machine.execMset d c r s
  | .mld d x => Sys2Proof.Machine.execMld d x s
  | .mst d x => Sys2Proof.Machine.execMst d x s
  | .mmul d a b => Sys2Proof.Machine.execMmul d a b s
  | .mmac d a b => Sys2Proof.Machine.execMmac d a b s
  | .madd d a b => Sys2Proof.Machine.execMadd d a b s
  | .mtrn d a => Sys2Proof.Machine.execMtrn d a s
  | .mchol d a => Sys2Proof.Machine.execMchol d a s
  | .mlu d a => Sys2Proof.Machine.execMlu d a s
  | .msolv d a b => Sys2Proof.Machine.execMsolv d a b s
  | .mscal d a x => Sys2Proof.Machine.execMscal d a x s
  | .mid d => Sys2Proof.Machine.execMid d s
  | .mflag f k => Sys2Proof.Machine.execMflag f k s
  | .tspawn d a => Sys2Proof.Machine.execTspawn d a s
  | .texit => Sys2Proof.Machine.execTexit s
  | .tyield => Sys2Proof.Machine.execTyield s
  | .tinfo d s_ => Sys2Proof.Machine.execTinfo d s_ s
  | .qpush a b p => Sys2Proof.Machine.execQpush a b p s
  | .qpop d a p => Sys2Proof.Machine.execQpop d a p s
  | .keyrel a => Sys2Proof.Machine.execKeyrel a s
  | .keyq d a => Sys2Proof.Machine.execKeyq d a s
  | .strip d a p => Sys2Proof.Machine.execStrip d a p s
  | .bar s_ => Sys2Proof.Machine.execBar s_ s
  | .bara s_ => Sys2Proof.Machine.execBara s_ s
  | .barw s_ => Sys2Proof.Machine.execBarw s_ s
  | .scfg d a n => Sys2Proof.Machine.execScfg d a n s
  | .sstep n => Sys2Proof.Machine.execSstep n s
  | .sstat d n => Sys2Proof.Machine.execSstat d n s
  | .sclose n => Sys2Proof.Machine.execSclose n s
  | .waitev d a m => Sys2Proof.Machine.execWaitev d a m s
  | .trap c => Sys2Proof.Machine.execTrap c s
  | .rft => Sys2Proof.Machine.execRft s
  | .halt => Sys2Proof.Machine.execHalt s
  | .bbh a imm => Sys2Proof.Machine.execBbh a imm s
  | .mark c => Sys2Proof.Machine.execMark c s
  | .bkpt c => Sys2Proof.Machine.execBkpt c s
  | .sequencerIssue c => Sys2Proof.Machine.execSequencerIssue c s
  | .wayActivation c way row src segs => Sys2Proof.Machine.execWayActivation c way row src segs s
  | .elementGroupValid h v g => Sys2Proof.Machine.execElementGroupValid h v g s
  | .alertDeadline c way row => Sys2Proof.Machine.execAlertDeadline c way row s
  | .speculativePreactivation h c way row => Sys2Proof.Machine.execSpeculativePreactivation h c way row s
  | .speculativeDiscard c n => Sys2Proof.Machine.execSpeculativeDiscard c n s
  | .class5Promotion c n => Sys2Proof.Machine.execClass5Promotion c n s
  | .vectorRetire h => Sys2Proof.Machine.execVectorRetire h s
  | .storeBufferPerform h n => Sys2Proof.Machine.execStoreBufferPerform h n s
  | .trapDelivery h cause pc info => Sys2Proof.Machine.execTrapDelivery h cause pc info s
  | .asyncDelivery h => Sys2Proof.Machine.execAsyncDelivery h s
  | .stewardResume h pc xs => Sys2Proof.Machine.execStewardResume h pc xs s
  | .stewardDeliver h => Sys2Proof.Machine.execStewardDeliver h s
  | .taskEnd t why => Sys2Proof.Machine.execTaskEnd t why s
  | .taskCompletion t => Sys2Proof.Machine.execTaskCompletion t s
  | .doorbell q p => Sys2Proof.Machine.execDoorbell q p s
  | .queueBind => Sys2Proof.Machine.execQueueBind s
  | .queueUnbind slot => Sys2Proof.Machine.execQueueUnbind slot s
  | .dispatchHead q => Sys2Proof.Machine.execDispatchHead q s
  | .dependenceReread t => Sys2Proof.Machine.execDependenceReread t s
  | .agingTick t => Sys2Proof.Machine.execAgingTick t s
  | .taskStart t pick => Sys2Proof.Machine.execTaskStart t pick s
  | .hartGrant t pick => Sys2Proof.Machine.execHartGrant t pick s
  | .preemptionRequest t => Sys2Proof.Machine.execPreemptionRequest t s
  | .sliceExpiry t waiter => Sys2Proof.Machine.execSliceExpiry t waiter s
  | .hartHalt h => Sys2Proof.Machine.execHartHalt h s
  | .hartSaved h => Sys2Proof.Machine.execHartSaved h s
  | .hartResume h => Sys2Proof.Machine.execHartResume h s
  | .barrierPhase t => Sys2Proof.Machine.execBarrierPhase t s
  | .collectiveJoin t stack => Sys2Proof.Machine.execCollectiveJoin t stack s
  | .collectiveTransport h g => Sys2Proof.Machine.execCollectiveTransport h g s
  | .tldTransfer h => Sys2Proof.Machine.execTldTransfer h s
  | .streamFetch h n => Sys2Proof.Machine.execStreamFetch h n s
  | .waitevWake h => Sys2Proof.Machine.execWaitevWake h s
  | .waitevTimeout h => Sys2Proof.Machine.execWaitevTimeout h s
  | .shootdown root vpages => Sys2Proof.Machine.execShootdown root vpages s
  | .rowWindowReload c t vpage leaf => Sys2Proof.Machine.execRowWindowReload c t vpage leaf s
  | .rowWindowTimeout h => Sys2Proof.Machine.execRowWindowTimeout h s
  | .remoteResponse id data => Sys2Proof.Machine.execRemoteResponse id data s
  | .remoteTimeout id => Sys2Proof.Machine.execRemoteTimeout id s
  | .scaleupPortFailure port => Sys2Proof.Machine.execScaleupPortFailure port s
  | .refreshInterval c => Sys2Proof.Machine.execRefreshInterval c s
  | .laneRetirement c cluster => Sys2Proof.Machine.execLaneRetirement c cluster s
  | .remapUpdate c way spare row => Sys2Proof.Machine.execRemapUpdate c way spare row s
  | .arrayRatioChange stack ratio => Sys2Proof.Machine.execArrayRatioChange stack ratio s
  | .budgetRecompute => Sys2Proof.Machine.execBudgetRecompute s
  | .monitorReading temps lowRows okRows => Sys2Proof.Machine.execMonitorReading temps lowRows okRows s
  | .powerOn => Sys2Proof.Machine.execPowerOn s
  | .powerRemoval => Sys2Proof.Machine.execPowerRemoval s
  | .rdmaWrite qp rkey va data => Sys2Proof.Machine.execRdmaWrite qp rkey va data s
  | .rdmaRead qp rkey va n => Sys2Proof.Machine.execRdmaRead qp rkey va n s
  | .fetchAndAdd qp rkey va v => Sys2Proof.Machine.execFetchAndAdd qp rkey va v s
  | .cmpAndSwap qp rkey va cmp swap => Sys2Proof.Machine.execCmpAndSwap qp rkey va cmp swap s
  | .unsupportedOperation qp opcode => Sys2Proof.Machine.execUnsupportedOperation qp opcode s
  | .attestationRequest port nonce part => Sys2Proof.Machine.execAttestationRequest port nonce part s
  | .keyEncapsulation port part ct => Sys2Proof.Machine.execKeyEncapsulation port part ct s
  | .modcapWrite v => Sys2Proof.Machine.execModcapWrite v s
  | .registerWrite who addr v => Sys2Proof.Machine.execRegisterWrite who addr v s
  | .incomingRemoteAccess pa n data => Sys2Proof.Machine.execIncomingRemoteAccess pa n data s
  | .partitionCreation part confidential regions => Sys2Proof.Machine.execPartitionCreation part confidential regions s
  | .scalarRetire h => Sys2Proof.Machine.execScalarRetire h s
  | .elementWritePerform h n => Sys2Proof.Machine.execElementWritePerform h n s

end Sys2Proof.Machine
end

