-- ==== Sys2Proof/Machine/Engines.lean ====
section
/-! DEFINITION. Machine/Engines.lean: fetching an instruction word, and what the module's own engines do next when the agenda asks for
nothing (log 1). -/

namespace Sys2Proof.Machine

/-! ## Fetch (R70, R126) -/

/-- A fetch; where two words may come, which one does is free (R70). -/
def fetch (s : State) (h : Hart) : State × Option (List Byte) :=
  match nextWords s h with
  | [] => (s, none)
  | [w] => (s, some w)
  | w :: w' :: _ => ({ s with free := s.free + 1 }, some (if Config.pick s.free % 2 = 1 then w' else w))

/-- The instruction in four bytes; none where they decode to none (R139). -/
def decodeList : List Byte → Option Instr
  | [b0, b1, b2, b3] => (decodeBytes b0 b1 b2 b3).toOption
  | _ => none

/-- `ILLEGAL` for a word that decodes to no instruction, or for a fetch outside the code, after the waypoints on it (R126, R139,
R328), once every earlier instruction has retired (R301). -/
def illegalWord (s : State) (id : Nat) (h : Hart) (word : Word) (hit : Nat × Nat → Bool) : State :=
  if !h.caughtUp then holdBack s id h
  else settle .nop h ((applyWaypoints (startCtx s id h word) hit).bind (fun c => .error (.trap .illegal word c)))

/-! ## Engines -/

/-- A step that an engine might take. -/
abbrev Turn := State → Result

/-- What a hart's engines can do next. -/
def hartTurns (s : State) (id : Nat) (h : Hart) : List Turn :=
  let shadow : List Turn := match find? s.shadows id with
    | some r =>
      ((r.v.filter (fun e => e.2.invalid != 0)).map (fun e => execElementGroupValid id e.1 (Nat.log2 e.2.invalid))) ++
        [execVectorRetire id, execScalarRetire id]
    | none => if h.vqueue.isEmpty then [] else [execVectorRetire id]
  let transport : List Turn := match h.transport with
    | some t => (t.items.take 1).map (fun e => execCollectiveTransport id (h.wordGroup e.1))
    | none => []
  let tile : List Turn := if h.tileLoad.isSome then [execTldTransfer id] else []
  let expired := match h.wait, h.waitFrom, (fetchWord s h).bind decodeList with
    | .waitev _, some start, some (.waitev _ a _) => timedOut s h start (h.getX a).toNat
    | _, _, _ => false
  let waits : List Turn := match h.wait with
    | .waitev _ => execWaitevWake id :: (if expired then [execWaitevTimeout id] else [])
    | .collective => [execCollectiveJoin h.task h.stack]
    | _ => []
  let moves : List Turn := (if h.haltReq then [execHartHalt id] else []) ++ (match h.status with
    | .halted => [execHartSaved id]
    | .saved => [execHartResume id]
    | _ => [])
  shadow ++ transport ++ tile ++ h.chans.map (fun e => execStreamFetch id e.1) ++ waits ++ moves

/-- What the dispatcher and the allocator can do next for a task. -/
def taskTurns (s : State) (id : Nat) (t : Task) : List Turn :=
  let reread := t.phase == .waiting && !t.depMet && (match (readCounter s t.root t.part t.srec).2 with
    | .notMet => false
    | .away _ => !s.hubOut.any (fun e => e.2.task == id && e.2.load)
    | _ => true)
  [execBarrierPhase id, execTaskCompletion id] ++ (if reread then [execDependenceReread id] else []) ++
    [execTaskStart id [], execHartGrant id [], execPreemptionRequest id]

/-- The first of n element accesses of a hart that may be performed is. -/
def firstPerform (s : State) (id n : Nat) : Result :=
  match (List.range n).find? (fun i => (s.hart? id).any (fun h => mayPerform h i)) with
  | some i => execElementWritePerform id i s
  | none => cannot

/-- Writes of a hart that are still to be performed. -/
def writeTurns (id : Nat) (h : Hart) : List Turn :=
  (if h.stores.isEmpty then [] else [execStoreBufferPerform id 0]) ++ (if h.elems.isEmpty then [] else [fun s => firstPerform s id h.elems.length])

/-- The source of a request. -/
def WayRequest.source (r : WayRequest) : ActSource :=
  match r.cls, r.hart with
  | 3, some h => .row h
  | 4, some h => .stream h r.chan
  | 6, some h => .spec h
  | _, some h => .base h
  | _, none => .hub

/-- What becomes of a column's waiting requests next (R21). -/
def wayTurns (c : Nat) (k : Column) : List Turn :=
  (k.requests.zipIdx.filter (fun r => r.1.expired k.cycles)).map (fun r => execSpeculativeDiscard c r.2) ++
    (k.requests.zipIdx.filter (fun r => r.1.cls == 5)).map (fun r => execClass5Promotion c r.2) ++
    (k.requests.filter (·.act == .activate)).map (fun r => execWayActivation c r.way r.row r.source r.segs)

/-- Everything that the engines might do next, in the order in which they are asked. -/
def engineTurns (s : State) : List Turn :=
  s.columns.flatMap (fun e => wayTurns e.1 e.2) ++ s.harts.flatMap (fun e => hartTurns s e.1 e.2) ++ s.tasks.flatMap (fun e => taskTurns s e.1 e.2) ++ [execQueueBind] ++
    (s.outstanding.filter (·.2.step == 3)).map (fun e => execRemoteTimeout e.1) ++ s.slots.map (fun e => execDispatchHead e.1) ++ s.harts.flatMap (fun e => writeTurns e.1 e.2)

/-- The first of some turns that can be taken, as its next state. -/
def firstNext (s : State) : List Turn → Option State
  | [] => none
  | f :: l =>
    match f s with
    | .next s' => some s'
    | _ => firstNext s l

/-- What happens when the agenda asks for nothing: an engine goes on, else the next column's lane cycle comes. -/
def goOn (s : State) : Host.Outcome State Fault Refusal :=
  match firstNext s (engineTurns s) with
  | some s' => .next s'
  | none => execSequencerIssue (s.turn % 4096) { s with turn := (s.turn + 1) % 4096 }

/-- An event of the agenda that cannot occur in a state is passed over. -/
def orPass (s : State) : Host.Outcome State Fault Refusal → Host.Outcome State Fault Refusal
  | .refused _ => .next s
  | r => r

/-- What the hart does that the sequencer picked: the first instruction that waits in its vector queue runs; else it takes the asynchronous cause
that is due, for which it has issued nothing, or runs the instruction at its pc. -/
def runHart (s : State) (id : Nat) (h : Hart) : Host.Outcome State Fault Refusal :=
  if h.atHead then
    match h.firstWaiting.bind (fun q => decodeTableWord 32 q.word.toNat) with
    | some i => exec i s
    | none => .next { s.setHart id { h with atHead := false } with cur := none }
  else if !atBoundary s id h then .next { s with cur := none }
  else match deliverDue (unpick s id h) id { h with idle := h.idleWas } with
    | some s' => .next { s' with cur := none }
    | none =>
      match fetch s h with
      | (s, none) => .next (illegalWord s id h 0 (fun w => w.2 % 4 == 1 && waypointMatches w h.pc.toNat 0))
      | (s, some bytes) =>
        match decodeList bytes with
        | some i => exec i s
        | none =>
          let w := ofBytes bytes
          .next (illegalWord s id h (BitVec.ofNat 64 w) (fun p => waypointMatches p h.pc.toNat (w / 2 ^ 26)))

end Sys2Proof.Machine
end

