-- ==== Sys2Proof/Machine/Step.lean ====
section
/-! DEFINITION. Machine/Step.lean: one step of the module, and the state in which an instruction is the next to run. -/

namespace Sys2Proof.Machine

/-- One step (log 1): the instruction of the hart that the sequencer picked; else what befalls the hardware next; else the next event of
the agenda; else what the engines and the sequencers do by themselves. Without power, or after a bring-up that stopped, only the agenda's power events occur. -/
def step (s : State) : Host.Outcome State Fault Refusal :=
  if s.powered && s.stage == 15 then
    match s.cur with
    | some id =>
      match s.hart? id with
      | some h => runHart s id h
      | none => .next { s with cur := none }
    | none =>
      match s.upsets with
      | u :: rest => .next (befall { s with upsets := rest } u)
      | [] =>
        match s.agenda with
        | i :: rest => orPass { s with agenda := rest } (exec i { s with agenda := rest })
        | [] => goOn s
  else
    match s.agenda with
    | .powerOn :: rest => orPass { s with agenda := rest } (execPowerOn { s with agenda := rest })
    | .powerRemoval :: rest => orPass { s with agenda := rest } (execPowerRemoval { s with agenda := rest })
    | _ :: rest => .next { s with agenda := rest }
    | [] => .fault .noPower

/-- The four bytes of a table word, in memory order (R126). -/
def wordBytes (nbits w : Nat) : List Byte := toBytes 4 (w % 2 ^ nbits)

/-- The header of the kernel that `withFetchWord` places: a full hart with 64 vector registers, tile and small matrices. -/
def probeHeader : KernelHeader := ⟨0x5244484B, 3, 64, 1, 1, 64, 68, 4096, 8192, 0, 0, 0⟩

/-- Its task: one hart of 32 lanes. -/
def probeTask : Task where
  srec := ⟨0x10000, 0, 0, 0, 4, 0, 1, 0, 0, 3, 0, 0, 0, 0, 0, 0, 0, [], 0, 0⟩
  hdr := probeHeader
  pages := []
  queue := 0
  ticket := 0
  stamp := 0
  part := 0
  root := 0
  base := 0
  aged := 0
  slice := 100
  depMet := true
  phase := .started
  keys := []
  harts := [(0, 0)]
  granted := 1

/-- s with an instruction placed where `step` fetches next: the hart picked is hart 0 of task 0, a full hart in column 0 as it stands
at its start (R55), and its kernel's code in the column's TCM ends with the instruction (log 1). -/
def State.withFetchWord (s : State) (nbits w : Nat) : State :=
  { s with
    powered := true
    stage := 15
    tasks := put s.tasks 0 probeTask
    harts := put s.harts 0 { newHart s 0 probeTask 0 ⟨0, 0⟩ 0 0 with startedAt := 0 }
    shadows := del s.shadows 0
    columns := put s.columns 0 { s.col 0 with
      codes := ⟨0, 0x10000, List.replicate 64 0 ++ wordBytes nbits w, [], List.replicate 64 0 ++ wordBytes nbits w⟩ ::
        (s.col 0).codes.filter (fun k => !(k.root == 0 && k.khdr == 0x10000)) }
    nextTask := max s.nextTask 1
    nextHart := max s.nextHart 1
    cur := some 0 }

end Sys2Proof.Machine
end

