-- ==== Sys2Proof/Safety.lean ====
section
/-! DEFINITION. Safety.lean: the terms in which claims are stated: when an instruction issues and completes, the canonical form of memory,
the conditions under which vector instructions execute, and the results of instructions as tables over the opcodes. -/

namespace Sys2Proof.Machine

/-! ## Issue and completion -/

/-- Hart id, with record h, is the hart picked (R293) and issues instruction i, the one at its pc: none in its vector queue waits for what an
earlier one is to write (R220), it has no debug block, and a prefix that is pending may govern i at this address (R134). -/
structure Issues (s : State) (id : Nat) (h : Hart) (i : Instr) : Prop where
  cur       : s.cur = some id
  hart      : s.hart? id = some h
  notHead   : h.atHead = false
  noWaiting : h.waiting = []
  noDebug   : h.dbg = none
  paired    : ∀ p, h.pfx = some p → p.succ = h.pc.extractLsb' 2 46 ∧ (i.major.map prefixable).getD false = true

/-- The context in which instruction i of hart id begins. -/
abbrev begun (s : State) (id : Nat) (h : Hart) (i : Instr) : Ctx := startCtx s id h i.word

/-- Instruction i completes: the step that executes it answers the state that its retirement leaves, with the results in c. -/
def Completes (i : Instr) (s : State) (h : Hart) (c : Ctx) : Prop := exec i s = .next (retire i h c)

/-- A trap of an instruction at the hart's pc, in context c: cause and `TRAPINFO` are delivered at that pc; while an earlier instruction
of the hart has not retired, the instruction waits instead (R301). -/
def trapped (s : State) (id : Nat) (h : Hart) (c : Ctx) (cause : Cause) (info : Word) : State :=
  if h.caughtUp then deliver { c.s with cur := none } id { c.h with pfx := h.pfx, exempt := false } cause h.pc info else holdBack s id h

/-- Instruction i traps, with nothing else changed. -/
def Traps (i : Instr) (s : State) (id : Nat) (h : Hart) (cause : Cause) (info : Word) : Prop :=
  exec i s = .next (trapped s id h (begun s id h i) cause info)

/-- The pc is not the end address of the innermost loop (R160). -/
def OffLoopEnd (h : Hart) : Prop := ∀ e rest, h.loops = e :: rest → e.last ≠ h.pc

/-- A hart without debug: no block, and CTL 0. -/
def Undebugged (h : Hart) : Prop := h.dbg = none ∧ h.ctl = 0

/-- The hart as the retirement of instruction i leaves it, with the next pc and the loop stack. -/
def Hart.after (h : Hart) (i : Instr) (next : Word × List LoopEntry) : Hart :=
  { h with
    pc := next.1, loops := next.2, instret := h.instret + 1, exempt := h.exempt && i == .rft
    wait := .none, waitFrom := none, refDone := 0, issueAt := none, stalls := 0, tlbMissed := 0
    expo := if (i.major.map isVectorMajor).getD false then h.expo + 1 else h.expo }

/-! ## Scalar results -/

/-- Destination and value of the integer instructions (R152 to R154). -/
def intResult (i : Instr) (h : Hart) : Option (XReg × Word) :=
  let x := h.getX
  match i with
  | .add d a b => some (d, x a + x b)
  | .sub d a b => some (d, x a - x b)
  | .mul d a b => some (d, x a * x b)
  | .mulh d a b => some (d, BitVec.ofInt 64 ((x a).toInt * (x b).toInt / 2 ^ 64))
  | .mulhu d a b => some (d, BitVec.ofNat 64 ((x a).toNat * (x b).toNat / 2 ^ 64))
  | .div d a b => some (d, if x b = 0 then -1 else BitVec.ofInt 64 ((x a).toInt.tdiv (x b).toInt))
  | .divu d a b => some (d, if x b = 0 then -1 else x a / x b)
  | .rem d a b => some (d, if x b = 0 then x a else BitVec.ofInt 64 ((x a).toInt.tmod (x b).toInt))
  | .remu d a b => some (d, if x b = 0 then x a else x a % x b)
  | .and d a b => some (d, x a &&& x b)
  | .or d a b => some (d, x a ||| x b)
  | .xor d a b => some (d, x a ^^^ x b)
  | .shl d a b => some (d, x a <<< ((x b).toNat % 64))
  | .shr d a b => some (d, x a >>> ((x b).toNat % 64))
  | .sra d a b => some (d, (x a).sshiftRight ((x b).toNat % 64))
  | .min d a b => some (d, if (x a).toInt ≤ (x b).toInt then x a else x b)
  | .max d a b => some (d, if (x a).toInt ≤ (x b).toInt then x b else x a)
  | .minu d a b => some (d, if (x a).toNat ≤ (x b).toNat then x a else x b)
  | .maxu d a b => some (d, if (x a).toNat ≤ (x b).toNat then x b else x a)
  | .clz d a => some (d, BitVec.ofNat 64 (clz64 (x a).toNat))
  | .ctz d a => some (d, BitVec.ofNat 64 (ctz64 (x a).toNat))
  | .popc d a => some (d, BitVec.ofNat 64 (popBits 64 (x a).toNat))
  | .sel d a b p => some (d, if h.getP p then x a else x b)
  | .addi d a imm => some (d, x a + imm.signExtend 64)
  | .andi d a imm => some (d, x a &&& imm.setWidth 64)
  | .ori d a imm => some (d, x a ||| imm.setWidth 64)
  | .xori d a imm => some (d, x a ^^^ imm.setWidth 64)
  | .shli d a n => some (d, x a <<< n.toNat)
  | .shri d a n => some (d, x a >>> n.toNat)
  | .srai d a n => some (d, (x a).sshiftRight n.toNat)
  | .lui d imm => some (d, imm.signExtend 64 <<< 16)
  | .addpc d imm => some (d, h.pc + imm.signExtend 64 <<< 2)
  | _ => none

/-- Destination and value of the instructions that write a predicate (R155, R156, R166). -/
def predResult (i : Instr) (h : Hart) : Option (PReg × Bool) :=
  match i with
  | .cmp p a b cc => some (p, compare cc (h.getX a) (h.getX b))
  | .cmpi p a cc imm => some (p, compare cc (h.getX a) (imm.signExtend 64))
  | .pand d a b => some (d, h.getP a && h.getP b)
  | .por d a b => some (d, h.getP a || h.getP b)
  | .pxor d a b => some (d, h.getP a != h.getP b)
  | .pnot d a => some (d, !h.getP a)
  | .fcmp p a b cc t =>
    some (p, compareV cc.toNat ((floatOf t.toNat).ofWord h.ftz (h.getX a)) ((floatOf t.toNat).ofWord h.ftz (h.getX b)))
  | _ => none

/-- Destination, value and flags of the scalar floating instructions (R164 to R167). -/
def floatResult (i : Instr) (h : Hart) : Option (XReg × Word × Nat) :=
  let z := h.ftz
  let v (t : BitVec 3) (r : XReg) : FVal := (floatOf t.toNat).ofWord z (h.getX r)
  let out (d : XReg) (r : Nat × Nat) : Option (XReg × Word × Nat) := some (d, BitVec.ofNat 64 r.1, r.2)
  let low (t : BitVec 3) (r : XReg) : Nat := (h.getX r).toNat % 2 ^ (floatOf t.toNat).bits
  match i with
  | .fadd d a b t => out d (fAdd (floatOf t.toNat) (rne z) (v t a) (v t b))
  | .fsub d a b t => out d (fAdd (floatOf t.toNat) (rne z) (v t a) (v t b).neg)
  | .fmul d a b t => out d (fMul (floatOf t.toNat) (rne z) (v t a) (v t b))
  | .fma d a b t => out d (fFma (floatOf t.toNat) (rne z) (v t d) (v t a) (v t b))
  | .fmin d a b t => out d (minMaxBits (floatOf t.toNat) z false (low t a) (low t b), 0)
  | .fmax d a b t => out d (minMaxBits (floatOf t.toNat) z true (low t a) (low t b), 0)
  | .fcvt d a u t =>
    let w := fcvtSource t.toNat z (h.getX a)
    if u.toNat < 3 then out d ((floatOf u.toNat).encode (rne z) false w)
    else
      let r := toIntV (rne z) (intLimits u.toNat).1 (intLimits u.toNat).2 w
      some (d, wordOfInt r.1, r.2)
  | _ => none

/-- Destination, base, offset, bytes and sign extension of the scalar loads (R161). -/
def loadForm : Instr → Option (XReg × XReg × BitVec 13 × Nat × Bool)
  | .ldb d a imm => some (d, a, imm, 1, true)
  | .ldbu d a imm => some (d, a, imm, 1, false)
  | .ldh d a imm => some (d, a, imm, 2, true)
  | .ldhu d a imm => some (d, a, imm, 2, false)
  | .ldw d a imm => some (d, a, imm, 4, true)
  | .ldwu d a imm => some (d, a, imm, 4, false)
  | .ldd d a imm => some (d, a, imm, 8, false)
  | _ => none

/-- Source, base, offset and bytes of the scalar stores (R161). -/
def storeForm : Instr → Option (XReg × XReg × BitVec 13 × Nat)
  | .stb r a imm => some (r, a, imm, 1)
  | .sth r a imm => some (r, a, imm, 2)
  | .stw r a imm => some (r, a, imm, 4)
  | .std r a imm => some (r, a, imm, 8)
  | _ => none

/-- The value of n loaded bytes in a register. -/
def extendLoad (n : Nat) (isSigned : Bool) (v : Nat) : Word := if isSigned then sextWord (8 * n) v else BitVec.ofNat 64 v

/-- The address of a scalar load or store. -/
def scalarAddress (h : Hart) (a : XReg) (imm : BitVec 13) : Word := h.getX a + imm.signExtend 64

/-- What the writable fields of a system register hold after a write of v where it held `old` (R142, R6); `REFOWNER` apart. -/
def written (n : Nat) (old v : Word) : Option Word :=
  match n with
  | 0x020 => some (v &&& 0x101FF)
  | 0x021 | 0x022 => some v
  | 0x023 => some (v &&& ~~~(3 : Word))
  | 0x030 => some (v &&& 0xFFFFFFFF0000000F)
  | 0x031 => some (v &&& 0x1F)
  | 0x032 => some ((v &&& 0xFFFFFFFF00000000) ||| (old &&& 0x7 &&& ~~~v))
  | 0x033 => some (v &&& ~~~(0x3C000 : Word))
  | 0x040 => some (v &&& 0xFFFFFFFF)
  | 0x041 => some (v &&& 0xFFFFFFFFFFF8)
  | 0x050 => some (v &&& 0xFFFFFFFFFFFF)
  | 0x051 => some (v &&& 0xF000FFFFFFFFFFFF)
  | 0x060 => some (if v.getLsbD 63 then 0 else old &&& ~~~(v &&& 0xFF))
  | _ => none

/-- A general address lies in the TCM window, and n bytes from it in the hart's share (R69). -/
def InShare (s : State) (h : Hart) (va : Word) (n : Nat) : Prop :=
  inTcm va.toNat = true ∧ va.toNat - 0xFFFFFFFF0000 + n ≤ (s.header h).tcmstack

/-- The module after an access of a scalar load to memory: the line cache serves it, or the base layer activates (R79, R201). -/
def loadAccess (s : State) (id pa leaf : Nat) (c : Ctx) : Ctx :=
  { c with s := s }.global (fun s => readAccess s [(pa, leafUc leaf)] true (.base id))

/-- Operation, destination, address, operand, ordering and width of the atomics (R168). -/
def amoForm : Instr → Option (AmoOp × XReg × XReg × XReg × BitVec 2 × Bool)
  | .amoadd d a b _ o w => some (.add, d, a, b, o, w)
  | .amoand d a b _ o w => some (.and, d, a, b, o, w)
  | .amoor d a b _ o w => some (.or, d, a, b, o, w)
  | .amoxor d a b _ o w => some (.xor, d, a, b, o, w)
  | .amomin d a b _ o w => some (.min, d, a, b, o, w)
  | .amomax d a b _ o w => some (.max, d, a, b, o, w)
  | .amominu d a b _ o w => some (.minu, d, a, b, o, w)
  | .amomaxu d a b _ o w => some (.maxu, d, a, b, o, w)
  | .amoswap d a b _ o w => some (.swap, d, a, b, o, w)
  | .amocas d a b _ o w => some (.cas, d, a, b, o, w)
  | _ => none

/-- The context in which an atomic performs: the buffered stores that it waits for are performed (R169). -/
def amoOrdered (c : Ctx) (ord : BitVec 2) (n : Nat) : Place → Ctx
  | .mem pa _ => if ord.toNat ≥ 2 then c.drainStores else c.drainOverlap pa n
  | .tcm _ => if ord.toNat ≥ 2 then c.drainStores else c

/-! ## Conditions of vector instructions (R43, R177, R216, R226, R267) -/

/-- Every listed lane word of register v lies in an open way. -/
def Opened (h : Hart) (v : VNum) (js : List Nat) : Prop := ∀ j ∈ js, h.isOpen (h.getV v) j = true

/-- Nothing that the hart has gone past is still to write register v (R204). -/
def Filled (h : Hart) (v : VNum) : Prop := h.awaits v = false

/-- No transport and no tile load that is still under way uses register v as a source or a destination. -/
def Released (h : Hart) (v : VNum) : Prop := (∀ t, h.transport = some t → t.vd ≠ v ∧ t.va ≠ v) ∧ ∀ t, h.tileLoad = some t → t.src ≠ v

/-- Nothing that is still under way uses register v: no access either. -/
def Settled (h : Hart) (v : VNum) : Prop := h.engages v = false ∧ Released h v

/-- Register v may be opened, closed or retagged: no transport or tile load uses it, and no stream channel has it as its strip buffer (R267). -/
def Changeable (h : Hart) (v : VNum) : Prop := Released h v ∧ ∀ e ∈ h.chans, e.2.dest ≠ v

/-- The contents of register v may change: nothing that is under way uses it, and it is no strip buffer. -/
def Idle (h : Hart) (v : VNum) : Prop := Settled h v ∧ ∀ e ∈ h.chans, e.2.dest ≠ v

/-- No transport and no strip of a channel is still to bring elements es of register v, and no channel has a fault at or below one. -/
def Brought (h : Hart) (v : VNum) (es : List Nat) : Prop :=
  (∀ t, h.transport = some t → t.vd = v → ∀ e ∈ es, find? t.items (elemWord (h.getV v).tag.width e) = none) ∧
  ∀ e ∈ h.chans, e.2.dest = v → ∀ p ∈ es,
    (e.2.k * e.2.strip + p < min (e.2.k * e.2.strip + e.2.strip) e.2.total → e.2.k * e.2.strip + p < e.2.m) ∧
    ∀ f, e.2.fault = some f → e.2.k * e.2.strip + p < f.1

/-- Elements es of register v have arrived: nothing is still to write it, and no transport or strip is to bring them. -/
def Arrived (h : Hart) (v : VNum) (es : List Nat) : Prop := Filled h v ∧ Brought h v es

/-- The copy that a prefix asks for meets its conditions: another declared register, of the destination's tag, that nothing under way
uses, both open where the copy reads and writes (R134, R176, R177). -/
def CopyReady (c : Ctx) (d : VNum) (wg : Nat) : Prop :=
  c.copyOk (some d) = true ∧ ∀ v, c.copyReg = some v → (c.h.getV v).sameTag (c.h.getV d) = true ∧ Idle c.h v ∧
    Opened c.h v (c.copyWords wg) ∧ Opened c.h d (c.copyWords wg)

/-- The scales that lane words js of an MX register need have arrived, and lie in open ways (R45). -/
def ScalesReady (h : Hart) (r : VReg) (js : List Nat) : Prop :=
  r.tag.isMx = true → Arrived h r.scale (wordElems (h.getV r.scale).tag.width (h.scaleWords r js)) ∧
    Opened h r.scale (h.scaleWords r js)

/-- Elements es of an operand have arrived and lie in open ways, with the scales of an MX operand (R45, R177). -/
def OperandReady (h : Hart) (o : Operand) (es : List Nat) : Prop :=
  match o with
  | .scalar .. => True
  | .reg v r => Arrived h v es ∧ Opened h v (es.map (elemWord r.tag.width)) ∧ ScalesReady h r (es.map (elemWord r.tag.width))

/-- The vector registers of a source. -/
def BSource.regs : BSource → List VNum
  | .vec v => [v]
  | _ => []

/-! ## Elementwise instructions (R190 to R193) -/

/-- Operation, part, destination, source and second source of the elementwise instructions. -/
def elementForm : Instr → Option (VOp × Nat × VNum × VNum × BSource)
  | .vadd p d a b _ _ _ => some (.add', p.toNat, d, a, .vec b)
  | .vsub p d a b _ _ _ => some (.sub', p.toNat, d, a, .vec b)
  | .vmul p d a b _ _ _ => some (.mul', p.toNat, d, a, .vec b)
  | .vmulh p d a b _ _ _ => some (.mulh', p.toNat, d, a, .vec b)
  | .vmad p d a b _ _ _ => some (.mad', p.toNat, d, a, .vec b)
  | .vnmad p d a b _ _ _ => some (.nmad', p.toNat, d, a, .vec b)
  | .vmin p d a b _ _ _ => some (.min', p.toNat, d, a, .vec b)
  | .vmax p d a b _ _ _ => some (.max', p.toNat, d, a, .vec b)
  | .vabs p d a _ _ => some (.abs', p.toNat, d, a, .none)
  | .vneg p d a _ _ => some (.neg', p.toNat, d, a, .none)
  | .vcvt p d a _ _ => some (.cvt', p.toNat, d, a, .none)
  | .vdot p d a b _ _ _ => some (.dot', p.toNat, d, a, .vec b)
  | .vand p d a b _ _ _ => some (.and', p.toNat, d, a, .vec b)
  | .vor p d a b _ _ _ => some (.or', p.toNat, d, a, .vec b)
  | .vxor p d a b _ _ _ => some (.xor', p.toNat, d, a, .vec b)
  | .vshl p d a b _ _ _ => some (.shl', p.toNat, d, a, .vec b)
  | .vshr p d a b _ _ _ => some (.shr', p.toNat, d, a, .vec b)
  | .vdiv p d a b _ _ _ => some (.div', p.toNat, d, a, .vec b)
  | .vsqrt p d a _ _ => some (.sqrt', p.toNat, d, a, .none)
  | .vrcp p d a _ _ => some (.rcp', p.toNat, d, a, .none)
  | .vrsq p d a _ _ => some (.rsq', p.toNat, d, a, .none)
  | .vexp2 p d a _ _ => some (.exp2', p.toNat, d, a, .none)
  | .vlog2 p d a _ _ => some (.log2', p.toNat, d, a, .none)
  | .vscale p d a b _ _ _ => some (.scale', p.toNat, d, a, .vec b)
  | .vaddVx d a b _ _ p => some (.add', p.toNat, d, a, .scal b)
  | .vsubVx d a b _ _ p => some (.sub', p.toNat, d, a, .scal b)
  | .vmulVx d a b _ _ p => some (.mul', p.toNat, d, a, .scal b)
  | .vmulhVx d a b _ _ p => some (.mulh', p.toNat, d, a, .scal b)
  | .vmadVx d a b _ _ p => some (.mad', p.toNat, d, a, .scal b)
  | .vnmadVx d a b _ _ p => some (.nmad', p.toNat, d, a, .scal b)
  | .vminVx d a b _ _ p => some (.min', p.toNat, d, a, .scal b)
  | .vmaxVx d a b _ _ p => some (.max', p.toNat, d, a, .scal b)
  | .vdotVx d a b _ _ p => some (.dot', p.toNat, d, a, .scal b)
  | .vandVx d a b _ _ p => some (.and', p.toNat, d, a, .scal b)
  | .vorVx d a b _ _ p => some (.or', p.toNat, d, a, .scal b)
  | .vxorVx d a b _ _ p => some (.xor', p.toNat, d, a, .scal b)
  | .vshlVx d a b _ _ p => some (.shl', p.toNat, d, a, .scal b)
  | .vshrVx d a b _ _ p => some (.shr', p.toNat, d, a, .scal b)
  | .vdivVx d a b _ _ p => some (.div', p.toNat, d, a, .scal b)
  | .vscaleVx d a b _ _ p => some (.scale', p.toNat, d, a, .scal b)
  | _ => none

/-- The operands D, A, B of an elementwise instruction. -/
def elementOperands (c : Ctx) (op : VOp) (d a : VNum) (b : BSource) : Operand × Operand × Operand :=
  let a' := Operand.reg a (c.h.getV a)
  (.reg d (c.h.getV d), a', c.operandB b (scalarTag op a'.tag) a'.tag)

/-- Its governing width. -/
def elementWidth (c : Ctx) (op : VOp) (d a : VNum) (b : BSource) : Nat :=
  let o := elementOperands c op d a b
  governing o.1.tag o.2.1.tag o.2.2

/-- The elements of a source of width w that it reads; `VDOT` reads whole lane words. -/
def sourceElems (c : Ctx) (op : VOp) (wg aw w part : Nat) : List Nat :=
  if op == .dot' then (c.active wg).flatMap (fun j => span (j * (32 / aw)) (32 / aw)) else (c.active wg).map (selects wg w part)

/-- The conditions under which an elementwise instruction executes at a vector length that is not 0: declared registers, a listed
combination of tags and a part in range, open ways, and operands that have arrived. -/
def ElementReady (c : Ctx) (op : VOp) (part : Nat) (d a : VNum) (b : BSource) : Prop :=
  let o := elementOperands c op d a b
  let wg := elementWidth c op d a b
  let dt := o.1.tag
  c.h.vl ≠ 0 ∧ c.declared (d :: a :: b.regs) = true ∧ CopyReady c d wg ∧
  listed op dt o.2.1.tag o.2.2.tag = true ∧ partOk op wg part dt o.2.1.tag o.2.2.tag (b != .none) = true ∧
  Idle c.h d ∧
  Opened c.h d (((c.active wg).map (selects wg dt.width part) ++ (c.zeroed wg).map (selects wg dt.width part)).map
    (elemWord dt.width)) ∧
  OperandReady c.h o.2.1 (sourceElems c op wg o.2.1.tag.width o.2.1.tag.width part) ∧
  OperandReady c.h o.2.2 (sourceElems c op wg o.2.1.tag.width o.2.2.tag.width part) ∧
  (op = .cvt' → ScalesReady c.h (c.h.getV d) (((c.active wg).map (selects wg dt.width part)).map (elemWord dt.width)))

/-- Its result: active positions get their results in ascending order, zeroed ones 0 (R175, R176). -/
def elementResult (c : Ctx) (op : VOp) (part : Nat) (d a : VNum) (b : BSource) : Ctx :=
  let o := elementOperands c op d a b
  let wg := elementWidth c op d a b
  let r := (c.active wg).foldl (oneResult op o.1 o.2.1 o.2.2 wg part) (c.h, [])
  ({ c with h := r.1 } : Ctx).writeV d wg (r.2.reverse ++ zeroElems wg o.1.tag.width part (c.zeroed wg))

/-- Comparison, part, mask and sources of `VCMP`. -/
def compareForm : Instr → Option (VCc × Nat × KReg × VNum × BSource)
  | .vcmpEq p k a b _ _ _ => some (.eq, p.toNat, k, a, .vec b)
  | .vcmpNe p k a b _ _ _ => some (.ne, p.toNat, k, a, .vec b)
  | .vcmpLt p k a b _ _ _ => some (.lt, p.toNat, k, a, .vec b)
  | .vcmpLtu p k a b _ _ _ => some (.ltu, p.toNat, k, a, .vec b)
  | .vcmpGe p k a b _ _ _ => some (.ge, p.toNat, k, a, .vec b)
  | .vcmpGeu p k a b _ _ _ => some (.geu, p.toNat, k, a, .vec b)
  | .vcmpEqVx k a b _ _ p => some (.eq, p.toNat, k, a, .scal b)
  | .vcmpNeVx k a b _ _ p => some (.ne, p.toNat, k, a, .scal b)
  | .vcmpLtVx k a b _ _ p => some (.lt, p.toNat, k, a, .scal b)
  | .vcmpLtuVx k a b _ _ p => some (.ltu, p.toNat, k, a, .scal b)
  | .vcmpGeVx k a b _ _ p => some (.ge, p.toNat, k, a, .scal b)
  | .vcmpGeuVx k a b _ _ p => some (.geu, p.toNat, k, a, .scal b)
  | _ => none

/-- Part, destination and sources of `VSEL`. -/
def selectForm : Instr → Option (Nat × VNum × VNum × BSource)
  | .vsel p d a b _ _ _ => some (p.toNat, d, a, .vec b)
  | .vselVx d a b _ _ p => some (p.toNat, d, a, .scal b)
  | _ => none

/-- The element that `VSEL` gives position e: of va where the mask has 1, else of vb. -/
def selected (c : Ctx) (a b : Operand) (t : TypeTag) (e : Nat) : Elem :=
  let m := match c.gov with
    | some _ => c.masked e
    | none => hasBit (c.h.getK 0) e
  let o := if m then a else b
  if o.poisoned c.h e then ⟨e, t.poisonBits, true⟩ else ⟨e, o.bits e, false⟩

/-! ## Masks and reductions (R194, R195) -/

/-- Destination and bits of the instructions that write a mask below `vl`. -/
def maskForm (i : Instr) (h : Hart) : Option (KReg × (Nat → Bool)) :=
  let k (r : KReg) (e : Nat) : Bool := hasBit (h.getK r) e
  match i with
  | .kand d a b => some (d, fun e => k a e && k b e)
  | .kor d a b => some (d, fun e => k a e || k b e)
  | .kxor d a b => some (d, fun e => k a e != k b e)
  | .knot d a => some (d, fun e => !k a e)
  | .kmov d a => some (d, fun e => k a e)
  | .kset d x => some (d, fun e => decide (e < (h.getX x).toNat))
  | _ => none

/-- What `KPOP` and `KFIRST` return for the positions at which the mask is set. -/
def maskCount : Instr → List Nat → Option (XReg × KReg × Word)
  | .kpop a x, hits => some (x, a, BitVec.ofNat 64 hits.length)
  | .kfirst a x, hits => some (x, a, match hits.head? with
    | some e => BitVec.ofNat 64 e
    | none => -1)
  | _, _ => none

/-- Operation, destination, source, seed and wide form of the reductions. -/
def reduceForm : Instr → Option (RedOp × XReg × VNum × XReg × Bool)
  | .vradd d a b _ _ w => some (.add, d, a, b, w)
  | .vrmax d a b _ _ w => some (.max, d, a, b, w)
  | .vrmin d a b _ _ w => some (.min, d, a, b, w)
  | _ => none

/-- The value and the flags of a reduction of the active elements of r with a seed (R122, R195). -/
def reduced (c : Ctx) (op : RedOp) (r : VReg) (a : VNum) (seed : Word) : RedType → Word × Nat
  | .int rw sg =>
    let o := Operand.reg a r
    (reduceInt op rw sg (if sg then signed rw seed.toNat else (seed.toNat % 2 ^ rw : Nat))
      ((c.active r.tag.width).map (fun e => r.tag.int (o.bits e))), 0)
  | .float f =>
    let o := Operand.reg a r
    let t := reduceFloat op f c.h.ftz (seed.toNat % 2 ^ f.bits)
      ((c.positions r.tag.width).map (fun e => if c.masked e then some (o.value c.h e) else none))
    (BitVec.ofNat 64 t.1, t.2)

/-! ## Permutes (R209, R210) -/

/-- Destination, source, index register and choice of the permutes. -/
def permuteForm : Instr → Option (VNum × VNum × Option VNum × (Ctx → Nat → Nat → Pick))
  | .vperm d a b _ _ _ => some (d, a, some b, fun c n e =>
      let r := c.h.getV b
      if (r.word (elemWord r.tag.width e)).poison then .bad
      else if r.bits r.tag.width e < n then .elem (r.bits r.tag.width e) else .zero)
  | .vrot d a b _ _ => some (d, a, none, fun c n e => .elem ((e + (c.x b).toNat) % n))
  | .vslideup d a b _ _ => some (d, a, none, fun c _ e =>
      if (c.x b).toNat ≤ e then .elem (e - (c.x b).toNat) else .keep)
  | .vslidedn d a b _ _ => some (d, a, none, fun c n e =>
      if e + (c.x b).toNat < n then .elem (e + (c.x b).toNat) else .zero)
  | _ => none

/-- The choices of a permute at its active positions. -/
def picksOf (c : Ctx) (a : VNum) (f : Ctx → Nat → Nat → Pick) : List (Nat × Pick) :=
  let w := (c.h.getV a).tag.width
  (c.active w).map (fun e => (e, f c (min c.h.vl (c.h.capacity w)) e))

/-- The source positions that some choices name. -/
def pickedFrom (l : List (Nat × Pick)) : List Nat := l.filterMap (fun p => match p.2 with
  | .elem j => some j
  | _ => none)

/-- The positions that a permute zeroes. -/
def permuteZeroes (c : Ctx) (w : Nat) (l : List (Nat × Pick)) : List Nat :=
  c.zeroed w ++ (if c.zeroing then (l.filter (fun p => p.2 == .keep)).map (·.1) else [])

/-- The elements that a permute writes. -/
def permuted (h : Hart) (r : VReg) (l : List (Nat × Pick)) : List Elem := l.filterMap (fun p => match p.2 with
  | .elem j => some (if h.badElem r j then (⟨p.1, r.tag.poisonBits, true⟩ : Elem) else ⟨p.1, r.bits r.tag.width j, false⟩)
  | .zero => some ⟨p.1, 0, false⟩
  | .bad => some ⟨p.1, r.tag.poisonBits, true⟩
  | .keep => none)

/-- Element q of r as it arrives at position p: a poisoned one as its type's poison. -/
def movedElem (h : Hart) (r : VReg) (p q : Nat) : Elem :=
  if h.badElem r q then ⟨p, r.tag.poisonBits, true⟩ else ⟨p, r.bits r.tag.width q, false⟩

/-! ## Vector memory (R197 to R207) -/

/-- Destination, form and base of the vector loads. -/
def vloadForm : Instr → Option (VNum × VForm × XReg)
  | .vld d b _ => some (d, .unit, b)
  | .vlds d st b _ => some (d, .strided st, b)
  | .vldx d vi b _ _ => some (d, .indexed vi false, b)
  | .vldxo d vi b _ _ => some (d, .indexed vi true, b)
  | _ => none

/-- Data register, form and base of the vector stores. -/
def vstoreForm : Instr → Option (VNum × VForm × XReg)
  | .vst d b _ _ => some (d, .unit, b)
  | .vsts d st b _ _ => some (d, .strided st, b)
  | .vstx d vi b _ _ => some (d, .indexed vi false, b)
  | .vstxo d vi b _ _ => some (d, .indexed vi true, b)
  | _ => none

/-- Operation, data register, index register and base of `VUPD`. -/
def updateForm : Instr → Option (UpdOp × VNum × VNum × XReg)
  | .vupdAdd d vi b _ _ => some (.add, d, vi, b)
  | .vupdMin d vi b _ _ => some (.min, d, vi, b)
  | .vupdMax d vi b _ _ => some (.max, d, vi, b)
  | .vupdAnd d vi b _ _ => some (.and, d, vi, b)
  | .vupdOr d vi b _ _ => some (.or, d, vi, b)
  | .vupdXor d vi b _ _ => some (.xor, d, vi, b)
  | _ => none

/-- The index register of a form pairs with elements of width w, has arrived, is open and holds no poison at the active positions
(R198, R202). -/
def IndexReady (c : Ctx) (f : VForm) (w : Nat) (act : List Nat) : Prop :=
  match f with
  | .unit => True
  | .strided _ => w ≠ 4
  | .indexed vi _ =>
    let r := c.h.getV vi
    w ≠ 4 ∧ r.tag.isInt = true ∧ r.tag.width = w ∧ Arrived c.h vi act ∧ Opened c.h vi (act.map (elemWord r.tag.width)) ∧
      ∀ e ∈ act, c.h.badElem r e = false

/-- The elements of a vector access with their addresses. -/
def elementsOf (c : Ctx) (f : VForm) (w : Nat) (b : XReg) : List (Nat × Word) :=
  (c.active w).map (fun e => (e, c.elemAddress f w (c.x b) e))

/-- The elements of an access of n bytes each are aligned, translate to the touches ts with c₁ what the translations leave, and share
their attributes (R78). -/
def Touches (c : Ctx) (w : Want) (n : Nat) (es : List (Nat × Word)) (ts : List Touch) (c₁ : Ctx) : Prop :=
  (∀ e ∈ es, e.2.toNat % n = 0) ∧ translateAll (c.countMisses es) w es = .ok (ts, c₁) ∧ ∀ t ∈ ts, ∀ u ∈ ts, leafAttrs t.leaf = leafAttrs u.leaf

/-- A load of such elements may allocate cache lines (R80). -/
def mayAllocate (c : Ctx) (f : VForm) (w : Nat) (ts : List Touch) : Bool :=
  decide (footprint c f w ts ≤ c.h.footthr.toNat % 2 ^ 32)

/-- The earlier accesses of the hart that a load of some elements needs performed are performed (R85). -/
def loadMeeting (c : Ctx) (w : Nat) (ts : List Touch) : Ctx := c.drainMeeting (ts.flatMap (fun t => span t.pa (elemBytes w)))

/-- The module after a vector load that is performed at once (R79, R80, R201, R202). -/
def loadedFrom (c : Ctx) (w : Nat) (alloc : Bool) (ts : List Touch) : Ctx :=
  let c := (loadMeeting c w ts).readTouches ts alloc
  { c with s := recordPieces c.s 1 (ts.flatMap (fun t => piecesOf t.pa (elemBytes w))) }

/-- No transport and no strip of a channel is still to bring elements es of register v, or the scales of an MX one; all lie in open ways. -/
def OperandBrought (h : Hart) (v : VNum) (es : List Nat) : Prop :=
  let r := h.getV v
  let js := es.map (elemWord r.tag.width)
  Brought h v es ∧ Opened h v js ∧
    (r.tag.isMx = true → Brought h r.scale (wordElems (h.getV r.scale).tag.width (h.scaleWords r js)) ∧ Opened h r.scale (h.scaleWords r js))

/-- A vector store can send the elements act of register d: they have arrived and lie in open ways, with the scales of an MX register; or,
where its hart goes past it, some access may still be to write them, an entry of the vector queue is free, and no element is remote (R173,
R220). -/
def StoreReady (h : Hart) (d : VNum) (act : List Nat) (ts : List Touch) : Prop :=
  OperandReady h (.reg d (h.getV d)) act ∨
    h.late = true ∧ h.queued < 16 ∧ OperandBrought h d act ∧ ∀ u ∈ ts, regionOf u.pa ≠ .remote

/-- The element access of one touch of `VUPD` (R207). -/
def updatedElem (c : Ctx) (d : VNum) (op : ElemOp) (t : Touch) : ElemAccess :=
  ⟨c.h.elemSeq, t.i, t.pa, t.va, op, toBytes 4 ((c.h.getV d).bits 32 t.i), false, false, c.h.ftz, c.h.pc, []⟩

/-- Bytes of stacked DRAM or hub SRAM, in good pieces. -/
def GoodBytes (s : State) (pa n : Nat) : Prop := (∀ a ∈ span pa n, inMemory a = true) ∧ badBytes s pa n = false

/-! ## Collectives, the tile unit and small matrices -/

/-- Function code, destination, source and selector of the collectives. -/
def collectiveForm : Instr → Option (Nat × VNum × VNum × Option XReg)
  | .vshuf d a b _ _ => some (0, d, a, some b)
  | .vbcast d a b _ _ => some (1, d, a, some b)
  | .vallredAdd d a _ _ => some (2, d, a, none)
  | .vallredMax d a _ _ => some (3, d, a, none)
  | .vallredMin d a _ _ => some (4, d, a, none)
  | _ => none

/-- The hart after the retirement of a collective with results es for vd and the flags that they raise: their lane words are on their way
(R119, R216). -/
def transported (h : Hart) (d a : VNum) (es : List Elem) (flags : Nat) : Hart :=
  let r := h.getV d
  let h := h.raise flags
  let items : AMap LaneWord := (gather r.tag.width es).map (fun x => (x.1, (r.word x.1).write x.2))
  if items = [] then h
  else { h.setV d { r with invalid := items.foldl (fun g x => putBit g (h.wordGroup x.1) true) r.invalid } with
    transport := some ⟨d, a, items⟩ }

/-- The hart holds a tile slot, its vector length is not 0, and the registers are declared (R221, R62). -/
def TileHolds (c : Ctx) (rs : List VNum) : Prop :=
  c.h.tileHeld = true ∧ c.header.tile = 1 ∧ c.h.lanes % 32 = 0 ∧ c.declared rs = true ∧ c.h.vl ≠ 0

/-- The vector registers of the tile instructions. -/
def tileForm : Instr → Option (List VNum)
  | .tcfg _ | .tzero _ | .trel => some []
  | .tld v _ | .tmul v _ | .trd v _ | .tacc v _ => some [v]
  | .tmuls d v _ => some [d, v]
  | _ => none

/-- A tile load that is under way is of cells, and not of the rows that an instruction reads. -/
def RowsArrived (h : Hart) (reads : Nat → Bool) : Prop :=
  ∀ t, h.tileLoad = some t → t.scales = false ∧ ∀ e ∈ t.items, reads (e.1 / 128 % 256) = false

/-- The hart has lanes and small-matrix registers (R129, R236). -/
def HasMatrices (c : Ctx) : Prop := c.h.lanes ≠ 0 ∧ c.header.smat = 1

/-- Register md takes a shape, and in every lane a matrix; the flags of the entries are raised. -/
def matPut (c : Ctx) (d : MReg) (sh : MatShape) (f : Nat → Mat) : Ctx :=
  let rs := c.h.laneList.map (fun l => (l, f l))
  let h := rs.foldl (fun h r => h.putMat r.1 d r.2) (c.h.setShape d sh)
  { c with h := h.raise (rs.foldl (fun fl r => fl ||| r.2.flags) 0) }

/-- Destination, condition on the shapes, shape and matrix of the small-matrix instructions whose result depends on registers alone
(R238, R241, R123). -/
def matrixForm (i : Instr) (c : Ctx) : Option (MReg × Bool × MatShape × (Nat → Mat)) :=
  let sh := c.h.shape
  let get (l : Nat) (m : MReg) : Mat := c.h.getMat l m
  let z := c.h.ftz
  match i with
  | .mid d => some (d, true, general (sh d).rows (sh d).cols, fun _ =>
      Mat.of (sh d).rows (sh d).cols (fun i j => ⟨if i = j then 0x3F800000 else 0, 0⟩))
  | .madd d a b => some (d, decide ((sh a).rows = (sh b).rows ∧ (sh a).cols = (sh b).cols), general (sh a).rows (sh a).cols,
      fun l => Mat.of (sh a).rows (sh a).cols (fun i j => ((get l a).at i j).add z ((get l b).at i j)))
  | .mscal d a x => some (d, true, general (sh a).rows (sh a).cols, fun l =>
      Mat.of (sh a).rows (sh a).cols (fun i j => ((get l a).at i j).mul z ⟨(c.h.getX x).toNat % 2 ^ 32, 0⟩))
  | .mtrn d a => some (d, true, general (sh a).cols (sh a).rows, fun l =>
      Mat.of (sh a).cols (sh a).rows (fun i j => (get l a).at j i))
  | .mmul d a b => some (d, (sh a).cols == (sh b).rows, general (sh a).rows (sh b).cols, fun l =>
      Mat.of (sh a).rows (sh b).cols (fun i j => chain z (get l a) (get l b) (sh a).cols i j ⟨0, 0⟩))
  | .mmac d a b => some (d, decide ((sh a).cols = (sh b).rows ∧ (sh d).rows = (sh a).rows ∧ (sh d).cols = (sh b).cols),
      general (sh a).rows (sh b).cols, fun l =>
        Mat.of (sh a).rows (sh b).cols (fun i j => chain z (get l a) (get l b) (sh a).cols i j ((get l d).at i j)))
  | .msolv d a b => some (d, (sh a).form != .general && (sh a).rows == (sh a).cols && (sh a).cols == (sh b).rows,
      general (sh a).rows (sh b).cols, fun l =>
        let cols := (List.range (sh b).cols).map (fun j => solveColumn z (sh a).rows ((sh a).form == .cholesky) (get l a)
          (look c.h.perm (l * 4 + a.toNat) []) (fun i => (get l b).at i j))
        Mat.of (sh a).rows (sh b).cols (fun i j => (cols.getD j []).getD i ⟨0, 0⟩))
  | _ => none

/-- The small-matrix instructions that sum through the accumulation path, beside the factorisations (R232). -/
def sums : Instr → Bool
  | .madd .. | .mmul .. | .mmac .. | .msolv .. => true
  | _ => false

/-- Destination, source, form, entries read and factorisation of `MCHOL` and `MLU` (R239, R240). -/
def factorForm : Instr → Option (MReg × MReg × MatForm × (Nat → Nat → Bool) × (Bool → Nat → Nat → Mat → Factor))
  | .mchol d a => some (d, a, .cholesky, fun i j => decide (j ≤ i), cholesky)
  | .mlu d a => some (d, a, .lu, fun _ _ => true, luFactor)
  | _ => none

end Sys2Proof.Machine
end

