-- ==== Sys2Proof/Certificates/Slice0/Obligations.lean ====
section
/-! DEFINITION. Certificates/Slice0/Obligations.lean: the statements about the model. Each names the rules of the spec that it formalises;
where it rests on a choice of the model it names the log entry. -/

open Sys2Proof Sys2Proof.Machine

/-! ## Encoding, decoding and fetch -/

/-- R126 to R139: every well-formed instruction with a word decodes from it, with every operand. -/
def Obligations.DecodeOfEncode : Prop :=
  ∀ (i : Instr) (w : Nat), i.wf = true → encode i = some w → w < 2 ^ 32 ∧ decode w = .ok i

/-- R127, R139: a word that decodes stands for a well-formed instruction and is the only word that does; so every reserved field of it
is 0. -/
def Obligations.EncodeOfDecode : Prop :=
  ∀ (i : Instr) (w : Nat), w < 2 ^ 32 → decode w = .ok i → i.wf = true ∧ encode i = some w

/-- R127, R128 and the encodings of the chapters: words that the spec writes out, each decoding to the instruction it stands for, and
the all-zero word, which is unassigned (R139). -/
def Obligations.DecodeWords : Prop :=
  decode 0x04C74000 = .ok (.add 6 7 8) ∧ decode 0x51229FF8 = .ok (.ldw 9 2 0x1FF8) ∧
  decode 0x49FFFFFB = .ok (.bp 3 true 0x3FFFFB) ∧ decode 0x58C74250 = .ok (.amoadd 6 7 8 2 1 true) ∧
  decode 0x60C4A000 = .ok (.act 12 9 2) ∧ decode 0x69500000 = .ok (.pfx 2 true false true 0 false) ∧
  decode 0x743149A4 = .ok (.vmad 1 3 5 9 true false true) ∧ decode 0xB0424F03 = .ok (.vldxo 4 9 7 true false) ∧
  decode 0xD0310C03 = .ok (.tmuls 3 4 6) ∧ decode 0xE2700009 = .ok (.msolv 2 1 3) ∧
  decode 0xF0CA0308 = .ok (.strip 6 10 3) ∧ decode 0xF8002000 = .ok .rft ∧ decode 0 = .error (.unassignedMajor 0)

/-- R126, R293, R70: at an instruction boundary at which no asynchronous cause is due, a step of the hart picked, for the instruction at its
pc and not for the first of its vector queue, executes the instruction that its fetch finds there; the pc moves on inside that execution
(R159). The fetch gives the word that stands there in its kernel's code or, where a store has since changed that word in memory, that word
or the new one; it changes nothing of the module but the count of free values. -/
def Obligations.StepRunsDecoded : Prop :=
  ∀ (s s' : State) (id : Nat) (h : Hart) (b0 b1 b2 b3 : Byte) (i : Instr),
    s.powered = true → s.stage = 15 → s.cur = some id → s.hart? id = some h → h.atHead = false → atBoundary s id h = true →
    deliverDue s id h = none → fetch s h = (s', some [b0, b1, b2, b3]) → decodeBytes b0 b1 b2 b3 = .ok i →
    step s = exec i s' ∧ { s' with free := s.free } = s ∧
      (fetchWord s h = some [b0, b1, b2, b3] ∨ storedWord s h = some [b0, b1, b2, b3])

/-- R139, R301: a word that decodes to no instruction raises `ILLEGAL`, once every earlier instruction of its hart has retired: it changes no
state but what delivery itself changes, with the pc at the word and `TRAPINFO` the word. -/
def Obligations.UndecodedWordIllegal : Prop :=
  ∀ (s s' : State) (id : Nat) (h : Hart) (b0 b1 b2 b3 : Byte) (e : DecodeError),
    s.powered = true → s.stage = 15 → s.cur = some id → s.hart? id = some h → h.atHead = false → atBoundary s id h = true →
    h.dbg = none → deliverDue s id h = none → fetch s h = (s', some [b0, b1, b2, b3]) → decodeBytes b0 b1 b2 b3 = .error e →
    let w := BitVec.ofNat 64 (b0.toNat + 256 * b1.toNat + 65536 * b2.toNat + 16777216 * b3.toNat)
    step s = .next (trapped s' id h (startCtx s' id h w) .illegal w)

/-! ## Reset and invariants -/

/-- R362, R276, R311, R312, R305, R360, R341, R10: what the machine holds right after bring-up, as the spec gives it. Memory of
stacked DRAM reads 0, and so does the hub SRAM, whose contents after reset are the model's choice (log 2); no hart, task or partition exists; every queue is disabled; the accounts, owners and error records are 0; the power
words have their reset values. -/
def Obligations.ResetState : Prop :=
  State.reset.powered = true ∧ State.reset.stage = 15 ∧ (∀ a, readByte State.reset.mem a = 0) ∧
  (∀ n, State.reset.hart? n = none ∧ State.reset.task? n = none ∧ find? State.reset.partitions n = none) ∧
  (∀ q, (State.reset.queue q).state = 0) ∧
  (∀ c, (State.reset.col c).debt = 0 ∧ (State.reset.col c).refowner = 0 ∧ (State.reset.col c).errcol = 0 ∧
    (State.reset.col c).forced = 0) ∧
  (∀ k, (State.reset.stk k).resWin = 48 ∧ (State.reset.stk k).maxWin = 192 ∧ (State.reset.stk k).cap = 0) ∧
  State.reset.modcap = 1800 ∧ (∀ n, ((look State.reset.targets n {}).w0).getLsbD 63 = false)

/-- Memory is in its canonical form right after reset: addresses rise strictly and no listed byte is 0 (the model's own form of
memory). -/
def Obligations.ResetMemory : Prop := Memory.wf State.reset.mem = true

/-- Every step keeps memory in its canonical form (the model's own form of memory: equal memories are equal lists). -/
def Obligations.StepKeepsMemory : Prop :=
  ∀ s t : State, Memory.wf s.mem = true → step s = .next t → Memory.wf t.mem = true

/-- R34, R149: `x0` reads 0 and `p0` reads true whatever they hold; a write to either is discarded; every other register reads as it
was written, and no write changes another register. -/
def Obligations.RegisterReadWrite : Prop :=
  ∀ (h : Hart) (r q : XReg) (v : Word) (a b : PReg) (w : Bool),
    h.getX 0 = 0 ∧ h.getP 0 = true ∧ h.setX 0 v = h ∧ h.setP 0 w = h ∧
    (h.setX r v).getX q = (if q = r ∧ r ≠ 0 then v else h.getX q) ∧
    (h.setP a w).getP b = (if b = a ∧ a ≠ 0 then w else h.getP b) ∧
    { h.setX r v with x := h.x } = h ∧ { h.setP a w with p := h.p } = h

/-! ## Scalar instructions -/

/-- R152, R153, R154: the integer instructions write their result to xd and complete, in any state in which they issue. -/
def Obligations.IntegerCompletes : Prop :=
  ∀ (s : State) (id : Nat) (h : Hart) (i : Instr) (d : XReg) (v : Word),
    Issues s id h i → intResult i h = some (d, v) → Completes i s h ((begun s id h i).setX d v)

/-- R155, R156, R166: compares and predicate operations write their result to pd and complete. -/
def Obligations.PredicateCompletes : Prop :=
  ∀ (s : State) (id : Nat) (h : Hart) (i : Instr) (d : PReg) (v : Bool),
    Issues s id h i → predResult i h = some (d, v) → Completes i s h ((begun s id h i).setP d v)

/-- R164, R165, R167, R118: the scalar floating instructions write their result to xd, raise its flags and complete. -/
def Obligations.FloatCompletes : Prop :=
  ∀ (s : State) (id : Nat) (h : Hart) (i : Instr) (d : XReg) (v : Word) (f : Nat),
    Issues s id h i → floatResult i h = some (d, v, f) →
    Completes i s h (({ begun s id h i with h := (begun s id h i).h.raise f } : Ctx).setX d v)

/-- R34, R172: the frame of the integer, predicate and scalar floating instructions, without debug: when one answers a next state, every
byte of memory and every other field of the module but `harts` and `cur` is as before, no other hart changes, and of its own hart nothing
changes but its destination register, for a floating instruction `FPFLAGS`, and what issue and retirement move on: the pc, the loop
stack, `INSTRET`, the pending prefix, and the marks of a wait or a trap. -/
def Obligations.ScalarFrame : Prop :=
  ∀ (s t : State) (id : Nat) (h : Hart) (i : Instr),
    Issues s id h i → Undebugged h →
    ((intResult i h).isSome = true ∨ (predResult i h).isSome = true ∨ (floatResult i h).isSome = true) →
    exec i s = .next t →
    (∀ a, readByte t.mem a = readByte s.mem a) ∧ { t with harts := s.harts, cur := s.cur } = s ∧
    (∀ n, n ≠ id → t.hart? n = s.hart? n) ∧
    ∃ g, t.hart? id = some g ∧
      (∀ r, (∀ v, intResult i h ≠ some (r, v)) → (∀ v f, floatResult i h ≠ some (r, v, f)) → g.getX r = h.getX r) ∧
      (∀ p, (∀ v, predResult i h ≠ some (p, v)) → g.getP p = h.getP p) ∧
      (floatResult i h = none → g.fpflags = h.fpflags) ∧
      { g with
        x := h.x, p := h.p, fpflags := h.fpflags, pc := h.pc, loops := h.loops, instret := h.instret, pfx := h.pfx, wait := h.wait
        waitFrom := h.waitFrom, named := h.named, refDone := h.refDone, exempt := h.exempt, issueAt := h.issueAt, stalls := h.stalls
        tlbMissed := h.tlbMissed } = h

/-- R157, R158, R160: away from the innermost loop's end address, a `BP` that is not taken only retires; a taken one leaves the loops
whose body holds it and not its target, and goes to pc + sext(offset) × 4; `JAL` and `JALR` write xd := pc + 4 and go to their target, which
for `JALR` is computed before the write and must be a multiple of 4. -/
def Obligations.TransferCompletes : Prop :=
  ∀ (s : State) (id : Nat) (h : Hart), OffLoopEnd h →
    (∀ (p : PReg) (neg : Bool) (off : BitVec 22), Issues s id h (.bp p neg off) → h.getP p = neg →
      Completes (.bp p neg off) s h (begun s id h (.bp p neg off))) ∧
    (∀ (p : PReg) (neg : Bool) (off : BitVec 22), Issues s id h (.bp p neg off) → h.getP p ≠ neg →
      let c := begun s id h (.bp p neg off)
      let target := h.pc + off.signExtend 64 <<< 2
      Completes (.bp p neg off) s h
        (({ c with h := { c.h with loops := breakOut h.pc target h.loops } } : Ctx).transfer target)) ∧
    (∀ (d : XReg) (imm : BitVec 14), Issues s id h (.jal d imm) →
      Completes (.jal d imm) s h (((begun s id h (.jal d imm)).setX d (h.pc + 4)).transfer (h.pc + imm.signExtend 64 <<< 2))) ∧
    (∀ (d a : XReg) (imm : BitVec 14), Issues s id h (.jalr d a imm) →
      let target := h.getX a + imm.signExtend 64 <<< 2
      target.toNat % 4 = 0 →
      Completes (.jalr d a imm) s h (((begun s id h (.jalr d a imm)).setX d (h.pc + 4)).transfer target))

/-- R159, R160: `LOOP` with a count other than 0 pushes its body with the count read once; with count 0 it goes past the body. It needs a
free entry, and a body that does not overlap the innermost one without lying strictly inside it. -/
def Obligations.LoopCompletes : Prop :=
  ∀ (s : State) (id : Nat) (h : Hart) (a : XReg) (imm : BitVec 14),
    let i := Instr.loop a imm
    let c := begun s id h i
    let start : Word := h.pc + 4
    let last : Word := start + (imm.setWidth 64 : Word) <<< 2
    Issues s id h i → OffLoopEnd h → h.loops.length < 4 → overlaps start last h.loops = false →
    (h.getX a = 0 → Completes i s h (c.jump (last + 4))) ∧
    (h.getX a ≠ 0 → Completes i s h { c with h := { c.h with loops := ⟨start, last, h.getX a⟩ :: h.loops } })

/-- R159, R172, R174, R220: without debug, retirement leaves the results that the instruction found, counts it in `INSTRET`, and moves the pc
to the target of a transfer; else, at the innermost loop's end address, back to the body's start with one repetition less, or past the
body with the entry popped; else to the next word. Nothing else of the module changes but that no hart is picked. A result that retires in
a step of its own is held apart until then (log 6). A vector instruction that its hart goes past leaves its results too, and an entry of the
vector queue, which counts it in `INSTRET` when it retires (log 6). -/
def Obligations.RetirementMovesOn : Prop :=
  ∀ (i : Instr) (h0 : Hart) (c : Ctx),
    let next := if c.taken then (c.npc, c.h.loops)
      else match c.h.loops with
        | [] => (c.h.pc + 4, [])
        | e :: rest =>
          if c.h.pc ≠ e.last then (c.h.pc + 4, e :: rest)
          else if e.remaining = 1 then (e.last + 4, rest)
          else (e.start, { e with remaining := e.remaining - 1 } :: rest)
    (outruns i h0 c = false → c.h.ctl = 0 → c.todo = [] →
      retire i h0 c = settleHart i h0 { c.s with cur := none } c.id (c.h.after i next)) ∧
    (outruns i h0 c = true → ∃ g, retire i h0 c = { c.s.setHart c.id g with cur := none } ∧ (g.pc, g.loops) = next ∧
      g.retired = c.h.retired ∧ (∃ q, g.vqueue = c.h.vqueue ++ [q] ∧ q.pc = c.h.pc ∧ q.done = true) ∧
      g.x = c.h.x ∧ g.p = c.h.p ∧ g.k = c.h.k ∧ g.v = c.h.v ∧ g.elems = c.h.elems ∧ g.fpflags = c.h.fpflags ∧ g.vl = c.h.vl)

/-- R161, R162, R69, R163: a scalar load of n bytes from an address that is a multiple of n. In the hart's share of the TCM window it
reads the bank. Elsewhere, where translation for reading gives pa in stacked DRAM or hub SRAM and the bytes are good, it returns, byte by
byte, the latest buffered store of the hart, else memory; the page is not a RECORD page, or the film is off. -/
def Obligations.LoadCompletes : Prop :=
  ∀ (s : State) (id : Nat) (h : Hart) (i : Instr) (d a : XReg) (imm : BitVec 13) (n : Nat) (sg : Bool),
    loadForm i = some (d, a, imm, n, sg) → Issues s id h i →
    let va := scalarAddress h a imm
    let c := begun s id h i
    va.toNat % n = 0 →
    (InShare s h va n →
      Completes i s h (c.setX d (extendLoad n sg (ofBytes ((span (va.toNat - 0xFFFFFFFF0000) n).map h.tcmByte))))) ∧
    (∀ (s' : State) (pa leaf : Nat), inTcm va.toNat = false →
      hartTranslate s h ⟨true, false, false⟩ va.toNat = (s', .ok (pa, leaf)) →
      (leafRec leaf = false ∨ h.filmMode = 0) → GoodBytes s' pa n →
      Completes i s h ((loadAccess s' id pa leaf c).setX d
        (extendLoad n sg (ofBytes ((span pa n).map (loadByteBuffered s h))))))

/-- R161, R163, R69: a scalar store of n bytes to an address that is a multiple of n puts the low n bytes of its register into the TCM bank,
or, where translation for writing gives pa, into the hart's store buffer. -/
def Obligations.StoreCompletes : Prop :=
  ∀ (s : State) (id : Nat) (h : Hart) (i : Instr) (r a : XReg) (imm : BitVec 13) (n : Nat),
    storeForm i = some (r, a, imm, n) → Issues s id h i →
    let va := scalarAddress h a imm
    let c := begun s id h i
    let data := toBytes n (h.getX r).toNat
    va.toNat % n = 0 →
    (InShare s h va n →
      Completes i s h { c with h := { c.h with tcm := putAll h.tcm ((span (va.toNat - 0xFFFFFFFF0000) n).zip data) } }) ∧
    (∀ (s' : State) (pa leaf : Nat), inTcm va.toNat = false →
      hartTranslate s h ⟨false, true, false⟩ va.toNat = (s', .ok (pa, leaf)) →
      Completes i s h (({ c with s := s' } : Ctx).bufferStore ⟨pa, data⟩))

/-- R162, R301: a scalar load or store whose address is not a multiple of its size raises `ALIGN` with the address in `TRAPINFO`, once every
earlier instruction of its hart has retired, and changes nothing else. -/
def Obligations.MisalignedAccessTraps : Prop :=
  ∀ (s : State) (id : Nat) (h : Hart) (i : Instr) (r a : XReg) (imm : BitVec 13) (n : Nat) (sg : Bool),
    (loadForm i = some (r, a, imm, n, sg) ∨ storeForm i = some (r, a, imm, n)) → Issues s id h i →
    (scalarAddress h a imm).toNat % n ≠ 0 → Traps i s id h .align (scalarAddress h a imm)

/-- R163, R364: a buffered store that no earlier one to a common byte precedes is performed: memory holds its bytes at its addresses, every
other byte of memory reads as before, the store leaves the buffer, and no other hart changes. Its bytes, at most 8, lie in memory, in good
pieces. -/
def Obligations.BufferedStorePerforms : Prop :=
  ∀ (s : State) (id n : Nat) (h : Hart) (b : BufStore),
    Memory.wf s.mem = true → s.hart? id = some h → h.stores[n]? = some b →
    (∀ e ∈ h.stores.take n, e.touches b.pa b.data.length = false) → GoodBytes s b.pa b.data.length →
    b.data ≠ [] → b.data.length ≤ 8 →
    ∃ t, exec (.storeBufferPerform id n) s = .next t ∧
      (∀ k, k < b.data.length → readByte t.mem (b.pa + k) = b.data.getD k 0) ∧
      (∀ a, a < b.pa ∨ b.pa + b.data.length ≤ a → readByte t.mem a = readByte s.mem a) ∧
      t.hart? id = some { h with stores := h.stores.eraseIdx n } ∧
      (∀ m, m ≠ id → t.hart? m = s.hart? m)

/-- R168, R169, R162, R201: an atomic at an aligned place that may be read and written, in good pieces, with the film off: the buffered stores
that it waits for are performed, the place is read, m′ is written at its home where the operation writes, with no second activation of a
way-row that the read has activated, and xd gets the old value. (A fetch-and-add of a queue's claim field takes positions instead, R276.) -/
def Obligations.AtomicCompletes : Prop :=
  ∀ (s : State) (id : Nat) (h : Hart) (i : Instr) (op : AmoOp) (d a b : XReg) (ord : BitVec 2) (dw : Bool)
    (p : Place) (c₁ c₂ : Ctx) (m : Nat),
    amoForm i = some (op, d, a, b, ord, dw) → Issues s id h i → h.filmMode = 0 →
    let n := if dw then 8 else 4
    let va := h.getX a
    let old := if dw ∨ op = .minu ∨ op = .maxu then BitVec.ofNat 64 m else sextWord 32 m
    place (begun s id h i) va n ⟨true, true, false⟩ = .ok (p, c₁) →
    readPlace (amoOrdered c₁ ord n p) va n p = .ok (m, c₂) →
    (∀ pa leaf, p = .mem pa leaf → inMemory pa = true ∧ badBytes (amoOrdered c₁ ord n p).s pa n = false) →
    Completes i s h ((match amoNew op (8 * n) m ((h.getX b).toNat % 2 ^ (8 * n)) ((h.getX d).toNat % 2 ^ (8 * n)) with
      | some m' => amoWrite c₂ (readRows (amoOrdered c₁ ord n p).s p) n m' p
      | none => c₂).setX d old)

/-- R170, R217, R218, R171, R275: `NOP` only retires; `FENCE` with release, and `SVFENCE`, perform every buffered store of the hart first,
`FENCE` without release none; `VDRAIN` performs every element write that the hart has sent, and at scope 4 it completes when no remote
write of the hart is outstanding; `MARK` leaves a trace frame of its code for its retirement. -/
def Obligations.OrderingCompletes : Prop :=
  ∀ (s : State) (id : Nat) (h : Hart),
    (Issues s id h .nop → Completes .nop s h (begun s id h .nop)) ∧
    (∀ sc ord, Issues s id h (.fence sc ord) → Completes (.fence sc ord) s h
      (if 2 ≤ ord.toNat then (begun s id h (.fence sc ord)).drainStores else begun s id h (.fence sc ord))) ∧
    (Issues s id h .svfence → Completes .svfence s h (begun s id h .svfence).drainStores) ∧
    (∀ sc, Issues s id h (.vdrain sc) →
      (sc.toNat = 4 → ∀ e ∈ (begun s id h (.vdrain sc)).drainElems.s.outstanding, e.2.hart = id → e.2.load = true) →
      Completes (.vdrain sc) s h (begun s id h (.vdrain sc)).drainElems) ∧
    (∀ code, Issues s id h (.mark code) → Completes (.mark code) s h ((begun s id h (.mark code)).later (.frame 4 code.toNat)))

/-- R141, R142, R171, R140, R297, R312: `SRD` returns the value of the system register, for every number (for `CYCLE`, with the film off).
`SWR` of a register that the mode may write has its effect; in task mode a register that task mode may not write raises `PRIV` with the
word, and a reserved rounding mode in `FPMODE` raises `ILLEGAL` with the value (R108; that the value is refused, and stands in `TRAPINFO`,
is the model's reading, log 13). `INSTRET` counts the instructions that have retired (R172). An access of `FPMODE` or `FPFLAGS` waits at its pc until every earlier
instruction has retired (R109, R119). Without debug: after `SRD` xd holds the register's
value, and after `SWR` the register reads as its written fields leave it, no general register and no byte of memory being changed by
either; `REFOWNER` names the hart in every column of its partition, or is cleared in those where the hart was the owner. -/
def Obligations.SystemRegistersComplete : Prop :=
  ∀ (s : State) (id : Nat) (h : Hart) (x : XReg) (r : BitVec 12),
    (Issues s id h (.srd x r) → afterRetirement r.toNat = true → h.caughtUp = false → exec (.srd x r) s = .next (holdBack s id h)) ∧
    (Issues s id h (.srd x r) → (r = 0x010 → h.filmMode = 0) → (afterRetirement r.toNat = true → h.caughtUp = true) →
      Completes (.srd x r) s h ((begun s id h (.srd x r)).setX x (sysRead s h r.toNat)) ∧
      (Undebugged h → ∃ t g, exec (.srd x r) s = .next t ∧ t.hart? id = some g ∧ (x ≠ 0 → g.getX x = sysRead s h r.toNat) ∧
        (∀ q, q ≠ x → g.getX q = h.getX q) ∧ t.mem = s.mem ∧ ∀ n, n ≠ id → t.hart? n = s.hart? n)) ∧
    (Issues s id h (.swr x r) →
      (r = 0x030 → 4 < (h.getX x).toNat % 8 → Traps (.swr x r) s id h .illegal (h.getX x)) ∧
      (h.mode = .task → taskWritable r.toNat = false → Traps (.swr x r) s id h .priv (Instr.swr x r).word) ∧
      (afterRetirement r.toNat = true → h.caughtUp = false → (r = 0x030 → (h.getX x).toNat % 8 ≤ 4) →
        (h.mode = .steward ∨ taskWritable r.toNat = true) → exec (.swr x r) s = .next (holdBack s id h)) ∧
      ((afterRetirement r.toNat = true → h.caughtUp = true) → (r = 0x030 → (h.getX x).toNat % 8 ≤ 4) →
        (h.mode = .steward ∨ taskWritable r.toNat = true) →
        Completes (.swr x r) s h (sysWrite (begun s id h (.swr x r)) r.toNat (h.getX x)) ∧
        (Undebugged h → ∃ t g, exec (.swr x r) s = .next t ∧ t.hart? id = some g ∧ (∀ q, g.getX q = h.getX q) ∧ t.mem = s.mem ∧
          (∀ n, n ≠ id → t.hart? n = s.hart? n) ∧
          (∀ w, written r.toNat (sysRead s h r.toNat) (h.getX x) = some w → sysRead t g r.toNat = w) ∧
          (r = 0x061 → h.mode = .task →
            (∀ c, c ∉ h.columns → (t.col c).refowner = (s.col c).refowner) ∧
            (∀ c ∈ h.columns, (t.col c).refowner =
              if (h.getX x).getLsbD 8 then BitVec.ofNat 64 (256 + h.ctx)
              else if (s.col c).owner = some id then 0 else (s.col c).refowner)))))

/-- R109, R118, R119, R235, R312, R305, R360, R108, R297: the accesses of system registers as steps, for a hart whose earlier instructions have
all retired: `FPMODE` takes the value with its reserved bits 0 and the generators their seeds, and a value with a reserved rounding mode
raises `ILLEGAL` with the value in `TRAPINFO` (the model's reading, log 13); `FPFLAGS` and `MSTAT` are read into xd or
written; V of `REFOWNER` is written in each column of the hart's partition; the steward clears an error record; the module cap is
limited to 900 to 1800. -/
def Obligations.RegisterStepsComplete : Prop :=
  ∀ (s : State) (id : Nat) (h : Hart), s.hart? id = some h → find? s.shadows id = none → h.caughtUp = true →
    (∀ v : Word, v.toNat % 8 ≤ 4 → exec (.fpmodeWrite id v) s =
      .next (s.setHart id { h with fpmode := v &&& 0xFFFFFFFF0000000F, rnd := [] })) ∧
    (∀ v : Word, 4 < v.toNat % 8 → exec (.fpmodeWrite id v) s = .next (deliver s id h .illegal h.pc v)) ∧
    (∀ d, exec (.fpflagsRead id d) s = .next (s.setHart id (h.setX d h.fpflags))) ∧
    (∀ v : Word, exec (.fpflagsWrite id v) s = .next (s.setHart id { h with fpflags := v &&& 0x1F })) ∧
    (∀ d, exec (.mstatAccess id d none) s = .next (s.setHart id (h.setX d h.mstat))) ∧
    (∀ d v, exec (.mstatAccess id d (some v)) s = .next (s.setHart id { h with
      mstat := (v &&& 0xFFFFFFFF00000000) ||| (h.mstat &&& 0x7 &&& ~~~v) })) ∧
    (∀ v, exec (.refownerWrite id v) s = .next (writeOwner s id h v)) ∧
    (∀ c, c < 4096 → exec (.errcolClear c) s = .next (s.modCol c (fun k => { k with errcol := 0 }))) ∧
    (∀ v : BitVec 16, exec (.modcapWrite v) s = .next { s with modcap := min 1800 (max 900 v.toNat) })

/-! ## Row instructions and configuration -/

/-- R182, R183, R35, R180, R85, R220: `ACT` and `ACTS` of n ways (n = 0: all) of a declared register that no transport, tile load or channel
uses, whose row address translates to pa: the close of the register's open ways and the activation of the ways are asked of every column of
the partition, and the register's ways are open with the lane words of the image, poisoned where their pieces are bad; the earlier accesses
with a byte in common are performed before. `ACTS` needs every piece good. Where its hart goes past it (log 6), with an entry of the vector
queue free, `ACT` sends the accesses that bring the lane words; else nothing under way may use the register. The film is off, or the page is
no RECORD page. -/
def Obligations.RowOpenCompletes : Prop :=
  ∀ (s : State) (id : Nat) (h : Hart) (sure : Bool) (v : VNum) (a : XReg) (n : BitVec 3) (pa leaf : Nat),
    let i := if sure then Instr.acts v a n else .act v a n
    let c := begun s id h i
    let ways := if n = 0 then h.wayCount else n.toNat
    let js := c.h.wordsIn (2 ^ ways - 1)
    let start (c : Ctx) : Ctx := { c with s := activateWays (closeWays c.s c.id c.h v) c.id c.h v.toNat (rowOf pa) ways }
    let opened (c : Ctx) (ws : AMap LaneWord) (g : Nat) : Ctx :=
      ({ c with h := c.h.setV v { c.h.getV v with openWays := 2 ^ ways - 1, image := pa, words := ws, invalid := g } } : Ctx).later
        (rowSample c.h pa js (ways * c.h.cols))
    Issues s id h i → c.declared [v] = true → (n.toNat < h.wayCount ∨ n = 0) → Changeable c.h v →
    translateRow c (h.getX a) (some v) true false = .ok (pa, leaf) →
    (h.late = true → sure = false → h.queued < 16 →
      Completes i s h ((opened (start c) (h.leftWords v) 0).sendElems (openAccesses (start c) v (h.getX a) pa js))) ∧
    ((h.late = false ∨ sure = true) → h.engages v = false → (leafRec leaf = false ∨ h.filmMode = 0) →
      let c₁ := start (c.drainMeeting (js.map (fun j => pa + c.h.wordOffset j)))
      let s₂ := recordPieces c₁.s 0 (js.map (fun j => pieceOf (pa + c₁.h.wordOffset j)))
      (sure = true → ∀ j ∈ js, badByte s₂ (pa + c₁.h.wordOffset j) = false) →
      Completes i s h (opened { c₁ with s := s₂ } (js.map (fun j => (j, readLaneWord s₂ (pa + c₁.h.wordOffset j))))
        (pendingGroups c₁.h js)))

/-- R184, R364, R85, R220, R179: `WB` writes the lane words of the open ways of a register, and `WBK` those that hold a position active under
its mask and `vl`, all open, to the image at pa, piece by piece, after the earlier accesses with a byte in common; an uncorrectable piece
that they cover in part is recorded; the register stays open, and the write is asked of its open ways. Where its hart goes past it (log 6),
with an entry of the vector queue free, it sends the accesses that write them, or, where something is still to write the register, that take
them from it. -/
def Obligations.WriteBackCompletes : Prop :=
  ∀ (s : State) (id : Nat) (h : Hart) (i : Instr) (v : VNum) (a : XReg) (js : List Nat) (pa leaf : Nat),
    let c := begun s id h i
    let r := h.getV v
    let w := r.tag.width
    (i = .wb v a ∧ js = c.h.wordsIn r.openWays ∨
      ∃ k, i = .wbk v a k ∧ js = distinct (((c.positions w).filter (hasBit (h.getK k))).map (elemWord w)) ∧ Opened c.h v js) →
    Issues s id h i → c.declared [v] = true → Brought c.h v (wordElems w js) →
    translateRow c (h.getX a) (some v) false true = .ok (pa, leaf) → r.openWays ≠ 0 →
    let busy (c : Ctx) : Ctx := ({ c with s := askWays c.s c.id c.h (c.h.openWays v) .write } : Ctx).later (rowSample c.h pa js 0)
    (h.late = true → h.queued < 16 →
      Completes i s h ((busy c).sendElems
        (if h.awaits v then backLater c v (h.getX a) pa js else backAccesses c v (h.getX a) pa js))) ∧
    (h.late = false → Filled h v →
      let pas := js.map (fun j => pa + h.wordOffset j)
      let c₁ := c.drainMeeting pas
      let ws := js.map (fun j => (pa + h.wordOffset j, r.word j))
      Completes i s h (busy { c₁ with s := dropLines (writeWords (recordPieces c₁.s 0 (partWords ws)) ws) pas }))

/-- R185, R186, R187: `PRE` closes a register that no transport, tile load or channel uses and `PREALL` every declared one, their contents
lost, and asks the close of their ways; `REF n`, 1 ≤ n, asks for a row-set in each column of the partition at each issue, with fewer than n
done, and completes with the n-th (one row-set an issue is the model's reading, log 41); `REFN` asks for the refresh of the neighbours of the
row in each column. Without debug: after `PRE` the register has no open way, its old tag and, unless an access is still to take them, no lane
words, and no other register is changed; after `PREALL` no declared register has an open way, and every tag stays; after an issue of `REF`,
and after `REFN`, the last request of each column of the partition is for that row-set or that row, and no other column is changed. None of
them changes a general register or a byte of memory. What the columns then grant, and when, `SequencerStepsComplete` says. -/
def Obligations.RowControlCompletes : Prop :=
  ∀ (s : State) (id : Nat) (h : Hart),
    let kept (t : State) (g : Hart) : Prop := t.hart? id = some g ∧ t.mem = s.mem ∧ ∀ q, g.getX q = h.getX q
    let asked (t : State) (r : Column → WayRequest) : Prop :=
      (∀ k ∈ h.columns, t.col k = { s.col k with requests := (s.col k).requests ++ [r (s.col k)] }) ∧ ∀ k, k ∉ h.columns → t.col k = s.col k
    (∀ v, Issues s id h (.pre v) → (begun s id h (.pre v)).declared [v] = true → Changeable (begun s id h (.pre v)).h v →
      let c := begun s id h (.pre v)
      Completes (.pre v) s h (({ c with s := closeWays s id c.h v, h := closeReg c.h v } : Ctx).later (.sample 7 0 0 0 0)) ∧
      (Undebugged h → ∃ t g, exec (.pre v) s = .next t ∧ kept t g ∧ (g.getV v).openWays = 0 ∧
        ((h.getV v).openWays ≠ 0 → h.engages v = false → (g.getV v).words = []) ∧ (g.getV v).tag = (h.getV v).tag ∧
        ∀ u, u ≠ v → g.getV u = h.getV u)) ∧
    (Issues s id h .preall → (∀ v ∈ (begun s id h .preall).registers, Changeable (begun s id h .preall).h v) →
      let c := begun s id h .preall
      Completes .preall s h (({ c with
        s := closeAll s id c.h c.registers, h := c.registers.foldl closeReg c.h } : Ctx).later (.sample 7 0 0 0 0)) ∧
      (Undebugged h → ∃ t g, exec .preall s = .next t ∧ kept t g ∧ (∀ v ∈ c.registers, (g.getV v).openWays = 0) ∧
        ∀ v, (g.getV v).tag = (h.getV v).tag)) ∧
    (∀ n : BitVec 8, Issues s id h (.ref n) → 1 ≤ n.toNat → h.refDone < n.toNat →
      let c := begun s id h (.ref n)
      let more := decide (h.refDone + 1 < n.toNat)
      let c₁ : Ctx := { c with s := h.columns.foldl (fun s col => ask s col [rowSetOf (some id) more (s.col col).cycles]) s }
      asked c₁.s (fun k => rowSetOf (some id) more k.cycles) ∧
      (h.refDone + 1 = n.toNat → Completes (.ref n) s h (c₁.later (.sample 7 0 0 0 0)) ∧
        (Undebugged h → ∃ t g, exec (.ref n) s = .next t ∧ kept t g ∧ asked t (fun k => rowSetOf (some id) more k.cycles))) ∧
      (h.refDone + 1 < n.toNat → exec (.ref n) s =
        .next { c₁.s.setHart id { c₁.h with refDone := h.refDone + 1, pfx := h.pfx, wait := .refresh } with cur := none })) ∧
    (∀ (a : XReg) (pa leaf : Nat), Issues s id h (.refn a) →
      let c := begun s id h (.refn a)
      let way := layerOf pa * 8 + wayOf pa
      let r (k : Column) : WayRequest := actionOf id .refn way (k.physicalRow way (rowOf pa)) k.cycles
      translateRow c (h.getX a) none true false = .ok (pa, leaf) →
      Completes (.refn a) s h (({ c with s := h.columns.foldl (fun s col => ask s col [r (s.col col)]) s } : Ctx).later
        (.sample 7 0 0 0 (2 * h.cols))) ∧
      (Undebugged h → ∃ t g, exec (.refn a) s = .next t ∧ kept t g ∧ asked t r))

/-- R38, R188, R189, R47, R63, R133, R267, R268: `VGEOM` closes every register, with tag uint32 and `vl` 0, and every channel (R267); `VTYPE`
sets a tag and a scale register; `VSETVL` grants a length into xd and `vl`, and advances the channels with AUTO (R268); `VLOPEN` sets `vl` to the elements of the
open ways; `PFX` leaves its prefix for the instruction at the next word. -/
def Obligations.ConfigCompletes : Prop :=
  ∀ (s : State) (id : Nat) (h : Hart),
    (∀ g : BitVec 2, Issues s id h (.vgeom g) →
      let c := begun s id h (.vgeom g)
      h.lanes ≠ 0 → c.header.vregCount ≤ 8 * 2 ^ g.toNat → (∀ e ∈ h.elems, e.isLate = false) → h.transport = none →
      h.tileLoad = none →
      let s₁ := closeAll s id c.h c.registers
      Completes (.vgeom g) s h { c with
        s := { s₁ with outstanding := s₁.outstanding.filter (fun e => !(e.2.hart == id && e.2.chan.isSome)) }
        h := { c.h with geom := 8 * 2 ^ g.toNat, v := [], vl := 0, chans := [] } }) ∧
    (∀ (d sc : VNum) (t : BitVec 5), Issues s id h (.vtype d sc t) →
      let c := begun s id h (.vtype d sc t)
      let tag := TypeTag.ofCode t.toNat
      c.declared (if tag.isMx then [d, sc] else [d]) = true → Changeable c.h d →
      Completes (.vtype d sc t) s h { c with h := c.h.setV d { h.getV d with tag := tag, scale := sc } }) ∧
    (∀ (d a : XReg) (w : BitVec 2), Issues s id h (.vsetvl d a w) → h.lanes ≠ 0 →
      let c := begun s id h (.vsetvl d a w)
      let vl := grantVl c.h ((c.task?.map (·.srec.ceiling)).getD 0) (h.getX a).toNat (4 * 2 ^ w.toNat)
      Completes (.vsetvl d a w) s h (({ c with h := { c.h with
        vl := vl, chans := h.chans.map (fun e => (e.1, if e.2.auto then e.2.advance h.pc else e.2)) } } : Ctx).setX d
          (BitVec.ofNat 64 vl))) ∧
    (∀ d, Issues s id h (.vlopen d) → (begun s id h (.vlopen d)).declared [d] = true →
      let c := begun s id h (.vlopen d)
      Completes (.vlopen d) s h { c with h := { c.h with
        vl := h.lanes * 8 * popBits 8 (h.getV d).openWays * 32 / (h.getV d).tag.width } }) ∧
    (∀ (k : KReg) (pol dt zero : Bool) (v : VNum) (cpen : Bool), Issues s id h (.pfx k pol dt zero v cpen) → h.lanes ≠ 0 →
      OffLoopEnd h →
      let c := begun s id h (.pfx k pol dt zero v cpen)
      (cpen = true → c.declared [v] = true) →
      Completes (.pfx k pol dt zero v cpen) s h { c with h := { c.h with
        pfx := some ⟨k, pol, dt, zero, v, cpen, (h.pc + (4 : Word)).extractLsb' 2 46⟩ } })

/-! ## Vector arithmetic, masks and movement -/

/-- R190, R191, R192, R42, R113, R175, R176, R177: an elementwise instruction whose conditions hold writes its results to the active
positions in ascending order, and 0 to the zeroed ones; inactive elements stay. -/
def Obligations.ElementwiseCompletes : Prop :=
  ∀ (s : State) (id : Nat) (h : Hart) (i : Instr) (op : VOp) (part : Nat) (d a : VNum) (b : BSource),
    elementForm i = some (op, part, d, a, b) → Issues s id h i → ElementReady (begun s id h i) op part d a b →
    Completes i s h (elementResult (begun s id h i) op part d a b)

/-- R192, R303: `VCMP` of operands of one tag, part 0, that are ready sets bit e of kd at each active position e to the comparison of the
elements, and clears it at each zeroed one; bits at other positions stay. With poison at an active position it raises `POISON` with the
lowest such index, once every earlier instruction of its hart has retired (R301), and writes nothing. -/
def Obligations.CompareCompletes : Prop :=
  ∀ (s : State) (id : Nat) (h : Hart) (i : Instr) (cc : VCc) (k : KReg) (a : VNum) (b : BSource),
    let c := begun s id h i
    let o := Operand.reg a (h.getV a)
    let t := o.tag
    let p := c.operandB b t t
    let act := c.active t.width
    compareForm i = some (cc, 0, k, a, b) → Issues s id h i → h.vl ≠ 0 → c.declared (a :: b.regs) = true → c.copyOk none = true →
    t = p.tag → (t.isInt = true ∨ (t.isWide = true ∧ cc ≠ .ltu ∧ cc ≠ .geu)) → OperandReady c.h o act → OperandReady c.h p act →
    ((∀ e ∈ act, o.poisoned c.h e = false ∧ p.poisoned c.h e = false) →
      Completes i s h { c with h := c.h.setK k ((c.zeroed t.width).foldl (fun m e => putBit m e false)
        (act.foldl (fun m e => putBit m e (compareAt cc t (o.bits e) (p.bits e) (o.value c.h e) (p.value c.h e))) (h.getK k))) }) ∧
    (∀ e, act.find? (fun e => o.poisoned c.h e || p.poisoned c.h e) = some e →
      exec i s = .next (trapped s id h { c with h := { c.h with named := .element t.width } } .poison (BitVec.ofNat 64 e)))

/-- R193: `VSEL` writes every position below `vl` from va or vb; `VSPLAT` and `VIOTA` write the active ones; `VINS` writes element x of
vd when it is active; `VEXT` reads element x of va, 0 when it is not active. -/
def Obligations.DataMovementCompletes : Prop :=
  ∀ (s : State) (id : Nat) (h : Hart),
    (∀ (i : Instr) (d a : VNum) (b : BSource), selectForm i = some (0, d, a, b) → Issues s id h i →
      let c := begun s id h i
      let t := (h.getV d).tag
      let o := Operand.reg a (h.getV a)
      let p := c.operandB b t t
      let is := c.positions t.width
      h.vl ≠ 0 → c.declared (d :: a :: b.regs) = true → CopyReady c d t.width →
      (∀ v ∈ a :: b.regs, (h.getV d).sameTag (h.getV v) = true) → Idle c.h d → Opened c.h d (is.map (elemWord t.width)) →
      OperandReady c.h o is → OperandReady c.h p is →
      Completes i s h (c.writeV d t.width (is.map (selected c o p t)))) ∧
    (∀ (i : Instr) (d : VNum) (f : Nat → Nat),
      (∃ b dt, i = .vsplat d b dt ∧ f = fun _ => (h.getX b).toNat) ∨
        (∃ dt, i = .viota d dt ∧ f = (fun e => e) ∧ (h.getV d).tag.isInt = true) →
      Issues s id h i →
      let c := begun s id h i
      let w := (h.getV d).tag.width
      h.vl ≠ 0 → c.declared [d] = true → CopyReady c d w → Idle c.h d →
      Opened c.h d ((c.active w ++ c.zeroed w).map (elemWord w)) →
      Completes i s h (c.writeV d w
        ((c.active w).map (fun e => ⟨e, f e % 2 ^ w, false⟩) ++ (c.zeroed w).map (fun e => ⟨e, 0, false⟩)))) ∧
    (∀ (d : VNum) (x b : XReg) (dt : Bool), Issues s id h (.vins d x b dt) →
      let c := begun s id h (.vins d x b dt)
      let w := (h.getV d).tag.width
      let j := (h.getX x).toNat
      let out : List Elem := if j ∈ c.active w then [⟨j, (h.getX b).toNat % 2 ^ w, false⟩] else []
      h.vl ≠ 0 → c.declared [d] = true → CopyReady c d w → Idle c.h d → Opened c.h d (out.map (fun e => elemWord w e.e)) →
      Completes (.vins d x b dt) s h (c.writeV d w out)) ∧
    (∀ (d b : XReg) (a : VNum) (ca dt : Bool), Issues s id h (.vext d a b ca dt) →
      let c := begun s id h (.vext d a b ca dt)
      let r := h.getV a
      let w := r.tag.width
      let j := (h.getX b).toNat
      c.declared [a] = true → c.copyOk none = true →
      (j ∈ c.active w → OperandReady c.h (.reg a r) [j] → c.h.badElem r j = false →
        Completes (.vext d a b ca dt) s h (c.setX d (r.tag.extend (r.bits w j)))) ∧
      (j ∉ c.active w → Completes (.vext d a b ca dt) s h (c.setX d 0)))

/-- R194: on a hart with lanes the mask instructions write the bits of kd below min(`vl`, 8 VLMAX) and leave the others; `KPOP`, `KFIRST`,
`KANY` and `KALL` return what they find among those positions. -/
def Obligations.MaskCompletes : Prop :=
  ∀ (s : State) (id : Nat) (h : Hart) (i : Instr), Issues s id h i → h.lanes ≠ 0 →
    let c := begun s id h i
    let l := List.range (min h.vl (h.vlmax * 8))
    (∀ (d : KReg) (f : Nat → Bool), maskForm i h = some (d, f) →
      Completes i s h { c with h := c.h.setK d (l.foldl (fun m e => putBit m e (f e)) (h.getK d)) }) ∧
    (∀ (x : XReg) (a : KReg) (hits : List Nat) (v : Word), maskCount i hits = some (x, a, v) → hits = l.filter (hasBit (h.getK a)) →
      Completes i s h (c.setX x v)) ∧
    (∀ (p : PReg) (a : KReg), i = .kany p a → Completes i s h (c.setP p (l.any (hasBit (h.getK a))))) ∧
    (∀ (p : PReg) (a : KReg), i = .kall p a → Completes i s h (c.setP p (l.all (hasBit (h.getK a)))))

/-- R195, R122: a reduction of ready elements without poison writes the reduction of its seed and the active elements to xd and raises its
flags; at a vector length of 0 it writes the seed. -/
def Obligations.ReductionCompletes : Prop :=
  ∀ (s : State) (id : Nat) (h : Hart) (i : Instr) (op : RedOp) (d b : XReg) (a : VNum) (wide : Bool),
    let c := begun s id h i
    let r := h.getV a
    let o := Operand.reg a r
    let act := c.active r.tag.width
    reduceForm i = some (op, d, a, b, wide) → Issues s id h i → c.declared [a] = true → c.copyOk none = true →
    (h.vl = 0 → Completes i s h (c.setX d (h.getX b))) ∧
    (∀ t, h.vl ≠ 0 → redType r.tag wide = some t → OperandReady c.h o act → (∀ e ∈ act, o.poisoned c.h e = false) →
      let v := reduced c op r a (h.getX b) t
      Completes i s h (({ c with h := c.h.raise v.2 } : Ctx).setX d v.1))

/-- R209: the permutes write at each active position the element of va, the zero or the poison that the position is given, and 0 at the
zeroed ones; a position of `VSLIDEUP` that is given nothing stays. -/
def Obligations.PermuteCompletes : Prop :=
  ∀ (s : State) (id : Nat) (h : Hart) (i : Instr) (d a : VNum) (b : Option VNum) (f : Ctx → Nat → Nat → Pick),
    let c := begun s id h i
    let r := h.getV a
    let w := r.tag.width
    let l := picksOf c a f
    let zs := permuteZeroes c w l
    permuteForm i = some (d, a, b, f) → Issues s id h i → h.vl ≠ 0 → c.declared (d :: a :: b.toList) = true → CopyReady c d w →
    (h.getV d).sameTag r = true → Idle c.h d → OperandReady c.h (.reg a r) (pickedFrom l) →
    (∀ v, b = some v → (h.getV v).tag.isInt = true ∧ (h.getV v).tag.width = w ∧ Arrived c.h v (c.active w) ∧
      Opened c.h v ((c.active w).map (elemWord w))) →
    Opened c.h d (((l.filter (fun p => p.2 != .keep)).map (·.1) ++ zs).map (elemWord w)) →
    Completes i s h (c.writeV d w (permuted c.h r l ++ zs.map (fun e => ⟨e, 0, false⟩)))

/-- R210: `VCOMP` packs the active elements of va to the low positions of vd, with their indices to vb where there is one, zeroing the
rest below `vl` under a zeroing prefix; `VEXPD` spreads the low elements of va over the active positions. -/
def Obligations.CompressCompletes : Prop :=
  ∀ (s : State) (id : Nat) (h : Hart) (i : Instr) (d a : VNum),
    let c := begun s id h i
    let r := h.getV a
    let w := r.tag.width
    let act := c.active w
    let low := List.range act.length
    Issues s id h i → h.vl ≠ 0 → CopyReady c d w → (h.getV d).sameTag r = true → Idle c.h d →
    (∀ b : Option VNum, (∃ ca dt, i = .vcomp d a ca dt ∧ b = none) ∨ (∃ v ca dt, i = .vcompIdx d a v ca dt ∧ b = some v) →
      let rest := if c.zeroing then span act.length ((c.positions w).length - act.length) else []
      let idx := (low.zip act).map (fun p => (⟨p.1, p.2 % 2 ^ w, false⟩ : Elem)) ++ rest.map (fun e => ⟨e, 0, false⟩)
      c.declared (d :: a :: b.toList) = true → OperandReady c.h (.reg a r) act →
      Opened c.h d ((low ++ rest).map (elemWord w)) →
      (∀ v, b = some v → v ≠ d ∧ v ≠ a ∧ (h.getV v).tag.isInt = true ∧ (h.getV v).tag.width = w ∧ Idle c.h v ∧
        Opened c.h v ((low ++ rest).map (elemWord w))) →
      Completes i s h (({ c with h := match b with
          | some v => c.h.setV v ((h.getV v).writeElems w idx)
          | none => c.h } : Ctx).writeV d w
        ((low.zip act).map (fun p => movedElem c.h r p.1 p.2) ++ rest.map (fun e => ⟨e, 0, false⟩)))) ∧
    (∀ ca dt, i = .vexpd d a ca dt → c.declared [d, a] = true → OperandReady c.h (.reg a r) low →
      Opened c.h d ((act ++ c.zeroed w).map (elemWord w)) →
      Completes i s h (c.writeV d w
        ((act.zip low).map (fun p => movedElem c.h r p.1 p.2) ++ (c.zeroed w).map (fun e => ⟨e, 0, false⟩))))

/-- R62, R48: at a vector length of 0 the elementwise instructions, `VCMP`, `VSEL`, `VSPLAT`, `VIOTA`, `VINS`, the permutes, compress and
expand, and the vector memory and lane-scratch instructions but for `VCAPP` (which `CaptureCompletes` takes) write and touch nothing, and
neither do the tile instructions of a hart that holds a tile slot: they only retire. -/
def Obligations.ZeroLengthCompletes : Prop :=
  ∀ (s : State) (id : Nat) (h : Hart) (i : Instr), Issues s id h i → h.vl = 0 →
    let c := begun s id h i
    (∀ (d : VNum) (vs : List VNum), c.declared (d :: vs) = true →
      (c.copyOk (some d) = true ∧
        ((∃ op part a b, elementForm i = some (op, part, d, a, b) ∧ vs = a :: b.regs) ∨
          (∃ part a b, selectForm i = some (part, d, a, b) ∧ vs = a :: b.regs) ∨
          (∃ b dt, (i = .vsplat d b dt ∨ i = .viota d dt ∨ ∃ x, i = .vins d x b dt) ∧ vs = []) ∨
          (∃ a b f, permuteForm i = some (d, a, b, f) ∧ vs = a :: b.toList) ∨
          (∃ a ca dt, (i = .vcomp d a ca dt ∨ i = .vexpd d a ca dt) ∧ vs = [a]) ∨
          (∃ a v ca dt, i = .vcompIdx d a v ca dt ∧ v ≠ d ∧ v ≠ a ∧ vs = [a, v]) ∨
          (∃ vi b ca dt, i = .vlsx d vi b ca dt ∧ vs = [vi]) ∨
          (∃ f b, vloadForm i = some (d, f, b) ∧ vs = f.index))) ∨
        (c.copyOk none = true ∧
          ((∃ f b, vstoreForm i = some (d, f, b) ∧ vs = f.index) ∨ (∃ op vi b, updateForm i = some (op, d, vi, b) ∧ vs = [vi]) ∨
            (∃ vi b ca dt, i = .vssx d vi b ca dt ∧ vs = [vi]) ∨
            (∃ cc part k b, compareForm i = some (cc, part, k, d, b) ∧ vs = b.regs))) →
      Completes i s h c) ∧
    (∀ rs, tileForm i = some rs → h.tileHeld = true → c.header.tile = 1 → h.lanes % 32 = 0 → c.declared rs = true → Completes i s h c)

/-- R175, R41: a write of elements puts the bits of the last result for an element there, of an fp6 element the low 6, and leaves the bits
of every element that it does not write; the tag, the open ways and the image stay. A lane word that is written is poisoned when a result in it is, or when it was
and some bit of it is not written. -/
def Obligations.ElementWriteFrame : Prop :=
  ∀ (r : VReg) (w : Nat) (es : List Elem), w = 4 ∨ w = 8 ∨ w = 16 ∨ w = 32 →
    (∀ e, (∀ x ∈ es, x.e ≠ e) → (r.writeElems w es).bits w e = r.bits w e) ∧
    (∀ (before after : List Elem) (x : Elem), es = before ++ x :: after → (∀ y ∈ after, y.e ≠ x.e) →
      (r.writeElems w es).bits w x.e = x.bits % 2 ^ min w r.tag.used) ∧
    (∀ j, (∀ x ∈ es, elemWord w x.e ≠ j) → (r.writeElems w es).word j = r.word j) ∧
    (∀ j, (∃ x ∈ es, elemWord w x.e = j) → ((r.writeElems w es).word j).poison =
      (es.any (fun x => elemWord w x.e == j && x.poison) ||
        ((r.word j).poison && (span (j * (32 / w)) (32 / w)).any (fun e => es.all (fun x => x.e != e))))) ∧
    { r.writeElems w es with words := r.words } = r

/-! ## Vector memory -/

/-- R197 to R202, R78 to R80, R84, R85, R220: a vector load whose elements are aligned, translate for reading and share their attributes,
with every remote element arrived and nothing under way that uses its register, performs the earlier accesses with a byte in common, and writes at each active position the element at
its address, poisoned where its piece is bad, and 0 at the zeroed positions. The film is off, or no page is a RECORD page. Where its hart
goes past it (log 6), with an entry of the vector queue free and no element remote, it writes the zeroed positions and sends the accesses
that bring the elements, and the copy that its prefix asks for; its register may then still be under way, where it zeroes and copies
nothing. -/
def Obligations.VectorLoadCompletes : Prop :=
  ∀ (s : State) (id : Nat) (h : Hart) (i : Instr) (d : VNum) (f : VForm) (b : XReg) (ts : List Touch) (c₁ : Ctx),
    let c := begun s id h i
    let t := (h.getV d).tag
    let w := t.width
    let act := c.active w
    let zeroes (c : Ctx) : List Elem := (c.zeroed w).map (fun e => ⟨e, 0, false⟩)
    let alloc := mayAllocate c₁ f w ts
    let past := h.late = true ∧ ∀ u ∈ ts, regionOf u.pa ≠ .remote
    vloadForm i = some (d, f, b) → Issues s id h i → h.vl ≠ 0 → c.declared (d :: f.index) = true → CopyReady c d w →
    IndexReady c f w act → Changeable c.h d → (past ∧ c.zeroing = false ∧ c.copyReg = none ∨ Idle c.h d) →
    Opened c.h d ((act ++ c.zeroed w).map (elemWord w)) →
    Touches c ⟨true, false, true⟩ (elemBytes w) (elementsOf c f w b) ts c₁ →
    (past → h.queued < 16 →
      let c₂ := c₁.readTouches ts alloc
      Completes i s h (((c₂.writeV d w (zeroes c₂)).sendElems (readAccesses c₂ d w f.ordered ts)).later (memSample (sampleClass c₂ f w) ts
        (baseCount (misses c₁.s (ts.map (fun t => (t.pa, leafUc t.leaf)))))))) ∧
    (¬past → h.remote = [] → (∀ u ∈ ts, regionOf u.pa = .remote → (find? h.arrived u.i).isSome = true) →
      ((∀ u ∈ ts, leafRec u.leaf = false) ∨ h.filmMode = 0) →
      let c₀ := loadMeeting c₁ w ts
      let c₂ := loadedFrom c₁ w alloc ts
      let c₃ := c₂.writeV d w (ts.map (loadElem c₂ t) ++ zeroes c₂)
      Completes i s h (({ c₃ with h := { c₃.h with arrived := [] } } : Ctx).later (memSample (sampleClass c₂ f w) ts
        (baseCount (misses c₀.s (ts.map (fun t => (t.pa, leafUc t.leaf))))))))

/-- R197 to R204, R207, R219, R173: a vector store sends the element write of each active position, in order, with the element's bytes and
its poison, or, where its hart goes past it (log 6) while something is still to write its register, with the register from which the element
is to be taken; `VUPD` sends an update of each, of the operation that its data tag lists; each way-row is activated once. An element that
goes to the remote window, or of a `VUPD`, holds no poison. -/
def Obligations.VectorStoreCompletes : Prop :=
  ∀ (s : State) (id : Nat) (h : Hart) (i : Instr) (d : VNum) (b : XReg) (ts : List Touch) (c₁ : Ctx),
    let c := begun s id h i
    let r := h.getV d
    let w := r.tag.width
    let act := c.active w
    let acts := baseCount (ts.map (·.pa))
    Issues s id h i → h.vl ≠ 0 →
    (∀ f, vstoreForm i = some (d, f, b) → c.declared (d :: f.index) = true → c.copyOk none = true → IndexReady c f w act →
      StoreReady c.h d act ts →
      Touches c ⟨false, true, true⟩ (elemBytes w) (elementsOf c f w b) ts c₁ →
      ((∃ u ∈ ts, regionOf u.pa = .remote) → ∀ e ∈ act, c.h.badElem r e = false) →
      Completes i s h (((c₁.writeTouches ts).sendElems (ts.map (storeAccess c₁ d w f.ordered))).later
        (memSample (sampleClass c₁ f w) ts acts))) ∧
    (∀ vi op eop, updateForm i = some (op, d, vi, b) → op.on r.tag = some eop → c.declared [d, vi] = true → c.copyOk none = true →
      OperandReady c.h (.reg d r) act → IndexReady c (.indexed vi false) w act → (∀ e ∈ act, c.h.badElem r e = false) →
      Touches c ⟨true, true, false⟩ 4 (elementsOf c (.indexed vi false) w b) ts c₁ →
      Completes i s h (((c₁.writeTouches ts).sendElems (ts.map (updatedElem c₁ d eop))).later (memSample 6 ts acts)))

/-- R203, R207, R364, R85, R90, R176, R305: an element access that nothing before it holds back is performed and leaves its hart, which goes
on if it waits for one. Of the writes a store puts its bytes, a nibble store its half of the byte, an update its operation on the 32-bit
word; every other byte of memory reads as before; its bytes, at most the 4 of an element, lie in memory in good pieces, and it carries no
poison. A read outside the remote window puts the element that memory holds, as the load's tag has it, into its register, and the lane word into the
copy that a prefix asks for, and changes no byte of memory, no other register and no other hart. -/
def Obligations.ElementWritePerforms : Prop :=
  ∀ (s : State) (id n : Nat) (h : Hart) (e : ElemAccess), Memory.wf s.mem = true → s.hart? id = some h → h.elems[n]? = some e →
    mayPerform h n = true →
    let left := h.elems.eraseIdx n
    let wait := if h.wait = .access then Wait.none else h.wait
    (∀ d tag copy, e.op = .read d tag copy → copy ≠ some d → regionOf e.pa ≠ .remote →
      let r := h.getV d
      let j := elemWord tag.width e.idx
      ∃ t g, exec (.elementWritePerform id n) s = .next t ∧ t.mem = s.mem ∧ t.hart? id = some g ∧ g.elems = left ∧ g.wait = wait ∧
        g.getV d = r.writeElems tag.width [memoryElem s tag e.idx e.pa] ∧
        (∀ v, v ≠ d → g.getV v =
          if copy = some v then { h.getV v with words := put (h.getV v).words j ((g.getV d).word j) } else h.getV v) ∧
        (∀ q, g.getX q = h.getX q) ∧ ∀ m, m ≠ id → t.hart? m = s.hart? m) ∧
    ∀ data : List Byte, e.isLate = false → (∀ ring read, e.op ≠ .append ring read) → e.poison = false → GoodBytes s e.pa data.length →
    data ≠ [] → data.length ≤ 4 →
    data = (match e.op with
      | .store => e.data
      | .nibble high =>
        let old := (readByte s.mem e.pa).toNat
        let v := (e.data.getD 0 0).toNat % 16
        [BitVec.ofNat 8 (if high then old % 16 + v * 16 else old / 16 * 16 + v)]
      | op => toBytes 4 (elemUpdate op e.ftz (readNat s e.pa 4) (ofBytes e.data))) →
    ∃ t, exec (.elementWritePerform id n) s = .next t ∧
      (∀ k, k < data.length → readByte t.mem (e.pa + k) = data.getD k 0) ∧
      (∀ a, a < e.pa ∨ e.pa + data.length ≤ a → readByte t.mem a = readByte s.mem a) ∧
      t.hart? id = some { h.withElems left with wait := wait } ∧
      (∀ m, m ≠ id → t.hart? m = s.hart? m)

/-- R206, R66: `VLSX` reads, and `VSSX` writes, the lane scratch of each active element's own lane at base plus index, aligned and below the
declared bytes. -/
def Obligations.ScratchCompletes : Prop :=
  ∀ (s : State) (id : Nat) (h : Hart) (i : Instr) (d vi : VNum) (b : XReg) (offs : List (Nat × Nat)),
    let c := begun s id h i
    let t := (h.getV d).tag
    let w := t.width
    let act := c.active w
    let index (e : Nat) : Int := if (h.getV vi).tag.isSigned then (c.offset vi e).toInt else ((c.offset vi e).toNat : Int)
    Issues s id h i → h.vl ≠ 0 → c.declared [d, vi] = true → IndexReady c (.indexed vi false) w act →
    offs.map (fun o => (o.1, (o.2 : Int))) = act.map (fun e => (e, ((h.getX b).toNat : Int) + index e)) →
    (∀ o ∈ offs, o.2 % elemBytes w = 0 ∧ o.2 + elemBytes w ≤ c.header.scratch) →
    (∀ ca dt, i = .vlsx d vi b ca dt → CopyReady c d w → Idle c.h d → Opened c.h d ((act ++ c.zeroed w).map (elemWord w)) →
      Completes i s h ((c.writeV d w (offs.map (fun o =>
          let x := h.scratchWord (scratchKey (h.wordLane (elemWord w o.1)) o.2)
          ⟨o.1, if x.poison then t.lostBits else x.val.toNat / 2 ^ (8 * (o.2 % 4)) % 2 ^ w, x.poison⟩)
        ++ (c.zeroed w).map (fun e => ⟨e, 0, false⟩))).later (scratchSample c.h w offs))) ∧
    (∀ ca dt, i = .vssx d vi b ca dt → c.copyOk none = true → OperandReady c.h (.reg d (h.getV d)) act →
      Completes i s h (({ c with h := { c.h with scratch :=
        (scratchWrites c.h (h.getV d) offs).foldl (fun m x => put m x.1 ((h.scratchWord x.1).write x.2)) h.scratch } } : Ctx).later
          (scratchSample c.h w offs)))

/-- R211, R212, R256, R85, R218, R219: `VCAPP` appends the active elements of va, without poison, to the queue block of 4-byte entries at xb,
in good pieces, after the hart's earlier accesses to block and entries: as one action it writes the entries from tail on, moves tail past them
and checks the launch; a block without room for all of them, or of another entry size, or malformed, counts them all as dropped. Where its
hart goes past it (log 6), it sends that action instead, and an event performs it at the block's home, as the block then stands. With no
active element it only retires (the model's choice, log 16). -/
def Obligations.CaptureCompletes : Prop :=
  (∀ (s : State) (id : Nat) (h : Hart) (a : VNum) (b : XReg) (ca dt : Bool),
    let i := Instr.vcapp a b ca dt
    let c := begun s id h i
    let r := h.getV a
    let act := c.active 32
    let n := act.length
    let words := act.map (r.bits 32)
    Issues s id h i → c.declared [a] = true → c.copyOk none = true →
    (h.vl = 0 → Completes i s h c) ∧
    (h.vl ≠ 0 → (r.tag = .uint32 ∨ r.tag = .int32) → Arrived c.h a act → Opened c.h a (act.map (elemWord 32)) →
      (act = [] → Completes i s h (c.later (.sample 3 0 0 0 0))) ∧
      (∀ (pa leaf : Nat) (places : Option (List Nat)) (c₁ c₄ : Ctx), act ≠ [] →
        blockAt (c.countMisses [(0, h.getX b)]) (h.getX b) = .ok ((pa, leaf), c₁) → (∀ e ∈ act, c.h.badElem r e = false) →
        let c₂ := c₁.drainMeeting (span pa 64)
        badBytes c₂.s pa 64 = false →
        let read := misses c₂.s [(pa, leafUc leaf)]
        let c₃ := c₂.readBlockAt (pa, leaf)
        let q := readBlock c₃.s pa
        appendPlaces (c₃.countBlock q n) q n = (places, c₄) →
        let pas := places.getD []
        let c₅ := c₄.drainMeeting (pas.flatMap (fun p => span p 4))
        badEntry c₅.s pas = none →
        let launch := if places.isSome then launchPlace c₅ q n else none
        let c₆ := c₅.later (cappSample c₅.s n read (pa :: pas) launch)
        (h.late = false → Completes i s h (appendWords (c₆.drainMeeting ((launch.map (fun p => span p.1 128)).getD [])) pa words read)) ∧
        (h.late = true → Completes i s h (c₆.sendElems [⟨c₆.h.elemSeq, 0, pa, h.getX b, .append (ringRanges c₆.s c₆.h q) (!read.isEmpty),
          words.flatMap (toBytes 4), false, false, false, h.pc, []⟩]))))) ∧
  (∀ (c c' : Ctx) (pa : Nat) (words read : List Nat),
    let q := readBlock c.s pa
    (appendPlaces c q words.length = (none, c') →
      let d := c'.writeRows read [pa]
      appendWords c pa words read = { d with s := storeBytes d.s 1 (pa + 32) (toBytes 8 (q.dropped + words.length)) }) ∧
    (∀ pas, appendPlaces c q words.length = (some pas, c') →
      let d := c'.writeRows read (pa :: pas)
      let cells := (pas.zip words).flatMap (fun e => (span e.1 4).zip (toBytes 4 e.2))
      appendWords c pa words read =
        triggerCheck { d with s := storeBytes (writeAll d.s 1 cells false) 1 (pa + 24) (toBytes 8 (q.tail + words.length)) } pa)) ∧
  (∀ (s : State) (id n : Nat) (h : Hart) (e : ElemAccess) (ring : List (Nat × Nat)) (read : Bool), s.hart? id = some h →
    h.elems[n]? = some e → mayPerform h n = true → e.op = .append ring read → regionOf e.pa ≠ .remote →
    let c := appendWords ⟨s, id, h, h.pc, false, none, 0, []⟩ e.pa (wordsIn e.data) (if read then [e.pa] else [])
    exec (.elementWritePerform id n) s = .next (c.s.setHart id { c.h.withElems (c.h.elems.eraseIdx n) with
      wait := if c.h.wait = .access then .none else c.h.wait }))

/-! ## Collectives, the tile unit and small matrices -/

/-- R213 to R216, R62: outside a gang a collective of registers of one listed tag combines the hart's own slices, one for each column, and
retires with the lane words of its results on their way to vd; at a vector length of 0 it only retires (R62), whatever the tags and open ways
of its registers, which is the model's reading (log 21); in a gang it waits, with its operands recorded, for the join. -/
def Obligations.CollectiveCompletes : Prop :=
  ∀ (s : State) (id : Nat) (h : Hart) (i : Instr) (fn : Nat) (d a : VNum) (xb : Option XReg),
    let c := begun s id h i
    let r := h.getV a
    let w := r.tag.width
    let sel : Word := (xb.map h.getX).getD 0
    let own := ownSlices c.h w
    let es := collResults c fn d sel.toNat (own.map (fun p => cellsOf c.h r p.2)) own
    collectiveForm i = some (fn, d, a, xb) → Issues s id h i → c.declared [d, a] = true → h.transport = none →
    (c.gang = false → h.filmMode = 0 → h.vl = 0 → Completes i s h c) ∧
    (c.gang = false → h.filmMode = 0 → h.vl ≠ 0 → collTagsOk fn (h.getV d) r = true → Idle c.h d →
      Opened c.h d ((c.positions w).map (elemWord w)) → OperandReady c.h (.reg a r) (c.positions w) →
      Completes i s h { c with h := transported c.h d a es.1 es.2 }) ∧
    (c.gang = true → exec i s =
      .next { s.setHart id { c.h with coll := some ⟨fn, d, a, sel⟩, pfx := h.pfx, wait := .collective } with cur := none })

/-- R214, R216, R226: when every participant of a stack has issued its instance and all pass their checks, the join retires them together;
an event of the transport writes the lane words of one element group of vd, whose group becomes valid, and the transport ends with the
last; an event of a tile transfer moves its next row, or its scales, into the tile, and the transfer ends with the last. -/
def Obligations.TransportStepsComplete : Prop :=
  (∀ (s : State) (t stack : Nat) (task : Task), s.task? t = some task →
    let l := participants s task stack
    joinDue l = true →
    (∀ e ∈ l.zipIdx, ∃ k c, e.1.2.coll = some k ∧ joinOutcome s l e.2 e.1.1 e.1.2 k = .ok c) →
    exec (.collectiveJoin t stack) s = .next (settleJoin s l (fun _ => true))) ∧
  (∀ (s : State) (id g : Nat) (h : Hart) (t : Transport), s.hart? id = some h → h.transport = some t →
    find? s.shadows id = none → t.items.filter (fun e => h.wordGroup e.1 == g) ≠ [] →
    let r := h.getV t.vd
    let rest := t.items.filter (fun e => h.wordGroup e.1 != g)
    exec (.collectiveTransport id g) s = .next (s.setHart id { h.setV t.vd { r with
        words := putAll r.words (t.items.filter (fun e => h.wordGroup e.1 == g)), invalid := putBit r.invalid g false } with
      transport := if rest = [] then none else some { t with items := rest }
      wait := if h.wait = .transport then .none else h.wait })) ∧
  (∀ (s : State) (id : Nat) (h : Hart) (t : TileLoad), s.hart? id = some h → h.tileLoad = some t → find? s.shadows id = none →
    let now := t.items.filter (fun e => nextRow t e.1)
    let rest := t.items.filter (fun e => !nextRow t e.1)
    exec (.tldTransfer id) s = .next (s.setHart id { h.tileIn t.scales now with
      tileLoad := if rest = [] then none else some { t with items := rest }
      wait := if h.wait = .tile then .none else h.wait }))

/-- R222 to R230: the tile instructions of a hart that holds a tile slot, where their conditions hold: `TCFG` sets the format and clears the
tile; `TLD` begins a transfer of cells or scales; `TMUL` and `TMULS` add the exact sum of products to each accumulator entry of a row
with one rounding; `TRD` reads a row into vd; `TACC` adds vd to a row, and poisons what it gives in a column that is marked (R232); `TZERO`
clears rows; `TREL` gives the tile back. Where the cells of a `TLD` lie for a hart of several columns is the model's choice (log 22). -/
def Obligations.TileCompletes : Prop :=
  ∀ (s : State) (id : Nat) (h : Hart) (i : Instr) (d v : VNum) (a : XReg),
    let c := begun s id h i
    let x := h.getX a
    let r := h.getV v
    let o := Operand.reg v r
    let row := x.toNat % 512
    Issues s id h i →
    (i = .tcfg a → TileHolds c [] → x.toNat ≤ 3 → h.tileLoad = none → Completes i s h { c with h := c.h.clearTile x.toNat }) ∧
    (i = .tld v a → TileHolds c [v] → x &&& ~~~0x80FF = 0 →
      let sc := x.getLsbD 15
      let t := x.toNat % 256
      (if sc then t = 0 ∧ r.tag = .uint8 ∧ 2 ≤ h.tileFmt
        else r.tag = tileSource h.tileFmt ∧ t + ceilDiv h.vl 128 ≤ tileRows h.tileFmt) →
      Arrived c.h v (c.positions r.tag.width) → Opened c.h v ((c.positions r.tag.width).map (elemWord r.tag.width)) →
      h.tileLoad = none →
      Completes i s h { c with h := { c.h with tileLoad := some ⟨v, sc, loadItems c.h r t sc⟩ } }) ∧
    (i = .tmul v a → TileHolds c [v] → x &&& ~~~0xFF01FF = 0 → tileOperand h.tileFmt r.tag = true →
      let k := tileRows h.tileFmt
      let sl := x.toNat / 2 ^ 16 % 256
      let es := (span (sl * k) k).filter (fun e => decide (e < h.vl ∧ e < h.capacity r.tag.width))
      OperandReady c.h o es → (sl + 1) * k ≤ h.capacity r.tag.width → c.rowUsable row = true → h.residue = none →
      RowsArrived h (fun q => decide (sl * k + q < h.vl)) →
      Completes i s h (accumulate c row (es.map (fun e => (e - sl * k, o.value c.h e))) (es.any (o.poisoned c.h)))) ∧
    (i = .tmuls d v a → TileHolds c [d, v] → x &&& ~~~0x1FF = 0 → h.tileFmt ≤ 2 →
      let vals := Operand.reg d (h.getV d)
      let es := c.positions 8
      tileOperand h.tileFmt vals.tag = true → (r.tag = .int8 ∨ r.tag = .uint8) → OperandReady c.h vals es →
      Arrived c.h v es → Opened c.h v (es.map (elemWord 8)) → c.rowUsable row = true → h.residue = none →
      (∀ e ∈ es, r.bits 8 e < 128 ∧ c.h.badElem r e = false) → RowsArrived h (fun q => es.any (fun e => r.bits 8 e == q)) →
      Completes i s h (accumulate c row (es.map (fun e => (r.bits 8 e, vals.value c.h e))) (es.any (vals.poisoned c.h)))) ∧
    (i = .trd d a → TileHolds c [d] → x &&& ~~~0x1FF = 0 → Idle c.h d → (h.getV d).tag = .fp32 →
      Opened c.h d (c.h.outputs.map (fun p => p.1 * h.perColumn + p.2)) → c.rowUsable x.toNat = true →
      Completes i s h (c.writeV d 32 (c.h.outputs.map (fun p =>
        let w := h.scratchWord (accKey p.1 x.toNat p.2)
        ⟨p.1 * h.perColumn + p.2, if w.badF32 then 0x7FA00BAD else w.val.toNat, w.badF32⟩)))) ∧
    (i = .tacc d a → TileHolds c [d] → x &&& ~~~0x1FF = 0 → (h.getV d).tag = .fp32 →
      Arrived c.h d (c.h.outputs.map (fun p => p.1 * h.perColumn + p.2)) →
      Opened c.h d (c.h.outputs.map (fun p => p.1 * h.perColumn + p.2)) → c.rowUsable x.toNat = true → h.residue = none →
      let rs := c.h.outputs.map (fun p =>
        let key := accKey p.1 x.toNat p.2
        let w := h.scratchWord key
        let y := (h.getV d).word (p.1 * h.perColumn + p.2)
        if w.badF32 || y.badF32 || (find? h.tileBad (p.1 * 128 + p.2)).isSome then (key, badWord, 0)
        else
          let e := fAdd fp32 (rne h.ftz) (fp32.value h.ftz w.val.toNat) (fp32.value h.ftz y.val.toNat)
          (key, (⟨BitVec.ofNat 32 e.1, false⟩ : LaneWord), e.2))
      Completes i s h { c with h := (c.h.putScratch (rs.map (fun y => (y.1, y.2.1)))).raise (rs.foldl (fun f y => f ||| y.2.2) 0) }) ∧
    (i = .tzero a → TileHolds c [] → x &&& ~~~0x1FF01FF = 0 →
      let n := x.toNat / 2 ^ 16 % 512 + 1
      row + n ≤ 512 → c.rowUsable (row + n - 1) = true →
      Completes i s h { c with h := c.h.putScratch ((span row n).flatMap (fun q =>
        c.h.outputs.map (fun p => (accKey p.1 q p.2, (⟨0, false⟩ : LaneWord))))) }) ∧
    (i = .trel → TileHolds c [] → h.tileLoad = none → Completes i s h { c with h := c.h.releaseTile })

/-- R234 to R242, R123: the small-matrix instructions of a hart with lanes and small-matrix registers, in every lane: the results of the
moves and the arithmetic, of the factorisations of square matrices without poison in what they read, with permutation, lane flags and
`MSTAT`, of the scratch moves at aligned offsets within the declared bytes, and of `MFLAG`. -/
def Obligations.SmallMatrixCompletes : Prop :=
  ∀ (s : State) (id : Nat) (h : Hart) (i : Instr), Issues s id h i →
    let c := begun s id h i
    HasMatrices c →
    (∀ d sh f, matrixForm i c = some (d, true, sh, f) → (sums i = true → h.residue = none) → Completes i s h (matPut c d sh f)) ∧
    (∀ (d : MReg) (cols rows : BitVec 3), i = .mset d cols rows → rows.toNat ≤ 5 → cols.toNat ≤ 5 →
      Completes i s h { c with h := c.h.laneList.foldl (fun g l => g.putMat l d
        (Mat.of (rows.toNat + 1) (cols.toNat + 1) (fun _ _ => ⟨0, 0⟩))) (c.h.setShape d (general (rows.toNat + 1) (cols.toNat + 1))) }) ∧
    (∀ (d a : MReg) form reads f, factorForm i = some (d, a, form, reads, f) →
      let n := (h.shape a).rows
      (h.shape a).cols = n → h.residue = none → (∀ l ∈ h.laneList, ∀ p q, p < n → q < n → reads p q = true → ((h.getMat l a).at p q).bad = false) →
      let rs := h.laneList.map (fun l => (l, f h.ftz (h.mstat.toNat / 2 ^ 32) n (h.getMat l a)))
      let h' := rs.foldl (fun (g : Hart) r =>
        { g.putMat r.1 d r.2.m with
          perm := put g.perm (r.1 * 4 + d.toNat) r.2.perm
          laneFlags := put g.laneFlags r.1 r.2.bits
          mstat := g.mstat ||| r.2.bits.setWidth 64 }) (c.h.setShape d ⟨n, n, form⟩)
      Completes i s h { c with h := h'.raise (rs.foldl (fun fl r => fl ||| r.2.flags) 0) }) ∧
    (∀ (d : MReg) (x : XReg), let sh := h.shape d
      let p := (h.getX x).toNat
      p % 4 = 0 → p + 4 * (sh.rows * sh.cols) ≤ c.header.scratch →
      (i = .mld d x → Completes i s h { c with h := c.h.laneList.foldl (fun g l => g.putMat l d (Mat.of sh.rows sh.cols (fun u v =>
          let w := h.scratchWord (scratchKey l (p + 4 * (u * sh.cols + v)))
          ⟨if w.poison then 0x7FA00BAD else w.val.toNat, 0⟩))) (c.h.setShape d (general sh.rows sh.cols)) }) ∧
      (i = .mst d x → Completes i s h { c with h := c.h.putScratch (h.laneList.flatMap (fun l =>
        (List.range (sh.rows * sh.cols)).map (fun n =>
          let v := (h.getMat l d).at (n / sh.cols) (n % sh.cols)
          (scratchKey l (p + 4 * n), (⟨BitVec.ofNat 32 v.bits, v.bad⟩ : LaneWord))))) })) ∧
    (∀ (f : BitVec 2) (k : KReg), i = .mflag f k →
      let hit (e : Nat) : Bool := decide (e < h.vlmax) && h.laneFlag (h.wordLane e) f.toNat
      Completes i s h { c with h := c.h.setK k ((List.range h.vl).foldl (fun m e => putBit m e (hit e)) (h.getK k)) })

/-! ## Tasks, queues, keys, strips and barriers -/

/-- R246 to R251, R96, R56, R289: with the film off, `TSPAWN` submits the readable start record at an address that is a multiple of 128 and
returns its ticket, −1 when the queue is full; `TEXIT`, once every earlier instruction has retired, its ordering step done and nothing under
way, closes the channels and leaves the
column; `TYIELD` marks the hart, or its gang, to give way to a task that waits for its lanes; `TINFO` returns the value that it selects. -/
def Obligations.TaskInstructionsComplete : Prop :=
  ∀ (s : State) (id : Nat) (h : Hart),
    (∀ (d a : XReg) (pa leaf : Nat) (c₁ c₂ : Ctx) (record : List Byte), Issues s id h (.tspawn d a) → h.filmMode = 0 →
      let va := h.getX a
      va.toNat % 128 = 0 → placeGeneric (begun s id h (.tspawn d a)) va 8 ⟨true, false, false⟩ = .ok ((pa, leaf), c₁) →
      badBytes c₁.s pa 128 = false → startRecordAt c₁.drainStores va = .ok (record, c₂) →
      let r := submitRecord c₂ record
      Completes (.tspawn d a) s h (r.2.setX d (match r.1 with
        | some ticket => BitVec.ofNat 64 ticket
        | none => -1))) ∧
    (Issues s id h .texit → h.caughtUp = false → exec .texit s = .next (holdBack s id h)) ∧
    (∀ c₁ : Ctx, Issues s id h .texit → h.caughtUp = true →
      orderingStep { begun s id h .texit with h := { (begun s id h .texit).h with leaving := true } } = .ok c₁ →
      c₁.h.transport = none → c₁.h.tileLoad = none →
      let c₂ := c₁.h.chans.foldl (fun (c : Ctx) e =>
        { c with s := (closeChannel c.s c.id c.h e.1).1, h := (closeChannel c.s c.id c.h e.1).2 }) c₁
      Completes .texit s h ((c₂.global (fun s => leave s c₂.id c₂.h .exited)).later (.frame 8 0))) ∧
    (Issues s id h .tyield →
      let c := begun s id h .tyield
      (c.task? = none → Completes .tyield s h c) ∧
      (∀ t, c.task? = some t → t.srec.mode % 2 = 1 → h.rank ≠ 0 → Completes .tyield s h c) ∧
      (∀ t who, c.task? = some t →
        (t.srec.mode % 2 = 1 ∧ h.rank = 0 ∧ who = (taskHarts s t).map (·.1) ∨ t.srec.mode % 2 ≠ 1 ∧ who = [id]) →
        (lanesWanted s h.task (classOf s h.task) ((taskHarts s t).flatMap (·.2.lanesOf)) = none → Completes .tyield s h c) ∧
        (∀ w, lanesWanted s h.task (classOf s h.task) ((taskHarts s t).flatMap (·.2.lanesOf)) = some w →
          Completes .tyield s h (c.global (fun s => askHalt s who w))))) ∧
    (∀ (d : XReg) (sel : BitVec 5) (t : Task), Issues s id h (.tinfo d sel) → sel.toNat ≤ 11 →
      (h.filmMode = 0 ∨ sel.toNat < 4 ∨ 4 < sel.toNat ∧ sel.toNat < 9) →
      let c := begun s id h (.tinfo d sel)
      c.task? = some t → Completes (.tinfo d sel) s h (c.setX d (taskInfo s c.h t sel.toNat)))

/-- R255 to R258: with the film off and no bad piece, once the hart's earlier stores to the bytes of block and entry are performed (R85), `QPUSH`
performs the hart's buffered stores, puts the low bytes of xb into the entry at tail, moves tail, checks the launch and clears pd; on a full
or malformed block it sets pd, and orders nothing else. `QPOP` takes the entry at head into xd, moves head and clears pd; on an empty or
malformed block it gives 0 and sets pd. -/
def Obligations.QueueInstructionsComplete : Prop :=
  ∀ (s : State) (id : Nat) (h : Hart) (i : Instr) (a : XReg) (p : PReg) (pa leaf : Nat) (c₁ c₄ : Ctx),
    let c₂ := c₁.drainOverlap pa 64
    let c₃ := c₂.readBlockAt (pa, leaf)
    let q := readBlock c₃.s pa
    let read := misses c₂.s [(pa, leafUc leaf)]
    Issues s id h i → h.filmMode = 0 → blockAt (begun s id h i) (h.getX a) = .ok ((pa, leaf), c₁) → badBytes c₂.s pa 64 = false →
    c₄.h.filmMode = 0 → c₄.h.dbg = none →
    (∀ b, i = .qpush a b p →
      let blocked := !q.ok || q.count == q.capacity
      (queueEntry c₃ q q.tail blocked = (none, c₄) → Completes i s h (c₄.setP p true)) ∧
      (∀ e, queueEntry c₃ q q.tail blocked = (some e, c₄) →
        let c₅ := c₄.drainOverlap e q.entry
        badBytes c₅.s e q.entry = false →
        let c₆ := c₅.drainStores.writeRows read [pa, e]
        let s₇ := storeBytes (storeBytes c₆.s 1 e (toBytes q.entry (c₆.x b).toNat)) 1 (pa + 24) (toBytes 8 (q.tail + 1))
        Completes i s h ((triggerCheck { c₆ with s := s₇ } pa).setP p false))) ∧
    (∀ d, i = .qpop d a p →
      let blocked := !q.ok || q.count == 0
      (queueEntry c₃ q q.head blocked = (none, c₄) → Completes i s h ((c₄.setX d 0).setP p true)) ∧
      (∀ e, queueEntry c₃ q q.head blocked = (some e, c₄) →
        let c₅ := c₄.drainOverlap e q.entry
        badBytes c₅.s e q.entry = false →
        let c₆ := c₅.writeRows read [pa, e]
        let v := BitVec.ofNat 64 (loadNat c₆.s e q.entry)
        Completes i s h ((({ c₆ with s := storeBytes c₆.s 1 (pa + 16) (toBytes 8 (q.head + 1)) } : Ctx).setX d v).setP p false)))

/-- R259 to R261, R59, R295: `KEYREL` performs the hart's writes and gives the key back; with the film off `KEYQ` returns the state of a key
and `STRIP` claims the next strip of the task's farm: base, count and whether one was left. -/
def Obligations.KeysAndStripsComplete : Prop :=
  ∀ (s : State) (id : Nat) (h : Hart),
    (∀ a : XReg, Issues s id h (.keyrel a) → (h.getX a).toNat < 2 ^ 24 →
      let c := (begun s id h (.keyrel a)).drainElems.drainStores
      Completes (.keyrel a) s h { c with
        s := c.s.modTask c.h.task (fun t => { t with held := t.held.filter (fun k => k.id != (h.getX a).toNat) }) }) ∧
    (∀ d a : XReg, Issues s id h (.keyq d a) → (h.getX a).toNat < 2 ^ 24 → h.filmMode = 0 →
      Completes (.keyq d a) s h ((begun s id h (.keyq d a)).setX d (keyState s h.task (h.getX a).toNat))) ∧
    (∀ (d a : XReg) (p : PReg) (t : Task), Issues s id h (.strip d a p) → d.toNat % 2 = 0 → 2 ≤ d.toNat → d.toNat ≤ 28 →
      (h.getX a).toNat < 2 ^ 50 → h.filmMode = 0 →
      let c := begun s id h (.strip d a p)
      c.task? = some t →
      let q := (h.getX a).toNat % 2 ^ 48
      let limit := if h.lanes = 0 then q else h.vlmax * 32 / (4 * 2 ^ ((h.getX a).toNat / 2 ^ 48))
      let left := t.srec.farm - t.farm
      let n := min q (min limit left)
      Completes (.strip d a p) s h
        (if t.srec.farm ≠ 0 ∧ t.farm < t.srec.farm then
          ((({ c with s := s.setTask h.task { t with farm := t.farm + n } } : Ctx).setX d (BitVec.ofNat 64 t.farm)).setX (d + 1)
            (BitVec.ofNat 64 n)).setP p true
        else ((({ c with s := s.setTask h.task t } : Ctx).setX d (BitVec.ofNat 64 t.srec.farm)).setX (d + 1) 0).setP p false))

/-- R262, R263: in a gang, `BAR` performs the buffered stores, arrives once, and completes once the completion count has reached its
arrivals, else it waits; `BARA` arrives without waiting for its own phase; `BARW` waits for it; the phase completes when every hart of the
gang that is left has arrived, and the waiting ones go on. -/
def Obligations.BarriersComplete : Prop :=
  (∀ (s : State) (id : Nat) (h : Hart) (sc : BitVec 3), 1 ≤ sc.toNat → sc.toNat ≤ 4 →
    (Issues s id h (.bar sc) → (begun s id h (.bar sc)).gang = true →
      let c := (begun s id h (.bar sc)).drainStores
      let arrives := c.h.barA = c.barC ∧ c.h.barAt ≠ some c.h.pc
      let c' : Ctx := if arrives then { c with h := { c.h with barA := c.h.barA + 1, barAt := some c.h.pc } } else c
      (c'.h.barA ≤ c.barC → Completes (.bar sc) s h { c' with h := { c'.h with barAt := none } }) ∧
      (c.barC < c'.h.barA → exec (.bar sc) s =
        .next { c.s.setHart c.id { c'.h with pfx := h.pfx, wait := .barrier } with cur := none })) ∧
    (Issues s id h (.bara sc) → (begun s id h (.bara sc)).gang = true →
      let c := (begun s id h (.bara sc)).drainStores
      c.h.barA ≤ c.barC → Completes (.bara sc) s h { c with h := { c.h with barA := c.h.barA + 1 } }) ∧
    (Issues s id h (.barw sc) → (begun s id h (.barw sc)).gang = true →
      let c := (begun s id h (.barw sc)).drainStores
      (c.h.barA ≤ c.barC → Completes (.barw sc) s h c) ∧
      (c.barC < c.h.barA → exec (.barw sc) s =
        .next { c.s.setHart c.id { c.h with pfx := h.pfx, wait := .barrier } with cur := none }))) ∧
  (∀ (s : State) (n : Nat) (t : Task), s.task? n = some t → t.srec.mode % 2 = 1 →
    let l := t.harts.filterMap (fun e => (s.hart? e.2).bind (fun h =>
      if h.status = .exited ∨ h.status = .ended then none else some (e.2, h)))
    l ≠ [] → (∀ e ∈ l, t.barC < e.2.barA) →
    exec (.barrierPhase n) s = .next (l.foldl (fun s e => s.modHart e.1 (fun h =>
      if h.wait = .barrier then { h with wait := .none } else h)) (s.setTask n { t with barC := t.barC + 1 })))

/-! ## Stream channels -/

/-- R264 to R271: `SCFG` of a readable, well-formed block binds the channel that it describes, with its destination open, and returns 0, or
returns 1 when another hart of the column holds it; `SSTEP` moves a bound channel to its next strip; `SSTAT` returns state and
milestone, with the film off; `SCLOSE` unbinds. An event of the fetch brings the element at the milestone into the strip buffer, records
the fault that it meets, or sends the access to the remote window. -/
def Obligations.ChannelsComplete : Prop :=
  (∀ (s : State) (id : Nat) (h : Hart) (d a : XReg) (n : BitVec 2) (pa leaf : Nat) (c₁ : Ctx),
    let i := Instr.scfg d a n
    Issues s id h i → h.lanes ≠ 0 →
    placeGeneric (begun s id h i) (h.getX a) 64 ⟨true, false, false⟩ = .ok ((pa, leaf), c₁) →
    let c₂ := (c₁.drainOverlap pa 64).global (fun s =>
      recordPieces (readAccess s [(pa, leafUc leaf)] false (.base (c₁.drainOverlap pa 64).id)) 1 (piecesOf pa 64))
    badField c₂ pa = none →
    let ch := channelOf c₂.s pa c₂.h.pc
    let w := (c₂.h.getV ch.dest).tag.width
    w ≠ 4 → Opened c₂.h ch.dest ((List.range ch.strip).map (elemWord w)) →
    Settled c₂.h ch.dest →
    let c₃ : Ctx := { c₂ with s := { c₂.s with free := c₂.s.free + 128 } }
    (heldByOther c₃.s c₃.id c₃.h n.toNat = true → Completes i s h (c₃.setX d 1)) ∧
    (heldByOther c₃.s c₃.id c₃.h n.toNat = false →
      let c₄ := c₃.drainStores
      let r := closeChannel c₄.s c₄.id c₄.h n.toNat
      Completes i s h (({ c₄ with s := r.1, h := { r.2 with chans := put r.2.chans n.toNat ch } } : Ctx).setX d 0))) ∧
  (∀ (s : State) (id : Nat) (h : Hart) (n : BitVec 2), h.lanes ≠ 0 →
    (∀ ch, Issues s id h (.sstep n) → find? h.chans n.toNat = some ch →
      let c := (begun s id h (.sstep n)).drainStores
      Completes (.sstep n) s h { c with h := { c.h with chans := put c.h.chans n.toNat (ch.advance c.h.pc) } }) ∧
    (∀ d, Issues s id h (.sstat d n) → h.filmMode = 0 →
      let c := begun s id h (.sstat d n)
      Completes (.sstat d n) s h (c.setX d (chanStatus s id c.h n.toNat))) ∧
    (Issues s id h (.sclose n) →
      let c := begun s id h (.sclose n)
      let r := closeChannel s id c.h n.toNat
      (find? h.chans n.toNat = none → Completes (.sclose n) s h c) ∧
      (find? h.chans n.toNat ≠ none → Completes (.sclose n) s h { c with s := r.1, h := r.2 }))) ∧
  (∀ (s : State) (id n : Nat) (h : Hart) (ch : Channel), s.hart? id = some h → find? h.chans n = some ch → h.status = .resident →
    find? s.shadows id = none →
    let sent := (s.outstanding.filter (fun o => o.2.hart == id && o.2.chan == some n)).map (·.2.idx)
    let l := ch.missing.filter (fun e => !sent.contains e)
    l ≠ [] →
    let e := l.getD (Config.pick s.free % l.length) ch.m
    let f := lowestFault id n h (ch.missing.filter (fun a => decide (a ≤ e))) { s with free := s.free + 1 } ch
    (∀ x, f.2.2 = some x → exec (.streamFetch id n) s = .next (f.1.modHart id (fun h => { h with
      chans := put h.chans n { f.2.1 with fault := some x }
      wait := if h.wait = .channel n then .none else h.wait }))) ∧
    (f.2.2 = none → ∀ t, fetchElement f.1 id n ((f.1.hart? id).getD h) f.2.1 e = some t → exec (.streamFetch id n) s = .next t)) ∧
  (∀ (s t : State) (id n e va pa leaf : Nat) (h : Hart) (ch ch' : Channel),
    elementPlace s id n h ch e = (t, .ok (ch', BitVec.ofNat 64 va, pa, leaf)) →
    (regionOf pa = .remote →
    fetchElement s id n h ch e = some ((sendAccess t ⟨id, true, pa, BitVec.ofNat 64 va, h.pc, ch'.dest, e, some n,
      List.replicate ((h.getV ch'.dest).tag.width / 8) 0, none, 0, 0⟩).modHart id (fun h => { h with chans := put h.chans n ch' }))) ∧
    (regionOf pa ≠ .remote →
      (stripHeld t h ch' e (leafRec leaf) = true → fetchElement s id n h ch e = holdStrip t id h) ∧
      (stripHeld t h ch' e (leafRec leaf) = false →
        let size := (h.getV ch'.dest).tag.width / 8
        let u := readAccess t [(pa, leafUc leaf)] false (.stream id n)
        badBytes u pa size = false →
        fetchElement s id n h ch e =
          deliverElement u id n ((u.hart? id).getD h) ch' e ⟨e - ch'.k * ch'.strip, loadNat u pa size, false⟩ (leafRec leaf)))) ∧
  (∀ (s : State) (id n e : Nat) (h : Hart) (ch : Channel) (x : Elem),
    ¬((ch.take e).m = ch.stop ∧ ch.recRead = true) →
    deliverElement s id n h ch e x false = some (s.setHart id { h.setV ch.dest ((h.getV ch.dest).writeElems (h.getV ch.dest).tag.width [x]) with
      chans := put h.chans n { ch.take e with recRead := ch.recRead }
      wait := if h.wait = .channel n then .none else h.wait }))

/-! ## Waiting, traps and debug -/

/-- R272, R273, R274, R275, R301, R331: with the film off `WAITEV` returns the events of its mask that hold, or 0 at its timeout, and waits
otherwise; the timeout runs in the column's lane cycles from the first issue, which is the model's reading (log 47); `TRAP` retires and then raises `SWTRAP` with its code; `RFT` goes to an aligned `TRAPPC` with INH cleared and
a saved prefix pending again; `HALT` retires in steward mode with the hart presented, and raises `PRIV` in task mode; `TRAP` and `HALT` wait
until every earlier instruction has retired; `BBH` counts at its address, base + 8 × (xa + imm) with the immediate sign-extended (R128), and
does nothing without a base; `BKPT` raises `BKPT` with its code. -/
def Obligations.WaitAndTrapInstructions : Prop :=
  ∀ (s : State) (id : Nat) (h : Hart),
    (∀ (d a : XReg) (m : BitVec 12), Issues s id h (.waitev d a m) → m.toNat < 64 → h.filmMode = 0 →
      let c := begun s id h (.waitev d a m)
      let start := h.waitFrom.getD (s.col h.column).cycles
      let held := eventsHeld s id c.h m.toNat
      (held ≠ 0 ∨ timedOut s h start (h.getX a).toNat = true →
        Completes (.waitev d a m) s h (c.setX d (BitVec.ofNat 64 held))) ∧
      (held = 0 → timedOut s h start (h.getX a).toNat = false → exec (.waitev d a m) s =
        .next { s.setHart id { c.h with waitFrom := some start, pfx := h.pfx, wait := .waitev m.toNat } with cur := none })) ∧
    (∀ code : BitVec 12, Issues s id h (.trap code) →
      (h.caughtUp = true →
        Completes (.trap code) s h ((begun s id h (.trap code)).later (.swTrap (code.setWidth 64))) ∧
        (h.ctl = 0 →
          let next := ((loopNext h).1, (loopNext h).2.1)
          exec (.trap code) s = .next (deliver { s with cur := none } id ((begun s id h (.trap code)).h.after (.trap code) next) .swTrap
            next.1 (code.setWidth 64)))) ∧
      (h.caughtUp = false → exec (.trap code) s = .next (holdBack s id h))) ∧
    (Issues s id h .rft → OffLoopEnd h → h.trappc.toNat % 4 = 0 →
      let c := begun s id h .rft
      Completes .rft s h ((({ c with h := { returnFromTrap c.h with pc := h.pc } } : Ctx).jump h.trappc).later
        (.frame 3 (s.pcOffset h h.trappc)))) ∧
    (Issues s id h .halt →
      let c := begun s id h .halt
      (h.mode = .steward → h.caughtUp = true →
        Completes .halt s h { c with h := { c.h with presented := some ⟨none, (loopNext h).1, 0, h.inh, (s.col h.column).errcol⟩ } }) ∧
      (h.mode = .steward → h.caughtUp = false → exec .halt s = .next (holdBack s id h)) ∧
      (h.mode = .task → Traps .halt s id h .priv c.word)) ∧
    (∀ (a : XReg) (imm : BitVec 12), Issues s id h (.bbh a imm) →
      let c := begun s id h (.bbh a imm)
      (h.bbcbase = 0 → Completes (.bbh a imm) s h c) ∧
      (∀ (pa leaf : Nat) (c₁ : Ctx), h.bbcbase ≠ 0 →
        placeGeneric c (h.bbcbase + 8 * (h.getX a + imm.signExtend 64)) 8 ⟨true, true, false⟩ = .ok ((pa, leaf), c₁) →
        Completes (.bbh a imm) s h (c₁.global (fun s => countBlock s c₁.h.column pa)))) ∧
    (∀ code : BitVec 12, Issues s id h (.bkpt code) → Traps (.bkpt code) s id h .bkpt (code.setWidth 64))

/-- R299, R297, R136: with CTL 0, a cause that goes to the task vector, which is set and not inhibited, saves cause, pc and information,
sets INH, moves a pending prefix, with the address of the successor that it has (log 74), to `PFXSTATE` and enters task mode at `TRAPVEC`; any other, but for BKPT, WAYPOINT and STEP, whose presentation
may stop a gang and is left out here, is presented to the steward with the pc and the information, and the hart's mode becomes steward
mode, which is the model's reading (log 20). Nothing else changes but what the hart was waiting for. -/
def Obligations.TrapEntry : Prop :=
  ∀ (s : State) (id : Nat) (h : Hart) (cause : Cause) (pc info : Word), h.ctl = 0 →
    let h' := { h with
      wait := .none, coll := none, remote := [], arrived := [], waitFrom := none, refDone := 0, issueAt := none, stalls := 0, tlbMissed := 0 }
    (routedToTask s h' cause info = true → h.trapvec.toNat / 4 ≠ 0 → h.inh = false →
      deliver s id h cause pc info = s.setHart id { h' with
        trapcause := BitVec.ofNat 64 (2 ^ 16 + (if causeAsync cause then 2 ^ 8 else 0) + causeCode cause)
        trappc := pc, trapinfo := info, pc := h.trapvec, mode := .task, exempt := false, pfx := none
        pfxstate := match h.pfx with
          | some p => packPfx p p.succ
          | none => h.pfxstate }) ∧
    ((routedToTask s h' cause info = false ∨ h.trapvec.toNat / 4 = 0 ∨ h.inh = true) →
      cause ≠ .bkpt → cause ≠ .waypoint → cause ≠ .step →
      deliver s id h cause pc info = s.setHart id { h' with
        presented := some ⟨some cause, pc, info, h.inh, (s.col h.column).errcol⟩, mode := .steward })

/-- R135, R136, R298, R300: a return from a trap that was taken with a prefix pending makes the prefix pending again, for the successor that it
had; INH is clear, `PFXSTATE` holds no prefix, and the mode is task mode. -/
def Obligations.ReturnRestoresPrefix : Prop :=
  ∀ (h : Hart) (p : Pfx) (cause : Cause) (pc info : Word),
    h.pfx = some p →
    let r := returnFromTrap (enterVector h cause pc info)
    (enterVector h cause pc info).inh = true ∧ r.inh = false ∧ r.pfx = some p ∧ r.pfxstate.getLsbD 0 = false ∧ r.mode = .task ∧
      r.trappc = pc ∧ r.x = h.x ∧ r.p = h.p ∧ r.v = h.v

/-- R296, R297, R299 to R303, R69, R329: the steps of trap delivery: a synchronous cause is delivered at a boundary at which every issued
instruction has retired; an asynchronous one that is due there, where nothing waits, which is the model's reading (log 48); the steward
resumes a hart in task mode at the pc presented, at `TRAPPC` after an `RFT` on its behalf, or at an aligned pc that it gives, with the
registers and memories that it leaves: the pcs and the list of what the steward changes are the model's reading (log 9); of a hart not
presented it reaches only what is no register state, and its TCM share only while it is Saved; or it delivers the cause that it was given
to `TRAPVEC`. -/
def Obligations.TrapStepsComplete : Prop :=
  ∀ (s : State) (id : Nat) (h : Hart), s.hart? id = some h →
    (∀ (cause : Cause) (pc info : Word), causeAsync cause = false → allRetired s id h = true →
      exec (.trapDelivery id cause pc info) s = .next (deliver s id h cause pc info)) ∧
    (∀ cause info h', allRetired s id h = true → h.wait = .none → h.leaving = false → dueAsync s id h = some (cause, info, h') →
      exec (.asyncDelivery id) s = .next (deliver s id h' cause h.pc info)) ∧
    (∀ (p : Presented) (pc : Option Word) (xs : List StewardEdit), h.presented = some p →
      let c := xs.foldl stewardEdit ⟨s, id, { h with mode := .steward }, p.pc, false, none, 0, []⟩
      (pc.getD c.npc).toNat % 4 = 0 →
      exec (.stewardResume id pc xs) s = .next (c.s.setHart id { c.h with
        presented := none, mode := .task, pc := pc.getD c.npc, exempt := true })) ∧
    (∀ xs : List StewardEdit, h.presented = none → find? s.shadows id = none → xs ≠ [] → (∀ x ∈ xs, aside x = true) →
      let c := xs.foldl stewardEdit ⟨s, id, h, h.pc, false, none, 0, []⟩
      exec (.stewardResume id none xs) s = .next (c.s.setHart id c.h) ∧
      c.h.x = h.x ∧ c.h.p = h.p ∧ c.h.v = h.v ∧ c.h.pc = h.pc ∧ (h.status ≠ .saved → c.h.tcm = h.tcm)) ∧
    (∀ cause pc info inh e, h.presented = some ⟨some cause, pc, info, inh, e⟩ → h.trapvec.toNat / 4 ≠ 0 →
      let f := writeFrame s { h with presented := none } 2 pc (causeCode cause)
      exec (.stewardDeliver id) s = .next (f.1.setHart id (enterVector f.2 cause pc info)))

/-! ## The sequencer, the ways, retirement and refresh -/

/-- R293, R173, R220, R151, R178, R179, R19, R21, R100, R182, R174, R311 to R316: the steps of the sequencer, the row scoreboard, retirement
and refresh, where they can occur: a lane cycle of a column, in which so many more pass as its interlocks take, which is free (log 65), with
the hart that it picks; a request for a way, which joins those that wait (log 49) and starts when the scoreboard admits it and it comes before
every other of its way; what each kind of request then does; a speculative request that is made or dropped; the promotion of a request; an
alert's deadline; an element group that becomes valid; a result that retires; a vector instruction that leaves for the vector queue, one that
runs there, and the oldest, which retires (how they do is the model's reading, log 6); an interval of refresh, with the account, the forced
refresh, whose row-set the account is credited with (log 45), and the base-layer refresh. -/
def Obligations.SequencerStepsComplete : Prop :=
  ∀ s : State,
    (∀ c, c < 4096 → s.cur = none →
      let s' := tick { s with free := s.free + 2 } c (1 + Config.stallCycles s.free)
      (pickHart s' c = none → exec (.sequencerIssue c) s = .next s') ∧
      (∀ n h, pickHart s' c = some (n, h) → exec (.sequencerIssue c) s =
        .next { (s'.modCol c (·.picks h.ctx (underDuty s' h))).modHart n (·.picked (Config.pick (s.free + 1))) with cur := some n })) ∧
    (∀ c n h, pickHart s c = some (n, h) → (n, h) ∈ s.harts ∧ ready s c n h = true ∧
      (∀ e ∈ s.harts, ready s c e.1 e.2 = true → 1024 ≤ e.2.idle → e.2.idle ≤ h.idle) ∧
      ((∀ e ∈ s.harts, ready s c e.1 e.2 = true → e.2.idle < 1024) →
        ∀ e ∈ s.harts, ready s c e.1 e.2 = true → classOf s h.task ≤ classOf s e.2.task)) ∧
    (∀ c way row src segs, c < 4096 → way < 64 → row < 2112 → 0 < segs → segs ≤ 8 → sourceOk s c src = true →
      rowReaches (s.col c) way row src = true →
      let r := requestOf src way row segs (s.col c).cycles
      (∀ q, (s.col c).requests.find? r.same = some q → mayGrant s c q = true →
        exec (.wayActivation c way row src segs) s = .next (grantRequest s c q)) ∧
      ((s.col c).requests.find? r.same = none → r.cls ≠ 6 →
        let s₁ := ask s c [r]
        exec (.wayActivation c way row src segs) s = .next (if mayGrant s₁ c r then grantRequest s₁ c r else s₁))) ∧
    (∀ c r, mayGrant s c r = true → (s.col c).admits (s.winNow c) r (s.col c).cycles = true ∧
      ∃ b ∈ liveRequests s c, r.same b = true ∧ ∀ q ∈ liveRequests s c, r.meets q = true → q.first (s.col c).cycles b = false) ∧
    (∀ c r,
      let k := s.col c
      let t := grantRequest s c r
      let key := r.way * 4096 + r.row
      let w := look (t.col c).ways r.way {}
      t.mem = s.mem ∧
      (r.act = .activate → w.lastAct = some k.cycles ∧ w.busyUntil = k.cycles + 12 ∧
        look (t.col c).actCount key 0 = look k.actCount key 0 + 1) ∧
      (r.act = .close → w.busyUntil = k.cycles + 10) ∧ (r.act = .write → w.busyUntil = k.cycles + 16) ∧
      (r.act = .refn → w.busyUntil = k.cycles + 80 ∧ look (t.col c).actCount key 0 = 0 ∧
        ∀ a ∈ (t.col c).alerts, ¬(a.way = r.way ∧ a.row = r.row)) ∧
      (r.act = .rowSet → (t.col c).refPos = (k.refPos + 1) % 2048 ∧ (t.col c).refBusy = k.cycles + 40 ∧
        (t.col c).debt = if -128 < k.debt then k.debt - 1 else k.debt)) ∧
    (∀ n c way row h ch i va leaf, s.hart? n = some h → c < 4096 → way < 64 → row < 2048 → h.status = .resident →
      (∃ k, (k, ch) ∈ h.chans) → i ∈ ch.toReach → ch.knownAddress i = some va → shownLeaf s n h va = some leaf →
      let pa := leafAddress leaf va
      regionOf pa = .dram → columnOf pa = c → layerOf pa * 8 + wayOf pa = way → rowOf pa = row →
      exec (.speculativePreactivation n c way row) s = .next (s.modCol c (fun k => { k with
        requests := k.requests ++ [requestOf (.spec n) way (k.physicalRow way row) 8 k.cycles] }))) ∧
    (∀ c n r, c < 4096 → (s.col c).requests[n]? = some r →
      (r.cls = 6 → r.since + 64 ≤ (s.col c).cycles → exec (.speculativeDiscard c n) s =
        .next (s.modCol c (fun k => { k with requests := k.requests.eraseIdx n }))) ∧
      (r.cls = 5 → r.promoted = false → r.since + 128 ≤ (s.col c).cycles → exec (.class5Promotion c n) s =
        .next (s.modCol c (fun k => { k with requests := k.requests.set n { r with promoted := true } })))) ∧
    (∀ c way row, (∃ a ∈ (s.col c).alerts, a.way = way ∧ a.row = row) →
      let r := hardwareRefn way row (s.col c).cycles
      (∀ q ∈ (s.col c).requests, r.same q = false) → exec (.alertDeadline c way row) s = .next (ask s c [r])) ∧
    (∀ n v g r, find? s.shadows n = some r → hasBit (look r.v v {}).invalid g = true →
      (∀ t, r.transport = some t → t.vd.toNat ≠ v) →
      let reg := look r.v v {}
      let r' := { r with v := put r.v v { reg with invalid := putBit reg.invalid g false } }
      exec (.elementGroupValid n v g) s = .next { s with shadows := put s.shadows n r' }) ∧
    (∀ n h r, s.hart? n = some h → find? s.shadows n = some r →
      (h.wait = .retire .vector → groupsPending r = false → exec (.vectorRetire n) s = .next (commitShadow s n)) ∧
      (h.wait = .retire .load ∨ h.wait = .retire .sent → exec (.scalarRetire n) s = .next (commitShadow s n))) ∧
    (∀ n h, s.hart? n = some h → find? s.shadows n = none →
      (∀ q, h.canRetire = some q → exec (.vectorRetire n) s = .next (retireFront s n h q)) ∧
      (h.canRetire = none → s.cur = none → h.status = .resident → headReady h = true →
        exec (.vectorRetire n) s = .next { s.modHart n (fun h => { h with atHead := true }) with cur := some n })) ∧
    (∀ n h q rest, h.ctl = 0 → h.stopDue = false → h.vqueue = q :: rest →
      ∃ g, retireFront s n h q = s.setHart n g ∧ g.vqueue = rest ∧ g.retired = h.retired + 1 ∧ g.expo = h.expo + 1 ∧ g.pc = h.pc ∧
        g.x = h.x ∧ g.p = h.p ∧ g.k = h.k ∧ g.v = h.v ∧ g.elems = h.elems) ∧
    (∀ (i : Instr) (id : Nat) (h : Hart) (m : Meaning), s.cur = some id → s.hart? id = some h →
      (h.atHead = false → h.waiting ≠ [] → queueable h i = true → h.dbg = none → h.queued < 16 →
        (runInstr i m (startCtx s id { h with elems := [], vqueue := [] } i.word)).isOk = true →
        ∃ t g q, issue i s m = .next t ∧ t.hart? id = some g ∧ t.mem = s.mem ∧ t.cur = none ∧ g.pc = (loopNext h).1 ∧ g.x = h.x ∧ g.p = h.p ∧
          g.k = h.k ∧ g.v = h.v ∧ g.retired = h.retired ∧ g.vqueue = h.vqueue ++ [q] ∧ q.pc = h.pc ∧ q.done = false) ∧
      (∀ q c, h.atHead = true → h.firstWaiting = some q →
        runInstr i m (startCtx { s with cur := none } id (h.forHead q) q.word) = .ok c →
        ∃ t g, issue i s m = .next t ∧ t.hart? id = some g ∧ t.mem = c.s.mem ∧
          (∀ v, q.names v = true → (g.getV v).words = (c.h.getV v).words) ∧ (∀ v, q.names v = false → g.getV v = h.getV v) ∧
          g.scratch = c.h.scratch ∧ g.fpflags = c.h.fpflags ∧ g.pc = h.pc ∧ g.x = h.x ∧ g.p = h.p ∧ g.k = h.k ∧ g.retired = h.retired ∧
          ∀ e ∈ g.vqueue, e.seq = q.seq → e.done = true)) ∧
    (∀ c, c < 4096 →
      let k := s.col c
      let r := rowSetOf none false k.cycles
      let s₁ := s.modCol c (fun k => { k with debt := min 128 (k.debt + 1) })
      let s₂ := if k.debt = 63 ∧ (s₁.col c).refRaised = false then raiseDeadline s₁ c else s₁
      let s₃ := if 127 ≤ k.debt then ask (s₂.modCol c (fun k => { k with forced := k.forced + 1 })) c [r] else s₂
      exec (.refreshInterval c) s = .next (if occupied s₃ c = false ∧ 0 < (s₃.col c).debt then ask s₃ c [r] else s₃))

/-! ## Queues, the dispatcher and the allocator -/

/-- R276 to R287, R51 to R57, R74, R252 to R254, R303: the steps of the queue scheduler, the dispatcher and the allocator, where they can
occur: a doorbell; a slot bound or given on; a head record passed over, rejected with its status, or seen; a counter read again; aging; a
task's start with its keys and its first hart or its gang; a further hart; the completion and the end of a task. A counter in the remote
window is sent for, one read at a time for a task, which is the model's choice (log 46). -/
def Obligations.SchedulerStepsComplete : Prop :=
  ∀ s : State,
    (∀ q p, q < 16384 → exec (.doorbell q p) s = .next (ringDoorbell s q p)) ∧
    (∀ q, s.slots.length < 64 → nextQueue (unbound s) = some q →
      exec .queueBind s = .next { s with slots := s.slots ++ [(q, s.order)], order := s.order + 1 }) ∧
    (∀ n q k since, s.slots[n]? = some (q, since) → nextQueue ((unbound s).filter (fun e => decide (e.2.1 ≤ headClass s q))) = some k →
      exec (.queueUnbind n) s = .next { s with slots := s.slots.set n (k, s.order), order := s.order + 1 }) ∧
    (∀ q, (s.queue q).state = 1 → (s.queue q).head < (s.queue q).tail → (s.queue q).seen = none → (∃ e ∈ s.slots, e.1 = q) →
      let d := s.queue q
      let s₁ := (headRecord s d).1
      let r := (headRecord s d).2
      (r.khdr = 0 → exec (.dispatchHead q) s = .next (takeHead s₁ q)) ∧
      (r.khdr ≠ 0 → recordOk (look d.lanesAt d.head (usableLanes s₁)) r = false → exec (.dispatchHead q) s = .next (reject s₁ q d r 0x18)) ∧
      (r.khdr ≠ 0 → recordOk (look d.lanesAt d.head (usableLanes s₁)) r = true →
        (∀ s₂ st, checkHeader s₁ d.root r = (s₂, .error st) → exec (.dispatchHead q) s = .next (reject s₂ q d r st)) ∧
        (∀ s₂ k, checkHeader s₁ d.root r = (s₂, .ok k) →
          (∀ s₃, checkPages s₂ d.root r = (s₃, none) → exec (.dispatchHead q) s = .next (reject s₃ q d r 0x19)) ∧
          (∀ s₃ pages, checkPages s₂ d.root r = (s₃, some pages) →
            (∀ s₄, readCounter s₃ d.root d.part r = (s₄, .bad) → exec (.dispatchHead q) s = .next (reject s₄ q d r 0x18)) ∧
            (∀ s₄ dep, dep ≠ .bad → readCounter s₃ d.root d.part r = (s₄, dep) → exec (.dispatchHead q) s =
              .next (askCounter { (s₄.setTask s₄.nextTask { newTask s₄ q d r k pages with depMet := dep == .met }).setQueue q
                { s₄.queue q with seen := some s₄.nextTask } with nextTask := s₄.nextTask + 1, stamps := s₄.stamps + 1 }
                s₄.nextTask dep)))))) ∧
    (∀ n, askCounter s n .met = s ∧ askCounter s n .notMet = s ∧ ∀ pa,
      ((∃ e ∈ s.hubOut, e.2.task = n ∧ e.2.load = true) → askCounter s n (.away pa) = s) ∧
      ((∀ e ∈ s.hubOut, e.2.task = n → e.2.load = false) →
        askCounter s n (.away pa) = (sendHub s n true pa (List.replicate 8 0)).getD s)) ∧
    (∀ n t, s.task? n = some t →
      (t.phase = .waiting → t.depMet = false → visible s n t = true →
        (∀ s', readCounter s t.root t.part t.srec = (s', .met) →
          exec (.dependenceReread n) s = .next (s'.setTask n { t with depMet := true })) ∧
        (∀ s', readCounter s t.root t.part t.srec = (s', .notMet) → exec (.dependenceReread n) s = .next s') ∧
        (∀ s' pa, readCounter s t.root t.part t.srec = (s', .away pa) →
          exec (.dependenceReread n) s = .next (askCounter s' n (.away pa))) ∧
        (∀ s', readCounter s t.root t.part t.srec = (s', .bad) → exec (.dependenceReread n) s = .next (takeHead
          ((writeCompletionRecord s' n t.root t.part t.srec.crec (completionBytes t 0x18 0 0xFFFFFFFF 0 0 0)).setTask n
            { t with phase := .done, status := 0x18, written := true }) t.queue))) ∧
      (t.phase ≠ .done → t.depMet = true → t.lacking s = true →
        exec (.agingTick n) s = .next (s.setTask n { t with aged := if t.aged ≤ 1 then t.aged else t.aged - 1 })) ∧
      (∀ picks, eligible s n t = true → canPlace s [] n t = true → heldBack s n t (wantedLanes s t) = false →
        let s₁ := takeHead (s.setTask n { t with phase := .started, held := t.keys }) t.queue
        (∀ s', placeHarts n t.batch t.granted picks s₁ = .done s' →
          exec (.taskStart n picks) s = .next (takenUp (resetAging s' n) n)) ∧
        (∀ s' rank cause va s'', placeHarts n t.batch t.granted picks s₁ = .badCode s' rank cause va →
          endTask (s'.modTask n (fun t => { t with phase := .started })) n (.codeCopy rank cause va) = some s'' →
          exec (.taskStart n picks) s = .next s'')) ∧
      (∀ picks s', t.phase = .started → t.status = 0 → t.srec.mode % 2 = 0 → t.granted < t.srec.harts →
        heldBack s n t (wantedLanes s t) = false → placeHarts n 1 t.granted picks s = .done s' →
        exec (.hartGrant n picks) s = .next (takenUp (resetAging s' n) n)) ∧
      (t.phase = .started → t.written = false →
        (systemScope s t = true → ∀ e ∈ s.outstanding, e.2.load = false → ∀ h ∈ t.harts, h.2 ≠ e.2.hart) →
        (t.status ≠ 0 → exec (.taskCompletion n) s = .next (finishTask s n t t.status)) ∧
        (t.status = 0 → t.exited = t.srec.harts → exec (.taskCompletion n) s = .next (finishTask s n t 1))) ∧
      (∀ why s' status cause rank pc info frec, t.phase ≠ .done → t.status = 0 →
        endFields s t why = some (s', status, cause, rank, pc, info, frec) →
        let mark (s : State) : State := s.modTask n (fun t => { t with
          status := status, cause := cause, frank := rank, fpc := pc, finfo := info, frec := frec, phase := .started })
        exec (.taskEnd n why) s = .next (if t.phase = .waiting then takeHead (mark s') t.queue else mark (endHarts s' t))))

/-! ## Pre-emption, waits and translation -/

/-- R73, R77, R273, R287 to R291: the steps of pre-emption, of waits and of shootdown, where they can occur: a request for lanes, or the end of
a slice, marks the victims that the waiter's first claim to get some finds, none of which is of a task that need not give way; a marked hart halts; a halted one is saved; a saved one, or its gang, returns; a wait ends; a shootdown drops
TLB entries and makes row window entries stale, which a reload mends and a time-out answers with `PAGEWIN`. -/
def Obligations.PreemptionStepsComplete : Prop :=
  ∀ s : State,
    (∀ n t vs, s.task? n = some t →
      (claims s n t).findSome? (fun k => claimVictims s n t k (fun u _ => decide (classOf s n < classOf s u))) = some vs →
      exec (.preemptionRequest n) s = .next (askHalt s vs n)) ∧
    (∀ u n tu t, s.task? u = some tu → s.task? n = some t → tu.phase = .started →
      let s₁ := s.setTask u { tu with expired := true }
      let r := (claims s₁ n t).findSome? (fun k => claimVictims s₁ n t k (givesWay s₁ (classOf s₁ n) k))
      (∀ vs, r = some vs → exec (.sliceExpiry u n) s = .next (askHalt s₁ vs n)) ∧
      (r = none → exec (.sliceExpiry u n) s = .next s₁)) ∧
    (∀ n t claim among,
      (∀ vs, placement s [] n t claim = none → heldBack s n t (claimLanes s t claim) = false →
        victims s n t claim among = some vs → vs ≠ [] → claimVictims s n t claim among = some vs) ∧
      (∀ vs, victims s n t claim among = some vs → ∀ v ∈ vs, v ∉ chosen s ∧
        ∃ e ∈ s.tasks, e.1 ≠ n ∧ e.2.phase = .started ∧ among e.1 e.2 = true ∧ v ∈ (taskHarts s e.2).map (·.1))) ∧
    (∀ n h, s.hart? n = some h →
      (h.status = .resident → h.haltReq = true → h.leaving = false → h.caughtUp = true →
        exec (.hartHalt n) s = .next ((haltHart s n).modHart n (fun r => { r with status := .halted, haltReq := false }))) ∧
      (h.status = .halted → (∀ e ∈ s.outstanding, e.2.hart = n → e.2.load = true) →
        let f := writeFrame (contextRows (flushCounts s h.column) h) h 6 h.pc 0
        exec (.hartSaved n) s = .next (freeRows (f.1.setHart n { f.2 with status := .saved, saves := h.saves + 1 }) n h.column)) ∧
      (∀ t s' ids lanes, h.status = .saved → s.task? h.task = some t →
        (t.srec.mode % 2 = 0 ∧ ids = [n] ∧ lanes = h.lanesOf ∨
          t.srec.mode % 2 = 1 ∧ ids = t.harts.map (·.2) ∧ lanes = (savedHarts s h.task).flatMap (·.lanesOf) ∧
            ∀ e ∈ t.harts, ∀ r, s.hart? e.2 = some r → r.status ≠ .halted ∧ r.haltReq = false) →
        heldBack s h.task t lanes = false → returnAll s ids = some s' →
        let back := takenUp (resetAging s' h.task) h.task
        ((∀ k ∈ ids, ∀ r, s.hart? k = some r → r.status = .saved → ∀ b ∈ r.badContext, b.part ≠ .scalar) →
          exec (.hartResume n) s = .next back) ∧
        ((∃ k ∈ ids, ∃ r, s.hart? k = some r ∧ r.status = .saved ∧ ∃ b ∈ r.badContext, b.part = .scalar) →
          exec (.hartResume n) s = .next ((endTask back h.task .mcheck).getD back))) ∧
      (∀ mask, h.wait = .waitev mask →
        (eventsHeld s n h mask ≠ 0 → exec (.waitevWake n) s = .next (s.setHart n { h with wait := .none })) ∧
        exec (.waitevTimeout n) s = .next (s.setHart n { h with wait := .none })) ∧
      (∀ va, h.wait = .staleRow va → h.caughtUp = true → exec (.rowWindowTimeout n) s = .next (deliver s n h .pageWin h.pc va))) ∧
    (∀ root vpages,
      let s₁ := { s with stackTab := s.stackTab.map (fun (e : Nat × Stack) =>
        (e.1, { e.2 with tlb := e.2.tlb.filter (fun t => !(t.root == root && vpages.contains t.vpage)) })) }
      exec (.shootdown root vpages) s = .next { s₁ with columns := s₁.columns.map (fun (e : Nat × Column) =>
        (e.1, { e.2 with rowWin := e.2.rowWin.map (fun r =>
          if (s₁.hart? r.hart).any (fun h => s₁.rootOf h == root) && vpages.contains r.vpage then { r with stale := true } else r) })) }) ∧
    (∀ c n vpage leaf, leafOk leaf.toNat = true → regionOf (leafAddress leaf.toNat 0) = .dram →
      let hit (r : RowEntry) : Bool := r.stale && r.vpage == vpage && (s.hart? r.hart).any (fun h => h.task == n)
      (∃ r ∈ (s.col c).rowWin, hit r = true) →
      let s₁ := (s.modCol c (fun k => { k with
          rowWin := k.rowWin.map (fun r => if hit r then { r with leaf := leaf.toNat, stale := false } else r) })).modTask n (fun t =>
        { t with pages := t.pages.map (fun p => if p.vpage = vpage then { p with leaf := leaf.toNat } else p) })
      exec (.rowWindowReload c n vpage leaf) s = .next { s₁ with harts := s₁.harts.map (fun e => match e.2.wait with
        | .staleRow va =>
          if (((s.col c).rowWin.filter hit).map (·.hart)).contains e.1 && va.toNat / 2 ^ 21 == vpage then (e.1, { e.2 with wait := .none })
          else e
        | _ => e) })

/-! ## Platform -/

/-- R10, R27, R308 to R310, R320, R343, R344, R357 to R363: the steps of the platform, where they can occur: the retirement of a first,
second or third cluster of a column, where each change of a Saved hart (log 51), the half that is left (log 52) and a cluster that is
retired again (log 53) are the model's readings; a remapped row; a change of the array ratio; the arbiter's round, which gives each stack
its share of the pool and each column the window and the duty that follow, from estimates that are free (log 35), where the sharing and the
values within the spec's limits are the model's choice (log 56); a column's window as its limits leave it now; a monitor reading, with what it
asks of the columns, and the loss of power that one of 105 degrees or its removal is; bring-up, stage by stage, to the end or to the stage that
fails, with the defects that the model gives the hardware (log 55), and what a sound one leaves; the failure of a scale-up port. -/
def Obligations.PlatformStepsComplete : Prop :=
  ∀ s : State,
    (∀ c cluster, c < 4096 → cluster < 8 → (s.col c).failed = false → columnQuiet s c = true →
      let s₁ := (s.note (.cluster c cluster)).modCol c (fun k => { k with clusters := k.clusters ++ [cluster] })
      ((s.col c).clusters = [] → exec (.laneRetirement c cluster) s = .next (haltColumn s₁ c (fun _ => true))) ∧
      (∀ a, (s.col c).clusters = [a] →
        let half := usableHalf a cluster
        let hit (h : Hart) : Bool := h.holds c (4 * (1 - half)) 4
        let s₂ := haltColumn (s₁.modCol c (fun k => { k with half := some half })) c hit
        exec (.laneRetirement c cluster) s = .next (s₂.harts.foldl (fun s e =>
          match s.hart? e.1 with
          | some h =>
            if (h.inPlace || h.status == .saved) && hit h then (shrinkHart s e.1 h half).getD (machineCheck s h.task) else s
          | none => s) s₂)) ∧
      (2 ≤ (s.col c).clusters.length → exec (.laneRetirement c cluster) s = .next (failColumn s₁ c))) ∧
    (∀ c way spare row, c < 4096 → way < 64 → spare < 12 → row < 2048 →
      let e : BitVec 32 := BitVec.ofNat 32 (2 ^ 31 + row)
      let pieces := rowPieces c way row
      let s₁ := recordPieces (baseAccess s (pieces.take 1) .hub) 3 pieces
      let s₂ := (({ s₁ with flashRemap := put s₁.flashRemap (c * 768 + way * 12 + spare) e }).note (.remap c)).modCol c (fun k => { k with
        remap := (List.range 3).foldl (fun m i => put m (remapKey i way spare) (some e)) k.remap })
      exec (.remapUpdate c way spare row) s = .next ((pieces.filter (fun p => find? s.marks p == some .uncorrectable)).foldl poisonPiece
        (baseAccess (loadTable (askCopies (askCopies s₂ c [way]) c (List.range 64)) c) (pieces.take 1) .hub))) ∧
    (∀ stack ratio, stack < 16 → (∀ e ∈ s.columns, e.1 / 256 = stack → refreshing e.2 = false) →
      exec (.arrayRatioChange stack ratio) s = .next ((passStack { s with free := s.free + 1 } stack
        (Config.stallCycles s.free % 801)).modStk stack (fun k => { k with ratio := ratio }))) ∧
    (let ds := (List.range 16).map (estimate s)
      let all := budgets s (ds.zipIdx.map (fun e => demandOf s e.2 e.1))
      ∃ t, exec .budgetRecompute s = .next t ∧ t.mem = s.mem ∧ t.harts = s.harts ∧ t.tasks = s.tasks ∧ t.queues = s.queues ∧
        t.modcap = s.modcap ∧
        (∀ n, n < 16 →
          let d := estimate s n
          let held := leakage + reserves s n
          let l := d.limits (all.getD n 0 - held) (s.stk n).maxWin
          (t.stk n).budget = all.getD n 0 ∧ (t.stk n).pest = held + d.power l.1 l.2 ∧ (t.stk n).askWin = l.1 ∧ (t.stk n).askDuty = l.2) ∧
        (∀ c, c < 4096 → ((t.col c).winLen, (t.col c).duty) = columnLimits t c)) ∧
    (∀ demands : List Nat, demands.length = 16 → 900 ≤ s.modcap →
      (budgets s demands).sum ≤ (s.modcap - 450) * 1000 ∧ ∀ b ∈ budgets s demands, leakage ≤ b) ∧
    (∀ c,
      (classZero s c = true → s.winNow c ≤ (s.stk (c / 256)).resWin) ∧
      (classZero s c = false → s.winNow c ≤ (s.stk (c / 256)).maxWin ∧ s.winNow c ≤ s.winShown (c / 256) ∧
        ((s.stk (c / 256)).thermal = true → s.winNow c = (s.stk (c / 256)).maxWin ∧ (columnLimits s c).2 ≤ 4)) ∧
      (c % 256 / 16 ∈ (s.stk (c / 256)).lowRows → (columnLimits s c).2 ≤ 8)) ∧
    (∀ temps lowRows okRows,
      ((∃ l ∈ temps, ∃ x ∈ l, 105 ≤ x) → s.powered = true → exec (.monitorReading temps lowRows okRows) s = .next (powerLost s)) ∧
      ((∀ l ∈ temps, ∀ x ∈ l, x < 105) → ∃ t, exec (.monitorReading temps lowRows okRows) s = .next t ∧ t.mem = s.mem ∧
        t.harts = s.harts ∧ t.tasks = s.tasks ∧ t.queues = s.queues ∧
        (∀ n l, n < 16 → temps[n]? = some l →
          let top := l.foldl max 0
          (t.stk n).temps = l ∧ (t.stk n).tmax = top % 256 ∧ ((t.stk n).hot = true ↔ ∃ x ∈ l.take 8, 85 < x) ∧
          ((t.stk n).thermal = true ↔ 95 ≤ top ∨ (s.stk n).thermal = true ∧ 90 ≤ top)) ∧
        (∀ n r, n < 16 → (r ∈ (t.stk n).lowRows ↔ (r ∈ (s.stk n).lowRows ∨ (n, r) ∈ lowRows) ∧ (n, r) ∉ okRows)) ∧
        (∀ c, c < 4096 → ((t.col c).winLen, (t.col c).duty) = columnLimits t c))) ∧
    (s.powered = true → exec .powerRemoval s = .next (powerLost s)) ∧
    (s.powered = false → exec .powerOn s = .next (bringUp (span 1 8) { powerLost s with powered := true })) ∧
    (∀ (u : State) (n : Nat) (l : List Nat),
      (imageOk u n = false → bringUp (n :: l) u = { u with stage := n }) ∧
      (imageOk u n = true → Defect.stage n ∈ u.defects → (bringUp (n :: l) u).stage = n ∧ (bringUp (n :: l) u).columns = u.columns) ∧
      (imageOk u n = true → Defect.stage n ∉ u.defects → bringUp (n :: l) u = bringUp l (doStage u n)) ∧
      (bringUp [] u).stage = 15) ∧
    (s.powered = false → s.defects = [] → s.faults = [] → (∀ e ∈ s.columns, e.2.clusters = []) →
      let bad := [1, 2, 3].find? (fun n => !imageOk s n)
      ∃ t, exec .powerOn s = .next t ∧ t.powered = true ∧ t.stage = bad.getD 15 ∧ t.mem = State.reset.mem ∧ t.tasks = [] ∧ t.harts = [] ∧
        (bad = none → t.identity = deviceIdentity ∧ t.moduleNum = Config.moduleNumber % 18) ∧
        (∀ n i, n < 3 → (∀ m, bad = some m → n + 1 < m) → s.images[n]? = some i →
          t.measured.toList.getD n [] = extend (List.replicate 64 0) i) ∧
        (∀ n, 3 ≤ n → n < 8 → t.measured.toList.getD n [] = List.replicate 64 0)) ∧
    (∀ port, port < 16 → hasBit s.ports port = true →
      let s₁ := { s with ports := putBit s.ports port false }.note (.port port)
      let s₂ := (s₁.outstanding.filter (fun e => !e.2.load && e.2.port == 4 + port && decide (e.2.step < 2))).foldl (fun s e => resend s e.1 e.2) s₁
      exec (.scaleupPortFailure port) s = .next
        ((s₂.hubOut.filter (fun e => !e.2.load && e.2.port == 4 + port)).foldl (fun s e => resendHub s e.1 e.2) s₂)) ∧
    (∀ port pa, scaleupPort s pa ≠ port → hasBit s.ports (scaleupPort s pa) = true →
      scaleupPort { s with ports := putBit s.ports port false } pa = scaleupPort s pa)

/-! ## The host path -/

/-- R6, R53, R276, R337 to R347, R360: the operations of hosts, of other modules and of the steward, where they can occur: a write, a read
and the atomics of a region that allows them; one that is refused, because no region has its key, the partition's traffic is refused, or the
region does not allow it or does not reach its bytes: a NAK, a note in the log, and no byte of memory changed; an operation that is not
supported; and every later packet of a queue pair in the error state, which is dropped, by the model's reading (log 59); attestation; the keys
of a confidential partition; a partition's creation; writes of hub registers; accesses from other modules, of which one outside stacked DRAM
and hub SRAM is answered as failed, by the model's reading (log 64); the end of a remote access of a hart: a write that is done, one that
fails and ends the task, a load's data or its failure, the byte of which a nibble is replaced (the model's choice, log 42), a host's packet that
is dropped (the packets' length is free, log 60); and the end of one of the hub's own, whose reads of counters, and what one that fails leaves,
are the model's choice (logs 46, 74). -/
def Obligations.HostStepsComplete : Prop :=
  ∀ s : State,
    (∀ (qp : HostQp) (rkey va : Nat), portsUp s = true → qp.port < 4 →
      let nak (u : State) : State := (u.note (.nak qp.port qp.qpn)).reply (.nak qp)
      (∀ opcode, exec (.unsupportedOperation qp opcode) s = .next (s.reply (if s.qpErrors.contains qp then .dropped qp else .nak qp))) ∧
      (s.qpErrors.contains qp = true →
        (∀ data, exec (.rdmaWrite qp rkey va data) s = .next (s.reply (.dropped qp))) ∧
        (∀ n, exec (.rdmaRead qp rkey va n) s = .next (s.reply (.dropped qp))) ∧
        (∀ v, exec (.fetchAndAdd qp rkey va v) s = .next (s.reply (.dropped qp))) ∧
        ∀ cmp swap, exec (.cmpAndSwap qp rkey va cmp swap) s = .next (s.reply (.dropped qp))) ∧
      (s.qpErrors.contains qp = false →
        (∀ r, s.regions.find? (fun r => r.rkey == rkey) = some r → keysReady s r.part qp.port qp.qpn = false) →
        (∀ data, exec (.rdmaWrite qp rkey va data) s = .next (nak s)) ∧ (∀ n, exec (.rdmaRead qp rkey va n) s = .next (nak s)) ∧
        (∀ v, exec (.fetchAndAdd qp rkey va v) s = .next (nak s)) ∧ ∀ cmp swap, exec (.cmpAndSwap qp rkey va cmp swap) s = .next (nak s)) ∧
      (∀ r, s.qpErrors.contains qp = false → s.regions.find? (fun r => r.rkey == rkey) = some r → keysReady s r.part qp.port qp.qpn = true →
        (∀ data,
          let opened := openIn s r.part qp (headersOf .hostWrite qp.qpn r.rkey va data.length) data
          (∀ s₁ d, opened = .ok s₁ d → s₁.mem = s.mem ∧
            (∀ s₂ s₃, regionWrite s₁ r va d = (s₂, some s₃) → exec (.rdmaWrite qp rkey va data) s = .next (s₃.reply (.ack qp))) ∧
            (∀ s₂, regionWrite s₁ r va d = (s₂, none) → s₂.mem = s.mem ∧ exec (.rdmaWrite qp rkey va data) s = .next (nak s₂))) ∧
          (opened = .refused → exec (.rdmaWrite qp rkey va data) s = .next (nak s)) ∧
          (∀ s₁ d, opened = .dropped s₁ d → exec (.rdmaWrite qp rkey va data) s =
            .next ((if d.isEmpty then s₁ else (regionWrite s₁ r va d).2.getD s₁).reply (.dropped qp)))) ∧
        (∀ n,
          (∀ s₁, regionPlaces s r ⟨true, false, false⟩ va n = (s₁, none) → s₁.mem = s.mem ∧
            exec (.rdmaRead qp rkey va n) s = .next (nak s₁)) ∧
          (∀ s₁ l, regionPlaces s r ⟨true, false, false⟩ va n = (s₁, some l) →
            let pas := l.map (·.1)
            (allRegs pas = false → (r.queues = true ∨ pas.all inMemory = false) → s₁.mem = s.mem ∧
              exec (.rdmaRead qp rkey va n) s = .next (nak s₁)) ∧
            ((allRegs pas = true ∨ r.queues = false ∧ pas.all inMemory = true) →
              let s₂ := recordPieces (readAccess s₁ l false .hub) 3 (distinct (pas.map pieceOf))
              ∀ s₃ d, sealOut { s₂ with free := s₂.free + n } r.part qp.port qp.qpn
                  (headersOf .readAnswer qp.qpn r.rkey va (hostBytes s₂ pas).length) (hostBytes s₂ pas) = (s₃, some d) →
                exec (.rdmaRead qp rkey va n) s = .next (s₃.reply (.data qp d))))) ∧
        (∀ s₁, atomicPlaces s r va = (s₁, none) → s₁.mem = s.mem ∧ (∀ v, exec (.fetchAndAdd qp rkey va v) s = .next (nak s₁)) ∧
          ∀ cmp swap, exec (.cmpAndSwap qp rkey va cmp swap) s = .next (nak s₁)) ∧
        (∀ s₁ pas, atomicPlaces s r va = (s₁, some pas) →
          (pas.all inMemory = true → allRegs pas = false → r.queues = false →
            let s₂ := (atomicReply s₁ qp pas).1
            let old := ofBytes (atomicReply s₁ qp pas).2
            (∀ v, exec (.fetchAndAdd qp rkey va v) s = .next (writePieces { s₂ with free := s₂.free + 8 }
              (pas.zip (toBytes 8 ((old + v.toNat) % 2 ^ 64))) false)) ∧
            (∀ cmp swap : Word, exec (.cmpAndSwap qp rkey va cmp swap) s = .next
              (if old = cmp.toNat then writePieces { s₂ with free := s₂.free + 8 } (pas.zip (toBytes 8 swap.toNat)) false
              else { s₂ with free := s₂.free + 8 }))) ∧
          (allRegs pas = false → (pas.all inMemory = false ∨ r.queues = true) → s₁.mem = s.mem ∧
            (∀ v, exec (.fetchAndAdd qp rkey va v) s = .next (nak s₁)) ∧
            ∀ cmp swap, exec (.cmpAndSwap qp rkey va cmp swap) s = .next (nak s₁)) ∧
          (allRegs pas = true → (r.queues = false ∨ pas.headD 0 < 0x8010100000 ∧ pas.headD 0 % 64 = 32) →
            ∀ v, exec (.fetchAndAdd qp rkey va v) s = .next (hubFetchAdd (atomicReply s₁ qp pas).1 (pas.headD 0) v))))) ∧
    (∀ (r : MemRegion) (w : Want) (va n : Nat),
      ((w.rd = true ∧ r.rd = false) ∨ (w.wr = true ∧ r.wr = false) ∨ va < r.base ∨ r.base + r.size < va + n) →
      regionPlaces s r w va n = (s, none)) ∧
    (∀ (r : MemRegion) (w : Want) (va n : Nat) (s₁ : State) (l : List (Nat × Nat)) (e : Nat × Cause),
      hubPlaces s r.root r.part w va n = (s₁, l, some e) → (regionPlaces s r w va n).2 = none) ∧
    (∀ port nonce part, portsUp s = true → port < 4 → nonce.length = 32 → part < 2 ^ 32 →
      exec (.attestationRequest port nonce part) s =
        .next (s.reply (.report port (reportBody s nonce part ++ Config.mlDsaSign s.identity.sec (reportBody s nonce part))))) ∧
    (∀ port part ct p, portsUp s = true → port < 4 → find? s.partitions part = some p → p.conf = true → ct.length = 1088 →
      let ss := Config.mlKemDecaps p.dk ct
      exec (.keyEncapsulation port part ct) s = .next { s with partitions := put s.partitions part { p with
        h2d := deriveKey labelH2d ss part, d2h := deriveKey labelD2h ss part, sealSecret := deriveKey labelSeal ss part
        keyed := true, rxFrom := p.rx, txFrom := p.tx } }) ∧
    (∀ part conf regions, part < 2 ^ 32 → find? s.partitions part = none → ∃ keys : List Byte × List Byte,
      let new : Partition := { conf := conf, ek := keys.1, dk := keys.2 }
      (conf = false → keys = ([], [])) ∧ exec (.partitionCreation part conf regions) s = .next { s with
        free := s.free + 1
        partitions := put s.partitions part new
        regions := s.regions ++ regions.map (fun r => { r with part := part }) }) ∧
    (∀ who addr v, regionOf addr = .regs → exec (.registerWrite who addr v) s = .next (hubWrite s who addr v)) ∧
    (∀ pa n,
      ((span pa n).all inMemory = false → ∀ data, exec (.incomingRemoteAccess pa n data) s =
        .next (s.reply (.remoteData (List.replicate n none)))) ∧
      ((span pa n).all inMemory = true →
        (∀ d, d.length = n →
          let s₁ := baseAccess s (span pa n) .hub
          exec (.incomingRemoteAccess pa n (some ⟨d, none⟩)) s = .next (writeBytes s₁ 3 pa d) ∧
          (∀ high, n = 1 → exec (.incomingRemoteAccess pa n (some ⟨d, some high⟩)) s =
            .next (writeBytes s₁ 3 pa (mergeNibble s₁ pa high (d.getD 0 0))))) ∧
        (let s₂ := recordPieces (hubAccess s (span pa n) false) 3 (piecesOf pa n)
        exec (.incomingRemoteAccess pa n none) s = .next (s₂.reply (.remoteData
          ((span pa n).map (fun a => if badByte s₂ a then none else some (readByte s₂.mem a)))))))) ∧
    (∀ n r h, find? s.outstanding n = some r → s.hart? r.hart = some h → r.step ≠ 2 →
      let gone (u : State) (failed : Bool) : State :=
        let u := { u with outstanding := del u.outstanding n }
        launchWaiting (if failed then u.note (.remote n) else u)
      let woken (u : State) (f : Hart → Hart) : State :=
        u.setHart r.hart (f { h with wait := if h.wait = .remote then .none else h.wait })
      let back (x : Option Nat) (h : Hart) : Hart := { h with arrived := put h.arrived r.idx x, remote := h.remote.filter (· != n) }
      (r.load = false →
        let u := woken (gone s true) id
        let t := (endTask u h.task (.remote r.hart r.pc r.va)).getD u
        exec (.remoteResponse n none) s = .next t ∧ exec (.remoteTimeout n) s = .next t ∧
        (r.step < 2 → r.asksByte s = false → ∀ v, exec (.remoteResponse n (some v)) s = .next (woken (gone s false) id))) ∧
      (r.load = true → r.chan = none → n ∈ h.remote →
        exec (.remoteResponse n none) s = .next (woken (gone s true) (back none)) ∧
        exec (.remoteTimeout n) s = .next (woken (gone s true) (back none)) ∧
        (∀ v s₁ d, r.step < 2 → openAnswer s r.pa r.data.length v = .ok s₁ d →
          exec (.remoteResponse n (some v)) s = .next (woken (gone s₁ false) (back (some (ofBytes d)))))) ∧
      (∀ v s₁ d high, r.asksByte s = true → r.high = some high → openAnswer s r.pa r.data.length v = .ok s₁ d →
        r.asksByte s₁ = true → exec (.remoteResponse n (some v)) s = .next (writeNibble s₁ n r high (ofBytes d))) ∧
      (∀ v, r.step < 2 → (r.load = true ∨ r.asksByte s = true) →
        (∀ s₁ d, openAnswer s r.pa r.data.length v = .dropped s₁ d → exec (.remoteResponse n (some v)) s = .next s₁) ∧
        (openAnswer s r.pa r.data.length v = .refused → exec (.remoteResponse n (some v)) s = exec (.remoteResponse n none) s))) ∧
    (∀ n a, find? s.outstanding n = none → find? s.hubOut n = some a →
      let failed := { s with hubOut := del s.hubOut n }.note (if a.load then .remote n else .completion a.task)
      exec (.remoteResponse n none) s = .next failed ∧ exec (.remoteTimeout n) s = .next failed ∧
      (a.load = false → ∀ v, exec (.remoteResponse n (some v)) s = .next { s with hubOut := del s.hubOut n }) ∧
      (∀ v s₁ d t, a.load = true → openAnswer s a.pa a.data.length v = .ok s₁ d → s₁.task? a.task = some t → t.phase = .waiting →
        let s₂ := { s₁ with hubOut := del s₁.hubOut n }
        exec (.remoteResponse n (some v)) s = .next
          (if t.srec.depthresh ≤ ofBytes d then s₂.setTask a.task { t with depMet := true } else s₂)))
end

