-- ==== Sys2Proof/Laws/State.lean ====
section
/-! SUPPORT. Laws/State.lean: what each update of the state and of a hart changes and what it leaves, field by field. -/

namespace Sys2Proof.Machine

@[simp] theorem State.setCol_powered (s : State) (n : Nat) (v : Column) : (s.setCol n v).powered = s.powered := rfl
@[simp] theorem State.setCol_stage (s : State) (n : Nat) (v : Column) : (s.setCol n v).stage = s.stage := rfl
@[simp] theorem State.setCol_mem (s : State) (n : Nat) (v : Column) : (s.setCol n v).mem = s.mem := rfl
@[simp] theorem State.setCol_marks (s : State) (n : Nat) (v : Column) : (s.setCol n v).marks = s.marks := rfl
@[simp] theorem State.setCol_faults (s : State) (n : Nat) (v : Column) : (s.setCol n v).faults = s.faults := rfl
@[simp] theorem State.setCol_stackTab (s : State) (n : Nat) (v : Column) : (s.setCol n v).stackTab = s.stackTab := rfl
@[simp] theorem State.setCol_harts (s : State) (n : Nat) (v : Column) : (s.setCol n v).harts = s.harts := rfl
@[simp] theorem State.setCol_shadows (s : State) (n : Nat) (v : Column) : (s.setCol n v).shadows = s.shadows := rfl
@[simp] theorem State.setCol_tasks (s : State) (n : Nat) (v : Column) : (s.setCol n v).tasks = s.tasks := rfl
@[simp] theorem State.setCol_queues (s : State) (n : Nat) (v : Column) : (s.setCol n v).queues = s.queues := rfl
@[simp] theorem State.setCol_slots (s : State) (n : Nat) (v : Column) : (s.setCol n v).slots = s.slots := rfl
@[simp] theorem State.setCol_stamps (s : State) (n : Nat) (v : Column) : (s.setCol n v).stamps = s.stamps := rfl
@[simp] theorem State.setCol_order (s : State) (n : Nat) (v : Column) : (s.setCol n v).order = s.order := rfl
@[simp] theorem State.setCol_nextTask (s : State) (n : Nat) (v : Column) : (s.setCol n v).nextTask = s.nextTask := rfl
@[simp] theorem State.setCol_nextHart (s : State) (n : Nat) (v : Column) : (s.setCol n v).nextHart = s.nextHart := rfl
@[simp] theorem State.setCol_targets (s : State) (n : Nat) (v : Column) : (s.setCol n v).targets = s.targets := rfl
@[simp] theorem State.setCol_regions (s : State) (n : Nat) (v : Column) : (s.setCol n v).regions = s.regions := rfl
@[simp] theorem State.setCol_outstanding (s : State) (n : Nat) (v : Column) : (s.setCol n v).outstanding = s.outstanding := rfl
@[simp] theorem State.setCol_hubOut (s : State) (n : Nat) (v : Column) : (s.setCol n v).hubOut = s.hubOut := rfl
@[simp] theorem State.setCol_nextRemote (s : State) (n : Nat) (v : Column) : (s.setCol n v).nextRemote = s.nextRemote := rfl
@[simp] theorem State.setCol_ports (s : State) (n : Nat) (v : Column) : (s.setCol n v).ports = s.ports := rfl
@[simp] theorem State.setCol_moduleNum (s : State) (n : Nat) (v : Column) : (s.setCol n v).moduleNum = s.moduleNum := rfl
@[simp] theorem State.setCol_measured (s : State) (n : Nat) (v : Column) : (s.setCol n v).measured = s.measured := rfl
@[simp] theorem State.setCol_images (s : State) (n : Nat) (v : Column) : (s.setCol n v).images = s.images := rfl
@[simp] theorem State.setCol_flashRemap (s : State) (n : Nat) (v : Column) : (s.setCol n v).flashRemap = s.flashRemap := rfl
@[simp] theorem State.setCol_identity (s : State) (n : Nat) (v : Column) : (s.setCol n v).identity = s.identity := rfl
@[simp] theorem State.setCol_partitions (s : State) (n : Nat) (v : Column) : (s.setCol n v).partitions = s.partitions := rfl
@[simp] theorem State.setCol_films (s : State) (n : Nat) (v : Column) : (s.setCol n v).films = s.films := rfl
@[simp] theorem State.setCol_defects (s : State) (n : Nat) (v : Column) : (s.setCol n v).defects = s.defects := rfl
@[simp] theorem State.setCol_modcap (s : State) (n : Nat) (v : Column) : (s.setCol n v).modcap = s.modcap := rfl
@[simp] theorem State.setCol_qpErrors (s : State) (n : Nat) (v : Column) : (s.setCol n v).qpErrors = s.qpErrors := rfl
@[simp] theorem State.setCol_log (s : State) (n : Nat) (v : Column) : (s.setCol n v).log = s.log := rfl
@[simp] theorem State.setCol_replies (s : State) (n : Nat) (v : Column) : (s.setCol n v).replies = s.replies := rfl
@[simp] theorem State.setCol_agenda (s : State) (n : Nat) (v : Column) : (s.setCol n v).agenda = s.agenda := rfl
@[simp] theorem State.setCol_upsets (s : State) (n : Nat) (v : Column) : (s.setCol n v).upsets = s.upsets := rfl
@[simp] theorem State.setCol_cur (s : State) (n : Nat) (v : Column) : (s.setCol n v).cur = s.cur := rfl
@[simp] theorem State.setCol_turn (s : State) (n : Nat) (v : Column) : (s.setCol n v).turn = s.turn := rfl
@[simp] theorem State.setCol_free (s : State) (n : Nat) (v : Column) : (s.setCol n v).free = s.free := rfl
@[simp] theorem State.modCol_powered (s : State) (n : Nat) (f : Column → Column) : (s.modCol n f).powered = s.powered := rfl
@[simp] theorem State.modCol_stage (s : State) (n : Nat) (f : Column → Column) : (s.modCol n f).stage = s.stage := rfl
@[simp] theorem State.modCol_mem (s : State) (n : Nat) (f : Column → Column) : (s.modCol n f).mem = s.mem := rfl
@[simp] theorem State.modCol_marks (s : State) (n : Nat) (f : Column → Column) : (s.modCol n f).marks = s.marks := rfl
@[simp] theorem State.modCol_faults (s : State) (n : Nat) (f : Column → Column) : (s.modCol n f).faults = s.faults := rfl
@[simp] theorem State.modCol_stackTab (s : State) (n : Nat) (f : Column → Column) : (s.modCol n f).stackTab = s.stackTab := rfl
@[simp] theorem State.modCol_harts (s : State) (n : Nat) (f : Column → Column) : (s.modCol n f).harts = s.harts := rfl
@[simp] theorem State.modCol_shadows (s : State) (n : Nat) (f : Column → Column) : (s.modCol n f).shadows = s.shadows := rfl
@[simp] theorem State.modCol_tasks (s : State) (n : Nat) (f : Column → Column) : (s.modCol n f).tasks = s.tasks := rfl
@[simp] theorem State.modCol_queues (s : State) (n : Nat) (f : Column → Column) : (s.modCol n f).queues = s.queues := rfl
@[simp] theorem State.modCol_slots (s : State) (n : Nat) (f : Column → Column) : (s.modCol n f).slots = s.slots := rfl
@[simp] theorem State.modCol_stamps (s : State) (n : Nat) (f : Column → Column) : (s.modCol n f).stamps = s.stamps := rfl
@[simp] theorem State.modCol_order (s : State) (n : Nat) (f : Column → Column) : (s.modCol n f).order = s.order := rfl
@[simp] theorem State.modCol_nextTask (s : State) (n : Nat) (f : Column → Column) : (s.modCol n f).nextTask = s.nextTask := rfl
@[simp] theorem State.modCol_nextHart (s : State) (n : Nat) (f : Column → Column) : (s.modCol n f).nextHart = s.nextHart := rfl
@[simp] theorem State.modCol_targets (s : State) (n : Nat) (f : Column → Column) : (s.modCol n f).targets = s.targets := rfl
@[simp] theorem State.modCol_regions (s : State) (n : Nat) (f : Column → Column) : (s.modCol n f).regions = s.regions := rfl
@[simp] theorem State.modCol_outstanding (s : State) (n : Nat) (f : Column → Column) : (s.modCol n f).outstanding = s.outstanding := rfl
@[simp] theorem State.modCol_hubOut (s : State) (n : Nat) (f : Column → Column) : (s.modCol n f).hubOut = s.hubOut := rfl
@[simp] theorem State.modCol_nextRemote (s : State) (n : Nat) (f : Column → Column) : (s.modCol n f).nextRemote = s.nextRemote := rfl
@[simp] theorem State.modCol_ports (s : State) (n : Nat) (f : Column → Column) : (s.modCol n f).ports = s.ports := rfl
@[simp] theorem State.modCol_moduleNum (s : State) (n : Nat) (f : Column → Column) : (s.modCol n f).moduleNum = s.moduleNum := rfl
@[simp] theorem State.modCol_measured (s : State) (n : Nat) (f : Column → Column) : (s.modCol n f).measured = s.measured := rfl
@[simp] theorem State.modCol_images (s : State) (n : Nat) (f : Column → Column) : (s.modCol n f).images = s.images := rfl
@[simp] theorem State.modCol_flashRemap (s : State) (n : Nat) (f : Column → Column) : (s.modCol n f).flashRemap = s.flashRemap := rfl
@[simp] theorem State.modCol_identity (s : State) (n : Nat) (f : Column → Column) : (s.modCol n f).identity = s.identity := rfl
@[simp] theorem State.modCol_partitions (s : State) (n : Nat) (f : Column → Column) : (s.modCol n f).partitions = s.partitions := rfl
@[simp] theorem State.modCol_films (s : State) (n : Nat) (f : Column → Column) : (s.modCol n f).films = s.films := rfl
@[simp] theorem State.modCol_defects (s : State) (n : Nat) (f : Column → Column) : (s.modCol n f).defects = s.defects := rfl
@[simp] theorem State.modCol_modcap (s : State) (n : Nat) (f : Column → Column) : (s.modCol n f).modcap = s.modcap := rfl
@[simp] theorem State.modCol_qpErrors (s : State) (n : Nat) (f : Column → Column) : (s.modCol n f).qpErrors = s.qpErrors := rfl
@[simp] theorem State.modCol_log (s : State) (n : Nat) (f : Column → Column) : (s.modCol n f).log = s.log := rfl
@[simp] theorem State.modCol_replies (s : State) (n : Nat) (f : Column → Column) : (s.modCol n f).replies = s.replies := rfl
@[simp] theorem State.modCol_agenda (s : State) (n : Nat) (f : Column → Column) : (s.modCol n f).agenda = s.agenda := rfl
@[simp] theorem State.modCol_upsets (s : State) (n : Nat) (f : Column → Column) : (s.modCol n f).upsets = s.upsets := rfl
@[simp] theorem State.modCol_cur (s : State) (n : Nat) (f : Column → Column) : (s.modCol n f).cur = s.cur := rfl
@[simp] theorem State.modCol_turn (s : State) (n : Nat) (f : Column → Column) : (s.modCol n f).turn = s.turn := rfl
@[simp] theorem State.modCol_free (s : State) (n : Nat) (f : Column → Column) : (s.modCol n f).free = s.free := rfl
@[simp] theorem State.modStk_powered (s : State) (n : Nat) (f : Stack → Stack) : (s.modStk n f).powered = s.powered := rfl
@[simp] theorem State.modStk_stage (s : State) (n : Nat) (f : Stack → Stack) : (s.modStk n f).stage = s.stage := rfl
@[simp] theorem State.modStk_mem (s : State) (n : Nat) (f : Stack → Stack) : (s.modStk n f).mem = s.mem := rfl
@[simp] theorem State.modStk_marks (s : State) (n : Nat) (f : Stack → Stack) : (s.modStk n f).marks = s.marks := rfl
@[simp] theorem State.modStk_faults (s : State) (n : Nat) (f : Stack → Stack) : (s.modStk n f).faults = s.faults := rfl
@[simp] theorem State.modStk_columns (s : State) (n : Nat) (f : Stack → Stack) : (s.modStk n f).columns = s.columns := rfl
@[simp] theorem State.modStk_harts (s : State) (n : Nat) (f : Stack → Stack) : (s.modStk n f).harts = s.harts := rfl
@[simp] theorem State.modStk_shadows (s : State) (n : Nat) (f : Stack → Stack) : (s.modStk n f).shadows = s.shadows := rfl
@[simp] theorem State.modStk_tasks (s : State) (n : Nat) (f : Stack → Stack) : (s.modStk n f).tasks = s.tasks := rfl
@[simp] theorem State.modStk_queues (s : State) (n : Nat) (f : Stack → Stack) : (s.modStk n f).queues = s.queues := rfl
@[simp] theorem State.modStk_slots (s : State) (n : Nat) (f : Stack → Stack) : (s.modStk n f).slots = s.slots := rfl
@[simp] theorem State.modStk_stamps (s : State) (n : Nat) (f : Stack → Stack) : (s.modStk n f).stamps = s.stamps := rfl
@[simp] theorem State.modStk_order (s : State) (n : Nat) (f : Stack → Stack) : (s.modStk n f).order = s.order := rfl
@[simp] theorem State.modStk_nextTask (s : State) (n : Nat) (f : Stack → Stack) : (s.modStk n f).nextTask = s.nextTask := rfl
@[simp] theorem State.modStk_nextHart (s : State) (n : Nat) (f : Stack → Stack) : (s.modStk n f).nextHart = s.nextHart := rfl
@[simp] theorem State.modStk_targets (s : State) (n : Nat) (f : Stack → Stack) : (s.modStk n f).targets = s.targets := rfl
@[simp] theorem State.modStk_regions (s : State) (n : Nat) (f : Stack → Stack) : (s.modStk n f).regions = s.regions := rfl
@[simp] theorem State.modStk_outstanding (s : State) (n : Nat) (f : Stack → Stack) : (s.modStk n f).outstanding = s.outstanding := rfl
@[simp] theorem State.modStk_hubOut (s : State) (n : Nat) (f : Stack → Stack) : (s.modStk n f).hubOut = s.hubOut := rfl
@[simp] theorem State.modStk_nextRemote (s : State) (n : Nat) (f : Stack → Stack) : (s.modStk n f).nextRemote = s.nextRemote := rfl
@[simp] theorem State.modStk_ports (s : State) (n : Nat) (f : Stack → Stack) : (s.modStk n f).ports = s.ports := rfl
@[simp] theorem State.modStk_moduleNum (s : State) (n : Nat) (f : Stack → Stack) : (s.modStk n f).moduleNum = s.moduleNum := rfl
@[simp] theorem State.modStk_measured (s : State) (n : Nat) (f : Stack → Stack) : (s.modStk n f).measured = s.measured := rfl
@[simp] theorem State.modStk_images (s : State) (n : Nat) (f : Stack → Stack) : (s.modStk n f).images = s.images := rfl
@[simp] theorem State.modStk_flashRemap (s : State) (n : Nat) (f : Stack → Stack) : (s.modStk n f).flashRemap = s.flashRemap := rfl
@[simp] theorem State.modStk_identity (s : State) (n : Nat) (f : Stack → Stack) : (s.modStk n f).identity = s.identity := rfl
@[simp] theorem State.modStk_partitions (s : State) (n : Nat) (f : Stack → Stack) : (s.modStk n f).partitions = s.partitions := rfl
@[simp] theorem State.modStk_films (s : State) (n : Nat) (f : Stack → Stack) : (s.modStk n f).films = s.films := rfl
@[simp] theorem State.modStk_defects (s : State) (n : Nat) (f : Stack → Stack) : (s.modStk n f).defects = s.defects := rfl
@[simp] theorem State.modStk_modcap (s : State) (n : Nat) (f : Stack → Stack) : (s.modStk n f).modcap = s.modcap := rfl
@[simp] theorem State.modStk_qpErrors (s : State) (n : Nat) (f : Stack → Stack) : (s.modStk n f).qpErrors = s.qpErrors := rfl
@[simp] theorem State.modStk_log (s : State) (n : Nat) (f : Stack → Stack) : (s.modStk n f).log = s.log := rfl
@[simp] theorem State.modStk_replies (s : State) (n : Nat) (f : Stack → Stack) : (s.modStk n f).replies = s.replies := rfl
@[simp] theorem State.modStk_agenda (s : State) (n : Nat) (f : Stack → Stack) : (s.modStk n f).agenda = s.agenda := rfl
@[simp] theorem State.modStk_upsets (s : State) (n : Nat) (f : Stack → Stack) : (s.modStk n f).upsets = s.upsets := rfl
@[simp] theorem State.modStk_cur (s : State) (n : Nat) (f : Stack → Stack) : (s.modStk n f).cur = s.cur := rfl
@[simp] theorem State.modStk_turn (s : State) (n : Nat) (f : Stack → Stack) : (s.modStk n f).turn = s.turn := rfl
@[simp] theorem State.modStk_free (s : State) (n : Nat) (f : Stack → Stack) : (s.modStk n f).free = s.free := rfl
@[simp] theorem State.setHart_powered (s : State) (n : Nat) (h : Hart) : (s.setHart n h).powered = s.powered := rfl
@[simp] theorem State.setHart_stage (s : State) (n : Nat) (h : Hart) : (s.setHart n h).stage = s.stage := rfl
@[simp] theorem State.setHart_mem (s : State) (n : Nat) (h : Hart) : (s.setHart n h).mem = s.mem := rfl
@[simp] theorem State.setHart_marks (s : State) (n : Nat) (h : Hart) : (s.setHart n h).marks = s.marks := rfl
@[simp] theorem State.setHart_faults (s : State) (n : Nat) (h : Hart) : (s.setHart n h).faults = s.faults := rfl
@[simp] theorem State.setHart_columns (s : State) (n : Nat) (h : Hart) : (s.setHart n h).columns = s.columns := rfl
@[simp] theorem State.setHart_stackTab (s : State) (n : Nat) (h : Hart) : (s.setHart n h).stackTab = s.stackTab := rfl
@[simp] theorem State.setHart_shadows (s : State) (n : Nat) (h : Hart) : (s.setHart n h).shadows = s.shadows := rfl
@[simp] theorem State.setHart_tasks (s : State) (n : Nat) (h : Hart) : (s.setHart n h).tasks = s.tasks := rfl
@[simp] theorem State.setHart_queues (s : State) (n : Nat) (h : Hart) : (s.setHart n h).queues = s.queues := rfl
@[simp] theorem State.setHart_slots (s : State) (n : Nat) (h : Hart) : (s.setHart n h).slots = s.slots := rfl
@[simp] theorem State.setHart_stamps (s : State) (n : Nat) (h : Hart) : (s.setHart n h).stamps = s.stamps := rfl
@[simp] theorem State.setHart_order (s : State) (n : Nat) (h : Hart) : (s.setHart n h).order = s.order := rfl
@[simp] theorem State.setHart_nextTask (s : State) (n : Nat) (h : Hart) : (s.setHart n h).nextTask = s.nextTask := rfl
@[simp] theorem State.setHart_nextHart (s : State) (n : Nat) (h : Hart) : (s.setHart n h).nextHart = s.nextHart := rfl
@[simp] theorem State.setHart_targets (s : State) (n : Nat) (h : Hart) : (s.setHart n h).targets = s.targets := rfl
@[simp] theorem State.setHart_regions (s : State) (n : Nat) (h : Hart) : (s.setHart n h).regions = s.regions := rfl
@[simp] theorem State.setHart_outstanding (s : State) (n : Nat) (h : Hart) : (s.setHart n h).outstanding = s.outstanding := rfl
@[simp] theorem State.setHart_hubOut (s : State) (n : Nat) (h : Hart) : (s.setHart n h).hubOut = s.hubOut := rfl
@[simp] theorem State.setHart_nextRemote (s : State) (n : Nat) (h : Hart) : (s.setHart n h).nextRemote = s.nextRemote := rfl
@[simp] theorem State.setHart_ports (s : State) (n : Nat) (h : Hart) : (s.setHart n h).ports = s.ports := rfl
@[simp] theorem State.setHart_moduleNum (s : State) (n : Nat) (h : Hart) : (s.setHart n h).moduleNum = s.moduleNum := rfl
@[simp] theorem State.setHart_measured (s : State) (n : Nat) (h : Hart) : (s.setHart n h).measured = s.measured := rfl
@[simp] theorem State.setHart_images (s : State) (n : Nat) (h : Hart) : (s.setHart n h).images = s.images := rfl
@[simp] theorem State.setHart_flashRemap (s : State) (n : Nat) (h : Hart) : (s.setHart n h).flashRemap = s.flashRemap := rfl
@[simp] theorem State.setHart_identity (s : State) (n : Nat) (h : Hart) : (s.setHart n h).identity = s.identity := rfl
@[simp] theorem State.setHart_partitions (s : State) (n : Nat) (h : Hart) : (s.setHart n h).partitions = s.partitions := rfl
@[simp] theorem State.setHart_films (s : State) (n : Nat) (h : Hart) : (s.setHart n h).films = s.films := rfl
@[simp] theorem State.setHart_defects (s : State) (n : Nat) (h : Hart) : (s.setHart n h).defects = s.defects := rfl
@[simp] theorem State.setHart_modcap (s : State) (n : Nat) (h : Hart) : (s.setHart n h).modcap = s.modcap := rfl
@[simp] theorem State.setHart_qpErrors (s : State) (n : Nat) (h : Hart) : (s.setHart n h).qpErrors = s.qpErrors := rfl
@[simp] theorem State.setHart_log (s : State) (n : Nat) (h : Hart) : (s.setHart n h).log = s.log := rfl
@[simp] theorem State.setHart_replies (s : State) (n : Nat) (h : Hart) : (s.setHart n h).replies = s.replies := rfl
@[simp] theorem State.setHart_agenda (s : State) (n : Nat) (h : Hart) : (s.setHart n h).agenda = s.agenda := rfl
@[simp] theorem State.setHart_upsets (s : State) (n : Nat) (h : Hart) : (s.setHart n h).upsets = s.upsets := rfl
@[simp] theorem State.setHart_cur (s : State) (n : Nat) (h : Hart) : (s.setHart n h).cur = s.cur := rfl
@[simp] theorem State.setHart_turn (s : State) (n : Nat) (h : Hart) : (s.setHart n h).turn = s.turn := rfl
@[simp] theorem State.setHart_free (s : State) (n : Nat) (h : Hart) : (s.setHart n h).free = s.free := rfl
@[simp] theorem State.setTask_powered (s : State) (n : Nat) (t : Task) : (s.setTask n t).powered = s.powered := rfl
@[simp] theorem State.setTask_stage (s : State) (n : Nat) (t : Task) : (s.setTask n t).stage = s.stage := rfl
@[simp] theorem State.setTask_mem (s : State) (n : Nat) (t : Task) : (s.setTask n t).mem = s.mem := rfl
@[simp] theorem State.setTask_marks (s : State) (n : Nat) (t : Task) : (s.setTask n t).marks = s.marks := rfl
@[simp] theorem State.setTask_faults (s : State) (n : Nat) (t : Task) : (s.setTask n t).faults = s.faults := rfl
@[simp] theorem State.setTask_columns (s : State) (n : Nat) (t : Task) : (s.setTask n t).columns = s.columns := rfl
@[simp] theorem State.setTask_stackTab (s : State) (n : Nat) (t : Task) : (s.setTask n t).stackTab = s.stackTab := rfl
@[simp] theorem State.setTask_harts (s : State) (n : Nat) (t : Task) : (s.setTask n t).harts = s.harts := rfl
@[simp] theorem State.setTask_shadows (s : State) (n : Nat) (t : Task) : (s.setTask n t).shadows = s.shadows := rfl
@[simp] theorem State.setTask_queues (s : State) (n : Nat) (t : Task) : (s.setTask n t).queues = s.queues := rfl
@[simp] theorem State.setTask_slots (s : State) (n : Nat) (t : Task) : (s.setTask n t).slots = s.slots := rfl
@[simp] theorem State.setTask_stamps (s : State) (n : Nat) (t : Task) : (s.setTask n t).stamps = s.stamps := rfl
@[simp] theorem State.setTask_order (s : State) (n : Nat) (t : Task) : (s.setTask n t).order = s.order := rfl
@[simp] theorem State.setTask_nextTask (s : State) (n : Nat) (t : Task) : (s.setTask n t).nextTask = s.nextTask := rfl
@[simp] theorem State.setTask_nextHart (s : State) (n : Nat) (t : Task) : (s.setTask n t).nextHart = s.nextHart := rfl
@[simp] theorem State.setTask_targets (s : State) (n : Nat) (t : Task) : (s.setTask n t).targets = s.targets := rfl
@[simp] theorem State.setTask_regions (s : State) (n : Nat) (t : Task) : (s.setTask n t).regions = s.regions := rfl
@[simp] theorem State.setTask_outstanding (s : State) (n : Nat) (t : Task) : (s.setTask n t).outstanding = s.outstanding := rfl
@[simp] theorem State.setTask_hubOut (s : State) (n : Nat) (t : Task) : (s.setTask n t).hubOut = s.hubOut := rfl
@[simp] theorem State.setTask_nextRemote (s : State) (n : Nat) (t : Task) : (s.setTask n t).nextRemote = s.nextRemote := rfl
@[simp] theorem State.setTask_ports (s : State) (n : Nat) (t : Task) : (s.setTask n t).ports = s.ports := rfl
@[simp] theorem State.setTask_moduleNum (s : State) (n : Nat) (t : Task) : (s.setTask n t).moduleNum = s.moduleNum := rfl
@[simp] theorem State.setTask_measured (s : State) (n : Nat) (t : Task) : (s.setTask n t).measured = s.measured := rfl
@[simp] theorem State.setTask_images (s : State) (n : Nat) (t : Task) : (s.setTask n t).images = s.images := rfl
@[simp] theorem State.setTask_flashRemap (s : State) (n : Nat) (t : Task) : (s.setTask n t).flashRemap = s.flashRemap := rfl
@[simp] theorem State.setTask_identity (s : State) (n : Nat) (t : Task) : (s.setTask n t).identity = s.identity := rfl
@[simp] theorem State.setTask_partitions (s : State) (n : Nat) (t : Task) : (s.setTask n t).partitions = s.partitions := rfl
@[simp] theorem State.setTask_films (s : State) (n : Nat) (t : Task) : (s.setTask n t).films = s.films := rfl
@[simp] theorem State.setTask_defects (s : State) (n : Nat) (t : Task) : (s.setTask n t).defects = s.defects := rfl
@[simp] theorem State.setTask_modcap (s : State) (n : Nat) (t : Task) : (s.setTask n t).modcap = s.modcap := rfl
@[simp] theorem State.setTask_qpErrors (s : State) (n : Nat) (t : Task) : (s.setTask n t).qpErrors = s.qpErrors := rfl
@[simp] theorem State.setTask_log (s : State) (n : Nat) (t : Task) : (s.setTask n t).log = s.log := rfl
@[simp] theorem State.setTask_replies (s : State) (n : Nat) (t : Task) : (s.setTask n t).replies = s.replies := rfl
@[simp] theorem State.setTask_agenda (s : State) (n : Nat) (t : Task) : (s.setTask n t).agenda = s.agenda := rfl
@[simp] theorem State.setTask_upsets (s : State) (n : Nat) (t : Task) : (s.setTask n t).upsets = s.upsets := rfl
@[simp] theorem State.setTask_cur (s : State) (n : Nat) (t : Task) : (s.setTask n t).cur = s.cur := rfl
@[simp] theorem State.setTask_turn (s : State) (n : Nat) (t : Task) : (s.setTask n t).turn = s.turn := rfl
@[simp] theorem State.setTask_free (s : State) (n : Nat) (t : Task) : (s.setTask n t).free = s.free := rfl
@[simp] theorem State.setQueue_powered (s : State) (n : Nat) (d : QueueDesc) : (s.setQueue n d).powered = s.powered := rfl
@[simp] theorem State.setQueue_stage (s : State) (n : Nat) (d : QueueDesc) : (s.setQueue n d).stage = s.stage := rfl
@[simp] theorem State.setQueue_mem (s : State) (n : Nat) (d : QueueDesc) : (s.setQueue n d).mem = s.mem := rfl
@[simp] theorem State.setQueue_marks (s : State) (n : Nat) (d : QueueDesc) : (s.setQueue n d).marks = s.marks := rfl
@[simp] theorem State.setQueue_faults (s : State) (n : Nat) (d : QueueDesc) : (s.setQueue n d).faults = s.faults := rfl
@[simp] theorem State.setQueue_columns (s : State) (n : Nat) (d : QueueDesc) : (s.setQueue n d).columns = s.columns := rfl
@[simp] theorem State.setQueue_stackTab (s : State) (n : Nat) (d : QueueDesc) : (s.setQueue n d).stackTab = s.stackTab := rfl
@[simp] theorem State.setQueue_harts (s : State) (n : Nat) (d : QueueDesc) : (s.setQueue n d).harts = s.harts := rfl
@[simp] theorem State.setQueue_shadows (s : State) (n : Nat) (d : QueueDesc) : (s.setQueue n d).shadows = s.shadows := rfl
@[simp] theorem State.setQueue_tasks (s : State) (n : Nat) (d : QueueDesc) : (s.setQueue n d).tasks = s.tasks := rfl
@[simp] theorem State.setQueue_slots (s : State) (n : Nat) (d : QueueDesc) : (s.setQueue n d).slots = s.slots := rfl
@[simp] theorem State.setQueue_stamps (s : State) (n : Nat) (d : QueueDesc) : (s.setQueue n d).stamps = s.stamps := rfl
@[simp] theorem State.setQueue_order (s : State) (n : Nat) (d : QueueDesc) : (s.setQueue n d).order = s.order := rfl
@[simp] theorem State.setQueue_nextTask (s : State) (n : Nat) (d : QueueDesc) : (s.setQueue n d).nextTask = s.nextTask := rfl
@[simp] theorem State.setQueue_nextHart (s : State) (n : Nat) (d : QueueDesc) : (s.setQueue n d).nextHart = s.nextHart := rfl
@[simp] theorem State.setQueue_targets (s : State) (n : Nat) (d : QueueDesc) : (s.setQueue n d).targets = s.targets := rfl
@[simp] theorem State.setQueue_regions (s : State) (n : Nat) (d : QueueDesc) : (s.setQueue n d).regions = s.regions := rfl
@[simp] theorem State.setQueue_outstanding (s : State) (n : Nat) (d : QueueDesc) : (s.setQueue n d).outstanding = s.outstanding := rfl
@[simp] theorem State.setQueue_hubOut (s : State) (n : Nat) (d : QueueDesc) : (s.setQueue n d).hubOut = s.hubOut := rfl
@[simp] theorem State.setQueue_nextRemote (s : State) (n : Nat) (d : QueueDesc) : (s.setQueue n d).nextRemote = s.nextRemote := rfl
@[simp] theorem State.setQueue_ports (s : State) (n : Nat) (d : QueueDesc) : (s.setQueue n d).ports = s.ports := rfl
@[simp] theorem State.setQueue_moduleNum (s : State) (n : Nat) (d : QueueDesc) : (s.setQueue n d).moduleNum = s.moduleNum := rfl
@[simp] theorem State.setQueue_measured (s : State) (n : Nat) (d : QueueDesc) : (s.setQueue n d).measured = s.measured := rfl
@[simp] theorem State.setQueue_images (s : State) (n : Nat) (d : QueueDesc) : (s.setQueue n d).images = s.images := rfl
@[simp] theorem State.setQueue_flashRemap (s : State) (n : Nat) (d : QueueDesc) : (s.setQueue n d).flashRemap = s.flashRemap := rfl
@[simp] theorem State.setQueue_identity (s : State) (n : Nat) (d : QueueDesc) : (s.setQueue n d).identity = s.identity := rfl
@[simp] theorem State.setQueue_partitions (s : State) (n : Nat) (d : QueueDesc) : (s.setQueue n d).partitions = s.partitions := rfl
@[simp] theorem State.setQueue_films (s : State) (n : Nat) (d : QueueDesc) : (s.setQueue n d).films = s.films := rfl
@[simp] theorem State.setQueue_defects (s : State) (n : Nat) (d : QueueDesc) : (s.setQueue n d).defects = s.defects := rfl
@[simp] theorem State.setQueue_modcap (s : State) (n : Nat) (d : QueueDesc) : (s.setQueue n d).modcap = s.modcap := rfl
@[simp] theorem State.setQueue_qpErrors (s : State) (n : Nat) (d : QueueDesc) : (s.setQueue n d).qpErrors = s.qpErrors := rfl
@[simp] theorem State.setQueue_log (s : State) (n : Nat) (d : QueueDesc) : (s.setQueue n d).log = s.log := rfl
@[simp] theorem State.setQueue_replies (s : State) (n : Nat) (d : QueueDesc) : (s.setQueue n d).replies = s.replies := rfl
@[simp] theorem State.setQueue_agenda (s : State) (n : Nat) (d : QueueDesc) : (s.setQueue n d).agenda = s.agenda := rfl
@[simp] theorem State.setQueue_upsets (s : State) (n : Nat) (d : QueueDesc) : (s.setQueue n d).upsets = s.upsets := rfl
@[simp] theorem State.setQueue_cur (s : State) (n : Nat) (d : QueueDesc) : (s.setQueue n d).cur = s.cur := rfl
@[simp] theorem State.setQueue_turn (s : State) (n : Nat) (d : QueueDesc) : (s.setQueue n d).turn = s.turn := rfl
@[simp] theorem State.setQueue_free (s : State) (n : Nat) (d : QueueDesc) : (s.setQueue n d).free = s.free := rfl
@[simp] theorem State.note_powered (s : State) (e : LogEntry) : (s.note e).powered = s.powered := rfl
@[simp] theorem State.note_stage (s : State) (e : LogEntry) : (s.note e).stage = s.stage := rfl
@[simp] theorem State.note_mem (s : State) (e : LogEntry) : (s.note e).mem = s.mem := rfl
@[simp] theorem State.note_marks (s : State) (e : LogEntry) : (s.note e).marks = s.marks := rfl
@[simp] theorem State.note_faults (s : State) (e : LogEntry) : (s.note e).faults = s.faults := rfl
@[simp] theorem State.note_columns (s : State) (e : LogEntry) : (s.note e).columns = s.columns := rfl
@[simp] theorem State.note_stackTab (s : State) (e : LogEntry) : (s.note e).stackTab = s.stackTab := rfl
@[simp] theorem State.note_harts (s : State) (e : LogEntry) : (s.note e).harts = s.harts := rfl
@[simp] theorem State.note_shadows (s : State) (e : LogEntry) : (s.note e).shadows = s.shadows := rfl
@[simp] theorem State.note_tasks (s : State) (e : LogEntry) : (s.note e).tasks = s.tasks := rfl
@[simp] theorem State.note_queues (s : State) (e : LogEntry) : (s.note e).queues = s.queues := rfl
@[simp] theorem State.note_slots (s : State) (e : LogEntry) : (s.note e).slots = s.slots := rfl
@[simp] theorem State.note_stamps (s : State) (e : LogEntry) : (s.note e).stamps = s.stamps := rfl
@[simp] theorem State.note_order (s : State) (e : LogEntry) : (s.note e).order = s.order := rfl
@[simp] theorem State.note_nextTask (s : State) (e : LogEntry) : (s.note e).nextTask = s.nextTask := rfl
@[simp] theorem State.note_nextHart (s : State) (e : LogEntry) : (s.note e).nextHart = s.nextHart := rfl
@[simp] theorem State.note_targets (s : State) (e : LogEntry) : (s.note e).targets = s.targets := rfl
@[simp] theorem State.note_regions (s : State) (e : LogEntry) : (s.note e).regions = s.regions := rfl
@[simp] theorem State.note_outstanding (s : State) (e : LogEntry) : (s.note e).outstanding = s.outstanding := rfl
@[simp] theorem State.note_hubOut (s : State) (e : LogEntry) : (s.note e).hubOut = s.hubOut := rfl
@[simp] theorem State.note_nextRemote (s : State) (e : LogEntry) : (s.note e).nextRemote = s.nextRemote := rfl
@[simp] theorem State.note_ports (s : State) (e : LogEntry) : (s.note e).ports = s.ports := rfl
@[simp] theorem State.note_moduleNum (s : State) (e : LogEntry) : (s.note e).moduleNum = s.moduleNum := rfl
@[simp] theorem State.note_measured (s : State) (e : LogEntry) : (s.note e).measured = s.measured := rfl
@[simp] theorem State.note_images (s : State) (e : LogEntry) : (s.note e).images = s.images := rfl
@[simp] theorem State.note_flashRemap (s : State) (e : LogEntry) : (s.note e).flashRemap = s.flashRemap := rfl
@[simp] theorem State.note_identity (s : State) (e : LogEntry) : (s.note e).identity = s.identity := rfl
@[simp] theorem State.note_partitions (s : State) (e : LogEntry) : (s.note e).partitions = s.partitions := rfl
@[simp] theorem State.note_films (s : State) (e : LogEntry) : (s.note e).films = s.films := rfl
@[simp] theorem State.note_defects (s : State) (e : LogEntry) : (s.note e).defects = s.defects := rfl
@[simp] theorem State.note_modcap (s : State) (e : LogEntry) : (s.note e).modcap = s.modcap := rfl
@[simp] theorem State.note_qpErrors (s : State) (e : LogEntry) : (s.note e).qpErrors = s.qpErrors := rfl
@[simp] theorem State.note_replies (s : State) (e : LogEntry) : (s.note e).replies = s.replies := rfl
@[simp] theorem State.note_agenda (s : State) (e : LogEntry) : (s.note e).agenda = s.agenda := rfl
@[simp] theorem State.note_upsets (s : State) (e : LogEntry) : (s.note e).upsets = s.upsets := rfl
@[simp] theorem State.note_cur (s : State) (e : LogEntry) : (s.note e).cur = s.cur := rfl
@[simp] theorem State.note_turn (s : State) (e : LogEntry) : (s.note e).turn = s.turn := rfl
@[simp] theorem State.note_free (s : State) (e : LogEntry) : (s.note e).free = s.free := rfl
@[simp] theorem State.reply_powered (s : State) (r : HostReply) : (s.reply r).powered = s.powered := rfl
@[simp] theorem State.reply_stage (s : State) (r : HostReply) : (s.reply r).stage = s.stage := rfl
@[simp] theorem State.reply_mem (s : State) (r : HostReply) : (s.reply r).mem = s.mem := rfl
@[simp] theorem State.reply_marks (s : State) (r : HostReply) : (s.reply r).marks = s.marks := rfl
@[simp] theorem State.reply_faults (s : State) (r : HostReply) : (s.reply r).faults = s.faults := rfl
@[simp] theorem State.reply_columns (s : State) (r : HostReply) : (s.reply r).columns = s.columns := rfl
@[simp] theorem State.reply_stackTab (s : State) (r : HostReply) : (s.reply r).stackTab = s.stackTab := rfl
@[simp] theorem State.reply_harts (s : State) (r : HostReply) : (s.reply r).harts = s.harts := rfl
@[simp] theorem State.reply_shadows (s : State) (r : HostReply) : (s.reply r).shadows = s.shadows := rfl
@[simp] theorem State.reply_tasks (s : State) (r : HostReply) : (s.reply r).tasks = s.tasks := rfl
@[simp] theorem State.reply_queues (s : State) (r : HostReply) : (s.reply r).queues = s.queues := rfl
@[simp] theorem State.reply_slots (s : State) (r : HostReply) : (s.reply r).slots = s.slots := rfl
@[simp] theorem State.reply_stamps (s : State) (r : HostReply) : (s.reply r).stamps = s.stamps := rfl
@[simp] theorem State.reply_order (s : State) (r : HostReply) : (s.reply r).order = s.order := rfl
@[simp] theorem State.reply_nextTask (s : State) (r : HostReply) : (s.reply r).nextTask = s.nextTask := rfl
@[simp] theorem State.reply_nextHart (s : State) (r : HostReply) : (s.reply r).nextHart = s.nextHart := rfl
@[simp] theorem State.reply_targets (s : State) (r : HostReply) : (s.reply r).targets = s.targets := rfl
@[simp] theorem State.reply_regions (s : State) (r : HostReply) : (s.reply r).regions = s.regions := rfl
@[simp] theorem State.reply_outstanding (s : State) (r : HostReply) : (s.reply r).outstanding = s.outstanding := rfl
@[simp] theorem State.reply_hubOut (s : State) (r : HostReply) : (s.reply r).hubOut = s.hubOut := rfl
@[simp] theorem State.reply_nextRemote (s : State) (r : HostReply) : (s.reply r).nextRemote = s.nextRemote := rfl
@[simp] theorem State.reply_ports (s : State) (r : HostReply) : (s.reply r).ports = s.ports := rfl
@[simp] theorem State.reply_moduleNum (s : State) (r : HostReply) : (s.reply r).moduleNum = s.moduleNum := rfl
@[simp] theorem State.reply_measured (s : State) (r : HostReply) : (s.reply r).measured = s.measured := rfl
@[simp] theorem State.reply_images (s : State) (r : HostReply) : (s.reply r).images = s.images := rfl
@[simp] theorem State.reply_flashRemap (s : State) (r : HostReply) : (s.reply r).flashRemap = s.flashRemap := rfl
@[simp] theorem State.reply_identity (s : State) (r : HostReply) : (s.reply r).identity = s.identity := rfl
@[simp] theorem State.reply_partitions (s : State) (r : HostReply) : (s.reply r).partitions = s.partitions := rfl
@[simp] theorem State.reply_films (s : State) (r : HostReply) : (s.reply r).films = s.films := rfl
@[simp] theorem State.reply_defects (s : State) (r : HostReply) : (s.reply r).defects = s.defects := rfl
@[simp] theorem State.reply_modcap (s : State) (r : HostReply) : (s.reply r).modcap = s.modcap := rfl
@[simp] theorem State.reply_qpErrors (s : State) (r : HostReply) : (s.reply r).qpErrors = s.qpErrors := rfl
@[simp] theorem State.reply_log (s : State) (r : HostReply) : (s.reply r).log = s.log := rfl
@[simp] theorem State.reply_agenda (s : State) (r : HostReply) : (s.reply r).agenda = s.agenda := rfl
@[simp] theorem State.reply_upsets (s : State) (r : HostReply) : (s.reply r).upsets = s.upsets := rfl
@[simp] theorem State.reply_cur (s : State) (r : HostReply) : (s.reply r).cur = s.cur := rfl
@[simp] theorem State.reply_turn (s : State) (r : HostReply) : (s.reply r).turn = s.turn := rfl
@[simp] theorem State.reply_free (s : State) (r : HostReply) : (s.reply r).free = s.free := rfl
@[simp] theorem State.modHart_powered (s : State) (n : Nat) (g : Hart → Hart) : (s.modHart n g).powered = s.powered := by
  unfold State.modHart; split <;> rfl
@[simp] theorem State.modTask_powered (s : State) (n : Nat) (g : Task → Task) : (s.modTask n g).powered = s.powered := by
  unfold State.modTask; split <;> rfl
@[simp] theorem State.modHart_stage (s : State) (n : Nat) (g : Hart → Hart) : (s.modHart n g).stage = s.stage := by
  unfold State.modHart; split <;> rfl
@[simp] theorem State.modTask_stage (s : State) (n : Nat) (g : Task → Task) : (s.modTask n g).stage = s.stage := by
  unfold State.modTask; split <;> rfl
@[simp] theorem State.modHart_mem (s : State) (n : Nat) (g : Hart → Hart) : (s.modHart n g).mem = s.mem := by
  unfold State.modHart; split <;> rfl
@[simp] theorem State.modTask_mem (s : State) (n : Nat) (g : Task → Task) : (s.modTask n g).mem = s.mem := by
  unfold State.modTask; split <;> rfl
@[simp] theorem State.modHart_marks (s : State) (n : Nat) (g : Hart → Hart) : (s.modHart n g).marks = s.marks := by
  unfold State.modHart; split <;> rfl
@[simp] theorem State.modTask_marks (s : State) (n : Nat) (g : Task → Task) : (s.modTask n g).marks = s.marks := by
  unfold State.modTask; split <;> rfl
@[simp] theorem State.modHart_faults (s : State) (n : Nat) (g : Hart → Hart) : (s.modHart n g).faults = s.faults := by
  unfold State.modHart; split <;> rfl
@[simp] theorem State.modTask_faults (s : State) (n : Nat) (g : Task → Task) : (s.modTask n g).faults = s.faults := by
  unfold State.modTask; split <;> rfl
@[simp] theorem State.modHart_columns (s : State) (n : Nat) (g : Hart → Hart) : (s.modHart n g).columns = s.columns := by
  unfold State.modHart; split <;> rfl
@[simp] theorem State.modTask_columns (s : State) (n : Nat) (g : Task → Task) : (s.modTask n g).columns = s.columns := by
  unfold State.modTask; split <;> rfl
@[simp] theorem State.modHart_stackTab (s : State) (n : Nat) (g : Hart → Hart) : (s.modHart n g).stackTab = s.stackTab := by
  unfold State.modHart; split <;> rfl
@[simp] theorem State.modTask_stackTab (s : State) (n : Nat) (g : Task → Task) : (s.modTask n g).stackTab = s.stackTab := by
  unfold State.modTask; split <;> rfl
@[simp] theorem State.modTask_harts (s : State) (n : Nat) (g : Task → Task) : (s.modTask n g).harts = s.harts := by
  unfold State.modTask; split <;> rfl
@[simp] theorem State.modHart_shadows (s : State) (n : Nat) (g : Hart → Hart) : (s.modHart n g).shadows = s.shadows := by
  unfold State.modHart; split <;> rfl
@[simp] theorem State.modTask_shadows (s : State) (n : Nat) (g : Task → Task) : (s.modTask n g).shadows = s.shadows := by
  unfold State.modTask; split <;> rfl
@[simp] theorem State.modHart_tasks (s : State) (n : Nat) (g : Hart → Hart) : (s.modHart n g).tasks = s.tasks := by
  unfold State.modHart; split <;> rfl
@[simp] theorem State.modHart_queues (s : State) (n : Nat) (g : Hart → Hart) : (s.modHart n g).queues = s.queues := by
  unfold State.modHart; split <;> rfl
@[simp] theorem State.modTask_queues (s : State) (n : Nat) (g : Task → Task) : (s.modTask n g).queues = s.queues := by
  unfold State.modTask; split <;> rfl
@[simp] theorem State.modHart_slots (s : State) (n : Nat) (g : Hart → Hart) : (s.modHart n g).slots = s.slots := by
  unfold State.modHart; split <;> rfl
@[simp] theorem State.modTask_slots (s : State) (n : Nat) (g : Task → Task) : (s.modTask n g).slots = s.slots := by
  unfold State.modTask; split <;> rfl
@[simp] theorem State.modHart_stamps (s : State) (n : Nat) (g : Hart → Hart) : (s.modHart n g).stamps = s.stamps := by
  unfold State.modHart; split <;> rfl
@[simp] theorem State.modTask_stamps (s : State) (n : Nat) (g : Task → Task) : (s.modTask n g).stamps = s.stamps := by
  unfold State.modTask; split <;> rfl
@[simp] theorem State.modHart_order (s : State) (n : Nat) (g : Hart → Hart) : (s.modHart n g).order = s.order := by
  unfold State.modHart; split <;> rfl
@[simp] theorem State.modTask_order (s : State) (n : Nat) (g : Task → Task) : (s.modTask n g).order = s.order := by
  unfold State.modTask; split <;> rfl
@[simp] theorem State.modHart_nextTask (s : State) (n : Nat) (g : Hart → Hart) : (s.modHart n g).nextTask = s.nextTask := by
  unfold State.modHart; split <;> rfl
@[simp] theorem State.modTask_nextTask (s : State) (n : Nat) (g : Task → Task) : (s.modTask n g).nextTask = s.nextTask := by
  unfold State.modTask; split <;> rfl
@[simp] theorem State.modHart_nextHart (s : State) (n : Nat) (g : Hart → Hart) : (s.modHart n g).nextHart = s.nextHart := by
  unfold State.modHart; split <;> rfl
@[simp] theorem State.modTask_nextHart (s : State) (n : Nat) (g : Task → Task) : (s.modTask n g).nextHart = s.nextHart := by
  unfold State.modTask; split <;> rfl
@[simp] theorem State.modHart_targets (s : State) (n : Nat) (g : Hart → Hart) : (s.modHart n g).targets = s.targets := by
  unfold State.modHart; split <;> rfl
@[simp] theorem State.modTask_targets (s : State) (n : Nat) (g : Task → Task) : (s.modTask n g).targets = s.targets := by
  unfold State.modTask; split <;> rfl
@[simp] theorem State.modHart_regions (s : State) (n : Nat) (g : Hart → Hart) : (s.modHart n g).regions = s.regions := by
  unfold State.modHart; split <;> rfl
@[simp] theorem State.modTask_regions (s : State) (n : Nat) (g : Task → Task) : (s.modTask n g).regions = s.regions := by
  unfold State.modTask; split <;> rfl
@[simp] theorem State.modHart_outstanding (s : State) (n : Nat) (g : Hart → Hart) : (s.modHart n g).outstanding = s.outstanding := by
  unfold State.modHart; split <;> rfl
@[simp] theorem State.modTask_outstanding (s : State) (n : Nat) (g : Task → Task) : (s.modTask n g).outstanding = s.outstanding := by
  unfold State.modTask; split <;> rfl
@[simp] theorem State.modHart_hubOut (s : State) (n : Nat) (g : Hart → Hart) : (s.modHart n g).hubOut = s.hubOut := by
  unfold State.modHart; split <;> rfl
@[simp] theorem State.modTask_hubOut (s : State) (n : Nat) (g : Task → Task) : (s.modTask n g).hubOut = s.hubOut := by
  unfold State.modTask; split <;> rfl
@[simp] theorem State.modHart_nextRemote (s : State) (n : Nat) (g : Hart → Hart) : (s.modHart n g).nextRemote = s.nextRemote := by
  unfold State.modHart; split <;> rfl
@[simp] theorem State.modTask_nextRemote (s : State) (n : Nat) (g : Task → Task) : (s.modTask n g).nextRemote = s.nextRemote := by
  unfold State.modTask; split <;> rfl
@[simp] theorem State.modHart_ports (s : State) (n : Nat) (g : Hart → Hart) : (s.modHart n g).ports = s.ports := by
  unfold State.modHart; split <;> rfl
@[simp] theorem State.modTask_ports (s : State) (n : Nat) (g : Task → Task) : (s.modTask n g).ports = s.ports := by
  unfold State.modTask; split <;> rfl
@[simp] theorem State.modHart_moduleNum (s : State) (n : Nat) (g : Hart → Hart) : (s.modHart n g).moduleNum = s.moduleNum := by
  unfold State.modHart; split <;> rfl
@[simp] theorem State.modTask_moduleNum (s : State) (n : Nat) (g : Task → Task) : (s.modTask n g).moduleNum = s.moduleNum := by
  unfold State.modTask; split <;> rfl
@[simp] theorem State.modHart_measured (s : State) (n : Nat) (g : Hart → Hart) : (s.modHart n g).measured = s.measured := by
  unfold State.modHart; split <;> rfl
@[simp] theorem State.modTask_measured (s : State) (n : Nat) (g : Task → Task) : (s.modTask n g).measured = s.measured := by
  unfold State.modTask; split <;> rfl
@[simp] theorem State.modHart_images (s : State) (n : Nat) (g : Hart → Hart) : (s.modHart n g).images = s.images := by
  unfold State.modHart; split <;> rfl
@[simp] theorem State.modTask_images (s : State) (n : Nat) (g : Task → Task) : (s.modTask n g).images = s.images := by
  unfold State.modTask; split <;> rfl
@[simp] theorem State.modHart_flashRemap (s : State) (n : Nat) (g : Hart → Hart) : (s.modHart n g).flashRemap = s.flashRemap := by
  unfold State.modHart; split <;> rfl
@[simp] theorem State.modTask_flashRemap (s : State) (n : Nat) (g : Task → Task) : (s.modTask n g).flashRemap = s.flashRemap := by
  unfold State.modTask; split <;> rfl
@[simp] theorem State.modHart_identity (s : State) (n : Nat) (g : Hart → Hart) : (s.modHart n g).identity = s.identity := by
  unfold State.modHart; split <;> rfl
@[simp] theorem State.modTask_identity (s : State) (n : Nat) (g : Task → Task) : (s.modTask n g).identity = s.identity := by
  unfold State.modTask; split <;> rfl
@[simp] theorem State.modHart_partitions (s : State) (n : Nat) (g : Hart → Hart) : (s.modHart n g).partitions = s.partitions := by
  unfold State.modHart; split <;> rfl
@[simp] theorem State.modTask_partitions (s : State) (n : Nat) (g : Task → Task) : (s.modTask n g).partitions = s.partitions := by
  unfold State.modTask; split <;> rfl
@[simp] theorem State.modHart_films (s : State) (n : Nat) (g : Hart → Hart) : (s.modHart n g).films = s.films := by
  unfold State.modHart; split <;> rfl
@[simp] theorem State.modTask_films (s : State) (n : Nat) (g : Task → Task) : (s.modTask n g).films = s.films := by
  unfold State.modTask; split <;> rfl
@[simp] theorem State.modHart_defects (s : State) (n : Nat) (g : Hart → Hart) : (s.modHart n g).defects = s.defects := by
  unfold State.modHart; split <;> rfl
@[simp] theorem State.modTask_defects (s : State) (n : Nat) (g : Task → Task) : (s.modTask n g).defects = s.defects := by
  unfold State.modTask; split <;> rfl
@[simp] theorem State.modHart_modcap (s : State) (n : Nat) (g : Hart → Hart) : (s.modHart n g).modcap = s.modcap := by
  unfold State.modHart; split <;> rfl
@[simp] theorem State.modTask_modcap (s : State) (n : Nat) (g : Task → Task) : (s.modTask n g).modcap = s.modcap := by
  unfold State.modTask; split <;> rfl
@[simp] theorem State.modHart_qpErrors (s : State) (n : Nat) (g : Hart → Hart) : (s.modHart n g).qpErrors = s.qpErrors := by
  unfold State.modHart; split <;> rfl
@[simp] theorem State.modTask_qpErrors (s : State) (n : Nat) (g : Task → Task) : (s.modTask n g).qpErrors = s.qpErrors := by
  unfold State.modTask; split <;> rfl
@[simp] theorem State.modHart_log (s : State) (n : Nat) (g : Hart → Hart) : (s.modHart n g).log = s.log := by
  unfold State.modHart; split <;> rfl
@[simp] theorem State.modTask_log (s : State) (n : Nat) (g : Task → Task) : (s.modTask n g).log = s.log := by
  unfold State.modTask; split <;> rfl
@[simp] theorem State.modHart_replies (s : State) (n : Nat) (g : Hart → Hart) : (s.modHart n g).replies = s.replies := by
  unfold State.modHart; split <;> rfl
@[simp] theorem State.modTask_replies (s : State) (n : Nat) (g : Task → Task) : (s.modTask n g).replies = s.replies := by
  unfold State.modTask; split <;> rfl
@[simp] theorem State.modHart_agenda (s : State) (n : Nat) (g : Hart → Hart) : (s.modHart n g).agenda = s.agenda := by
  unfold State.modHart; split <;> rfl
@[simp] theorem State.modTask_agenda (s : State) (n : Nat) (g : Task → Task) : (s.modTask n g).agenda = s.agenda := by
  unfold State.modTask; split <;> rfl
@[simp] theorem State.modHart_upsets (s : State) (n : Nat) (g : Hart → Hart) : (s.modHart n g).upsets = s.upsets := by
  unfold State.modHart; split <;> rfl
@[simp] theorem State.modTask_upsets (s : State) (n : Nat) (g : Task → Task) : (s.modTask n g).upsets = s.upsets := by
  unfold State.modTask; split <;> rfl
@[simp] theorem State.modHart_cur (s : State) (n : Nat) (g : Hart → Hart) : (s.modHart n g).cur = s.cur := by
  unfold State.modHart; split <;> rfl
@[simp] theorem State.modTask_cur (s : State) (n : Nat) (g : Task → Task) : (s.modTask n g).cur = s.cur := by
  unfold State.modTask; split <;> rfl
@[simp] theorem State.modHart_turn (s : State) (n : Nat) (g : Hart → Hart) : (s.modHart n g).turn = s.turn := by
  unfold State.modHart; split <;> rfl
@[simp] theorem State.modTask_turn (s : State) (n : Nat) (g : Task → Task) : (s.modTask n g).turn = s.turn := by
  unfold State.modTask; split <;> rfl
@[simp] theorem State.modHart_free (s : State) (n : Nat) (g : Hart → Hart) : (s.modHart n g).free = s.free := by
  unfold State.modHart; split <;> rfl
@[simp] theorem State.modTask_free (s : State) (n : Nat) (g : Task → Task) : (s.modTask n g).free = s.free := by
  unfold State.modTask; split <;> rfl

@[simp] theorem Hart.setV_task (h : Hart) (r : VNum) (v : VReg) : (h.setV r v).task = h.task := rfl
@[simp] theorem Hart.setK_task (h : Hart) (r : KReg) (m : Nat) : (h.setK r m).task = h.task := rfl
@[simp] theorem Hart.raise_task (h : Hart) (n : Nat) : (h.raise n).task = h.task := rfl
@[simp] theorem Hart.setX_task (h : Hart) (r : XReg) (v : Word) : (h.setX r v).task = h.task := by
  unfold Hart.setX; split <;> rfl
@[simp] theorem Hart.setP_task (h : Hart) (r : PReg) (b : Bool) : (h.setP r b).task = h.task := by
  unfold Hart.setP; split <;> rfl
@[simp] theorem Hart.setV_rank (h : Hart) (r : VNum) (v : VReg) : (h.setV r v).rank = h.rank := rfl
@[simp] theorem Hart.setK_rank (h : Hart) (r : KReg) (m : Nat) : (h.setK r m).rank = h.rank := rfl
@[simp] theorem Hart.raise_rank (h : Hart) (n : Nat) : (h.raise n).rank = h.rank := rfl
@[simp] theorem Hart.setX_rank (h : Hart) (r : XReg) (v : Word) : (h.setX r v).rank = h.rank := by
  unfold Hart.setX; split <;> rfl
@[simp] theorem Hart.setP_rank (h : Hart) (r : PReg) (b : Bool) : (h.setP r b).rank = h.rank := by
  unfold Hart.setP; split <;> rfl
@[simp] theorem Hart.setV_column (h : Hart) (r : VNum) (v : VReg) : (h.setV r v).column = h.column := rfl
@[simp] theorem Hart.setK_column (h : Hart) (r : KReg) (m : Nat) : (h.setK r m).column = h.column := rfl
@[simp] theorem Hart.raise_column (h : Hart) (n : Nat) : (h.raise n).column = h.column := rfl
@[simp] theorem Hart.setX_column (h : Hart) (r : XReg) (v : Word) : (h.setX r v).column = h.column := by
  unfold Hart.setX; split <;> rfl
@[simp] theorem Hart.setP_column (h : Hart) (r : PReg) (b : Bool) : (h.setP r b).column = h.column := by
  unfold Hart.setP; split <;> rfl
@[simp] theorem Hart.setV_cols (h : Hart) (r : VNum) (v : VReg) : (h.setV r v).cols = h.cols := rfl
@[simp] theorem Hart.setK_cols (h : Hart) (r : KReg) (m : Nat) : (h.setK r m).cols = h.cols := rfl
@[simp] theorem Hart.raise_cols (h : Hart) (n : Nat) : (h.raise n).cols = h.cols := rfl
@[simp] theorem Hart.setX_cols (h : Hart) (r : XReg) (v : Word) : (h.setX r v).cols = h.cols := by
  unfold Hart.setX; split <;> rfl
@[simp] theorem Hart.setP_cols (h : Hart) (r : PReg) (b : Bool) : (h.setP r b).cols = h.cols := by
  unfold Hart.setP; split <;> rfl
@[simp] theorem Hart.setV_cluster (h : Hart) (r : VNum) (v : VReg) : (h.setV r v).cluster = h.cluster := rfl
@[simp] theorem Hart.setK_cluster (h : Hart) (r : KReg) (m : Nat) : (h.setK r m).cluster = h.cluster := rfl
@[simp] theorem Hart.raise_cluster (h : Hart) (n : Nat) : (h.raise n).cluster = h.cluster := rfl
@[simp] theorem Hart.setX_cluster (h : Hart) (r : XReg) (v : Word) : (h.setX r v).cluster = h.cluster := by
  unfold Hart.setX; split <;> rfl
@[simp] theorem Hart.setP_cluster (h : Hart) (r : PReg) (b : Bool) : (h.setP r b).cluster = h.cluster := by
  unfold Hart.setP; split <;> rfl
@[simp] theorem Hart.setV_lanes (h : Hart) (r : VNum) (v : VReg) : (h.setV r v).lanes = h.lanes := rfl
@[simp] theorem Hart.setK_lanes (h : Hart) (r : KReg) (m : Nat) : (h.setK r m).lanes = h.lanes := rfl
@[simp] theorem Hart.raise_lanes (h : Hart) (n : Nat) : (h.raise n).lanes = h.lanes := rfl
@[simp] theorem Hart.setX_lanes (h : Hart) (r : XReg) (v : Word) : (h.setX r v).lanes = h.lanes := by
  unfold Hart.setX; split <;> rfl
@[simp] theorem Hart.setP_lanes (h : Hart) (r : PReg) (b : Bool) : (h.setP r b).lanes = h.lanes := by
  unfold Hart.setP; split <;> rfl
@[simp] theorem Hart.setV_ctx (h : Hart) (r : VNum) (v : VReg) : (h.setV r v).ctx = h.ctx := rfl
@[simp] theorem Hart.setK_ctx (h : Hart) (r : KReg) (m : Nat) : (h.setK r m).ctx = h.ctx := rfl
@[simp] theorem Hart.raise_ctx (h : Hart) (n : Nat) : (h.raise n).ctx = h.ctx := rfl
@[simp] theorem Hart.setX_ctx (h : Hart) (r : XReg) (v : Word) : (h.setX r v).ctx = h.ctx := by
  unfold Hart.setX; split <;> rfl
@[simp] theorem Hart.setP_ctx (h : Hart) (r : PReg) (b : Bool) : (h.setP r b).ctx = h.ctx := by
  unfold Hart.setP; split <;> rfl
@[simp] theorem Hart.setV_geom (h : Hart) (r : VNum) (v : VReg) : (h.setV r v).geom = h.geom := rfl
@[simp] theorem Hart.setK_geom (h : Hart) (r : KReg) (m : Nat) : (h.setK r m).geom = h.geom := rfl
@[simp] theorem Hart.raise_geom (h : Hart) (n : Nat) : (h.raise n).geom = h.geom := rfl
@[simp] theorem Hart.setX_geom (h : Hart) (r : XReg) (v : Word) : (h.setX r v).geom = h.geom := by
  unfold Hart.setX; split <;> rfl
@[simp] theorem Hart.setP_geom (h : Hart) (r : PReg) (b : Bool) : (h.setP r b).geom = h.geom := by
  unfold Hart.setP; split <;> rfl
@[simp] theorem Hart.setV_status (h : Hart) (r : VNum) (v : VReg) : (h.setV r v).status = h.status := rfl
@[simp] theorem Hart.setK_status (h : Hart) (r : KReg) (m : Nat) : (h.setK r m).status = h.status := rfl
@[simp] theorem Hart.raise_status (h : Hart) (n : Nat) : (h.raise n).status = h.status := rfl
@[simp] theorem Hart.setX_status (h : Hart) (r : XReg) (v : Word) : (h.setX r v).status = h.status := by
  unfold Hart.setX; split <;> rfl
@[simp] theorem Hart.setP_status (h : Hart) (r : PReg) (b : Bool) : (h.setP r b).status = h.status := by
  unfold Hart.setP; split <;> rfl
@[simp] theorem Hart.setV_mode (h : Hart) (r : VNum) (v : VReg) : (h.setV r v).mode = h.mode := rfl
@[simp] theorem Hart.setK_mode (h : Hart) (r : KReg) (m : Nat) : (h.setK r m).mode = h.mode := rfl
@[simp] theorem Hart.raise_mode (h : Hart) (n : Nat) : (h.raise n).mode = h.mode := rfl
@[simp] theorem Hart.setX_mode (h : Hart) (r : XReg) (v : Word) : (h.setX r v).mode = h.mode := by
  unfold Hart.setX; split <;> rfl
@[simp] theorem Hart.setP_mode (h : Hart) (r : PReg) (b : Bool) : (h.setP r b).mode = h.mode := by
  unfold Hart.setP; split <;> rfl
@[simp] theorem Hart.setV_presented (h : Hart) (r : VNum) (v : VReg) : (h.setV r v).presented = h.presented := rfl
@[simp] theorem Hart.setK_presented (h : Hart) (r : KReg) (m : Nat) : (h.setK r m).presented = h.presented := rfl
@[simp] theorem Hart.raise_presented (h : Hart) (n : Nat) : (h.raise n).presented = h.presented := rfl
@[simp] theorem Hart.setX_presented (h : Hart) (r : XReg) (v : Word) : (h.setX r v).presented = h.presented := by
  unfold Hart.setX; split <;> rfl
@[simp] theorem Hart.setP_presented (h : Hart) (r : PReg) (b : Bool) : (h.setP r b).presented = h.presented := by
  unfold Hart.setP; split <;> rfl
@[simp] theorem Hart.setV_named (h : Hart) (r : VNum) (v : VReg) : (h.setV r v).named = h.named := rfl
@[simp] theorem Hart.setK_named (h : Hart) (r : KReg) (m : Nat) : (h.setK r m).named = h.named := rfl
@[simp] theorem Hart.raise_named (h : Hart) (n : Nat) : (h.raise n).named = h.named := rfl
@[simp] theorem Hart.setX_named (h : Hart) (r : XReg) (v : Word) : (h.setX r v).named = h.named := by
  unfold Hart.setX; split <;> rfl
@[simp] theorem Hart.setP_named (h : Hart) (r : PReg) (b : Bool) : (h.setP r b).named = h.named := by
  unfold Hart.setP; split <;> rfl
@[simp] theorem Hart.setV_haltReq (h : Hart) (r : VNum) (v : VReg) : (h.setV r v).haltReq = h.haltReq := rfl
@[simp] theorem Hart.setK_haltReq (h : Hart) (r : KReg) (m : Nat) : (h.setK r m).haltReq = h.haltReq := rfl
@[simp] theorem Hart.raise_haltReq (h : Hart) (n : Nat) : (h.raise n).haltReq = h.haltReq := rfl
@[simp] theorem Hart.setX_haltReq (h : Hart) (r : XReg) (v : Word) : (h.setX r v).haltReq = h.haltReq := by
  unfold Hart.setX; split <;> rfl
@[simp] theorem Hart.setP_haltReq (h : Hart) (r : PReg) (b : Bool) : (h.setP r b).haltReq = h.haltReq := by
  unfold Hart.setP; split <;> rfl
@[simp] theorem Hart.setV_wait (h : Hart) (r : VNum) (v : VReg) : (h.setV r v).wait = h.wait := rfl
@[simp] theorem Hart.setK_wait (h : Hart) (r : KReg) (m : Nat) : (h.setK r m).wait = h.wait := rfl
@[simp] theorem Hart.raise_wait (h : Hart) (n : Nat) : (h.raise n).wait = h.wait := rfl
@[simp] theorem Hart.setX_wait (h : Hart) (r : XReg) (v : Word) : (h.setX r v).wait = h.wait := by
  unfold Hart.setX; split <;> rfl
@[simp] theorem Hart.setP_wait (h : Hart) (r : PReg) (b : Bool) : (h.setP r b).wait = h.wait := by
  unfold Hart.setP; split <;> rfl
@[simp] theorem Hart.setV_saves (h : Hart) (r : VNum) (v : VReg) : (h.setV r v).saves = h.saves := rfl
@[simp] theorem Hart.setK_saves (h : Hart) (r : KReg) (m : Nat) : (h.setK r m).saves = h.saves := rfl
@[simp] theorem Hart.raise_saves (h : Hart) (n : Nat) : (h.raise n).saves = h.saves := rfl
@[simp] theorem Hart.setX_saves (h : Hart) (r : XReg) (v : Word) : (h.setX r v).saves = h.saves := by
  unfold Hart.setX; split <;> rfl
@[simp] theorem Hart.setP_saves (h : Hart) (r : PReg) (b : Bool) : (h.setP r b).saves = h.saves := by
  unfold Hart.setP; split <;> rfl
@[simp] theorem Hart.setV_startedAt (h : Hart) (r : VNum) (v : VReg) : (h.setV r v).startedAt = h.startedAt := rfl
@[simp] theorem Hart.setK_startedAt (h : Hart) (r : KReg) (m : Nat) : (h.setK r m).startedAt = h.startedAt := rfl
@[simp] theorem Hart.raise_startedAt (h : Hart) (n : Nat) : (h.raise n).startedAt = h.startedAt := rfl
@[simp] theorem Hart.setX_startedAt (h : Hart) (r : XReg) (v : Word) : (h.setX r v).startedAt = h.startedAt := by
  unfold Hart.setX; split <;> rfl
@[simp] theorem Hart.setP_startedAt (h : Hart) (r : PReg) (b : Bool) : (h.setP r b).startedAt = h.startedAt := by
  unfold Hart.setP; split <;> rfl
@[simp] theorem Hart.setV_idle (h : Hart) (r : VNum) (v : VReg) : (h.setV r v).idle = h.idle := rfl
@[simp] theorem Hart.setK_idle (h : Hart) (r : KReg) (m : Nat) : (h.setK r m).idle = h.idle := rfl
@[simp] theorem Hart.raise_idle (h : Hart) (n : Nat) : (h.raise n).idle = h.idle := rfl
@[simp] theorem Hart.setX_idle (h : Hart) (r : XReg) (v : Word) : (h.setX r v).idle = h.idle := by
  unfold Hart.setX; split <;> rfl
@[simp] theorem Hart.setP_idle (h : Hart) (r : PReg) (b : Bool) : (h.setP r b).idle = h.idle := by
  unfold Hart.setP; split <;> rfl
@[simp] theorem Hart.setV_idleWas (h : Hart) (r : VNum) (v : VReg) : (h.setV r v).idleWas = h.idleWas := rfl
@[simp] theorem Hart.setK_idleWas (h : Hart) (r : KReg) (m : Nat) : (h.setK r m).idleWas = h.idleWas := rfl
@[simp] theorem Hart.raise_idleWas (h : Hart) (n : Nat) : (h.raise n).idleWas = h.idleWas := rfl
@[simp] theorem Hart.setX_idleWas (h : Hart) (r : XReg) (v : Word) : (h.setX r v).idleWas = h.idleWas := by
  unfold Hart.setX; split <;> rfl
@[simp] theorem Hart.setP_idleWas (h : Hart) (r : PReg) (b : Bool) : (h.setP r b).idleWas = h.idleWas := by
  unfold Hart.setP; split <;> rfl
@[simp] theorem Hart.setV_leaving (h : Hart) (r : VNum) (v : VReg) : (h.setV r v).leaving = h.leaving := rfl
@[simp] theorem Hart.setK_leaving (h : Hart) (r : KReg) (m : Nat) : (h.setK r m).leaving = h.leaving := rfl
@[simp] theorem Hart.raise_leaving (h : Hart) (n : Nat) : (h.raise n).leaving = h.leaving := rfl
@[simp] theorem Hart.setX_leaving (h : Hart) (r : XReg) (v : Word) : (h.setX r v).leaving = h.leaving := by
  unfold Hart.setX; split <;> rfl
@[simp] theorem Hart.setP_leaving (h : Hart) (r : PReg) (b : Bool) : (h.setP r b).leaving = h.leaving := by
  unfold Hart.setP; split <;> rfl
@[simp] theorem Hart.setV_badContext (h : Hart) (r : VNum) (v : VReg) : (h.setV r v).badContext = h.badContext := rfl
@[simp] theorem Hart.setK_badContext (h : Hart) (r : KReg) (m : Nat) : (h.setK r m).badContext = h.badContext := rfl
@[simp] theorem Hart.raise_badContext (h : Hart) (n : Nat) : (h.raise n).badContext = h.badContext := rfl
@[simp] theorem Hart.setX_badContext (h : Hart) (r : XReg) (v : Word) : (h.setX r v).badContext = h.badContext := by
  unfold Hart.setX; split <;> rfl
@[simp] theorem Hart.setP_badContext (h : Hart) (r : PReg) (b : Bool) : (h.setP r b).badContext = h.badContext := by
  unfold Hart.setP; split <;> rfl
@[simp] theorem Hart.setV_gaveTo (h : Hart) (r : VNum) (v : VReg) : (h.setV r v).gaveTo = h.gaveTo := rfl
@[simp] theorem Hart.setK_gaveTo (h : Hart) (r : KReg) (m : Nat) : (h.setK r m).gaveTo = h.gaveTo := rfl
@[simp] theorem Hart.raise_gaveTo (h : Hart) (n : Nat) : (h.raise n).gaveTo = h.gaveTo := rfl
@[simp] theorem Hart.setX_gaveTo (h : Hart) (r : XReg) (v : Word) : (h.setX r v).gaveTo = h.gaveTo := by
  unfold Hart.setX; split <;> rfl
@[simp] theorem Hart.setP_gaveTo (h : Hart) (r : PReg) (b : Bool) : (h.setP r b).gaveTo = h.gaveTo := by
  unfold Hart.setP; split <;> rfl
@[simp] theorem Hart.setV_pc (h : Hart) (r : VNum) (v : VReg) : (h.setV r v).pc = h.pc := rfl
@[simp] theorem Hart.setK_pc (h : Hart) (r : KReg) (m : Nat) : (h.setK r m).pc = h.pc := rfl
@[simp] theorem Hart.raise_pc (h : Hart) (n : Nat) : (h.raise n).pc = h.pc := rfl
@[simp] theorem Hart.setX_pc (h : Hart) (r : XReg) (v : Word) : (h.setX r v).pc = h.pc := by
  unfold Hart.setX; split <;> rfl
@[simp] theorem Hart.setP_pc (h : Hart) (r : PReg) (b : Bool) : (h.setP r b).pc = h.pc := by
  unfold Hart.setP; split <;> rfl
@[simp] theorem Hart.setV_x (h : Hart) (r : VNum) (v : VReg) : (h.setV r v).x = h.x := rfl
@[simp] theorem Hart.setK_x (h : Hart) (r : KReg) (m : Nat) : (h.setK r m).x = h.x := rfl
@[simp] theorem Hart.raise_x (h : Hart) (n : Nat) : (h.raise n).x = h.x := rfl
@[simp] theorem Hart.setP_x (h : Hart) (r : PReg) (b : Bool) : (h.setP r b).x = h.x := by
  unfold Hart.setP; split <;> rfl
@[simp] theorem Hart.setV_p (h : Hart) (r : VNum) (v : VReg) : (h.setV r v).p = h.p := rfl
@[simp] theorem Hart.setK_p (h : Hart) (r : KReg) (m : Nat) : (h.setK r m).p = h.p := rfl
@[simp] theorem Hart.raise_p (h : Hart) (n : Nat) : (h.raise n).p = h.p := rfl
@[simp] theorem Hart.setX_p (h : Hart) (r : XReg) (v : Word) : (h.setX r v).p = h.p := by
  unfold Hart.setX; split <;> rfl
@[simp] theorem Hart.setV_vl (h : Hart) (r : VNum) (v : VReg) : (h.setV r v).vl = h.vl := rfl
@[simp] theorem Hart.setK_vl (h : Hart) (r : KReg) (m : Nat) : (h.setK r m).vl = h.vl := rfl
@[simp] theorem Hart.raise_vl (h : Hart) (n : Nat) : (h.raise n).vl = h.vl := rfl
@[simp] theorem Hart.setX_vl (h : Hart) (r : XReg) (v : Word) : (h.setX r v).vl = h.vl := by
  unfold Hart.setX; split <;> rfl
@[simp] theorem Hart.setP_vl (h : Hart) (r : PReg) (b : Bool) : (h.setP r b).vl = h.vl := by
  unfold Hart.setP; split <;> rfl
@[simp] theorem Hart.setV_k (h : Hart) (r : VNum) (v : VReg) : (h.setV r v).k = h.k := rfl
@[simp] theorem Hart.raise_k (h : Hart) (n : Nat) : (h.raise n).k = h.k := rfl
@[simp] theorem Hart.setX_k (h : Hart) (r : XReg) (v : Word) : (h.setX r v).k = h.k := by
  unfold Hart.setX; split <;> rfl
@[simp] theorem Hart.setP_k (h : Hart) (r : PReg) (b : Bool) : (h.setP r b).k = h.k := by
  unfold Hart.setP; split <;> rfl
@[simp] theorem Hart.setK_v (h : Hart) (r : KReg) (m : Nat) : (h.setK r m).v = h.v := rfl
@[simp] theorem Hart.raise_v (h : Hart) (n : Nat) : (h.raise n).v = h.v := rfl
@[simp] theorem Hart.setX_v (h : Hart) (r : XReg) (v : Word) : (h.setX r v).v = h.v := by
  unfold Hart.setX; split <;> rfl
@[simp] theorem Hart.setP_v (h : Hart) (r : PReg) (b : Bool) : (h.setP r b).v = h.v := by
  unfold Hart.setP; split <;> rfl
@[simp] theorem Hart.setV_matShape (h : Hart) (r : VNum) (v : VReg) : (h.setV r v).matShape = h.matShape := rfl
@[simp] theorem Hart.setK_matShape (h : Hart) (r : KReg) (m : Nat) : (h.setK r m).matShape = h.matShape := rfl
@[simp] theorem Hart.raise_matShape (h : Hart) (n : Nat) : (h.raise n).matShape = h.matShape := rfl
@[simp] theorem Hart.setX_matShape (h : Hart) (r : XReg) (v : Word) : (h.setX r v).matShape = h.matShape := by
  unfold Hart.setX; split <;> rfl
@[simp] theorem Hart.setP_matShape (h : Hart) (r : PReg) (b : Bool) : (h.setP r b).matShape = h.matShape := by
  unfold Hart.setP; split <;> rfl
@[simp] theorem Hart.setV_mat (h : Hart) (r : VNum) (v : VReg) : (h.setV r v).mat = h.mat := rfl
@[simp] theorem Hart.setK_mat (h : Hart) (r : KReg) (m : Nat) : (h.setK r m).mat = h.mat := rfl
@[simp] theorem Hart.raise_mat (h : Hart) (n : Nat) : (h.raise n).mat = h.mat := rfl
@[simp] theorem Hart.setX_mat (h : Hart) (r : XReg) (v : Word) : (h.setX r v).mat = h.mat := by
  unfold Hart.setX; split <;> rfl
@[simp] theorem Hart.setP_mat (h : Hart) (r : PReg) (b : Bool) : (h.setP r b).mat = h.mat := by
  unfold Hart.setP; split <;> rfl
@[simp] theorem Hart.setV_perm (h : Hart) (r : VNum) (v : VReg) : (h.setV r v).perm = h.perm := rfl
@[simp] theorem Hart.setK_perm (h : Hart) (r : KReg) (m : Nat) : (h.setK r m).perm = h.perm := rfl
@[simp] theorem Hart.raise_perm (h : Hart) (n : Nat) : (h.raise n).perm = h.perm := rfl
@[simp] theorem Hart.setX_perm (h : Hart) (r : XReg) (v : Word) : (h.setX r v).perm = h.perm := by
  unfold Hart.setX; split <;> rfl
@[simp] theorem Hart.setP_perm (h : Hart) (r : PReg) (b : Bool) : (h.setP r b).perm = h.perm := by
  unfold Hart.setP; split <;> rfl
@[simp] theorem Hart.setV_laneFlags (h : Hart) (r : VNum) (v : VReg) : (h.setV r v).laneFlags = h.laneFlags := rfl
@[simp] theorem Hart.setK_laneFlags (h : Hart) (r : KReg) (m : Nat) : (h.setK r m).laneFlags = h.laneFlags := rfl
@[simp] theorem Hart.raise_laneFlags (h : Hart) (n : Nat) : (h.raise n).laneFlags = h.laneFlags := rfl
@[simp] theorem Hart.setX_laneFlags (h : Hart) (r : XReg) (v : Word) : (h.setX r v).laneFlags = h.laneFlags := by
  unfold Hart.setX; split <;> rfl
@[simp] theorem Hart.setP_laneFlags (h : Hart) (r : PReg) (b : Bool) : (h.setP r b).laneFlags = h.laneFlags := by
  unfold Hart.setP; split <;> rfl
@[simp] theorem Hart.setV_tileHeld (h : Hart) (r : VNum) (v : VReg) : (h.setV r v).tileHeld = h.tileHeld := rfl
@[simp] theorem Hart.setK_tileHeld (h : Hart) (r : KReg) (m : Nat) : (h.setK r m).tileHeld = h.tileHeld := rfl
@[simp] theorem Hart.raise_tileHeld (h : Hart) (n : Nat) : (h.raise n).tileHeld = h.tileHeld := rfl
@[simp] theorem Hart.setX_tileHeld (h : Hart) (r : XReg) (v : Word) : (h.setX r v).tileHeld = h.tileHeld := by
  unfold Hart.setX; split <;> rfl
@[simp] theorem Hart.setP_tileHeld (h : Hart) (r : PReg) (b : Bool) : (h.setP r b).tileHeld = h.tileHeld := by
  unfold Hart.setP; split <;> rfl
@[simp] theorem Hart.setV_tileFmt (h : Hart) (r : VNum) (v : VReg) : (h.setV r v).tileFmt = h.tileFmt := rfl
@[simp] theorem Hart.setK_tileFmt (h : Hart) (r : KReg) (m : Nat) : (h.setK r m).tileFmt = h.tileFmt := rfl
@[simp] theorem Hart.raise_tileFmt (h : Hart) (n : Nat) : (h.raise n).tileFmt = h.tileFmt := rfl
@[simp] theorem Hart.setX_tileFmt (h : Hart) (r : XReg) (v : Word) : (h.setX r v).tileFmt = h.tileFmt := by
  unfold Hart.setX; split <;> rfl
@[simp] theorem Hart.setP_tileFmt (h : Hart) (r : PReg) (b : Bool) : (h.setP r b).tileFmt = h.tileFmt := by
  unfold Hart.setP; split <;> rfl
@[simp] theorem Hart.setV_tileCells (h : Hart) (r : VNum) (v : VReg) : (h.setV r v).tileCells = h.tileCells := rfl
@[simp] theorem Hart.setK_tileCells (h : Hart) (r : KReg) (m : Nat) : (h.setK r m).tileCells = h.tileCells := rfl
@[simp] theorem Hart.raise_tileCells (h : Hart) (n : Nat) : (h.raise n).tileCells = h.tileCells := rfl
@[simp] theorem Hart.setX_tileCells (h : Hart) (r : XReg) (v : Word) : (h.setX r v).tileCells = h.tileCells := by
  unfold Hart.setX; split <;> rfl
@[simp] theorem Hart.setP_tileCells (h : Hart) (r : PReg) (b : Bool) : (h.setP r b).tileCells = h.tileCells := by
  unfold Hart.setP; split <;> rfl
@[simp] theorem Hart.setV_tileScale (h : Hart) (r : VNum) (v : VReg) : (h.setV r v).tileScale = h.tileScale := rfl
@[simp] theorem Hart.setK_tileScale (h : Hart) (r : KReg) (m : Nat) : (h.setK r m).tileScale = h.tileScale := rfl
@[simp] theorem Hart.raise_tileScale (h : Hart) (n : Nat) : (h.raise n).tileScale = h.tileScale := rfl
@[simp] theorem Hart.setX_tileScale (h : Hart) (r : XReg) (v : Word) : (h.setX r v).tileScale = h.tileScale := by
  unfold Hart.setX; split <;> rfl
@[simp] theorem Hart.setP_tileScale (h : Hart) (r : PReg) (b : Bool) : (h.setP r b).tileScale = h.tileScale := by
  unfold Hart.setP; split <;> rfl
@[simp] theorem Hart.setV_tileBad (h : Hart) (r : VNum) (v : VReg) : (h.setV r v).tileBad = h.tileBad := rfl
@[simp] theorem Hart.setK_tileBad (h : Hart) (r : KReg) (m : Nat) : (h.setK r m).tileBad = h.tileBad := rfl
@[simp] theorem Hart.raise_tileBad (h : Hart) (n : Nat) : (h.raise n).tileBad = h.tileBad := rfl
@[simp] theorem Hart.setX_tileBad (h : Hart) (r : XReg) (v : Word) : (h.setX r v).tileBad = h.tileBad := by
  unfold Hart.setX; split <;> rfl
@[simp] theorem Hart.setP_tileBad (h : Hart) (r : PReg) (b : Bool) : (h.setP r b).tileBad = h.tileBad := by
  unfold Hart.setP; split <;> rfl
@[simp] theorem Hart.setV_tileLoad (h : Hart) (r : VNum) (v : VReg) : (h.setV r v).tileLoad = h.tileLoad := rfl
@[simp] theorem Hart.setK_tileLoad (h : Hart) (r : KReg) (m : Nat) : (h.setK r m).tileLoad = h.tileLoad := rfl
@[simp] theorem Hart.raise_tileLoad (h : Hart) (n : Nat) : (h.raise n).tileLoad = h.tileLoad := rfl
@[simp] theorem Hart.setX_tileLoad (h : Hart) (r : XReg) (v : Word) : (h.setX r v).tileLoad = h.tileLoad := by
  unfold Hart.setX; split <;> rfl
@[simp] theorem Hart.setP_tileLoad (h : Hart) (r : PReg) (b : Bool) : (h.setP r b).tileLoad = h.tileLoad := by
  unfold Hart.setP; split <;> rfl
@[simp] theorem Hart.setV_tileParity (h : Hart) (r : VNum) (v : VReg) : (h.setV r v).tileParity = h.tileParity := rfl
@[simp] theorem Hart.setK_tileParity (h : Hart) (r : KReg) (m : Nat) : (h.setK r m).tileParity = h.tileParity := rfl
@[simp] theorem Hart.raise_tileParity (h : Hart) (n : Nat) : (h.raise n).tileParity = h.tileParity := rfl
@[simp] theorem Hart.setX_tileParity (h : Hart) (r : XReg) (v : Word) : (h.setX r v).tileParity = h.tileParity := by
  unfold Hart.setX; split <;> rfl
@[simp] theorem Hart.setP_tileParity (h : Hart) (r : PReg) (b : Bool) : (h.setP r b).tileParity = h.tileParity := by
  unfold Hart.setP; split <;> rfl
@[simp] theorem Hart.setV_residue (h : Hart) (r : VNum) (v : VReg) : (h.setV r v).residue = h.residue := rfl
@[simp] theorem Hart.setK_residue (h : Hart) (r : KReg) (m : Nat) : (h.setK r m).residue = h.residue := rfl
@[simp] theorem Hart.raise_residue (h : Hart) (n : Nat) : (h.raise n).residue = h.residue := rfl
@[simp] theorem Hart.setX_residue (h : Hart) (r : XReg) (v : Word) : (h.setX r v).residue = h.residue := by
  unfold Hart.setX; split <;> rfl
@[simp] theorem Hart.setP_residue (h : Hart) (r : PReg) (b : Bool) : (h.setP r b).residue = h.residue := by
  unfold Hart.setP; split <;> rfl
@[simp] theorem Hart.setV_scratch (h : Hart) (r : VNum) (v : VReg) : (h.setV r v).scratch = h.scratch := rfl
@[simp] theorem Hart.setK_scratch (h : Hart) (r : KReg) (m : Nat) : (h.setK r m).scratch = h.scratch := rfl
@[simp] theorem Hart.raise_scratch (h : Hart) (n : Nat) : (h.raise n).scratch = h.scratch := rfl
@[simp] theorem Hart.setX_scratch (h : Hart) (r : XReg) (v : Word) : (h.setX r v).scratch = h.scratch := by
  unfold Hart.setX; split <;> rfl
@[simp] theorem Hart.setP_scratch (h : Hart) (r : PReg) (b : Bool) : (h.setP r b).scratch = h.scratch := by
  unfold Hart.setP; split <;> rfl
@[simp] theorem Hart.setV_scratchAt (h : Hart) (r : VNum) (v : VReg) : (h.setV r v).scratchAt = h.scratchAt := rfl
@[simp] theorem Hart.setK_scratchAt (h : Hart) (r : KReg) (m : Nat) : (h.setK r m).scratchAt = h.scratchAt := rfl
@[simp] theorem Hart.raise_scratchAt (h : Hart) (n : Nat) : (h.raise n).scratchAt = h.scratchAt := rfl
@[simp] theorem Hart.setX_scratchAt (h : Hart) (r : XReg) (v : Word) : (h.setX r v).scratchAt = h.scratchAt := by
  unfold Hart.setX; split <;> rfl
@[simp] theorem Hart.setP_scratchAt (h : Hart) (r : PReg) (b : Bool) : (h.setP r b).scratchAt = h.scratchAt := by
  unfold Hart.setP; split <;> rfl
@[simp] theorem Hart.setV_tcm (h : Hart) (r : VNum) (v : VReg) : (h.setV r v).tcm = h.tcm := rfl
@[simp] theorem Hart.setK_tcm (h : Hart) (r : KReg) (m : Nat) : (h.setK r m).tcm = h.tcm := rfl
@[simp] theorem Hart.raise_tcm (h : Hart) (n : Nat) : (h.raise n).tcm = h.tcm := rfl
@[simp] theorem Hart.setX_tcm (h : Hart) (r : XReg) (v : Word) : (h.setX r v).tcm = h.tcm := by
  unfold Hart.setX; split <;> rfl
@[simp] theorem Hart.setP_tcm (h : Hart) (r : PReg) (b : Bool) : (h.setP r b).tcm = h.tcm := by
  unfold Hart.setP; split <;> rfl
@[simp] theorem Hart.setV_tcmAt (h : Hart) (r : VNum) (v : VReg) : (h.setV r v).tcmAt = h.tcmAt := rfl
@[simp] theorem Hart.setK_tcmAt (h : Hart) (r : KReg) (m : Nat) : (h.setK r m).tcmAt = h.tcmAt := rfl
@[simp] theorem Hart.raise_tcmAt (h : Hart) (n : Nat) : (h.raise n).tcmAt = h.tcmAt := rfl
@[simp] theorem Hart.setX_tcmAt (h : Hart) (r : XReg) (v : Word) : (h.setX r v).tcmAt = h.tcmAt := by
  unfold Hart.setX; split <;> rfl
@[simp] theorem Hart.setP_tcmAt (h : Hart) (r : PReg) (b : Bool) : (h.setP r b).tcmAt = h.tcmAt := by
  unfold Hart.setP; split <;> rfl
@[simp] theorem Hart.setV_fpmode (h : Hart) (r : VNum) (v : VReg) : (h.setV r v).fpmode = h.fpmode := rfl
@[simp] theorem Hart.setK_fpmode (h : Hart) (r : KReg) (m : Nat) : (h.setK r m).fpmode = h.fpmode := rfl
@[simp] theorem Hart.raise_fpmode (h : Hart) (n : Nat) : (h.raise n).fpmode = h.fpmode := rfl
@[simp] theorem Hart.setX_fpmode (h : Hart) (r : XReg) (v : Word) : (h.setX r v).fpmode = h.fpmode := by
  unfold Hart.setX; split <;> rfl
@[simp] theorem Hart.setP_fpmode (h : Hart) (r : PReg) (b : Bool) : (h.setP r b).fpmode = h.fpmode := by
  unfold Hart.setP; split <;> rfl
@[simp] theorem Hart.setV_fpflags (h : Hart) (r : VNum) (v : VReg) : (h.setV r v).fpflags = h.fpflags := rfl
@[simp] theorem Hart.setK_fpflags (h : Hart) (r : KReg) (m : Nat) : (h.setK r m).fpflags = h.fpflags := rfl
@[simp] theorem Hart.setX_fpflags (h : Hart) (r : XReg) (v : Word) : (h.setX r v).fpflags = h.fpflags := by
  unfold Hart.setX; split <;> rfl
@[simp] theorem Hart.setP_fpflags (h : Hart) (r : PReg) (b : Bool) : (h.setP r b).fpflags = h.fpflags := by
  unfold Hart.setP; split <;> rfl
@[simp] theorem Hart.setV_mstat (h : Hart) (r : VNum) (v : VReg) : (h.setV r v).mstat = h.mstat := rfl
@[simp] theorem Hart.setK_mstat (h : Hart) (r : KReg) (m : Nat) : (h.setK r m).mstat = h.mstat := rfl
@[simp] theorem Hart.raise_mstat (h : Hart) (n : Nat) : (h.raise n).mstat = h.mstat := rfl
@[simp] theorem Hart.setX_mstat (h : Hart) (r : XReg) (v : Word) : (h.setX r v).mstat = h.mstat := by
  unfold Hart.setX; split <;> rfl
@[simp] theorem Hart.setP_mstat (h : Hart) (r : PReg) (b : Bool) : (h.setP r b).mstat = h.mstat := by
  unfold Hart.setP; split <;> rfl
@[simp] theorem Hart.setV_pfxstate (h : Hart) (r : VNum) (v : VReg) : (h.setV r v).pfxstate = h.pfxstate := rfl
@[simp] theorem Hart.setK_pfxstate (h : Hart) (r : KReg) (m : Nat) : (h.setK r m).pfxstate = h.pfxstate := rfl
@[simp] theorem Hart.raise_pfxstate (h : Hart) (n : Nat) : (h.raise n).pfxstate = h.pfxstate := rfl
@[simp] theorem Hart.setX_pfxstate (h : Hart) (r : XReg) (v : Word) : (h.setX r v).pfxstate = h.pfxstate := by
  unfold Hart.setX; split <;> rfl
@[simp] theorem Hart.setP_pfxstate (h : Hart) (r : PReg) (b : Bool) : (h.setP r b).pfxstate = h.pfxstate := by
  unfold Hart.setP; split <;> rfl
@[simp] theorem Hart.setV_trapcause (h : Hart) (r : VNum) (v : VReg) : (h.setV r v).trapcause = h.trapcause := rfl
@[simp] theorem Hart.setK_trapcause (h : Hart) (r : KReg) (m : Nat) : (h.setK r m).trapcause = h.trapcause := rfl
@[simp] theorem Hart.raise_trapcause (h : Hart) (n : Nat) : (h.raise n).trapcause = h.trapcause := rfl
@[simp] theorem Hart.setX_trapcause (h : Hart) (r : XReg) (v : Word) : (h.setX r v).trapcause = h.trapcause := by
  unfold Hart.setX; split <;> rfl
@[simp] theorem Hart.setP_trapcause (h : Hart) (r : PReg) (b : Bool) : (h.setP r b).trapcause = h.trapcause := by
  unfold Hart.setP; split <;> rfl
@[simp] theorem Hart.setV_trappc (h : Hart) (r : VNum) (v : VReg) : (h.setV r v).trappc = h.trappc := rfl
@[simp] theorem Hart.setK_trappc (h : Hart) (r : KReg) (m : Nat) : (h.setK r m).trappc = h.trappc := rfl
@[simp] theorem Hart.raise_trappc (h : Hart) (n : Nat) : (h.raise n).trappc = h.trappc := rfl
@[simp] theorem Hart.setX_trappc (h : Hart) (r : XReg) (v : Word) : (h.setX r v).trappc = h.trappc := by
  unfold Hart.setX; split <;> rfl
@[simp] theorem Hart.setP_trappc (h : Hart) (r : PReg) (b : Bool) : (h.setP r b).trappc = h.trappc := by
  unfold Hart.setP; split <;> rfl
@[simp] theorem Hart.setV_trapinfo (h : Hart) (r : VNum) (v : VReg) : (h.setV r v).trapinfo = h.trapinfo := rfl
@[simp] theorem Hart.setK_trapinfo (h : Hart) (r : KReg) (m : Nat) : (h.setK r m).trapinfo = h.trapinfo := rfl
@[simp] theorem Hart.raise_trapinfo (h : Hart) (n : Nat) : (h.raise n).trapinfo = h.trapinfo := rfl
@[simp] theorem Hart.setX_trapinfo (h : Hart) (r : XReg) (v : Word) : (h.setX r v).trapinfo = h.trapinfo := by
  unfold Hart.setX; split <;> rfl
@[simp] theorem Hart.setP_trapinfo (h : Hart) (r : PReg) (b : Bool) : (h.setP r b).trapinfo = h.trapinfo := by
  unfold Hart.setP; split <;> rfl
@[simp] theorem Hart.setV_trapvec (h : Hart) (r : VNum) (v : VReg) : (h.setV r v).trapvec = h.trapvec := rfl
@[simp] theorem Hart.setK_trapvec (h : Hart) (r : KReg) (m : Nat) : (h.setK r m).trapvec = h.trapvec := rfl
@[simp] theorem Hart.raise_trapvec (h : Hart) (n : Nat) : (h.raise n).trapvec = h.trapvec := rfl
@[simp] theorem Hart.setX_trapvec (h : Hart) (r : XReg) (v : Word) : (h.setX r v).trapvec = h.trapvec := by
  unfold Hart.setX; split <;> rfl
@[simp] theorem Hart.setP_trapvec (h : Hart) (r : PReg) (b : Bool) : (h.setP r b).trapvec = h.trapvec := by
  unfold Hart.setP; split <;> rfl
@[simp] theorem Hart.setV_cycle (h : Hart) (r : VNum) (v : VReg) : (h.setV r v).cycle = h.cycle := rfl
@[simp] theorem Hart.setK_cycle (h : Hart) (r : KReg) (m : Nat) : (h.setK r m).cycle = h.cycle := rfl
@[simp] theorem Hart.raise_cycle (h : Hart) (n : Nat) : (h.raise n).cycle = h.cycle := rfl
@[simp] theorem Hart.setX_cycle (h : Hart) (r : XReg) (v : Word) : (h.setX r v).cycle = h.cycle := by
  unfold Hart.setX; split <;> rfl
@[simp] theorem Hart.setP_cycle (h : Hart) (r : PReg) (b : Bool) : (h.setP r b).cycle = h.cycle := by
  unfold Hart.setP; split <;> rfl
@[simp] theorem Hart.setV_instret (h : Hart) (r : VNum) (v : VReg) : (h.setV r v).instret = h.instret := rfl
@[simp] theorem Hart.setK_instret (h : Hart) (r : KReg) (m : Nat) : (h.setK r m).instret = h.instret := rfl
@[simp] theorem Hart.raise_instret (h : Hart) (n : Nat) : (h.raise n).instret = h.instret := rfl
@[simp] theorem Hart.setX_instret (h : Hart) (r : XReg) (v : Word) : (h.setX r v).instret = h.instret := by
  unfold Hart.setX; split <;> rfl
@[simp] theorem Hart.setP_instret (h : Hart) (r : PReg) (b : Bool) : (h.setP r b).instret = h.instret := by
  unfold Hart.setP; split <;> rfl
@[simp] theorem Hart.setV_footthr (h : Hart) (r : VNum) (v : VReg) : (h.setV r v).footthr = h.footthr := rfl
@[simp] theorem Hart.setK_footthr (h : Hart) (r : KReg) (m : Nat) : (h.setK r m).footthr = h.footthr := rfl
@[simp] theorem Hart.raise_footthr (h : Hart) (n : Nat) : (h.raise n).footthr = h.footthr := rfl
@[simp] theorem Hart.setX_footthr (h : Hart) (r : XReg) (v : Word) : (h.setX r v).footthr = h.footthr := by
  unfold Hart.setX; split <;> rfl
@[simp] theorem Hart.setP_footthr (h : Hart) (r : PReg) (b : Bool) : (h.setP r b).footthr = h.footthr := by
  unfold Hart.setP; split <;> rfl
@[simp] theorem Hart.setV_bbcbase (h : Hart) (r : VNum) (v : VReg) : (h.setV r v).bbcbase = h.bbcbase := rfl
@[simp] theorem Hart.setK_bbcbase (h : Hart) (r : KReg) (m : Nat) : (h.setK r m).bbcbase = h.bbcbase := rfl
@[simp] theorem Hart.raise_bbcbase (h : Hart) (n : Nat) : (h.raise n).bbcbase = h.bbcbase := rfl
@[simp] theorem Hart.setX_bbcbase (h : Hart) (r : XReg) (v : Word) : (h.setX r v).bbcbase = h.bbcbase := by
  unfold Hart.setX; split <;> rfl
@[simp] theorem Hart.setP_bbcbase (h : Hart) (r : PReg) (b : Bool) : (h.setP r b).bbcbase = h.bbcbase := by
  unfold Hart.setP; split <;> rfl
@[simp] theorem Hart.setV_filmbase (h : Hart) (r : VNum) (v : VReg) : (h.setV r v).filmbase = h.filmbase := rfl
@[simp] theorem Hart.setK_filmbase (h : Hart) (r : KReg) (m : Nat) : (h.setK r m).filmbase = h.filmbase := rfl
@[simp] theorem Hart.raise_filmbase (h : Hart) (n : Nat) : (h.raise n).filmbase = h.filmbase := rfl
@[simp] theorem Hart.setX_filmbase (h : Hart) (r : XReg) (v : Word) : (h.setX r v).filmbase = h.filmbase := by
  unfold Hart.setX; split <;> rfl
@[simp] theorem Hart.setP_filmbase (h : Hart) (r : PReg) (b : Bool) : (h.setP r b).filmbase = h.filmbase := by
  unfold Hart.setP; split <;> rfl
@[simp] theorem Hart.setV_filmstat (h : Hart) (r : VNum) (v : VReg) : (h.setV r v).filmstat = h.filmstat := rfl
@[simp] theorem Hart.setK_filmstat (h : Hart) (r : KReg) (m : Nat) : (h.setK r m).filmstat = h.filmstat := rfl
@[simp] theorem Hart.raise_filmstat (h : Hart) (n : Nat) : (h.raise n).filmstat = h.filmstat := rfl
@[simp] theorem Hart.setX_filmstat (h : Hart) (r : XReg) (v : Word) : (h.setX r v).filmstat = h.filmstat := by
  unfold Hart.setX; split <;> rfl
@[simp] theorem Hart.setP_filmstat (h : Hart) (r : PReg) (b : Bool) : (h.setP r b).filmstat = h.filmstat := by
  unfold Hart.setP; split <;> rfl
@[simp] theorem Hart.setV_rnd (h : Hart) (r : VNum) (v : VReg) : (h.setV r v).rnd = h.rnd := rfl
@[simp] theorem Hart.setK_rnd (h : Hart) (r : KReg) (m : Nat) : (h.setK r m).rnd = h.rnd := rfl
@[simp] theorem Hart.raise_rnd (h : Hart) (n : Nat) : (h.raise n).rnd = h.rnd := rfl
@[simp] theorem Hart.setX_rnd (h : Hart) (r : XReg) (v : Word) : (h.setX r v).rnd = h.rnd := by
  unfold Hart.setX; split <;> rfl
@[simp] theorem Hart.setP_rnd (h : Hart) (r : PReg) (b : Bool) : (h.setP r b).rnd = h.rnd := by
  unfold Hart.setP; split <;> rfl
@[simp] theorem Hart.setV_loops (h : Hart) (r : VNum) (v : VReg) : (h.setV r v).loops = h.loops := rfl
@[simp] theorem Hart.setK_loops (h : Hart) (r : KReg) (m : Nat) : (h.setK r m).loops = h.loops := rfl
@[simp] theorem Hart.raise_loops (h : Hart) (n : Nat) : (h.raise n).loops = h.loops := rfl
@[simp] theorem Hart.setX_loops (h : Hart) (r : XReg) (v : Word) : (h.setX r v).loops = h.loops := by
  unfold Hart.setX; split <;> rfl
@[simp] theorem Hart.setP_loops (h : Hart) (r : PReg) (b : Bool) : (h.setP r b).loops = h.loops := by
  unfold Hart.setP; split <;> rfl
@[simp] theorem Hart.setV_pfx (h : Hart) (r : VNum) (v : VReg) : (h.setV r v).pfx = h.pfx := rfl
@[simp] theorem Hart.setK_pfx (h : Hart) (r : KReg) (m : Nat) : (h.setK r m).pfx = h.pfx := rfl
@[simp] theorem Hart.raise_pfx (h : Hart) (n : Nat) : (h.raise n).pfx = h.pfx := rfl
@[simp] theorem Hart.setX_pfx (h : Hart) (r : XReg) (v : Word) : (h.setX r v).pfx = h.pfx := by
  unfold Hart.setX; split <;> rfl
@[simp] theorem Hart.setP_pfx (h : Hart) (r : PReg) (b : Bool) : (h.setP r b).pfx = h.pfx := by
  unfold Hart.setP; split <;> rfl
@[simp] theorem Hart.setV_pendLane (h : Hart) (r : VNum) (v : VReg) : (h.setV r v).pendLane = h.pendLane := rfl
@[simp] theorem Hart.setK_pendLane (h : Hart) (r : KReg) (m : Nat) : (h.setK r m).pendLane = h.pendLane := rfl
@[simp] theorem Hart.raise_pendLane (h : Hart) (n : Nat) : (h.raise n).pendLane = h.pendLane := rfl
@[simp] theorem Hart.setX_pendLane (h : Hart) (r : XReg) (v : Word) : (h.setX r v).pendLane = h.pendLane := by
  unfold Hart.setX; split <;> rfl
@[simp] theorem Hart.setP_pendLane (h : Hart) (r : PReg) (b : Bool) : (h.setP r b).pendLane = h.pendLane := by
  unfold Hart.setP; split <;> rfl
@[simp] theorem Hart.setV_pendAlert (h : Hart) (r : VNum) (v : VReg) : (h.setV r v).pendAlert = h.pendAlert := rfl
@[simp] theorem Hart.setK_pendAlert (h : Hart) (r : KReg) (m : Nat) : (h.setK r m).pendAlert = h.pendAlert := rfl
@[simp] theorem Hart.raise_pendAlert (h : Hart) (n : Nat) : (h.raise n).pendAlert = h.pendAlert := rfl
@[simp] theorem Hart.setX_pendAlert (h : Hart) (r : XReg) (v : Word) : (h.setX r v).pendAlert = h.pendAlert := by
  unfold Hart.setX; split <;> rfl
@[simp] theorem Hart.setP_pendAlert (h : Hart) (r : PReg) (b : Bool) : (h.setP r b).pendAlert = h.pendAlert := by
  unfold Hart.setP; split <;> rfl
@[simp] theorem Hart.setV_pendRef (h : Hart) (r : VNum) (v : VReg) : (h.setV r v).pendRef = h.pendRef := rfl
@[simp] theorem Hart.setK_pendRef (h : Hart) (r : KReg) (m : Nat) : (h.setK r m).pendRef = h.pendRef := rfl
@[simp] theorem Hart.raise_pendRef (h : Hart) (n : Nat) : (h.raise n).pendRef = h.pendRef := rfl
@[simp] theorem Hart.setX_pendRef (h : Hart) (r : XReg) (v : Word) : (h.setX r v).pendRef = h.pendRef := by
  unfold Hart.setX; split <;> rfl
@[simp] theorem Hart.setP_pendRef (h : Hart) (r : PReg) (b : Bool) : (h.setP r b).pendRef = h.pendRef := by
  unfold Hart.setP; split <;> rfl
@[simp] theorem Hart.setV_pendFilm (h : Hart) (r : VNum) (v : VReg) : (h.setV r v).pendFilm = h.pendFilm := rfl
@[simp] theorem Hart.setK_pendFilm (h : Hart) (r : KReg) (m : Nat) : (h.setK r m).pendFilm = h.pendFilm := rfl
@[simp] theorem Hart.raise_pendFilm (h : Hart) (n : Nat) : (h.raise n).pendFilm = h.pendFilm := rfl
@[simp] theorem Hart.setX_pendFilm (h : Hart) (r : XReg) (v : Word) : (h.setX r v).pendFilm = h.pendFilm := by
  unfold Hart.setX; split <;> rfl
@[simp] theorem Hart.setP_pendFilm (h : Hart) (r : PReg) (b : Bool) : (h.setP r b).pendFilm = h.pendFilm := by
  unfold Hart.setP; split <;> rfl
@[simp] theorem Hart.setV_barA (h : Hart) (r : VNum) (v : VReg) : (h.setV r v).barA = h.barA := rfl
@[simp] theorem Hart.setK_barA (h : Hart) (r : KReg) (m : Nat) : (h.setK r m).barA = h.barA := rfl
@[simp] theorem Hart.raise_barA (h : Hart) (n : Nat) : (h.raise n).barA = h.barA := rfl
@[simp] theorem Hart.setX_barA (h : Hart) (r : XReg) (v : Word) : (h.setX r v).barA = h.barA := by
  unfold Hart.setX; split <;> rfl
@[simp] theorem Hart.setP_barA (h : Hart) (r : PReg) (b : Bool) : (h.setP r b).barA = h.barA := by
  unfold Hart.setP; split <;> rfl
@[simp] theorem Hart.setV_barAt (h : Hart) (r : VNum) (v : VReg) : (h.setV r v).barAt = h.barAt := rfl
@[simp] theorem Hart.setK_barAt (h : Hart) (r : KReg) (m : Nat) : (h.setK r m).barAt = h.barAt := rfl
@[simp] theorem Hart.raise_barAt (h : Hart) (n : Nat) : (h.raise n).barAt = h.barAt := rfl
@[simp] theorem Hart.setX_barAt (h : Hart) (r : XReg) (v : Word) : (h.setX r v).barAt = h.barAt := by
  unfold Hart.setX; split <;> rfl
@[simp] theorem Hart.setP_barAt (h : Hart) (r : PReg) (b : Bool) : (h.setP r b).barAt = h.barAt := by
  unfold Hart.setP; split <;> rfl
@[simp] theorem Hart.setV_waitFrom (h : Hart) (r : VNum) (v : VReg) : (h.setV r v).waitFrom = h.waitFrom := rfl
@[simp] theorem Hart.setK_waitFrom (h : Hart) (r : KReg) (m : Nat) : (h.setK r m).waitFrom = h.waitFrom := rfl
@[simp] theorem Hart.raise_waitFrom (h : Hart) (n : Nat) : (h.raise n).waitFrom = h.waitFrom := rfl
@[simp] theorem Hart.setX_waitFrom (h : Hart) (r : XReg) (v : Word) : (h.setX r v).waitFrom = h.waitFrom := by
  unfold Hart.setX; split <;> rfl
@[simp] theorem Hart.setP_waitFrom (h : Hart) (r : PReg) (b : Bool) : (h.setP r b).waitFrom = h.waitFrom := by
  unfold Hart.setP; split <;> rfl
@[simp] theorem Hart.setV_refDone (h : Hart) (r : VNum) (v : VReg) : (h.setV r v).refDone = h.refDone := rfl
@[simp] theorem Hart.setK_refDone (h : Hart) (r : KReg) (m : Nat) : (h.setK r m).refDone = h.refDone := rfl
@[simp] theorem Hart.raise_refDone (h : Hart) (n : Nat) : (h.raise n).refDone = h.refDone := rfl
@[simp] theorem Hart.setX_refDone (h : Hart) (r : XReg) (v : Word) : (h.setX r v).refDone = h.refDone := by
  unfold Hart.setX; split <;> rfl
@[simp] theorem Hart.setP_refDone (h : Hart) (r : PReg) (b : Bool) : (h.setP r b).refDone = h.refDone := by
  unfold Hart.setP; split <;> rfl
@[simp] theorem Hart.setV_chans (h : Hart) (r : VNum) (v : VReg) : (h.setV r v).chans = h.chans := rfl
@[simp] theorem Hart.setK_chans (h : Hart) (r : KReg) (m : Nat) : (h.setK r m).chans = h.chans := rfl
@[simp] theorem Hart.raise_chans (h : Hart) (n : Nat) : (h.raise n).chans = h.chans := rfl
@[simp] theorem Hart.setX_chans (h : Hart) (r : XReg) (v : Word) : (h.setX r v).chans = h.chans := by
  unfold Hart.setX; split <;> rfl
@[simp] theorem Hart.setP_chans (h : Hart) (r : PReg) (b : Bool) : (h.setP r b).chans = h.chans := by
  unfold Hart.setP; split <;> rfl
@[simp] theorem Hart.setV_stores (h : Hart) (r : VNum) (v : VReg) : (h.setV r v).stores = h.stores := rfl
@[simp] theorem Hart.setK_stores (h : Hart) (r : KReg) (m : Nat) : (h.setK r m).stores = h.stores := rfl
@[simp] theorem Hart.raise_stores (h : Hart) (n : Nat) : (h.raise n).stores = h.stores := rfl
@[simp] theorem Hart.setX_stores (h : Hart) (r : XReg) (v : Word) : (h.setX r v).stores = h.stores := by
  unfold Hart.setX; split <;> rfl
@[simp] theorem Hart.setP_stores (h : Hart) (r : PReg) (b : Bool) : (h.setP r b).stores = h.stores := by
  unfold Hart.setP; split <;> rfl
@[simp] theorem Hart.setV_elems (h : Hart) (r : VNum) (v : VReg) : (h.setV r v).elems = h.elems := rfl
@[simp] theorem Hart.setK_elems (h : Hart) (r : KReg) (m : Nat) : (h.setK r m).elems = h.elems := rfl
@[simp] theorem Hart.raise_elems (h : Hart) (n : Nat) : (h.raise n).elems = h.elems := rfl
@[simp] theorem Hart.setX_elems (h : Hart) (r : XReg) (v : Word) : (h.setX r v).elems = h.elems := by
  unfold Hart.setX; split <;> rfl
@[simp] theorem Hart.setP_elems (h : Hart) (r : PReg) (b : Bool) : (h.setP r b).elems = h.elems := by
  unfold Hart.setP; split <;> rfl
@[simp] theorem Hart.setV_elemSeq (h : Hart) (r : VNum) (v : VReg) : (h.setV r v).elemSeq = h.elemSeq := rfl
@[simp] theorem Hart.setK_elemSeq (h : Hart) (r : KReg) (m : Nat) : (h.setK r m).elemSeq = h.elemSeq := rfl
@[simp] theorem Hart.raise_elemSeq (h : Hart) (n : Nat) : (h.raise n).elemSeq = h.elemSeq := rfl
@[simp] theorem Hart.setX_elemSeq (h : Hart) (r : XReg) (v : Word) : (h.setX r v).elemSeq = h.elemSeq := by
  unfold Hart.setX; split <;> rfl
@[simp] theorem Hart.setP_elemSeq (h : Hart) (r : PReg) (b : Bool) : (h.setP r b).elemSeq = h.elemSeq := by
  unfold Hart.setP; split <;> rfl
@[simp] theorem Hart.setV_vqueue (h : Hart) (r : VNum) (v : VReg) : (h.setV r v).vqueue = h.vqueue := rfl
@[simp] theorem Hart.setK_vqueue (h : Hart) (r : KReg) (m : Nat) : (h.setK r m).vqueue = h.vqueue := rfl
@[simp] theorem Hart.raise_vqueue (h : Hart) (n : Nat) : (h.raise n).vqueue = h.vqueue := rfl
@[simp] theorem Hart.setX_vqueue (h : Hart) (r : XReg) (v : Word) : (h.setX r v).vqueue = h.vqueue := by
  unfold Hart.setX; split <;> rfl
@[simp] theorem Hart.setP_vqueue (h : Hart) (r : PReg) (b : Bool) : (h.setP r b).vqueue = h.vqueue := by
  unfold Hart.setP; split <;> rfl
@[simp] theorem Hart.setV_atHead (h : Hart) (r : VNum) (v : VReg) : (h.setV r v).atHead = h.atHead := rfl
@[simp] theorem Hart.setK_atHead (h : Hart) (r : KReg) (m : Nat) : (h.setK r m).atHead = h.atHead := rfl
@[simp] theorem Hart.raise_atHead (h : Hart) (n : Nat) : (h.raise n).atHead = h.atHead := rfl
@[simp] theorem Hart.setX_atHead (h : Hart) (r : XReg) (v : Word) : (h.setX r v).atHead = h.atHead := by
  unfold Hart.setX; split <;> rfl
@[simp] theorem Hart.setP_atHead (h : Hart) (r : PReg) (b : Bool) : (h.setP r b).atHead = h.atHead := by
  unfold Hart.setP; split <;> rfl
@[simp] theorem Hart.setV_stopDue (h : Hart) (r : VNum) (v : VReg) : (h.setV r v).stopDue = h.stopDue := rfl
@[simp] theorem Hart.setK_stopDue (h : Hart) (r : KReg) (m : Nat) : (h.setK r m).stopDue = h.stopDue := rfl
@[simp] theorem Hart.raise_stopDue (h : Hart) (n : Nat) : (h.raise n).stopDue = h.stopDue := rfl
@[simp] theorem Hart.setX_stopDue (h : Hart) (r : XReg) (v : Word) : (h.setX r v).stopDue = h.stopDue := by
  unfold Hart.setX; split <;> rfl
@[simp] theorem Hart.setP_stopDue (h : Hart) (r : PReg) (b : Bool) : (h.setP r b).stopDue = h.stopDue := by
  unfold Hart.setP; split <;> rfl
@[simp] theorem Hart.setV_met (h : Hart) (r : VNum) (v : VReg) : (h.setV r v).met = h.met := rfl
@[simp] theorem Hart.setK_met (h : Hart) (r : KReg) (m : Nat) : (h.setK r m).met = h.met := rfl
@[simp] theorem Hart.raise_met (h : Hart) (n : Nat) : (h.raise n).met = h.met := rfl
@[simp] theorem Hart.setX_met (h : Hart) (r : XReg) (v : Word) : (h.setX r v).met = h.met := by
  unfold Hart.setX; split <;> rfl
@[simp] theorem Hart.setP_met (h : Hart) (r : PReg) (b : Bool) : (h.setP r b).met = h.met := by
  unfold Hart.setP; split <;> rfl
@[simp] theorem Hart.setV_remote (h : Hart) (r : VNum) (v : VReg) : (h.setV r v).remote = h.remote := rfl
@[simp] theorem Hart.setK_remote (h : Hart) (r : KReg) (m : Nat) : (h.setK r m).remote = h.remote := rfl
@[simp] theorem Hart.raise_remote (h : Hart) (n : Nat) : (h.raise n).remote = h.remote := rfl
@[simp] theorem Hart.setX_remote (h : Hart) (r : XReg) (v : Word) : (h.setX r v).remote = h.remote := by
  unfold Hart.setX; split <;> rfl
@[simp] theorem Hart.setP_remote (h : Hart) (r : PReg) (b : Bool) : (h.setP r b).remote = h.remote := by
  unfold Hart.setP; split <;> rfl
@[simp] theorem Hart.setV_arrived (h : Hart) (r : VNum) (v : VReg) : (h.setV r v).arrived = h.arrived := rfl
@[simp] theorem Hart.setK_arrived (h : Hart) (r : KReg) (m : Nat) : (h.setK r m).arrived = h.arrived := rfl
@[simp] theorem Hart.raise_arrived (h : Hart) (n : Nat) : (h.raise n).arrived = h.arrived := rfl
@[simp] theorem Hart.setX_arrived (h : Hart) (r : XReg) (v : Word) : (h.setX r v).arrived = h.arrived := by
  unfold Hart.setX; split <;> rfl
@[simp] theorem Hart.setP_arrived (h : Hart) (r : PReg) (b : Bool) : (h.setP r b).arrived = h.arrived := by
  unfold Hart.setP; split <;> rfl
@[simp] theorem Hart.setV_coll (h : Hart) (r : VNum) (v : VReg) : (h.setV r v).coll = h.coll := rfl
@[simp] theorem Hart.setK_coll (h : Hart) (r : KReg) (m : Nat) : (h.setK r m).coll = h.coll := rfl
@[simp] theorem Hart.raise_coll (h : Hart) (n : Nat) : (h.raise n).coll = h.coll := rfl
@[simp] theorem Hart.setX_coll (h : Hart) (r : XReg) (v : Word) : (h.setX r v).coll = h.coll := by
  unfold Hart.setX; split <;> rfl
@[simp] theorem Hart.setP_coll (h : Hart) (r : PReg) (b : Bool) : (h.setP r b).coll = h.coll := by
  unfold Hart.setP; split <;> rfl
@[simp] theorem Hart.setV_transport (h : Hart) (r : VNum) (v : VReg) : (h.setV r v).transport = h.transport := rfl
@[simp] theorem Hart.setK_transport (h : Hart) (r : KReg) (m : Nat) : (h.setK r m).transport = h.transport := rfl
@[simp] theorem Hart.raise_transport (h : Hart) (n : Nat) : (h.raise n).transport = h.transport := rfl
@[simp] theorem Hart.setX_transport (h : Hart) (r : XReg) (v : Word) : (h.setX r v).transport = h.transport := by
  unfold Hart.setX; split <;> rfl
@[simp] theorem Hart.setP_transport (h : Hart) (r : PReg) (b : Bool) : (h.setP r b).transport = h.transport := by
  unfold Hart.setP; split <;> rfl
@[simp] theorem Hart.setV_ctl (h : Hart) (r : VNum) (v : VReg) : (h.setV r v).ctl = h.ctl := rfl
@[simp] theorem Hart.setK_ctl (h : Hart) (r : KReg) (m : Nat) : (h.setK r m).ctl = h.ctl := rfl
@[simp] theorem Hart.raise_ctl (h : Hart) (n : Nat) : (h.raise n).ctl = h.ctl := rfl
@[simp] theorem Hart.setX_ctl (h : Hart) (r : XReg) (v : Word) : (h.setX r v).ctl = h.ctl := by
  unfold Hart.setX; split <;> rfl
@[simp] theorem Hart.setP_ctl (h : Hart) (r : PReg) (b : Bool) : (h.setP r b).ctl = h.ctl := by
  unfold Hart.setP; split <;> rfl
@[simp] theorem Hart.setV_dbg (h : Hart) (r : VNum) (v : VReg) : (h.setV r v).dbg = h.dbg := rfl
@[simp] theorem Hart.setK_dbg (h : Hart) (r : KReg) (m : Nat) : (h.setK r m).dbg = h.dbg := rfl
@[simp] theorem Hart.raise_dbg (h : Hart) (n : Nat) : (h.raise n).dbg = h.dbg := rfl
@[simp] theorem Hart.setX_dbg (h : Hart) (r : XReg) (v : Word) : (h.setX r v).dbg = h.dbg := by
  unfold Hart.setX; split <;> rfl
@[simp] theorem Hart.setP_dbg (h : Hart) (r : PReg) (b : Bool) : (h.setP r b).dbg = h.dbg := by
  unfold Hart.setP; split <;> rfl
@[simp] theorem Hart.setV_expo (h : Hart) (r : VNum) (v : VReg) : (h.setV r v).expo = h.expo := rfl
@[simp] theorem Hart.setK_expo (h : Hart) (r : KReg) (m : Nat) : (h.setK r m).expo = h.expo := rfl
@[simp] theorem Hart.raise_expo (h : Hart) (n : Nat) : (h.raise n).expo = h.expo := rfl
@[simp] theorem Hart.setX_expo (h : Hart) (r : XReg) (v : Word) : (h.setX r v).expo = h.expo := by
  unfold Hart.setX; split <;> rfl
@[simp] theorem Hart.setP_expo (h : Hart) (r : PReg) (b : Bool) : (h.setP r b).expo = h.expo := by
  unfold Hart.setP; split <;> rfl
@[simp] theorem Hart.setV_sampleDue (h : Hart) (r : VNum) (v : VReg) : (h.setV r v).sampleDue = h.sampleDue := rfl
@[simp] theorem Hart.setK_sampleDue (h : Hart) (r : KReg) (m : Nat) : (h.setK r m).sampleDue = h.sampleDue := rfl
@[simp] theorem Hart.raise_sampleDue (h : Hart) (n : Nat) : (h.raise n).sampleDue = h.sampleDue := rfl
@[simp] theorem Hart.setX_sampleDue (h : Hart) (r : XReg) (v : Word) : (h.setX r v).sampleDue = h.sampleDue := by
  unfold Hart.setX; split <;> rfl
@[simp] theorem Hart.setP_sampleDue (h : Hart) (r : PReg) (b : Bool) : (h.setP r b).sampleDue = h.sampleDue := by
  unfold Hart.setP; split <;> rfl
@[simp] theorem Hart.setV_missed (h : Hart) (r : VNum) (v : VReg) : (h.setV r v).missed = h.missed := rfl
@[simp] theorem Hart.setK_missed (h : Hart) (r : KReg) (m : Nat) : (h.setK r m).missed = h.missed := rfl
@[simp] theorem Hart.raise_missed (h : Hart) (n : Nat) : (h.raise n).missed = h.missed := rfl
@[simp] theorem Hart.setX_missed (h : Hart) (r : XReg) (v : Word) : (h.setX r v).missed = h.missed := by
  unfold Hart.setX; split <;> rfl
@[simp] theorem Hart.setP_missed (h : Hart) (r : PReg) (b : Bool) : (h.setP r b).missed = h.missed := by
  unfold Hart.setP; split <;> rfl
@[simp] theorem Hart.setV_dropped (h : Hart) (r : VNum) (v : VReg) : (h.setV r v).dropped = h.dropped := rfl
@[simp] theorem Hart.setK_dropped (h : Hart) (r : KReg) (m : Nat) : (h.setK r m).dropped = h.dropped := rfl
@[simp] theorem Hart.raise_dropped (h : Hart) (n : Nat) : (h.raise n).dropped = h.dropped := rfl
@[simp] theorem Hart.setX_dropped (h : Hart) (r : XReg) (v : Word) : (h.setX r v).dropped = h.dropped := by
  unfold Hart.setX; split <;> rfl
@[simp] theorem Hart.setP_dropped (h : Hart) (r : PReg) (b : Bool) : (h.setP r b).dropped = h.dropped := by
  unfold Hart.setP; split <;> rfl
@[simp] theorem Hart.setV_exempt (h : Hart) (r : VNum) (v : VReg) : (h.setV r v).exempt = h.exempt := rfl
@[simp] theorem Hart.setK_exempt (h : Hart) (r : KReg) (m : Nat) : (h.setK r m).exempt = h.exempt := rfl
@[simp] theorem Hart.raise_exempt (h : Hart) (n : Nat) : (h.raise n).exempt = h.exempt := rfl
@[simp] theorem Hart.setX_exempt (h : Hart) (r : XReg) (v : Word) : (h.setX r v).exempt = h.exempt := by
  unfold Hart.setX; split <;> rfl
@[simp] theorem Hart.setP_exempt (h : Hart) (r : PReg) (b : Bool) : (h.setP r b).exempt = h.exempt := by
  unfold Hart.setP; split <;> rfl
@[simp] theorem Hart.setV_filmFull (h : Hart) (r : VNum) (v : VReg) : (h.setV r v).filmFull = h.filmFull := rfl
@[simp] theorem Hart.setK_filmFull (h : Hart) (r : KReg) (m : Nat) : (h.setK r m).filmFull = h.filmFull := rfl
@[simp] theorem Hart.raise_filmFull (h : Hart) (n : Nat) : (h.raise n).filmFull = h.filmFull := rfl
@[simp] theorem Hart.setX_filmFull (h : Hart) (r : XReg) (v : Word) : (h.setX r v).filmFull = h.filmFull := by
  unfold Hart.setX; split <;> rfl
@[simp] theorem Hart.setP_filmFull (h : Hart) (r : PReg) (b : Bool) : (h.setP r b).filmFull = h.filmFull := by
  unfold Hart.setP; split <;> rfl
@[simp] theorem Hart.setV_filmNo (h : Hart) (r : VNum) (v : VReg) : (h.setV r v).filmNo = h.filmNo := rfl
@[simp] theorem Hart.setK_filmNo (h : Hart) (r : KReg) (m : Nat) : (h.setK r m).filmNo = h.filmNo := rfl
@[simp] theorem Hart.raise_filmNo (h : Hart) (n : Nat) : (h.raise n).filmNo = h.filmNo := rfl
@[simp] theorem Hart.setX_filmNo (h : Hart) (r : XReg) (v : Word) : (h.setX r v).filmNo = h.filmNo := by
  unfold Hart.setX; split <;> rfl
@[simp] theorem Hart.setP_filmNo (h : Hart) (r : PReg) (b : Bool) : (h.setP r b).filmNo = h.filmNo := by
  unfold Hart.setP; split <;> rfl
@[simp] theorem Hart.setV_defer (h : Hart) (r : VNum) (v : VReg) : (h.setV r v).defer = h.defer := rfl
@[simp] theorem Hart.setK_defer (h : Hart) (r : KReg) (m : Nat) : (h.setK r m).defer = h.defer := rfl
@[simp] theorem Hart.raise_defer (h : Hart) (n : Nat) : (h.raise n).defer = h.defer := rfl
@[simp] theorem Hart.setX_defer (h : Hart) (r : XReg) (v : Word) : (h.setX r v).defer = h.defer := by
  unfold Hart.setX; split <;> rfl
@[simp] theorem Hart.setP_defer (h : Hart) (r : PReg) (b : Bool) : (h.setP r b).defer = h.defer := by
  unfold Hart.setP; split <;> rfl
@[simp] theorem Hart.setV_late (h : Hart) (r : VNum) (v : VReg) : (h.setV r v).late = h.late := rfl
@[simp] theorem Hart.setK_late (h : Hart) (r : KReg) (m : Nat) : (h.setK r m).late = h.late := rfl
@[simp] theorem Hart.raise_late (h : Hart) (n : Nat) : (h.raise n).late = h.late := rfl
@[simp] theorem Hart.setX_late (h : Hart) (r : XReg) (v : Word) : (h.setX r v).late = h.late := by
  unfold Hart.setX; split <;> rfl
@[simp] theorem Hart.setP_late (h : Hart) (r : PReg) (b : Bool) : (h.setP r b).late = h.late := by
  unfold Hart.setP; split <;> rfl
@[simp] theorem Hart.setV_issueAt (h : Hart) (r : VNum) (v : VReg) : (h.setV r v).issueAt = h.issueAt := rfl
@[simp] theorem Hart.setK_issueAt (h : Hart) (r : KReg) (m : Nat) : (h.setK r m).issueAt = h.issueAt := rfl
@[simp] theorem Hart.raise_issueAt (h : Hart) (n : Nat) : (h.raise n).issueAt = h.issueAt := rfl
@[simp] theorem Hart.setX_issueAt (h : Hart) (r : XReg) (v : Word) : (h.setX r v).issueAt = h.issueAt := by
  unfold Hart.setX; split <;> rfl
@[simp] theorem Hart.setP_issueAt (h : Hart) (r : PReg) (b : Bool) : (h.setP r b).issueAt = h.issueAt := by
  unfold Hart.setP; split <;> rfl
@[simp] theorem Hart.setV_stalls (h : Hart) (r : VNum) (v : VReg) : (h.setV r v).stalls = h.stalls := rfl
@[simp] theorem Hart.setK_stalls (h : Hart) (r : KReg) (m : Nat) : (h.setK r m).stalls = h.stalls := rfl
@[simp] theorem Hart.raise_stalls (h : Hart) (n : Nat) : (h.raise n).stalls = h.stalls := rfl
@[simp] theorem Hart.setX_stalls (h : Hart) (r : XReg) (v : Word) : (h.setX r v).stalls = h.stalls := by
  unfold Hart.setX; split <;> rfl
@[simp] theorem Hart.setP_stalls (h : Hart) (r : PReg) (b : Bool) : (h.setP r b).stalls = h.stalls := by
  unfold Hart.setP; split <;> rfl
@[simp] theorem Hart.setV_tlbMissed (h : Hart) (r : VNum) (v : VReg) : (h.setV r v).tlbMissed = h.tlbMissed := rfl
@[simp] theorem Hart.setK_tlbMissed (h : Hart) (r : KReg) (m : Nat) : (h.setK r m).tlbMissed = h.tlbMissed := rfl
@[simp] theorem Hart.raise_tlbMissed (h : Hart) (n : Nat) : (h.raise n).tlbMissed = h.tlbMissed := rfl
@[simp] theorem Hart.setX_tlbMissed (h : Hart) (r : XReg) (v : Word) : (h.setX r v).tlbMissed = h.tlbMissed := by
  unfold Hart.setX; split <;> rfl
@[simp] theorem Hart.setP_tlbMissed (h : Hart) (r : PReg) (b : Bool) : (h.setP r b).tlbMissed = h.tlbMissed := by
  unfold Hart.setP; split <;> rfl

@[simp] theorem Ctx.setX_s (c : Ctx) (r : XReg) (v : Word) : (c.setX r v).s = c.s := rfl
@[simp] theorem Ctx.setP_s (c : Ctx) (r : PReg) (b : Bool) : (c.setP r b).s = c.s := rfl
@[simp] theorem Ctx.setX_id (c : Ctx) (r : XReg) (v : Word) : (c.setX r v).id = c.id := rfl
@[simp] theorem Ctx.setP_id (c : Ctx) (r : PReg) (b : Bool) : (c.setP r b).id = c.id := rfl
@[simp] theorem Ctx.setX_npc (c : Ctx) (r : XReg) (v : Word) : (c.setX r v).npc = c.npc := rfl
@[simp] theorem Ctx.setP_npc (c : Ctx) (r : PReg) (b : Bool) : (c.setP r b).npc = c.npc := rfl
@[simp] theorem Ctx.setX_taken (c : Ctx) (r : XReg) (v : Word) : (c.setX r v).taken = c.taken := rfl
@[simp] theorem Ctx.setP_taken (c : Ctx) (r : PReg) (b : Bool) : (c.setP r b).taken = c.taken := rfl
@[simp] theorem Ctx.setX_gov (c : Ctx) (r : XReg) (v : Word) : (c.setX r v).gov = c.gov := rfl
@[simp] theorem Ctx.setP_gov (c : Ctx) (r : PReg) (b : Bool) : (c.setP r b).gov = c.gov := rfl
@[simp] theorem Ctx.setX_word (c : Ctx) (r : XReg) (v : Word) : (c.setX r v).word = c.word := rfl
@[simp] theorem Ctx.setP_word (c : Ctx) (r : PReg) (b : Bool) : (c.setP r b).word = c.word := rfl
@[simp] theorem Ctx.setX_todo (c : Ctx) (r : XReg) (v : Word) : (c.setX r v).todo = c.todo := rfl
@[simp] theorem Ctx.setP_todo (c : Ctx) (r : PReg) (b : Bool) : (c.setP r b).todo = c.todo := rfl
@[simp] theorem Ctx.later_s (c : Ctx) (e : AtRetire) : (c.later e).s = c.s := rfl
@[simp] theorem Ctx.later_id (c : Ctx) (e : AtRetire) : (c.later e).id = c.id := rfl
@[simp] theorem Ctx.later_h (c : Ctx) (e : AtRetire) : (c.later e).h = c.h := rfl
@[simp] theorem Ctx.later_npc (c : Ctx) (e : AtRetire) : (c.later e).npc = c.npc := rfl
@[simp] theorem Ctx.later_taken (c : Ctx) (e : AtRetire) : (c.later e).taken = c.taken := rfl
@[simp] theorem Ctx.later_gov (c : Ctx) (e : AtRetire) : (c.later e).gov = c.gov := rfl
@[simp] theorem Ctx.later_word (c : Ctx) (e : AtRetire) : (c.later e).word = c.word := rfl
@[simp] theorem Ctx.setX_h (c : Ctx) (r : XReg) (v : Word) : (c.setX r v).h = c.h.setX r v := rfl
@[simp] theorem Ctx.setP_h (c : Ctx) (r : PReg) (b : Bool) : (c.setP r b).h = c.h.setP r b := rfl

/-! ## Reading back -/

/-- `x0` reads 0, whatever is written to it. -/
@[simp] theorem Hart.getX_zero (h : Hart) : h.getX 0 = 0 := rfl

/-- A register other than `x0` reads as it was written. -/
theorem Hart.getX_setX_same (h : Hart) (r : XReg) (v : Word) (hr : r ≠ 0) : (h.setX r v).getX r = v := by
  unfold Hart.setX Hart.getX
  simp only [if_neg hr, Vector.getElem_set_self]

/-- Every other register reads as before. -/
theorem Hart.getX_setX_other (h : Hart) (r q : XReg) (v : Word) (hq : q ≠ r) : (h.setX r v).getX q = h.getX q := by
  have hn : r.toNat ≠ q.toNat := fun e => hq (BitVec.eq_of_toNat_eq e.symm)
  unfold Hart.setX Hart.getX
  split
  · rfl
  · split
    · rfl
    · simp [hn]

/-- A predicate other than `p0` reads as it was written. -/
theorem Hart.getP_setP_same (h : Hart) (r : PReg) (b : Bool) (hr : r ≠ 0) : (h.setP r b).getP r = b := by
  unfold Hart.setP Hart.getP
  simp only [if_neg hr, Vector.getElem_set_self]

/-- Every other predicate reads as before. -/
theorem Hart.getP_setP_other (h : Hart) (r q : PReg) (b : Bool) (hq : q ≠ r) : (h.setP r b).getP q = h.getP q := by
  have hn : r.toNat ≠ q.toNat := fun e => hq (BitVec.eq_of_toNat_eq e.symm)
  unfold Hart.setP Hart.getP
  split
  · rfl
  · split
    · rfl
    · simp [hn]

end Sys2Proof.Machine
end

