-- ==== Sys2Proof/Laws/Memory.lean ====
section
/-! SUPPORT. Laws/Memory.lean: sparse maps and memory: reading after writing, and the canonical form that every write keeps. -/

namespace Sys2Proof.Machine

/-! ## Maps -/

theorem find?_put_same {α : Type} (m : AMap α) (k : Nat) (v : α) : find? (put m k v) k = some v := by
  induction m with
  | nil => simp [put, find?]
  | cons e m ih =>
    obtain ⟨a, w⟩ := e
    unfold put
    split
    · simp [find?]
    · split
      · simp [find?]
      · have h1 : ¬a = k := fun h => by omega
        simp only [find?, if_neg h1, ih]
        split
        · omega
        · rfl

theorem find?_put_other {α : Type} (m : AMap α) (k j : Nat) (v : α) (h : j ≠ k) : find? (put m k v) j = find? m j := by
  induction m with
  | nil =>
    have : ¬k = j := fun e => h e.symm
    simp [put, find?, this]
  | cons e m ih =>
    obtain ⟨a, w⟩ := e
    have hk : ¬k = j := fun e => h e.symm
    unfold put
    split
    · by_cases h1 : j < k
      · have h2 : ¬a = j := by omega
        have h3 : j < a := by omega
        simp [find?, hk, h1, h2, h3]
      · simp [find?, hk, h1]
    · split
      · subst_vars
        simp [find?, hk]
      · simp [find?, ih]

theorem find?_put {α : Type} (m : AMap α) (k j : Nat) (v : α) :
    find? (put m k v) j = if j = k then some v else find? m j := by
  split
  · subst_vars; exact find?_put_same ..
  · exact find?_put_other _ _ _ _ ‹_›

theorem rising_cons {α : Type} (a : Nat) (v : α) (m : AMap α) :
    rising ((a, v) :: m) = true ↔ (∀ e ∈ m, a < e.1) ∧ rising m = true := by
  induction m generalizing a v with
  | nil => simp [rising]
  | cons e m ih =>
    obtain ⟨b, w⟩ := e
    simp only [rising, Bool.and_eq_true, decide_eq_true_eq, List.mem_cons, forall_eq_or_imp, ih b w]
    constructor
    · rintro ⟨hab, hb, hm⟩
      exact ⟨⟨hab, fun e he => Nat.lt_trans hab (hb e he)⟩, hb, hm⟩
    · rintro ⟨⟨hab, _⟩, hb, hm⟩
      exact ⟨hab, hb, hm⟩

theorem mem_put {α : Type} (m : AMap α) (k : Nat) (v : α) (e : Nat × α) (h : e ∈ put m k v) : e = (k, v) ∨ e ∈ m := by
  induction m with
  | nil => simpa [put] using h
  | cons x m ih =>
    obtain ⟨a, w⟩ := x
    unfold put at h
    split at h
    · simpa using h
    · split at h
      · rcases List.mem_cons.1 h with h | h
        · exact .inl h
        · exact .inr (List.mem_cons_of_mem _ h)
      · rcases List.mem_cons.1 h with h | h
        · exact .inr (by simp [h])
        · rcases ih h with h | h
          · exact .inl h
          · exact .inr (List.mem_cons_of_mem _ h)

theorem mem_del {α : Type} (m : AMap α) (k : Nat) (e : Nat × α) (h : e ∈ del m k) : e ∈ m := by
  induction m with
  | nil => simp [del] at h
  | cons x m ih =>
    obtain ⟨a, w⟩ := x
    unfold del at h
    split at h
    · exact List.mem_cons_of_mem _ h
    · split at h
      · exact h
      · rcases List.mem_cons.1 h with h | h
        · simp [h]
        · exact List.mem_cons_of_mem _ (ih h)

theorem rising_put {α : Type} (m : AMap α) (k : Nat) (v : α) (h : rising m = true) : rising (put m k v) = true := by
  induction m with
  | nil => simp [put, rising]
  | cons x m ih =>
    obtain ⟨a, w⟩ := x
    obtain ⟨ha, hm⟩ := (rising_cons a w m).1 h
    unfold put
    split
    · refine (rising_cons _ _ _).2 ⟨fun e he => ?_, h⟩
      rcases List.mem_cons.1 he with he | he
      · simp_all
      · exact Nat.lt_trans ‹_› (ha e he)
    · split
      · subst_vars
        exact (rising_cons _ _ _).2 ⟨ha, hm⟩
      · refine (rising_cons _ _ _).2 ⟨fun e he => ?_, ih hm⟩
        rcases mem_put m k v e he with he | he
        · subst he
          simp only
          omega
        · exact ha e he

theorem rising_del {α : Type} (m : AMap α) (k : Nat) (h : rising m = true) : rising (del m k) = true := by
  induction m with
  | nil => simp [del, rising]
  | cons x m ih =>
    obtain ⟨a, w⟩ := x
    obtain ⟨ha, hm⟩ := (rising_cons a w m).1 h
    unfold del
    split
    · exact hm
    · split
      · exact h
      · exact (rising_cons _ _ _).2 ⟨fun e he => ha e (mem_del m k e he), ih hm⟩

theorem find?_below {α : Type} (m : AMap α) (k : Nat) (h : ∀ e ∈ m, k < e.1) : find? m k = none := by
  cases m with
  | nil => rfl
  | cons x m =>
    obtain ⟨a, w⟩ := x
    have ha : k < a := h (a, w) (by simp)
    have hne : ¬a = k := by omega
    simp [find?, hne, ha]

theorem find?_del {α : Type} (m : AMap α) (k j : Nat) (h : rising m = true) :
    find? (del m k) j = if j = k then none else find? m j := by
  induction m with
  | nil => simp [del, find?]
  | cons x m ih =>
    obtain ⟨a, w⟩ := x
    obtain ⟨ha, hm⟩ := (rising_cons a w m).1 h
    unfold del
    by_cases hk : k = a
    · rw [if_pos hk]
      by_cases hj : j = k
      · rw [if_pos hj]
        exact find?_below m _ (by rw [hj, hk]; exact ha)
      · rw [if_neg hj, find?, if_neg (by omega)]
        split
        · exact find?_below m j (fun e he => by have := ha e he; omega)
        · rfl
    · rw [if_neg hk]
      by_cases hl : k < a
      · rw [if_pos hl]
        split
        · rw [find?, if_neg (by omega), if_pos (by omega)]
        · rfl
      · rw [if_neg hl, find?, find?, ih hm]
        by_cases hj : j = k
        · rw [if_pos hj, if_neg (by omega), if_neg (by omega), if_pos hj]
        · rw [if_neg hj, if_neg hj]

/-! ## Bytes -/

theorem readByte_writeByte (m : List Host.Cell) (a j : Nat) (b : Byte) (h : rising m = true) :
    readByte (writeByte m a b) j = if j = a then b else readByte m j := by
  unfold readByte writeByte look
  split
  · rw [find?_del _ _ _ h]
    split <;> simp_all
  · rw [find?_put]
    split <;> rfl

theorem wf_iff (m : List Host.Cell) : Memory.wf m = true ↔ rising m = true ∧ ∀ c ∈ m, c.2 ≠ 0 := by
  simp [Memory.wf]

theorem wf_del (m : List Host.Cell) (a : Nat) (h : Memory.wf m = true) : Memory.wf (del m a) = true := by
  rw [wf_iff] at h ⊢
  exact ⟨rising_del _ _ h.1, fun c hc => h.2 c (mem_del _ _ _ hc)⟩

theorem wf_writeByte (m : List Host.Cell) (a : Nat) (b : Byte) (h : Memory.wf m = true) : Memory.wf (writeByte m a b) = true := by
  unfold writeByte
  split
  · exact wf_del m a h
  · rw [wf_iff] at h ⊢
    refine ⟨rising_put _ _ _ h.1, fun c hc => ?_⟩
    rcases mem_put _ _ _ _ hc with hc | hc
    · simp_all
    · exact h.2 c hc

/-- Memory is in its canonical form, and so it stays. -/
def KeepsForm (s t : State) : Prop := Memory.wf s.mem = true → Memory.wf t.mem = true

theorem KeepsForm.refl (s : State) : KeepsForm s s := id
theorem KeepsForm.trans {s t u : State} (h : KeepsForm s t) (g : KeepsForm t u) : KeepsForm s u := fun x => g (h x)
theorem KeepsForm.of_mem {s t : State} (h : t.mem = s.mem) : KeepsForm s t := fun x => by rw [h]; exact x

/-- A fold of steps that keep the form keeps it. -/
theorem KeepsForm.foldl {α : Type} (f : State → α → State) (l : List α) (s : State) (h : ∀ s a, KeepsForm s (f s a)) :
    KeepsForm s (l.foldl f s) := by
  induction l generalizing s with
  | nil => exact KeepsForm.refl s
  | cons a l ih => exact (h s a).trans (ih _)

theorem wf_writeCells (m : List Host.Cell) (cells : List (Nat × Byte)) (h : Memory.wf m = true) :
    Memory.wf (writeCells m cells) = true := by
  unfold writeCells
  induction cells generalizing m with
  | nil => exact h
  | cons c l ih => exact ih _ (wf_writeByte m c.1 c.2 h)

theorem wf_foldl_del (m : List Host.Cell) (l : List Nat) (h : Memory.wf m = true) : Memory.wf (l.foldl del m) = true := by
  induction l generalizing m with
  | nil => exact h
  | cons a l ih => exact ih _ (wf_del m a h)

/-- A byte of memory after a list of cells is written: the last cell at its address, else the byte before. -/
theorem readByte_writeCells (m : List Host.Cell) (cells : List (Nat × Byte)) (a : Nat) (h : Memory.wf m = true) :
    readByte (writeCells m cells) a = cells.foldl (fun b c => if a = c.1 then c.2 else b) (readByte m a) := by
  unfold writeCells
  induction cells generalizing m with
  | nil => rfl
  | cons c l ih =>
    rw [List.foldl_cons, ih _ (wf_writeByte m c.1 c.2 h), List.foldl_cons,
      readByte_writeByte _ _ _ _ ((wf_iff m).1 h).1]

/-- Cells at other addresses leave a byte as it was. -/
theorem readByte_writeCells_other (m : List Host.Cell) (cells : List (Nat × Byte)) (a : Nat) (h : Memory.wf m = true)
    (ha : ∀ c ∈ cells, c.1 ≠ a) : readByte (writeCells m cells) a = readByte m a := by
  unfold writeCells
  induction cells generalizing m with
  | nil => rfl
  | cons c l ih =>
    rw [List.foldl_cons, ih _ (wf_writeByte m c.1 c.2 h) (fun c hc => ha c (List.mem_cons_of_mem _ hc)),
      readByte_writeByte _ _ _ _ ((wf_iff m).1 h).1]
    have : a ≠ c.1 := fun e => ha c (by simp) e.symm
    simp [this]

/-! ## Memory operations -/

@[simp] theorem recordPiece_mem (s : State) (src p : Nat) : (recordPiece s src p).mem = s.mem := by
  unfold recordPiece; split <;> rfl

@[simp] theorem recordPiece_marks (s : State) (src p : Nat) : (recordPiece s src p).marks = s.marks := by
  unfold recordPiece; split <;> rfl

theorem foldl_mem {α : Type} (f : State → α → State) (l : List α) (s : State) (h : ∀ s a, (f s a).mem = s.mem) :
    (l.foldl f s).mem = s.mem := by
  induction l generalizing s with
  | nil => rfl
  | cons a l ih => rw [List.foldl_cons, ih, h]

theorem foldl_marks {α : Type} (f : State → α → State) (l : List α) (s : State) (h : ∀ s a, (f s a).marks = s.marks) :
    (l.foldl f s).marks = s.marks := by
  induction l generalizing s with
  | nil => rfl
  | cons a l ih => rw [List.foldl_cons, ih, h]

@[simp] theorem recordPieces_mem (s : State) (src : Nat) (l : List Nat) : (recordPieces s src l).mem = s.mem := by
  unfold recordPieces; exact foldl_mem _ _ _ (by simp)

@[simp] theorem recordPieces_marks (s : State) (src : Nat) (l : List Nat) : (recordPieces s src l).marks = s.marks := by
  unfold recordPieces; exact foldl_marks _ _ _ (by simp)

theorem poisonPiece_keeps (s : State) (p : Nat) : KeepsForm s (poisonPiece s p) := fun h => wf_foldl_del _ _ h

theorem writePiece_keeps (s : State) (p : Nat) (cells : List (Nat × Byte)) (b : Bool) : KeepsForm s (writePiece s p cells b) := by
  intro h
  unfold writePiece
  split
  · split
    · exact poisonPiece_keeps s p h
    · exact wf_writeCells _ _ h
  · split
    · exact h
    · exact poisonPiece_keeps _ p h
    · split
      · exact poisonPiece_keeps s p h
      · exact wf_writeCells _ _ h

theorem writePieces_keeps (s : State) (cells : List (Nat × Byte)) (b : Bool) : KeepsForm s (writePieces s cells b) :=
  KeepsForm.foldl _ _ _ (fun s p => writePiece_keeps s p _ b)

theorem writeAll_keeps (s : State) (src : Nat) (cells : List (Nat × Byte)) (b : Bool) :
    KeepsForm s (writeAll s src cells b) := (KeepsForm.of_mem (recordPieces_mem _ _ _)).trans (writePieces_keeps _ _ _)

theorem writeBytes_keeps (s : State) (src a : Nat) (data : List Byte) : KeepsForm s (writeBytes s src a data) :=
  writeAll_keeps _ _ _ _

@[simp] theorem touchLine_mem (s : State) (pa : Nat) (b : Bool) : (touchLine s pa b).mem = s.mem := by
  unfold touchLine; split <;> rfl

@[simp] theorem dropLines_mem (s : State) (l : List Nat) : (dropLines s l).mem = s.mem := by
  unfold dropLines; exact foldl_mem _ _ _ fun s a => rfl

@[simp] theorem refreshNeighbours_mem (s : State) (c w r : Nat) : (refreshNeighbours s c w r).mem = s.mem := rfl

@[simp] theorem activate_mem (s : State) (c : Nat) (r : WayRequest) : (activate s c r).mem = s.mem := by
  unfold activate
  dsimp only
  split
  · rfl
  · split
    · simp
    · split <;> rfl

@[simp] theorem withdrawDeadline_mem (s : State) (c : Nat) : (withdrawDeadline s c).mem = s.mem := by
  unfold withdrawDeadline
  split <;> rfl

@[simp] theorem refreshSet_mem (s : State) (c : Nat) : (refreshSet s c).mem = s.mem := withdrawDeadline_mem _ _

/-- The grant of a request writes no memory. -/
@[simp] theorem grantRequest_mem (s : State) (c : Nat) (r : WayRequest) : (grantRequest s c r).mem = s.mem := by
  unfold grantRequest
  dsimp only
  split
  · exact activate_mem _ _ _
  · rfl
  · rfl
  · rfl
  · rw [refreshSet_mem]
    split <;> rfl

@[simp] theorem serve_mem (c : Nat) : ∀ (n : Nat) (s : State), (serve s c n).mem = s.mem := by
  intro n
  induction n with
  | zero => exact fun s => rfl
  | succ n ih =>
    intro s
    unfold serve
    split
    · rfl
    · rw [ih, grantRequest_mem]

@[simp] theorem serveColumn_mem (s : State) (c : Nat) : (serveColumn s c).mem = s.mem := serve_mem _ _ _

@[simp] theorem ask_mem (s : State) (c : Nat) (l : List WayRequest) : (ask s c l).mem = s.mem := rfl
@[simp] theorem ask_marks (s : State) (c : Nat) (l : List WayRequest) : (ask s c l).marks = s.marks := rfl
@[simp] theorem ask_harts (s : State) (c : Nat) (l : List WayRequest) : (ask s c l).harts = s.harts := rfl

@[simp] theorem baseAccess_mem (s : State) (l : List Nat) (src : ActSource) : (baseAccess s l src).mem = s.mem := by
  unfold baseAccess
  exact foldl_mem _ _ _ fun s a => rfl

@[simp] theorem readAccess_mem (s : State) (l : List (Nat × Bool)) (b : Bool) (src : ActSource) : (readAccess s l b src).mem = s.mem := by
  unfold readAccess
  rw [foldl_mem _ _ _ (by simp), baseAccess_mem]

@[simp] theorem hubAccess_mem (s : State) (l : List Nat) (b : Bool) : (hubAccess s l b).mem = s.mem := readAccess_mem ..

@[simp] theorem readEntry_mem (s : State) (pa : Nat) : (readEntry s pa).1.mem = s.mem := by
  unfold readEntry; split
  · rfl
  · dsimp only; split <;> simp

theorem walkLevel_mem (s : State) (t n : Nat) (k : State → Nat → State × Option Nat) (h : ∀ s e, (k s e).1.mem = s.mem) :
    (walkLevel s t n k).1.mem = s.mem := by
  have := readEntry_mem s (t + 8 * n)
  unfold walkLevel
  split
  · simp_all
  · rename_i s' e he
    rw [h, ← this, he]

@[simp] theorem walk_mem (s : State) (root va : Nat) : (walk s root va).1.mem = s.mem := by
  unfold walk
  refine walkLevel_mem _ _ _ _ fun s e => ?_
  split
  · rfl
  · refine walkLevel_mem _ _ _ _ fun s e => ?_
    split
    · rfl
    · exact walkLevel_mem _ _ _ _ fun s e => rfl

@[simp] theorem walkThrough_mem (s : State) (stack root va : Nat) : (walkThrough s stack root va).1.mem = s.mem := by
  have := walk_mem s root va
  unfold walkThrough
  split
  · simp_all
  · rename_i h
    rw [h] at this
    exact this

@[simp] theorem leafThrough_mem (s : State) (stack root va : Nat) : (leafThrough s stack root va).1.mem = s.mem := by
  unfold leafThrough
  split
  · split
    · rfl
    · split
      · exact walkThrough_mem _ _ _ _
      · rfl
  · exact walkThrough_mem _ _ _ _

@[simp] theorem translate_mem (s : State) (stack root part : Nat) (w : Want) (va : Nat) :
    (translate s stack root part w va).1.mem = s.mem := by
  have := leafThrough_mem s stack root va
  unfold translate
  split
  · rfl
  · split
    · rfl
    · simp_all

@[simp] theorem hubTranslate_mem (s : State) (root part : Nat) (w : Want) (va : Nat) :
    (hubTranslate s root part w va).1.mem = s.mem := by
  have := walk_mem s root va
  unfold hubTranslate
  split
  · rfl
  · split
    · rfl
    · simp_all

@[simp] theorem hartTranslate_mem (s : State) (h : Hart) (w : Want) (va : Nat) : (hartTranslate s h w va).1.mem = s.mem :=
  translate_mem ..

@[simp] theorem noteActive_mem (s : State) (q : Nat) : (noteActive s q).mem = s.mem := by
  unfold noteActive
  dsimp only
  split
  · split <;> simp
  · simp

@[simp] theorem ringDoorbell_mem (s : State) (q p : Nat) : (ringDoorbell s q p).mem = s.mem := by
  unfold ringDoorbell
  dsimp only
  split <;> simp

@[simp] theorem writeDescriptor_mem (s : State) (q o v : Nat) : (writeDescriptor s q o v).mem = s.mem := by
  simp [writeDescriptor]

@[simp] theorem writeTarget_mem (s : State) (n o : Nat) (v : Word) : (writeTarget s n o v).mem = s.mem := rfl

@[simp] theorem writePower_mem (s : State) (n v : Nat) : (writePower s n v).mem = s.mem := rfl

@[simp] theorem hubWrite_mem (s : State) (who : Agent) (a : Nat) (v : Word) : (hubWrite s who a v).mem = s.mem := by
  unfold hubWrite
  repeat' (first | split | simp)

@[simp] theorem hubFetchAdd_mem (s : State) (a : Nat) (v : Word) : (hubFetchAdd s a v).mem = s.mem := by
  unfold hubFetchAdd
  split <;> simp

theorem storeBytes_keeps (s : State) (src pa : Nat) (data : List Byte) : KeepsForm s (storeBytes s src pa data) := by
  unfold storeBytes
  split
  · split
    · exact KeepsForm.of_mem (by simp)
    · exact KeepsForm.of_mem (by simp)
  · exact writeBytes_keeps _ _ _ _

theorem submit_keeps (s : State) (q : Nat) (r : List Byte) : KeepsForm s (submit s q r).1 := by
  unfold submit
  dsimp only
  split
  · exact KeepsForm.refl s
  · exact (KeepsForm.of_mem (baseAccess_mem s [(s.queue q).ring + 128 * ((s.queue q).claim % (s.queue q).capacity)] .hub)).trans
      ((writeBytes_keeps _ 3 _ r).trans (KeepsForm.of_mem ((ringDoorbell_mem _ _ _).trans (State.setQueue_mem _ _ _))))

/-! ## Stores of consecutive bytes -/

theorem mem_distinct (l : List Nat) (a : Nat) : a ∈ distinct l ↔ a ∈ l := by
  induction l with
  | nil => simp [distinct]
  | cons b l ih =>
    simp only [distinct, List.mem_cons, List.mem_filter, ih, bne_iff_ne, ne_eq]
    constructor
    · rintro (h | h)
      · exact .inl h
      · exact .inr h.1
    · rintro (h | h)
      · exact .inl h
      · by_cases e : a = b
        · exact .inl e
        · exact .inr ⟨h, e⟩

theorem distinct_nodup (l : List Nat) : (distinct l).Nodup := by
  induction l with
  | nil => simp [distinct]
  | cons b l ih =>
    simp only [distinct, List.nodup_cons, List.mem_filter]
    exact ⟨by simp, ih.filter _⟩

/-- Cells at other addresses do not count. -/
theorem foldl_cells_filter (cells : List (Nat × Byte)) (a : Nat) (p : Nat → Bool) (hp : p a = true) (b : Byte) :
    (cells.filter (fun c => p c.1)).foldl (fun b c => if a = c.1 then c.2 else b) b =
      cells.foldl (fun b c => if a = c.1 then c.2 else b) b := by
  induction cells generalizing b with
  | nil => rfl
  | cons c l ih =>
    rw [List.filter_cons]
    split
    · exact ih _
    · rename_i hc
      rw [ih, List.foldl_cons, if_neg]
      intro e; rw [← e] at hc; exact hc hp

/-- Cells at other addresses leave the value. -/
theorem foldl_cells_none (cells : List (Nat × Byte)) (a : Nat) (h : ∀ c ∈ cells, c.1 ≠ a) (b : Byte) :
      cells.foldl (fun b c => if a = c.1 then c.2 else b) b = b := by
  induction cells generalizing b with
  | nil => rfl
  | cons c l ih =>
    rw [List.foldl_cons, if_neg (fun e => h c (by simp) e.symm)]
    exact ih (fun c hc => h c (by simp [hc])) _

/-- Nothing is recorded of good pieces. -/
theorem recordPieces_good (s : State) (src : Nat) (l : List Nat) (h : ∀ p ∈ l, find? s.marks p = none) : recordPieces s src l = s := by
  have : (distinct l).filter (fun p => find? s.marks p == some .uncorrectable) = [] := by
    rw [List.filter_eq_nil_iff]
    intro p hp
    rw [h p ((mem_distinct l p).1 hp)]
    decide
  unfold recordPieces
  rw [this]
  rfl

/-- The pieces of a write in part are among those of its cells. -/
theorem mem_partPieces {cells : List (Nat × Byte)} {p : Nat} (h : p ∈ partPieces cells) : ∃ c ∈ cells, pieceOf c.1 = p := by
  unfold partPieces at h
  rw [List.mem_filter, mem_distinct, List.mem_map] at h
  exact h.1

/-- A clean write of cells in good pieces: the last cell at each address stands (R364). -/
theorem writePieces_good (cells : List (Nat × Byte)) (s : State) (hl : cells.length < 32) (hw : Memory.wf s.mem = true)
    (hg : ∀ c ∈ cells, find? s.marks (pieceOf c.1) = none) :
    ∃ m, writePieces s cells false = { s with mem := m } ∧
      ∀ a, readByte m a = cells.foldl (fun b c => if a = c.1 then c.2 else b) (readByte s.mem a) := by
  have key : ∀ (L : List Nat) (s : State), L.Nodup → Memory.wf s.mem = true → (∀ p ∈ L, find? s.marks p = none) →
     ∃ m, L.foldl (fun s p => writePiece s p (cellsIn cells p) false) s = { s with mem := m } ∧
      ∀ a, readByte m a = if pieceOf a ∈ L then cells.foldl (fun b c => if a = c.1 then c.2 else b) (readByte s.mem a) else readByte s.mem a := by
    intro L
    induction L with
    | nil => intro s _ _ _; exact ⟨s.mem, rfl, fun a => by simp⟩
    | cons p L ih =>
      intro s hn hw hm
      have hs : writePiece s p (cellsIn cells p) false = { s with mem := writeCells s.mem (cellsIn cells p) } := by
        have h1 : ¬ (cellsIn cells p).length ≥ 32 := by
          have := List.length_filter_le (fun c : Nat × Byte => pieceOf c.1 == p) cells
          unfold cellsIn
          omega
        unfold writePiece
        rw [if_neg h1, hm p (by simp)]
        rfl
      rw [List.foldl_cons, hs]
      obtain ⟨m, h1, h2⟩ := ih { s with mem := writeCells s.mem (cellsIn cells p) } (List.nodup_cons.1 hn).2
        (wf_writeCells _ _ hw) (fun q hq => hm q (by simp [hq]))
      refine ⟨m, h1, fun a => ?_⟩
      rw [h2 a, readByte_writeCells _ _ _ hw]
      by_cases ha : pieceOf a = p
      · have : pieceOf a ∉ L := by rw [ha]; exact (List.nodup_cons.1 hn).1
        rw [if_neg this, if_pos (by simp [ha])]
        exact foldl_cells_filter cells a (fun x => pieceOf x == p) (by simp [ha]) _
      · rw [foldl_cells_none (cellsIn cells p) a (by
          intro c hc e; unfold cellsIn at hc; rw [List.mem_filter] at hc; apply ha; rw [← e]; simpa using hc.2)]
        simp [ha]
  obtain ⟨m, h1, h2⟩ := key (distinct (cells.map (fun c => pieceOf c.1))) s (distinct_nodup _) hw (by
    intro p hp
    rw [mem_distinct, List.mem_map] at hp
    obtain ⟨c, hc, rfl⟩ := hp
    exact hg c hc)
  refine ⟨m, h1, fun a => ?_⟩
  rw [h2 a]
  split
  · rfl
  · rename_i hx
    rw [foldl_cells_none]
    intro c hc e
    apply hx
    rw [mem_distinct, List.mem_map]
    exact ⟨c, hc, by rw [e]⟩

/-- The same of a write that would record what it met. -/
theorem writeAll_good (src : Nat) (cells : List (Nat × Byte)) (s : State) (hl : cells.length < 32) (hw : Memory.wf s.mem = true)
    (hg : ∀ c ∈ cells, find? s.marks (pieceOf c.1) = none) :
    ∃ m, writeAll s src cells false = { s with mem := m } ∧
      ∀ a, readByte m a = cells.foldl (fun b c => if a = c.1 then c.2 else b) (readByte s.mem a) := by
  unfold writeAll
  rw [recordPieces_good s src _ (fun p hp => by obtain ⟨c, hc, rfl⟩ := mem_partPieces hp; exact hg c hc)]
  exact writePieces_good cells s hl hw hg

/-- What a store of consecutive bytes leaves at an address. -/
theorem foldl_span (data : List Byte) : ∀ (lo a : Nat) (b : Byte), ((span lo data.length).zip data).foldl (fun b c => if a = c.1 then c.2 else b) b =
    if lo ≤ a ∧ a < lo + data.length then data.getD (a - lo) 0 else b := by
  induction data with
  | nil => intro lo a b; simp [span]
  | cons x l ih =>
    intro lo a b
    have hs : span lo (l.length + 1) = lo :: span (lo + 1) l.length := by
      simp only [span, List.range_succ_eq_map, List.map_cons, List.map_map, Nat.add_zero]
      congr 1
      apply List.map_congr_left
      intro y _
      simp; omega
    rw [List.length_cons, hs, List.zip_cons_cons, List.foldl_cons, ih]
    by_cases h0 : a = lo
    · subst h0; simp
    · by_cases h1 : lo < a
      · have : a - lo = (a - (lo + 1)) + 1 := by omega
        simp only [this, List.getD_cons_succ, h0, if_false]
        by_cases h2 : a < lo + (l.length + 1)
        · rw [if_pos (by omega), if_pos (by omega)]
        · rw [if_neg (by omega), if_neg (by omega)]
      · rw [if_neg (by omega), if_neg (by omega), if_neg (by omega)]

/-- A good byte lies in an unmarked piece. -/
theorem goodByte_piece {s : State} {pa n : Nat} (h : badBytes s pa n = false) : ∀ a ∈ span pa n, find? s.marks (pieceOf a) = none := by
  intro a ha
  unfold badBytes at h
  rw [List.any_eq_false] at h
  have := h (pieceOf a) (by rw [piecesOf, mem_distinct]; exact List.mem_map_of_mem ha)
  simpa using this

theorem span_zip_mem {lo : Nat} {data : List Byte} {c : Nat × Byte} (h : c ∈ (span lo data.length).zip data) : c.1 ∈ span lo data.length :=
  (List.of_mem_zip h).1

/-- A store of good bytes. -/
theorem storeSpan_good (src pa : Nat) (data : List Byte) (s : State) (hl : data.length < 32) (hw : Memory.wf s.mem = true)
    (hg : badBytes s pa data.length = false) : ∃ m, writeAll s src ((span pa data.length).zip data) false = { s with mem := m } ∧
      ∀ a, readByte m a = if pa ≤ a ∧ a < pa + data.length then data.getD (a - pa) 0 else readByte s.mem a := by
  obtain ⟨m, h1, h2⟩ := writeAll_good src ((span pa data.length).zip data) s (by simp; omega) hw
    (fun c hc => goodByte_piece hg _ (span_zip_mem hc))
  exact ⟨m, h1, fun a => by rw [h2, foldl_span]⟩

/-! ## Requests for ways -/

/-- An access of the base layer only asks for ways: memory, marks and harts are as they were. -/
theorem baseAccess_frame (s : State) (l : List Nat) (src : ActSource) :
    (baseAccess s l src).mem = s.mem ∧ (baseAccess s l src).marks = s.marks ∧ (baseAccess s l src).harts = s.harts := by
  unfold baseAccess
  generalize distinct _ = L
  induction L generalizing s with
  | nil => exact ⟨rfl, rfl, rfl⟩
  | cons w L ih => exact ih _

end Sys2Proof.Machine
end

