-- ==== Sys2Proof/Laws/PerInstr.lean ====
section
/-! SUPPORT. Laws/PerInstr.lean: laws that are stated once and proved for each constructor of Instr. -/

namespace Sys2Proof

theorem putAt_le {n : Nat} (v : BitVec n) (lo : Nat) : putAt v lo ≤ (2 ^ n - 1) * 2 ^ lo :=
  Nat.mul_le_mul_right _ (Nat.le_sub_one_of_lt v.isLt)

theorem flagAt_le (v : Bool) (lo : Nat) : flagAt v lo ≤ 2 ^ lo := by cases v <;> simp [flagAt]

theorem cons_sum_le {x a b : Nat} {l : List Nat} (hx : x ≤ a) (hl : l.sum ≤ b) : (x :: l).sum ≤ a + b := by
  rw [List.sum_cons]
  exact Nat.add_le_add hx hl

theorem nil_sum_le : ([] : List Nat).sum ≤ 0 := Nat.le_refl 0

theorem major_of {i : Instr} {n a : Nat} {l : List Nat} (h : encode i = some (wordOf n l)) (hl : l.sum ≤ a)
    (hn : n % 2 ^ 26 + a < 2 ^ 26) : i.major = some (n / 2 ^ 26) := by
  have : l.sum < 2 ^ 26 := by omega
  simp only [Instr.major, h, Option.map_some, wordOf]
  congr 1
  omega

/-- The word of an instruction has 32 bits (R126). -/
def Laws.Fits.Statement (i : Instr) : Prop := ∀ w, encode i = some w → w < 2 ^ 32

theorem fits_of {i : Instr} {v : Nat} (h : encode i = some v) (hv : v < 2 ^ 32) : Laws.Fits.Statement i := by
  intro w hw
  rw [h, Option.some.injEq] at hw
  exact hw ▸ hv

theorem word_lt {n a : Nat} {l : List Nat} (hl : l.sum ≤ a) (h : n + a < 2 ^ 32) : wordOf n l < 2 ^ 32 :=
  Nat.lt_of_le_of_lt (Nat.add_le_add_left hl n) h

theorem fits_none {i : Instr} (h : encode i = none) : Laws.Fits.Statement i := by
  intro w hw
  simp [h] at hw

theorem Laws.Fits.add (d : XReg) (a : XReg) (b : XReg) : Laws.Fits.Statement (.add d a b) :=
  fits_of rfl (word_lt (cons_sum_le (putAt_le d 21) (cons_sum_le (putAt_le a 16) (cons_sum_le (putAt_le b 11) nil_sum_le))) (by decide))
theorem Laws.Fits.sub (d : XReg) (a : XReg) (b : XReg) : Laws.Fits.Statement (.sub d a b) :=
  fits_of rfl (word_lt (cons_sum_le (putAt_le d 21) (cons_sum_le (putAt_le a 16) (cons_sum_le (putAt_le b 11) nil_sum_le))) (by decide))
theorem Laws.Fits.mul (d : XReg) (a : XReg) (b : XReg) : Laws.Fits.Statement (.mul d a b) :=
  fits_of rfl (word_lt (cons_sum_le (putAt_le d 21) (cons_sum_le (putAt_le a 16) (cons_sum_le (putAt_le b 11) nil_sum_le))) (by decide))
theorem Laws.Fits.mulh (d : XReg) (a : XReg) (b : XReg) : Laws.Fits.Statement (.mulh d a b) :=
  fits_of rfl (word_lt (cons_sum_le (putAt_le d 21) (cons_sum_le (putAt_le a 16) (cons_sum_le (putAt_le b 11) nil_sum_le))) (by decide))
theorem Laws.Fits.mulhu (d : XReg) (a : XReg) (b : XReg) : Laws.Fits.Statement (.mulhu d a b) :=
  fits_of rfl (word_lt (cons_sum_le (putAt_le d 21) (cons_sum_le (putAt_le a 16) (cons_sum_le (putAt_le b 11) nil_sum_le))) (by decide))
theorem Laws.Fits.div (d : XReg) (a : XReg) (b : XReg) : Laws.Fits.Statement (.div d a b) :=
  fits_of rfl (word_lt (cons_sum_le (putAt_le d 21) (cons_sum_le (putAt_le a 16) (cons_sum_le (putAt_le b 11) nil_sum_le))) (by decide))
theorem Laws.Fits.divu (d : XReg) (a : XReg) (b : XReg) : Laws.Fits.Statement (.divu d a b) :=
  fits_of rfl (word_lt (cons_sum_le (putAt_le d 21) (cons_sum_le (putAt_le a 16) (cons_sum_le (putAt_le b 11) nil_sum_le))) (by decide))
theorem Laws.Fits.rem (d : XReg) (a : XReg) (b : XReg) : Laws.Fits.Statement (.rem d a b) :=
  fits_of rfl (word_lt (cons_sum_le (putAt_le d 21) (cons_sum_le (putAt_le a 16) (cons_sum_le (putAt_le b 11) nil_sum_le))) (by decide))
theorem Laws.Fits.remu (d : XReg) (a : XReg) (b : XReg) : Laws.Fits.Statement (.remu d a b) :=
  fits_of rfl (word_lt (cons_sum_le (putAt_le d 21) (cons_sum_le (putAt_le a 16) (cons_sum_le (putAt_le b 11) nil_sum_le))) (by decide))
theorem Laws.Fits.and (d : XReg) (a : XReg) (b : XReg) : Laws.Fits.Statement (.and d a b) :=
  fits_of rfl (word_lt (cons_sum_le (putAt_le d 21) (cons_sum_le (putAt_le a 16) (cons_sum_le (putAt_le b 11) nil_sum_le))) (by decide))
theorem Laws.Fits.or (d : XReg) (a : XReg) (b : XReg) : Laws.Fits.Statement (.or d a b) :=
  fits_of rfl (word_lt (cons_sum_le (putAt_le d 21) (cons_sum_le (putAt_le a 16) (cons_sum_le (putAt_le b 11) nil_sum_le))) (by decide))
theorem Laws.Fits.xor (d : XReg) (a : XReg) (b : XReg) : Laws.Fits.Statement (.xor d a b) :=
  fits_of rfl (word_lt (cons_sum_le (putAt_le d 21) (cons_sum_le (putAt_le a 16) (cons_sum_le (putAt_le b 11) nil_sum_le))) (by decide))
theorem Laws.Fits.shl (d : XReg) (a : XReg) (b : XReg) : Laws.Fits.Statement (.shl d a b) :=
  fits_of rfl (word_lt (cons_sum_le (putAt_le d 21) (cons_sum_le (putAt_le a 16) (cons_sum_le (putAt_le b 11) nil_sum_le))) (by decide))
theorem Laws.Fits.shr (d : XReg) (a : XReg) (b : XReg) : Laws.Fits.Statement (.shr d a b) :=
  fits_of rfl (word_lt (cons_sum_le (putAt_le d 21) (cons_sum_le (putAt_le a 16) (cons_sum_le (putAt_le b 11) nil_sum_le))) (by decide))
theorem Laws.Fits.sra (d : XReg) (a : XReg) (b : XReg) : Laws.Fits.Statement (.sra d a b) :=
  fits_of rfl (word_lt (cons_sum_le (putAt_le d 21) (cons_sum_le (putAt_le a 16) (cons_sum_le (putAt_le b 11) nil_sum_le))) (by decide))
theorem Laws.Fits.min (d : XReg) (a : XReg) (b : XReg) : Laws.Fits.Statement (.min d a b) :=
  fits_of rfl (word_lt (cons_sum_le (putAt_le d 21) (cons_sum_le (putAt_le a 16) (cons_sum_le (putAt_le b 11) nil_sum_le))) (by decide))
theorem Laws.Fits.max (d : XReg) (a : XReg) (b : XReg) : Laws.Fits.Statement (.max d a b) :=
  fits_of rfl (word_lt (cons_sum_le (putAt_le d 21) (cons_sum_le (putAt_le a 16) (cons_sum_le (putAt_le b 11) nil_sum_le))) (by decide))
theorem Laws.Fits.minu (d : XReg) (a : XReg) (b : XReg) : Laws.Fits.Statement (.minu d a b) :=
  fits_of rfl (word_lt (cons_sum_le (putAt_le d 21) (cons_sum_le (putAt_le a 16) (cons_sum_le (putAt_le b 11) nil_sum_le))) (by decide))
theorem Laws.Fits.maxu (d : XReg) (a : XReg) (b : XReg) : Laws.Fits.Statement (.maxu d a b) :=
  fits_of rfl (word_lt (cons_sum_le (putAt_le d 21) (cons_sum_le (putAt_le a 16) (cons_sum_le (putAt_le b 11) nil_sum_le))) (by decide))
theorem Laws.Fits.clz (d : XReg) (a : XReg) : Laws.Fits.Statement (.clz d a) :=
  fits_of rfl (word_lt (cons_sum_le (putAt_le d 21) (cons_sum_le (putAt_le a 16) nil_sum_le)) (by decide))
theorem Laws.Fits.ctz (d : XReg) (a : XReg) : Laws.Fits.Statement (.ctz d a) :=
  fits_of rfl (word_lt (cons_sum_le (putAt_le d 21) (cons_sum_le (putAt_le a 16) nil_sum_le)) (by decide))
theorem Laws.Fits.popc (d : XReg) (a : XReg) : Laws.Fits.Statement (.popc d a) :=
  fits_of rfl (word_lt (cons_sum_le (putAt_le d 21) (cons_sum_le (putAt_le a 16) nil_sum_le)) (by decide))
theorem Laws.Fits.sel (d : XReg) (a : XReg) (b : XReg) (p : BitVec 3) : Laws.Fits.Statement (.sel d a b p) :=
  fits_of rfl (word_lt (cons_sum_le (putAt_le d 21) (cons_sum_le (putAt_le a 16) (cons_sum_le (putAt_le b 11) (cons_sum_le (putAt_le p 8) nil_sum_le)))) (by decide))
theorem Laws.Fits.addi (d : XReg) (a : XReg) (imm : BitVec 16) : Laws.Fits.Statement (.addi d a imm) :=
  fits_of rfl (word_lt (cons_sum_le (putAt_le d 21) (cons_sum_le (putAt_le a 16) (cons_sum_le (putAt_le imm 0) nil_sum_le))) (by decide))
theorem Laws.Fits.andi (d : XReg) (a : XReg) (imm : BitVec 16) : Laws.Fits.Statement (.andi d a imm) :=
  fits_of rfl (word_lt (cons_sum_le (putAt_le d 21) (cons_sum_le (putAt_le a 16) (cons_sum_le (putAt_le imm 0) nil_sum_le))) (by decide))
theorem Laws.Fits.ori (d : XReg) (a : XReg) (imm : BitVec 16) : Laws.Fits.Statement (.ori d a imm) :=
  fits_of rfl (word_lt (cons_sum_le (putAt_le d 21) (cons_sum_le (putAt_le a 16) (cons_sum_le (putAt_le imm 0) nil_sum_le))) (by decide))
theorem Laws.Fits.xori (d : XReg) (a : XReg) (imm : BitVec 16) : Laws.Fits.Statement (.xori d a imm) :=
  fits_of rfl (word_lt (cons_sum_le (putAt_le d 21) (cons_sum_le (putAt_le a 16) (cons_sum_le (putAt_le imm 0) nil_sum_le))) (by decide))
theorem Laws.Fits.shli (d : XReg) (a : XReg) (s : BitVec 6) : Laws.Fits.Statement (.shli d a s) :=
  fits_of rfl (word_lt (cons_sum_le (putAt_le d 21) (cons_sum_le (putAt_le a 16) (cons_sum_le (putAt_le s 0) nil_sum_le))) (by decide))
theorem Laws.Fits.shri (d : XReg) (a : XReg) (s : BitVec 6) : Laws.Fits.Statement (.shri d a s) :=
  fits_of rfl (word_lt (cons_sum_le (putAt_le d 21) (cons_sum_le (putAt_le a 16) (cons_sum_le (putAt_le s 0) nil_sum_le))) (by decide))
theorem Laws.Fits.srai (d : XReg) (a : XReg) (s : BitVec 6) : Laws.Fits.Statement (.srai d a s) :=
  fits_of rfl (word_lt (cons_sum_le (putAt_le d 21) (cons_sum_le (putAt_le a 16) (cons_sum_le (putAt_le s 0) nil_sum_le))) (by decide))
theorem Laws.Fits.lui (d : XReg) (imm : BitVec 16) : Laws.Fits.Statement (.lui d imm) :=
  fits_of rfl (word_lt (cons_sum_le (putAt_le d 21) (cons_sum_le (putAt_le imm 0) nil_sum_le)) (by decide))
theorem Laws.Fits.addpc (d : XReg) (imm : BitVec 16) : Laws.Fits.Statement (.addpc d imm) :=
  fits_of rfl (word_lt (cons_sum_le (putAt_le d 21) (cons_sum_le (putAt_le imm 0) nil_sum_le)) (by decide))
theorem Laws.Fits.fadd (d : XReg) (a : XReg) (b : XReg) (t : BitVec 3) : Laws.Fits.Statement (.fadd d a b t) :=
  fits_of rfl (word_lt (cons_sum_le (putAt_le d 21) (cons_sum_le (putAt_le a 16) (cons_sum_le (putAt_le b 11) (cons_sum_le (putAt_le t 5) nil_sum_le)))) (by decide))
theorem Laws.Fits.fsub (d : XReg) (a : XReg) (b : XReg) (t : BitVec 3) : Laws.Fits.Statement (.fsub d a b t) :=
  fits_of rfl (word_lt (cons_sum_le (putAt_le d 21) (cons_sum_le (putAt_le a 16) (cons_sum_le (putAt_le b 11) (cons_sum_le (putAt_le t 5) nil_sum_le)))) (by decide))
theorem Laws.Fits.fmul (d : XReg) (a : XReg) (b : XReg) (t : BitVec 3) : Laws.Fits.Statement (.fmul d a b t) :=
  fits_of rfl (word_lt (cons_sum_le (putAt_le d 21) (cons_sum_le (putAt_le a 16) (cons_sum_le (putAt_le b 11) (cons_sum_le (putAt_le t 5) nil_sum_le)))) (by decide))
theorem Laws.Fits.fma (d : XReg) (a : XReg) (b : XReg) (t : BitVec 3) : Laws.Fits.Statement (.fma d a b t) :=
  fits_of rfl (word_lt (cons_sum_le (putAt_le d 21) (cons_sum_le (putAt_le a 16) (cons_sum_le (putAt_le b 11) (cons_sum_le (putAt_le t 5) nil_sum_le)))) (by decide))
theorem Laws.Fits.fmin (d : XReg) (a : XReg) (b : XReg) (t : BitVec 3) : Laws.Fits.Statement (.fmin d a b t) :=
  fits_of rfl (word_lt (cons_sum_le (putAt_le d 21) (cons_sum_le (putAt_le a 16) (cons_sum_le (putAt_le b 11) (cons_sum_le (putAt_le t 5) nil_sum_le)))) (by decide))
theorem Laws.Fits.fmax (d : XReg) (a : XReg) (b : XReg) (t : BitVec 3) : Laws.Fits.Statement (.fmax d a b t) :=
  fits_of rfl (word_lt (cons_sum_le (putAt_le d 21) (cons_sum_le (putAt_le a 16) (cons_sum_le (putAt_le b 11) (cons_sum_le (putAt_le t 5) nil_sum_le)))) (by decide))
theorem Laws.Fits.fcmp (p : BitVec 3) (a : XReg) (b : XReg) (c : BitVec 3) (t : BitVec 3) : Laws.Fits.Statement (.fcmp p a b c t) :=
  fits_of rfl (word_lt (cons_sum_le (putAt_le p 21) (cons_sum_le (putAt_le a 16) (cons_sum_le (putAt_le b 11) (cons_sum_le (putAt_le c 8) (cons_sum_le (putAt_le t 5) nil_sum_le))))) (by decide))
theorem Laws.Fits.fcvt (d : XReg) (a : XReg) (u : BitVec 3) (t : BitVec 3) : Laws.Fits.Statement (.fcvt d a u t) :=
  fits_of rfl (word_lt (cons_sum_le (putAt_le d 21) (cons_sum_le (putAt_le a 16) (cons_sum_le (putAt_le u 8) (cons_sum_le (putAt_le t 5) nil_sum_le)))) (by decide))
theorem Laws.Fits.cmp (p : BitVec 3) (a : XReg) (b : XReg) (c : BitVec 3) : Laws.Fits.Statement (.cmp p a b c) :=
  fits_of rfl (word_lt (cons_sum_le (putAt_le p 21) (cons_sum_le (putAt_le a 16) (cons_sum_le (putAt_le b 11) (cons_sum_le (putAt_le c 0) nil_sum_le)))) (by decide))
theorem Laws.Fits.pand (d : BitVec 3) (a : BitVec 3) (b : BitVec 3) : Laws.Fits.Statement (.pand d a b) :=
  fits_of rfl (word_lt (cons_sum_le (putAt_le d 21) (cons_sum_le (putAt_le a 16) (cons_sum_le (putAt_le b 11) nil_sum_le))) (by decide))
theorem Laws.Fits.por (d : BitVec 3) (a : BitVec 3) (b : BitVec 3) : Laws.Fits.Statement (.por d a b) :=
  fits_of rfl (word_lt (cons_sum_le (putAt_le d 21) (cons_sum_le (putAt_le a 16) (cons_sum_le (putAt_le b 11) nil_sum_le))) (by decide))
theorem Laws.Fits.pxor (d : BitVec 3) (a : BitVec 3) (b : BitVec 3) : Laws.Fits.Statement (.pxor d a b) :=
  fits_of rfl (word_lt (cons_sum_le (putAt_le d 21) (cons_sum_le (putAt_le a 16) (cons_sum_le (putAt_le b 11) nil_sum_le))) (by decide))
theorem Laws.Fits.pnot (d : BitVec 3) (a : BitVec 3) : Laws.Fits.Statement (.pnot d a) :=
  fits_of rfl (word_lt (cons_sum_le (putAt_le d 21) (cons_sum_le (putAt_le a 16) nil_sum_le)) (by decide))
theorem Laws.Fits.cmpi (p : BitVec 3) (a : XReg) (c : BitVec 3) (imm : BitVec 13) : Laws.Fits.Statement (.cmpi p a c imm) :=
  fits_of rfl (word_lt (cons_sum_le (putAt_le p 21) (cons_sum_le (putAt_le a 16) (cons_sum_le (putAt_le c 13) (cons_sum_le (putAt_le imm 0) nil_sum_le)))) (by decide))
theorem Laws.Fits.bp (p : BitVec 3) (neg : Bool) (off : BitVec 22) : Laws.Fits.Statement (.bp p neg off) :=
  fits_of rfl (word_lt (cons_sum_le (putAt_le p 23) (cons_sum_le (flagAt_le neg 22) (cons_sum_le (putAt_le off 0) nil_sum_le))) (by decide))
theorem Laws.Fits.jal (d : XReg) (imm : BitVec 14) : Laws.Fits.Statement (.jal d imm) :=
  fits_of rfl (word_lt (cons_sum_le (putAt_le d 21) (cons_sum_le (putAt_le imm 0) nil_sum_le)) (by decide))
theorem Laws.Fits.jalr (d : XReg) (a : XReg) (imm : BitVec 14) : Laws.Fits.Statement (.jalr d a imm) :=
  fits_of rfl (word_lt (cons_sum_le (putAt_le d 21) (cons_sum_le (putAt_le a 16) (cons_sum_le (putAt_le imm 0) nil_sum_le))) (by decide))
theorem Laws.Fits.loop (a : XReg) (imm : BitVec 14) : Laws.Fits.Statement (.loop a imm) :=
  fits_of rfl (word_lt (cons_sum_le (putAt_le a 16) (cons_sum_le (putAt_le imm 0) nil_sum_le)) (by decide))
theorem Laws.Fits.ldb (d : XReg) (a : XReg) (imm : BitVec 13) : Laws.Fits.Statement (.ldb d a imm) :=
  fits_of rfl (word_lt (cons_sum_le (putAt_le d 21) (cons_sum_le (putAt_le a 16) (cons_sum_le (putAt_le imm 0) nil_sum_le))) (by decide))
theorem Laws.Fits.ldbu (d : XReg) (a : XReg) (imm : BitVec 13) : Laws.Fits.Statement (.ldbu d a imm) :=
  fits_of rfl (word_lt (cons_sum_le (putAt_le d 21) (cons_sum_le (putAt_le a 16) (cons_sum_le (putAt_le imm 0) nil_sum_le))) (by decide))
theorem Laws.Fits.ldh (d : XReg) (a : XReg) (imm : BitVec 13) : Laws.Fits.Statement (.ldh d a imm) :=
  fits_of rfl (word_lt (cons_sum_le (putAt_le d 21) (cons_sum_le (putAt_le a 16) (cons_sum_le (putAt_le imm 0) nil_sum_le))) (by decide))
theorem Laws.Fits.ldhu (d : XReg) (a : XReg) (imm : BitVec 13) : Laws.Fits.Statement (.ldhu d a imm) :=
  fits_of rfl (word_lt (cons_sum_le (putAt_le d 21) (cons_sum_le (putAt_le a 16) (cons_sum_le (putAt_le imm 0) nil_sum_le))) (by decide))
theorem Laws.Fits.ldw (d : XReg) (a : XReg) (imm : BitVec 13) : Laws.Fits.Statement (.ldw d a imm) :=
  fits_of rfl (word_lt (cons_sum_le (putAt_le d 21) (cons_sum_le (putAt_le a 16) (cons_sum_le (putAt_le imm 0) nil_sum_le))) (by decide))
theorem Laws.Fits.ldwu (d : XReg) (a : XReg) (imm : BitVec 13) : Laws.Fits.Statement (.ldwu d a imm) :=
  fits_of rfl (word_lt (cons_sum_le (putAt_le d 21) (cons_sum_le (putAt_le a 16) (cons_sum_le (putAt_le imm 0) nil_sum_le))) (by decide))
theorem Laws.Fits.ldd (d : XReg) (a : XReg) (imm : BitVec 13) : Laws.Fits.Statement (.ldd d a imm) :=
  fits_of rfl (word_lt (cons_sum_le (putAt_le d 21) (cons_sum_le (putAt_le a 16) (cons_sum_le (putAt_le imm 0) nil_sum_le))) (by decide))
theorem Laws.Fits.stb (s : XReg) (a : XReg) (imm : BitVec 13) : Laws.Fits.Statement (.stb s a imm) :=
  fits_of rfl (word_lt (cons_sum_le (putAt_le s 21) (cons_sum_le (putAt_le a 16) (cons_sum_le (putAt_le imm 0) nil_sum_le))) (by decide))
theorem Laws.Fits.sth (s : XReg) (a : XReg) (imm : BitVec 13) : Laws.Fits.Statement (.sth s a imm) :=
  fits_of rfl (word_lt (cons_sum_le (putAt_le s 21) (cons_sum_le (putAt_le a 16) (cons_sum_le (putAt_le imm 0) nil_sum_le))) (by decide))
theorem Laws.Fits.stw (s : XReg) (a : XReg) (imm : BitVec 13) : Laws.Fits.Statement (.stw s a imm) :=
  fits_of rfl (word_lt (cons_sum_le (putAt_le s 21) (cons_sum_le (putAt_le a 16) (cons_sum_le (putAt_le imm 0) nil_sum_le))) (by decide))
theorem Laws.Fits.std (s : XReg) (a : XReg) (imm : BitVec 13) : Laws.Fits.Statement (.std s a imm) :=
  fits_of rfl (word_lt (cons_sum_le (putAt_le s 21) (cons_sum_le (putAt_le a 16) (cons_sum_le (putAt_le imm 0) nil_sum_le))) (by decide))
theorem Laws.Fits.amoadd (d : XReg) (a : XReg) (b : XReg) (s : BitVec 3) (ord : BitVec 2) (dw : Bool) : Laws.Fits.Statement (.amoadd d a b s ord dw) :=
  fits_of rfl (word_lt (cons_sum_le (putAt_le d 21) (cons_sum_le (putAt_le a 16) (cons_sum_le (putAt_le b 11) (cons_sum_le (putAt_le s 8) (cons_sum_le (putAt_le ord 6) (cons_sum_le (flagAt_le dw 4) nil_sum_le)))))) (by decide))
theorem Laws.Fits.amoand (d : XReg) (a : XReg) (b : XReg) (s : BitVec 3) (ord : BitVec 2) (dw : Bool) : Laws.Fits.Statement (.amoand d a b s ord dw) :=
  fits_of rfl (word_lt (cons_sum_le (putAt_le d 21) (cons_sum_le (putAt_le a 16) (cons_sum_le (putAt_le b 11) (cons_sum_le (putAt_le s 8) (cons_sum_le (putAt_le ord 6) (cons_sum_le (flagAt_le dw 4) nil_sum_le)))))) (by decide))
theorem Laws.Fits.amoor (d : XReg) (a : XReg) (b : XReg) (s : BitVec 3) (ord : BitVec 2) (dw : Bool) : Laws.Fits.Statement (.amoor d a b s ord dw) :=
  fits_of rfl (word_lt (cons_sum_le (putAt_le d 21) (cons_sum_le (putAt_le a 16) (cons_sum_le (putAt_le b 11) (cons_sum_le (putAt_le s 8) (cons_sum_le (putAt_le ord 6) (cons_sum_le (flagAt_le dw 4) nil_sum_le)))))) (by decide))
theorem Laws.Fits.amoxor (d : XReg) (a : XReg) (b : XReg) (s : BitVec 3) (ord : BitVec 2) (dw : Bool) : Laws.Fits.Statement (.amoxor d a b s ord dw) :=
  fits_of rfl (word_lt (cons_sum_le (putAt_le d 21) (cons_sum_le (putAt_le a 16) (cons_sum_le (putAt_le b 11) (cons_sum_le (putAt_le s 8) (cons_sum_le (putAt_le ord 6) (cons_sum_le (flagAt_le dw 4) nil_sum_le)))))) (by decide))
theorem Laws.Fits.amomin (d : XReg) (a : XReg) (b : XReg) (s : BitVec 3) (ord : BitVec 2) (dw : Bool) : Laws.Fits.Statement (.amomin d a b s ord dw) :=
  fits_of rfl (word_lt (cons_sum_le (putAt_le d 21) (cons_sum_le (putAt_le a 16) (cons_sum_le (putAt_le b 11) (cons_sum_le (putAt_le s 8) (cons_sum_le (putAt_le ord 6) (cons_sum_le (flagAt_le dw 4) nil_sum_le)))))) (by decide))
theorem Laws.Fits.amomax (d : XReg) (a : XReg) (b : XReg) (s : BitVec 3) (ord : BitVec 2) (dw : Bool) : Laws.Fits.Statement (.amomax d a b s ord dw) :=
  fits_of rfl (word_lt (cons_sum_le (putAt_le d 21) (cons_sum_le (putAt_le a 16) (cons_sum_le (putAt_le b 11) (cons_sum_le (putAt_le s 8) (cons_sum_le (putAt_le ord 6) (cons_sum_le (flagAt_le dw 4) nil_sum_le)))))) (by decide))
theorem Laws.Fits.amominu (d : XReg) (a : XReg) (b : XReg) (s : BitVec 3) (ord : BitVec 2) (dw : Bool) : Laws.Fits.Statement (.amominu d a b s ord dw) :=
  fits_of rfl (word_lt (cons_sum_le (putAt_le d 21) (cons_sum_le (putAt_le a 16) (cons_sum_le (putAt_le b 11) (cons_sum_le (putAt_le s 8) (cons_sum_le (putAt_le ord 6) (cons_sum_le (flagAt_le dw 4) nil_sum_le)))))) (by decide))
theorem Laws.Fits.amomaxu (d : XReg) (a : XReg) (b : XReg) (s : BitVec 3) (ord : BitVec 2) (dw : Bool) : Laws.Fits.Statement (.amomaxu d a b s ord dw) :=
  fits_of rfl (word_lt (cons_sum_le (putAt_le d 21) (cons_sum_le (putAt_le a 16) (cons_sum_le (putAt_le b 11) (cons_sum_le (putAt_le s 8) (cons_sum_le (putAt_le ord 6) (cons_sum_le (flagAt_le dw 4) nil_sum_le)))))) (by decide))
theorem Laws.Fits.amoswap (d : XReg) (a : XReg) (b : XReg) (s : BitVec 3) (ord : BitVec 2) (dw : Bool) : Laws.Fits.Statement (.amoswap d a b s ord dw) :=
  fits_of rfl (word_lt (cons_sum_le (putAt_le d 21) (cons_sum_le (putAt_le a 16) (cons_sum_le (putAt_le b 11) (cons_sum_le (putAt_le s 8) (cons_sum_le (putAt_le ord 6) (cons_sum_le (flagAt_le dw 4) nil_sum_le)))))) (by decide))
theorem Laws.Fits.amocas (d : XReg) (a : XReg) (b : XReg) (s : BitVec 3) (ord : BitVec 2) (dw : Bool) : Laws.Fits.Statement (.amocas d a b s ord dw) :=
  fits_of rfl (word_lt (cons_sum_le (putAt_le d 21) (cons_sum_le (putAt_le a 16) (cons_sum_le (putAt_le b 11) (cons_sum_le (putAt_le s 8) (cons_sum_le (putAt_le ord 6) (cons_sum_le (flagAt_le dw 4) nil_sum_le)))))) (by decide))
theorem Laws.Fits.fence (s : BitVec 3) (ord : BitVec 2) : Laws.Fits.Statement (.fence s ord) :=
  fits_of rfl (word_lt (cons_sum_le (putAt_le s 8) (cons_sum_le (putAt_le ord 6) nil_sum_le)) (by decide))
theorem Laws.Fits.nop : Laws.Fits.Statement (.nop) :=
  fits_of rfl (by decide)
theorem Laws.Fits.srd (d : XReg) (r : BitVec 12) : Laws.Fits.Statement (.srd d r) :=
  fits_of rfl (word_lt (cons_sum_le (putAt_le d 21) (cons_sum_le (putAt_le r 0) nil_sum_le)) (by decide))
theorem Laws.Fits.swr (a : XReg) (r : BitVec 12) : Laws.Fits.Statement (.swr a r) :=
  fits_of rfl (word_lt (cons_sum_le (putAt_le a 16) (cons_sum_le (putAt_le r 0) nil_sum_le)) (by decide))
theorem Laws.Fits.fpmodeWrite (h : Nat) (v : BitVec 64) : Laws.Fits.Statement (.fpmodeWrite h v) :=
  fits_none rfl
theorem Laws.Fits.fpflagsRead (h : Nat) (d : XReg) : Laws.Fits.Statement (.fpflagsRead h d) :=
  fits_none rfl
theorem Laws.Fits.fpflagsWrite (h : Nat) (v : BitVec 64) : Laws.Fits.Statement (.fpflagsWrite h v) :=
  fits_none rfl
theorem Laws.Fits.mstatAccess (h : Nat) (d : XReg) (v : Option (BitVec 64)) : Laws.Fits.Statement (.mstatAccess h d v) :=
  fits_none rfl
theorem Laws.Fits.refownerWrite (h : Nat) (v : BitVec 64) : Laws.Fits.Statement (.refownerWrite h v) :=
  fits_none rfl
theorem Laws.Fits.errcolClear (c : Nat) : Laws.Fits.Statement (.errcolClear c) :=
  fits_none rfl
theorem Laws.Fits.act (v : VNum) (a : XReg) (n : BitVec 3) : Laws.Fits.Statement (.act v a n) :=
  fits_of rfl (word_lt (cons_sum_le (putAt_le v 20) (cons_sum_le (putAt_le a 15) (cons_sum_le (putAt_le n 12) nil_sum_le))) (by decide))
theorem Laws.Fits.acts (v : VNum) (a : XReg) (n : BitVec 3) : Laws.Fits.Statement (.acts v a n) :=
  fits_of rfl (word_lt (cons_sum_le (putAt_le v 20) (cons_sum_le (putAt_le a 15) (cons_sum_le (putAt_le n 12) nil_sum_le))) (by decide))
theorem Laws.Fits.wb (v : VNum) (a : XReg) : Laws.Fits.Statement (.wb v a) :=
  fits_of rfl (word_lt (cons_sum_le (putAt_le v 20) (cons_sum_le (putAt_le a 15) nil_sum_le)) (by decide))
theorem Laws.Fits.wbk (v : VNum) (a : XReg) (k : BitVec 3) : Laws.Fits.Statement (.wbk v a k) :=
  fits_of rfl (word_lt (cons_sum_le (putAt_le v 20) (cons_sum_le (putAt_le a 15) (cons_sum_le (putAt_le k 4) nil_sum_le))) (by decide))
theorem Laws.Fits.pre (v : VNum) : Laws.Fits.Statement (.pre v) :=
  fits_of rfl (word_lt (cons_sum_le (putAt_le v 20) nil_sum_le) (by decide))
theorem Laws.Fits.preall : Laws.Fits.Statement (.preall) :=
  fits_of rfl (by decide)
theorem Laws.Fits.ref (n : BitVec 8) : Laws.Fits.Statement (.ref n) :=
  fits_of rfl (word_lt (cons_sum_le (putAt_le n 4) nil_sum_le) (by decide))
theorem Laws.Fits.refn (a : XReg) : Laws.Fits.Statement (.refn a) :=
  fits_of rfl (word_lt (cons_sum_le (putAt_le a 15) nil_sum_le) (by decide))
theorem Laws.Fits.vgeom (g : BitVec 2) : Laws.Fits.Statement (.vgeom g) :=
  fits_of rfl (word_lt (cons_sum_le (putAt_le g 4) nil_sum_le) (by decide))
theorem Laws.Fits.vtype (d : VNum) (s : VNum) (t : BitVec 5) : Laws.Fits.Statement (.vtype d s t) :=
  fits_of rfl (word_lt (cons_sum_le (putAt_le d 20) (cons_sum_le (putAt_le s 14) (cons_sum_le (putAt_le t 9) nil_sum_le))) (by decide))
theorem Laws.Fits.vsetvl (d : XReg) (a : XReg) (w : BitVec 2) : Laws.Fits.Statement (.vsetvl d a w) :=
  fits_of rfl (word_lt (cons_sum_le (putAt_le d 20) (cons_sum_le (putAt_le a 9) (cons_sum_le (putAt_le w 4) nil_sum_le))) (by decide))
theorem Laws.Fits.vlopen (d : VNum) : Laws.Fits.Statement (.vlopen d) :=
  fits_of rfl (word_lt (cons_sum_le (putAt_le d 20) nil_sum_le) (by decide))
theorem Laws.Fits.pfx (k : BitVec 3) (pol : Bool) (dt : Bool) (zero : Bool) (c : VNum) (cpen : Bool) : Laws.Fits.Statement (.pfx k pol dt zero c cpen) :=
  fits_of rfl (word_lt (cons_sum_le (putAt_le k 23) (cons_sum_le (flagAt_le pol 22) (cons_sum_le (flagAt_le dt 21) (cons_sum_le (flagAt_le zero 20) (cons_sum_le (putAt_le c 14) (cons_sum_le (flagAt_le cpen 13) nil_sum_le)))))) (by decide))
theorem Laws.Fits.vadd (part : BitVec 3) (d : VNum) (a : VNum) (b : VNum) (ca : Bool) (cb : Bool) (dt : Bool) : Laws.Fits.Statement (.vadd part d a b ca cb dt) :=
  fits_of rfl (word_lt (cons_sum_le (putAt_le part 26) (cons_sum_le (putAt_le d 20) (cons_sum_le (putAt_le a 14) (cons_sum_le (putAt_le b 8) (cons_sum_le (flagAt_le ca 7) (cons_sum_le (flagAt_le cb 6) (cons_sum_le (flagAt_le dt 5) nil_sum_le))))))) (by decide))
theorem Laws.Fits.vsub (part : BitVec 3) (d : VNum) (a : VNum) (b : VNum) (ca : Bool) (cb : Bool) (dt : Bool) : Laws.Fits.Statement (.vsub part d a b ca cb dt) :=
  fits_of rfl (word_lt (cons_sum_le (putAt_le part 26) (cons_sum_le (putAt_le d 20) (cons_sum_le (putAt_le a 14) (cons_sum_le (putAt_le b 8) (cons_sum_le (flagAt_le ca 7) (cons_sum_le (flagAt_le cb 6) (cons_sum_le (flagAt_le dt 5) nil_sum_le))))))) (by decide))
theorem Laws.Fits.vmul (part : BitVec 3) (d : VNum) (a : VNum) (b : VNum) (ca : Bool) (cb : Bool) (dt : Bool) : Laws.Fits.Statement (.vmul part d a b ca cb dt) :=
  fits_of rfl (word_lt (cons_sum_le (putAt_le part 26) (cons_sum_le (putAt_le d 20) (cons_sum_le (putAt_le a 14) (cons_sum_le (putAt_le b 8) (cons_sum_le (flagAt_le ca 7) (cons_sum_le (flagAt_le cb 6) (cons_sum_le (flagAt_le dt 5) nil_sum_le))))))) (by decide))
theorem Laws.Fits.vmulh (part : BitVec 3) (d : VNum) (a : VNum) (b : VNum) (ca : Bool) (cb : Bool) (dt : Bool) : Laws.Fits.Statement (.vmulh part d a b ca cb dt) :=
  fits_of rfl (word_lt (cons_sum_le (putAt_le part 26) (cons_sum_le (putAt_le d 20) (cons_sum_le (putAt_le a 14) (cons_sum_le (putAt_le b 8) (cons_sum_le (flagAt_le ca 7) (cons_sum_le (flagAt_le cb 6) (cons_sum_le (flagAt_le dt 5) nil_sum_le))))))) (by decide))
theorem Laws.Fits.vmad (part : BitVec 3) (d : VNum) (a : VNum) (b : VNum) (ca : Bool) (cb : Bool) (dt : Bool) : Laws.Fits.Statement (.vmad part d a b ca cb dt) :=
  fits_of rfl (word_lt (cons_sum_le (putAt_le part 26) (cons_sum_le (putAt_le d 20) (cons_sum_le (putAt_le a 14) (cons_sum_le (putAt_le b 8) (cons_sum_le (flagAt_le ca 7) (cons_sum_le (flagAt_le cb 6) (cons_sum_le (flagAt_le dt 5) nil_sum_le))))))) (by decide))
theorem Laws.Fits.vnmad (part : BitVec 3) (d : VNum) (a : VNum) (b : VNum) (ca : Bool) (cb : Bool) (dt : Bool) : Laws.Fits.Statement (.vnmad part d a b ca cb dt) :=
  fits_of rfl (word_lt (cons_sum_le (putAt_le part 26) (cons_sum_le (putAt_le d 20) (cons_sum_le (putAt_le a 14) (cons_sum_le (putAt_le b 8) (cons_sum_le (flagAt_le ca 7) (cons_sum_le (flagAt_le cb 6) (cons_sum_le (flagAt_le dt 5) nil_sum_le))))))) (by decide))
theorem Laws.Fits.vmin (part : BitVec 3) (d : VNum) (a : VNum) (b : VNum) (ca : Bool) (cb : Bool) (dt : Bool) : Laws.Fits.Statement (.vmin part d a b ca cb dt) :=
  fits_of rfl (word_lt (cons_sum_le (putAt_le part 26) (cons_sum_le (putAt_le d 20) (cons_sum_le (putAt_le a 14) (cons_sum_le (putAt_le b 8) (cons_sum_le (flagAt_le ca 7) (cons_sum_le (flagAt_le cb 6) (cons_sum_le (flagAt_le dt 5) nil_sum_le))))))) (by decide))
theorem Laws.Fits.vmax (part : BitVec 3) (d : VNum) (a : VNum) (b : VNum) (ca : Bool) (cb : Bool) (dt : Bool) : Laws.Fits.Statement (.vmax part d a b ca cb dt) :=
  fits_of rfl (word_lt (cons_sum_le (putAt_le part 26) (cons_sum_le (putAt_le d 20) (cons_sum_le (putAt_le a 14) (cons_sum_le (putAt_le b 8) (cons_sum_le (flagAt_le ca 7) (cons_sum_le (flagAt_le cb 6) (cons_sum_le (flagAt_le dt 5) nil_sum_le))))))) (by decide))
theorem Laws.Fits.vabs (part : BitVec 3) (d : VNum) (a : VNum) (ca : Bool) (dt : Bool) : Laws.Fits.Statement (.vabs part d a ca dt) :=
  fits_of rfl (word_lt (cons_sum_le (putAt_le part 26) (cons_sum_le (putAt_le d 20) (cons_sum_le (putAt_le a 14) (cons_sum_le (flagAt_le ca 7) (cons_sum_le (flagAt_le dt 5) nil_sum_le))))) (by decide))
theorem Laws.Fits.vneg (part : BitVec 3) (d : VNum) (a : VNum) (ca : Bool) (dt : Bool) : Laws.Fits.Statement (.vneg part d a ca dt) :=
  fits_of rfl (word_lt (cons_sum_le (putAt_le part 26) (cons_sum_le (putAt_le d 20) (cons_sum_le (putAt_le a 14) (cons_sum_le (flagAt_le ca 7) (cons_sum_le (flagAt_le dt 5) nil_sum_le))))) (by decide))
theorem Laws.Fits.vcvt (part : BitVec 3) (d : VNum) (a : VNum) (ca : Bool) (dt : Bool) : Laws.Fits.Statement (.vcvt part d a ca dt) :=
  fits_of rfl (word_lt (cons_sum_le (putAt_le part 26) (cons_sum_le (putAt_le d 20) (cons_sum_le (putAt_le a 14) (cons_sum_le (flagAt_le ca 7) (cons_sum_le (flagAt_le dt 5) nil_sum_le))))) (by decide))
theorem Laws.Fits.vdot (part : BitVec 3) (d : VNum) (a : VNum) (b : VNum) (ca : Bool) (cb : Bool) (dt : Bool) : Laws.Fits.Statement (.vdot part d a b ca cb dt) :=
  fits_of rfl (word_lt (cons_sum_le (putAt_le part 26) (cons_sum_le (putAt_le d 20) (cons_sum_le (putAt_le a 14) (cons_sum_le (putAt_le b 8) (cons_sum_le (flagAt_le ca 7) (cons_sum_le (flagAt_le cb 6) (cons_sum_le (flagAt_le dt 5) nil_sum_le))))))) (by decide))
theorem Laws.Fits.vand (part : BitVec 3) (d : VNum) (a : VNum) (b : VNum) (ca : Bool) (cb : Bool) (dt : Bool) : Laws.Fits.Statement (.vand part d a b ca cb dt) :=
  fits_of rfl (word_lt (cons_sum_le (putAt_le part 26) (cons_sum_le (putAt_le d 20) (cons_sum_le (putAt_le a 14) (cons_sum_le (putAt_le b 8) (cons_sum_le (flagAt_le ca 7) (cons_sum_le (flagAt_le cb 6) (cons_sum_le (flagAt_le dt 5) nil_sum_le))))))) (by decide))
theorem Laws.Fits.vor (part : BitVec 3) (d : VNum) (a : VNum) (b : VNum) (ca : Bool) (cb : Bool) (dt : Bool) : Laws.Fits.Statement (.vor part d a b ca cb dt) :=
  fits_of rfl (word_lt (cons_sum_le (putAt_le part 26) (cons_sum_le (putAt_le d 20) (cons_sum_le (putAt_le a 14) (cons_sum_le (putAt_le b 8) (cons_sum_le (flagAt_le ca 7) (cons_sum_le (flagAt_le cb 6) (cons_sum_le (flagAt_le dt 5) nil_sum_le))))))) (by decide))
theorem Laws.Fits.vxor (part : BitVec 3) (d : VNum) (a : VNum) (b : VNum) (ca : Bool) (cb : Bool) (dt : Bool) : Laws.Fits.Statement (.vxor part d a b ca cb dt) :=
  fits_of rfl (word_lt (cons_sum_le (putAt_le part 26) (cons_sum_le (putAt_le d 20) (cons_sum_le (putAt_le a 14) (cons_sum_le (putAt_le b 8) (cons_sum_le (flagAt_le ca 7) (cons_sum_le (flagAt_le cb 6) (cons_sum_le (flagAt_le dt 5) nil_sum_le))))))) (by decide))
theorem Laws.Fits.vshl (part : BitVec 3) (d : VNum) (a : VNum) (b : VNum) (ca : Bool) (cb : Bool) (dt : Bool) : Laws.Fits.Statement (.vshl part d a b ca cb dt) :=
  fits_of rfl (word_lt (cons_sum_le (putAt_le part 26) (cons_sum_le (putAt_le d 20) (cons_sum_le (putAt_le a 14) (cons_sum_le (putAt_le b 8) (cons_sum_le (flagAt_le ca 7) (cons_sum_le (flagAt_le cb 6) (cons_sum_le (flagAt_le dt 5) nil_sum_le))))))) (by decide))
theorem Laws.Fits.vshr (part : BitVec 3) (d : VNum) (a : VNum) (b : VNum) (ca : Bool) (cb : Bool) (dt : Bool) : Laws.Fits.Statement (.vshr part d a b ca cb dt) :=
  fits_of rfl (word_lt (cons_sum_le (putAt_le part 26) (cons_sum_le (putAt_le d 20) (cons_sum_le (putAt_le a 14) (cons_sum_le (putAt_le b 8) (cons_sum_le (flagAt_le ca 7) (cons_sum_le (flagAt_le cb 6) (cons_sum_le (flagAt_le dt 5) nil_sum_le))))))) (by decide))
theorem Laws.Fits.vdiv (part : BitVec 3) (d : VNum) (a : VNum) (b : VNum) (ca : Bool) (cb : Bool) (dt : Bool) : Laws.Fits.Statement (.vdiv part d a b ca cb dt) :=
  fits_of rfl (word_lt (cons_sum_le (putAt_le part 26) (cons_sum_le (putAt_le d 20) (cons_sum_le (putAt_le a 14) (cons_sum_le (putAt_le b 8) (cons_sum_le (flagAt_le ca 7) (cons_sum_le (flagAt_le cb 6) (cons_sum_le (flagAt_le dt 5) nil_sum_le))))))) (by decide))
theorem Laws.Fits.vsqrt (part : BitVec 3) (d : VNum) (a : VNum) (ca : Bool) (dt : Bool) : Laws.Fits.Statement (.vsqrt part d a ca dt) :=
  fits_of rfl (word_lt (cons_sum_le (putAt_le part 26) (cons_sum_le (putAt_le d 20) (cons_sum_le (putAt_le a 14) (cons_sum_le (flagAt_le ca 7) (cons_sum_le (flagAt_le dt 5) nil_sum_le))))) (by decide))
theorem Laws.Fits.vrcp (part : BitVec 3) (d : VNum) (a : VNum) (ca : Bool) (dt : Bool) : Laws.Fits.Statement (.vrcp part d a ca dt) :=
  fits_of rfl (word_lt (cons_sum_le (putAt_le part 26) (cons_sum_le (putAt_le d 20) (cons_sum_le (putAt_le a 14) (cons_sum_le (flagAt_le ca 7) (cons_sum_le (flagAt_le dt 5) nil_sum_le))))) (by decide))
theorem Laws.Fits.vrsq (part : BitVec 3) (d : VNum) (a : VNum) (ca : Bool) (dt : Bool) : Laws.Fits.Statement (.vrsq part d a ca dt) :=
  fits_of rfl (word_lt (cons_sum_le (putAt_le part 26) (cons_sum_le (putAt_le d 20) (cons_sum_le (putAt_le a 14) (cons_sum_le (flagAt_le ca 7) (cons_sum_le (flagAt_le dt 5) nil_sum_le))))) (by decide))
theorem Laws.Fits.vexp2 (part : BitVec 3) (d : VNum) (a : VNum) (ca : Bool) (dt : Bool) : Laws.Fits.Statement (.vexp2 part d a ca dt) :=
  fits_of rfl (word_lt (cons_sum_le (putAt_le part 26) (cons_sum_le (putAt_le d 20) (cons_sum_le (putAt_le a 14) (cons_sum_le (flagAt_le ca 7) (cons_sum_le (flagAt_le dt 5) nil_sum_le))))) (by decide))
theorem Laws.Fits.vlog2 (part : BitVec 3) (d : VNum) (a : VNum) (ca : Bool) (dt : Bool) : Laws.Fits.Statement (.vlog2 part d a ca dt) :=
  fits_of rfl (word_lt (cons_sum_le (putAt_le part 26) (cons_sum_le (putAt_le d 20) (cons_sum_le (putAt_le a 14) (cons_sum_le (flagAt_le ca 7) (cons_sum_le (flagAt_le dt 5) nil_sum_le))))) (by decide))
theorem Laws.Fits.vscale (part : BitVec 3) (d : VNum) (a : VNum) (b : VNum) (ca : Bool) (cb : Bool) (dt : Bool) : Laws.Fits.Statement (.vscale part d a b ca cb dt) :=
  fits_of rfl (word_lt (cons_sum_le (putAt_le part 26) (cons_sum_le (putAt_le d 20) (cons_sum_le (putAt_le a 14) (cons_sum_le (putAt_le b 8) (cons_sum_le (flagAt_le ca 7) (cons_sum_le (flagAt_le cb 6) (cons_sum_le (flagAt_le dt 5) nil_sum_le))))))) (by decide))
theorem Laws.Fits.vcmpEq (part : BitVec 3) (k : BitVec 3) (a : VNum) (b : VNum) (ca : Bool) (cb : Bool) (dt : Bool) : Laws.Fits.Statement (.vcmpEq part k a b ca cb dt) :=
  fits_of rfl (word_lt (cons_sum_le (putAt_le part 26) (cons_sum_le (putAt_le k 20) (cons_sum_le (putAt_le a 14) (cons_sum_le (putAt_le b 8) (cons_sum_le (flagAt_le ca 7) (cons_sum_le (flagAt_le cb 6) (cons_sum_le (flagAt_le dt 5) nil_sum_le))))))) (by decide))
theorem Laws.Fits.vcmpNe (part : BitVec 3) (k : BitVec 3) (a : VNum) (b : VNum) (ca : Bool) (cb : Bool) (dt : Bool) : Laws.Fits.Statement (.vcmpNe part k a b ca cb dt) :=
  fits_of rfl (word_lt (cons_sum_le (putAt_le part 26) (cons_sum_le (putAt_le k 20) (cons_sum_le (putAt_le a 14) (cons_sum_le (putAt_le b 8) (cons_sum_le (flagAt_le ca 7) (cons_sum_le (flagAt_le cb 6) (cons_sum_le (flagAt_le dt 5) nil_sum_le))))))) (by decide))
theorem Laws.Fits.vcmpLt (part : BitVec 3) (k : BitVec 3) (a : VNum) (b : VNum) (ca : Bool) (cb : Bool) (dt : Bool) : Laws.Fits.Statement (.vcmpLt part k a b ca cb dt) :=
  fits_of rfl (word_lt (cons_sum_le (putAt_le part 26) (cons_sum_le (putAt_le k 20) (cons_sum_le (putAt_le a 14) (cons_sum_le (putAt_le b 8) (cons_sum_le (flagAt_le ca 7) (cons_sum_le (flagAt_le cb 6) (cons_sum_le (flagAt_le dt 5) nil_sum_le))))))) (by decide))
theorem Laws.Fits.vcmpLtu (part : BitVec 3) (k : BitVec 3) (a : VNum) (b : VNum) (ca : Bool) (cb : Bool) (dt : Bool) : Laws.Fits.Statement (.vcmpLtu part k a b ca cb dt) :=
  fits_of rfl (word_lt (cons_sum_le (putAt_le part 26) (cons_sum_le (putAt_le k 20) (cons_sum_le (putAt_le a 14) (cons_sum_le (putAt_le b 8) (cons_sum_le (flagAt_le ca 7) (cons_sum_le (flagAt_le cb 6) (cons_sum_le (flagAt_le dt 5) nil_sum_le))))))) (by decide))
theorem Laws.Fits.vcmpGe (part : BitVec 3) (k : BitVec 3) (a : VNum) (b : VNum) (ca : Bool) (cb : Bool) (dt : Bool) : Laws.Fits.Statement (.vcmpGe part k a b ca cb dt) :=
  fits_of rfl (word_lt (cons_sum_le (putAt_le part 26) (cons_sum_le (putAt_le k 20) (cons_sum_le (putAt_le a 14) (cons_sum_le (putAt_le b 8) (cons_sum_le (flagAt_le ca 7) (cons_sum_le (flagAt_le cb 6) (cons_sum_le (flagAt_le dt 5) nil_sum_le))))))) (by decide))
theorem Laws.Fits.vcmpGeu (part : BitVec 3) (k : BitVec 3) (a : VNum) (b : VNum) (ca : Bool) (cb : Bool) (dt : Bool) : Laws.Fits.Statement (.vcmpGeu part k a b ca cb dt) :=
  fits_of rfl (word_lt (cons_sum_le (putAt_le part 26) (cons_sum_le (putAt_le k 20) (cons_sum_le (putAt_le a 14) (cons_sum_le (putAt_le b 8) (cons_sum_le (flagAt_le ca 7) (cons_sum_le (flagAt_le cb 6) (cons_sum_le (flagAt_le dt 5) nil_sum_le))))))) (by decide))
theorem Laws.Fits.vsel (part : BitVec 3) (d : VNum) (a : VNum) (b : VNum) (ca : Bool) (cb : Bool) (dt : Bool) : Laws.Fits.Statement (.vsel part d a b ca cb dt) :=
  fits_of rfl (word_lt (cons_sum_le (putAt_le part 26) (cons_sum_le (putAt_le d 20) (cons_sum_le (putAt_le a 14) (cons_sum_le (putAt_le b 8) (cons_sum_le (flagAt_le ca 7) (cons_sum_le (flagAt_le cb 6) (cons_sum_le (flagAt_le dt 5) nil_sum_le))))))) (by decide))
theorem Laws.Fits.vaddVx (d : VNum) (a : VNum) (b : XReg) (ca : Bool) (dt : Bool) (p : BitVec 2) : Laws.Fits.Statement (.vaddVx d a b ca dt p) :=
  fits_of rfl (word_lt (cons_sum_le (putAt_le d 20) (cons_sum_le (putAt_le a 14) (cons_sum_le (putAt_le b 9) (cons_sum_le (flagAt_le ca 8) (cons_sum_le (flagAt_le dt 7) (cons_sum_le (putAt_le p 5) nil_sum_le)))))) (by decide))
theorem Laws.Fits.vsubVx (d : VNum) (a : VNum) (b : XReg) (ca : Bool) (dt : Bool) (p : BitVec 2) : Laws.Fits.Statement (.vsubVx d a b ca dt p) :=
  fits_of rfl (word_lt (cons_sum_le (putAt_le d 20) (cons_sum_le (putAt_le a 14) (cons_sum_le (putAt_le b 9) (cons_sum_le (flagAt_le ca 8) (cons_sum_le (flagAt_le dt 7) (cons_sum_le (putAt_le p 5) nil_sum_le)))))) (by decide))
theorem Laws.Fits.vmulVx (d : VNum) (a : VNum) (b : XReg) (ca : Bool) (dt : Bool) (p : BitVec 2) : Laws.Fits.Statement (.vmulVx d a b ca dt p) :=
  fits_of rfl (word_lt (cons_sum_le (putAt_le d 20) (cons_sum_le (putAt_le a 14) (cons_sum_le (putAt_le b 9) (cons_sum_le (flagAt_le ca 8) (cons_sum_le (flagAt_le dt 7) (cons_sum_le (putAt_le p 5) nil_sum_le)))))) (by decide))
theorem Laws.Fits.vmulhVx (d : VNum) (a : VNum) (b : XReg) (ca : Bool) (dt : Bool) (p : BitVec 2) : Laws.Fits.Statement (.vmulhVx d a b ca dt p) :=
  fits_of rfl (word_lt (cons_sum_le (putAt_le d 20) (cons_sum_le (putAt_le a 14) (cons_sum_le (putAt_le b 9) (cons_sum_le (flagAt_le ca 8) (cons_sum_le (flagAt_le dt 7) (cons_sum_le (putAt_le p 5) nil_sum_le)))))) (by decide))
theorem Laws.Fits.vmadVx (d : VNum) (a : VNum) (b : XReg) (ca : Bool) (dt : Bool) (p : BitVec 2) : Laws.Fits.Statement (.vmadVx d a b ca dt p) :=
  fits_of rfl (word_lt (cons_sum_le (putAt_le d 20) (cons_sum_le (putAt_le a 14) (cons_sum_le (putAt_le b 9) (cons_sum_le (flagAt_le ca 8) (cons_sum_le (flagAt_le dt 7) (cons_sum_le (putAt_le p 5) nil_sum_le)))))) (by decide))
theorem Laws.Fits.vnmadVx (d : VNum) (a : VNum) (b : XReg) (ca : Bool) (dt : Bool) (p : BitVec 2) : Laws.Fits.Statement (.vnmadVx d a b ca dt p) :=
  fits_of rfl (word_lt (cons_sum_le (putAt_le d 20) (cons_sum_le (putAt_le a 14) (cons_sum_le (putAt_le b 9) (cons_sum_le (flagAt_le ca 8) (cons_sum_le (flagAt_le dt 7) (cons_sum_le (putAt_le p 5) nil_sum_le)))))) (by decide))
theorem Laws.Fits.vminVx (d : VNum) (a : VNum) (b : XReg) (ca : Bool) (dt : Bool) (p : BitVec 2) : Laws.Fits.Statement (.vminVx d a b ca dt p) :=
  fits_of rfl (word_lt (cons_sum_le (putAt_le d 20) (cons_sum_le (putAt_le a 14) (cons_sum_le (putAt_le b 9) (cons_sum_le (flagAt_le ca 8) (cons_sum_le (flagAt_le dt 7) (cons_sum_le (putAt_le p 5) nil_sum_le)))))) (by decide))
theorem Laws.Fits.vmaxVx (d : VNum) (a : VNum) (b : XReg) (ca : Bool) (dt : Bool) (p : BitVec 2) : Laws.Fits.Statement (.vmaxVx d a b ca dt p) :=
  fits_of rfl (word_lt (cons_sum_le (putAt_le d 20) (cons_sum_le (putAt_le a 14) (cons_sum_le (putAt_le b 9) (cons_sum_le (flagAt_le ca 8) (cons_sum_le (flagAt_le dt 7) (cons_sum_le (putAt_le p 5) nil_sum_le)))))) (by decide))
theorem Laws.Fits.vdotVx (d : VNum) (a : VNum) (b : XReg) (ca : Bool) (dt : Bool) (p : BitVec 2) : Laws.Fits.Statement (.vdotVx d a b ca dt p) :=
  fits_of rfl (word_lt (cons_sum_le (putAt_le d 20) (cons_sum_le (putAt_le a 14) (cons_sum_le (putAt_le b 9) (cons_sum_le (flagAt_le ca 8) (cons_sum_le (flagAt_le dt 7) (cons_sum_le (putAt_le p 5) nil_sum_le)))))) (by decide))
theorem Laws.Fits.vandVx (d : VNum) (a : VNum) (b : XReg) (ca : Bool) (dt : Bool) (p : BitVec 2) : Laws.Fits.Statement (.vandVx d a b ca dt p) :=
  fits_of rfl (word_lt (cons_sum_le (putAt_le d 20) (cons_sum_le (putAt_le a 14) (cons_sum_le (putAt_le b 9) (cons_sum_le (flagAt_le ca 8) (cons_sum_le (flagAt_le dt 7) (cons_sum_le (putAt_le p 5) nil_sum_le)))))) (by decide))
theorem Laws.Fits.vorVx (d : VNum) (a : VNum) (b : XReg) (ca : Bool) (dt : Bool) (p : BitVec 2) : Laws.Fits.Statement (.vorVx d a b ca dt p) :=
  fits_of rfl (word_lt (cons_sum_le (putAt_le d 20) (cons_sum_le (putAt_le a 14) (cons_sum_le (putAt_le b 9) (cons_sum_le (flagAt_le ca 8) (cons_sum_le (flagAt_le dt 7) (cons_sum_le (putAt_le p 5) nil_sum_le)))))) (by decide))
theorem Laws.Fits.vxorVx (d : VNum) (a : VNum) (b : XReg) (ca : Bool) (dt : Bool) (p : BitVec 2) : Laws.Fits.Statement (.vxorVx d a b ca dt p) :=
  fits_of rfl (word_lt (cons_sum_le (putAt_le d 20) (cons_sum_le (putAt_le a 14) (cons_sum_le (putAt_le b 9) (cons_sum_le (flagAt_le ca 8) (cons_sum_le (flagAt_le dt 7) (cons_sum_le (putAt_le p 5) nil_sum_le)))))) (by decide))
theorem Laws.Fits.vshlVx (d : VNum) (a : VNum) (b : XReg) (ca : Bool) (dt : Bool) (p : BitVec 2) : Laws.Fits.Statement (.vshlVx d a b ca dt p) :=
  fits_of rfl (word_lt (cons_sum_le (putAt_le d 20) (cons_sum_le (putAt_le a 14) (cons_sum_le (putAt_le b 9) (cons_sum_le (flagAt_le ca 8) (cons_sum_le (flagAt_le dt 7) (cons_sum_le (putAt_le p 5) nil_sum_le)))))) (by decide))
theorem Laws.Fits.vshrVx (d : VNum) (a : VNum) (b : XReg) (ca : Bool) (dt : Bool) (p : BitVec 2) : Laws.Fits.Statement (.vshrVx d a b ca dt p) :=
  fits_of rfl (word_lt (cons_sum_le (putAt_le d 20) (cons_sum_le (putAt_le a 14) (cons_sum_le (putAt_le b 9) (cons_sum_le (flagAt_le ca 8) (cons_sum_le (flagAt_le dt 7) (cons_sum_le (putAt_le p 5) nil_sum_le)))))) (by decide))
theorem Laws.Fits.vdivVx (d : VNum) (a : VNum) (b : XReg) (ca : Bool) (dt : Bool) (p : BitVec 2) : Laws.Fits.Statement (.vdivVx d a b ca dt p) :=
  fits_of rfl (word_lt (cons_sum_le (putAt_le d 20) (cons_sum_le (putAt_le a 14) (cons_sum_le (putAt_le b 9) (cons_sum_le (flagAt_le ca 8) (cons_sum_le (flagAt_le dt 7) (cons_sum_le (putAt_le p 5) nil_sum_le)))))) (by decide))
theorem Laws.Fits.vscaleVx (d : VNum) (a : VNum) (b : XReg) (ca : Bool) (dt : Bool) (p : BitVec 2) : Laws.Fits.Statement (.vscaleVx d a b ca dt p) :=
  fits_of rfl (word_lt (cons_sum_le (putAt_le d 20) (cons_sum_le (putAt_le a 14) (cons_sum_le (putAt_le b 9) (cons_sum_le (flagAt_le ca 8) (cons_sum_le (flagAt_le dt 7) (cons_sum_le (putAt_le p 5) nil_sum_le)))))) (by decide))
theorem Laws.Fits.vcmpEqVx (k : BitVec 3) (a : VNum) (b : XReg) (ca : Bool) (dt : Bool) (p : BitVec 2) : Laws.Fits.Statement (.vcmpEqVx k a b ca dt p) :=
  fits_of rfl (word_lt (cons_sum_le (putAt_le k 20) (cons_sum_le (putAt_le a 14) (cons_sum_le (putAt_le b 9) (cons_sum_le (flagAt_le ca 8) (cons_sum_le (flagAt_le dt 7) (cons_sum_le (putAt_le p 5) nil_sum_le)))))) (by decide))
theorem Laws.Fits.vcmpNeVx (k : BitVec 3) (a : VNum) (b : XReg) (ca : Bool) (dt : Bool) (p : BitVec 2) : Laws.Fits.Statement (.vcmpNeVx k a b ca dt p) :=
  fits_of rfl (word_lt (cons_sum_le (putAt_le k 20) (cons_sum_le (putAt_le a 14) (cons_sum_le (putAt_le b 9) (cons_sum_le (flagAt_le ca 8) (cons_sum_le (flagAt_le dt 7) (cons_sum_le (putAt_le p 5) nil_sum_le)))))) (by decide))
theorem Laws.Fits.vcmpLtVx (k : BitVec 3) (a : VNum) (b : XReg) (ca : Bool) (dt : Bool) (p : BitVec 2) : Laws.Fits.Statement (.vcmpLtVx k a b ca dt p) :=
  fits_of rfl (word_lt (cons_sum_le (putAt_le k 20) (cons_sum_le (putAt_le a 14) (cons_sum_le (putAt_le b 9) (cons_sum_le (flagAt_le ca 8) (cons_sum_le (flagAt_le dt 7) (cons_sum_le (putAt_le p 5) nil_sum_le)))))) (by decide))
theorem Laws.Fits.vcmpLtuVx (k : BitVec 3) (a : VNum) (b : XReg) (ca : Bool) (dt : Bool) (p : BitVec 2) : Laws.Fits.Statement (.vcmpLtuVx k a b ca dt p) :=
  fits_of rfl (word_lt (cons_sum_le (putAt_le k 20) (cons_sum_le (putAt_le a 14) (cons_sum_le (putAt_le b 9) (cons_sum_le (flagAt_le ca 8) (cons_sum_le (flagAt_le dt 7) (cons_sum_le (putAt_le p 5) nil_sum_le)))))) (by decide))
theorem Laws.Fits.vcmpGeVx (k : BitVec 3) (a : VNum) (b : XReg) (ca : Bool) (dt : Bool) (p : BitVec 2) : Laws.Fits.Statement (.vcmpGeVx k a b ca dt p) :=
  fits_of rfl (word_lt (cons_sum_le (putAt_le k 20) (cons_sum_le (putAt_le a 14) (cons_sum_le (putAt_le b 9) (cons_sum_le (flagAt_le ca 8) (cons_sum_le (flagAt_le dt 7) (cons_sum_le (putAt_le p 5) nil_sum_le)))))) (by decide))
theorem Laws.Fits.vcmpGeuVx (k : BitVec 3) (a : VNum) (b : XReg) (ca : Bool) (dt : Bool) (p : BitVec 2) : Laws.Fits.Statement (.vcmpGeuVx k a b ca dt p) :=
  fits_of rfl (word_lt (cons_sum_le (putAt_le k 20) (cons_sum_le (putAt_le a 14) (cons_sum_le (putAt_le b 9) (cons_sum_le (flagAt_le ca 8) (cons_sum_le (flagAt_le dt 7) (cons_sum_le (putAt_le p 5) nil_sum_le)))))) (by decide))
theorem Laws.Fits.vselVx (d : VNum) (a : VNum) (b : XReg) (ca : Bool) (dt : Bool) (p : BitVec 2) : Laws.Fits.Statement (.vselVx d a b ca dt p) :=
  fits_of rfl (word_lt (cons_sum_le (putAt_le d 20) (cons_sum_le (putAt_le a 14) (cons_sum_le (putAt_le b 9) (cons_sum_le (flagAt_le ca 8) (cons_sum_le (flagAt_le dt 7) (cons_sum_le (putAt_le p 5) nil_sum_le)))))) (by decide))
theorem Laws.Fits.vsplat (d : VNum) (b : XReg) (dt : Bool) : Laws.Fits.Statement (.vsplat d b dt) :=
  fits_of rfl (word_lt (cons_sum_le (putAt_le d 20) (cons_sum_le (putAt_le b 9) (cons_sum_le (flagAt_le dt 7) nil_sum_le))) (by decide))
theorem Laws.Fits.viota (d : VNum) (dt : Bool) : Laws.Fits.Statement (.viota d dt) :=
  fits_of rfl (word_lt (cons_sum_le (putAt_le d 20) (cons_sum_le (flagAt_le dt 7) nil_sum_le)) (by decide))
theorem Laws.Fits.vext (d : XReg) (a : VNum) (b : XReg) (ca : Bool) (dt : Bool) : Laws.Fits.Statement (.vext d a b ca dt) :=
  fits_of rfl (word_lt (cons_sum_le (putAt_le d 20) (cons_sum_le (putAt_le a 14) (cons_sum_le (putAt_le b 9) (cons_sum_le (flagAt_le ca 8) (cons_sum_le (flagAt_le dt 7) nil_sum_le))))) (by decide))
theorem Laws.Fits.vins (d : VNum) (xs : XReg) (b : XReg) (dt : Bool) : Laws.Fits.Statement (.vins d xs b dt) :=
  fits_of rfl (word_lt (cons_sum_le (putAt_le d 20) (cons_sum_le (putAt_le xs 14) (cons_sum_le (putAt_le b 9) (cons_sum_le (flagAt_le dt 7) nil_sum_le)))) (by decide))
theorem Laws.Fits.kand (d : BitVec 3) (a : BitVec 3) (b : BitVec 3) : Laws.Fits.Statement (.kand d a b) :=
  fits_of rfl (word_lt (cons_sum_le (putAt_le d 23) (cons_sum_le (putAt_le a 20) (cons_sum_le (putAt_le b 17) nil_sum_le))) (by decide))
theorem Laws.Fits.kor (d : BitVec 3) (a : BitVec 3) (b : BitVec 3) : Laws.Fits.Statement (.kor d a b) :=
  fits_of rfl (word_lt (cons_sum_le (putAt_le d 23) (cons_sum_le (putAt_le a 20) (cons_sum_le (putAt_le b 17) nil_sum_le))) (by decide))
theorem Laws.Fits.kxor (d : BitVec 3) (a : BitVec 3) (b : BitVec 3) : Laws.Fits.Statement (.kxor d a b) :=
  fits_of rfl (word_lt (cons_sum_le (putAt_le d 23) (cons_sum_le (putAt_le a 20) (cons_sum_le (putAt_le b 17) nil_sum_le))) (by decide))
theorem Laws.Fits.knot (d : BitVec 3) (a : BitVec 3) : Laws.Fits.Statement (.knot d a) :=
  fits_of rfl (word_lt (cons_sum_le (putAt_le d 23) (cons_sum_le (putAt_le a 20) nil_sum_le)) (by decide))
theorem Laws.Fits.kmov (d : BitVec 3) (a : BitVec 3) : Laws.Fits.Statement (.kmov d a) :=
  fits_of rfl (word_lt (cons_sum_le (putAt_le d 23) (cons_sum_le (putAt_le a 20) nil_sum_le)) (by decide))
theorem Laws.Fits.kset (d : BitVec 3) (x : XReg) : Laws.Fits.Statement (.kset d x) :=
  fits_of rfl (word_lt (cons_sum_le (putAt_le d 23) (cons_sum_le (putAt_le x 12) nil_sum_le)) (by decide))
theorem Laws.Fits.kpop (a : BitVec 3) (x : XReg) : Laws.Fits.Statement (.kpop a x) :=
  fits_of rfl (word_lt (cons_sum_le (putAt_le a 20) (cons_sum_le (putAt_le x 12) nil_sum_le)) (by decide))
theorem Laws.Fits.kfirst (a : BitVec 3) (x : XReg) : Laws.Fits.Statement (.kfirst a x) :=
  fits_of rfl (word_lt (cons_sum_le (putAt_le a 20) (cons_sum_le (putAt_le x 12) nil_sum_le)) (by decide))
theorem Laws.Fits.kany (p : BitVec 3) (a : BitVec 3) : Laws.Fits.Statement (.kany p a) :=
  fits_of rfl (word_lt (cons_sum_le (putAt_le p 23) (cons_sum_le (putAt_le a 20) nil_sum_le)) (by decide))
theorem Laws.Fits.kall (p : BitVec 3) (a : BitVec 3) : Laws.Fits.Statement (.kall p a) :=
  fits_of rfl (word_lt (cons_sum_le (putAt_le p 23) (cons_sum_le (putAt_le a 20) nil_sum_le)) (by decide))
theorem Laws.Fits.vradd (d : XReg) (a : VNum) (b : XReg) (ca : Bool) (dt : Bool) (wide : Bool) : Laws.Fits.Statement (.vradd d a b ca dt wide) :=
  fits_of rfl (word_lt (cons_sum_le (putAt_le d 20) (cons_sum_le (putAt_le a 14) (cons_sum_le (putAt_le b 9) (cons_sum_le (flagAt_le ca 8) (cons_sum_le (flagAt_le dt 7) (cons_sum_le (flagAt_le wide 2) nil_sum_le)))))) (by decide))
theorem Laws.Fits.vrmax (d : XReg) (a : VNum) (b : XReg) (ca : Bool) (dt : Bool) (wide : Bool) : Laws.Fits.Statement (.vrmax d a b ca dt wide) :=
  fits_of rfl (word_lt (cons_sum_le (putAt_le d 20) (cons_sum_le (putAt_le a 14) (cons_sum_le (putAt_le b 9) (cons_sum_le (flagAt_le ca 8) (cons_sum_le (flagAt_le dt 7) (cons_sum_le (flagAt_le wide 2) nil_sum_le)))))) (by decide))
theorem Laws.Fits.vrmin (d : XReg) (a : VNum) (b : XReg) (ca : Bool) (dt : Bool) (wide : Bool) : Laws.Fits.Statement (.vrmin d a b ca dt wide) :=
  fits_of rfl (word_lt (cons_sum_le (putAt_le d 20) (cons_sum_le (putAt_le a 14) (cons_sum_le (putAt_le b 9) (cons_sum_le (flagAt_le ca 8) (cons_sum_le (flagAt_le dt 7) (cons_sum_le (flagAt_le wide 2) nil_sum_le)))))) (by decide))
theorem Laws.Fits.vld (d : VNum) (b : XReg) (dt : Bool) : Laws.Fits.Statement (.vld d b dt) :=
  fits_of rfl (word_lt (cons_sum_le (putAt_le d 20) (cons_sum_le (putAt_le b 9) (cons_sum_le (flagAt_le dt 7) nil_sum_le))) (by decide))
theorem Laws.Fits.vlds (d : VNum) (s : XReg) (b : XReg) (dt : Bool) : Laws.Fits.Statement (.vlds d s b dt) :=
  fits_of rfl (word_lt (cons_sum_le (putAt_le d 20) (cons_sum_le (putAt_le s 14) (cons_sum_le (putAt_le b 9) (cons_sum_le (flagAt_le dt 7) nil_sum_le)))) (by decide))
theorem Laws.Fits.vldx (d : VNum) (vi : VNum) (b : XReg) (ca : Bool) (dt : Bool) : Laws.Fits.Statement (.vldx d vi b ca dt) :=
  fits_of rfl (word_lt (cons_sum_le (putAt_le d 20) (cons_sum_le (putAt_le vi 14) (cons_sum_le (putAt_le b 9) (cons_sum_le (flagAt_le ca 8) (cons_sum_le (flagAt_le dt 7) nil_sum_le))))) (by decide))
theorem Laws.Fits.vldxo (d : VNum) (vi : VNum) (b : XReg) (ca : Bool) (dt : Bool) : Laws.Fits.Statement (.vldxo d vi b ca dt) :=
  fits_of rfl (word_lt (cons_sum_le (putAt_le d 20) (cons_sum_le (putAt_le vi 14) (cons_sum_le (putAt_le b 9) (cons_sum_le (flagAt_le ca 8) (cons_sum_le (flagAt_le dt 7) nil_sum_le))))) (by decide))
theorem Laws.Fits.vlsx (d : VNum) (vi : VNum) (b : XReg) (ca : Bool) (dt : Bool) : Laws.Fits.Statement (.vlsx d vi b ca dt) :=
  fits_of rfl (word_lt (cons_sum_le (putAt_le d 20) (cons_sum_le (putAt_le vi 14) (cons_sum_le (putAt_le b 9) (cons_sum_le (flagAt_le ca 8) (cons_sum_le (flagAt_le dt 7) nil_sum_le))))) (by decide))
theorem Laws.Fits.vst (d : VNum) (b : XReg) (ca : Bool) (dt : Bool) : Laws.Fits.Statement (.vst d b ca dt) :=
  fits_of rfl (word_lt (cons_sum_le (putAt_le d 20) (cons_sum_le (putAt_le b 9) (cons_sum_le (flagAt_le ca 8) (cons_sum_le (flagAt_le dt 7) nil_sum_le)))) (by decide))
theorem Laws.Fits.vsts (d : VNum) (s : XReg) (b : XReg) (ca : Bool) (dt : Bool) : Laws.Fits.Statement (.vsts d s b ca dt) :=
  fits_of rfl (word_lt (cons_sum_le (putAt_le d 20) (cons_sum_le (putAt_le s 14) (cons_sum_le (putAt_le b 9) (cons_sum_le (flagAt_le ca 8) (cons_sum_le (flagAt_le dt 7) nil_sum_le))))) (by decide))
theorem Laws.Fits.vstx (d : VNum) (vi : VNum) (b : XReg) (ca : Bool) (dt : Bool) : Laws.Fits.Statement (.vstx d vi b ca dt) :=
  fits_of rfl (word_lt (cons_sum_le (putAt_le d 20) (cons_sum_le (putAt_le vi 14) (cons_sum_le (putAt_le b 9) (cons_sum_le (flagAt_le ca 8) (cons_sum_le (flagAt_le dt 7) nil_sum_le))))) (by decide))
theorem Laws.Fits.vstxo (d : VNum) (vi : VNum) (b : XReg) (ca : Bool) (dt : Bool) : Laws.Fits.Statement (.vstxo d vi b ca dt) :=
  fits_of rfl (word_lt (cons_sum_le (putAt_le d 20) (cons_sum_le (putAt_le vi 14) (cons_sum_le (putAt_le b 9) (cons_sum_le (flagAt_le ca 8) (cons_sum_le (flagAt_le dt 7) nil_sum_le))))) (by decide))
theorem Laws.Fits.vssx (d : VNum) (vi : VNum) (b : XReg) (ca : Bool) (dt : Bool) : Laws.Fits.Statement (.vssx d vi b ca dt) :=
  fits_of rfl (word_lt (cons_sum_le (putAt_le d 20) (cons_sum_le (putAt_le vi 14) (cons_sum_le (putAt_le b 9) (cons_sum_le (flagAt_le ca 8) (cons_sum_le (flagAt_le dt 7) nil_sum_le))))) (by decide))
theorem Laws.Fits.vupdAdd (d : VNum) (vi : VNum) (b : XReg) (ca : Bool) (dt : Bool) : Laws.Fits.Statement (.vupdAdd d vi b ca dt) :=
  fits_of rfl (word_lt (cons_sum_le (putAt_le d 20) (cons_sum_le (putAt_le vi 14) (cons_sum_le (putAt_le b 9) (cons_sum_le (flagAt_le ca 8) (cons_sum_le (flagAt_le dt 7) nil_sum_le))))) (by decide))
theorem Laws.Fits.vupdMin (d : VNum) (vi : VNum) (b : XReg) (ca : Bool) (dt : Bool) : Laws.Fits.Statement (.vupdMin d vi b ca dt) :=
  fits_of rfl (word_lt (cons_sum_le (putAt_le d 20) (cons_sum_le (putAt_le vi 14) (cons_sum_le (putAt_le b 9) (cons_sum_le (flagAt_le ca 8) (cons_sum_le (flagAt_le dt 7) nil_sum_le))))) (by decide))
theorem Laws.Fits.vupdMax (d : VNum) (vi : VNum) (b : XReg) (ca : Bool) (dt : Bool) : Laws.Fits.Statement (.vupdMax d vi b ca dt) :=
  fits_of rfl (word_lt (cons_sum_le (putAt_le d 20) (cons_sum_le (putAt_le vi 14) (cons_sum_le (putAt_le b 9) (cons_sum_le (flagAt_le ca 8) (cons_sum_le (flagAt_le dt 7) nil_sum_le))))) (by decide))
theorem Laws.Fits.vupdAnd (d : VNum) (vi : VNum) (b : XReg) (ca : Bool) (dt : Bool) : Laws.Fits.Statement (.vupdAnd d vi b ca dt) :=
  fits_of rfl (word_lt (cons_sum_le (putAt_le d 20) (cons_sum_le (putAt_le vi 14) (cons_sum_le (putAt_le b 9) (cons_sum_le (flagAt_le ca 8) (cons_sum_le (flagAt_le dt 7) nil_sum_le))))) (by decide))
theorem Laws.Fits.vupdOr (d : VNum) (vi : VNum) (b : XReg) (ca : Bool) (dt : Bool) : Laws.Fits.Statement (.vupdOr d vi b ca dt) :=
  fits_of rfl (word_lt (cons_sum_le (putAt_le d 20) (cons_sum_le (putAt_le vi 14) (cons_sum_le (putAt_le b 9) (cons_sum_le (flagAt_le ca 8) (cons_sum_le (flagAt_le dt 7) nil_sum_le))))) (by decide))
theorem Laws.Fits.vupdXor (d : VNum) (vi : VNum) (b : XReg) (ca : Bool) (dt : Bool) : Laws.Fits.Statement (.vupdXor d vi b ca dt) :=
  fits_of rfl (word_lt (cons_sum_le (putAt_le d 20) (cons_sum_le (putAt_le vi 14) (cons_sum_le (putAt_le b 9) (cons_sum_le (flagAt_le ca 8) (cons_sum_le (flagAt_le dt 7) nil_sum_le))))) (by decide))
theorem Laws.Fits.vperm (d : VNum) (a : VNum) (b : VNum) (ca : Bool) (cb : Bool) (dt : Bool) : Laws.Fits.Statement (.vperm d a b ca cb dt) :=
  fits_of rfl (word_lt (cons_sum_le (putAt_le d 20) (cons_sum_le (putAt_le a 14) (cons_sum_le (putAt_le b 8) (cons_sum_le (flagAt_le ca 7) (cons_sum_le (flagAt_le cb 6) (cons_sum_le (flagAt_le dt 5) nil_sum_le)))))) (by decide))
theorem Laws.Fits.vcomp (d : VNum) (a : VNum) (ca : Bool) (dt : Bool) : Laws.Fits.Statement (.vcomp d a ca dt) :=
  fits_of rfl (word_lt (cons_sum_le (putAt_le d 20) (cons_sum_le (putAt_le a 14) (cons_sum_le (flagAt_le ca 7) (cons_sum_le (flagAt_le dt 5) nil_sum_le)))) (by decide))
theorem Laws.Fits.vcompIdx (d : VNum) (a : VNum) (b : VNum) (ca : Bool) (dt : Bool) : Laws.Fits.Statement (.vcompIdx d a b ca dt) :=
  fits_of rfl (word_lt (cons_sum_le (putAt_le d 20) (cons_sum_le (putAt_le a 14) (cons_sum_le (putAt_le b 8) (cons_sum_le (flagAt_le ca 7) (cons_sum_le (flagAt_le dt 5) nil_sum_le))))) (by decide))
theorem Laws.Fits.vexpd (d : VNum) (a : VNum) (ca : Bool) (dt : Bool) : Laws.Fits.Statement (.vexpd d a ca dt) :=
  fits_of rfl (word_lt (cons_sum_le (putAt_le d 20) (cons_sum_le (putAt_le a 14) (cons_sum_le (flagAt_le ca 7) (cons_sum_le (flagAt_le dt 5) nil_sum_le)))) (by decide))
theorem Laws.Fits.vrot (d : VNum) (a : VNum) (b : XReg) (ca : Bool) (dt : Bool) : Laws.Fits.Statement (.vrot d a b ca dt) :=
  fits_of rfl (word_lt (cons_sum_le (putAt_le d 20) (cons_sum_le (putAt_le a 14) (cons_sum_le (putAt_le b 9) (cons_sum_le (flagAt_le ca 8) (cons_sum_le (flagAt_le dt 7) nil_sum_le))))) (by decide))
theorem Laws.Fits.vslideup (d : VNum) (a : VNum) (b : XReg) (ca : Bool) (dt : Bool) : Laws.Fits.Statement (.vslideup d a b ca dt) :=
  fits_of rfl (word_lt (cons_sum_le (putAt_le d 20) (cons_sum_le (putAt_le a 14) (cons_sum_le (putAt_le b 9) (cons_sum_le (flagAt_le ca 8) (cons_sum_le (flagAt_le dt 7) nil_sum_le))))) (by decide))
theorem Laws.Fits.vslidedn (d : VNum) (a : VNum) (b : XReg) (ca : Bool) (dt : Bool) : Laws.Fits.Statement (.vslidedn d a b ca dt) :=
  fits_of rfl (word_lt (cons_sum_le (putAt_le d 20) (cons_sum_le (putAt_le a 14) (cons_sum_le (putAt_le b 9) (cons_sum_le (flagAt_le ca 8) (cons_sum_le (flagAt_le dt 7) nil_sum_le))))) (by decide))
theorem Laws.Fits.vcapp (a : VNum) (b : XReg) (ca : Bool) (dt : Bool) : Laws.Fits.Statement (.vcapp a b ca dt) :=
  fits_of rfl (word_lt (cons_sum_le (putAt_le a 14) (cons_sum_le (putAt_le b 9) (cons_sum_le (flagAt_le ca 8) (cons_sum_le (flagAt_le dt 7) nil_sum_le)))) (by decide))
theorem Laws.Fits.vshuf (d : VNum) (a : VNum) (b : XReg) (ca : Bool) (dt : Bool) : Laws.Fits.Statement (.vshuf d a b ca dt) :=
  fits_of rfl (word_lt (cons_sum_le (putAt_le d 20) (cons_sum_le (putAt_le a 14) (cons_sum_le (putAt_le b 9) (cons_sum_le (flagAt_le ca 8) (cons_sum_le (flagAt_le dt 7) nil_sum_le))))) (by decide))
theorem Laws.Fits.vbcast (d : VNum) (a : VNum) (b : XReg) (ca : Bool) (dt : Bool) : Laws.Fits.Statement (.vbcast d a b ca dt) :=
  fits_of rfl (word_lt (cons_sum_le (putAt_le d 20) (cons_sum_le (putAt_le a 14) (cons_sum_le (putAt_le b 9) (cons_sum_le (flagAt_le ca 8) (cons_sum_le (flagAt_le dt 7) nil_sum_le))))) (by decide))
theorem Laws.Fits.vallredAdd (d : VNum) (a : VNum) (ca : Bool) (dt : Bool) : Laws.Fits.Statement (.vallredAdd d a ca dt) :=
  fits_of rfl (word_lt (cons_sum_le (putAt_le d 20) (cons_sum_le (putAt_le a 14) (cons_sum_le (flagAt_le ca 8) (cons_sum_le (flagAt_le dt 7) nil_sum_le)))) (by decide))
theorem Laws.Fits.vallredMax (d : VNum) (a : VNum) (ca : Bool) (dt : Bool) : Laws.Fits.Statement (.vallredMax d a ca dt) :=
  fits_of rfl (word_lt (cons_sum_le (putAt_le d 20) (cons_sum_le (putAt_le a 14) (cons_sum_le (flagAt_le ca 8) (cons_sum_le (flagAt_le dt 7) nil_sum_le)))) (by decide))
theorem Laws.Fits.vallredMin (d : VNum) (a : VNum) (ca : Bool) (dt : Bool) : Laws.Fits.Statement (.vallredMin d a ca dt) :=
  fits_of rfl (word_lt (cons_sum_le (putAt_le d 20) (cons_sum_le (putAt_le a 14) (cons_sum_le (flagAt_le ca 8) (cons_sum_le (flagAt_le dt 7) nil_sum_le)))) (by decide))
theorem Laws.Fits.svfence : Laws.Fits.Statement (.svfence) :=
  fits_of rfl (by decide)
theorem Laws.Fits.vdrain (s : BitVec 3) : Laws.Fits.Statement (.vdrain s) :=
  fits_of rfl (word_lt (cons_sum_le (putAt_le s 8) nil_sum_le) (by decide))
theorem Laws.Fits.tcfg (a : XReg) : Laws.Fits.Statement (.tcfg a) :=
  fits_of rfl (word_lt (cons_sum_le (putAt_le a 9) nil_sum_le) (by decide))
theorem Laws.Fits.tld (v : VNum) (a : XReg) : Laws.Fits.Statement (.tld v a) :=
  fits_of rfl (word_lt (cons_sum_le (putAt_le v 14) (cons_sum_le (putAt_le a 9) nil_sum_le)) (by decide))
theorem Laws.Fits.tmul (v : VNum) (a : XReg) : Laws.Fits.Statement (.tmul v a) :=
  fits_of rfl (word_lt (cons_sum_le (putAt_le v 14) (cons_sum_le (putAt_le a 9) nil_sum_le)) (by decide))
theorem Laws.Fits.tmuls (d : VNum) (v : VNum) (a : XReg) : Laws.Fits.Statement (.tmuls d v a) :=
  fits_of rfl (word_lt (cons_sum_le (putAt_le d 20) (cons_sum_le (putAt_le v 14) (cons_sum_le (putAt_le a 9) nil_sum_le))) (by decide))
theorem Laws.Fits.trd (d : VNum) (a : XReg) : Laws.Fits.Statement (.trd d a) :=
  fits_of rfl (word_lt (cons_sum_le (putAt_le d 20) (cons_sum_le (putAt_le a 9) nil_sum_le)) (by decide))
theorem Laws.Fits.tacc (d : VNum) (a : XReg) : Laws.Fits.Statement (.tacc d a) :=
  fits_of rfl (word_lt (cons_sum_le (putAt_le d 20) (cons_sum_le (putAt_le a 9) nil_sum_le)) (by decide))
theorem Laws.Fits.tzero (a : XReg) : Laws.Fits.Statement (.tzero a) :=
  fits_of rfl (word_lt (cons_sum_le (putAt_le a 9) nil_sum_le) (by decide))
theorem Laws.Fits.trel : Laws.Fits.Statement (.trel) :=
  fits_of rfl (by decide)
theorem Laws.Fits.mset (d : BitVec 2) (c : BitVec 3) (r : BitVec 3) : Laws.Fits.Statement (.mset d c r) :=
  fits_of rfl (word_lt (cons_sum_le (putAt_le d 24) (cons_sum_le (putAt_le c 7) (cons_sum_le (putAt_le r 4) nil_sum_le))) (by decide))
theorem Laws.Fits.mld (d : BitVec 2) (x : XReg) : Laws.Fits.Statement (.mld d x) :=
  fits_of rfl (word_lt (cons_sum_le (putAt_le d 24) (cons_sum_le (putAt_le x 15) nil_sum_le)) (by decide))
theorem Laws.Fits.mst (d : BitVec 2) (x : XReg) : Laws.Fits.Statement (.mst d x) :=
  fits_of rfl (word_lt (cons_sum_le (putAt_le d 24) (cons_sum_le (putAt_le x 15) nil_sum_le)) (by decide))
theorem Laws.Fits.mmul (d : BitVec 2) (a : BitVec 2) (b : BitVec 2) : Laws.Fits.Statement (.mmul d a b) :=
  fits_of rfl (word_lt (cons_sum_le (putAt_le d 24) (cons_sum_le (putAt_le a 22) (cons_sum_le (putAt_le b 20) nil_sum_le))) (by decide))
theorem Laws.Fits.mmac (d : BitVec 2) (a : BitVec 2) (b : BitVec 2) : Laws.Fits.Statement (.mmac d a b) :=
  fits_of rfl (word_lt (cons_sum_le (putAt_le d 24) (cons_sum_le (putAt_le a 22) (cons_sum_le (putAt_le b 20) nil_sum_le))) (by decide))
theorem Laws.Fits.madd (d : BitVec 2) (a : BitVec 2) (b : BitVec 2) : Laws.Fits.Statement (.madd d a b) :=
  fits_of rfl (word_lt (cons_sum_le (putAt_le d 24) (cons_sum_le (putAt_le a 22) (cons_sum_le (putAt_le b 20) nil_sum_le))) (by decide))
theorem Laws.Fits.mtrn (d : BitVec 2) (a : BitVec 2) : Laws.Fits.Statement (.mtrn d a) :=
  fits_of rfl (word_lt (cons_sum_le (putAt_le d 24) (cons_sum_le (putAt_le a 22) nil_sum_le)) (by decide))
theorem Laws.Fits.mchol (d : BitVec 2) (a : BitVec 2) : Laws.Fits.Statement (.mchol d a) :=
  fits_of rfl (word_lt (cons_sum_le (putAt_le d 24) (cons_sum_le (putAt_le a 22) nil_sum_le)) (by decide))
theorem Laws.Fits.mlu (d : BitVec 2) (a : BitVec 2) : Laws.Fits.Statement (.mlu d a) :=
  fits_of rfl (word_lt (cons_sum_le (putAt_le d 24) (cons_sum_le (putAt_le a 22) nil_sum_le)) (by decide))
theorem Laws.Fits.msolv (d : BitVec 2) (a : BitVec 2) (b : BitVec 2) : Laws.Fits.Statement (.msolv d a b) :=
  fits_of rfl (word_lt (cons_sum_le (putAt_le d 24) (cons_sum_le (putAt_le a 22) (cons_sum_le (putAt_le b 20) nil_sum_le))) (by decide))
theorem Laws.Fits.mscal (d : BitVec 2) (a : BitVec 2) (x : XReg) : Laws.Fits.Statement (.mscal d a x) :=
  fits_of rfl (word_lt (cons_sum_le (putAt_le d 24) (cons_sum_le (putAt_le a 22) (cons_sum_le (putAt_le x 15) nil_sum_le))) (by decide))
theorem Laws.Fits.mid (d : BitVec 2) : Laws.Fits.Statement (.mid d) :=
  fits_of rfl (word_lt (cons_sum_le (putAt_le d 24) nil_sum_le) (by decide))
theorem Laws.Fits.mflag (f : BitVec 2) (k : BitVec 3) : Laws.Fits.Statement (.mflag f k) :=
  fits_of rfl (word_lt (cons_sum_le (putAt_le f 7) (cons_sum_le (putAt_le k 4) nil_sum_le)) (by decide))
theorem Laws.Fits.tspawn (d : XReg) (a : XReg) : Laws.Fits.Statement (.tspawn d a) :=
  fits_of rfl (word_lt (cons_sum_le (putAt_le d 21) (cons_sum_le (putAt_le a 16) nil_sum_le)) (by decide))
theorem Laws.Fits.texit : Laws.Fits.Statement (.texit) :=
  fits_of rfl (by decide)
theorem Laws.Fits.tyield : Laws.Fits.Statement (.tyield) :=
  fits_of rfl (by decide)
theorem Laws.Fits.tinfo (d : XReg) (s : BitVec 5) : Laws.Fits.Statement (.tinfo d s) :=
  fits_of rfl (word_lt (cons_sum_le (putAt_le d 21) (cons_sum_le (putAt_le s 16) nil_sum_le)) (by decide))
theorem Laws.Fits.qpush (a : XReg) (b : XReg) (p : BitVec 3) : Laws.Fits.Statement (.qpush a b p) :=
  fits_of rfl (word_lt (cons_sum_le (putAt_le a 16) (cons_sum_le (putAt_le b 11) (cons_sum_le (putAt_le p 8) nil_sum_le))) (by decide))
theorem Laws.Fits.qpop (d : XReg) (a : XReg) (p : BitVec 3) : Laws.Fits.Statement (.qpop d a p) :=
  fits_of rfl (word_lt (cons_sum_le (putAt_le d 21) (cons_sum_le (putAt_le a 16) (cons_sum_le (putAt_le p 8) nil_sum_le))) (by decide))
theorem Laws.Fits.keyrel (a : XReg) : Laws.Fits.Statement (.keyrel a) :=
  fits_of rfl (word_lt (cons_sum_le (putAt_le a 16) nil_sum_le) (by decide))
theorem Laws.Fits.keyq (d : XReg) (a : XReg) : Laws.Fits.Statement (.keyq d a) :=
  fits_of rfl (word_lt (cons_sum_le (putAt_le d 21) (cons_sum_le (putAt_le a 16) nil_sum_le)) (by decide))
theorem Laws.Fits.strip (d : XReg) (a : XReg) (p : BitVec 3) : Laws.Fits.Statement (.strip d a p) :=
  fits_of rfl (word_lt (cons_sum_le (putAt_le d 21) (cons_sum_le (putAt_le a 16) (cons_sum_le (putAt_le p 8) nil_sum_le))) (by decide))
theorem Laws.Fits.bar (s : BitVec 3) : Laws.Fits.Statement (.bar s) :=
  fits_of rfl (word_lt (cons_sum_le (putAt_le s 8) nil_sum_le) (by decide))
theorem Laws.Fits.bara (s : BitVec 3) : Laws.Fits.Statement (.bara s) :=
  fits_of rfl (word_lt (cons_sum_le (putAt_le s 8) nil_sum_le) (by decide))
theorem Laws.Fits.barw (s : BitVec 3) : Laws.Fits.Statement (.barw s) :=
  fits_of rfl (word_lt (cons_sum_le (putAt_le s 8) nil_sum_le) (by decide))
theorem Laws.Fits.scfg (d : XReg) (a : XReg) (n : BitVec 2) : Laws.Fits.Statement (.scfg d a n) :=
  fits_of rfl (word_lt (cons_sum_le (putAt_le d 21) (cons_sum_le (putAt_le a 16) (cons_sum_le (putAt_le n 11) nil_sum_le))) (by decide))
theorem Laws.Fits.sstep (n : BitVec 2) : Laws.Fits.Statement (.sstep n) :=
  fits_of rfl (word_lt (cons_sum_le (putAt_le n 11) nil_sum_le) (by decide))
theorem Laws.Fits.sstat (d : XReg) (n : BitVec 2) : Laws.Fits.Statement (.sstat d n) :=
  fits_of rfl (word_lt (cons_sum_le (putAt_le d 21) (cons_sum_le (putAt_le n 11) nil_sum_le)) (by decide))
theorem Laws.Fits.sclose (n : BitVec 2) : Laws.Fits.Statement (.sclose n) :=
  fits_of rfl (word_lt (cons_sum_le (putAt_le n 11) nil_sum_le) (by decide))
theorem Laws.Fits.waitev (d : XReg) (a : XReg) (m : BitVec 12) : Laws.Fits.Statement (.waitev d a m) :=
  fits_of rfl (word_lt (cons_sum_le (putAt_le d 21) (cons_sum_le (putAt_le a 16) (cons_sum_le (putAt_le m 0) nil_sum_le))) (by decide))
theorem Laws.Fits.trap (c : BitVec 12) : Laws.Fits.Statement (.trap c) :=
  fits_of rfl (word_lt (cons_sum_le (putAt_le c 0) nil_sum_le) (by decide))
theorem Laws.Fits.rft : Laws.Fits.Statement (.rft) :=
  fits_of rfl (by decide)
theorem Laws.Fits.halt : Laws.Fits.Statement (.halt) :=
  fits_of rfl (by decide)
theorem Laws.Fits.bbh (a : XReg) (imm : BitVec 12) : Laws.Fits.Statement (.bbh a imm) :=
  fits_of rfl (word_lt (cons_sum_le (putAt_le a 16) (cons_sum_le (putAt_le imm 0) nil_sum_le)) (by decide))
theorem Laws.Fits.mark (c : BitVec 12) : Laws.Fits.Statement (.mark c) :=
  fits_of rfl (word_lt (cons_sum_le (putAt_le c 0) nil_sum_le) (by decide))
theorem Laws.Fits.bkpt (c : BitVec 12) : Laws.Fits.Statement (.bkpt c) :=
  fits_of rfl (word_lt (cons_sum_le (putAt_le c 0) nil_sum_le) (by decide))
theorem Laws.Fits.sequencerIssue (c : Nat) : Laws.Fits.Statement (.sequencerIssue c) :=
  fits_none rfl
theorem Laws.Fits.wayActivation (c way row : Nat) (src : ActSource) (segs : Nat) : Laws.Fits.Statement (.wayActivation c way row src segs) :=
  fits_none rfl
theorem Laws.Fits.elementGroupValid (h v g : Nat) : Laws.Fits.Statement (.elementGroupValid h v g) :=
  fits_none rfl
theorem Laws.Fits.alertDeadline (c way row : Nat) : Laws.Fits.Statement (.alertDeadline c way row) :=
  fits_none rfl
theorem Laws.Fits.speculativePreactivation (h c way row : Nat) : Laws.Fits.Statement (.speculativePreactivation h c way row) :=
  fits_none rfl
theorem Laws.Fits.speculativeDiscard (c n : Nat) : Laws.Fits.Statement (.speculativeDiscard c n) :=
  fits_none rfl
theorem Laws.Fits.class5Promotion (c n : Nat) : Laws.Fits.Statement (.class5Promotion c n) :=
  fits_none rfl
theorem Laws.Fits.vectorRetire (h : Nat) : Laws.Fits.Statement (.vectorRetire h) :=
  fits_none rfl
theorem Laws.Fits.storeBufferPerform (h n : Nat) : Laws.Fits.Statement (.storeBufferPerform h n) :=
  fits_none rfl
theorem Laws.Fits.trapDelivery (h : Nat) (cause : Cause) (pc info : BitVec 64) : Laws.Fits.Statement (.trapDelivery h cause pc info) :=
  fits_none rfl
theorem Laws.Fits.asyncDelivery (h : Nat) : Laws.Fits.Statement (.asyncDelivery h) :=
  fits_none rfl
theorem Laws.Fits.stewardResume (h : Nat) (pc : Option (BitVec 64)) (xs : List StewardEdit) : Laws.Fits.Statement (.stewardResume h pc xs) :=
  fits_none rfl
theorem Laws.Fits.stewardDeliver (h : Nat) : Laws.Fits.Statement (.stewardDeliver h) :=
  fits_none rfl
theorem Laws.Fits.taskEnd (t : Nat) (why : EndReason) : Laws.Fits.Statement (.taskEnd t why) :=
  fits_none rfl
theorem Laws.Fits.taskCompletion (t : Nat) : Laws.Fits.Statement (.taskCompletion t) :=
  fits_none rfl
theorem Laws.Fits.doorbell (q p : Nat) : Laws.Fits.Statement (.doorbell q p) :=
  fits_none rfl
theorem Laws.Fits.queueBind : Laws.Fits.Statement (.queueBind) :=
  fits_none rfl
theorem Laws.Fits.queueUnbind (slot : Nat) : Laws.Fits.Statement (.queueUnbind slot) :=
  fits_none rfl
theorem Laws.Fits.dispatchHead (q : Nat) : Laws.Fits.Statement (.dispatchHead q) :=
  fits_none rfl
theorem Laws.Fits.dependenceReread (t : Nat) : Laws.Fits.Statement (.dependenceReread t) :=
  fits_none rfl
theorem Laws.Fits.agingTick (t : Nat) : Laws.Fits.Statement (.agingTick t) :=
  fits_none rfl
theorem Laws.Fits.taskStart (t : Nat) (pick : List Nat) : Laws.Fits.Statement (.taskStart t pick) :=
  fits_none rfl
theorem Laws.Fits.hartGrant (t : Nat) (pick : List Nat) : Laws.Fits.Statement (.hartGrant t pick) :=
  fits_none rfl
theorem Laws.Fits.preemptionRequest (t : Nat) : Laws.Fits.Statement (.preemptionRequest t) :=
  fits_none rfl
theorem Laws.Fits.sliceExpiry (t : Nat) (waiter : Nat) : Laws.Fits.Statement (.sliceExpiry t waiter) :=
  fits_none rfl
theorem Laws.Fits.hartHalt (h : Nat) : Laws.Fits.Statement (.hartHalt h) :=
  fits_none rfl
theorem Laws.Fits.hartSaved (h : Nat) : Laws.Fits.Statement (.hartSaved h) :=
  fits_none rfl
theorem Laws.Fits.hartResume (h : Nat) : Laws.Fits.Statement (.hartResume h) :=
  fits_none rfl
theorem Laws.Fits.barrierPhase (t : Nat) : Laws.Fits.Statement (.barrierPhase t) :=
  fits_none rfl
theorem Laws.Fits.collectiveJoin (t stack : Nat) : Laws.Fits.Statement (.collectiveJoin t stack) :=
  fits_none rfl
theorem Laws.Fits.collectiveTransport (h g : Nat) : Laws.Fits.Statement (.collectiveTransport h g) :=
  fits_none rfl
theorem Laws.Fits.tldTransfer (h : Nat) : Laws.Fits.Statement (.tldTransfer h) :=
  fits_none rfl
theorem Laws.Fits.streamFetch (h n : Nat) : Laws.Fits.Statement (.streamFetch h n) :=
  fits_none rfl
theorem Laws.Fits.waitevWake (h : Nat) : Laws.Fits.Statement (.waitevWake h) :=
  fits_none rfl
theorem Laws.Fits.waitevTimeout (h : Nat) : Laws.Fits.Statement (.waitevTimeout h) :=
  fits_none rfl
theorem Laws.Fits.shootdown (root : Nat) (vpages : List Nat) : Laws.Fits.Statement (.shootdown root vpages) :=
  fits_none rfl
theorem Laws.Fits.rowWindowReload (c t vpage : Nat) (leaf : BitVec 64) : Laws.Fits.Statement (.rowWindowReload c t vpage leaf) :=
  fits_none rfl
theorem Laws.Fits.rowWindowTimeout (h : Nat) : Laws.Fits.Statement (.rowWindowTimeout h) :=
  fits_none rfl
theorem Laws.Fits.remoteResponse (id : Nat) (data : Option Nat) : Laws.Fits.Statement (.remoteResponse id data) :=
  fits_none rfl
theorem Laws.Fits.remoteTimeout (id : Nat) : Laws.Fits.Statement (.remoteTimeout id) :=
  fits_none rfl
theorem Laws.Fits.scaleupPortFailure (port : Nat) : Laws.Fits.Statement (.scaleupPortFailure port) :=
  fits_none rfl
theorem Laws.Fits.refreshInterval (c : Nat) : Laws.Fits.Statement (.refreshInterval c) :=
  fits_none rfl
theorem Laws.Fits.laneRetirement (c cluster : Nat) : Laws.Fits.Statement (.laneRetirement c cluster) :=
  fits_none rfl
theorem Laws.Fits.remapUpdate (c way spare row : Nat) : Laws.Fits.Statement (.remapUpdate c way spare row) :=
  fits_none rfl
theorem Laws.Fits.arrayRatioChange (stack : Nat) (ratio : ArrayRatio) : Laws.Fits.Statement (.arrayRatioChange stack ratio) :=
  fits_none rfl
theorem Laws.Fits.budgetRecompute : Laws.Fits.Statement (.budgetRecompute) :=
  fits_none rfl
theorem Laws.Fits.monitorReading (temps : List (List Nat)) (lowRows okRows : List (Nat × Nat)) : Laws.Fits.Statement (.monitorReading temps lowRows okRows) :=
  fits_none rfl
theorem Laws.Fits.powerOn : Laws.Fits.Statement (.powerOn) :=
  fits_none rfl
theorem Laws.Fits.powerRemoval : Laws.Fits.Statement (.powerRemoval) :=
  fits_none rfl
theorem Laws.Fits.rdmaWrite (qp : HostQp) (rkey va : Nat) (data : List (BitVec 8)) : Laws.Fits.Statement (.rdmaWrite qp rkey va data) :=
  fits_none rfl
theorem Laws.Fits.rdmaRead (qp : HostQp) (rkey va n : Nat) : Laws.Fits.Statement (.rdmaRead qp rkey va n) :=
  fits_none rfl
theorem Laws.Fits.fetchAndAdd (qp : HostQp) (rkey va : Nat) (v : BitVec 64) : Laws.Fits.Statement (.fetchAndAdd qp rkey va v) :=
  fits_none rfl
theorem Laws.Fits.cmpAndSwap (qp : HostQp) (rkey va : Nat) (cmp swap : BitVec 64) : Laws.Fits.Statement (.cmpAndSwap qp rkey va cmp swap) :=
  fits_none rfl
theorem Laws.Fits.unsupportedOperation (qp : HostQp) (opcode : Nat) : Laws.Fits.Statement (.unsupportedOperation qp opcode) :=
  fits_none rfl
theorem Laws.Fits.attestationRequest (port : Nat) (nonce : List (BitVec 8)) (part : Nat) : Laws.Fits.Statement (.attestationRequest port nonce part) :=
  fits_none rfl
theorem Laws.Fits.keyEncapsulation (port part : Nat) (ct : List (BitVec 8)) : Laws.Fits.Statement (.keyEncapsulation port part ct) :=
  fits_none rfl
theorem Laws.Fits.modcapWrite (v : BitVec 16) : Laws.Fits.Statement (.modcapWrite v) :=
  fits_none rfl
theorem Laws.Fits.registerWrite (who : Agent) (addr : Nat) (v : BitVec 64) : Laws.Fits.Statement (.registerWrite who addr v) :=
  fits_none rfl
theorem Laws.Fits.incomingRemoteAccess (pa : Nat) (n : Nat) (data : Option PeerWrite) : Laws.Fits.Statement (.incomingRemoteAccess pa n data) :=
  fits_none rfl
theorem Laws.Fits.partitionCreation (part : Nat) (confidential : Bool) (regions : List MemRegion) : Laws.Fits.Statement (.partitionCreation part confidential regions) :=
  fits_none rfl
theorem Laws.Fits.scalarRetire (h : Nat) : Laws.Fits.Statement (.scalarRetire h) :=
  fits_none rfl
theorem Laws.Fits.elementWritePerform (h n : Nat) : Laws.Fits.Statement (.elementWritePerform h n) :=
  fits_none rfl

end Sys2Proof
end

