-- ==== Sys2Proof/Laws/Issue.lean ====
section
/-! SUPPORT. Laws/Issue.lean: what fetch, issue, the shared checks, retirement and the shared vector conditions answer. -/

namespace Sys2Proof.Machine

/-! ## Checks -/

theorem need_true {b : Bool} (h : b = true) (cause : Cause) (info : Word) (c : Ctx) : need b cause info c = .ok () := by
  simp [need, h]

theorem need_false {b : Bool} (h : b = false) (cause : Cause) (info : Word) (c : Ctx) :
    need b cause info c = .error (.trap cause info c) := by
  simp [need, h]

theorem legal_true {b : Bool} (h : b = true) (c : Ctx) : legal b c = .ok () := need_true h ..
theorem tagsOk_true {b : Bool} (h : b = true) (c : Ctx) : tagsOk b c = .ok () := need_true h ..

theorem ok_bind {α β : Type} (a : α) (f : α → Except Stop β) : (Except.ok a >>= f) = f a := rfl
theorem error_bind {α β : Type} (e : Stop) (f : α → Except Stop β) : (Except.error e >>= f) = .error e := rfl

/-- A meaning goes on past a check that passes. -/
theorem bind_ok {α β : Type} {x : Except Stop α} {f : α → Except Stop β} {a : α} {r : Except Stop β} (hx : x = .ok a)
    (hf : f a = r) : (x >>= f) = r := by rw [hx]; exact hf

/-- Without a debug block no waypoint matches. -/
theorem applyWaypoints_none (c : Ctx) (hit : Nat × Nat → Bool) (h : c.h.dbg = none) : applyWaypoints c hit = .ok c := by
  simp [applyWaypoints, h]

theorem dataWaypoints_none (c : Ctx) (r w : List (Nat × Nat)) (h : c.h.dbg = none) : dataWaypoints c r w = .ok c :=
  applyWaypoints_none _ _ h

/-- A film that is off passes an instruction through. -/
theorem filmGate_off (c : Ctx) (k : Nat) (h : c.h.filmMode = 0) : filmGate c k = .ok (.pass, c) := by
  simp [filmGate, h]

theorem filmed_off (k : Nat) (c : Ctx) (run : Ctx → Except Stop (FilmVal × Ctx)) (rep : Ctx → FilmVal → Ctx)
    (res : FilmVal → Ctx → Ctx) (h : c.h.filmMode = 0) :
    filmed k c run rep res = run c >>= fun p => .ok (res p.1 p.2) := by
  simp only [filmed, filmGate_off c k h, ok_bind]

/-- A digest that is not filmed, or with the film off, asks nothing of the film. -/
theorem digestGate_off (k : Nat) (b : Bool) (c : Ctx) (h : b = false ∨ c.h.filmMode = 0) :
    digestGate k b c = .ok (if b then some .pass else none, c) := by
  rcases h with rfl | h
  · rfl
  · cases b with
    | false => rfl
    | true =>
      simp only [digestGate, Bool.not_true, Bool.false_eq_true, if_false, if_true]
      rw [if_neg (by rw [h]; decide), filmGate_off c k h]
      rfl

/-- Nor does it leave anything there. -/
theorem filmedDigest_off (k : Nat) (b : Bool) (c : Ctx) (ws : List LaneWord) (h : b = false ∨ c.h.filmMode = 0) :
    filmedDigest k c (if b then some .pass else none) ws = .ok c := by
  rcases h with rfl | h
  · rfl
  · cases b with
    | false => rfl
    | true =>
      show (if c.h.filmMode = 3 ∧ _ then _ else _) = _
      rw [if_neg (fun x => by rw [h] at x; exact absurd x.1 (by decide))]

theorem filmedNow_off (k : Nat) (c : Ctx) (ws : List LaneWord) (h : c.h.filmMode = 0) : filmedNow k c ws = .ok c :=
  bind_ok (digestGate_off k true c (.inr h)) (filmedDigest_off k true c ws (.inr h))

/-! ## Steps -/

theorem decodeList_bytes (b0 b1 b2 b3 : Byte) : decodeList [b0, b1, b2, b3] = (decodeBytes b0 b1 b2 b3).toOption := by
  simp only [decodeList]

/-- A step of the hart picked. -/
theorem step_picked (s : State) (id : Nat) (h : Hart) (hp : s.powered = true) (hs : s.stage = 15) (hc : s.cur = some id)
    (hh : s.hart? id = some h) : step s = runHart s id h := by
  unfold step
  rw [if_pos (by rw [hp, hs]; rfl), hc]
  simp only [hh]

/-- A word that may be next is the copied one, or what memory now holds in its place (R70). -/
theorem mem_nextWords {s : State} {h : Hart} {w : List Byte} (hw : w ∈ nextWords s h) : fetchWord s h = some w ∨ storedWord s h = some w := by
  unfold nextWords at hw
  split at hw
  · cases hw
  · rename_i e1 _ e3
    split at hw
    · rw [List.mem_singleton] at hw; subst hw; exact .inl e1
    · rw [List.mem_cons, List.mem_singleton] at hw
      rcases hw with rfl | rfl
      · exact .inl e1
      · exact .inr e3
  · rename_i e _
    rw [List.mem_singleton] at hw; subst hw; exact .inl e

/-- A fetch gives a word that may be next, and changes only the count of free values. -/
theorem fetch_cases {s s' : State} {h : Hart} {w : List Byte} (hf : fetch s h = (s', some w)) :
    { s' with free := s.free } = s ∧ (fetchWord s h = some w ∨ storedWord s h = some w) := by
  have key := @mem_nextWords s h w
  unfold fetch at hf
  split at hf
  · cases hf
  · rename_i e; cases hf; exact ⟨rfl, key (by rw [e]; simp)⟩
  · rename_i e
    cases hf
    refine ⟨rfl, key ?_⟩
    rw [e]
    split <;> simp

/-- When no asynchronous cause is due (R302). -/
theorem dueAsync_none (s : State) (id : Nat) (h : Hart) : dueAsync s id h = none ↔
    h.pendLane = false ∧ (h.inh = true ∨ (h.pendAlert = [] ∧ h.pendRef = [] ∧ h.pendFilm = false)) := by
  unfold dueAsync
  cases h.pendLane <;> cases h.inh <;> cases h.pendAlert <;> cases h.pendRef <;> cases h.pendFilm <;> simp

/-- Whether a cause is due does not rest on the sequencer's account (R293, R302). -/
theorem deliverDue_unpick {s : State} {id : Nat} {h : Hart} (hd : deliverDue s id h = none) :
    deliverDue (unpick s id h) id { h with idle := h.idleWas } = none := by
  show (if !allRetired s id h ∨ h.wait ≠ .none ∨ h.leaving then none else (dueAsync _ _ _).map _) = none
  unfold deliverDue at hd
  split at hd
  · rename_i hx
    exact if_pos hx
  · rename_i hx
    rw [if_neg hx]
    rw [Option.map_eq_none_iff, dueAsync_none] at hd ⊢
    exact hd

/-- At its boundary, with no delivery due, a hart runs the word it fetches. -/
theorem runHart_fetched {s s' : State} {id : Nat} {h : Hart} {bytes : List Byte} (hq : h.atHead = false) (ha : atBoundary s id h = true)
    (hd : deliverDue s id h = none) (hf : fetch s h = (s', some bytes)) :
    runHart s id h = match decodeList bytes with
      | some i => exec i s'
      | none =>
        .next (illegalWord s' id h (BitVec.ofNat 64 (ofBytes bytes)) (fun p => waypointMatches p h.pc.toNat (ofBytes bytes / 2 ^ 26))) := by
  unfold runHart
  rw [deliverDue_unpick hd, ha, hq, hf]
  rfl

/-- A word that decodes runs its instruction. -/
theorem runHart_word {s s' : State} {id : Nat} {h : Hart} {bytes : List Byte} {i : Instr} (hq : h.atHead = false)
    (ha : atBoundary s id h = true) (hd : deliverDue s id h = none) (hf : fetch s h = (s', some bytes)) (hw : decodeList bytes = some i) :
    runHart s id h = exec i s' := by
  rw [runHart_fetched hq ha hd hf, hw]

/-- Without a debug block an unlisted word is only the trap (R139), once every earlier instruction has retired (R301). -/
theorem illegalWord_quiet {s : State} {id : Nat} {h : Hart} (w : Word) (hit : Nat × Nat → Bool) (hg : h.dbg = none) :
    illegalWord s id h w hit = trapped s id h (startCtx s id h w) .illegal w := by
  unfold illegalWord trapped
  rw [applyWaypoints_none (startCtx s id h w) hit hg]
  cases h.caughtUp <;> rfl

/-- A word that decodes to no instruction raises `ILLEGAL` (R139). -/
theorem runHart_undecoded {s s' : State} {id : Nat} {h : Hart} {bytes : List Byte} (hq : h.atHead = false)
    (ha : atBoundary s id h = true) (hd : deliverDue s id h = none) (hf : fetch s h = (s', some bytes)) (hw : decodeList bytes = none)
    (hg : h.dbg = none) :
    runHart s id h = .next (trapped s' id h (startCtx s' id h (BitVec.ofNat 64 (ofBytes bytes))) .illegal (BitVec.ofNat 64 (ofBytes bytes))) := by
  rw [runHart_fetched hq ha hd hf, hw]
  dsimp only
  rw [illegalWord_quiet _ _ hg]

/-- Draining the stores that meet some addresses leaves the hart's number. -/
theorem drainMeeting_id (c : Ctx) (pas : List Nat) : (c.drainMeeting pas).id = c.id := by
  unfold Ctx.drainMeeting Ctx.drainSeqs
  dsimp only
  split <;> rfl

/-! ## Issue -/

/-- An instruction that issues runs its own meaning, at the hart's pc. -/
theorem issue_runs {s : State} {id : Nat} {h : Hart} {i : Instr} (hi : Issues s id h i) (m : Meaning) :
    issue i s m = .next (runNow i s id h m) ∧ runInstr i m (begun s id h i) = m (begun s id h i) := by
  have hp : pairing i (begun s id h i) = .ok () := by
    unfold pairing
    cases hg : h.pfx with
    | none => simp [begun, startCtx, hg]
    | some p =>
      obtain ⟨h1, h2⟩ := hi.paired p hg
      simp only [begun, startCtx, hg, h1, h2]
      exact legal_true (by simp) _
  have hw : ∀ hit, applyWaypoints (begun s id h i) hit = .ok (begun s id h i) :=
    fun hit => applyWaypoints_none _ _ hi.noDebug
  refine ⟨?_, by simp only [runInstr, hw, ok_bind, hp]⟩
  have hs : h.stepping = false := by simp [Hart.stepping, hi.noDebug]
  simp only [issue, hi.cur, hi.hart, hi.notHead, hi.noWaiting, hs]
  rfl

/-- Without a debug block nothing is recorded at retirement. -/
theorem records_quiet (i : Instr) (h : Hart) (c : Ctx) (hd : h.dbg = none) : records i h c = false := by simp [records, hd]

/-- Its meaning completes: it retires. -/
theorem issue_ok {s : State} {id : Nat} {h : Hart} {i : Instr} (hi : Issues s id h i) {m : Meaning} {c : Ctx}
    (hm : m (begun s id h i) = .ok c) : issue i s m = .next (retire i h c) := by
  obtain ⟨h1, h2⟩ := issue_runs hi m
  rw [h1]
  unfold runNow
  rw [show runInstr i m (startCtx s id h i.word) = .ok c from h2.trans hm]
  dsimp only
  rw [records_quiet i h c hi.noDebug, Bool.and_false]
  rfl

/-- Its meaning traps, in the context with which it began: so does it, once every earlier instruction has retired. -/
theorem issue_trap {s : State} {id : Nat} {h : Hart} {i : Instr} (hi : Issues s id h i) {m : Meaning} {cause : Cause}
    {info : Word} {c : Ctx} (hm : m (begun s id h i) = .error (.trap cause info c)) (hc : c.id = id) :
    issue i s m = .next (trapped s id h c cause info) := by
  obtain ⟨h1, h2⟩ := issue_runs hi m
  rw [h1]
  unfold runNow trapped
  rw [show runInstr i m (startCtx s id h i.word) = .error (.trap cause info c) from h2.trans hm]
  dsimp only
  rw [← hc]
  rfl

/-- Its meaning waits for something that is no access: it has not issued. -/
theorem issue_wait {s : State} {id : Nat} {h : Hart} {i : Instr} (hi : Issues s id h i) {m : Meaning} {w : Wait}
    {c : Ctx} (hm : m (begun s id h i) = .error (.wait w c)) (hw : w ≠ .access) :
    issue i s m = .next { notIssued c.s c.id { c.h with pfx := h.pfx } w with cur := none } := by
  obtain ⟨h1, h2⟩ := issue_runs hi m
  rw [h1]
  unfold runNow
  rw [show runInstr i m (startCtx s id h i.word) = .error (.wait w c) from h2.trans hm]
  cases w <;> first | rfl | exact absurd rfl hw

/-- Its meaning waits for an access, and the vector queue cannot take it: it waits at its pc (R220, R301). -/
theorem issue_held {s : State} {id : Nat} {h : Hart} {i : Instr} (hi : Issues s id h i) {m : Meaning} {c : Ctx}
    (hm : m (begun s id h i) = .error (.wait .access c)) (hc : h.caughtUp = false) (hq : queueable h i = false) :
    issue i s m = .next (holdBack s id h) := by
  obtain ⟨h1, h2⟩ := issue_runs hi m
  rw [h1]
  unfold runNow tryQueue
  rw [show runInstr i m (startCtx s id h i.word) = .error (.wait .access c) from h2.trans hm]
  simp only [hc, hq]
  rfl

/-! ## Which instructions retire apart -/

/-- The integer, predicate and scalar floating instructions are of majors below 0x14 (R137). -/
theorem scalar_major {i : Instr} {h : Hart}
    (hi : (intResult i h).isSome = true ∨ (predResult i h).isSome = true ∨ (floatResult i h).isSome = true) :
    ∃ m, i.major = some m ∧ m < 0x14 := by
  have key : ∀ {n a l}, encode i = some (wordOf n l) → l.sum ≤ a → n % 2 ^ 26 + a < 2 ^ 26 ∧ n / 2 ^ 26 < 20 →
      ∃ m, i.major = some m ∧ m < 0x14 := fun h1 h2 h3 => ⟨_, major_of h1 h2 h3.1, h3.2⟩
  rcases hi with hi | hi | hi <;> cases i <;>
    simp only [intResult, predResult, floatResult, Option.isSome_none, Bool.false_eq_true] at hi <;>
    first
    | exact key rfl (cons_sum_le (putAt_le ..) (cons_sum_le (putAt_le ..) nil_sum_le)) (by decide)
    | exact key rfl (cons_sum_le (putAt_le ..) (cons_sum_le (putAt_le ..) (cons_sum_le (putAt_le ..) nil_sum_le))) (by decide)
    | exact key rfl (cons_sum_le (putAt_le ..) (cons_sum_le (putAt_le ..) (cons_sum_le (putAt_le ..)
        (cons_sum_le (putAt_le ..) nil_sum_le)))) (by decide)
    | exact key rfl (cons_sum_le (putAt_le ..) (cons_sum_le (putAt_le ..) (cons_sum_le (putAt_le ..)
        (cons_sum_le (putAt_le ..) (cons_sum_le (putAt_le ..) nil_sum_le))))) (by decide)

/-- The major of an encoding whose fields stay below it. -/
theorem major_fixed {i : Instr} {n a m : Nat} {l : List Nat} (h1 : encode i = some (wordOf n l)) (h2 : l.sum ≤ a)
    (h3 : n % 2 ^ 26 + a < 2 ^ 26) (h4 : n / 2 ^ 26 = m) : i.major = some m := (major_of h1 h2 h3).trans (congrArg some h4)

/-- `SRD` and `SWR` are of major 0x17 (R171). -/
theorem srd_major (d : XReg) (r : BitVec 12) : (Instr.srd d r).major = some 0x17 :=
  major_fixed rfl (cons_sum_le (putAt_le ..) (cons_sum_le (putAt_le ..) nil_sum_le)) (by decide) (by decide)

theorem swr_major (a : XReg) (r : BitVec 12) : (Instr.swr a r).major = some 0x17 :=
  major_fixed rfl (cons_sum_le (putAt_le ..) (cons_sum_le (putAt_le ..) nil_sum_le)) (by decide) (by decide)

/-- An instruction of a major below 0x14, or of 0x17, retires in the step that executes it. -/
theorem retiresApart_low {i : Instr} {m : Nat} (hm : i.major = some m) (hl : m < 0x14 ∨ m = 0x17) : retiresApart i = none := by
  have : ∀ _ : Nat, (match (some m : Option Nat) with
    | some m =>
      if m = 0x14 then some Apart.load
      else if m = 0x16 ∨ m = 0x3C then some .sent
      else if (0x18 ≤ m ∧ m ≤ 0x2C) ∨ m = 0x2F ∨ m = 0x30 ∨ m = 0x34 ∨ m = 0x38 then some .vector
      else none
    | none => none) = none := by
    intro _
    simp only
    rw [if_neg (by omega), if_neg (by omega), if_neg (by omega)]
  rw [← hm] at this
  cases i <;> first | exact this 0 | rfl

/-! ## Conditions of vector instructions -/

theorem vecLegal_ok (c : Ctx) (rs : List VNum) (d : Option VNum) (h : c.declared rs = true) (g : c.copyOk d = true) :
    vecLegal c rs d = .ok () := legal_true (by simp [h, g]) c

theorem needOpen_ok (c : Ctx) (v : VNum) (js : List Nat) (h : Opened c.h v js) : needOpen c v js = .ok () :=
  need_true (by simpa [List.all_eq_true, Opened] using h) ..

theorem copyTag_ok (c : Ctx) (d : VNum) (wg : Nat) (h : CopyReady c d wg) : copyTag c d = .ok () := by
  unfold copyTag
  split
  · exact tagsOk_true (by simpa using (h.2 _ ‹_›).1) c
  · rfl

theorem released_ok (c : Ctx) (v : VNum) (h : Released c.h v) : released c v = .ok () := by
  obtain ⟨h1, h2⟩ := h
  have a : c.h.transport.any (fun t => t.vd == v || t.va == v) = false := by
    cases ht : c.h.transport with
    | none => rfl
    | some t => have := h1 t ht; simp [this.1, this.2]
  have b : c.h.tileLoad.any (fun t => t.src == v) = false := by
    cases ht : c.h.tileLoad with
    | none => rfl
    | some t => simp [h2 t ht]
  simp only [released, a, b]
  rfl

theorem settled_ok (c : Ctx) (v : VNum) (h : Settled c.h v) : settled c v = .ok () := by
  unfold settled
  rw [h.1]
  exact released_ok c v h.2

theorem notStrip_ok (c : Ctx) (v : VNum) (h : ∀ e ∈ c.h.chans, e.2.dest ≠ v) : notStrip c v = .ok () := by
  have d : c.h.chans.find? (fun e => e.2.dest == v) = none := by
    rw [List.find?_eq_none]
    intro e he
    simp [h e he]
  simp only [notStrip, d]

theorem writable_ok (c : Ctx) (v : VNum) (h : Idle c.h v) : writable c v = .ok () :=
  bind_ok (settled_ok c v h.1) (notStrip_ok c v h.2)

theorem changeable_ok (c : Ctx) (v : VNum) (h : Changeable c.h v) : changeable c v = .ok () :=
  bind_ok (released_ok c v h.1) (notStrip_ok c v h.2)

theorem Idle.changeable {h : Hart} {v : VNum} (g : Idle h v) : Changeable h v := ⟨g.1.2, g.2⟩

/-- A check of every element of a list succeeds when each does. -/
theorem forM_ok {α : Type} (f : α → Except Stop Unit) (l : List α) (h : ∀ x ∈ l, f x = .ok ()) : l.forM f = .ok () := by
  induction l with
  | nil => rfl
  | cons x l ih =>
    change (f x >>= fun _ => l.forM f) = _
    rw [h x (by simp), ok_bind]
    exact ih fun y hy => h y (by simp [hy])

theorem needCopy_ok (c : Ctx) (d : VNum) (wg : Nat) (h : CopyReady c d wg) : needCopy c d wg = .ok () := by
  unfold needCopy
  split
  · obtain ⟨-, h2, h3, h4⟩ := h.2 _ ‹_›
    simp only [writable_ok c _ h2, needOpen_ok c _ _ h3, needOpen_ok c _ _ h4, ok_bind]
  · rfl

theorem afterAll_ok (c : Ctx) (h : c.h.caughtUp = true) : afterAll c = .ok () := if_pos h

theorem arrived_ok (c : Ctx) (v : VNum) (es : List Nat) (h : Brought c.h v es) : arrived c v es = .ok () := by
  obtain ⟨h1, h2⟩ := h
  have a : c.h.transport.any (fun t => t.vd == v &&
      es.any (fun e => (find? t.items (elemWord (c.h.getV v).tag.width e)).isSome)) = false := by
    cases ht : c.h.transport with
    | none => rfl
    | some t =>
      by_cases hv : t.vd = v
      · have := h1 t ht hv
        simp only [Option.any_some, Bool.and_eq_false_iff]
        right
        rw [List.any_eq_false]
        intro e he
        simp [this e he]
      · simp [hv]
  simp only [arrived, a, Bool.false_eq_true, if_false]
  refine forM_ok _ _ fun e he => ?_
  rw [List.mem_filter] at he
  have g := h2 e he.1 (by simpa using he.2)
  unfold stripOk
  have hf : e.2.fault.filter (fun f => es.any (fun p => decide (f.1 ≤ e.2.k * e.2.strip + p))) = none := by
    rw [Option.filter_eq_none_iff]
    intro f hf hx
    obtain ⟨p, hp, hq⟩ := List.any_eq_true.1 hx
    have := (g p hp).2 f hf
    simp only [decide_eq_true_eq] at hq
    omega
  have hb : es.any (fun p => decide (e.2.k * e.2.strip + p < min (e.2.k * e.2.strip + e.2.strip) e.2.total ∧
      e.2.m ≤ e.2.k * e.2.strip + p)) = false := by
    rw [List.any_eq_false]
    intro p hp
    have := (g p hp).1
    simp only [decide_eq_true_eq]
    omega
  simp only [hf, hb]
  rfl

theorem readable_ok (c : Ctx) (v : VNum) (es : List Nat) (h : Arrived c.h v es) : readable c v es = .ok () := by
  unfold readable
  rw [show c.h.awaits v = false from h.1]
  exact arrived_ok c v es h.2

theorem readableScales_ok (c : Ctx) (r : VReg) (js : List Nat) (h : ScalesReady c.h r js) : readableScales c r js = .ok () := by
  unfold readableScales onScales
  split
  · exact readable_ok c _ _ (h ‹_›).1
  · rfl

theorem readableOp_ok (c : Ctx) (o : Operand) (es : List Nat) (h : OperandReady c.h o es) : readableOp c o es = .ok () := by
  cases o with
  | reg v r =>
    show (readable c v es >>= fun _ => readableScales c r _) = _
    rw [readable_ok c v es h.1, ok_bind]
    exact readableScales_ok c r _ h.2.2
  | scalar t w => rfl

theorem arrivedOp_ok (c : Ctx) (v : VNum) (es : List Nat) (h : OperandBrought c.h v es) : arrivedOp c (c.reg v) es = .ok () := by
  refine bind_ok (arrived_ok c v es h.1) ?_
  unfold onScales
  split
  · exact arrived_ok c _ _ (h.2.2 ‹_›).1
  · rfl

theorem needElems_ok (c : Ctx) (o : Operand) (es : List Nat) (h : OperandReady c.h o es) : needElems c o es = .ok () := by
  cases o with
  | reg v r =>
    obtain ⟨-, h1, h2⟩ := h
    simp only [needElems, needOpen_ok c v _ h1, ok_bind]
    split
    · exact needOpen_ok c _ _ (h2 ‹_›).2
    · rfl
  | scalar t w => rfl

/-- Without a residue mismatch the accumulation path goes on (R232). -/
theorem residueOk_none (c : Ctx) (h : c.h.residue = none) : residueOk c = .ok () := by simp [residueOk, h]

theorem notAtLoopEnd_ok (c : Ctx) (h : OffLoopEnd c.h) : notAtLoopEnd c = .ok () := by
  unfold notAtLoopEnd
  apply legal_true
  split
  · rename_i e rest he
    simpa using h e rest he
  · rfl

/-! ## Retirement -/

/-- With CTL 0 no frame is written. -/
theorem writeFrame_off (s : State) (h : Hart) (k : Nat) (pc : Word) (aux : Nat) (hc : h.ctl = 0) :
    writeFrame s h k pc aux = (s, h) := by
  unfold writeFrame
  rw [if_pos (by rw [hc]; rfl)]

theorem countVector_off (h : Hart) (hc : h.ctl = 0) : countVector h = { h with expo := h.expo + 1 } := by
  unfold countVector
  have : h.ctl.getLsbD 3 = false := by rw [hc]; rfl
  simp only [this, Bool.false_and, Bool.false_eq_true, if_false]

theorem moveOn_quiet (h : Hart) (i : Instr) (pc : Word) (loops : List LoopEntry) (hc : h.ctl = 0) :
    h.moveOn i pc loops = h.after i (pc, loops) := by
  have hb : i.major.any isVectorMajor = (i.major.map isVectorMajor).getD false := by cases i.major <;> rfl
  unfold Hart.moveOn Hart.after
  rw [hb]
  dsimp only
  split
  · exact countVector_off _ hc
  · rfl

theorem endRetire_quiet (i : Instr) (h0 : Hart) (id : Nat) (s : State) (h : Hart) (hc : h.ctl = 0) :
    endRetire i h0 id [] s h = settleHart i h0 s id h := by
  have h9 : ¬(h.ctl.getLsbD 9 = true) := by rw [hc]; decide
  show (if h.ctl.getLsbD 9 ∧ _ then _ else _) = _
  rw [if_neg (fun x => h9 x.1)]

/-- An instruction of a scalar major is never past: it retires in its turn. -/
theorem outruns_low {i : Instr} {m : Nat} (hm : i.major = some m) (hl : isVectorMajor m = false) (h0 : Hart) (c : Ctx) :
    outruns i h0 c = false := by simp [outruns, hm, hl]

/-- Without debug nothing is written at retirement (R329, R330). -/
theorem applyTodo_off (s : State) (h : Hart) (pc : Word) (todo : List AtRetire) (hc : h.ctl = 0) : applyTodo s h pc todo = (s, h) := by
  have h3 : h.ctl.getLsbD 3 = false := by rw [hc]; decide
  unfold applyTodo
  induction todo with
  | nil => rfl
  | cons e l ih =>
    rw [List.foldl_cons]
    cases e with
    | frame k a => exact (congrArg (fun x => List.foldl _ x l) (writeFrame_off s h k pc a hc)).trans ih
    | sample a b d e f g =>
      have : (h.ctl.getLsbD 3 && h.sampleDue) = false := by rw [h3]; rfl
      simp only [this, Bool.false_eq_true, if_false]
      exact ih
    | swTrap w => exact ih

/-- The retirement of an instruction that its hart does not go past, without debug: its results, the next pc and the counts (R159, R172). -/
theorem retire_off (i : Instr) (h0 : Hart) (c : Ctx) (hc : c.h.ctl = 0) (ho : outruns i h0 c = false) :
    retire i h0 c = endRetire i h0 c.id c.todo { c.s with cur := none }
      (c.h.after i (if c.taken then (c.npc, c.h.loops) else ((loopNext c.h).1, (loopNext c.h).2.1))) := by
  unfold retire
  simp only [ho, applyTodo_off _ _ _ _ hc, Bool.false_eq_true, if_false]
  rw [moveOn_quiet _ _ _ _ hc]
  cases c.taken <;> rfl

/-- Without debug an instruction that leaves nothing for its retirement retires to its results, the next pc and the counts (R159, R172). -/
theorem retire_quiet (i : Instr) (h0 : Hart) (c : Ctx) (hc : c.h.ctl = 0) (ht : c.todo = []) (ho : outruns i h0 c = false) :
    retire i h0 c = settleHart i h0 { c.s with cur := none } c.id
      (c.h.after i (if c.taken then (c.npc, c.h.loops) else ((loopNext c.h).1, (loopNext c.h).2.1))) := by
  rw [retire_off i h0 c hc ho, ht]
  exact endRetire_quiet _ _ _ _ _ hc

/-- Without debug an instruction whose result is not held apart, that its hart does not go past and that neither transfers nor traps,
completes in a next state: its hart holds its results, and moves on. -/
theorem completes_quiet {i : Instr} {s : State} {h : Hart} {c : Ctx} (he : Completes i s h c) (hc : c.h.ctl = 0)
    (ht : swTrapOf c.todo = none) (hk : c.taken = false) (ha : retiresApart i = none) (ho : outruns i h c = false) :
    exec i s = .next ({ c.s with cur := none }.setHart c.id (c.h.after i ((loopNext c.h).1, (loopNext c.h).2.1))) := by
  have h9 : ¬(c.h.ctl.getLsbD 9 = true) := by rw [hc]; decide
  rw [Completes] at he
  rw [he, retire_off i h c hc ho, hk]
  unfold endRetire
  rw [ht]
  dsimp only
  rw [if_neg (fun x => h9 x.1)]
  unfold settleHart
  rw [ha]
  rfl

/-- Without debug an instruction that traps at its retirement retires and then delivers the trap (R159). -/
theorem retire_swTrap (i : Instr) (h0 : Hart) (c : Ctx) (w : Word) (hc : c.h.ctl = 0) (hk : c.taken = false) (ht : c.todo = [.swTrap w])
    (ho : outruns i h0 c = false) :
    retire i h0 c = deliver { c.s with cur := none } c.id (c.h.after i ((loopNext c.h).1, (loopNext c.h).2.1)) .swTrap (loopNext c.h).1 w := by
  rw [retire_off i h0 c hc ho, ht, hk]
  rfl

end Sys2Proof.Machine
end

