-- ==== Sys2Proof/Laws/Vector.lean ====
section
/-! SUPPORT. Laws/Vector.lean: what the operations that vector, tile, queue and memory instructions share answer where their conditions hold. -/

namespace Sys2Proof.Machine

/-- Nothing is found where nothing satisfies the test. -/
theorem find_none {α : Type} (l : List α) (p : α → Bool) (h : ∀ e ∈ l, p e = false) : l.find? p = none := by
  rw [List.find?_eq_none]; intro e he; simp [h e he]

/-- The poison check passes where no listed element is poisoned. -/
theorem noPoison_ok (c : Ctx) (w : Nat) (l : List Nat) (f : Nat → Bool) (h : ∀ e ∈ l, f e = false) : noPoison c w l f = .ok () := by
  have : l.find? f = none := by
    rw [List.find?_eq_none]; intro e he; simp [h e he]
  simp [noPoison, this]

/-- The check for bad pieces passes where none is bad. -/
theorem needGood_ok (c : Ctx) (pa n : Nat) (w : Word) (h : badBytes c.s pa n = false) : needGood c pa n w = .ok () := by
  simp [needGood, h]

/-- Translation leaves the hart as it is. -/
theorem placeGeneric_h {c : Ctx} {va : Word} {n : Nat} {w : Want} {p c'} (h : placeGeneric c va n w = .ok (p, c')) : c'.h = c.h ∧ c'.id = c.id := by
  unfold placeGeneric at h
  split at h
  · cases h
  · split at h
    · cases h
    · split at h
      · cases h
      · cases h; exact ⟨rfl, rfl⟩

/-- Finding a queue block leaves the hart as it is. -/
theorem blockAt_h {c : Ctx} {va : Word} {p c'} (h : blockAt c va = .ok (p, c')) : c'.h = c.h ∧ c'.id = c.id := by
  unfold blockAt at h
  cases hp : placeGeneric c va 64 ⟨true, true, false⟩ with
  | error e => rw [hp] at h; cases h
  | ok x => 
    obtain ⟨p, c2⟩ := x
    rw [hp] at h; cases h; exact placeGeneric_h hp

/-- The tag check of an address form passes. -/
theorem indexTag_ok (c : Ctx) (f : VForm) (w : Nat) (act : List Nat) (h : IndexReady c f w act) : indexTag c f w = .ok () := by
  cases f with
  | unit => rfl
  | strided s => exact tagsOk_true (by have : w ≠ 4 := h; simpa using this) _
  | indexed vi o => exact tagsOk_true (by simp [h.1, h.2.1, h.2.2.1]) _

/-- The index register of an address form is ready. -/
theorem indexReady_ok (c : Ctx) (f : VForm) (w : Nat) (act : List Nat) (h : IndexReady c f w act) : indexReady c f act = .ok () := by
  cases f with
  | unit => rfl
  | strided s => rfl
  | indexed vi o => exact bind_ok (readable_ok _ _ _ h.2.2.2.1) (needOpen_ok _ _ _ h.2.2.2.2.1)

/-- The indices of an address form are not poisoned. -/
theorem indexPoison_ok (c : Ctx) (f : VForm) (w : Nat) (act : List Nat) (h : IndexReady c f w act) : indexPoison c f act = .ok () := by
  cases f with
  | unit => rfl
  | strided s => rfl
  | indexed vi o =>
    change (match act.find? _ with | some e => _ | none => _) = _
    rw [find_none _ _ h.2.2.2.2.2]

/-- The address checks of a vector access pass where its elements translate and their pages agree. -/
theorem checkTouches_ok (c : Ctx) (w : Want) (n : Nat) (es : List (Nat × Word)) (ts : List Touch) (c1 : Ctx) (h : Touches c w n es ts c1) :
    checkTouches c w n es = .ok (ts, c1) := by
  unfold checkTouches
  rw [find_none _ _ (by intro e he; simp [h.1 e he])]
  refine bind_ok h.2.1 ?_
  refine bind_ok (a := ()) ?_ rfl
  cases ts with
  | nil => rfl
  | cons t rest =>
    change (match rest.find? _ with | some u => _ | none => _) = _
    rw [find_none _ _ (by intro e he; simp [h.2.2 e (by simp [he]) t (by simp)])]

/-- Translating the elements leaves the hart as it is. -/
theorem translateAll_h (w : Want) (es : List (Nat × Word)) : ∀ (c : Ctx) (ts : List Touch) (c1 : Ctx), translateAll c w es = .ok (ts, c1) → c1.h = c.h := by
  induction es with
  | nil => intro c ts c1 h; simp [translateAll] at h; rw [← h.2]
  | cons e l ih =>
    intro c ts c1 h
    obtain ⟨i, va⟩ := e
    unfold translateAll at h
    split at h
    · cases h
    · split at h
      · cases h
      · rename_i s pa leaf _
        rcases hr : translateAll { c with s := s } w l with _ | ⟨l', c'⟩
        · rw [hr] at h; cases h
        · rw [hr] at h
          have := ih _ _ _ hr
          have e : c' = c1 := by cases h; rfl
          rw [← e, this]

/-- A tile instruction of a hart that holds a tile runs its own part. -/
theorem tileOp_ok {s : State} {id : Nat} {h : Hart} {i : Instr} (hi : Issues s id h i) (rs : List VNum) (m : Ctx → Except Stop Ctx)
   (hh : TileHolds (begun s id h i) rs) {c : Ctx} (hm : m (begun s id h i) = .ok c) : tileOp i rs m s = .next (retire i h c) := by
  refine issue_ok hi (bind_ok (legal_true ?_ _) ?_)
  · obtain ⟨h1, h2, h3, h4, _⟩ := hh
    rw [h1, h4]
    simp [h2, h3]
  · rw [if_neg hh.2.2.2.2]
    exact hm

/-- An elementwise instruction whose conditions hold completes with its result (R190, R191). -/
theorem elem_ok {s : State} {id : Nat} {h : Hart} {i : Instr} (op : VOp) (part : Nat) (d a : VNum) (b : BSource)
    (hi : Issues s id h i) (hr : ElementReady (begun s id h i) op part d a b) :
    elementwise i op part d a b s = .next (retire i h (elementResult (begun s id h i) op part d a b)) := by
  refine issue_ok hi ?_
  generalize begun s id h i = c at hr
  obtain ⟨hv, hdec, hcopy, hlist, hpart, hidle, hopen, ha, hb, hsc⟩ := hr
  refine bind_ok (vecLegal_ok _ _ _ (by cases b <;> exact hdec) hcopy.1) ?_
  rw [if_neg hv]
  refine bind_ok (tagsOk_true (by
    exact (Bool.and_eq_true _ _).mpr ⟨hlist, hpart⟩) _) ?_
  refine bind_ok (copyTag_ok _ _ _ hcopy) ?_
  refine bind_ok (writable_ok _ _ hidle) ?_
  refine bind_ok (readableOp_ok _ _ _ ha) ?_
  have hb2 : ∀ es, es = sourceElems c op (elementWidth c op d a b) (elementOperands c op d a b).2.1.tag.width
      (elementOperands c op d a b).2.2.tag.width part → OperandReady c.h (elementOperands c op d a b).2.2 es := fun es e => by rw [e]; exact hb
  refine bind_ok (readableOp_ok _ _ _ (hb2 _ (by unfold sourceElems; split <;> rfl))) ?_
  refine bind_ok (needOpen_ok _ _ _ hopen) ?_
  refine bind_ok (needElems_ok _ _ _ ha) ?_
  refine bind_ok (needElems_ok _ _ _ (hb2 _ (by unfold sourceElems; split <;> rfl))) ?_
  have hfin := needCopy_ok _ _ _ hcopy
  dsimp only
  split
  · rename_i hx
    rw [Bool.and_eq_true] at hx
    have h1 := hsc (by simpa using hx.1)
    refine bind_ok (readableScales_ok _ _ _ h1) (bind_ok (a := ()) (bind_ok (a := ()) (needOpen_ok _ _ _ ?_) ?_) (bind_ok hfin rfl))
    · intro j hj
      refine hopen j ?_
      rw [List.map_append]
      exact List.mem_append_left _ hj
    · split
      · exact needOpen_ok _ _ _ (h1 ‹_›).2
      · rfl
  · exact bind_ok (a := ()) rfl (bind_ok hfin rfl)

/-- A comparison of vectors completes with the mask, or names the first poisoned element (R194). -/
theorem comp_ok {s : State} {id : Nat} {h : Hart} {i : Instr} (cc : VCc) (k : KReg) (a : VNum) (b : BSource) 
    (hi : Issues s id h i) : let c := begun s id h i
    let o := Operand.reg a (h.getV a)
    let t := o.tag
    let p := c.operandB b t t
    let act := c.active t.width
    h.vl ≠ 0 → c.declared (a :: b.regs) = true → c.copyOk none = true →
    t = p.tag → (t.isInt = true ∨ (t.isWide = true ∧ cc ≠ .ltu ∧ cc ≠ .geu)) → OperandReady c.h o act → OperandReady c.h p act →
    ((∀ e ∈ act, o.poisoned c.h e = false ∧ p.poisoned c.h e = false) →
      compareElems i cc 0 k a b s = .next (retire i h { c with h := c.h.setK k ((c.zeroed t.width).foldl (fun m e => putBit m e false)
        (act.foldl (fun m e => putBit m e (compareAt cc t (o.bits e) (p.bits e) (o.value c.h e) (p.value c.h e))) (h.getK k))) })) ∧
    (∀ e, act.find? (fun e => o.poisoned c.h e || p.poisoned c.h e) = some e →
      compareElems i cc 0 k a b s =
        .next (trapped s id h { c with h := { c.h with named := .element t.width } } .poison (BitVec.ofNat 64 e))) := by
  intro c o t p act hv hd hc ht hty ho hp
  let m : Except Stop Ctx := match act.find? (fun e => o.poisoned c.h e || p.poisoned c.h e) with
    | some e => .error (poisonAt c (.element t.width) e)
    | none =>
      .ok { c with h := c.h.setK k ((c.zeroed t.width).foldl (fun m e => putBit m e false)
        (act.foldl (fun m e => putBit m e (compareAt cc t (o.bits e) (p.bits e) (o.value c.h e) (p.value c.h e))) (h.getK k))) }
  have key : ∃ f : Meaning, compareElems i cc 0 k a b s = issue i s f ∧ f c = m := by
    refine ⟨_, rfl, ?_⟩
    refine bind_ok (vecLegal_ok _ _ _ (by cases b <;> exact hd) hc) ?_
    rw [if_neg (by exact hv)]
    refine bind_ok (tagsOk_true (by
      change ((t == p.tag) && (t.isInt || (t.isWide && !(cc == .ltu || cc == .geu))) && (0 == 0)) = true
      rcases hty with h | ⟨h1, h2, h3⟩ <;> simp_all) _) ?_
    exact bind_ok (readableOp_ok _ _ _ ho) (bind_ok (readableOp_ok _ _ _ hp) (bind_ok (needElems_ok _ _ _ ho) (bind_ok (needElems_ok _ _ _ hp) rfl)))
  obtain ⟨f, h1, h2⟩ := key
  rw [h1]
  refine ⟨fun hg => issue_ok hi (h2.trans ?_), fun e he => issue_trap hi (h2.trans ?_) rfl⟩
  · have : act.find? (fun e => o.poisoned c.h e || p.poisoned c.h e) = none := by
      rw [List.find?_eq_none]
      intro e he
      simp [hg e he]
    show (match act.find? _ with | some e => _ | none => _) = _
    rw [this]
  · show (match act.find? _ with | some e => _ | none => _) = _
    rw [he]
    rfl

/-- A selection of vectors completes with the selected elements (R193). -/
theorem sel_ok {s : State} {id : Nat} {h : Hart} (i : Instr) (d a : VNum) (b : BSource) (hi : Issues s id h i) :
      let c := begun s id h i
      let t := (h.getV d).tag
      let o := Operand.reg a (h.getV a)
      let p := c.operandB b t t
      let is := c.positions t.width
      h.vl ≠ 0 → c.declared (d :: a :: b.regs) = true → CopyReady c d t.width →
      (∀ v ∈ a :: b.regs, (h.getV d).sameTag (h.getV v) = true) → Idle c.h d → Opened c.h d (is.map (elemWord t.width)) →
      OperandReady c.h o is → OperandReady c.h p is →
      selectElems i 0 d a b s = .next (retire i h (c.writeV d t.width (is.map (selected c o p t)))) := by
  intro c t o p is hv hd hcp hs hid hop ho hp
  have ht : (h.getV a).tag = t := by
    have := hs a (by simp)
    simp only [VReg.sameTag, Bool.and_eq_true, beq_iff_eq] at this
    exact this.1.symm
  have hpe : c.operandB b o.tag o.tag = p := by
    show c.operandB b (h.getV a).tag (h.getV a).tag = _
    rw [ht]
  have hp' : OperandReady c.h (c.operandB b o.tag o.tag) is := by rw [hpe]; exact hp
  unfold selectElems
  refine issue_ok hi ?_
  refine bind_ok (vecLegal_ok _ _ _ (by cases b <;> exact hd) hcp.1) ?_
  rw [if_neg (by exact hv)]
  refine bind_ok (tagsOk_true (by
    have h1 := hs a (by simp)
    cases b with
    | vec v => exact (Bool.and_eq_true _ _).mpr ⟨(Bool.and_eq_true _ _).mpr ⟨h1, hs v (by simp [BSource.regs])⟩, rfl⟩
    | scal x => exact (Bool.and_eq_true _ _).mpr ⟨(Bool.and_eq_true _ _).mpr ⟨h1, rfl⟩, rfl⟩
    | none => exact (Bool.and_eq_true _ _).mpr ⟨(Bool.and_eq_true _ _).mpr ⟨h1, rfl⟩, rfl⟩) _) ?_
  refine bind_ok (copyTag_ok _ _ _ hcp) ?_
  refine bind_ok (writable_ok _ _ hid) ?_
  refine bind_ok (readableOp_ok _ _ _ ho) ?_
  refine bind_ok (readableOp_ok _ _ _ hp') ?_
  refine bind_ok (needOpen_ok _ _ _ hop) ?_
  refine bind_ok (needElems_ok _ _ _ ho) ?_
  refine bind_ok (needElems_ok _ _ _ hp') ?_
  refine bind_ok (needCopy_ok _ _ _ hcp) ?_
  rw [← hpe]
  rfl

/-- With the widths equal, the zeroed positions are zero elements. -/
theorem zeroElems_self (w : Nat) (l : List Nat) : zeroElems w w 0 l = l.map (fun e => ⟨e, 0, false⟩) := by
  simp [zeroElems, selects]

/-- The positions an instruction works on: below the length, and selected by its mask. -/
theorem mem_active (c : Ctx) (w e : Nat) : e ∈ c.active w ↔ e < min c.h.vl (c.h.capacity w) ∧ c.masked e = true := by
  simp [Ctx.active, Ctx.positions]

/-- An instruction that fills its destination completes with the values. -/
theorem fill_ok {s : State} {id : Nat} {h : Hart} (i : Instr) (d : VNum) (io : Bool) (f : Ctx → Nat → Nat) (hi : Issues s id h i) :
      let c := begun s id h i
      let w := (h.getV d).tag.width
      h.vl ≠ 0 → c.declared [d] = true → CopyReady c d w → ((h.getV d).tag.isInt || !io) = true → Idle c.h d →
      Opened c.h d ((c.active w ++ c.zeroed w).map (elemWord w)) →
      fill i d io f s = .next (retire i h (c.writeV d w
        ((c.active w).map (fun e => ⟨e, f c e % 2 ^ w, false⟩) ++ (c.zeroed w).map (fun e => ⟨e, 0, false⟩)))) := by
  intro c w hv hd hc ht hid ho
  refine issue_ok hi ?_
  refine bind_ok (vecLegal_ok _ _ _ hd hc.1) ?_
  rw [if_neg (by exact hv)]
  refine bind_ok (tagsOk_true ht _) (bind_ok (copyTag_ok _ _ _ hc) (bind_ok (writable_ok _ _ hid) (bind_ok (needOpen_ok _ _ _ ho) ?_)))
  refine bind_ok (needCopy_ok _ _ _ hc) ?_
  rw [zeroElems_self]
  rfl

/-- Writing a vector register leaves the scalar registers. -/
theorem writeV_x (c : Ctx) (d : VNum) (w : Nat) (es : List Elem) (r : XReg) : (c.writeV d w es).x r = c.x r := by
  unfold Ctx.writeV
  cases c.copyReg <;> rfl

/-- Writing a vector register leaves the class of an access sampled. -/
theorem sampleClass_writeV (c : Ctx) (d : VNum) (w wg : Nat) (es : List Elem) (f : VForm) : sampleClass (c.writeV d wg es) f w = sampleClass c f w := by
  cases f <;> simp [sampleClass, writeV_x]

/-- Without a film a transport begins with the words it carries (R216). -/
theorem beginTransport_off (c : Ctx) (d a : VNum) (es : List Elem) (flags : Nat) (hf : c.h.filmMode = 0) :
    beginTransport c d a es flags = .ok { c with h := transported c.h d a es flags } := by
  unfold beginTransport
  refine bind_ok (filmedNow_off _ _ _ hf) ?_
  unfold transported
  dsimp only
  have hv : (c.h.raise flags).getV d = c.h.getV d := rfl
  by_cases hx : (gather (c.h.getV d).tag.width es).map (fun x => (x.1, ((c.h.getV d).word x.1).write x.2)) = []
  · rw [if_pos (List.isEmpty_iff.2 hx), if_pos hx]
  · rw [if_neg (fun e => hx (List.isEmpty_iff.1 e)), if_neg hx]
    rfl

end Sys2Proof.Machine
end

