-- ==== Sys2Proof/Laws/Access.lean ====
section
/-! SUPPORT. Laws/Access.lean: what accesses to memory leave of the harts, and what the shared operations of queues, remote loads and small
matrices answer. -/

namespace Sys2Proof.Machine

/-- The later of two values put at one key stands. -/
theorem put_put {α : Type} (m : AMap α) (k : Nat) (v w : α) : put (put m k v) k w = put m k w := by
  induction m with
  | nil => simp [put]
  | cons e l ih =>
    unfold put
    by_cases h1 : k < e.1
    · simp [h1, put]
    · by_cases h2 : k = e.1
      · simp [h2, put]
      · simp [h1, h2, put, ih]

/-- A fold of steps that leave the harts as they are leaves them as they are. -/
theorem foldl_harts {α : Type} (f : State → α → State) (h : ∀ s a, (f s a).harts = s.harts) (l : List α) : ∀ s : State, (l.foldl f s).harts = s.harts := by
  induction l with
  | nil => intro s; rfl
  | cons a l ih => intro s; exact (ih _).trans (h s a)

/-- A load's access to the array leaves the harts (R79). -/
theorem readAccess_harts (s : State) (l : List (Nat × Bool)) (b : Bool) (src : ActSource) : (readAccess s l b src).harts = s.harts := by
  unfold readAccess
  exact (foldl_harts _ (fun s a => by unfold touchLine; split <;> rfl) _ _).trans (baseAccess_frame _ _ _).2.2

/-- A record of a piece in `ERRCOL` leaves the harts. -/
theorem recordPiece_harts (s : State) (n p : Nat) : (recordPiece s n p).harts = s.harts := by
  unfold recordPiece; split <;> rfl

/-- Records of pieces leave the harts. -/
theorem recordPieces_harts (s : State) (n : Nat) (l : List Nat) : (recordPieces s n l).harts = s.harts :=
  foldl_harts _ (fun s p => recordPiece_harts s n p) _ s

/-- A write of a piece leaves the harts. -/
theorem writePiece_harts (s : State) (p : Nat) (l : List (Nat × Byte)) (b : Bool) : (writePiece s p l b).harts = s.harts := by
  unfold writePiece
  split
  · split <;> rfl
  · split
    · rfl
    · rfl
    · split <;> rfl

/-- Writes of pieces leave the harts. -/
theorem writePieces_harts (s : State) (l : List (Nat × Byte)) (b : Bool) : (writePieces s l b).harts = s.harts :=
  foldl_harts _ (fun s p => writePiece_harts s p _ b) _ s

/-- A write of bytes leaves the harts. -/
theorem writeAll_harts (s : State) (n : Nat) (l : List (Nat × Byte)) (b : Bool) : (writeAll s n l b).harts = s.harts :=
  (writePieces_harts _ _ _).trans (recordPieces_harts _ _ _)

/-- Binding order leaves the harts. -/
theorem noteActive_harts (s : State) (q : Nat) : (noteActive s q).harts = s.harts := by
  unfold noteActive; dsimp only
  split
  · split <;> rfl
  · rfl

/-- A doorbell leaves the harts. -/
theorem ringDoorbell_harts (s : State) (q p : Nat) : (ringDoorbell s q p).harts = s.harts := by
  unfold ringDoorbell; dsimp only
  split
  · rfl
  · exact noteActive_harts _ q

/-- A write of a hub register by an instruction leaves the harts. -/
theorem hubWrite_harts (s : State) (a : Nat) (v : Word) : (hubWrite s .module a v).harts = s.harts := by
  unfold hubWrite
  split
  · exact ringDoorbell_harts ..
  · rw [if_pos (.inl (by decide))]; rfl

/-- A store leaves the harts. -/
theorem storeBytes_harts (s : State) (n pa : Nat) (d : List Byte) : (storeBytes s n pa d).harts = s.harts := by
  unfold storeBytes
  split
  · split
    · exact hubWrite_harts ..
    · rfl
  · exact writeAll_harts ..

/-- A write of lane words leaves the harts. -/
theorem writeWords_harts (s : State) (l : List (Nat × LaneWord)) : (writeWords s l).harts = s.harts :=
  foldl_harts _ (fun s p => writePiece_harts s p _ _) _ s

/-- Dropping lines leaves the harts. -/
theorem dropLines_harts (s : State) (l : List Nat) : (dropLines s l).harts = s.harts := by
  unfold dropLines; refine foldl_harts _ ?_ _ s; intro s a; rfl

/-- A write sent leaves the harts. -/
theorem sendWrite_harts {s t : State} {r : Route} {d : List Byte} {h : Option Bool} (e : sendWrite s r d h = some t) : t.harts = s.harts := by
  unfold sendWrite sealOut at e
  grind [State.reply]

/-- A read sent leaves the harts. -/
theorem sendRead_harts {s t : State} {r : Route} {n : Nat} (e : sendRead s r n = some t) : t.harts = s.harts := by
  unfold sendRead at e
  grind [State.reply]

/-- An access that goes out leaves the harts. -/
theorem launch_harts (s : State) (n : Nat) (r : Remote) : (launch s n r).harts = s.harts := by
  unfold launch keepOut
  dsimp only
  split
  · rename_i t e
    show t.harts = s.harts
    split at e
    · exact sendRead_harts e
    · exact sendWrite_harts e
  · rfl

/-- An access sent to the remote window leaves the harts. -/
theorem sendAccess_harts (s : State) (r : Remote) : (sendAccess s r).harts = s.harts := by
  unfold sendAccess
  dsimp only
  split
  · rfl
  · exact launch_harts ..

/-! ## What the performing of accesses leaves of the harts -/

/-- A read of a table entry leaves the harts. -/
theorem readEntry_harts (s : State) (pa : Nat) : (readEntry s pa).1.harts = s.harts := by
  unfold readEntry
  split
  · rfl
  · dsimp only
    split
    · exact (recordPieces_harts _ _ _).trans (baseAccess_frame _ _ _).2.2
    · exact (baseAccess_frame _ _ _).2.2

theorem walkLevel_harts (s : State) (t n : Nat) (k : State → Nat → State × Option Nat) (h : ∀ s e, (k s e).1.harts = s.harts) :
    (walkLevel s t n k).1.harts = s.harts := by
  have g := readEntry_harts s (t + 8 * n)
  unfold walkLevel
  split
  · rename_i e; rw [e] at g; exact g
  · rename_i e; rw [e] at g; exact (h _ _).trans g

theorem walk_harts (s : State) (root va : Nat) : (walk s root va).1.harts = s.harts := by
  unfold walk
  refine walkLevel_harts _ _ _ _ fun s e => ?_
  split
  · rfl
  · refine walkLevel_harts _ _ _ _ fun s e => ?_
    split
    · rfl
    · exact walkLevel_harts _ _ _ _ fun s e => rfl

/-- Translation leaves the harts. -/
theorem hartTranslate_harts (s : State) (h : Hart) (w : Want) (va : Nat) : (hartTranslate s h w va).1.harts = s.harts := by
  have hw : ∀ (s : State) (k root : Nat), (walkThrough s k root va).1.harts = s.harts := by
    intro s k root
    have g := walk_harts s root va
    unfold walkThrough
    split
    · rename_i e; rw [e] at g; exact g
    · rename_i e; rw [e] at g; exact g
  have hl : (leafThrough s h.stack (s.rootOf h) va).1.harts = s.harts := by
    unfold leafThrough
    split
    · split
      · rfl
      · split
        · exact hw { s with free := s.free + 1 } _ _
        · rfl
    · exact hw _ _ _
  unfold hartTranslate translate
  split
  · rfl
  · split
    · rfl
    · exact hl

/-- A hart but for what the performing of its accesses changes: its registers' contents, its buffered stores, the accesses on their way and
what they have recorded. -/
def Kept (h g : Hart) : Prop := { g with v := h.v, met := h.met, stores := h.stores, elems := h.elems } = h

theorem Kept.refl (h : Hart) : Kept h h := rfl

theorem Kept.trans {h g k : Hart} (a : Kept h g) (b : Kept g k) : Kept h k := by
  unfold Kept at a b ⊢
  rw [← b] at a
  exact a

/-- A step that performs for hart id: it keeps that hart, and leaves the others. -/
def Performs (id : Nat) (s t : State) : Prop :=
  (∀ h, s.hart? id = some h → ∃ g, t.hart? id = some g ∧ Kept h g) ∧ ∀ m, m ≠ id → t.hart? m = s.hart? m

/-- A state with the same harts shows each of them. -/
theorem hart_of_harts {s t : State} (h : t.harts = s.harts) (m : Nat) : t.hart? m = s.hart? m := by unfold State.hart?; rw [h]

theorem Performs.of_harts {s t : State} (h : t.harts = s.harts) (id : Nat) : Performs id s t :=
  ⟨fun g e => ⟨g, (hart_of_harts h id).trans e, rfl⟩, fun m _ => hart_of_harts h m⟩

theorem Performs.trans {id : Nat} {s t u : State} (a : Performs id s t) (b : Performs id t u) : Performs id s u := by
  refine ⟨fun h e => ?_, fun m hm => (b.2 m hm).trans (a.2 m hm)⟩
  obtain ⟨g, hg, k1⟩ := a.1 h e
  obtain ⟨k, hk, k2⟩ := b.1 g hg
  exact ⟨k, hk, k1.trans k2⟩

/-- The hart is put in its place, changed as performing may change it. -/
theorem Performs.setHart {id : Nat} {s t : State} {h g : Hart} (a : Performs id s t) (e : s.hart? id = some h) (k : Kept h g) :
    Performs id s (t.setHart id g) := by
  refine ⟨fun h' e' => ?_, fun m hm => ?_⟩
  · rw [e] at e'; cases e'; exact ⟨g, find?_put_same _ _ _, k⟩
  · rw [show (t.setHart id g).hart? m = t.hart? m from find?_put_other _ _ _ _ hm]
    exact a.2 m hm

theorem Performs.modHart {id : Nat} {s t : State} (a : Performs id s t) (f : Hart → Hart) (k : ∀ h, Kept h (f h)) :
    Performs id s (t.modHart id f) := by
  unfold State.modHart
  cases e : t.hart? id with
  | none => exact a
  | some g =>
    refine a.trans (Performs.setHart (h := g) (.of_harts rfl id) e (k g))

/-- What is recorded for an instruction leaves its hart otherwise. -/
theorem recordFor_performs (s : State) (id q src : Nat) (l : List Nat) : Performs id s (recordFor s id q src l) := by
  unfold recordFor
  dsimp only
  split
  · exact .of_harts rfl id
  · exact (Performs.of_harts (foldl_harts _ (fun s p => recordPiece_harts _ _ _) _ s) id).modHart _ fun h => rfl

/-- A context after some performing: that of before, but for the module and what performing changes of the hart. -/
def Ctx.Near (c d : Ctx) : Prop :=
  Kept c.h d.h ∧ d.id = c.id ∧ d.npc = c.npc ∧ d.taken = c.taken ∧ d.gov = c.gov ∧ d.word = c.word ∧ d.todo = c.todo ∧
    ∀ m, m ≠ c.id → d.s.hart? m = c.s.hart? m

theorem Ctx.Near.refl (c : Ctx) : c.Near c := ⟨rfl, rfl, rfl, rfl, rfl, rfl, rfl, fun _ _ => rfl⟩

theorem Ctx.Near.trans {c d e : Ctx} (a : c.Near d) (b : d.Near e) : c.Near e := by
  obtain ⟨a0, a1, a2, a3, a4, a5, a6, a7⟩ := a
  obtain ⟨b0, b1, b2, b3, b4, b5, b6, b7⟩ := b
  refine ⟨a0.trans b0, b1.trans a1, b2.trans a2, b3.trans a3, b4.trans a4, b5.trans a5, b6.trans a6,
    fun m hm => (b7 m (by rw [a1]; exact hm)).trans (a7 m hm)⟩

theorem Ctx.Near.global (c : Ctx) (f : State → State) (h : ∀ s, Performs c.id s (f s)) : c.Near (c.global f) := by
  have e : (c.s.setHart c.id c.h).hart? c.id = some c.h := find?_put_same _ _ _
  obtain ⟨g, hg, k⟩ := (h (c.s.setHart c.id c.h)).1 _ e
  refine ⟨?_, rfl, rfl, rfl, rfl, rfl, rfl, fun m hm => ?_⟩
  · unfold Ctx.global
    dsimp only
    rw [hg]
    exact k
  · exact ((h (c.s.setHart c.id c.h)).2 m hm).trans (find?_put_other _ _ _ _ hm)

/-- A context with another module of the same harts. -/
theorem Ctx.Near.of_harts (c : Ctx) {s : State} (h : s.harts = c.s.harts) : c.Near { c with s := s } :=
  ⟨rfl, rfl, rfl, rfl, rfl, rfl, rfl, fun m _ => hart_of_harts h m⟩

theorem slotPlace_near (c : Ctx) (va : Nat) : c.Near (slotPlace c va).2 := by
  have h := hartTranslate_harts c.s c.h ⟨true, true, false⟩ va
  unfold slotPlace
  split
  · exact .refl c
  · split
    · rename_i e; rw [e] at h; exact .of_harts c h
    · rename_i e; rw [e] at h; exact .of_harts c h

theorem slotPlaces_near : ∀ (l : List Nat) (c : Ctx), c.Near (slotPlaces c l).2 := by
  intro l
  induction l with
  | nil => exact fun c => .refl c
  | cons va l ih =>
    intro c
    have h := slotPlace_near c va
    unfold slotPlaces
    split
    · rename_i e; rw [e] at h; exact h
    · rename_i pa c' e
      rw [e] at h
      have g := ih c'
      split
      · rename_i e2; rw [e2] at g; exact h.trans g
      · rename_i e2; rw [e2] at g; exact h.trans g

theorem appendPlaces_near (c : Ctx) (q : QBlock) (n : Nat) : c.Near (appendPlaces c q n).2 := by
  unfold appendPlaces
  split
  · unfold blockPlaces
    split
    · exact .refl c
    · have h := slotPlaces_near (q.ring :: (span q.tail n).map q.slot) c
      split
      · rename_i e; rw [e] at h; exact h
      · rename_i e; rw [e] at h; exact h
  · exact .refl c

/-- Performing buffered stores leaves the harts. -/
theorem performStores_harts (s : State) (id : Nat) (l : List BufStore) : (performStores s id l).harts = s.harts :=
  foldl_harts _ (fun _ _ => (storeBytes_harts _ _ _ _).trans (baseAccess_frame _ _ _).2.2) _ s

theorem perform_near (c : Ctx) (l keep : List BufStore) : c.Near (c.perform l keep) := by
  have h := Ctx.Near.global c (fun s => performStores s c.id l) fun s => .of_harts (performStores_harts s c.id l) _
  exact h.trans ⟨rfl, rfl, rfl, rfl, rfl, rfl, rfl, (Ctx.Near.refl _).2.2.2.2.2.2.2⟩

/-- The context that an instruction which stops leaves. -/
def stopCtx : Stop → Ctx
  | .trap _ _ c => c
  | .wait _ c => c

theorem placeGeneric_near (c : Ctx) (va : Word) (n : Nat) (w : Want) :
    (∀ p c', placeGeneric c va n w = .ok (p, c') → c.Near c') ∧ ∀ e, placeGeneric c va n w = .error e → c.Near (stopCtx e) := by
  have h := hartTranslate_harts c.s c.h w va.toNat
  unfold placeGeneric
  split
  · exact ⟨fun _ _ x => (by cases x), fun _ x => (by cases x; exact .refl c)⟩
  · split
    · exact ⟨fun _ _ x => (by cases x), fun _ x => (by cases x; exact .refl c)⟩
    · split
      · rename_i e
        rw [e] at h
        exact ⟨fun _ _ x => (by cases x), fun _ x => (by cases x; exact .of_harts c h)⟩
      · rename_i e
        rw [e] at h
        exact ⟨fun _ _ x => (by cases x; exact .of_harts c h), fun _ x => (by cases x)⟩

/-- A read of a start record changes nothing of its hart. -/
theorem startRecordAt_near (c : Ctx) (va : Word) : (∀ r c', startRecordAt c va = .ok (r, c') → c.Near c') ∧
    ∀ e, startRecordAt c va = .error e → c.Near (stopCtx e) := by
  have hp := placeGeneric_near c va 8 ⟨true, false, false⟩
  unfold startRecordAt
  cases hn : need (va.toNat % 128 == 0) .align va c with
  | error e =>
    refine ⟨fun _ _ x => (by cases x), fun _ x => ?_⟩
    unfold need at hn
    split at hn <;> cases hn
    cases x
    exact .refl c
  | ok _ =>
    cases hq : placeGeneric c va 8 ⟨true, false, false⟩ with
    | error e => exact ⟨fun _ _ x => (by cases x), fun _ x => (by cases x; exact hp.2 _ hq)⟩
    | ok r =>
      obtain ⟨p, c₁⟩ := r
      have h1 := hp.1 _ _ hq
      show (∀ r c', (needGood c₁ p.1 128 va >>= _) = _ → _) ∧ ∀ e, (needGood c₁ p.1 128 va >>= _) = _ → _
      cases hg : needGood c₁ p.1 128 va with
      | error e =>
        refine ⟨fun _ _ x => (by cases x), fun _ x => ?_⟩
        cases x
        unfold needGood at hg
        split at hg <;> cases hg
        exact h1.trans (.global c₁ _ fun s =>
          .of_harts ((recordPieces_harts _ _ _).trans (baseAccess_frame s _ _).2.2) _)
      | ok _ =>
        refine ⟨fun _ _ x => ?_, fun _ x => (by cases x)⟩
        cases x
        exact h1.trans (.global c₁ _ fun s => .of_harts (readAccess_harts s _ _ _) _)

/-- A submission writes a record into a queue's ring, and leaves the harts. -/
theorem submit_harts (s : State) (q : Nat) (r : List Byte) : (submit s q r).1.harts = s.harts := by
  unfold submit
  dsimp only
  split
  · rfl
  · exact (ringDoorbell_harts _ _ _).trans (Eq.trans rfl ((writeAll_harts _ 3 _ _).trans (baseAccess_frame s _ _).2.2))

theorem submitRecord_near (c : Ctx) (record : List Byte) : c.Near (submitRecord c record).2 :=
  (perform_near c c.h.stores []).trans (.of_harts _ (submit_harts _ _ _))

theorem triggerCheck_near (c : Ctx) (pa : Nat) : c.Near (triggerCheck c pa) := by
  unfold triggerCheck
  dsimp only
  split
  · have h := startRecordAt_near c (BitVec.ofNat 64 (readBlock c.s pa).launch)
    split
    · rename_i record c' e
      have g := submitRecord_near c' record
      have h1 := h.1 _ _ e
      split
      · rename_i e2
        rw [e2] at g
        exact (h1.trans g).trans (.of_harts _ (storeBytes_harts _ _ _ _))
      · rename_i e2
        rw [e2] at g
        exact h1.trans g
    · rename_i c' e
      have h1 : c.Near c' := h.2 _ e
      exact ⟨rfl, rfl, rfl, rfl, rfl, rfl, rfl, fun m hm =>
        (hart_of_harts ((storeBytes_harts _ _ _ _).trans rfl) m).trans (h1.2.2.2.2.2.2.2 m hm)⟩
    · exact .refl c
  · exact .refl c

/-- An append to a queue block changes of its hart buffered stores alone. -/
theorem appendWords_near (c : Ctx) (pa : Nat) (words read : List Nat) : c.Near (appendWords c pa words read) := by
  have hr : ∀ (d : Ctx) (pas : List Nat), d.Near (d.writeRows read pas) := fun d pas =>
    .global d _ fun s => .of_harts (baseAccess_frame s _ _).2.2 _
  have h := appendPlaces_near c (readBlock c.s pa) words.length
  unfold appendWords
  dsimp only
  split
  · rename_i d e
    rw [e] at h
    exact (h.trans (hr d [pa])).trans (.of_harts _ (storeBytes_harts _ _ _ _))
  · rename_i pas d e
    rw [e] at h
    refine (h.trans (hr d (pa :: pas))).trans (Ctx.Near.trans ?_ (triggerCheck_near _ _))
    exact .of_harts _ ((storeBytes_harts _ _ _ _).trans (writeAll_harts _ _ _ _))

/-- Performing an element access keeps its hart (R203, R204). -/
theorem performElem_performs (s : State) (id : Nat) (e : ElemAccess) : Performs id s (performElem s id e) := by
  unfold performElem
  generalize ((s.hart? id).map e.resolve).getD e = e
  unfold performResolved
  have hw : ∀ cells b, Performs id s (writeElem s id e cells b) := fun cells b =>
    (recordFor_performs s id e.seq 1 _).trans (.of_harts (writePieces_harts _ _ _) id)
  have hn : ∀ x, Performs id s (s.note x) := fun x => .of_harts rfl id
  split
  · exact .of_harts (sendAccess_harts ..) id
  · split
    · refine (recordFor_performs s id e.seq 1 _).modHart _ fun h => ?_
      dsimp only
      split <;> rfl
    · exact (recordFor_performs s id e.seq 0 _).modHart _ fun h => rfl
    · exact (recordFor_performs s id e.seq 0 _).trans
        (.of_harts ((dropLines_harts ..).trans (writeWords_harts ..)) id)
    · rename_i read _
      split
      · rename_i h hh
        have g := appendWords_near ⟨s, id, h, h.pc, false, none, 0, []⟩ e.pa (wordsIn e.data) (if read then [e.pa] else [])
        refine ⟨fun h' e' => ?_, fun m hm => ?_⟩
        · rw [hh] at e'; cases e'; exact ⟨_, find?_put_same _ _ _, g.1⟩
        · rw [show (State.setHart _ id _).hart? m = (appendWords ⟨s, id, h, h.pc, false, none, 0, []⟩ e.pa (wordsIn e.data)
              (if read then [e.pa] else [])).s.hart? m from
            find?_put_other _ _ _ _ hm]
          exact g.2.2.2.2.2.2.2 m hm
      · exact .of_harts rfl id
    · split
      · exact .of_harts (storeBytes_harts ..) id
      · exact hw _ _
    · split
      · exact hn _
      · exact hw _ _
    · split
      · exact hn _
      · exact hw _ _

/-- A fold of steps that perform for a hart performs for it. -/
theorem foldl_performs {α : Type} (id : Nat) (f : State → α → State) (h : ∀ s a, Performs id s (f s a)) (l : List α) :
    ∀ s : State, Performs id s (l.foldl f s) := by
  induction l with
  | nil => exact fun s => .of_harts rfl id
  | cons a l ih => exact fun s => (h s a).trans (ih _)

/-- Performing element accesses keeps their hart. -/
theorem performElems_performs (s : State) (id : Nat) (l : List ElemAccess) : Performs id s (performElems s id l) :=
  (Performs.of_harts (t := { s with free := (l.foldl orderElem (s.free, [])).1 }) rfl id).trans
    (foldl_performs id _ (fun s e => performElem_performs s id e) _ _)

/-- Performing earlier accesses leaves the instruction's context but for the module and what performing changes of its hart (R85). -/
theorem drainMeeting_near (c : Ctx) (pas : List Nat) : c.Near (c.drainMeeting pas) := by
  unfold Ctx.drainMeeting Ctx.drainSeqs
  dsimp only
  split
  · exact .refl c
  · generalize c.h.elems.filter (fun e => (neededSeqs (fun e => pas.any e.touches) c.h.elems).contains e.seq) = l
    refine (Ctx.Near.global c (fun s => performElems s c.id l) fun s => performElems_performs s c.id l).trans ?_
    exact ⟨rfl, rfl, rfl, rfl, rfl, rfl, rfl, (Ctx.Near.refl _).2.2.2.2.2.2.2⟩

/-- Translation leaves the governing prefix and the hart number. -/
theorem translateAll_gov (w : Want) (es : List (Nat × Word)) : ∀ (c : Ctx) (ts : List Touch) (c1 : Ctx), translateAll c w es = .ok (ts, c1) → c1.gov = c.gov ∧ c1.id = c.id := by
  induction es with
  | nil => intro c ts c1 h; simp [translateAll] at h; rw [← h.2]; exact ⟨rfl, rfl⟩
  | cons e l ih =>
    intro c ts c1 h
    obtain ⟨i, va⟩ := e
    unfold translateAll at h
    split at h
    · cases h
    · split at h
      · cases h
      · rename_i s pa leaf _
        rcases hr : translateAll { c with s := s } w l with _ | ⟨l', c'⟩
        · rw [hr] at h; cases h
        · rw [hr] at h
          have := ih _ _ _ hr
          have e : c' = c1 := by cases h; rfl
          rw [← e]; exact this

/-- An ordered load whose remote elements have arrived has nothing to send. -/
theorem orderedLoad_none (w : Nat) (ts : List Touch) : ∀ c : Ctx,
    (∀ u ∈ ts, regionOf u.pa = .remote → (find? c.h.arrived u.i).isSome = true) → (orderedLoad c w ts).2 = none := by
  induction ts with
  | nil => intro c _; rfl
  | cons t l ih =>
    intro c h
    unfold orderedLoad
    split
    · exact ih c (fun u hu => h u (List.mem_cons_of_mem _ hu))
    · rename_i hn
      split
      · exact absurd (h t (List.mem_cons_self ..) ‹_›) hn
      · refine ih _ (fun u hu hx => ?_)
        have := h u (List.mem_cons_of_mem _ hu) hx
        show (find? (put c.h.arrived t.i _) u.i).isSome = true
        by_cases e : u.i = t.i
        · rw [e, find?_put_same]; rfl
        · rw [find?_put_other _ _ _ _ e]; exact this

/-- A load whose remote elements have arrived does not wait for them. -/
theorem awaitRemote_ok (c : Ctx) (d : VNum) (w : Nat) (o : Bool) (ts : List Touch) (hr : c.h.remote = [])
    (h : ∀ u ∈ ts, regionOf u.pa = .remote → (find? c.h.arrived u.i).isSome = true) : awaitRemote c d w o ts = .ok c := by
  unfold awaitRemote
  dsimp only
  rw [if_neg (by rw [hr]; decide)]
  split
  · rfl
  · split
    · have := orderedLoad_none w ts c h
      rcases hx : orderedLoad c w ts with ⟨a, b⟩
      rw [hx] at this
      dsimp only at this
      subst this
      rfl
    · rw [if_pos]
      rw [List.isEmpty_iff, List.filter_eq_nil_iff]
      intro u hu
      by_cases hx : regionOf u.pa = .remote
      · have := h u hu hx
        cases hy : find? c.h.arrived u.i with
        | none => rw [hy] at this; cases this
        | some x => simp
      · simp [hx]

/-- With the film off nothing is replayed. -/
theorem replays_off {h : Hart} (hf : h.filmMode = 0) : h.replays = false := by simp [Hart.replays, hf]

/-- What `QPUSH` and `QPOP` find, with the film off and no bad piece (R255, R256). -/
theorem queuePlan_ok (c1 c4 : Ctx) (p : Nat × Nat) (va : Word) (at' : QBlock → Nat) (blocked : QBlock → Bool) (q : QBlock) (o : Option Nat)
    (hf : c1.h.filmMode = 0) (hb : badBytes (c1.drainOverlap p.1 64).s p.1 64 = false)
    (hq : q = readBlock ((c1.drainOverlap p.1 64).readBlockAt p).s p.1)
    (he : queueEntry ((c1.drainOverlap p.1 64).readBlockAt p) q (at' q) (!q.ok || blocked q) = (o, c4))
    (hg : ∀ e, o = some e → badBytes (c4.drainOverlap e q.entry).s e q.entry = false) :
    queuePlan c1 p va at' blocked = .ok ((q, o, misses (c1.drainOverlap p.1 64).s [(p.1, leafUc p.2)]), match o with
      | some e => c4.drainOverlap e q.entry
      | none => c4) := by
  subst hq
  unfold queuePlan
  rw [if_neg (by rw [replays_off hf]; decide)]
  refine bind_ok (needGood_ok _ _ _ _ hb) ?_
  cases o with
  | none =>
    dsimp only
    rw [he]
  | some e =>
    dsimp only
    rw [he]
    exact bind_ok (needGood_ok _ _ _ _ (hg e rfl)) rfl

/-- A small-matrix operation on shapes that fit, with no residue mismatch, puts its results (R238, R307). -/
theorem matOp_ok {s : State} {id : Nat} {h : Hart} {i : Instr} (hi : Issues s id h i) (sm : Bool) (d : MReg) (ok : Hart → Bool)
    (shape : Hart → MatShape) (f : Ctx → Nat → Mat) (hg : matLegal (begun s id h i) = .ok ()) (h1 : ok (begun s id h i).h = true)
    (h2 : sm = true → h.residue = none) :
    matOp sm i d ok shape f s = .next (retire i h (matPut (begun s id h i) d (shape (begun s id h i).h) (f (begun s id h i)))) := by
  refine issue_ok hi (bind_ok hg (bind_ok (tagsOk_true h1 _) ?_))
  cases sm with
  | true => exact bind_ok (residueOk_none _ (h2 rfl)) rfl
  | false => rfl

end Sys2Proof.Machine
end

