-- ==== Sys2Proof/Laws/Keeps.lean ====
section
/-! SUPPORT. Laws/Keeps.lean: the operations of Ops.lean keep the canonical form of memory: performing stores and element writes, records of
debug blocks, halting, taking a trap, retirement and issue. -/

namespace Sys2Proof.Machine

theorem KeepsForm.ite {p : Prop} [Decidable p] {s t u : State} (h : KeepsForm s t) (g : KeepsForm s u) :
    KeepsForm s (if p then t else u) := by
  split
  · exact h
  · exact g

theorem KeepsForm.free (s : State) (n : Nat) : KeepsForm s { s with free := n } := KeepsForm.of_mem rfl

/-! ## Performing (R163, R203) -/

theorem performStores_keeps (s : State) (n : Nat) (l : List BufStore) : KeepsForm s (performStores s n l) :=
  KeepsForm.foldl _ _ _ fun s _ => (KeepsForm.of_mem (baseAccess_mem s _ _)).trans (storeBytes_keeps _ _ _ _)

theorem writeWords_keeps (s : State) (ws : List (Nat × LaneWord)) : KeepsForm s (writeWords s ws) :=
  KeepsForm.foldl _ _ _ fun s p => writePiece_keeps s p _ _

@[simp] theorem modHart_mem (s : State) (n : Nat) (f : Hart → Hart) : (s.modHart n f).mem = s.mem := by
  unfold State.modHart
  split <;> rfl

@[simp] theorem recordFor_mem (s : State) (n q src : Nat) (l : List Nat) : (recordFor s n q src l).mem = s.mem := by
  unfold recordFor
  dsimp only
  split
  · rfl
  · rw [modHart_mem]
    exact foldl_mem _ _ _ fun s p => recordPiece_mem s src p

@[simp] theorem fillElem_mem (s : State) (n : Nat) (d : VNum) (t : TypeTag) (c : Option VNum) (e : ElemAccess) :
    (fillElem s n d t c e).mem = s.mem := by
  simp [fillElem]

@[simp] theorem fillWords_mem (s : State) (n : Nat) (d : VNum) (e : ElemAccess) (l : List (Nat × Nat)) :
    (fillWords s n d e l).mem = s.mem := by
  simp [fillWords]

theorem sendWrite_mem {s t : State} {r : Route} {data : List Byte} {hi : Option Bool} (h : sendWrite s r data hi = some t) :
    t.mem = s.mem := by
  unfold sendWrite sealOut at h
  grind [State.reply]

theorem sendRead_mem {s t : State} {r : Route} {n : Nat} (h : sendRead s r n = some t) : t.mem = s.mem := by
  unfold sendRead at h
  grind [State.reply]

@[simp] theorem launch_mem (s : State) (n : Nat) (r : Remote) : (launch s n r).mem = s.mem := by
  unfold launch keepOut
  dsimp only
  split
  · rename_i t e
    show t.mem = s.mem
    split at e
    · exact sendRead_mem e
    · exact sendWrite_mem e
  · rfl

@[simp] theorem sendAccess_mem (s : State) (r : Remote) : (sendAccess s r).mem = s.mem := by
  unfold sendAccess
  dsimp only
  split
  · rfl
  · rw [launch_mem]

/-! ## Queue blocks (R211, R255) -/

/-- The module after an access that the instruction's hart takes part in. -/
theorem global_keeps (c : Ctx) (f : State → State) (h : KeepsForm (c.s.setHart c.id c.h) (f (c.s.setHart c.id c.h))) :
    KeepsForm c.s (c.global f).s := (KeepsForm.of_mem (t := c.s.setHart c.id c.h) rfl).trans h

theorem global_mem (c : Ctx) (f : State → State) (h : ∀ s, (f s).mem = s.mem) : (c.global f).s.mem = c.s.mem := h _

theorem slotPlace_mem (c : Ctx) (va : Nat) : (slotPlace c va).2.s.mem = c.s.mem := by
  have h := hartTranslate_mem c.s c.h ⟨true, true, false⟩ va
  unfold slotPlace
  split
  · rfl
  · split
    · rename_i e; rw [e] at h; exact h
    · rename_i e; rw [e] at h; exact h

theorem slotPlaces_mem : ∀ (l : List Nat) (c : Ctx), (slotPlaces c l).2.s.mem = c.s.mem := by
  intro l
  induction l with
  | nil => exact fun c => rfl
  | cons va l ih =>
    intro c
    have h := slotPlace_mem c va
    unfold slotPlaces
    split
    · rename_i e; rw [e] at h; exact h
    · rename_i pa c' e
      rw [e] at h
      have g := ih c'
      split
      · rename_i e2; rw [e2] at g; exact g.trans h
      · rename_i e2; rw [e2] at g; exact g.trans h

theorem appendPlaces_mem (c : Ctx) (q : QBlock) (n : Nat) : (appendPlaces c q n).2.s.mem = c.s.mem := by
  unfold appendPlaces
  split
  · unfold blockPlaces
    split
    · rfl
    · have h := slotPlaces_mem (q.ring :: (span q.tail n).map q.slot) c
      split
      · rename_i e; rw [e] at h; exact h
      · rename_i e; rw [e] at h; exact h
  · rfl

theorem drainStores_keeps (c : Ctx) : KeepsForm c.s c.drainStores.s :=
  global_keeps c (fun s => performStores s c.id c.h.stores) (performStores_keeps _ _ _)

/-- The module that an instruction which stops leaves. -/
def stopState : Stop → State
  | .trap _ _ c => c.s
  | .wait _ c => c.s

theorem need_mem {b : Bool} {cause : Cause} {info : Word} {c : Ctx} {e : Stop} (h : need b cause info c = .error e) : stopState e = c.s := by
  unfold need at h
  split at h <;> cases h
  rfl

theorem needGood_mem {c : Ctx} {pa n : Nat} {info : Word} {e : Stop} (h : needGood c pa n info = .error e) :
    (stopState e).mem = c.s.mem := by
  unfold needGood at h
  split at h <;> cases h
  exact global_mem c (fun s => recordPieces (baseAccess s [pa] (.base c.id)) 1 (piecesOf pa n)) fun s =>
    (recordPieces_mem _ _ _).trans (baseAccess_mem _ _ _)

theorem placeGeneric_mem (c : Ctx) (va : Word) (n : Nat) (w : Want) :
    (∀ p c', placeGeneric c va n w = .ok (p, c') → c'.s.mem = c.s.mem) ∧
      ∀ e, placeGeneric c va n w = .error e → (stopState e).mem = c.s.mem := by
  have h := hartTranslate_mem c.s c.h w va.toNat
  unfold placeGeneric
  split
  · exact ⟨fun _ _ x => (by cases x), fun _ x => (by cases x; rfl)⟩
  · split
    · exact ⟨fun _ _ x => (by cases x), fun _ x => (by cases x; rfl)⟩
    · split
      · rename_i e
        rw [e] at h
        exact ⟨fun _ _ x => (by cases x), fun _ x => (by cases x; exact h)⟩
      · rename_i e
        rw [e] at h
        exact ⟨fun _ _ x => (by cases x; exact h), fun _ x => (by cases x)⟩

/-- A read of a start record leaves memory as it is. -/
theorem startRecordAt_mem (c : Ctx) (va : Word) : (∀ r c', startRecordAt c va = .ok (r, c') → c'.s.mem = c.s.mem) ∧
    ∀ e, startRecordAt c va = .error e → (stopState e).mem = c.s.mem := by
  have hp := placeGeneric_mem c va 8 ⟨true, false, false⟩
  unfold startRecordAt
  cases hn : need (va.toNat % 128 == 0) .align va c with
  | error e => exact ⟨fun _ _ x => (by cases x), fun _ x => (by cases x; rw [need_mem hn])⟩
  | ok _ =>
    cases hq : placeGeneric c va 8 ⟨true, false, false⟩ with
    | error e => exact ⟨fun _ _ x => (by cases x), fun _ x => (by cases x; exact hp.2 _ hq)⟩
    | ok r =>
      obtain ⟨p, c₁⟩ := r
      have h1 := hp.1 _ _ hq
      show (∀ r c', (needGood c₁ p.1 128 va >>= _) = _ → _) ∧ ∀ e, (needGood c₁ p.1 128 va >>= _) = _ → _
      cases hg : needGood c₁ p.1 128 va with
      | error e => exact ⟨fun _ _ x => (by cases x), fun _ x => (by cases x; exact (needGood_mem hg).trans h1)⟩
      | ok _ =>
        refine ⟨fun _ _ x => ?_, fun _ x => (by cases x)⟩
        cases x
        exact (global_mem c₁ (fun s => readAccess s [(p.1, leafUc p.2)] false (.base c₁.id)) fun s => readAccess_mem _ _ _ _).trans h1

theorem submitRecord_keeps (c : Ctx) (record : List Byte) : KeepsForm c.s (submitRecord c record).2.s :=
  (drainStores_keeps c).trans (submit_keeps _ _ _)

theorem triggerCheck_keeps (c : Ctx) (pa : Nat) : KeepsForm c.s (triggerCheck c pa).s := by
  unfold triggerCheck
  dsimp only
  split
  · have h := startRecordAt_mem c (BitVec.ofNat 64 (readBlock c.s pa).launch)
    split
    · rename_i record c' e
      have g := submitRecord_keeps c' record
      have h1 : KeepsForm c.s c'.s := KeepsForm.of_mem (h.1 _ _ e)
      split
      · rename_i e2
        rw [e2] at g
        exact (h1.trans g).trans (storeBytes_keeps _ _ _ _)
      · rename_i e2
        rw [e2] at g
        exact h1.trans g
    · rename_i e
      exact (KeepsForm.of_mem (h.2 _ e)).trans (KeepsForm.trans (KeepsForm.of_mem (by rfl)) (storeBytes_keeps _ 1 (pa + 13) [0]))
    · exact KeepsForm.refl _
  · exact KeepsForm.refl _

theorem writeRows_keeps (c : Ctx) (read pas : List Nat) : KeepsForm c.s (c.writeRows read pas).s :=
  KeepsForm.of_mem (global_mem c _ fun s => (baseAccess_frame s _ _).1)

theorem appendWords_keeps (c : Ctx) (pa : Nat) (words read : List Nat) : KeepsForm c.s (appendWords c pa words read).s := by
  have h := appendPlaces_mem c (readBlock c.s pa) words.length
  unfold appendWords
  dsimp only
  split
  · rename_i d e
    rw [e] at h
    exact ((KeepsForm.of_mem (t := d.s) h).trans (writeRows_keeps d read [pa])).trans (storeBytes_keeps _ _ _ _)
  · rename_i pas d e
    rw [e] at h
    refine ((KeepsForm.of_mem (t := d.s) h).trans (writeRows_keeps d read (pa :: pas))).trans (KeepsForm.trans ?_ (triggerCheck_keeps _ _))
    exact (writeAll_keeps _ _ _ _).trans (storeBytes_keeps _ _ _ _)

/-! ## Element accesses -/

theorem writeElem_keeps (s : State) (n : Nat) (e : ElemAccess) (cells : List (Nat × Byte)) (b : Bool) :
    KeepsForm s (writeElem s n e cells b) := (KeepsForm.of_mem (recordFor_mem _ _ _ _ _)).trans (writePieces_keeps _ _ _)

theorem performResolved_keeps (s : State) (n : Nat) (e : ElemAccess) : KeepsForm s (performResolved s n e) := by
  unfold performResolved
  split
  · exact KeepsForm.of_mem (sendAccess_mem _ _)
  · split
    · exact KeepsForm.of_mem (fillElem_mem _ _ _ _ _ _)
    · exact KeepsForm.of_mem (fillWords_mem _ _ _ _ _)
    · exact ((KeepsForm.of_mem (recordFor_mem _ _ _ _ _)).trans (writeWords_keeps _ _)).trans (KeepsForm.of_mem (dropLines_mem _ _))
    · split
      · rename_i h _
        exact (appendWords_keeps ⟨s, n, h, h.pc, false, none, 0, []⟩ e.pa (wordsIn e.data) _).trans (KeepsForm.of_mem (by rfl))
      · exact KeepsForm.refl s
    · exact KeepsForm.ite (storeBytes_keeps _ _ _ _) (writeElem_keeps _ _ _ _ _)
    · exact KeepsForm.ite (KeepsForm.of_mem (by rfl)) (writeElem_keeps _ _ _ _ _)
    · exact KeepsForm.ite (KeepsForm.of_mem (by rfl)) (writeElem_keeps _ _ _ _ _)

theorem performElem_keeps (s : State) (n : Nat) (e : ElemAccess) : KeepsForm s (performElem s n e) := performResolved_keeps _ _ _

theorem performElems_keeps (s : State) (n : Nat) (l : List ElemAccess) : KeepsForm s (performElems s n l) :=
  (KeepsForm.free s _).trans (KeepsForm.foldl _ _ _ fun s e => performElem_keeps s n e)

/-! ## Records (R323, R329, R330) -/

theorem forHart_keeps (s : State) (h : Hart) (f : ActSource → State → State) (hf : ∀ src s, KeepsForm s (f src s)) :
    KeepsForm s (s.forHart h f).1 := by
  unfold State.forHart
  split
  · rename_i n _
    exact KeepsForm.trans (KeepsForm.of_mem (t := s.setHart n h) rfl) (hf _ _)
  · exact hf _ _

theorem putRecord_keeps (s : State) (h : Hart) (n pa : Nat) (bytes : List Byte) : KeepsForm s (putRecord s h n pa bytes).1 :=
  forHart_keeps _ _ _ fun src s => ((KeepsForm.of_mem (baseAccess_mem s [pa] src)).trans (storeBytes_keeps _ _ _ _)).trans
    (writeBytes_keeps _ _ _ _)

theorem ringPlace_mem (s : State) (h : Hart) (n : Nat) : (ringPlace s h n).1.mem = s.mem := by
  unfold ringPlace
  split
  · rename_i size _
    have hm := hartTranslate_mem s h ⟨false, true, false⟩ (ringAddress s h n size (dbgNat s h (0x20 + 8 * n) 8))
    split <;> (rename_i e; rw [e] at hm; exact hm)
  · rfl

theorem ringWrite_keeps (s : State) (h : Hart) (n : Nat) (bytes : List Byte) : KeepsForm s (ringWrite s h n bytes).1.1 := by
  have hm := ringPlace_mem s h n
  unfold ringWrite
  split
  · rename_i e; rw [e] at hm
    exact (KeepsForm.of_mem hm).trans (putRecord_keeps _ _ _ _ _)
  · rename_i e; rw [e] at hm
    exact KeepsForm.of_mem hm

theorem writeFrame_keeps (s : State) (h : Hart) (k : Nat) (pc : Word) (aux : Nat) : KeepsForm s (writeFrame s h k pc aux).1 := by
  unfold writeFrame
  split
  · exact KeepsForm.refl s
  · exact ringWrite_keeps _ _ _ _

theorem writeSample_keeps (s : State) (h : Hart) (a b c d e f : Nat) : KeepsForm s (writeSample s h a b c d e f).1 :=
  KeepsForm.trans (KeepsForm.of_mem (t := { s with free := s.free + 2 }) rfl) (ringWrite_keeps _ _ _ _)

theorem applyTodo_keeps (pc : Word) (todo : List AtRetire) : ∀ (s : State) (h : Hart), KeepsForm s (applyTodo s h pc todo).1 := by
  induction todo with
  | nil => exact fun s h => KeepsForm.refl s
  | cons e l ih =>
    intro s h
    cases e with
    | swTrap w => exact ih s h
    | frame k aux => exact (writeFrame_keeps s h k pc aux).trans (ih _ _)
    | sample a b c d e f =>
      unfold applyTodo
      rw [List.foldl_cons]
      dsimp only
      split
      · exact (writeSample_keeps s h a b c d e f).trans (ih _ _)
      · exact ih s h

/-! ## Halting and taking a trap (R290, R299, R325) -/

@[simp] theorem setHart_mem (s : State) (n : Nat) (h : Hart) : (s.setHart n h).mem = s.mem := rfl

@[simp] theorem commitShadow_mem (s : State) (n : Nat) : (commitShadow s n).mem = s.mem := by
  unfold commitShadow
  split <;> rfl

@[simp] theorem dropRefresh_mem (s : State) (n : Nat) (h : Hart) : (dropRefresh s n h).mem = s.mem := by
  unfold dropRefresh
  split
  · exact foldl_mem _ _ _ fun s c => rfl
  · rfl

theorem quiesce_keeps (s : State) (n : Nat) : KeepsForm s (quiesce s n) := by
  unfold quiesce
  split
  · exact KeepsForm.refl s
  · rename_i h _
    exact ((performStores_keeps s n h.stores).trans (KeepsForm.of_mem (dropRefresh_mem _ _ _))).trans
      ((performElems_keeps _ n (h.elems.filter (fun e => !h.stuck e))).trans (KeepsForm.of_mem (by rfl)))

theorem haltHart_keeps (s : State) (n : Nat) : KeepsForm s (haltHart s n) :=
  KeepsForm.trans (KeepsForm.ite (KeepsForm.of_mem (commitShadow_mem s n)) (KeepsForm.refl s)) (quiesce_keeps _ n)

theorem stopHart_keeps (s : State) (n : Nat) : KeepsForm s (stopHart s n) :=
  (haltHart_keeps s n).trans (KeepsForm.of_mem (modHart_mem _ _ _))

theorem gangStop_keeps (s : State) (h : Hart) (n : Nat) : KeepsForm s (gangStop s h n) := by
  unfold gangStop
  split
  · exact KeepsForm.refl s
  · split
    · exact KeepsForm.refl s
    · refine KeepsForm.foldl _ _ _ fun s e => ?_
      split
      · exact KeepsForm.ite (KeepsForm.refl s) (KeepsForm.ite (stopHart_keeps s _) (KeepsForm.of_mem (by rfl)))
      · exact KeepsForm.refl s

theorem deliver_keeps (s : State) (n : Nat) (h : Hart) (cause : Cause) (pc info : Word) : KeepsForm s (deliver s n h cause pc info) := by
  unfold deliver
  refine (writeFrame_keeps s h 2 pc (causeCode cause)).trans ?_
  dsimp only
  split
  · exact KeepsForm.of_mem rfl
  · have g : ∀ b : Prop, [Decidable b] → ∀ (t : State) (r : Hart), t.mem = (writeFrame s h 2 pc (causeCode cause)).1.mem →
        KeepsForm (writeFrame s h 2 pc (causeCode cause)).1 (if b then gangStop t r n else t) := by
      intro b _ t r ht
      split
      · exact (KeepsForm.of_mem ht).trans (gangStop_keeps _ _ _)
      · exact KeepsForm.of_mem ht
    split
    · exact g _ _ _ rfl
    · exact g _ _ _ rfl
    · exact g _ _ _ rfl
    · exact KeepsForm.of_mem rfl

/-! ## Retirement and issue -/

@[simp] theorem settleHart_mem (i : Instr) (h0 : Hart) (s : State) (n : Nat) (h : Hart) : (settleHart i h0 s n h).mem = s.mem := by
  unfold settleHart
  split
  · split <;> rfl
  · rfl

theorem endRetire_keeps (i : Instr) (h0 : Hart) (n : Nat) (todo : List AtRetire) (s : State) (h : Hart) :
    KeepsForm s (endRetire i h0 n todo s h) := by
  unfold endRetire
  split
  · exact deliver_keeps _ _ _ _ _ _
  · exact KeepsForm.ite (deliver_keeps _ _ _ _ _ _) (KeepsForm.of_mem (settleHart_mem _ _ _ _ _))

theorem retire_keeps (i : Instr) (h0 : Hart) (c : Ctx) : KeepsForm c.s (retire i h0 c) := by
  unfold retire
  dsimp only
  exact KeepsForm.ite (KeepsForm.of_mem (by rfl))
    ((applyTodo_keeps _ _ _ _).trans (KeepsForm.trans (KeepsForm.of_mem (by rfl)) (endRetire_keeps _ _ _ _ _ _)))

@[simp] theorem notIssued_mem (s : State) (n : Nat) (h : Hart) (w : Wait) : (notIssued s n h w).mem = s.mem := by
  unfold notIssued
  split <;> rfl

@[simp] theorem holdBack_mem (s : State) (n : Nat) (h : Hart) : (holdBack s n h).mem = s.mem := notIssued_mem _ _ _ _

@[simp] theorem tryQueue_mem (i : Instr) (s : State) (n : Nat) (h : Hart) (m : Meaning) : (tryQueue i s n h m).mem = s.mem := by
  unfold tryQueue
  split
  · split
    · rfl
    · exact holdBack_mem _ _ _
  · exact holdBack_mem _ _ _

/-- The module that an instruction leaves, whatever its end. -/
def endState : Except Stop Ctx → State
  | .ok c => c.s
  | .error (.trap _ _ c) => c.s
  | .error (.wait _ c) => c.s

theorem settle_keeps (i : Instr) (h : Hart) (r : Except Stop Ctx) : KeepsForm (endState r) (settle i h r) := by
  match r with
  | .ok c => exact retire_keeps i h c
  | .error (.trap cause info c) => exact (KeepsForm.of_mem (by rfl)).trans (deliver_keeps _ _ _ _ _ _)
  | .error (.wait w c) => exact KeepsForm.of_mem (notIssued_mem _ _ _ _)

theorem endState_bind {α : Type} {s : State} (x : Except Stop α) (f : α → Except Stop Ctx)
    (hx : ∀ e, x = .error e → KeepsForm s (endState (.error e))) (hf : ∀ a, x = .ok a → KeepsForm s (endState (f a))) :
    KeepsForm s (endState (x >>= f)) := by
  cases x with
  | ok a => exact hf a rfl
  | error e => exact hx e rfl

theorem frames_state (c : Ctx) (l : List (Nat × Nat)) : (applyWaypoints.frames c l).s = c.s := by
  unfold applyWaypoints.frames
  generalize l.filter (fun e => e.2 == 2) = l
  induction l generalizing c with
  | nil => rfl
  | cons e l ih => exact ih _

theorem applyWaypoints_state (c : Ctx) (hit : Nat × Nat → Bool) : endState (applyWaypoints c hit) = c.s := by
  unfold applyWaypoints
  split
  · rfl
  · dsimp only
    split
    · split
      · exact frames_state c _
      · rfl
    · exact frames_state c _

theorem runInstr_keeps (i : Instr) (m : Meaning) (c : Ctx) (hm : ∀ c, KeepsForm c.s (endState (m c))) :
    KeepsForm c.s (endState (runInstr i m c)) := by
  unfold runInstr
  have hw := applyWaypoints_state c (fun w => waypointMatches w c.h.pc.toNat (i.major.getD 0))
  refine endState_bind _ _ (fun e he => ?_) (fun c' hc => ?_)
  · rw [he] at hw
    exact KeepsForm.of_mem (congrArg State.mem hw)
  · rw [hc] at hw
    have h1 : KeepsForm c.s c'.s := KeepsForm.of_mem (congrArg State.mem hw)
    refine endState_bind _ _ (fun e he => ?_) (fun _ _ => h1.trans (hm c'))
    unfold pairing at he
    split at he
    · cases he
    · unfold legal need at he
      split at he
      · cases he
      · cases he
        exact h1

/-- The first instruction that waits in the vector queue keeps the form when its meaning does. -/
theorem runHead_keeps (i : Instr) (s : State) (n : Nat) (h : Hart) (m : Meaning) (hm : ∀ c, KeepsForm c.s (endState (m c))) :
    KeepsForm s (runHead i s n h m) := by
  unfold runHead
  dsimp only
  split
  · exact KeepsForm.of_mem (by rfl)
  · rename_i q _
    split
    · exact KeepsForm.of_mem (by rfl)
    · rename_i c e
      have h2 := runInstr_keeps i m (startCtx { s with cur := none } n (h.forHead q) q.word) hm
      rw [e] at h2
      exact KeepsForm.trans (t := c.s) h2 (KeepsForm.of_mem (by rfl))

/-- A retirement from the vector queue keeps the form. -/
theorem retireFront_keeps (s : State) (n : Nat) (h : Hart) (q : Queued) : KeepsForm s (retireFront s n h q) := by
  unfold retireFront
  dsimp only
  exact (applyTodo_keeps _ _ _ _).trans (KeepsForm.ite (KeepsForm.trans (KeepsForm.of_mem (by rfl)) (stopHart_keeps _ n)) (KeepsForm.of_mem (by rfl)))

/-- So does the instruction at a hart's pc. -/
theorem runNow_keeps (i : Instr) (s : State) (n : Nat) (h : Hart) (m : Meaning) (hm : ∀ c, KeepsForm c.s (endState (m c))) :
    KeepsForm s (runNow i s n h m) := by
  have g := runInstr_keeps i m (startCtx s n h i.word) hm
  unfold runNow
  split
  · rename_i e
    rw [e] at g
    exact KeepsForm.ite (KeepsForm.trans g (settle_keeps i _ _)) (KeepsForm.of_mem (holdBack_mem _ _ _))
  · rename_i e
    rw [e] at g
    exact KeepsForm.ite (KeepsForm.trans g (settle_keeps i _ _)) (KeepsForm.of_mem (tryQueue_mem _ _ _ _ _))
  · rename_i e
    rw [e] at g
    exact KeepsForm.trans g (settle_keeps i _ _)
  · rename_i e
    rw [e] at g
    exact KeepsForm.ite (KeepsForm.of_mem (holdBack_mem _ _ _)) (KeepsForm.trans g (settle_keeps i _ _))

/-- An instruction keeps the form of memory when its own meaning does. -/
theorem issue_keeps (i : Instr) (s t : State) (m : Meaning) (hm : ∀ c, KeepsForm c.s (endState (m c)))
    (ht : issue i s m = .next t) : KeepsForm s t := by
  unfold issue at ht
  split at ht
  · cases ht
  · split at ht
    · cases ht
    · cases ht
      rename_i _ id _ _ h _
      exact KeepsForm.ite (runHead_keeps i s id h m hm) (KeepsForm.ite (KeepsForm.of_mem (holdBack_mem _ _ _))
        (KeepsForm.ite (runNow_keeps i s id h m hm) (KeepsForm.ite (KeepsForm.of_mem (tryQueue_mem _ _ _ _ _))
          (KeepsForm.ite (runNow_keeps i s id h m hm) (KeepsForm.of_mem (holdBack_mem _ _ _))))))

end Sys2Proof.Machine
end

