-- ==== Sys2Proof/Tests/Slice0.lean ====
section
/-! SUPPORT. Tests/Slice0.lean: the smoke test of the well-formedness checks, words written out from the encodings of the spec, single
steps with results worked out from the spec, and for every statement with hypotheses a state and operands that meet them. -/

namespace Sys2Proof.Tests

open Sys2Proof Sys2Proof.Machine

-- The tests are checked one after another: many at once would wait for one another, each with a stack of its own.
set_option Elab.async false

/-! ## The well-formedness checks refuse -/

theorem test_wf_float : (Instr.fadd 1 2 3 3).wf = false ∧ (Instr.fsub 1 2 3 3).wf = false ∧ (Instr.fmul 1 2 3 3).wf = false ∧
    (Instr.fma 1 2 3 7).wf = false ∧ (Instr.fmin 1 2 3 3).wf = false ∧ (Instr.fmax 1 2 3 4).wf = false := by decide

theorem test_wf_fcmp : (Instr.fcmp 1 2 3 3 0).wf = false ∧ (Instr.fcmp 1 2 3 5 0).wf = false ∧ (Instr.fcmp 1 2 3 0 3).wf = false := by
  decide

theorem test_wf_fcvt : (Instr.fcvt 1 2 4 5).wf = false ∧ (Instr.fcvt 1 2 3 0).wf = false ∧ (Instr.fcvt 1 2 0 3).wf = false := by decide

theorem test_wf_cmp : (Instr.cmp 1 2 3 6).wf = false ∧ (Instr.cmpi 1 2 7 0).wf = false := by decide

theorem test_wf_amo : (Instr.amoadd 1 2 3 5 0 true).wf = false ∧ (Instr.amoand 1 2 3 5 0 true).wf = false ∧
    (Instr.amoor 1 2 3 5 0 true).wf = false ∧ (Instr.amoxor 1 2 3 5 0 true).wf = false ∧ (Instr.amomin 1 2 3 5 0 true).wf = false ∧
    (Instr.amomax 1 2 3 5 0 true).wf = false ∧ (Instr.amominu 1 2 3 5 0 true).wf = false ∧
    (Instr.amomaxu 1 2 3 5 0 true).wf = false ∧ (Instr.amoswap 1 2 3 5 0 true).wf = false ∧
    (Instr.amocas 1 2 3 7 0 true).wf = false := by decide

theorem test_wf_fence : (Instr.fence 5 1).wf = false ∧ (Instr.fence 3 0).wf = false ∧ (Instr.vdrain 5).wf = false := by decide

theorem test_wf_system_register : (Instr.srd 1 0x012).wf = false ∧ (Instr.swr 1 0x063).wf = false := by decide

theorem test_wf_ref : (Instr.ref 0).wf = false := by decide

theorem test_wf_vtype : (Instr.vtype 1 2 0).wf = false ∧ (Instr.vtype 1 0 6).wf = false ∧ (Instr.vtype 1 1 0x10).wf = false := by decide

theorem test_wf_pfx : (Instr.pfx 1 false false false 3 false).wf = false := by decide

theorem test_wf_vcomp : (Instr.vcompIdx 1 2 1 false false).wf = false ∧ (Instr.vcompIdx 1 2 2 false false).wf = false := by decide

theorem test_wf_mset : (Instr.mset 1 6 0).wf = false ∧ (Instr.mset 1 0 7).wf = false := by decide

theorem test_wf_tasks : (Instr.tinfo 1 12).wf = false ∧ (Instr.strip 7 1 1).wf = false ∧ (Instr.strip 0 1 1).wf = false ∧
    (Instr.strip 30 1 1).wf = false := by decide

theorem test_wf_barriers : (Instr.bar 0).wf = false ∧ (Instr.bara 5).wf = false ∧ (Instr.barw 0).wf = false := by decide

theorem test_wf_waitev : (Instr.waitev 1 2 64).wf = false := by decide

/-! ## Words of the spec

The words of R140, R158, R170, R171 and of the worked encodings of the chapters, and others put together from R128 and R137. -/

theorem test_decode_add : decode 0x04C74000 = .ok (.add 6 7 8) := by decide
theorem test_decode_sel : decode 0x05405120 = .ok (.sel 10 0 10 1) := by decide
theorem test_decode_addi : decode 0x0843FFFF = .ok (.addi 2 3 0xFFFF) := by decide
theorem test_decode_srai : decode 0x1843023F = .ok (.srai 2 3 63) := by decide
theorem test_decode_lui : decode 0x1C400001 = .ok (.lui 2 1) := by decide
theorem test_decode_fcmp : decode 0x242F0006 = .ok (.fcmp 1 15 0 0 0) := by decide
theorem test_decode_cmp : decode 0x402A0002 = .ok (.cmp 1 10 0 2) := by decide
theorem test_decode_bp : decode 0x49FFFFFB = .ok (.bp 3 true 0x3FFFFB) := by decide
theorem test_decode_jalr : decode 0x4C014000 = .ok (.jalr 0 1 0) := by decide
theorem test_decode_loop : decode 0x4C078004 = .ok (.loop 7 4) := by decide
theorem test_decode_ldw : decode 0x51229FF8 = .ok (.ldw 9 2 0x1FF8) := by decide
theorem test_decode_std : decode 0x54C26008 = .ok (.std 6 2 8) := by decide
theorem test_decode_amoadd : decode 0x58C74250 = .ok (.amoadd 6 7 8 2 1 true) := by decide
theorem test_decode_fence : decode 0x580003BF = .ok (.fence 3 2) := by decide
theorem test_decode_nop : decode 0x5C000000 = .ok .nop := by decide
theorem test_decode_srd : decode 0x5FC04060 = .ok (.srd 30 0x060) := by decide
theorem test_decode_act : decode 0x60C4A000 = .ok (.act 12 9 2) := by decide
theorem test_decode_ref : decode 0x60000106 = .ok (.ref 16) := by decide
theorem test_decode_vsetvl : decode 0x64600C32 = .ok (.vsetvl 6 6 3) := by decide
theorem test_decode_pfx : decode 0x69500000 = .ok (.pfx 2 true false true 0 false) := by decide
theorem test_decode_vmad : decode 0x743149A4 = .ok (.vmad 1 3 5 9 true false true) := by decide
theorem test_decode_vcmp : decode 0x7010C41A = .ok (.vcmpLt 0 1 3 4 false false false) := by decide
theorem test_decode_vadd_scalar : decode 0x9040CC00 = .ok (.vaddVx 4 3 6 false false 0) := by decide
theorem test_decode_vsplat : decode 0x94501000 = .ok (.vsplat 5 8 false) := by decide
theorem test_decode_kpop : decode 0x98206006 = .ok (.kpop 2 6) := by decide
theorem test_decode_vradd : decode 0x9C60CE04 = .ok (.vradd 6 3 7 false false true) := by decide
theorem test_decode_vld : decode 0xB0400E00 = .ok (.vld 4 7 false) := by decide
theorem test_decode_vst : decode 0xB4400F00 = .ok (.vst 4 7 true false) := by decide
theorem test_decode_vupd : decode 0xB8414E05 = .ok (.vupdXor 4 5 7 false false) := by decide
theorem test_decode_vperm : decode 0xBC414600 = .ok (.vperm 4 5 6 false false false) := by decide
theorem test_decode_vrot : decode 0xC0414E00 = .ok (.vrot 4 5 7 false false) := by decide
theorem test_decode_vbcast : decode 0xC4414E01 = .ok (.vbcast 4 5 7 false false) := by decide
theorem test_decode_vdrain : decode 0xC8000301 = .ok (.vdrain 3) := by decide
theorem test_decode_tmuls : decode 0xD0310C03 = .ok (.tmuls 3 4 6) := by decide
theorem test_decode_mmul : decode 0xE2100003 = .ok (.mmul 2 0 1) := by decide
theorem test_decode_tspawn : decode 0xF0C70000 = .ok (.tspawn 6 7) := by decide
theorem test_decode_strip : decode 0xF0CA0308 = .ok (.strip 6 10 3) := by decide
theorem test_decode_bar : decode 0xF4000300 = .ok (.bar 3) := by decide
theorem test_decode_bkpt : decode 0xF8006001 = .ok (.bkpt 1) := by decide
theorem test_decode_zero : decode 0 = .error (.unassignedMajor 0) := by decide
theorem test_decode_reserved_field : decode 0x04C74080 = .error .unassigned := by decide

/-! ## A small module -/

/-- A full hart of one column under G64, at its start but for what a test sets. -/
def hart0 : Hart where
  task := 0
  rank := 0
  column := 0
  cols := 1
  cluster := 0
  lanes := 32
  ctx := 0
  geom := 64
  pc := 0x10000
  x := Vector.replicate 32 0
  p := Vector.replicate 8 false
  k := Vector.replicate 8 0
  matShape := Vector.replicate 4 {}

/-- A page table at address 0 that maps page 0 to page 0 of stacked DRAM, to read and write: its two upper levels, and its leaf. -/
def upperTables : List Host.Cell := [(0, 1), (1, 0x10)]
def leafTables : List Host.Cell := [(0x1000, 1), (0x1001, 0x20), (0x2000, 7)]
def tables : List Host.Cell := upperTables ++ leafTables

/-- A module in which hart 0, of the task that `withFetchWord` uses, is picked, its address space that page table's. -/
def world (h : Hart) : State :=
  { State.reset with
    mem := tables, cur := some 0, harts := [(0, h)], tasks := [(0, probeTask)], stackTab := [(0, { tlb := [⟨0, 0, 7⟩] })] }

/-- The same with further bytes of memory between 2 and 0xFFF. -/
def worldWith (cells : List Host.Cell) (h : Hart) : State := { world h with mem := upperTables ++ cells ++ leafTables }

/-- The module with an instruction word at the hart's pc. -/
def coded (w : Nat) : State := { world hart0 with columns := [(0, { codes := [⟨0, 0x10000, wordBytes 32 w, [], wordBytes 32 w⟩] })] }

theorem issues {h : Hart} (i : Instr) (h1 : h.dbg = none) (h2 : h.pfx = none) (h3 : h.atHead = false := by rfl)
    (h4 : h.waiting = [] := by rfl) : Issues (world h) 0 h i :=
  ⟨rfl, rfl, h3, h4, h1, fun p hp => by rw [h2] at hp; cases hp⟩

def isNext : Host.Outcome State Fault Refusal → Bool
  | .next _ => true
  | _ => false

theorem next_of {o : Host.Outcome State Fault Refusal} (h : isNext o = true) : ∃ t, o = .next t := by
  cases o with
  | next t => exact ⟨t, rfl⟩
  | fault _ => cases h
  | refused _ => cases h

def isOk {α : Type} : Except Stop α → Bool
  | .ok _ => true
  | .error _ => false

theorem ok_of {α : Type} {e : Except Stop α} (h : isOk e = true) : ∃ a, e = .ok a := by
  cases e with
  | ok a => exact ⟨a, rfl⟩
  | error _ => cases h

theorem bind_isOk {α β : Type} {x : Except Stop α} {f : α → Except Stop β} (h : isOk (x >>= f) = true) :
    ∃ a, x = .ok a ∧ isOk (f a) = true := by
  cases x with
  | ok a => exact ⟨a, rfl, h⟩
  | error _ => cases h

/-! ## What the statements about encoding, decoding and reset assume -/

theorem test_witness_DecodeOfEncode : (Instr.vtype 63 1 0x15).wf = true ∧ encode (.vtype 63 1 0x15) = some 0x67F06A01 := by decide

theorem test_witness_EncodeOfDecode : 0x67F06A01 < 2 ^ 32 ∧ decode 0x67F06A01 = .ok (.vtype 63 1 0x15) := by decide

theorem test_witness_StepRunsDecoded :
    (coded 0x5C000000).powered = true ∧ (coded 0x5C000000).stage = 15 ∧ (coded 0x5C000000).cur = some 0 ∧
    (coded 0x5C000000).hart? 0 = some hart0 ∧ hart0.atHead = false ∧ atBoundary (coded 0x5C000000) 0 hart0 = true ∧
    deliverDue (coded 0x5C000000) 0 hart0 = none ∧ fetch (coded 0x5C000000) hart0 = (coded 0x5C000000, some [0, 0, 0, 0x5C]) ∧
    decodeBytes 0 0 0 0x5C = .ok .nop := by
  refine ⟨rfl, rfl, rfl, rfl, rfl, by decide, rfl, rfl, by decide⟩

theorem test_witness_UndecodedWordIllegal :
    (coded 0xFFFFFFFF).powered = true ∧ (coded 0xFFFFFFFF).stage = 15 ∧ (coded 0xFFFFFFFF).cur = some 0 ∧
    (coded 0xFFFFFFFF).hart? 0 = some hart0 ∧ hart0.atHead = false ∧ atBoundary (coded 0xFFFFFFFF) 0 hart0 = true ∧ hart0.dbg = none ∧
    deliverDue (coded 0xFFFFFFFF) 0 hart0 = none ∧ fetch (coded 0xFFFFFFFF) hart0 = (coded 0xFFFFFFFF, some [0xFF, 0xFF, 0xFF, 0xFF]) ∧
    decodeBytes 0xFF 0xFF 0xFF 0xFF = .error (.unassignedMajor 63) := by
  refine ⟨rfl, rfl, rfl, rfl, rfl, by decide, rfl, rfl, rfl, by decide⟩

theorem test_witness_StepKeepsMemory :
    Memory.wf { coded 0x5C000000 with mem := [(7, 1)] }.mem = true ∧ ∃ t, step { coded 0x5C000000 with mem := [(7, 1)] } = .next t :=
  ⟨by decide, next_of (by decide)⟩

/-! ## What the statements about scalar instructions assume -/

theorem test_witness_IntegerCompletes :
    Issues (world hart0) 0 hart0 (.addpc 1 2) ∧ intResult (.addpc 1 2) hart0 = some (1, 0x10008) :=
  ⟨issues _ rfl rfl, by decide⟩

theorem test_witness_PredicateCompletes :
    Issues (world hart0) 0 hart0 (.cmpi 1 0 3 0x1FFF) ∧ predResult (.cmpi 1 0 3 0x1FFF) hart0 = some (1, true) :=
  ⟨issues _ rfl rfl, by decide⟩

theorem test_witness_FloatCompletes :
    Issues (world hart0) 0 hart0 (.fadd 1 2 3 0) ∧ ∃ v f, floatResult (.fadd 1 2 3 0) hart0 = some (1, v, f) :=
  ⟨issues _ rfl rfl, _, _, rfl⟩

theorem test_witness_ScalarFrame :
    Issues (world hart0) 0 hart0 (.addi 1 2 3) ∧ Undebugged hart0 ∧ (intResult (.addi 1 2 3) hart0).isSome = true ∧
    ∃ t, exec (.addi 1 2 3) (world hart0) = .next t :=
  ⟨issues _ rfl rfl, ⟨rfl, rfl⟩, by decide, next_of (by decide)⟩

theorem test_witness_TransferCompletes :
    OffLoopEnd hart0 ∧ (Issues (world hart0) 0 hart0 (.bp 1 false 5) ∧ hart0.getP 1 = false) ∧
    (Issues (world hart0) 0 hart0 (.bp 0 false 0x3FFFFF) ∧ hart0.getP 0 ≠ false) ∧
    Issues (world hart0) 0 hart0 (.jal 1 0x1FFF) ∧
    (Issues (world hart0) 0 hart0 (.jalr 1 2 0x2000) ∧ (hart0.getX 2 + (0x2000 : BitVec 14).signExtend 64 <<< 2).toNat % 4 = 0) :=
  ⟨fun e rest h => (by cases h), ⟨issues _ rfl rfl, by decide⟩, ⟨issues _ rfl rfl, by decide⟩, issues _ rfl rfl,
    issues _ rfl rfl, by decide⟩

theorem test_witness_LoopCompletes :
    Issues (world hart0) 0 hart0 (.loop 1 0x3FFF) ∧ OffLoopEnd hart0 ∧ hart0.loops.length < 4 ∧
    overlaps (hart0.pc + 4) (hart0.pc + 4 + ((0x3FFF : BitVec 14).setWidth 64 : Word) <<< 2) hart0.loops = false ∧
    hart0.getX 1 = 0 ∧ (hart0.setX 1 1).getX 1 ≠ 0 ∧ Issues (world (hart0.setX 1 1)) 0 (hart0.setX 1 1) (.loop 1 0) :=
  ⟨issues _ rfl rfl, fun e rest h => (by cases h), by decide, by decide, by decide, by decide, issues _ rfl rfl⟩

/-- An instruction of the vector queue: VADD v1, v2, v3, with which a hart has gone on to its next word, still to run; and one that is done
but for its retirement. -/
def queuedAdd : Queued :=
  hart0.entry (Instr.word (.vadd 0 1 2 3 false false false)) (hart0.headers (Instr.word (.vadd 0 1 2 3 false false false)) none) false []
def queuedDone : Queued := hart0.entry (Instr.word (.vadd 0 1 2 3 false false false)) [] true []

/-- A hart that has gone past a vector instruction which has not retired. -/
def hartBehind : Hart := { hart0 with vqueue := [queuedDone], elemSeq := 1, pc := 0x10004 }

theorem test_witness_RetirementMovesOn (i : Instr) :
    (begun (world hart0) 0 hart0 i).h.ctl = 0 ∧ (begun (world hart0) 0 hart0 i).todo = [] ∧
    outruns i hart0 (begun (world hart0) 0 hart0 i) = false ∧
    outruns (.vadd 0 4 5 6 false false false) hartBehind (begun (world hartBehind) 0 hartBehind (.vadd 0 4 5 6 false false false)) = true := by
  refine ⟨rfl, rfl, ?_, by decide⟩
  unfold outruns
  exact Bool.and_false _

/-- A hart whose x1 holds the lowest address of its TCM share. -/
def hartTcm : Hart := hart0.setX 1 0xFFFFFFFF0000

theorem test_witness_LoadCompletes :
    loadForm (.ldd 2 1 0xFF8) = some (2, 1, 0xFF8, 8, false) ∧ Issues (world hartTcm) 0 hartTcm (.ldd 2 1 0xFF8) ∧
    (scalarAddress hartTcm 1 0xFF8).toNat % 8 = 0 ∧ InShare (world hartTcm) hartTcm (scalarAddress hartTcm 1 0xFF8) 8 ∧
    (scalarAddress hart0 1 0xFF8).toNat % 8 = 0 ∧ inTcm (scalarAddress hart0 1 0xFF8).toNat = false ∧
    (∃ s' pa leaf, hartTranslate (world hart0) hart0 ⟨true, false, false⟩ (scalarAddress hart0 1 0xFF8).toNat = (s', .ok (pa, leaf)) ∧
      leafRec leaf = false ∧ GoodBytes s' pa 8) :=
  ⟨rfl, issues _ rfl rfl, by decide, ⟨by decide, by decide⟩, by decide, by decide, world hart0, 0xFF8, 7, rfl, by decide, by decide,
    by decide⟩

theorem test_witness_StoreCompletes :
    storeForm (.std 2 1 0xFF8) = some (2, 1, 0xFF8, 8) ∧ Issues (world hartTcm) 0 hartTcm (.std 2 1 0xFF8) ∧
    (scalarAddress hartTcm 1 0xFF8).toNat % 8 = 0 ∧ InShare (world hartTcm) hartTcm (scalarAddress hartTcm 1 0xFF8) 8 ∧
    inTcm (scalarAddress hart0 1 0xFF8).toNat = false ∧
    ∃ s', hartTranslate (world hart0) hart0 ⟨false, true, false⟩ (scalarAddress hart0 1 0xFF8).toNat = (s', .ok (0xFF8, 7)) :=
  ⟨rfl, issues _ rfl rfl, by decide, ⟨by decide, by decide⟩, by decide, _, rfl⟩

theorem test_witness_MisalignedAccessTraps :
    loadForm (.ldd 2 1 7) = some (2, 1, 7, 8, false) ∧ storeForm (.sth 2 1 1) = some (2, 1, 1, 2) ∧
    Issues (world hart0) 0 hart0 (.ldd 2 1 7) ∧ Issues (world hart0) 0 hart0 (.sth 2 1 1) ∧
    (scalarAddress hart0 1 7).toNat % 8 ≠ 0 ∧ (scalarAddress hart0 1 1).toNat % 2 ≠ 0 :=
  ⟨rfl, rfl, issues _ rfl rfl, issues _ rfl rfl, by decide, by decide⟩

/-- A hart with a buffered store, and one with an element write sent. -/
def hartStore : Hart := { hart0 with stores := [⟨0x100, [1, 2]⟩, ⟨0x101, [3]⟩] }
def hartElem : Hart := { hart0 with elems := [⟨0, 0, 0x200, 0x200, .addI, [1, 0, 0, 0], false, false, false, 0x10000, []⟩] }

theorem test_witness_BufferedStorePerforms :
    Memory.wf (world hartStore).mem = true ∧ (world hartStore).hart? 0 = some hartStore ∧
    hartStore.stores[0]? = some ⟨0x100, [1, 2]⟩ ∧ (∀ e ∈ hartStore.stores.take 0, e.touches 0x100 2 = false) ∧
    GoodBytes (world hartStore) 0x100 2 ∧ ([1, 2] : List Byte) ≠ [] ∧ ([1, 2] : List Byte).length ≤ 8 :=
  ⟨by decide, rfl, rfl, by decide, ⟨by decide, by decide⟩, by decide, by decide⟩

theorem test_witness_AtomicCompletes :
    amoForm (.amocas 2 0 3 4 3 false) = some (.cas, 2, 0, 3, 3, false) ∧ Issues (world hart0) 0 hart0 (.amocas 2 0 3 4 3 false) ∧
    hart0.filmMode = 0 ∧ ∃ p c₁ m c₂,
      place (begun (world hart0) 0 hart0 (.amocas 2 0 3 4 3 false)) (hart0.getX 0) 4 ⟨true, true, false⟩ = .ok (p, c₁) ∧
      readPlace (amoOrdered c₁ 3 4 p) (hart0.getX 0) 4 p = .ok (m, c₂) ∧ (∀ pa leaf, p = .mem pa leaf → inMemory pa = true ∧ badBytes (amoOrdered c₁ 3 4 p).s pa 4 = false) := by
  refine ⟨rfl, issues _ rfl rfl, by decide, ?_⟩
  obtain ⟨⟨m, c₂⟩, h⟩ := ok_of (e := readPlace (amoOrdered (begun (world hart0) 0 hart0 (.amocas 2 0 3 4 3 false)) 3 4 (.mem 0 7))
    (hart0.getX 0) 4 (.mem 0 7)) (by decide)
  exact ⟨.mem 0 7, _, m, c₂, rfl, h, fun pa leaf e => by cases e; exact ⟨by decide, by decide⟩⟩

theorem test_witness_OrderingCompletes :
    Issues (world hart0) 0 hart0 .nop ∧ Issues (world hart0) 0 hart0 (.fence 4 2) ∧ Issues (world hart0) 0 hart0 .svfence ∧
    Issues (world hart0) 0 hart0 (.vdrain 4) ∧
    (∀ e ∈ (begun (world hart0) 0 hart0 (.vdrain 4)).drainElems.s.outstanding, e.2.hart = 0 → e.2.load = true) ∧
    Issues (world hart0) 0 hart0 (.mark 5) :=
  ⟨issues _ rfl rfl, issues _ rfl rfl, issues _ rfl rfl, issues _ rfl rfl, fun e h => (by cases h), issues _ rfl rfl⟩

theorem test_witness_SystemRegistersComplete :
    Issues (world hart0) 0 hart0 (.srd 1 0x010) ∧ hart0.filmMode = 0 ∧ Undebugged hart0 ∧ Issues (world hart0) 0 hart0 (.swr 1 0x030) ∧
    (hart0.getX 1).toNat % 8 ≤ 4 ∧ taskWritable 0x030 = true ∧ hart0.mode = .task ∧ taskWritable 0x060 = false ∧
    Issues (world hart0) 0 hart0 (.swr 1 0x060) ∧ 4 < ((hart0.setX 1 7).getX 1).toNat % 8 ∧
    Issues (world (hart0.setX 1 7)) 0 (hart0.setX 1 7) (.swr 1 0x030) ∧
    (written 0x020 (sysRead (world hart0) hart0 0x020) (hart0.getX 1)).isSome = true ∧ Issues (world hart0) 0 hart0 (.swr 1 0x061) ∧
    taskWritable 0x061 = true ∧ hart0.columns = [0] ∧ Issues (world hartBehind) 0 hartBehind (.srd 1 0x031) ∧
    Issues (world hartBehind) 0 hartBehind (.swr 1 0x030) ∧ afterRetirement 0x031 = true ∧ afterRetirement 0x030 = true ∧
    hartBehind.caughtUp = false ∧ (hartBehind.getX 1).toNat % 8 ≤ 4 ∧ afterRetirement 0x010 = false ∧ hart0.caughtUp = true :=
  ⟨issues _ rfl rfl, by decide, ⟨rfl, rfl⟩, issues _ rfl rfl, by decide, by decide, rfl, by decide, issues _ rfl rfl, by decide,
    issues _ rfl rfl, by decide, issues _ rfl rfl, by decide, by decide, issues _ rfl rfl, issues _ rfl rfl, by decide, by decide, by decide,
    by decide, by decide, by decide⟩

theorem test_witness_RegisterStepsComplete :
    (world hart0).hart? 0 = some hart0 ∧ find? (world hart0).shadows 0 = none ∧ (0xFFFFFFFFFFFFFFFC : Word).toNat % 8 ≤ 4 ∧
    4 < (7 : Word).toNat % 8 ∧ 4095 < 4096 ∧ hart0.caughtUp = true := ⟨rfl, rfl, by decide, by decide, by decide, by decide⟩

/-! ## What the statements about row and configuration instructions assume -/

/-- The module with page 0 in the column's row window, for hart 0. -/
def rowWorld (h : Hart) : State := { world h with columns := [(0, { rowWin := [⟨0, 0, 7, false⟩] })] }

theorem rowIssues {h : Hart} (i : Instr) (h1 : h.dbg = none) (h2 : h.pfx = none) (h3 : h.atHead = false := by rfl)
    (h4 : h.waiting = [] := by rfl) : Issues (rowWorld h) 0 h i :=
  ⟨rfl, rfl, h3, h4, h1, fun p hp => by rw [h2] at hp; cases hp⟩

theorem engages_nothing {h : Hart} (v : VNum) (h0 : h.elems = []) (hq : h.waiting = []) : h.engages v = false ∧ h.awaits v = false := by
  simp [Hart.engages, Hart.awaits, h0, hq]

theorem released {h : Hart} (v : VNum) (h1 : h.transport = none) (h2 : h.tileLoad = none) : Released h v :=
  ⟨fun t e => (by rw [h1] at e; cases e), fun t e => by rw [h2] at e; cases e⟩

theorem changeable {h : Hart} (v : VNum) (h1 : h.transport = none) (h2 : h.tileLoad = none) (h3 : h.chans = []) : Changeable h v :=
  ⟨released v h1 h2, fun e he => by rw [h3] at he; cases he⟩

theorem settled {h : Hart} (v : VNum) (h0 : h.elems = []) (h1 : h.transport = none) (h2 : h.tileLoad = none)
    (hq : h.waiting = [] := by rfl) : Settled h v :=
  ⟨(engages_nothing v h0 hq).1, released v h1 h2⟩

theorem idle {h : Hart} (v : VNum) (h0 : h.elems = []) (h1 : h.transport = none) (h2 : h.tileLoad = none) (h3 : h.chans = [])
    (hq : h.waiting = [] := by rfl) : Idle h v := ⟨settled v h0 h1 h2 hq, fun e he => by rw [h3] at he; cases he⟩

theorem brought {h : Hart} (v : VNum) (es : List Nat) (h1 : h.transport = none) (h3 : h.chans = []) : Brought h v es :=
  ⟨fun t e => (by rw [h1] at e; cases e), fun e he => by rw [h3] at he; cases he⟩

theorem arrived {h : Hart} (v : VNum) (es : List Nat) (h0 : h.elems = []) (h1 : h.transport = none) (h3 : h.chans = [])
    (hq : h.waiting = [] := by rfl) : Arrived h v es := ⟨(engages_nothing v h0 hq).2, brought v es h1 h3⟩

theorem test_witness_RowOpenCompletes :
    Issues (rowWorld hart0) 0 hart0 (.act 0 1 0) ∧ Issues (rowWorld hart0) 0 hart0 (.acts 0 1 0) ∧
    (begun (rowWorld hart0) 0 hart0 (.act 0 1 0)).declared [0] = true ∧ Changeable hart0 0 ∧ hart0.engages 0 = false ∧
    (∃ p, translateRow (begun (rowWorld hart0) 0 hart0 (.act 0 1 0)) (hart0.getX 1) (some 0) true false = .ok p ∧
      leafRec p.2 = false) ∧ (world hart0).marks = [] ∧ ((0 : BitVec 3).toNat < hart0.wayCount ∨ (0 : BitVec 3) = 0) ∧
    Issues (rowWorld { hart0 with late := true }) 0 { hart0 with late := true } (.act 0 1 0) ∧ hart0.late = false ∧
    hart0.filmMode = 0 ∧ Hart.queued { hart0 with late := true } < 16 :=
  ⟨rowIssues _ rfl rfl, rowIssues _ rfl rfl, by decide, changeable _ rfl rfl rfl, (engages_nothing 0 rfl rfl).1,
    ⟨(0, 7), rfl, by decide⟩, rfl, by decide, rowIssues _ rfl rfl, rfl, by decide, by decide⟩

/-- A hart with register v0 open, at image 0. -/
def hartOpen : Hart := { hart0 with vl := 1, v := [(0, { openWays := 1 })] }

theorem test_witness_WriteBackCompletes :
    (Instr.wb 0 1 = .wb 0 1 ∧ ∃ js, js = hartOpen.wordsIn 1) ∧
    Opened hartOpen 0 (distinct (((begun (rowWorld hartOpen) 0 hartOpen (.wbk 0 1 0)).positions 32).filter
      (hasBit (hartOpen.getK 0))|>.map (elemWord 32))) ∧
    Issues (rowWorld hartOpen) 0 hartOpen (.wb 0 1) ∧ Issues (rowWorld hartOpen) 0 hartOpen (.wbk 0 1 0) ∧
    (begun (rowWorld hartOpen) 0 hartOpen (.wb 0 1)).declared [0] = true ∧
    Brought hartOpen 0 (List.range (hartOpen.capacity 32)) ∧ Filled hartOpen 0 ∧ Hart.queued { hartOpen with late := true } < 16 ∧
    translateRow (begun (rowWorld hartOpen) 0 hartOpen (.wb 0 1)) (hartOpen.getX 1) (some 0) false true = .ok (0, 7) ∧
    (hartOpen.getV 0).openWays ≠ 0 ∧
    Issues (rowWorld { hartOpen with late := true }) 0 { hartOpen with late := true } (.wb 0 1) ∧ hartOpen.late = false :=
  ⟨⟨rfl, _, rfl⟩, by unfold Opened; decide, rowIssues _ rfl rfl, rowIssues _ rfl rfl, by decide, brought _ _ rfl rfl, rfl, by decide,
    rfl, by decide, rowIssues _ rfl rfl, rfl⟩

theorem test_witness_RowControlCompletes :
    Issues (rowWorld hart0) 0 hart0 (.pre 63) ∧ (begun (rowWorld hart0) 0 hart0 (.pre 63)).declared [63] = true ∧ Changeable hart0 63 ∧
    Issues (rowWorld hart0) 0 hart0 .preall ∧ (∀ v ∈ (begun (rowWorld hart0) 0 hart0 .preall).registers, Changeable hart0 v) ∧
    Issues (rowWorld hart0) 0 hart0 (.ref 1) ∧ Issues (rowWorld hart0) 0 hart0 (.ref 255) ∧
    hart0.refDone < (1 : BitVec 8).toNat ∧ hart0.refDone + 1 = (1 : BitVec 8).toNat ∧ hart0.refDone + 1 < (255 : BitVec 8).toNat ∧
    Issues (rowWorld hart0) 0 hart0 (.refn 1) ∧
    translateRow (begun (rowWorld hart0) 0 hart0 (.refn 1)) (hart0.getX 1) none true false = .ok (0, 7) ∧
    Undebugged hart0 ∧ ((begun (rowWorld hartOpen) 0 hartOpen (.pre 0)).h.getV 0).openWays ≠ 0 ∧ hartOpen.engages 0 = false :=
  ⟨rowIssues _ rfl rfl, by decide, changeable _ rfl rfl rfl, rowIssues _ rfl rfl, fun v _ => changeable v rfl rfl rfl, rowIssues _ rfl rfl,
    rowIssues _ rfl rfl, by decide, by decide, by decide, rowIssues _ rfl rfl, rfl, ⟨rfl, rfl⟩, by decide, (engages_nothing 0 rfl rfl).1⟩

theorem test_witness_ConfigCompletes :
    Issues (world hart0) 0 hart0 (.vgeom 3) ∧ hart0.lanes ≠ 0 ∧
    (begun (world hart0) 0 hart0 (.vgeom 3)).header.vregCount ≤ 8 * 2 ^ (3 : BitVec 2).toNat ∧ hart0.transport = none ∧
    hart0.tileLoad = none ∧ (∀ e ∈ hart0.elems, e.isLate = false) ∧
    Issues (world hart0) 0 hart0 (.vtype 63 1 0x15) ∧
    (begun (world hart0) 0 hart0 (.vtype 63 1 0x15)).declared (if (TypeTag.ofCode 0x15).isMx then [63, 1] else [63]) = true ∧
    Changeable hart0 63 ∧ Issues (world hart0) 0 hart0 (.vsetvl 1 2 3) ∧ Issues (world hart0) 0 hart0 (.vlopen 63) ∧
    (begun (world hart0) 0 hart0 (.vlopen 63)).declared [63] = true ∧
    Issues (world hart0) 0 hart0 (.pfx 7 true true true 63 true) ∧ OffLoopEnd hart0 ∧
    (begun (world hart0) 0 hart0 (.pfx 7 true true true 63 true)).declared [63] = true :=
  ⟨issues _ rfl rfl, by decide, by decide, rfl, rfl, by decide, issues _ rfl rfl, by decide, changeable _ rfl rfl rfl, issues _ rfl rfl, issues _ rfl rfl,
    by decide, issues _ rfl rfl, fun e rest h => (by cases h), by decide⟩

/-! ## What the statements about vector instructions assume -/

/-- A hart at `vl` 1 with registers v0 to v3 open, of tag uint32. -/
def hartVec : Hart :=
  { hart0 with vl := 1, v := [(0, { openWays := 1 }), (1, { openWays := 1 }), (2, { openWays := 1 }), (3, { openWays := 1 })] }

/-- The same with lane word 0 of v1 poisoned. -/
def hartBad : Hart := { hartVec with v := put hartVec.v 1 { openWays := 1, words := [(0, ⟨0, true⟩)] } }

theorem readyReg {h : Hart} (v : VNum) (es : List Nat) (h0 : h.elems = []) (h1 : h.transport = none) (h3 : h.chans = [])
    (ho : Opened h v (es.map (elemWord (h.getV v).tag.width))) (hm : (h.getV v).tag.isMx = false) (hq : h.waiting = [] := by rfl) :
    OperandReady h (.reg v (h.getV v)) es := by
  refine ⟨arrived v es h0 h1 h3 hq, ho, fun hx => ?_⟩
  rw [hm] at hx
  cases hx

theorem operandBrought {h : Hart} (v : VNum) (es : List Nat) (h1 : h.transport = none) (h3 : h.chans = [])
    (ho : Opened h v (es.map (elemWord (h.getV v).tag.width))) (hm : (h.getV v).tag.isMx = false) : OperandBrought h v es := by
  refine ⟨brought v es h1 h3, ho, fun hx => ?_⟩
  rw [hm] at hx
  cases hx

theorem test_witness_ElementwiseCompletes :
    elementForm (.vadd 0 0 1 2 false false false) = some (.add', 0, 0, 1, .vec 2) ∧
    Issues (world hartVec) 0 hartVec (.vadd 0 0 1 2 false false false) ∧
    ElementReady (begun (world hartVec) 0 hartVec (.vadd 0 0 1 2 false false false)) .add' 0 0 1 (.vec 2) :=
  ⟨rfl, issues _ rfl rfl, by decide, by decide, ⟨by decide, fun v hv => (by cases hv)⟩, by decide, by decide, idle _ rfl rfl rfl rfl,
    (by unfold Opened; decide), readyReg 1 _ rfl rfl rfl (by unfold Opened; decide) (by decide),
    readyReg 2 _ rfl rfl rfl (by unfold Opened; decide) (by decide), fun h => (by cases h)⟩

theorem test_witness_CompareCompletes :
    compareForm (.vcmpLtu 0 3 1 2 false false false) = some (.ltu, 0, 3, 1, .vec 2) ∧
    Issues (world hartVec) 0 hartVec (.vcmpLtu 0 3 1 2 false false false) ∧
    Issues (world hartBad) 0 hartBad (.vcmpLtu 0 3 1 2 false false false) ∧ hartVec.vl ≠ 0 ∧
    (begun (world hartVec) 0 hartVec (.vcmpLtu 0 3 1 2 false false false)).declared [1, 2] = true ∧
    (begun (world hartVec) 0 hartVec (.vcmpLtu 0 3 1 2 false false false)).copyOk none = true ∧
    OperandReady hartVec (.reg 1 (hartVec.getV 1)) [0] ∧ OperandReady hartVec (.reg 2 (hartVec.getV 2)) [0] ∧
    (Operand.reg 1 (hartVec.getV 1)).tag.isInt = true ∧
    (begun (world hartVec) 0 hartVec (.vcmpLtu 0 3 1 2 false false false)).active 32 = [0] ∧
    (Operand.reg 1 (hartVec.getV 1)).poisoned hartVec 0 = false ∧ (Operand.reg 2 (hartVec.getV 2)).poisoned hartVec 0 = false ∧
    OperandReady hartBad (.reg 1 (hartBad.getV 1)) [0] ∧ OperandReady hartBad (.reg 2 (hartBad.getV 2)) [0] ∧
    ((begun (world hartBad) 0 hartBad (.vcmpLtu 0 3 1 2 false false false)).active 32).find? (fun e =>
      (Operand.reg 1 (hartBad.getV 1)).poisoned hartBad e || (Operand.reg 2 (hartBad.getV 2)).poisoned hartBad e) = some 0 :=
  ⟨rfl, issues _ rfl rfl, issues _ rfl rfl, by decide, by decide, by decide,
    readyReg 1 _ rfl rfl rfl (by unfold Opened; decide) (by decide), readyReg 2 _ rfl rfl rfl (by unfold Opened; decide) (by decide), by decide,
    by decide, by decide, by decide, readyReg 1 _ rfl rfl rfl (by unfold Opened; decide) (by decide),
    readyReg 2 _ rfl rfl rfl (by unfold Opened; decide) (by decide), by decide⟩

theorem test_witness_DataMovementCompletes :
    (selectForm (.vsel 0 0 1 2 false false false) = some (0, 0, 1, .vec 2) ∧
      Issues (world hartVec) 0 hartVec (.vsel 0 0 1 2 false false false) ∧
      CopyReady (begun (world hartVec) 0 hartVec (.vsel 0 0 1 2 false false false)) 0 32 ∧
      (begun (world hartVec) 0 hartVec (.vsel 0 0 1 2 false false false)).declared [0, 1, 2] = true ∧
      (∀ v ∈ ([1, 2] : List VNum), OperandReady hartVec (.reg v (hartVec.getV v)) [0]) ∧
      (∀ v ∈ ([1, 2] : List VNum), (hartVec.getV 0).sameTag (hartVec.getV v) = true) ∧ Opened hartVec 0 [0] ∧ Idle hartVec 0 ∧
      (begun (world hartVec) 0 hartVec (.vsel 0 0 1 2 false false false)).positions 32 = [0]) ∧
    (Issues (world hartVec) 0 hartVec (.vsplat 0 5 true) ∧ Issues (world hartVec) 0 hartVec (.viota 0 true) ∧
      (hartVec.getV 0).tag.isInt = true ∧
      (begun (world hartVec) 0 hartVec (.viota 0 true)).active 32 ++ (begun (world hartVec) 0 hartVec (.viota 0 true)).zeroed 32 = [0]) ∧
    Issues (world hartVec) 0 hartVec (.vins 0 1 2 false) ∧
    (Issues (world hartVec) 0 hartVec (.vext 1 1 2 false false) ∧
      (hartVec.getX 2).toNat ∈ (begun (world hartVec) 0 hartVec (.vext 1 1 2 false false)).active 32 ∧
      OperandReady hartVec (.reg 1 (hartVec.getV 1)) [0] ∧ hartVec.badElem (hartVec.getV 1) 0 = false) ∧
    ((hartVec.setX 2 1).getX 2).toNat ∉
      (begun (world (hartVec.setX 2 1)) 0 (hartVec.setX 2 1) (.vext 1 1 2 false false)).active 32 :=
  ⟨⟨rfl, issues _ rfl rfl, ⟨by decide, fun v hv => (by cases hv)⟩, by decide,
      (fun v hv => by
        have : v = 1 ∨ v = 2 := by simpa using hv
        obtain rfl | rfl := this <;> exact readyReg _ _ rfl rfl rfl (by unfold Opened; decide) (by decide)),
      by decide, (by unfold Opened; decide), idle _ rfl rfl rfl rfl, by decide⟩,
    ⟨issues _ rfl rfl, issues _ rfl rfl, by decide, by decide⟩, issues _ rfl rfl,
    ⟨issues _ rfl rfl, by decide, readyReg 1 _ rfl rfl rfl (by unfold Opened; decide) (by decide), by decide⟩, by decide⟩

theorem test_witness_MaskCompletes :
    Issues (world hartVec) 0 hartVec (.kset 1 2) ∧ hartVec.lanes ≠ 0 ∧
    (∃ f, maskForm (.kset 1 2) hartVec = some (1, f)) ∧ Issues (world hartVec) 0 hartVec (.kfirst 1 2) ∧
    maskCount (.kfirst 1 2) [] = some (2, 1, -1) ∧
    ([] : List Nat) = (List.range (min hartVec.vl (hartVec.vlmax * 8))).filter (hasBit (hartVec.getK 1)) ∧
    Issues (world hartVec) 0 hartVec (.kany 1 2) ∧ Issues (world hartVec) 0 hartVec (.kall 1 2) :=
  ⟨issues _ rfl rfl, by decide, ⟨_, rfl⟩, issues _ rfl rfl, rfl, by decide, issues _ rfl rfl, issues _ rfl rfl⟩

theorem test_witness_ReductionCompletes :
    reduceForm (.vradd 1 1 2 false false true) = some (.add, 1, 1, 2, true) ∧
    Issues (world hart0) 0 hart0 (.vradd 1 1 2 false false true) ∧ hart0.vl = 0 ∧
    Issues (world hartVec) 0 hartVec (.vradd 1 1 2 false false true) ∧ hartVec.vl ≠ 0 ∧
    (begun (world hartVec) 0 hartVec (.vradd 1 1 2 false false true)).declared [1] = true ∧
    (begun (world hartVec) 0 hartVec (.vradd 1 1 2 false false true)).copyOk none = true ∧
    (∃ t, redType (hartVec.getV 1).tag true = some t) ∧ OperandReady hartVec (.reg 1 (hartVec.getV 1)) [0] ∧
    (begun (world hartVec) 0 hartVec (.vradd 1 1 2 false false true)).active 32 = [0] ∧
    (Operand.reg 1 (hartVec.getV 1)).poisoned hartVec 0 = false :=
  ⟨rfl, issues _ rfl rfl, rfl, issues _ rfl rfl, by decide, by decide, by decide, ⟨_, rfl⟩,
    readyReg 1 _ rfl rfl rfl (by unfold Opened; decide) (by decide), by decide, by decide⟩

theorem test_witness_PermuteCompletes :
    (∃ f, permuteForm (.vperm 0 1 2 false false false) = some (0, 1, some 2, f)) ∧
    Issues (world hartVec) 0 hartVec (.vperm 0 1 2 false false false) ∧ hartVec.vl ≠ 0 ∧
    (begun (world hartVec) 0 hartVec (.vperm 0 1 2 false false false)).declared [0, 1, 2] = true ∧
    CopyReady (begun (world hartVec) 0 hartVec (.vperm 0 1 2 false false false)) 0 32 ∧ Idle hartVec 0 ∧
    (hartVec.getV 0).sameTag (hartVec.getV 1) = true ∧ OperandReady hartVec (.reg 1 (hartVec.getV 1)) [0] ∧ Opened hartVec 0 [0] ∧
    (hartVec.getV 2).tag.isInt = true ∧ (hartVec.getV 2).tag.width = 32 ∧ Arrived hartVec 2 [0] ∧ Opened hartVec 2 [0] :=
  ⟨⟨_, rfl⟩, issues _ rfl rfl, by decide, by decide, ⟨by decide, fun v hv => (by cases hv)⟩, idle _ rfl rfl rfl rfl, by decide,
    readyReg 1 _ rfl rfl rfl (by unfold Opened; decide) (by decide), by unfold Opened; decide, by decide, by decide, arrived _ _ rfl rfl rfl,
    by unfold Opened; decide⟩

theorem test_witness_CompressCompletes :
    Issues (world hartVec) 0 hartVec (.vcompIdx 0 1 2 false false) ∧ Issues (world hartVec) 0 hartVec (.vexpd 0 1 false false) ∧
    hartVec.vl ≠ 0 ∧ CopyReady (begun (world hartVec) 0 hartVec (.vcompIdx 0 1 2 false false)) 0 32 ∧
    (hartVec.getV 0).sameTag (hartVec.getV 1) = true ∧ Idle hartVec 0 ∧
    (begun (world hartVec) 0 hartVec (.vcompIdx 0 1 2 false false)).declared [0, 1, 2] = true ∧
    OperandReady hartVec (.reg 1 (hartVec.getV 1)) [0] ∧ Opened hartVec 0 [0] ∧ (2 : VNum) ≠ 0 ∧ (2 : VNum) ≠ 1 ∧ (hartVec.getV 2).tag.isInt = true ∧
    (hartVec.getV 2).tag.width = 32 ∧ Idle hartVec 2 ∧ Opened hartVec 2 [0] ∧
    (begun (world hartVec) 0 hartVec (.vcompIdx 0 1 2 false false)).active 32 = [0] ∧
    (begun (world hartVec) 0 hartVec (.vcompIdx 0 1 2 false false)).zeroing = false :=
  ⟨issues _ rfl rfl, issues _ rfl rfl, by decide, ⟨by decide, fun v hv => (by cases hv)⟩, by decide, idle _ rfl rfl rfl rfl, by decide,
    readyReg 1 _ rfl rfl rfl (by unfold Opened; decide) (by decide), by unfold Opened; decide, by decide, by decide, by decide, by decide,
    idle _ rfl rfl rfl rfl, by unfold Opened; decide, by decide, by decide⟩

theorem test_witness_ZeroLengthCompletes :
    Issues (world hart0) 0 hart0 (.vadd 0 63 1 2 false false false) ∧ hart0.vl = 0 ∧
    (begun (world hart0) 0 hart0 (.vadd 0 63 1 2 false false false)).declared (63 :: 1 :: (BSource.vec 2).regs) = true ∧
    (begun (world hart0) 0 hart0 (.vadd 0 63 1 2 false false false)).copyOk (some 63) = true ∧
    elementForm (.vadd 0 63 1 2 false false false) = some (.add', 0, 63, 1, .vec 2) ∧
    selectForm (.vsel 0 63 1 2 false false false) = some (0, 63, 1, .vec 2) ∧
    (∃ f, permuteForm (.vrot 63 1 2 false false) = some (63, 1, none, f)) ∧ vloadForm (.vld 63 1 false) = some (63, .unit, 1) ∧
    (begun (world hart0) 0 hart0 (.vst 63 1 false false)).copyOk none = true ∧ vstoreForm (.vst 63 1 false false) = some (63, .unit, 1) ∧
    updateForm (.vupdAdd 63 1 2 false false) = some (.add, 63, 1, 2) ∧
    compareForm (.vcmpLtu 0 3 1 2 false false false) = some (.ltu, 0, 3, 1, .vec 2) ∧
    (∀ i, Issues (world { hart0 with tileHeld := true }) 0 { hart0 with tileHeld := true } i) ∧ tileForm (.tmuls 0 2 1) = some [0, 2] ∧
    (begun (world { hart0 with tileHeld := true }) 0 { hart0 with tileHeld := true } (.tmuls 0 2 1)).header.tile = 1 ∧ hart0.lanes % 32 = 0 ∧
    (begun (world { hart0 with tileHeld := true }) 0 { hart0 with tileHeld := true } (.tmuls 0 2 1)).declared [0, 2] = true :=
  ⟨issues _ rfl rfl, rfl, by decide, by decide, rfl, rfl, ⟨_, rfl⟩, rfl, by decide, rfl, rfl, rfl, fun i => issues i rfl rfl, rfl, by decide,
    by decide, by decide⟩

theorem test_witness_ElementWriteFrame :
    (4 = 4 ∨ 4 = 8 ∨ 4 = 16 ∨ 4 = 32) ∧ (∀ x ∈ ([⟨7, 1, false⟩] : List Elem), x.e ≠ 8) ∧
    ([⟨7, 1, false⟩] : List Elem) = [] ++ ⟨7, 1, false⟩ :: [] ∧ (∀ x ∈ ([⟨7, 1, false⟩] : List Elem), elemWord 4 x.e ≠ 1) ∧
    (∃ x ∈ ([⟨7, 1, false⟩] : List Elem), elemWord 4 x.e = 0) := by decide

/-! ## What the statements about vector memory, collectives, tiles and small matrices assume -/

/-- The same hart, with a result that stands for itself (log 6). -/
def hartLate : Hart := { hartVec with late := true }

theorem test_witness_VectorLoadCompletes :
    vloadForm (.vld 0 1 false) = some (0, .unit, 1) ∧ Issues (world hartVec) 0 hartVec (.vld 0 1 false) ∧ hartVec.vl ≠ 0 ∧
    (begun (world hartVec) 0 hartVec (.vld 0 1 false)).declared [0] = true ∧
    CopyReady (begun (world hartVec) 0 hartVec (.vld 0 1 false)) 0 32 ∧ IndexReady (begun (world hartVec) 0 hartVec (.vld 0 1 false)) .unit 32 [0] ∧
    Changeable hartVec 0 ∧ Idle hartVec 0 ∧ Opened hartVec 0 [0] ∧ (begun (world hartVec) 0 hartVec (.vld 0 1 false)).active 32 = [0] ∧
    (begun (world hartVec) 0 hartVec (.vld 0 1 false)).zeroed 32 = [] ∧
    Touches (begun (world hartVec) 0 hartVec (.vld 0 1 false)) ⟨true, false, true⟩ 4 [(0, 0)] [⟨0, 0, 0, 7⟩]
      (begun (world hartVec) 0 hartVec (.vld 0 1 false)) ∧
    elementsOf (begun (world hartVec) 0 hartVec (.vld 0 1 false)) .unit 32 1 = [(0, 0)] ∧ hartVec.remote = [] ∧
    (∀ u ∈ ([⟨0, 0, 0, 7⟩] : List Touch), regionOf u.pa ≠ .remote ∧ leafRec u.leaf = false) ∧ hartVec.late = false ∧
    Issues (world hartLate) 0 hartLate (.vld 0 1 false) ∧ hartLate.late = true ∧ hartLate.queued < 16 ∧
    (begun (world hartLate) 0 hartLate (.vld 0 1 false)).copyReg = none ∧
    Touches (begun (world hartLate) 0 hartLate (.vld 0 1 false)) ⟨true, false, true⟩ 4
      (elementsOf (begun (world hartLate) 0 hartLate (.vld 0 1 false)) .unit 32 1) [⟨0, 0, 0, 7⟩]
      (begun (world hartLate) 0 hartLate (.vld 0 1 false)) :=
  ⟨rfl, issues _ rfl rfl, by decide, by decide, ⟨by decide, fun v hv => (by cases hv)⟩, trivial, changeable _ rfl rfl rfl, idle _ rfl rfl rfl rfl,
    by unfold Opened; decide, by decide, by decide, ⟨by decide, rfl, by decide⟩, by decide, rfl, by decide, rfl, issues _ rfl rfl, rfl, by decide, rfl,
    ⟨by decide, rfl, by decide⟩⟩

/-- A hart that goes past a store of v1 while a load is still to write it. -/
def hartStoreLate : Hart :=
  { hartLate with elems := [⟨0, 0, 0x200, 0x200, .read 1 .uint32 none, [0, 0, 0, 0], false, false, false, 0x10000, []⟩], elemSeq := 1 }

theorem test_witness_VectorStoreCompletes_late :
    Issues (world hartStoreLate) 0 hartStoreLate (.vst 1 1 false false) ∧ StoreReady hartStoreLate 1 [0] [⟨0, 0, 0, 7⟩] ∧
    hartStoreLate.awaits 1 = true :=
  ⟨issues _ rfl rfl, Or.inr ⟨rfl, by decide, operandBrought _ _ rfl rfl (by unfold Opened; decide) (by decide), by decide⟩, by decide⟩

theorem test_witness_VectorStoreCompletes :
    Issues (world hartVec) 0 hartVec (.vst 1 1 false false) ∧ Issues (world hartVec) 0 hartVec (.vupdXor 1 2 1 false false) ∧
    hartVec.vl ≠ 0 ∧ OperandReady hartVec (.reg 1 (hartVec.getV 1)) [0] ∧ StoreReady hartVec 1 [0] [⟨0, 0, 0, 7⟩] ∧
    vstoreForm (.vst 1 1 false false) = some (1, .unit, 1) ∧
    updateForm (.vupdXor 1 2 1 false false) = some (.xor, 1, 2, 1) ∧ UpdOp.on .xor (hartVec.getV 1).tag = some .xor ∧
    (begun (world hartVec) 0 hartVec (.vst 1 1 false false)).declared [1] = true ∧
    (begun (world hartVec) 0 hartVec (.vupdXor 1 2 1 false false)).declared [1, 2] = true ∧
    (begun (world hartVec) 0 hartVec (.vst 1 1 false false)).copyOk none = true ∧
    (begun (world hartVec) 0 hartVec (.vst 1 1 false false)).active 32 = [0] ∧ hartVec.badElem (hartVec.getV 1) 0 = false ∧
    IndexReady (begun (world hartVec) 0 hartVec (.vupdXor 1 2 1 false false)) (.indexed 2 false) 32 [0] ∧
    Touches (begun (world hartVec) 0 hartVec (.vst 1 1 false false)) ⟨false, true, true⟩ 4 [(0, 0)] [⟨0, 0, 0, 7⟩]
      (begun (world hartVec) 0 hartVec (.vst 1 1 false false)) ∧
    Touches (begun (world hartVec) 0 hartVec (.vupdXor 1 2 1 false false)) ⟨true, true, false⟩ 4 [(0, 0)] [⟨0, 0, 0, 7⟩]
      (begun (world hartVec) 0 hartVec (.vupdXor 1 2 1 false false)) ∧
    elementsOf (begun (world hartVec) 0 hartVec (.vst 1 1 false false)) .unit 32 1 = [(0, 0)] ∧
    elementsOf (begun (world hartVec) 0 hartVec (.vupdXor 1 2 1 false false)) (.indexed 2 false) 32 1 = [(0, 0)] ∧
    (∀ u ∈ ([⟨0, 0, 0, 7⟩] : List Touch), regionOf u.pa ≠ .remote) :=
  ⟨issues _ rfl rfl, issues _ rfl rfl, by decide, readyReg 1 _ rfl rfl rfl (by unfold Opened; decide) (by decide),
    Or.inl (readyReg 1 _ rfl rfl rfl (by unfold Opened; decide) (by decide)), rfl, rfl, rfl, by decide, by decide, by decide, by decide, by decide,
    ⟨by decide, by decide, by decide, arrived _ _ rfl rfl rfl, by unfold Opened; decide, by decide⟩,
    ⟨by decide, rfl, by decide⟩, ⟨by decide, rfl, by decide⟩, by decide, by decide, by decide⟩

/-- Harts with the read of an element into v0, and the store of a high nibble, sent. -/
def hartRead : Hart := { hart0 with elems := [⟨0, 3, 0x20C, 0x20C, .read 0 .uint32 none, [0, 0, 0, 0], false, false, false, 0x10000, []⟩] }
def hartNibble : Hart := { hart0 with elems := [⟨0, 1, 0x200, 0x200, .nibble true, [5], false, false, false, 0x10000, []⟩] }

theorem test_witness_ElementWritePerforms :
    Memory.wf (world hartElem).mem = true ∧ (world hartElem).hart? 0 = some hartElem ∧
    hartElem.elems[0]? = some ⟨0, 0, 0x200, 0x200, .addI, [1, 0, 0, 0], false, false, false, 0x10000, []⟩ ∧
    mayPerform hartElem 0 = true ∧ GoodBytes (world hartElem) 0x200 4 ∧ ([1, 0, 0, 0] : List Byte).length ≤ 4 ∧
    ([1, 0, 0, 0] : List Byte) = toBytes 4 (elemUpdate .addI false (readNat (world hartElem) 0x200 4) (ofBytes [1, 0, 0, 0])) ∧
    (∀ e ∈ hartElem.elems, e.isLate = false ∧ e.poison = false) ∧
    mayPerform hartRead 0 = true ∧ (none : Option VNum) ≠ some 0 ∧ regionOf 0x20C ≠ .remote ∧ mayPerform hartNibble 0 = true ∧
    ([0x50] : List Byte) =
      [BitVec.ofNat 8 ((readByte (world hartNibble).mem 0x200).toNat % 16 + (([5] : List Byte).getD 0 0).toNat % 16 * 16)] :=
  ⟨by decide, rfl, rfl, by decide, ⟨by decide, by decide⟩, by decide, by decide, by decide, by decide, by decide, by decide, by decide, by decide⟩

theorem test_witness_ScratchCompletes :
    Issues (world hartVec) 0 hartVec (.vlsx 0 1 2 false false) ∧ Issues (world hartVec) 0 hartVec (.vssx 0 1 2 false false) ∧
    hartVec.vl ≠ 0 ∧ (begun (world hartVec) 0 hartVec (.vlsx 0 1 2 false false)).declared [0, 1] = true ∧
    (begun (world hartVec) 0 hartVec (.vlsx 0 1 2 false false)).active 32 = [0] ∧
    IndexReady (begun (world hartVec) 0 hartVec (.vlsx 0 1 2 false false)) (.indexed 1 false) 32 [0] ∧
    ((begun (world hartVec) 0 hartVec (.vlsx 0 1 2 false false)).offset 1 0).toNat = 0 ∧ (hartVec.getX 2).toNat = 0 ∧
    0 % elemBytes 32 = 0 ∧ 0 + elemBytes 32 ≤ (begun (world hartVec) 0 hartVec (.vlsx 0 1 2 false false)).header.scratch ∧
    CopyReady (begun (world hartVec) 0 hartVec (.vlsx 0 1 2 false false)) 0 32 ∧ Idle hartVec 0 ∧ Opened hartVec 0 [0] ∧
    OperandReady hartVec (.reg 0 (hartVec.getV 0)) [0] ∧ (begun (world hartVec) 0 hartVec (.vssx 0 1 2 false false)).copyOk none = true :=
  ⟨issues _ rfl rfl, issues _ rfl rfl, by decide, by decide, by decide,
    ⟨by decide, by decide, by decide, arrived _ _ rfl rfl rfl, by unfold Opened; decide, by decide⟩, by decide, by decide, by decide,
    by decide, ⟨by decide, fun v hv => (by cases hv)⟩, idle _ rfl rfl rfl rfl, by unfold Opened; decide,
    readyReg 0 _ rfl rfl rfl (by unfold Opened; decide) (by decide), by decide⟩

/-- A module with an empty queue block of four 4-byte entries at address 0x40, its ring at 0x80; and one with a block without room. -/
def queueWorld : Hart → State := worldWith [(0x40, 0x80), (0x48, 4), (0x4C, 2)]
def fullWorld : Hart → State := worldWith [(0x40, 0x80), (0x48, 4), (0x4C, 2), (0x58, 4)]

/-- Harts with the block's address in x1, without and with open registers. -/
def hartQueue : Hart := hart0.setX 1 0x40
def hartCapture : Hart := hartVec.setX 1 0x40

/-- The context in which a capture has reached its block, and where its word goes. -/
def captureCtx (s : State) : Ctx :=
  (((begun s 0 hartCapture (.vcapp 1 1 false false)).countMisses [(0, 0x40)]).drainMeeting (span 0x40 64)).readBlockAt (0x40, 7)
def capturePlaces (s : State) : Option (List Nat) × Ctx :=
  let q := readBlock (captureCtx s).s 0x40
  appendPlaces ((captureCtx s).countBlock q 1) q 1

/-- A hart whose capture is on its way to the block. -/
def hartAppend : Hart := { hartCapture with elems := [⟨0, 0, 0x40, 0x40, .append [(0x80, 16)] true, [5, 0, 0, 0], false, false, false, 0x10000, []⟩] }

/-- The same hart with a prefix pending whose mask k1 holds no bit. -/
def hartMasked : Hart := { hartCapture with pfx := some ⟨1, false, false, false, 0, false, 0x4000⟩ }

theorem test_witness_CaptureCompletes :
    Issues (queueWorld hartCapture) 0 hartCapture (.vcapp 1 1 false false) ∧
    (begun (queueWorld hartCapture) 0 hartCapture (.vcapp 1 1 false false)).declared [1] = true ∧
    (begun (queueWorld hartCapture) 0 hartCapture (.vcapp 1 1 false false)).copyOk none = true ∧ hartQueue.vl = 0 ∧
    hartCapture.vl ≠ 0 ∧ (hartCapture.getV 1).tag = .uint32 ∧ Arrived hartCapture 1 [0] ∧ Opened hartCapture 1 [0] ∧
    (begun (queueWorld hartCapture) 0 hartCapture (.vcapp 1 1 false false)).active 32 = [0] ∧
    blockAt ((begun (queueWorld hartCapture) 0 hartCapture (.vcapp 1 1 false false)).countMisses [(0, hartCapture.getX 1)]) (hartCapture.getX 1) =
      .ok ((0x40, 7), (begun (queueWorld hartCapture) 0 hartCapture (.vcapp 1 1 false false)).countMisses [(0, 0x40)]) ∧
    hartCapture.badElem (hartCapture.getV 1) 0 = false ∧ badBytes (queueWorld hartCapture) 0x40 64 = false ∧
    (capturePlaces (queueWorld hartCapture)).1 = some [0x80] ∧ (capturePlaces (fullWorld hartCapture)).1 = none ∧
    badEntry (capturePlaces (queueWorld hartCapture)).2.s [0x80] = none ∧ hartCapture.late = false ∧
    Issues (queueWorld { hartCapture with late := true }) 0 { hartCapture with late := true } (.vcapp 1 1 false false) ∧
    ((queueWorld hartAppend).hart? 0 = some hartAppend ∧ mayPerform hartAppend 0 = true ∧ regionOf 0x40 ≠ .remote) ∧
    Issues (queueWorld hartMasked) 0 hartMasked (.vcapp 1 1 false false) ∧
    (begun (queueWorld hartMasked) 0 hartMasked (.vcapp 1 1 false false)).active 32 = [] ∧
    (begun (queueWorld hartMasked) 0 hartMasked (.vcapp 1 1 false false)).copyOk none = true :=
  ⟨⟨rfl, rfl, rfl, rfl, rfl, fun p hp => (by cases hp)⟩, by decide, by decide, rfl, by decide, by decide, arrived _ _ rfl rfl rfl,
    by unfold Opened; decide, by decide, rfl, by decide, by decide, by decide, by decide, by decide, rfl,
    ⟨rfl, rfl, rfl, rfl, rfl, fun p hp => (by cases hp)⟩, ⟨rfl, by decide, by decide⟩,
    ⟨rfl, rfl, rfl, rfl, rfl, fun p hp => (by cases hp; decide)⟩, by decide, by decide⟩

/-- The task as a gang, and a module in which its hart waits at a collective. -/
def gangTask : Task := { probeTask with srec := { probeTask.srec with mode := 1 } }
def gangWorld (h : Hart) : State := { world h with tasks := [(0, gangTask)] }
def hartJoin : Hart := { hartVec with wait := .collective, coll := some ⟨2, 0, 1, 0⟩ }

theorem gangIssues {h : Hart} (i : Instr) (h1 : h.dbg = none) (h2 : h.pfx = none) (h3 : h.atHead = false := by rfl)
    (h4 : h.waiting = [] := by rfl) : Issues (gangWorld h) 0 h i :=
  ⟨rfl, rfl, h3, h4, h1, fun p hp => by rw [h2] at hp; cases hp⟩

theorem test_witness_CollectiveCompletes :
    collectiveForm (.vallredAdd 0 1 false false) = some (2, 0, 1, none) ∧ Issues (world hartVec) 0 hartVec (.vallredAdd 0 1 false false) ∧
    (begun (world hartVec) 0 hartVec (.vallredAdd 0 1 false false)).declared [0, 1] = true ∧ hartVec.transport = none ∧
    (begun (world hartVec) 0 hartVec (.vallredAdd 0 1 false false)).gang = false ∧ hart0.vl = 0 ∧ hartVec.vl ≠ 0 ∧
    collTagsOk 2 (hartVec.getV 0) (hartVec.getV 1) = true ∧ Idle hartVec 0 ∧ OperandReady hartVec (.reg 1 (hartVec.getV 1)) [0] ∧
    (begun (world hartVec) 0 hartVec (.vallredAdd 0 1 false false)).positions 32 = [0] ∧ Opened hartVec 0 [0] ∧
    hartVec.filmMode = 0 ∧ Issues (gangWorld hartVec) 0 hartVec (.vallredAdd 0 1 false false) ∧
    (begun (gangWorld hartVec) 0 hartVec (.vallredAdd 0 1 false false)).gang = true :=
  ⟨rfl, issues _ rfl rfl, by decide, rfl, by decide, rfl, by decide, by decide, idle _ rfl rfl rfl rfl,
    readyReg 1 _ rfl rfl rfl (by unfold Opened; decide) (by decide), by decide, by unfold Opened; decide, by decide, gangIssues _ rfl rfl, by decide⟩

/-- Harts with a collective's words, and with a tile load, still under way. -/
def hartTransport : Hart := { hartVec with transport := some ⟨0, 1, [(0, ⟨5, false⟩)]⟩ }
def hartTld : Hart := { hartVec with tileHeld := true, tileLoad := some ⟨1, false, [(0, ⟨5, false⟩)]⟩ }

theorem test_witness_TransportStepsComplete :
    (gangWorld hartJoin).task? 0 = some gangTask ∧ joinDue (participants (gangWorld hartJoin) gangTask 0) = true ∧
    (∀ e ∈ (participants (gangWorld hartJoin) gangTask 0).zipIdx, ∃ k c, e.1.2.coll = some k ∧
      joinOutcome (gangWorld hartJoin) (participants (gangWorld hartJoin) gangTask 0) e.2 e.1.1 e.1.2 k = .ok c) ∧
    (world hartTransport).hart? 0 = some hartTransport ∧ find? (world hartTransport).shadows 0 = none ∧
    ([((0 : Nat), (⟨5, false⟩ : LaneWord))].filter (fun e => hartTransport.wordGroup e.1 == 0)) ≠ [] ∧
    (world hartTld).hart? 0 = some hartTld ∧ hartTld.tileLoad = some ⟨1, false, [(0, ⟨5, false⟩)]⟩ := by
  refine ⟨rfl, by decide, ?_, rfl, rfl, by decide, rfl, rfl⟩
  intro e he
  have hl : (participants (gangWorld hartJoin) gangTask 0).zipIdx = [((0, hartJoin), 0)] := rfl
  rw [hl] at he
  cases List.mem_singleton.1 he
  obtain ⟨c, hc⟩ := ok_of (e := joinOutcome (gangWorld hartJoin) (participants (gangWorld hartJoin) gangTask 0) 0 0 hartJoin ⟨2, 0, 1, 0⟩)
    (by decide)
  exact ⟨_, c, rfl, hc⟩

/-- A hart with a tile slot, register v0 of tag int8, v1 of tag fp32, v2 of tag uint8, `vl` 1; x1 is 0. -/
def hartTile : Hart := { hartVec with
  tileHeld := true
  v := [(0, { openWays := 1, tag := .int8 }), (1, { openWays := 1, tag := .fp32 }), (2, { openWays := 1, tag := .uint8 })] }

/-- The same with format 2, whose tiles have column scales. -/
def hartScales : Hart := { hartTile with tileFmt := 2 }.setX 1 0x8000

theorem tileHolds {h : Hart} (i : Instr) (rs : List VNum) (ht : h.tileHeld = true) (hk : h.task = 0) (hl : h.lanes = 32)
    (hd : rs.all (fun r => decide (r.toNat < 64)) = true) (hv : h.vl ≠ 0) : TileHolds (begun (world h) 0 h i) rs := by
  have hh : (begun (world h) 0 h i).header = probeHeader := by
    show (((world h).task? h.task).map (·.hdr)).getD noHeader = probeHeader
    rw [hk]
    rfl
  refine ⟨ht, by rw [hh]; rfl, by show h.lanes % 32 = 0; rw [hl], ?_, hv⟩
  have hg : probeHeader.vregCount = 64 := by decide
  simp only [Ctx.declared, hh, hg, Bool.and_eq_true]
  exact ⟨by show (h.lanes != 0) = true; rw [hl]; rfl, hd⟩

set_option maxRecDepth 4096 in
theorem test_witness_TileCompletes :
    (∀ i, Issues (world hartTile) 0 hartTile i) ∧
    (∀ i, TileHolds (begun (world hartTile) 0 hartTile i) [] ∧ TileHolds (begun (world hartTile) 0 hartTile i) [0] ∧
      TileHolds (begun (world hartTile) 0 hartTile i) [1] ∧ TileHolds (begun (world hartTile) 0 hartTile i) [0, 2]) ∧
    (hartTile.getX 1).toNat ≤ 3 ∧ hartTile.tileLoad = none ∧ hartTile.getX 1 &&& ~~~0x80FF = 0 ∧
    (hartTile.getV 0).tag = tileSource hartTile.tileFmt ∧ 0 + ceilDiv hartTile.vl 128 ≤ tileRows hartTile.tileFmt ∧
    ((hartScales.getX 1).getLsbD 15 = true ∧ (hartScales.getX 1).toNat % 256 = 0 ∧ (hartScales.getV 2).tag = .uint8 ∧
      2 ≤ hartScales.tileFmt) ∧
    (∀ v es, Arrived hartTile v es) ∧ Opened hartTile 0 [0] ∧ hartTile.getX 1 &&& ~~~0xFF01FF = 0 ∧
    tileOperand hartTile.tileFmt (hartTile.getV 0).tag = true ∧ OperandReady hartTile (.reg 0 (hartTile.getV 0)) [0] ∧
    (0 + 1) * tileRows hartTile.tileFmt ≤ hartTile.capacity 8 ∧
    (begun (world hartTile) 0 hartTile (.tmul 0 1)).rowUsable 0 = true ∧ (∀ f, RowsArrived hartTile f) ∧
    (begun (world hartTile) 0 hartTile (.tmuls 0 2 1)).positions 8 = [0] ∧ (hartTile.getV 2).bits 8 0 < 128 ∧
    hartTile.badElem (hartTile.getV 2) 0 = false ∧ Idle hartTile 1 ∧ (hartTile.getV 1).tag = .fp32 ∧
    Opened hartTile 1 (hartTile.outputs.map (fun p => p.1 * hartTile.perColumn + p.2)) ∧
    hartTile.getX 1 &&& ~~~0x1FF01FF = 0 ∧ 0 + (0 + 1) ≤ 512 ∧ hartTile.residue = none := by
  refine ⟨fun i => issues i rfl rfl, fun i => ⟨tileHolds i _ rfl rfl rfl ?_ (by decide), tileHolds i _ rfl rfl rfl ?_ (by decide),
      tileHolds i _ rfl rfl rfl ?_ (by decide), tileHolds i _ rfl rfl rfl ?_ (by decide)⟩,
    by decide, rfl, by decide, by decide, by decide, by decide, fun v es => arrived v es rfl rfl rfl, by unfold Opened; decide, by decide,
    by decide, readyReg 0 _ rfl rfl rfl (by unfold Opened; decide) (by decide), by decide, by decide, fun f t ht => (by cases ht), by decide,
    by decide, by decide, idle _ rfl rfl rfl rfl, by decide, by unfold Opened; decide, by decide, by decide, rfl⟩ <;> decide

/-- A hart whose small-matrix registers hold 1×1 matrices. -/
def hartMat : Hart := { hart0 with matShape := Vector.replicate 4 { rows := 1, cols := 1 } }

theorem test_witness_SmallMatrixCompletes :
    (∀ i, Issues (world hartMat) 0 hartMat i) ∧ (∀ i, HasMatrices (begun (world hartMat) 0 hartMat i)) ∧
    (∃ sh f, matrixForm (.mmul 0 1 2) (begun (world hartMat) 0 hartMat (.mmul 0 1 2)) = some (0, true, sh, f)) ∧
    (5 : BitVec 3).toNat ≤ 5 ∧ (∃ reads f, factorForm (.mchol 0 1) = some (0, 1, .cholesky, reads, f)) ∧
    (hartMat.shape 1).cols = (hartMat.shape 1).rows ∧
    (∀ l ∈ hartMat.laneList, ∀ p < (hartMat.shape 1).rows, ∀ q < (hartMat.shape 1).rows,
      ((hartMat.getMat l 1).at p q).bad = false) ∧
    (hartMat.getX 1).toNat % 4 = 0 ∧
    (hartMat.getX 1).toNat + 4 * ((hartMat.shape 0).rows * (hartMat.shape 0).cols) ≤ probeHeader.scratch ∧ hartMat.residue = none :=
  ⟨fun i => issues i rfl rfl, fun i => ⟨fun h => (by cases h), rfl⟩, ⟨_, _, rfl⟩, by decide, ⟨_, _, rfl⟩, by decide, by decide, by decide,
    by decide, rfl⟩

/-! ## What the statements about tasks, queues, keys, barriers and channels assume -/

/-- A test of the value of an action that goes on. -/
def okAnd {α : Type} (e : Except Stop α) (p : α → Bool) : Bool :=
  match e with
  | .ok a => p a
  | .error _ => false

theorem okAnd_ex {α : Type} {e : Except Stop α} {p : α → Bool} (h : okAnd e p = true) : ∃ a, e = .ok a ∧ p a = true := by
  cases e with
  | ok a => exact ⟨a, rfl, h⟩
  | error _ => cases h

/-- A task that waits for the lanes of column 0, and the module in which it waits beside hart 0. -/
def waitTask : Task :=
  { probeTask with
    srec := { probeTask.srec with pcount := 1 }
    pages := [⟨0, true, 0, 7⟩]
    stamp := 1, base := 1, aged := 1, phase := .waiting, harts := [], granted := 0 }

def busyWorld (h : Hart) : State :=
  { world h with
    tasks := [(0, { probeTask with base := 3, aged := 3 }), (1, waitTask)]
    queues := [(0, { seen := some 1, state := 1, tail := 1, capacity := 1 })]
    slots := [(0, 0)] }

theorem busyIssues {h : Hart} (i : Instr) (h1 : h.dbg = none) (h2 : h.pfx = none) (h3 : h.atHead = false := by rfl)
    (h4 : h.waiting = [] := by rfl) : Issues (busyWorld h) 0 h i :=
  ⟨rfl, rfl, h3, h4, h1, fun p hp => by rw [h2] at hp; cases hp⟩

theorem test_witness_TaskInstructionsComplete_1 :
    Issues (world hart0) 0 hart0 (.tspawn 2 1) ∧ hart0.filmMode = 0 ∧ (hart0.getX 1).toNat % 128 = 0 ∧
    placeGeneric (begun (world hart0) 0 hart0 (.tspawn 2 1)) (hart0.getX 1) 8 ⟨true, false, false⟩ =
      .ok ((0, 7), begun (world hart0) 0 hart0 (.tspawn 2 1)) ∧
    badBytes (world hart0) 0 128 = false ∧
    (∃ r, startRecordAt (begun (world hart0) 0 hart0 (.tspawn 2 1)).drainStores 0 = .ok r) ∧
    Issues (world hart0) 0 hart0 .texit ∧
    ∃ c, orderingStep { begun (world hart0) 0 hart0 .texit with h := { (begun (world hart0) 0 hart0 .texit).h with leaving := true } } = .ok c ∧
      (c.h.transport.isNone && c.h.tileLoad.isNone) = true := by
  refine ⟨issues _ rfl rfl, by decide, by decide, rfl, by decide, ok_of (by decide), issues _ rfl rfl, okAnd_ex (by decide)⟩

theorem test_witness_TaskInstructionsComplete_2 :
    Issues (world { hart0 with task := 9 }) 0 { hart0 with task := 9 } .tyield ∧
    (begun (world { hart0 with task := 9 }) 0 { hart0 with task := 9 } .tyield).task? = none ∧
    Issues (gangWorld { hart0 with rank := 1 }) 0 { hart0 with rank := 1 } .tyield ∧ gangTask.srec.mode % 2 = 1 ∧
    Issues (world hart0) 0 hart0 .tyield ∧
    lanesWanted (world hart0) 0 (classOf (world hart0) 0) (hart0.lanesOf) = none ∧
    Issues (busyWorld hart0) 0 hart0 .tyield ∧
    lanesWanted (busyWorld hart0) 0 (classOf (busyWorld hart0) 0) (hart0.lanesOf) = some 1 ∧
    Issues (world hart0) 0 hart0 (.tinfo 1 11) ∧ (11 : BitVec 5).toNat ≤ 11 ∧ hart0.filmMode = 0 ∧
    (begun (world hart0) 0 hart0 (.tinfo 1 11)).task? = some probeTask :=
  ⟨issues _ rfl rfl, rfl, gangIssues _ rfl rfl, by decide, issues _ rfl rfl, by decide, busyIssues _ rfl rfl, by decide,
    issues _ rfl rfl, by decide, by decide, rfl⟩

/-- The context in which a queue instruction has reached its block, and the block. -/
def queueCtx (s : State) : Ctx := (begun s 0 hartQueue (.qpush 1 2 3)).drainStores.readBlockAt (0x40, 7)
def queueBlock (s : State) : QBlock := readBlock (queueCtx s).s 0x40

/-- The entry at a position of the block, and the context after it. -/
def entryAt (s : State) (n : Nat) (blocked : Bool) : Option Nat × Ctx := queueEntry (queueCtx s) (queueBlock s) n blocked
def pushBlocked (s : State) : Bool := !(queueBlock s).ok || (queueBlock s).count == (queueBlock s).capacity
def popBlocked (s : State) : Bool := !(queueBlock s).ok || (queueBlock s).count == 0

theorem test_witness_QueueInstructionsComplete :
    Issues (queueWorld hartQueue) 0 hartQueue (.qpush 1 2 3) ∧ Issues (queueWorld hartQueue) 0 hartQueue (.qpop 2 1 3) ∧
    hartQueue.filmMode = 0 ∧
    blockAt (begun (queueWorld hartQueue) 0 hartQueue (.qpush 1 2 3)) (hartQueue.getX 1) =
      .ok ((0x40, 7), begun (queueWorld hartQueue) 0 hartQueue (.qpush 1 2 3)) ∧
    badBytes (begun (queueWorld hartQueue) 0 hartQueue (.qpush 1 2 3)).drainStores.s 0x40 64 = false ∧
    (let r := entryAt (queueWorld hartQueue) (queueBlock (queueWorld hartQueue)).tail (pushBlocked (queueWorld hartQueue))
     (r.1 == some 0x80 && r.2.h.dbg.isNone && r.2.h.filmMode == 0 && !badBytes r.2.s 0x80 4) = true) ∧
    (entryAt (queueWorld hartQueue) (queueBlock (queueWorld hartQueue)).head (popBlocked (queueWorld hartQueue))).1 = none ∧
    (entryAt (fullWorld hartQueue) (queueBlock (fullWorld hartQueue)).tail (pushBlocked (fullWorld hartQueue))).1 = none ∧
    (let r := entryAt (fullWorld hartQueue) (queueBlock (fullWorld hartQueue)).head (popBlocked (fullWorld hartQueue))
     (r.1 == some 0x80 && !badBytes r.2.s 0x80 4) = true) :=
  ⟨⟨rfl, rfl, rfl, rfl, rfl, fun p hp => (by cases hp)⟩, ⟨rfl, rfl, rfl, rfl, rfl, fun p hp => (by cases hp)⟩, by decide, rfl, by decide, by decide,
    by decide, by decide, by decide⟩

theorem test_witness_KeysAndStripsComplete :
    Issues (world hart0) 0 hart0 (.keyrel 1) ∧ Issues (world hart0) 0 hart0 (.keyq 2 1) ∧ (hart0.getX 1).toNat < 2 ^ 24 ∧
    hart0.filmMode = 0 ∧ Issues (world hart0) 0 hart0 (.strip 28 1 2) ∧ (28 : XReg).toNat % 2 = 0 ∧ 2 ≤ (28 : XReg).toNat ∧
    (28 : XReg).toNat ≤ 28 ∧ (hart0.getX 1).toNat < 2 ^ 50 ∧ (begun (world hart0) 0 hart0 (.strip 28 1 2)).task? = some probeTask :=
  ⟨issues _ rfl rfl, issues _ rfl rfl, by decide, by decide, issues _ rfl rfl, by decide, by decide, by decide, by decide, rfl⟩

/-- The gang with a phase already complete; harts that have arrived at the next barrier, once and twice. -/
def phaseWorld (h : Hart) : State := { world h with tasks := [(0, { gangTask with barC := 1 })] }
def hartAt : Hart := { hart0 with barA := 1 }

theorem phaseIssues {h : Hart} (i : Instr) (h1 : h.dbg = none) (h2 : h.pfx = none) (h3 : h.atHead = false := by rfl)
    (h4 : h.waiting = [] := by rfl) : Issues (phaseWorld h) 0 h i :=
  ⟨rfl, rfl, h3, h4, h1, fun p hp => by rw [h2] at hp; cases hp⟩

theorem test_witness_BarriersComplete :
    1 ≤ (4 : BitVec 3).toNat ∧ (4 : BitVec 3).toNat ≤ 4 ∧ Issues (gangWorld hart0) 0 hart0 (.bar 4) ∧
    (begun (gangWorld hart0) 0 hart0 (.bar 4)).gang = true ∧ (begun (gangWorld hart0) 0 hart0 (.bar 4)).drainStores.barC < 0 + 1 ∧
    Issues (phaseWorld hart0) 0 hart0 (.bar 4) ∧ (begun (phaseWorld hart0) 0 hart0 (.bar 4)).gang = true ∧
    (begun (phaseWorld hart0) 0 hart0 (.bar 4)).drainStores.h.barA ≤ (begun (phaseWorld hart0) 0 hart0 (.bar 4)).drainStores.barC ∧
    Issues (gangWorld hart0) 0 hart0 (.bara 4) ∧
    (begun (gangWorld hart0) 0 hart0 (.bara 4)).drainStores.h.barA ≤ (begun (gangWorld hart0) 0 hart0 (.bara 4)).drainStores.barC ∧
    Issues (gangWorld hart0) 0 hart0 (.barw 4) ∧ hart0.barA ≤ (begun (gangWorld hart0) 0 hart0 (.barw 4)).barC ∧
    Issues (gangWorld hartAt) 0 hartAt (.barw 4) ∧ (begun (gangWorld hartAt) 0 hartAt (.barw 4)).barC < hartAt.barA ∧
    (gangWorld hartAt).task? 0 = some gangTask ∧ gangTask.srec.mode % 2 = 1 ∧
    gangTask.harts.filterMap (fun e => ((gangWorld hartAt).hart? e.2).bind (fun h =>
      if h.status = .exited ∨ h.status = .ended then none else some (e.2, h))) = [(0, hartAt)] ∧ gangTask.barC < hartAt.barA :=
  ⟨by decide, by decide, gangIssues _ rfl rfl, by decide, by decide, phaseIssues _ rfl rfl, by decide, by decide, gangIssues _ rfl rfl,
    by decide, gangIssues _ rfl rfl, by decide, gangIssues _ rfl rfl, by decide, rfl, by decide, rfl, by decide⟩

/-- A channel of one element at an address, strip 1, into v0. -/
def oneChannel (base : Nat) : Channel :=
  { total := 1, base := base, rstride := 0, estride := 0, rlen := 1, btable := 0, bsize := 0, strip := 1, dest := 0, auto := false }

/-- A module with a channel block at 0x40: one element, one row, strip 1, into v0; a second hart that holds channel 1. -/
def chanWorld (h : Hart) : State :=
  { worldWith [(0x40, 1), (0x5C, 1), (0x6C, 1)] h with harts := [(0, h), (1, { hart0 with chans := [(1, oneChannel 0)] })] }

theorem chanIssues {h : Hart} (i : Instr) (h1 : h.dbg = none) (h2 : h.pfx = none) (h3 : h.atHead = false := by rfl)
    (h4 : h.waiting = [] := by rfl) : Issues (chanWorld h) 0 h i :=
  ⟨rfl, rfl, h3, h4, h1, fun p hp => by rw [h2] at hp; cases hp⟩

/-- The context in which `SCFG` has reached its block. -/
def scfgCtx (n : BitVec 2) : Ctx :=
  let c := begun (chanWorld hartCapture) 0 hartCapture (.scfg 2 1 n)
  (c.drainOverlap 0x40 64).global (fun s =>
    recordPieces (readAccess s [(0x40, leafUc 7)] false (.base (c.drainOverlap 0x40 64).id)) 1 (piecesOf 0x40 64))

theorem test_witness_ChannelsComplete_1 :
    Issues (chanWorld hartCapture) 0 hartCapture (.scfg 2 1 0) ∧ Issues (chanWorld hartCapture) 0 hartCapture (.scfg 2 1 1) ∧
    hartCapture.lanes ≠ 0 ∧
    placeGeneric (begun (chanWorld hartCapture) 0 hartCapture (.scfg 2 1 0)) (hartCapture.getX 1) 64 ⟨true, false, false⟩ =
      .ok ((0x40, 7), begun (chanWorld hartCapture) 0 hartCapture (.scfg 2 1 0)) ∧
    badField (scfgCtx 0) 0x40 = none ∧ ((scfgCtx 0).h.getV (channelOf (scfgCtx 0).s 0x40 0).dest).tag.width ≠ 4 ∧
    Opened (scfgCtx 0).h (channelOf (scfgCtx 0).s 0x40 0).dest ((List.range (channelOf (scfgCtx 0).s 0x40 0).strip).map (elemWord 32)) ∧
    Settled (scfgCtx 0).h (channelOf (scfgCtx 0).s 0x40 0).dest ∧ heldByOther (scfgCtx 0).s 0 (scfgCtx 0).h 0 = false ∧
    heldByOther (scfgCtx 1).s 0 (scfgCtx 1).h 1 = true :=
  ⟨chanIssues _ rfl rfl, chanIssues _ rfl rfl, by decide, rfl, by decide, by decide, by unfold Opened; decide, settled _ rfl rfl rfl,
    by decide, by decide⟩

/-- Harts with a bound channel that reads one element: at 0x200, at an address that nothing maps, and at one in the remote window. -/
def hartChan (base : Nat) : Hart := { hartVec with chans := [(0, oneChannel base)] }
def remoteWorld (h : Hart) : State :=
  { world h with
    mem := upperTables ++ [(0x1000, 1), (0x1001, 0x20), (0x2000, 7), (0x2005, 1)]
    stackTab := [(0, { tlb := [⟨0, 0, 2 ^ 40 + 7⟩] })]
    targets := [(1, { w0 := 2 ^ 63 })] }

theorem hartChanIssues (base : Nat) (i : Instr) : Issues (world (hartChan base)) 0 (hartChan base) i :=
  ⟨rfl, rfl, rfl, rfl, rfl, fun p hp => by cases hp⟩

def isRemotePlace : State × Except (Cause × Word) (Channel × Word × Nat × Nat) → Bool
  | (_, .ok (_, _, pa, _)) => regionOf pa == .remote
  | _ => false

def isDramPlace : State × Except (Cause × Word) (Channel × Word × Nat × Nat) → Bool
  | (_, .ok (_, _, pa, _)) => pa == 0x200
  | _ => false

set_option maxRecDepth 8192 in
theorem test_witness_ChannelsComplete_2 :
    (hartChan 0x200).lanes ≠ 0 ∧ Issues (world (hartChan 0x200)) 0 (hartChan 0x200) (.sstep 0) ∧
    find? (hartChan 0x200).chans 0 = some (oneChannel 0x200) ∧ Issues (world (hartChan 0x200)) 0 (hartChan 0x200) (.sstat 1 0) ∧
    (hartChan 0x200).filmMode = 0 ∧ Issues (world (hartChan 0x200)) 0 (hartChan 0x200) (.sclose 0) ∧
    Issues (world hart0) 0 hart0 (.sclose 0) ∧ find? hart0.chans 0 = none ∧
    (world (hartChan 0x200)).hart? 0 = some (hartChan 0x200) ∧ (hartChan 0x200).status = .resident ∧
    find? (world (hartChan 0x200)).shadows 0 = none ∧ (world (hartChan 0x200)).outstanding = [] ∧ (oneChannel 0x200).missing = [0] ∧
    (lowestFault 0 0 (hartChan 0x200) [0] (world (hartChan 0x200)) (oneChannel 0x200)).2.2 = none ∧
    (fetchElement (world (hartChan 0x200)) 0 0 (hartChan 0x200) (oneChannel 0x200) 0).isSome = true ∧
    (lowestFault 0 0 (hartChan 0x200000) [0] (world (hartChan 0x200000)) (oneChannel 0x200000)).2.2 = some (0, .pageFault, 0x200000) ∧
    isDramPlace (elementPlace (world (hartChan 0x200)) 0 0 (hartChan 0x200) (oneChannel 0x200) 0) = true ∧
    stripHeld (world (hartChan 0x200)) (hartChan 0x200) (oneChannel 0x200) 0 false = false ∧
    badBytes (world (hartChan 0x200)) 0x200 4 = false ∧ (oneChannel 0x200).recRead = false ∧
    isRemotePlace (elementPlace (remoteWorld (hartChan 0x200)) 0 0 (hartChan 0x200) (oneChannel 0x200) 0) = true :=
  ⟨by decide, hartChanIssues _ _, by decide, hartChanIssues _ _, by decide, hartChanIssues _ _, issues _ rfl rfl, rfl, rfl, rfl, rfl, rfl,
    by decide, by decide, by decide, by decide, by decide, by decide, by decide, by decide, by decide⟩

/-! ## What the statements about waiting and traps assume -/

/-- A hart in steward mode; one with a counter base; one whose x2 holds a timeout of 5 lane cycles. -/
def hartSteward : Hart := { hart0 with mode := .steward }
def hartCount : Hart := { hart0 with bbcbase := 0x400 }
def hartTime : Hart := hart0.setX 2 5

/-- A hart in steward mode with a vector load on its way. -/
def hartStewardLate : Hart := { hartBehind with mode := .steward }

theorem test_witness_WaitAndTrapInstructions :
    Issues (world hart0) 0 hart0 (.waitev 1 2 16) ∧ eventsHeld (world hart0) 0 hart0 16 ≠ 0 ∧
    Issues (world hartTime) 0 hartTime (.waitev 1 2 1) ∧ eventsHeld (world hartTime) 0 hartTime 1 = 0 ∧
    timedOut (world hartTime) hartTime 0 (hartTime.getX 2).toNat = false ∧ timedOut (world hart0) hart0 0 (hart0.getX 2).toNat = true ∧
    (63 : BitVec 12).toNat < 64 ∧ hart0.filmMode = 0 ∧ Issues (world hart0) 0 hart0 (.trap 9) ∧ hart0.ctl = 0 ∧
    Issues (world hart0) 0 hart0 .rft ∧ OffLoopEnd hart0 ∧ hart0.trappc.toNat % 4 = 0 ∧
    Issues (world hartSteward) 0 hartSteward .halt ∧ hartSteward.mode = .steward ∧ Issues (world hart0) 0 hart0 .halt ∧
    hart0.mode = .task ∧ Issues (world hart0) 0 hart0 (.bbh 1 5) ∧ hart0.bbcbase = 0 ∧
    Issues (world hartCount) 0 hartCount (.bbh 1 5) ∧ hartCount.bbcbase ≠ 0 ∧
    placeGeneric (begun (world hartCount) 0 hartCount (.bbh 1 5)) (hartCount.bbcbase + 8 * (hartCount.getX 1 + (5 : BitVec 12).signExtend 64))
      8 ⟨true, true, false⟩ = .ok ((0x428, 7), begun (world hartCount) 0 hartCount (.bbh 1 5)) ∧
    Issues (world hart0) 0 hart0 (.bkpt 3) ∧ hart0.caughtUp = true ∧ hartSteward.caughtUp = true ∧
    Issues (world hartBehind) 0 hartBehind (.trap 9) ∧ hartBehind.caughtUp = false ∧
    Issues (world hartStewardLate) 0 hartStewardLate .halt ∧ hartStewardLate.mode = .steward ∧ hartStewardLate.caughtUp = false :=
  ⟨issues _ rfl rfl, by decide, issues _ rfl rfl, by decide, by decide, by decide, by decide, by decide, issues _ rfl rfl, rfl,
    issues _ rfl rfl, fun e rest h => (by cases h), by decide, issues _ rfl rfl, rfl, issues _ rfl rfl, rfl, issues _ rfl rfl, rfl,
    issues _ rfl rfl, by decide, rfl, issues _ rfl rfl, by decide, by decide, issues _ rfl rfl, by decide, issues _ rfl rfl, rfl,
    by decide⟩

/-- A hart with a task vector and a prefix pending for the instruction at its pc; and one with its trap with the steward. -/
def hartTrap : Hart := { hart0 with trapvec := 0x10100, pfx := some ⟨2, true, false, true, 5, true, 0x4000⟩ }
def hartPresented : Hart := { hartTrap with presented := some ⟨some .swTrap, 0x10000, 7, true, 0⟩, mode := .steward }

theorem test_witness_TrapEntry :
    hartTrap.ctl = 0 ∧ routedToTask (world hartTrap) hartTrap .illegal 5 = true ∧ hartTrap.trapvec.toNat / 4 ≠ 0 ∧ hartTrap.inh = false ∧
    hart0.ctl = 0 ∧ routedToTask (world hart0) hart0 .pageFault 5 = false ∧ hart0.trapvec.toNat / 4 = 0 ∧
    (Cause.pageFault ≠ .bkpt ∧ Cause.pageFault ≠ .waypoint ∧ Cause.pageFault ≠ .step) := by decide

theorem test_witness_ReturnRestoresPrefix :
    (∃ p, hartTrap.pfx = some p ∧ p.succ = (0x10000 : Word).extractLsb' 2 46) ∧
    ∃ p, hartTrap.pfx = some p ∧ p.succ ≠ (0x10010 : Word).extractLsb' 2 46 := ⟨⟨_, rfl, by decide⟩, _, rfl, by decide⟩

theorem test_witness_TrapStepsComplete :
    (world hart0).hart? 0 = some hart0 ∧ causeAsync .illegal = false ∧ allRetired (world hart0) 0 hart0 = true ∧ hart0.wait = .none ∧ hart0.leaving = false ∧
    allRetired (world { hart0 with pendLane := true }) 0 { hart0 with pendLane := true } = true ∧
    (∃ d, dueAsync (world { hart0 with pendLane := true }) 0 { hart0 with pendLane := true } = some d) ∧
    (∃ p, hartPresented.presented = some p ∧ ((some 0x10010 : Option Word).getD p.pc).toNat % 4 = 0) ∧
    (hart0.presented = none ∧ find? (world hart0).shadows 0 = none ∧ aside (.tcm 0 1) = true) ∧
    hartPresented.presented = some ⟨some .swTrap, 0x10000, 7, true, 0⟩ ∧ hartPresented.trapvec.toNat / 4 ≠ 0 :=
  ⟨rfl, by decide, by decide, rfl, rfl, by decide, ⟨_, rfl⟩, ⟨_, rfl, by decide⟩, by decide, rfl, by decide⟩

/-! ## What the statements about the module's own steps assume -/

/-- A module with nothing picked, and columns and shadows that a test sets. -/
def quiet (h : Hart) (k : Column) : State := { world h with cur := none, columns := [(0, k)] }

/-- A speculative request, and one of the base layer, that have waited since lane cycle 0. -/
def specRequest : WayRequest := requestOf (.spec 0) 63 2047 8 0
def hubRequest : WayRequest := requestOf .hub 0 0 8 0

theorem test_witness_SequencerStepsComplete_1 :
    (quiet hart0 {}).cur = none ∧ pickHart State.reset 0 = none ∧ pickHart (quiet hart0 {}) 0 = some (0, hart0) ∧
    sourceOk (quiet hart0 {}) 0 (.row 0) = true ∧ rowReaches ((quiet hart0 {}).col 0) 63 2047 (.row 0) = true ∧
    rowReaches ((quiet hart0 {}).col 0) 63 2111 .hub = true ∧ (({} : Column).requests = []) ∧
    (requestOf (.row 0) 63 2047 8 0).cls ≠ 6 ∧ sourceOk (quiet hart0 {}) 0 .hub = true ∧ sourceOk (quiet hart0 {}) 0 (.spec 0) = true ∧
    mayGrant (ask (quiet hart0 {}) 0 [requestOf (.row 0) 63 2047 8 0]) 0 (requestOf (.row 0) 63 2047 8 0) = true ∧
    mayGrant (ask (quiet hart0 { refBusy := 5 }) 0 [requestOf (.row 0) 63 2047 8 0]) 0 (requestOf (.row 0) 63 2047 8 0) = false ∧
    [specRequest].find? (requestOf (.spec 0) 63 2047 8 0).same = some specRequest ∧
    mayGrant (quiet hart0 { requests := [specRequest] }) 0 specRequest = true ∧
    mayGrant (quiet hart0 { requests := [specRequest, requestOf .hub 63 5 8 0] }) 0 specRequest = false ∧
    (specRequest.act = .activate ∧ (actionOf 0 .close 3 7 0).act = .close ∧ (actionOf 0 .write 3 7 0).act = .write ∧
      (hardwareRefn 3 7 0).act = .refn ∧ (rowSetOf none false 0).act = .rowSet) := by decide

theorem test_witness_SequencerStepsComplete_2 :
    ((world (hartChan 0x200)).hart? 0 = some (hartChan 0x200) ∧ (hartChan 0x200).status = .resident ∧
      (0, oneChannel 0x200) ∈ (hartChan 0x200).chans ∧ 0 ∈ (oneChannel 0x200).toReach ∧ (oneChannel 0x200).knownAddress 0 = some 0x200 ∧
      shownLeaf (world (hartChan 0x200)) 0 (hartChan 0x200) 0x200 = some 7 ∧ regionOf (leafAddress 7 0x200) = .dram ∧
      columnOf (leafAddress 7 0x200) < 4096 ∧ layerOf (leafAddress 7 0x200) * 8 + wayOf (leafAddress 7 0x200) < 64 ∧
      rowOf (leafAddress 7 0x200) < 2048) ∧
    nextRequest 0 [specRequest, hubRequest] = some hubRequest ∧
    (((quiet hart0 { requests := [specRequest, hubRequest], cycles := 128 }).col 0).requests[0]? = some specRequest ∧ specRequest.cls = 6 ∧
      specRequest.since + 64 ≤ ((quiet hart0 { requests := [specRequest, hubRequest], cycles := 128 }).col 0).cycles ∧
      ((quiet hart0 { requests := [specRequest, hubRequest], cycles := 128 }).col 0).requests[1]? = some hubRequest ∧ hubRequest.cls = 5 ∧
      hubRequest.promoted = false ∧
      hubRequest.since + 128 ≤ ((quiet hart0 { requests := [specRequest, hubRequest], cycles := 128 }).col 0).cycles) ∧
    (∃ a ∈ ((quiet hart0 { alerts := [⟨3, 7, none⟩] }).col 0).alerts, a.way = 3 ∧ a.row = 7) ∧
    (∀ q ∈ ((quiet hart0 { alerts := [⟨3, 7, none⟩] }).col 0).requests, (hardwareRefn 3 7 0).same q = false) := by decide

/-- Harts whose instruction's result stands apart, and that result. -/
def hartWaits (k : Apart) : Hart := { hart0 with wait := .retire k }
def hartResult : Hart := { hart0 with v := [(5, { invalid := 2 })] }

theorem test_witness_SequencerStepsComplete_3 :
    find? ({ world hart0 with shadows := [(0, hartResult)] } : State).shadows 0 = some hartResult ∧
    hasBit (look hartResult.v 5 {}).invalid 1 = true ∧ hartResult.transport = none ∧
    (hartWaits .vector).wait = .retire .vector ∧ groupsPending hart0 = false ∧ (hartWaits .load).wait = .retire .load ∧
    (hartWaits .sent).wait = .retire .sent ∧ (4095 < 4096) := by decide

/-- A hart whose queue holds an instruction that waits; the same hart as it is picked to run that one; and one whose queue is full. -/
def hartQueued : Hart := { hartVec with vqueue := [queuedAdd], elemSeq := 1, pc := 0x10004 }
def hartHead : Hart := { hartQueued with atHead := true }
def hartFull : Hart := { hartQueued with vqueue := List.replicate 16 queuedAdd }

theorem test_witness_SequencerStepsComplete_4 :
    find? (quiet hartQueued {}).shadows 0 = none ∧ (quiet hartQueued {}).cur = none ∧ hartQueued.status = .resident ∧
    headReady hartQueued = true ∧ hartQueued.canRetire = none ∧ hartBehind.canRetire = some queuedDone ∧ (world hartQueued).cur = some 0 ∧
    hartQueued.atHead = false ∧ hartQueued.waiting ≠ [] ∧
    queueable hartQueued (.vadd 0 2 1 1 false false false) = true ∧ hartQueued.dbg = none ∧ hartQueued.queued < 16 ∧ hartFull.queued = 16 ∧
    (runInstr (.vadd 0 2 1 1 false false false) (fun c => .ok c) (startCtx (world hartQueued) 0 { hartQueued with elems := [], vqueue := [] }
      (Instr.word (.vadd 0 2 1 1 false false false)))).isOk = true ∧
    hartHead.atHead = true ∧ hartHead.firstWaiting = some queuedAdd ∧
    (runInstr (.vadd 0 1 2 3 false false false) (fun c => .ok c) (startCtx (world hartHead) 0 (hartHead.forHead queuedAdd) queuedAdd.word)).isOk =
      true ∧
    hartBehind.ctl = 0 ∧ hartBehind.stopDue = false ∧ hartBehind.vqueue = [queuedDone] := by decide

/-- A hart that has waited 1,024 lane cycles. -/
def hartIdle : Hart := { hart0 with idle := 1024 }

theorem test_witness_SequencerStepsComplete_5 (n : Nat) :
    pickHart (tick State.reset 0 n) 0 = none ∧ ∃ e, pickHart (tick (quiet hartIdle {}) 0 n) 0 = some e := by
  refine ⟨rfl, ?_⟩
  have hl : (tick (quiet hartIdle {}) 0 n).harts.filter (fun e => ready (tick (quiet hartIdle {}) 0 n) 0 e.1 e.2) =
      [(0, { hartIdle with cycle := hartIdle.cycle + BitVec.ofNat 64 n, idle := 1024 + n })] := rfl
  have h : 1024 ≤ 1024 + n := Nat.le_add_right ..
  refine ⟨(0, { hartIdle with cycle := hartIdle.cycle + BitVec.ofNat 64 n, idle := 1024 + n }), ?_⟩
  unfold pickHart
  rw [hl]
  simp

/-- A module with that page table, a ring of one start record at 0x4000, and a kernel header at 0x8000. -/
def ringWorld (record : List Host.Cell) : State :=
  { State.reset with
    mem := tables ++ record ++ [(0x8000, 0x4B), (0x8001, 0x48), (0x8002, 0x44), (0x8003, 0x52), (0x8008, 0x40), (0x800C, 0x44)]
    queues := [(0, { ring := 0x4000, capacity := 1, state := 1, tail := 1, since := some 0 })]
    slots := [(0, 0)] }

def recordOf (record : List Host.Cell) : StartRecord := (headRecord (ringWorld record) ((ringWorld record).queue 0)).2
def afterRecord (record : List Host.Cell) : State := (headRecord (ringWorld record) ((ringWorld record).queue 0)).1

/-- Start records: nothing; no harts; a header at 1; a good one; one whose page list or whose counter is misplaced. -/
def recordNone : List Host.Cell := []
def recordNoHarts : List Host.Cell := [(0x4001, 0x80)]
def recordBadHeader : List Host.Cell := [(0x4000, 1), (0x401E, 1)]
def recordGood : List Host.Cell := [(0x4001, 0x80), (0x401E, 1)]
def recordBadPages : List Host.Cell := [(0x4001, 0x80), (0x4010, 1), (0x4018, 1), (0x401E, 1)]
def recordBadCounter : List Host.Cell := [(0x4001, 0x80), (0x401E, 1), (0x4028, 1)]

def headerOk : State × Except Nat KernelHeader → Bool
  | (_, .ok _) => true
  | _ => false
theorem headerOk_ex {p : State × Except Nat KernelHeader} (h : headerOk p = true) : ∃ s k, p = (s, .ok k) := by
  obtain ⟨s, e⟩ := p
  cases e with
  | ok k => exact ⟨s, k, rfl⟩
  | error _ => cases h

set_option maxRecDepth 16384 in
theorem test_witness_SchedulerStepsComplete_1 :
    ((ringWorld []).queue 0).state = 1 ∧ ((ringWorld []).queue 0).head < ((ringWorld []).queue 0).tail ∧
    ((ringWorld []).queue 0).seen = none ∧ (∃ e ∈ (ringWorld []).slots, e.1 = 0) ∧ (recordOf recordNone).khdr = 0 ∧
    (recordOf recordNoHarts).khdr ≠ 0 ∧ recordOk (usableLanes (afterRecord recordNoHarts)) (recordOf recordNoHarts) = false ∧
    (recordOf recordBadHeader).khdr ≠ 0 ∧ recordOk (usableLanes (afterRecord recordBadHeader)) (recordOf recordBadHeader) = true ∧
    (recordOf recordBadHeader).khdr % 64 ≠ 0 := by decide

theorem test_witness_SchedulerStepsComplete_2 :
    (checkHeader (afterRecord recordBadHeader) 0 (recordOf recordBadHeader)).2 = .error 0x16 := rfl

set_option maxRecDepth 65536 in
theorem test_witness_SchedulerStepsComplete_3 :
    ∃ s k, checkHeader (afterRecord recordGood) 0 (recordOf recordGood) = (s, .ok k) := headerOk_ex (by decide)

def countMet : State × DepRead → Bool
  | (_, .met) => true
  | _ => false

set_option maxRecDepth 16384 in
theorem test_witness_SchedulerStepsComplete_4 (s : State) :
    (checkPages s 0 (recordOf recordGood)).2 = some [] ∧ (checkPages s 0 (recordOf recordBadPages)).2 = none ∧
    (readCounter s 0 0 (recordOf recordGood)).2 = .met ∧ (readCounter s 0 0 (recordOf recordBadCounter)).2 = .bad := by
  have h1 : (recordOf recordGood).pcount = 0 ∧ (recordOf recordGood).depaddr = 0 := by decide
  have h2 : (recordOf recordBadPages).pcount = 1 ∧ (recordOf recordBadPages).plist = 1 := by decide
  have h3 : (recordOf recordBadCounter).depaddr = 1 := by decide
  simp [checkPages, readCounter, h1, h2, h3]

/-- A module in which the waiting task can start, and tasks that have started. -/
def freeWorld : State :=
  { busyWorld hart0 with harts := [], tasks := [(1, waitTask)], columns := [(0, { codes := [⟨0, 0x10000, [], [], []⟩] })] }
def moreTask : Task := { waitTask with phase := .started }

def isDone : Placed → Bool
  | .done _ => true
  | _ => false
theorem isDone_ex {p : Placed} (h : isDone p = true) : ∃ s, p = .done s := by
  cases p with
  | done s => exact ⟨s, rfl⟩
  | noPlace => cases h
  | badCode _ _ _ => cases h

theorem test_witness_SchedulerStepsComplete_5 :
    (16383 < 16384 ∧ State.reset.slots.length < 64 ∧
      nextQueue (unbound { State.reset with queues := [(5, { state := 1, capacity := 1, tail := 1, since := some 0 })] }) = some 5) ∧
    (({ State.reset with
        queues := [(5, { state := 1, capacity := 1, tail := 1, since := some 0 }), (6, { state := 1, capacity := 1, tail := 1, since := some 1 })]
        slots := [(5, 0)] } : State).slots[0]? = some (5, 0) ∧
      nextQueue ((unbound { State.reset with
        queues := [(5, { state := 1, capacity := 1, tail := 1, since := some 0 }), (6, { state := 1, capacity := 1, tail := 1, since := some 1 })]
        slots := [(5, 0)] }).filter (fun e => decide (e.2.1 ≤ 0))) = some 6) ∧
    (freeWorld.task? 1 = some waitTask ∧ waitTask.phase ≠ .done ∧ waitTask.depMet = true ∧ waitTask.lacking freeWorld = true ∧
      eligible freeWorld 1 waitTask = true ∧ (∃ e ∈ freeWorld.slots, e.1 = waitTask.queue) ∧ (freeWorld.queue 0).seen = some 1 ∧
      canPlace freeWorld [] 1 waitTask = true ∧ heldBack freeWorld 1 waitTask (wantedLanes freeWorld waitTask) = false) := by decide

theorem test_witness_SchedulerStepsComplete_6 :
    (∃ s, placeHarts 1 waitTask.batch waitTask.granted []
      (takeHead (freeWorld.setTask 1 { waitTask with phase := .started, held := waitTask.keys }) 0) = .done s) ∧
    ((freeWorld.setTask 1 moreTask).task? 1 = some moreTask ∧ moreTask.phase = .started ∧ moreTask.status = 0 ∧
      moreTask.srec.mode % 2 = 0 ∧ moreTask.granted < moreTask.srec.harts ∧
      heldBack (freeWorld.setTask 1 moreTask) 1 moreTask (wantedLanes (freeWorld.setTask 1 moreTask) moreTask) = false ∧
      ∃ s, placeHarts 1 1 moreTask.granted [] (freeWorld.setTask 1 moreTask) = .done s) :=
  ⟨isDone_ex (by decide), by decide, by decide, by decide, by decide, by decide, by decide, isDone_ex (by decide)⟩

/-- A task that waits for a counter at `depaddr`; the counter at 0x8000 is 0, and its threshold 1. -/
def countTask (at' : Nat) : Task := { waitTask with srec := { waitTask.srec with depaddr := at', depthresh := 1 }, depMet := false }
def countWorld : State := { State.reset with mem := tables }

theorem test_witness_SchedulerStepsComplete_7 :
    (countTask 0).phase = .waiting ∧ (countTask 0).depMet = false ∧ (readCounter countWorld 0 0 (countTask 0).srec).2 = .met ∧
    (readCounter countWorld 0 0 (countTask 0x8000).srec).2 = .notMet ∧ (readCounter countWorld 0 0 (countTask 1).srec).2 = .bad ∧
    visible { countWorld with tasks := [(1, countTask 0x8000)], slots := [(0, 0)], queues := [(0, { seen := some 1, state := 1 })] } 1
      (countTask 0x8000) = true ∧
    probeTask.phase = .started ∧ probeTask.written = false ∧ systemScope (world hart0) probeTask = false ∧ probeTask.status = 0 ∧
    ({ probeTask with exited := 1 } : Task).exited = probeTask.srec.harts ∧ ({ probeTask with status := 0x21 } : Task).status ≠ 0 ∧
    (endFields (world hart0) probeTask .ended).isSome = true ∧ (endFields (world hart0) waitTask .ended).isSome = true ∧
    waitTask.phase = .waiting ∧ waitTask.status = 0 := by decide

/-- The same module, the slice of its running task over. -/
def expiredWorld : State := (busyWorld hart0).setTask 0 { probeTask with base := 3, aged := 3, expired := true }

theorem test_witness_PreemptionStepsComplete_1 :
    (busyWorld hart0).task? 1 = some waitTask ∧ claims (busyWorld hart0) 1 waitTask = [none] ∧
    claimVictims (busyWorld hart0) 1 waitTask none (fun u _ => decide (classOf (busyWorld hart0) 1 < classOf (busyWorld hart0) u)) = some [0] ∧
    (claims expiredWorld 1 waitTask).findSome? (fun k =>
      claimVictims expiredWorld 1 waitTask k (givesWay expiredWorld (classOf expiredWorld 1) k)) = some [0] ∧
    (claims expiredWorld 0 { probeTask with base := 3, aged := 3 }).findSome? (fun k =>
      claimVictims expiredWorld 0 { probeTask with base := 3, aged := 3 } k (givesWay expiredWorld (classOf expiredWorld 0) k)) = none ∧
    placement (busyWorld hart0) [] 1 waitTask none = none ∧
    heldBack (busyWorld hart0) 1 waitTask (claimLanes (busyWorld hart0) waitTask none) = false ∧
    victims (busyWorld hart0) 1 waitTask none (fun u _ => decide (classOf (busyWorld hart0) 1 < classOf (busyWorld hart0) u)) = some [0] := by
  decide

/-- Harts that are asked to halt, halted, saved, and that wait. -/
def hartAsked : Hart := { hart0 with haltReq := true }
def hartHalted : Hart := { hart0 with status := .halted }
def hartSaved : Hart := { hart0 with status := .saved }
def hartBadScalars : Hart := { hartSaved with badContext := [⟨0, 0, 0, 0, .scalar⟩] }
def hartEvent : Hart := { hart0 with wait := .waitev 16 }
def hartStale : Hart := { hart0 with wait := .staleRow 5 }

theorem test_witness_PreemptionStepsComplete_2 :
    (hartAsked.status = .resident ∧ hartAsked.haltReq = true ∧ hartAsked.leaving = false ∧ hartAsked.caughtUp = true ∧ hartHalted.status = .halted ∧ (world hartHalted).outstanding = []) ∧
    (hartSaved.status = .saved ∧ (world hartSaved).task? hartSaved.task = some probeTask ∧ probeTask.srec.mode % 2 = 0 ∧
      heldBack (world hartSaved) 0 probeTask hartSaved.lanesOf = false ∧ (returnAll (world hartSaved) [0]).isSome = true) ∧
    ((gangWorld hartSaved).task? hartSaved.task = some gangTask ∧ gangTask.srec.mode % 2 = 1 ∧ hartSaved.haltReq = false ∧
      heldBack (gangWorld hartSaved) 0 gangTask ((savedHarts (gangWorld hartSaved) 0).flatMap (·.lanesOf)) = false ∧
      (returnAll (gangWorld hartSaved) (gangTask.harts.map (·.2))).isSome = true) ∧
    (hartSaved.badContext = [] ∧ (returnAll (world hartBadScalars) [0]).isSome = true ∧ hartBadScalars.status = .saved ∧
      ∃ b ∈ hartBadScalars.badContext, b.part = .scalar) ∧
    (hartEvent.wait = .waitev 16 ∧ eventsHeld (world hartEvent) 0 hartEvent 16 ≠ 0 ∧ hartStale.wait = .staleRow 5 ∧ hartStale.caughtUp = true) ∧
    (leafOk (3 : BitVec 64).toNat = true ∧ regionOf (leafAddress (3 : BitVec 64).toNat 0) = .dram ∧ ∃ r ∈ ((quiet hartStale { rowWin := [⟨0, 0, 7, true⟩] }).col 0).rowWin,
      (r.stale && r.vpage == 0 && ((quiet hartStale { rowWin := [⟨0, 0, 7, true⟩] }).hart? r.hart).any (fun h => h.task == 0)) = true) := by
  decide

theorem test_witness_PlatformStepsComplete :
    (4095 < 4096 ∧ 7 < 8 ∧ ((world hart0).col 4095).failed = false ∧ ((world hart0).col 4095).clusters = [] ∧
      ((quiet hart0 { clusters := [1] }).col 0).clusters = [1] ∧ 2 ≤ ((quiet hart0 { clusters := [1, 2] }).col 0).clusters.length ∧
      columnQuiet (world hart0) 4095 = true ∧ columnQuiet (quiet hart0 { clusters := [1, 2] }) 0 = true) ∧
    (List.length (List.replicate 16 12500) = 16 ∧ 900 ≤ State.reset.modcap ∧ classZero (world hart0) 4095 = false ∧
      classZero { world hart0 with tasks := [(0, { probeTask with base := 0, aged := 0 })] } 0 = true ∧
      ({ world hart0 with stackTab := [(15, { thermal := true, lowRows := [15] })] } : State).stk (4095 / 256) = { thermal := true, lowRows := [15] }) ∧
    (imageOk State.reset 1 = false ∧ imageOk State.reset 4 = true ∧
      Defect.stage 8 ∈ ({ State.reset with defects := [.stage 8] } : State).defects ∧ Defect.stage 8 ∉ State.reset.defects ∧
      (powerLost State.reset).defects = [] ∧ (powerLost State.reset).faults = [] ∧ ∀ e ∈ (powerLost State.reset).columns, e.2.clusters = []) ∧
    (63 < 64 ∧ 11 < 12 ∧ 2047 < 2048 ∧ 15 < 16 ∧ (∀ e ∈ (world hart0).columns, e.1 / 256 = 15 → refreshing e.2 = false)) ∧
    ((∃ l ∈ [[40], [105]], ∃ x ∈ l, 105 ≤ x) ∧ State.reset.powered = true ∧ (∀ l ∈ [[104], [40]], ∀ x ∈ l, x < 105) ∧
      (powerLost State.reset).powered = false ∧ hasBit State.reset.ports 15 = true) := by decide

/-- A module with a partition, a region of the first page, and a queue pair in the error state. -/
def hostWorld : State :=
  { State.reset with
    mem := tables
    regions := [⟨9, 3, 0, 0, 0x1000, true, true, false⟩]
    partitions := [(4, { conf := true })]
    qpErrors := [⟨3, 8⟩]
    outstanding := [(0, ⟨0, false, 2 ^ 40, 0, 0, 0, 0, none, [1], none, 0, 0⟩)] }

def payloadOk : Payload → Bool
  | .ok _ d => d == [1, 2]
  | _ => false

theorem test_witness_HostStepsComplete_1 :
    portsUp hostWorld = true ∧ hostWorld.qpErrors.contains ⟨3, 8⟩ = true ∧ hostWorld.qpErrors.contains ⟨0, 2⟩ = false ∧
    hostWorld.regions.find? (fun r => r.rkey == 9) = some ⟨9, 3, 0, 0, 0x1000, true, true, false⟩ ∧ keysReady hostWorld 3 0 2 = true ∧
    payloadOk (openIn hostWorld 3 ⟨0, 2⟩ (headersOf .hostWrite 2 9 0x800 2) [1, 2]) = true ∧
    (regionPlaces hostWorld ⟨9, 3, 0, 0, 0x1000, true, true, false⟩ ⟨false, true, false⟩ 0x800 2).2 = some [(0x800, false), (0x801, false)] ∧
    (hostStore hostWorld false [0x800, 0x801] [1, 2]).isSome = true ∧
    (regionPlaces hostWorld ⟨9, 3, 0, 0, 0x1000, true, true, false⟩ ⟨true, false, false⟩ 0x800 2).2 = some [(0x800, false), (0x801, false)] ∧
    (([0x800, 0x801] : List Nat).all inMemory || allRegs [0x800, 0x801]) = true ∧ find? hostWorld.partitions 3 = none := by decide

/-- Regions of hosts that a key does not reach, that allow no write, or whose partition has no keys. -/
def refuseWorld : State :=
  { hostWorld with regions := [⟨9, 3, 0, 0, 0x1000, true, false, false⟩, ⟨8, 4, 0, 0, 0x1000, true, true, false⟩, ⟨7, 3, 0, 0, 0x1000, true, true, true⟩] }

theorem test_witness_HostStepsComplete_5 :
    refuseWorld.regions.find? (fun r => r.rkey == 5) = none ∧
    refuseWorld.regions.find? (fun r => r.rkey == 8) = some ⟨8, 4, 0, 0, 0x1000, true, true, false⟩ ∧ keysReady refuseWorld 4 0 2 = false ∧
    (regionWrite refuseWorld ⟨9, 3, 0, 0, 0x1000, true, false, false⟩ 0x800 [1]).2.isNone = true ∧
    (regionWrite refuseWorld ⟨8, 4, 0, 0, 0x1000, true, true, false⟩ 0x800 [1]).2.isSome = true ∧
    (regionPlaces refuseWorld ⟨8, 4, 0, 0, 0x1000, true, true, false⟩ ⟨true, false, false⟩ 0xFFF 2).2 = none ∧
    (atomicPlaces refuseWorld ⟨9, 3, 0, 0, 0x1000, true, false, false⟩ 0x800).2 = none ∧
    (atomicPlaces refuseWorld ⟨8, 4, 0, 0, 0x1000, true, true, false⟩ 0x800).2 = some (span 0x800 8) ∧
    (atomicPlaces refuseWorld ⟨7, 3, 0, 0, 0x1000, true, true, true⟩ 0x800).2 = some (span 0x800 8) ∧
    (hubPlaces State.reset 0 3 ⟨true, false, false⟩ 0x800 1).2.2.isSome = true := by decide

theorem test_witness_HostStepsComplete_2 (s : State) (hd : Nat → List Byte) (d : List Byte) (h : find? s.partitions 3 = none) :
    sealOut s 3 0 2 hd d = (s, some d) := by unfold sealOut; rw [h]

theorem test_witness_HostStepsComplete_3 :
    (0x800 % 8 = 0 ∧ (regionPlaces hostWorld ⟨9, 3, 0, 0, 0x1000, true, true, false⟩ ⟨true, true, false⟩ 0x800 8).2 = some ((span 0x800 8).map (·, false)) ∧
      (span 0x800 8).all inMemory = true ∧ allRegs (span 0x800 8) = false) ∧
    ((List.replicate 32 (0 : Byte)).length = 32 ∧ find? hostWorld.partitions 4 = some { conf := true } ∧
      (List.replicate 1088 (0 : Byte)).length = 1088) ∧
    regionOf 0x8010000000 = .regs ∧ regionOf 0x801FFFFFF8 = .regs ∧ (span (2 ^ 40) 1).all inMemory = false ∧
    (span 0x7FFFFFFFFF 2).all inMemory = true ∧
    find? hostWorld.outstanding 0 = some ⟨0, false, 2 ^ 40, 0, 0, 0, 0, none, [1], none, 0, 0⟩ ∧
    (remoteEnds hostWorld 0 ⟨0, false, 2 ^ 40, 0, 0, 0, 0, none, [1], none, 0, 0⟩ none).isSome = true := by
  refine ⟨⟨rfl, by decide, by decide, by decide⟩, ⟨List.length_replicate .., rfl, List.length_replicate ..⟩, by decide⟩

/-- A store and a load of hart 0 to a module, its store of a nibble to a host, and accesses of the hub, all outstanding. -/
def storeOut : Remote := ⟨0, false, 2 ^ 40, 0, 0, 0, 0, none, [1], none, 4, 0⟩
def loadOut : Remote := ⟨0, true, 2 ^ 40, 0, 0, 0, 0, none, [0], none, 4, 0⟩
def nibbleOut : Remote := ⟨0, false, 2 ^ 41, 0, 0, 0, 0, none, [1], some true, 0, 0⟩
def hartRemote : Hart := { hart0 with remote := [1] }
def answerWorld : State :=
  { world hartRemote with
    outstanding := [(0, storeOut), (1, loadOut), (2, nibbleOut)]
    hubOut := [(3, ⟨1, true, 2 ^ 40, List.replicate 8 0, 4⟩), (4, ⟨1, false, 2 ^ 40, [1], 4⟩)]
    tasks := [(0, probeTask), (1, waitTask)]
    targets := [(2, { w0 := 2 ^ 62 })] }

def payloadIs (d : List Byte) : Payload → Bool
  | .ok _ e => d == e
  | _ => false
def payloadDropped : Payload → Bool
  | .dropped _ _ => true
  | _ => false

set_option maxRecDepth 16384 in
theorem test_witness_HostStepsComplete_4 :
    (find? answerWorld.outstanding 0 = some storeOut ∧ answerWorld.hart? 0 = some hartRemote ∧ storeOut.load = false ∧
      storeOut.asksByte answerWorld = false) ∧
    (find? answerWorld.outstanding 1 = some loadOut ∧ loadOut.load = true ∧ loadOut.chan = none ∧ 1 ∈ hartRemote.remote ∧
      payloadIs [7] (openAnswer answerWorld (2 ^ 40) 1 7) = true) ∧
    (find? answerWorld.outstanding 2 = some nibbleOut ∧ nibbleOut.asksByte answerWorld = true ∧ nibbleOut.high = some true ∧
      payloadIs [7] (openAnswer answerWorld (2 ^ 41) 1 7) = true ∧
      payloadDropped (openAnswer { answerWorld with qpErrors := [⟨0, 0⟩] } (2 ^ 41) 1 7) = true) ∧
    (find? answerWorld.outstanding 3 = none ∧ (find? answerWorld.hubOut 3).isSome = true ∧ (find? answerWorld.hubOut 4).isSome = true ∧
      payloadIs (toBytes 8 7) (openAnswer answerWorld (2 ^ 40) 8 7) = true ∧ answerWorld.task? 1 = some waitTask ∧ waitTask.phase = .waiting) := by
  decide

/-! ## Single steps -/

/-- A test of hart 0 in the state that a step answers. -/
def then0 (o : Host.Outcome State Fault Refusal) (p : Hart → Bool) : Bool :=
  match o with
  | .next t => match t.hart? 0 with
    | some h => p h
    | none => false
  | _ => false

/-- A test of memory in the state that a step answers. -/
def thenMem (o : Host.Outcome State Fault Refusal) (p : List Host.Cell → Bool) : Bool :=
  match o with
  | .next t => p t.mem
  | _ => false

/-- x2 = 2^64 − 1, x3 = 2. -/
def hartNums : Hart := (hart0.setX 2 0xFFFFFFFFFFFFFFFF).setX 3 2

/-- R149: arithmetic is modulo 2^64; the pc goes on by 4. -/
theorem test_add_wraps : then0 (exec (.add 1 2 3) (world hartNums)) (fun h => h.getX 1 == 1 && h.pc == 0x10004) = true := by decide

/-- R149: a write to x0 is discarded. -/
theorem test_x0_discards : then0 (exec (.add 0 2 3) (world hartNums)) (fun h => h.getX 0 == 0 && h.instret == 1) = true := by decide

/-- R153: a division by zero gives −1. -/
theorem test_div_zero : then0 (exec (.div 1 3 0) (world hartNums)) (fun h => h.getX 1 == 0xFFFFFFFFFFFFFFFF) = true := by decide

/-- R152: MULH of −1 and 2 is −1. -/
theorem test_mulh_signed : then0 (exec (.mulh 1 2 3) (world hartNums)) (fun h => h.getX 1 == 0xFFFFFFFFFFFFFFFF) = true := by decide

/-- R155: −1 < 2 as signed numbers and not as unsigned ones. -/
theorem test_cmp_signed : then0 (exec (.cmp 1 2 3 2) (world hartNums)) (fun h => h.getP 1) = true := by decide
theorem test_cmp_unsigned : then0 (exec (.cmp 1 2 3 4) (world hartNums)) (fun h => !h.getP 1) = true := by decide

/-- R164: 1 + 2^−24 in fp32 is a tie that goes to the even 1, and is inexact (bit 4). -/
theorem test_fadd_tie :
    then0 (exec (.fadd 1 2 3 0) (world ((hart0.setX 2 0x3F800000).setX 3 0x33800000)))
      (fun h => h.getX 1 == 0x3F800000 && h.fpflags != 0) = true := by decide

/-- R162: an address that is no multiple of the size raises ALIGN; without a task vector the steward gets it, with the address. -/
theorem test_load_misaligned :
    then0 (exec (.ldd 2 1 7) (world hart0)) (fun h => h.presented == some ⟨some .align, 0x10000, 7, false, 0⟩ && h.mode == .steward) = true := by
  decide

/-- R69, R161: a byte store to the TCM share, and the sign-extended load of it. -/
theorem test_tcm_store_load :
    then0 (exec (.stb 3 1 5) (world (hartTcm.setX 3 0x1F0))) (fun h =>
      then0 (exec (.ldb 4 1 5) (world h)) (fun h => h.getX 4 == 0xFFFFFFFFFFFFFFF0)) = true := by decide

/-- R163: the oldest buffered store reaches memory, low byte first. -/
theorem test_store_performs :
    thenMem (exec (.storeBufferPerform 0 0) (world hartStore)) (fun m => readByte m 0x100 == 1 && readByte m 0x101 == 2 && readByte m 0x102 == 0) = true := by decide

/-- R157: a taken branch goes to pc + 4 × the sign-extended immediate. -/
theorem test_branch_back :
    then0 (exec (.bp 0 false 0x3FFFFF) (world hart0)) (fun h => h.pc == 0xFFFC) = true ∧
    then0 (exec (.bp 0 true 0x3FFFFF) (world hart0)) (fun h => h.pc == 0x10004) = true := by decide

/-- R190: VADD adds the active elements, modulo 2^32. -/
theorem test_vadd :
    then0 (exec (.vadd 0 0 1 2 false false false) (world { hartVec with v :=
        [(0, { openWays := 1 }), (1, { openWays := 1, words := [(0, ⟨0xFFFFFFFF, false⟩)] }), (2, { openWays := 1, words := [(0, ⟨3, false⟩)] })] }))
      (fun h => (h.getV 0).bits 32 0 == 2 && h.pc == 0x10004) = true := by decide

/-- R299, R136: a trap goes to the task vector with cause, pc and INH, and the pending prefix in PFXSTATE. -/
theorem test_trap_entry :
    then0 (.next (deliver (world hartTrap) 0 hartTrap .illegal 0x10000 5)) (fun h =>
      h.pc == 0x10100 && h.trapcause == 0x10001 && h.trappc == 0x10000 && h.trapinfo == 5 && h.pfx.isNone && h.pfxstate.getLsbD 0) = true := by
  decide

/-- R256: QPUSH puts the low bytes of xb into the entry at tail and moves tail. -/
theorem test_qpush :
    thenMem (exec (.qpush 1 2 3) (queueWorld (hartQueue.setX 2 0x1122334455667788)))
      (fun m => readByte m 0x80 == 0x88 && readByte m 0x83 == 0x55 && readByte m 0x84 == 0 && readByte m 0x58 == 1) = true := by decide

/-- R263: a first BAR of a gang arrives and waits. -/
theorem test_bar_waits : then0 (exec (.bar 1) (gangWorld hart0)) (fun h => h.barA == 1 && h.wait == .barrier && h.pc == 0x10000) = true := by
  decide


/-- R141: SRD of FOOTTHR returns what SWR of it wrote; R142: in task mode a write of a register of the steward raises PRIV. -/
theorem test_swr_srd :
    then0 (exec (.swr 2 0x040) (world (hart0.setX 2 5))) (fun h =>
      then0 (exec (.srd 1 0x040) (world h)) (fun h => h.getX 1 == 5 && h.pc == 0x10008)) = true := by decide
theorem test_swr_priv :
    then0 (exec (.swr 2 0x060) (world hart0)) (fun h => (h.presented.bind (·.cause)) == some .priv && h.mode == .steward) = true := by
  decide
end Sys2Proof.Tests
end

section
/-! SUPPORT. What the operations of hosts, of other modules and of the steward answer where they can occur (R337 to R347). -/

namespace Sys2Proof.Machine

/-! ## What a host's operation leaves of memory -/

/-- A fold that carries a state beside something else leaves memory where each step does. -/
theorem foldl_fst_mem {α β : Type} (f : State × β → α → State × β) (h : ∀ x a, (f x a).1.mem = x.1.mem) (l : List α) :
    ∀ x, (l.foldl f x).1.mem = x.1.mem := by
  induction l with
  | nil => exact fun x => rfl
  | cons a l ih => exact fun x => (ih _).trans (h x a)

/-- The hub's walks write no memory (R51). -/
@[simp] theorem hubPlaces_mem (s : State) (root part : Nat) (w : Want) (va n : Nat) : (hubPlaces s root part w va n).1.mem = s.mem := by
  unfold hubPlaces
  refine foldl_fst_mem _ (fun x p => ?_) _ (s, [], none)
  obtain ⟨u, l, _ | e⟩ := x
  · have hm := hubTranslate_mem u root part w (max va (p * 2 ^ 21))
    dsimp only
    split <;> (rename_i ht; rw [ht] at hm; exact hm)
  · rfl

/-- The places of a region are found without a write of memory. -/
@[simp] theorem regionPlaces_mem (s : State) (r : MemRegion) (w : Want) (va n : Nat) : (regionPlaces s r w va n).1.mem = s.mem := by
  have hm := hubPlaces_mem s r.root r.part w va n
  unfold regionPlaces
  split
  · rfl
  · split <;> simp_all

@[simp] theorem atomicPlaces_mem (s : State) (r : MemRegion) (va : Nat) : (atomicPlaces s r va).1.mem = s.mem := by
  unfold atomicPlaces
  split
  · rfl
  · exact regionPlaces_mem ..

/-- A write that the region does not allow writes no memory. -/
theorem regionWrite_none_mem {s t : State} {r : MemRegion} {va : Nat} {d : List Byte} (h : regionWrite s r va d = (t, none)) :
    t.mem = s.mem := by
  have hm := regionPlaces_mem s r ⟨false, true, false⟩ va d.length
  unfold regionWrite at h
  split at h <;> simp_all

/-- A payload whose tags hold changes nothing but its partition's packet counters (R346). -/
theorem openIn_ok {s t : State} {part : Nat} {qp : HostQp} {hd : Nat → List Byte} {data d : List Byte}
    (h : openIn s part qp hd data = .ok t d) : ∃ ps, t = { s with partitions := ps } := by
  unfold openIn at h
  split at h
  · cases h; exact ⟨_, rfl⟩
  · dsimp only at h
    split at h
    · cases h; exact ⟨_, rfl⟩
    · split at h
      · cases h
      · split at h
        · cases h; exact ⟨_, rfl⟩
        · cases h

/-- The same of the answer to a request of the module. -/
theorem openAnswer_ok {s t : State} {pa n v : Nat} {d : List Byte} (h : openAnswer s pa n v = .ok t d) :
    ∃ ps, t = { s with partitions := ps } := by
  unfold openAnswer at h
  dsimp only at h
  split at h
  · cases h; exact ⟨_, rfl⟩
  · split at h
    · cases h
    · exact openIn_ok h

/-! ## Regions (R338) -/

/-- A region refuses an access that it does not allow, or that leaves it. -/
theorem regionPlaces_refused (s : State) (r : MemRegion) (w : Want) (va n : Nat)
    (h : (w.rd = true ∧ r.rd = false) ∨ (w.wr = true ∧ r.wr = false) ∨ va < r.base ∨ r.base + r.size < va + n) :
    regionPlaces s r w va n = (s, none) := by
  have hc : (w.rd && !r.rd || w.wr && !r.wr || decide (va < r.base ∨ r.base + r.size < va + n)) = true := by
    rcases h with ⟨h1, h2⟩ | ⟨h1, h2⟩ | h | h <;> simp [*]
  unfold regionPlaces
  rw [if_pos hc]

/-- An address that does not translate gives the access no place. -/
theorem regionPlaces_untranslated {s t : State} {r : MemRegion} {w : Want} {va n : Nat} {l : List (Nat × Nat)} {e : Nat × Cause}
    (h : hubPlaces s r.root r.part w va n = (t, l, some e)) : (regionPlaces s r w va n).2 = none := by
  unfold regionPlaces
  split
  · rfl
  · rw [h]

/-! ## Whether a host's operation reaches its region (R338, R346) -/

/-- The host ports are up, and the queue pair is of one of them. -/
def QpLive (s : State) (qp : HostQp) : Prop := portsUp s = true ∧ qp.port < 4

theorem QpLive.occurs {s : State} {qp : HostQp} (h : QpLive s qp) : ¬((!portsUp s) = true ∨ 4 ≤ qp.port) := by
  obtain ⟨hp, hq⟩ := h
  simp [hp, hq]

/-- A queue pair in the error state drops the operation. -/
theorem hostOp_error {s : State} {qp : HostQp} (h : QpLive s qp) (he : s.qpErrors.contains qp = true) (rkey : Nat) (k : MemRegion → Result) :
    hostOp s qp rkey k = .next (s.reply (.dropped qp)) := by
  unfold hostOp
  rw [if_neg h.occurs, if_pos he]

/-- No region has the key, or the traffic of its partition is refused. -/
theorem hostOp_refused {s : State} {qp : HostQp} (h : QpLive s qp) (he : s.qpErrors.contains qp = false) {rkey : Nat}
    (hr : ∀ r, s.regions.find? (fun r => r.rkey == rkey) = some r → keysReady s r.part qp.port qp.qpn = false) (k : MemRegion → Result) :
    hostOp s qp rkey k = refuse s qp := by
  unfold hostOp
  rw [if_neg h.occurs, if_neg (by simp only [he, Bool.false_eq_true, not_false_eq_true])]
  split
  · rfl
  · rw [if_neg (by simp [hr _ ‹_›])]

/-- The operation reaches a region: its queue pair is not in the error state, and the partition's traffic is not refused. -/
structure RegionReached (s : State) (qp : HostQp) (rkey : Nat) (r : MemRegion) : Prop where
  live    : QpLive s qp
  sound   : s.qpErrors.contains qp = false
  region  : s.regions.find? (fun r => r.rkey == rkey) = some r
  traffic : keysReady s r.part qp.port qp.qpn = true

theorem hostOp_reached {s : State} {qp : HostQp} {rkey : Nat} {r : MemRegion} (h : RegionReached s qp rkey r) (k : MemRegion → Result) :
    hostOp s qp rkey k = k r := by
  obtain ⟨hl, he, hr, hk⟩ := h
  unfold hostOp
  rw [if_neg hl.occurs, if_neg (by simp only [he, Bool.false_eq_true, not_false_eq_true]), hr]
  exact if_pos hk

/-! ## Operations on a region (R337 to R339) -/

section
variable {s s₁ s₂ s₃ : State} {qp : HostQp} {rkey va n : Nat} {r : MemRegion} {data d : List Byte}

/-- A write whose payload opens and that the region allows is acknowledged. -/
theorem execRdmaWrite_ack (h : RegionReached s qp rkey r)
    (ho : openIn s r.part qp (headersOf .hostWrite qp.qpn r.rkey va data.length) data = .ok s₁ d)
    (hw : regionWrite s₁ r va d = (s₂, some s₃)) : execRdmaWrite qp rkey va data s = .next (s₃.reply (.ack qp)) := by
  unfold execRdmaWrite
  rw [hostOp_reached h]
  simp only [ho, hw]

theorem execRdmaWrite_notAllowed (h : RegionReached s qp rkey r)
    (ho : openIn s r.part qp (headersOf .hostWrite qp.qpn r.rkey va data.length) data = .ok s₁ d)
    (hw : regionWrite s₁ r va d = (s₂, none)) : execRdmaWrite qp rkey va data s = refuse s₂ qp := by
  unfold execRdmaWrite
  rw [hostOp_reached h]
  simp only [ho, hw]

theorem execRdmaWrite_refused (h : RegionReached s qp rkey r)
    (ho : openIn s r.part qp (headersOf .hostWrite qp.qpn r.rkey va data.length) data = .refused) :
    execRdmaWrite qp rkey va data s = refuse s qp := by
  unfold execRdmaWrite
  rw [hostOp_reached h]
  simp only [ho]

/-- Of a write one of whose packets is dropped, the bytes of those before it are written where the region allows it. -/
theorem execRdmaWrite_dropped (h : RegionReached s qp rkey r)
    (ho : openIn s r.part qp (headersOf .hostWrite qp.qpn r.rkey va data.length) data = .dropped s₁ d) :
    execRdmaWrite qp rkey va data s =
      .next ((if d.isEmpty then s₁ else (regionWrite s₁ r va d).2.getD s₁).reply (.dropped qp)) := by
  unfold execRdmaWrite
  rw [hostOp_reached h]
  simp only [ho]

theorem execRdmaRead_noPlace (h : RegionReached s qp rkey r)
    (hp : regionPlaces s r ⟨true, false, false⟩ va n = (s₁, none)) : execRdmaRead qp rkey va n s = refuse s₁ qp := by
  unfold execRdmaRead
  rw [hostOp_reached h]
  simp only [hp]

/-- A read that reaches no register region whole, nor memory whole in a region without queues. -/
theorem execRdmaRead_notAllowed (h : RegionReached s qp rkey r) {l : List (Nat × Bool)}
    (hp : regionPlaces s r ⟨true, false, false⟩ va n = (s₁, some l)) (hr : allRegs (l.map (·.1)) = false)
    (hq : r.queues = true ∨ (l.map (·.1)).all inMemory = false) : execRdmaRead qp rkey va n s = refuse s₁ qp := by
  have hc : (!(allRegs (l.map (·.1)) || (!r.queues && (l.map (·.1)).all inMemory))) = true := by
    rcases hq with hq | hq <;> simp only [hr, hq] <;> simp
  unfold execRdmaRead
  rw [hostOp_reached h]
  simp only [hp]
  exact if_pos hc

/-- A read that the region allows goes out with the bytes that it finds. -/
theorem execRdmaRead_data (h : RegionReached s qp rkey r) {l : List (Nat × Bool)}
    (hp : regionPlaces s r ⟨true, false, false⟩ va n = (s₁, some l))
    (ha : allRegs (l.map (·.1)) = true ∨ r.queues = false ∧ (l.map (·.1)).all inMemory = true)
    (h₂ : s₂ = recordPieces (readAccess s₁ l false .hub) 3 (distinct ((l.map (·.1)).map pieceOf)))
    (ho : sealOut { s₂ with free := s₂.free + n } r.part qp.port qp.qpn
      (headersOf .readAnswer qp.qpn r.rkey va (hostBytes s₂ (l.map (·.1))).length) (hostBytes s₂ (l.map (·.1))) = (s₃, some d)) :
    execRdmaRead qp rkey va n s = .next (s₃.reply (.data qp d)) := by
  have hc : ¬(!(allRegs (l.map (·.1)) || (!r.queues && (l.map (·.1)).all inMemory))) = true := by
    rcases ha with ha | ⟨hq, hm⟩
    · simp only [ha]; simp
    · simp only [hq, hm]; simp
  subst h₂
  unfold execRdmaRead
  rw [hostOp_reached h]
  simp only [hp]
  rw [if_neg hc]
  unfold answer hubReads
  rw [ho]

/-- The two atomics have no place in the region. -/
theorem execAtomics_noPlace (h : RegionReached s qp rkey r) (hp : atomicPlaces s r va = (s₁, none)) :
    (∀ v, execFetchAndAdd qp rkey va v s = refuse s₁ qp) ∧ ∀ cmp swap, execCmpAndSwap qp rkey va cmp swap s = refuse s₁ qp := by
  refine ⟨fun v => ?_, fun cmp swap => ?_⟩
  · unfold execFetchAndAdd
    rw [hostOp_reached h]
    simp only [hp]
  · unfold execCmpAndSwap
    rw [hostOp_reached h]
    simp only [hp]

/-- A place that is neither registers nor memory, or that a region of queues does not allow. -/
theorem execAtomics_notAllowed (h : RegionReached s qp rkey r) {pas : List Nat} (hp : atomicPlaces s r va = (s₁, some pas))
    (hr : allRegs pas = false) (hq : pas.all inMemory = false ∨ r.queues = true) :
    (∀ v, execFetchAndAdd qp rkey va v s = refuse s₁ qp) ∧ ∀ cmp swap, execCmpAndSwap qp rkey va cmp swap s = refuse s₁ qp := by
  refine ⟨fun v => ?_, fun cmp swap => ?_⟩
  · unfold execFetchAndAdd
    rw [hostOp_reached h]
    simp only [hp, hr]
    rcases hq with hq | hq <;> simp [hq]
  · unfold execCmpAndSwap
    rw [hostOp_reached h]
    simp only [hp, hr]
    rcases hq with hq | hq <;> simp [hq]

theorem execFetchAndAdd_memory (h : RegionReached s qp rkey r) {pas : List Nat} (hp : atomicPlaces s r va = (s₁, some pas))
    (hm : pas.all inMemory = true) (hr : allRegs pas = false) (hq : r.queues = false) (v : Word) :
    execFetchAndAdd qp rkey va v s = .next (writePieces { (atomicReply s₁ qp pas).1 with free := (atomicReply s₁ qp pas).1.free + 8 }
      (pas.zip (toBytes 8 ((ofBytes (atomicReply s₁ qp pas).2 + v.toNat) % 2 ^ 64))) false) := by
  unfold execFetchAndAdd
  rw [hostOp_reached h]
  simp [hp, hr, hq, hm]

theorem execCmpAndSwap_memory (h : RegionReached s qp rkey r) {pas : List Nat} (hp : atomicPlaces s r va = (s₁, some pas))
    (hm : pas.all inMemory = true) (hr : allRegs pas = false) (hq : r.queues = false) (cmp swap : Word) :
    execCmpAndSwap qp rkey va cmp swap s = .next (if ofBytes (atomicReply s₁ qp pas).2 = cmp.toNat then
      writePieces { (atomicReply s₁ qp pas).1 with free := (atomicReply s₁ qp pas).1.free + 8 } (pas.zip (toBytes 8 swap.toNat)) false
      else { (atomicReply s₁ qp pas).1 with free := (atomicReply s₁ qp pas).1.free + 8 }) := by
  unfold execCmpAndSwap
  rw [hostOp_reached h]
  simp [hp, hr, hq, hm]

/-- A fetch-and-add of a hub register takes a position from a claim field, and from no other in a region of queues (R276, R338). -/
theorem execFetchAndAdd_register (h : RegionReached s qp rkey r) {pas : List Nat} (hp : atomicPlaces s r va = (s₁, some pas))
    (hr : allRegs pas = true) (hq : r.queues = false ∨ pas.headD 0 < 0x8010100000 ∧ pas.headD 0 % 64 = 32) (v : Word) :
    execFetchAndAdd qp rkey va v s = .next (hubFetchAdd (atomicReply s₁ qp pas).1 (pas.headD 0) v) := by
  unfold execFetchAndAdd
  rw [hostOp_reached h]
  simp only [hp, hr]
  rcases hq with hq | ⟨hlo, hmod⟩
  · simp [hq]
  · simp only [hlo, hmod]; simp

end

/-! ## Accesses of other modules (R343) -/

/-- An access outside stacked DRAM and hub SRAM is answered as failed. -/
theorem execIncomingRemoteAccess_outside {pa n : Nat} (h : (span pa n).all inMemory = false) (data : Option PeerWrite) (s : State) :
    execIncomingRemoteAccess pa n data s = .next (s.reply (.remoteData (List.replicate n none))) := by
  unfold execIncomingRemoteAccess
  exact if_pos (.inl (by rw [h]; rfl))

theorem execIncomingRemoteAccess_bytes {pa n : Nat} (h : (span pa n).all inMemory = true) {d : List Byte} (hd : d.length = n) (s : State) :
    execIncomingRemoteAccess pa n (some ⟨d, none⟩) s = .next (writeBytes (baseAccess s (span pa n) .hub) 3 pa d) := by
  unfold execIncomingRemoteAccess
  exact if_neg (by rw [h]; simp [hd])

theorem execIncomingRemoteAccess_nibble {pa : Nat} (h : (span pa 1).all inMemory = true) {d : List Byte} (hd : d.length = 1) (high : Bool)
    (s : State) : execIncomingRemoteAccess pa 1 (some ⟨d, some high⟩) s = .next (writeBytes (baseAccess s (span pa 1) .hub) 3 pa
      (mergeNibble (baseAccess s (span pa 1) .hub) pa high (d.getD 0 0))) := by
  unfold execIncomingRemoteAccess
  exact if_neg (by rw [h]; simp [hd])

theorem execIncomingRemoteAccess_read {pa n : Nat} (h : (span pa n).all inMemory = true) {s t : State}
    (ht : t = recordPieces (hubAccess s (span pa n) false) 3 (piecesOf pa n)) :
    execIncomingRemoteAccess pa n none s = .next (t.reply (.remoteData
      ((span pa n).map (fun a => if badByte t a then none else some (readByte t.mem a))))) := by
  subst ht
  unfold execIncomingRemoteAccess
  exact if_neg (by rw [h]; simp)

/-! ## The end of a remote access (R340 to R342, R346) -/

/-- Accesses that waited go out, and the harts stay as they are. -/
@[simp] theorem launchWaiting_harts (s : State) : (launchWaiting s).harts = s.harts := by
  unfold launchWaiting
  refine foldl_harts _ (fun s e => ?_) _ s
  split
  · exact launch_harts ..
  · rfl

/-- The module once access n of a hart is outstanding no more: a failure is logged, and what waited for it goes out. -/
def accessGone (s : State) (n : Nat) (failed : Bool) : State :=
  launchWaiting (if failed then State.note { s with outstanding := del s.outstanding n } (.remote n)
    else { s with outstanding := del s.outstanding n })

theorem accessGone_hart (s : State) (n : Nat) (b : Bool) (k : Nat) : (accessGone s n b).hart? k = s.hart? k := by
  unfold accessGone
  refine hart_of_harts ?_ k
  rw [launchWaiting_harts]
  split <;> rfl

/-- A hart that waits for a remote access waits no more. -/
def Hart.remoteWoken (h : Hart) : Hart := { h with wait := if h.wait = .remote then .none else h.wait }

/-- What a hart's load brings back: its bytes as a number, or none. -/
def Hart.gotRemote (h : Hart) (n idx : Nat) (data : Option Nat) : Hart :=
  { h with arrived := put h.arrived idx data, remote := h.remote.filter (· != n) }

theorem setHart_setHart (s : State) (n : Nat) (g h : Hart) : (s.setHart n g).setHart n h = s.setHart n h := by
  unfold State.setHart
  rw [put_put]

section
variable {s : State} {n : Nat} {r : Remote} {h : Hart}

/-- A write that fails ends its task (R342). -/
theorem remoteEnds_writeFailed (hh : s.hart? r.hart = some h) (hl : r.load = false) :
    remoteEnds s n r none = some ((endTask ((accessGone s n true).setHart r.hart h.remoteWoken) h.task (.remote r.hart r.pc r.va)).getD
      ((accessGone s n true).setHart r.hart h.remoteWoken)) := by
  have hg := (accessGone_hart s n true r.hart).trans hh
  unfold accessGone at hg ⊢
  unfold remoteEnds
  split
  · simp_all
  · simp only [Option.isNone_none, ↓reduceIte, hl, Bool.false_eq_true] at hg ⊢
    rw [hg]
    dsimp only
    unfold Hart.remoteWoken
    cases endTask _ h.task (.remote r.hart r.pc r.va) <;> rfl

/-- A write that is done wakes its hart. -/
theorem remoteEnds_writeDone (hh : s.hart? r.hart = some h) (hl : r.load = false) (ha : r.asksByte s = false) (v : Nat) :
    remoteEnds s n r (some v) = some ((accessGone s n false).setHart r.hart h.remoteWoken) := by
  have hg := (accessGone_hart s n false r.hart).trans hh
  unfold accessGone at hg ⊢
  unfold remoteEnds
  split
  · simp_all
  · simp only [Option.isNone_some, ↓reduceIte, hl, Bool.false_eq_true] at hg ⊢
    rw [hg]
    rfl

/-- A load of an instruction brings back its data, or its failure. -/
theorem remoteEnds_load (hh : s.hart? r.hart = some h) (hl : r.load = true) (hc : r.chan = none) (hm : n ∈ h.remote) (data : Option Nat) :
    remoteEnds s n r data = some ((accessGone s n data.isNone).setHart r.hart (h.remoteWoken.gotRemote n r.idx data)) := by
  have hg := (accessGone_hart s n data.isNone r.hart).trans hh
  have ha : r.asksByte s = false := by unfold Remote.asksByte; rw [hl]; rfl
  unfold accessGone at hg ⊢
  unfold remoteEnds
  split
  · simp_all
  · dsimp only
    rw [hg]
    dsimp only
    rw [if_pos hl]
    unfold remoteLoaded
    rw [hc]
    dsimp only
    rw [if_pos (by simpa using hm), setHart_setHart]
    rfl

/-- The byte that a nibble is stored into comes back. -/
theorem remoteEnds_nibble {high : Bool} (ha : r.asksByte s = true) (hr : r.high = some high) (v : Nat) :
    remoteEnds s n r (some v) = some (writeNibble s n r high v) := by
  unfold remoteEnds
  rw [ha, hr]

/-- Nothing answers an access that waits; any other that fails ends, by a refusal or by its time-out. -/
theorem execRemote_fails {t : State} (hr : find? s.outstanding n = some r) (hs : r.step ≠ 2) (he : remoteEnds s n r none = some t) :
    execRemoteResponse n none s = .next t ∧ execRemoteTimeout n s = .next t := by
  unfold execRemoteResponse execRemoteTimeout
  simp [hr, hs, he]

/-- A write that has gone out and sent for no byte ends with its acknowledgement. -/
theorem execRemoteResponse_done {t : State} (hr : find? s.outstanding n = some r) (hs : r.step < 2) (hl : r.load = false)
    (ha : r.asksByte s = false) {v : Nat} (he : remoteEnds s n r (some v) = some t) : execRemoteResponse n (some v) s = .next t := by
  have h2 : ¬2 ≤ r.step := by omega
  unfold execRemoteResponse
  simp [hr, h2, hl, ha, he]

/-- An answer goes through the opening of its payload. -/
theorem execRemoteResponse_answered {t : State} (hr : find? s.outstanding n = some r) (hs : r.step < 2)
    (ha : r.load = true ∨ r.asksByte s = true) {v : Nat}
    (he : answered s r.pa r.data.length v (fun u d => remoteEnds u n r d) = some t) : execRemoteResponse n (some v) s = .next t := by
  have h2 : ¬2 ≤ r.step := by omega
  have hb : (r.load || r.asksByte s) = true := by simpa using ha
  unfold execRemoteResponse
  simp [hr, h2, hb, he]

/-- An answer that is refused fails the access. -/
theorem execRemoteResponse_refused (hr : find? s.outstanding n = some r) (hs : r.step < 2)
    (ha : r.load = true ∨ r.asksByte s = true) {v : Nat} (ho : openAnswer s r.pa r.data.length v = .refused) :
    execRemoteResponse n (some v) s = execRemoteResponse n none s := by
  have h2 : ¬2 ≤ r.step := by omega
  have h3 : ¬r.step = 2 := by omega
  have hb : (r.load || r.asksByte s) = true := by simpa using ha
  unfold execRemoteResponse answered
  simp [hr, h2, h3, hb, ho]

/-- A load's answer whose payload opens brings its data. -/
theorem execRemoteResponse_load (hr : find? s.outstanding n = some r) (hh : s.hart? r.hart = some h) (hs : r.step < 2)
    (hl : r.load = true) (hc : r.chan = none) (hm : n ∈ h.remote) {v : Nat} {s₁ : State} {d : List Byte}
    (ho : openAnswer s r.pa r.data.length v = .ok s₁ d) : execRemoteResponse n (some v) s =
      .next ((accessGone s₁ n false).setHart r.hart (h.remoteWoken.gotRemote n r.idx (some (ofBytes d)))) := by
  have hh₁ : s₁.hart? r.hart = some h := by
    obtain ⟨ps, rfl⟩ := openAnswer_ok ho
    exact hh
  refine execRemoteResponse_answered hr hs (.inl hl) ?_
  unfold answered
  rw [ho]
  exact remoteEnds_load hh₁ hl hc hm _

/-- The byte that a store of a nibble has sent for comes back, and goes out with the nibble in it (R341). -/
theorem execRemoteResponse_nibble (hr : find? s.outstanding n = some r) (ha : r.asksByte s = true) {high : Bool} (hh : r.high = some high)
    {v : Nat} {s₁ : State} {d : List Byte} (ho : openAnswer s r.pa r.data.length v = .ok s₁ d) (ha₁ : r.asksByte s₁ = true) :
    execRemoteResponse n (some v) s = .next (writeNibble s₁ n r high (ofBytes d)) := by
  have hs : r.step < 2 := by
    have h0 := ha
    unfold Remote.asksByte at h0
    simp only [Bool.and_eq_true, beq_iff_eq] at h0
    omega
  refine execRemoteResponse_answered hr hs (.inr ha) ?_
  unfold answered
  rw [ho]
  exact remoteEnds_nibble ha₁ hh _

/-- A packet that is dropped leaves the request outstanding. -/
theorem execRemoteResponse_dropped (hr : find? s.outstanding n = some r) (hs : r.step < 2) (ha : r.load = true ∨ r.asksByte s = true)
    {v : Nat} {s₁ : State} {d : List Byte} (ho : openAnswer s r.pa r.data.length v = .dropped s₁ d) :
    execRemoteResponse n (some v) s = .next s₁ := by
  refine execRemoteResponse_answered hr hs ha ?_
  unfold answered
  rw [ho]

end

/-! ## The end of an access of the hub itself (R248, R340) -/

section
variable {s : State} {n : Nat} {a : HubAccess}

/-- An access of the hub that fails is logged, and is outstanding no more. -/
theorem execRemote_hubFails (hr : find? s.outstanding n = none) (ha : find? s.hubOut n = some a) :
    let failed := State.note { s with hubOut := del s.hubOut n } (if a.load then .remote n else .completion a.task)
    execRemoteResponse n none s = .next failed ∧ execRemoteTimeout n s = .next failed := by
  have he : hubEnds s n a none = State.note { s with hubOut := del s.hubOut n } (if a.load then .remote n else .completion a.task) := by
    unfold hubEnds
    simp
  unfold execRemoteResponse execRemoteTimeout
  simp [hr, ha, he]

theorem execRemoteResponse_hubWrite (hr : find? s.outstanding n = none) (ha : find? s.hubOut n = some a) (hl : a.load = false) (v : Nat) :
    execRemoteResponse n (some v) s = .next { s with hubOut := del s.hubOut n } := by
  unfold execRemoteResponse hubEnds
  simp [hr, ha, hl]

/-- A counter that has been read meets its task's dependence where it reaches the threshold. -/
theorem execRemoteResponse_counter (hr : find? s.outstanding n = none) (ha : find? s.hubOut n = some a) {v : Nat} {s₁ : State} {d : List Byte}
    {t : Task} (hl : a.load = true) (ho : openAnswer s a.pa a.data.length v = .ok s₁ d) (ht : s₁.task? a.task = some t)
    (hw : t.phase = .waiting) : execRemoteResponse n (some v) s = .next
      (if t.srec.depthresh ≤ ofBytes d then State.setTask { s₁ with hubOut := del s₁.hubOut n } a.task { t with depMet := true }
      else { s₁ with hubOut := del s₁.hubOut n }) := by
  have ht' : State.task? { s₁ with hubOut := del s₁.hubOut n } a.task = some t := ht
  unfold execRemoteResponse answered hubEnds
  simp [hr, ha, hl, ho, ht', hw]

end

end Sys2Proof.Machine

namespace Sys2Proof.Machine

/-! ## What the steward and tenants ask for (R276, R345, R346) -/

theorem execAttestationRequest_report {s : State} {port part : Nat} {nonce : List Byte} (hp : portsUp s = true) (hq : port < 4)
    (hn : nonce.length = 32) (hs : part < 2 ^ 32) : execAttestationRequest port nonce part s =
      .next (s.reply (.report port (reportBody s nonce part ++ Config.mlDsaSign s.identity.sec (reportBody s nonce part)))) := by
  unfold execAttestationRequest
  exact if_neg (by simp [hp, hn]; omega)

/-- The tenant's ciphertext gives a confidential partition its keys. -/
theorem execKeyEncapsulation_keys {s : State} {port part : Nat} {ct : List Byte} {p : Partition} (hu : portsUp s = true) (hq : port < 4)
    (hp : find? s.partitions part = some p) (hc : p.conf = true) (hl : ct.length = 1088) :
    execKeyEncapsulation port part ct s = .next { s with partitions := put s.partitions part { p with
      h2d := deriveKey labelH2d (Config.mlKemDecaps p.dk ct) part, d2h := deriveKey labelD2h (Config.mlKemDecaps p.dk ct) part
      sealSecret := deriveKey labelSeal (Config.mlKemDecaps p.dk ct) part, keyed := true, rxFrom := p.rx, txFrom := p.tx } } := by
  have h4 : ¬4 ≤ port := by omega
  unfold execKeyEncapsulation
  simp [hu, h4, hp, hc, hl]

/-- The key pair of a new partition: none, or, where it is confidential, one that the random source gives. -/
def newKeys (s : State) (conf : Bool) : List Byte × List Byte := if conf then Config.mlKemKeys (Config.random s.free) else ([], [])

theorem execPartitionCreation_new {s : State} {part : Nat} (conf : Bool) (regions : List MemRegion) (hs : part < 2 ^ 32)
    (hf : find? s.partitions part = none) : execPartitionCreation part conf regions s = .next { s with
      free := s.free + 1
      partitions := put s.partitions part { conf := conf, ek := (newKeys s conf).1, dk := (newKeys s conf).2 }
      regions := s.regions ++ regions.map (fun r => { r with part := part }) } := by
  unfold execPartitionCreation
  exact if_neg (by rw [hf]; simp; omega)

end Sys2Proof.Machine

open Sys2Proof Sys2Proof.Machine

/-- Settles O60, clause by clause: each operation of hosts, of other modules and of the steward by the lemma that says what it answers
where it can occur. -/
theorem hostStepsComplete : Obligations.HostStepsComplete := by
  unfold Obligations.HostStepsComplete
  intro s
  refine ⟨fun qp rkey va hp hq => ?_, regionPlaces_refused s, fun r w va n s₁ l e => regionPlaces_untranslated,
    fun port nonce part hp hq hn hs => execAttestationRequest_report hp hq hn hs,
    fun port part ct p hu hq hp hc hl => execKeyEncapsulation_keys hu hq hp hc hl,
    fun part conf regions hs hf => ⟨newKeys s conf, fun hc => ?_, execPartitionCreation_new conf regions hs hf⟩,
    fun who addr v ha => if_pos ha, fun pa n => ⟨fun h data => execIncomingRemoteAccess_outside h data s, fun h =>
      ⟨fun d hd => ⟨execIncomingRemoteAccess_bytes h hd s, fun high hn => ?_⟩, execIncomingRemoteAccess_read h rfl⟩⟩,
    fun n r h hr hh hs => ?_, fun n a hr ha => ?_⟩
  · have hlive : QpLive s qp := ⟨hp, hq⟩
    refine ⟨fun opcode => if_neg hlive.occurs,
      fun he => ⟨fun _ => hostOp_error hlive he .., fun _ => hostOp_error hlive he .., fun _ => hostOp_error hlive he ..,
        fun _ _ => hostOp_error hlive he ..⟩,
      fun he hr => ⟨fun _ => hostOp_refused hlive he hr _, fun _ => hostOp_refused hlive he hr _, fun _ => hostOp_refused hlive he hr _,
        fun _ _ => hostOp_refused hlive he hr _⟩,
      fun r he hr hk => ?_⟩
    have h : RegionReached s qp rkey r := ⟨hlive, he, hr, hk⟩
    refine ⟨fun data => ⟨fun s₁ d ho => ?_, execRdmaWrite_refused h, fun s₁ d => execRdmaWrite_dropped h⟩,
      fun n => ⟨fun s₁ hp => ?_, fun s₁ l hp => ⟨fun hr hq => ?_, fun ha s₃ d => execRdmaRead_data h hp ha rfl⟩⟩,
      fun s₁ hp => ?_,
      fun s₁ pas hp => ⟨fun hm hr hq => ⟨execFetchAndAdd_memory h hp hm hr hq, execCmpAndSwap_memory h hp hm hr hq⟩, fun hr hq => ?_,
        execFetchAndAdd_register h hp⟩⟩
    · have hm : s₁.mem = s.mem := by
        obtain ⟨ps, rfl⟩ := openIn_ok ho
        rfl
      exact ⟨hm, fun s₂ s₃ => execRdmaWrite_ack h ho, fun s₂ hw => ⟨(regionWrite_none_mem hw).trans hm, execRdmaWrite_notAllowed h ho hw⟩⟩
    · exact ⟨by rw [← regionPlaces_mem s r, hp], execRdmaRead_noPlace h hp⟩
    · exact ⟨by rw [← regionPlaces_mem s r, hp], execRdmaRead_notAllowed h hp hr hq⟩
    · exact ⟨by rw [← atomicPlaces_mem s r, hp], execAtomics_noPlace h hp⟩
    · exact ⟨by rw [← atomicPlaces_mem s r, hp], execAtomics_notAllowed h hp hr hq⟩
  · rw [hc]; rfl
  · subst hn
    exact execIncomingRemoteAccess_nibble h hd high s
  · refine ⟨fun hl => ?_, fun hl hc hm => ?_, fun v s₁ d high ha hg ho ha₁ => execRemoteResponse_nibble hr ha hg ho ha₁,
      fun v hs ha => ⟨fun s₁ d => execRemoteResponse_dropped hr hs ha, execRemoteResponse_refused hr hs ha⟩⟩
    · obtain ⟨hresp, htime⟩ := execRemote_fails hr hs (remoteEnds_writeFailed hh hl)
      exact ⟨hresp, htime, fun hs ha v => execRemoteResponse_done hr hs hl ha (remoteEnds_writeDone hh hl ha v)⟩
    · obtain ⟨hresp, htime⟩ := execRemote_fails hr hs (remoteEnds_load hh hl hc hm none)
      exact ⟨hresp, htime, fun v s₁ d hs => execRemoteResponse_load hr hh hs hl hc hm⟩
  · obtain ⟨hresp, htime⟩ := execRemote_hubFails hr ha
    exact ⟨hresp, htime, execRemoteResponse_hubWrite hr ha, fun v s₁ d t => execRemoteResponse_counter hr ha⟩
end

section
/-! SUPPORT. What the steps of power read and leave of columns and stacks, and the limits of the columns that follow (R357 to R361). -/

namespace Sys2Proof.Machine

/-! ## Reading back columns and stacks -/

@[simp] theorem stk_modStk_same (s : State) (n : Nat) (f : Stack → Stack) : (s.modStk n f).stk n = f (s.stk n) := by
  unfold State.stk State.modStk look
  rw [find?_put_same]
  rfl

theorem stk_modStk_other (s : State) {n m : Nat} (f : Stack → Stack) (h : m ≠ n) : (s.modStk n f).stk m = s.stk m := by
  unfold State.stk State.modStk look
  rw [find?_put_other _ _ _ _ h]

@[simp] theorem col_modStk (s : State) (n c : Nat) (f : Stack → Stack) : (s.modStk n f).col c = s.col c := rfl
@[simp] theorem stk_modCol (s : State) (n c : Nat) (f : Column → Column) : (s.modCol c f).stk n = s.stk n := rfl

@[simp] theorem col_modCol_same (s : State) (c : Nat) (f : Column → Column) : (s.modCol c f).col c = f (s.col c) := by
  unfold State.modCol State.setCol State.col look
  rw [find?_put_same]
  rfl

theorem col_modCol_other (s : State) {c d : Nat} (f : Column → Column) (h : d ≠ c) : (s.modCol c f).col d = s.col d := by
  unfold State.modCol State.setCol State.col look
  rw [find?_put_other _ _ _ _ h]

/-! ## What the steps of power touch -/

/-- `t` is `s` but for its columns, its stacks, what its partitions are charged and the count of free values. -/
def Tunes (s t : State) : Prop :=
  ∃ columns stackTab partitions free,
    t = { s with columns := columns, stackTab := stackTab, partitions := partitions, free := free }

theorem Tunes.refl (s : State) : Tunes s s := ⟨_, _, _, _, rfl⟩

theorem Tunes.trans {s t u : State} (h : Tunes s t) (g : Tunes t u) : Tunes s u := by
  obtain ⟨_, _, _, _, rfl⟩ := h
  obtain ⟨_, _, _, _, rfl⟩ := g
  exact ⟨_, _, _, _, rfl⟩

theorem Tunes.modCol (s : State) (c : Nat) (f : Column → Column) : Tunes s (s.modCol c f) := ⟨_, _, _, _, rfl⟩
theorem Tunes.modStk (s : State) (n : Nat) (f : Stack → Stack) : Tunes s (s.modStk n f) := ⟨_, _, _, _, rfl⟩

theorem Tunes.foldl {α : Type} (f : State → α → State) (h : ∀ s a, Tunes s (f s a)) (l : List α) : ∀ s, Tunes s (l.foldl f s) := by
  induction l with
  | nil => exact Tunes.refl
  | cons a l ih => exact fun s => (h s a).trans (ih _)

/-- What the steps of power leave of the module. -/
theorem Tunes.frame {s t : State} (h : Tunes s t) :
    t.mem = s.mem ∧ t.harts = s.harts ∧ t.tasks = s.tasks ∧ t.queues = s.queues ∧ t.modcap = s.modcap := by
  obtain ⟨_, _, _, _, rfl⟩ := h
  exact ⟨rfl, rfl, rfl, rfl, rfl⟩

/-- The classes in force depend on tasks, queues and bindings alone (R281, R282). -/
theorem classOf_tunes {s t : State} (h : Tunes s t) (id : Nat) : classOf t id = classOf s id := by
  obtain ⟨cs, ss, ps, f, rfl⟩ := h
  have hr : ∀ n cf, inherits { s with columns := cs, stackTab := ss, partitions := ps, free := f } n cf = inherits s n cf := by
    intro n
    induction n with
    | zero => exact fun cf => rfl
    | succ n ih => exact fun cf => ih _
  exact congrArg (look · id 3) (hr _ _)

theorem classZero_tunes {s t : State} (h : Tunes s t) (c : Nat) : classZero t c = classZero s c := by
  unfold classZero
  simp only [classOf_tunes h]
  obtain ⟨_, _, _, _, rfl⟩ := h
  rfl

theorem reservedCols_tunes {s t : State} (h : Tunes s t) (gone : List Nat) (n : Nat) : reservedCols t gone n = reservedCols s gone n := by
  unfold reservedCols
  simp only [classOf_tunes h]
  obtain ⟨_, _, _, _, rfl⟩ := h
  rfl

/-- The reserves of a stack depend on its RESWIN besides (R359). -/
theorem reserves_tunes {s t : State} (h : Tunes s t) {n : Nat} (hn : t.stk n = s.stk n) : reserves t n = reserves s n := by
  unfold reserves reserveOf
  rw [reservedCols_tunes h, hn]

theorem columnLimits_congr {s t : State} (h : Tunes s t) {c : Nat} (hr : (t.stk (c / 256)).lowRows = (s.stk (c / 256)).lowRows)
    (hh : (t.stk (c / 256)).thermal = (s.stk (c / 256)).thermal) (hw : (t.stk (c / 256)).askWin = (s.stk (c / 256)).askWin)
    (hd : (t.stk (c / 256)).askDuty = (s.stk (c / 256)).askDuty) : columnLimits t c = columnLimits s c := by
  unfold columnLimits
  dsimp only
  rw [classZero_tunes h, hr, hh, hw, hd]

/-! ## Windows and duty of the columns of a stack (R358, R360) -/

theorem mem_span {lo n a : Nat} : a ∈ span lo n ↔ lo ≤ a ∧ a < lo + n := by
  unfold span
  rw [List.mem_map]
  constructor
  · rintro ⟨i, hi, rfl⟩
    have := List.mem_range.1 hi
    omega
  · rintro ⟨h1, h2⟩
    exact ⟨a - lo, List.mem_range.2 (by omega), by omega⟩

/-- The columns of a stack. -/
theorem mem_stackSpan {n c : Nat} : c ∈ span (n * 256) 256 ↔ c / 256 = n := by
  rw [mem_span]
  omega

/-- A column's window and duty as given. -/
def Column.limited (k : Column) (l : Nat × Nat) : Column := { k with winLen := l.1, duty := l.2 }

/-- Of some columns that are given their limits, each has its own; the others are as they were. -/
theorem col_foldl_limited (g : Nat → Nat × Nat) (l : List Nat) (c : Nat) : ∀ s : State,
    ((l.map (fun c => (c, g c))).foldl (fun s e => s.modCol e.1 (·.limited e.2)) s).col c =
      if c ∈ l then (s.col c).limited (g c) else s.col c := by
  induction l with
  | nil => exact fun s => rfl
  | cons a l ih =>
    intro s
    rw [List.map_cons, List.foldl_cons, ih]
    by_cases ha : c = a
    · subst ha
      simp [Column.limited]
    · rw [col_modCol_other _ _ ha]
      simp [ha]

theorem stk_foldl_limited (l : List (Nat × Nat × Nat)) (n : Nat) : ∀ s : State,
    (l.foldl (fun s e => s.modCol e.1 (·.limited e.2)) s).stk n = s.stk n := by
  induction l with
  | nil => exact fun s => rfl
  | cons a l ih => exact fun s => ih _

/-- Stack n stands at `v`, but for what its power block shows of the duty; the other stacks and their columns are as they were; and its own
columns have the window and the duty that then follow. -/
structure StackSet (n : Nat) (v : Stack) (s t : State) : Prop where
  tunes  : Tunes s t
  stack  : t.stk n = { v with dutyLow := (t.stk n).dutyLow }
  others : ∀ m, m ≠ n → t.stk m = s.stk m
  cols   : ∀ c, c / 256 ≠ n → t.col c = s.col c
  limits : ∀ c, c / 256 = n → ((t.col c).winLen, (t.col c).duty) = columnLimits t c

/-- The columns of a stack with the window and duty that they then have (R358). -/
def limitColumns (s : State) (n : Nat) : State :=
  ((span (n * 256) 256).map (fun c => (c, columnLimits s c))).foldl (fun s e => s.modCol e.1 (·.limited e.2)) s

theorem col_limitColumns (s : State) (n c : Nat) :
    (limitColumns s n).col c = if c / 256 = n then (s.col c).limited (columnLimits s c) else s.col c := by
  unfold limitColumns
  rw [col_foldl_limited]
  simp only [mem_stackSpan]

theorem stk_limitColumns (s : State) (n m : Nat) : (limitColumns s n).stk m = s.stk m := stk_foldl_limited _ m s

theorem limitColumns_tunes (s : State) (n : Nat) : Tunes s (limitColumns s n) := by
  unfold limitColumns
  generalize (span (n * 256) 256).map (fun c => (c, columnLimits s c)) = l
  exact Tunes.foldl _ (fun s e => Tunes.modCol s e.1 (·.limited e.2)) l s

theorem applyLimits_eq (s : State) (n : Nat) :
    ∃ d, applyLimits s n = (limitColumns s n).modStk n (fun k => { k with dutyLow := d }) := by
  refine ⟨((((span (n * 256) 256).map (fun c => (c, columnLimits s c))).map (·.2.2)).foldl min 16 - 1), ?_⟩
  unfold applyLimits limitColumns
  rfl

/-- What a stack's columns get, as the stack has been changed. -/
theorem applyLimits_modStk (s : State) (n : Nat) (f : Stack → Stack) : StackSet n (f (s.stk n)) s (applyLimits (s.modStk n f) n) := by
  obtain ⟨d, hd⟩ := applyLimits_eq (s.modStk n f) n
  have htunes : Tunes (s.modStk n f) (applyLimits (s.modStk n f) n) := by
    rw [hd]
    exact (limitColumns_tunes _ n).trans (Tunes.modStk _ _ _)
  have hstk : (applyLimits (s.modStk n f) n).stk n = { f (s.stk n) with dutyLow := d } := by
    rw [hd, stk_modStk_same, stk_limitColumns, stk_modStk_same]
  refine ⟨(Tunes.modStk s n f).trans htunes, ?_, fun m hm => ?_, fun c hc => ?_, fun c hc => ?_⟩
  · rw [hstk]
  · rw [hd, stk_modStk_other _ _ hm, stk_limitColumns, stk_modStk_other _ _ hm]
  · rw [hd, col_modStk, col_limitColumns, if_neg hc, col_modStk]
  · have hs : columnLimits (applyLimits (s.modStk n f) n) c = columnLimits (s.modStk n f) c := by
      subst hc
      refine columnLimits_congr htunes ?_ ?_ ?_ ?_ <;> rw [hstk, stk_modStk_same]
    rw [hs, hd, col_modStk, col_limitColumns, if_pos hc]
    rfl

/-- Steps that set one stack after another leave every stack at its own value, and each column at the limits that follow. -/
theorem foldl_stackSet (f : State → Nat → State) (v : Nat → Stack) (s : State)
    (h : ∀ u n, Tunes s u → u.stk n = s.stk n → StackSet n (v n) u (f u n)) (k : Nat) :
    let t := (List.range k).foldl f s
    Tunes s t ∧ (∀ n, n < k → t.stk n = { v n with dutyLow := (t.stk n).dutyLow }) ∧ (∀ n, k ≤ n → t.stk n = s.stk n) ∧
      ∀ c, c / 256 < k → ((t.col c).winLen, (t.col c).duty) = columnLimits t c := by
  induction k with
  | zero => exact ⟨Tunes.refl s, fun n hn => by omega, fun n _ => rfl, fun c hc => by omega⟩
  | succ k ih =>
    obtain ⟨htunes, hset, hrest, hlimits⟩ := ih
    have hk := h _ k htunes (hrest k (le_refl k))
    intro t
    have ht : t = f ((List.range k).foldl f s) k := by
      simp only [t, List.range_succ, List.foldl_append, List.foldl_cons, List.foldl_nil]
    rw [← ht] at hk
    refine ⟨htunes.trans hk.tunes, fun n hn => ?_, fun n hn => ?_, fun c hc => ?_⟩
    · by_cases he : n = k
      · subst he
        exact hk.stack
      · rw [hk.others n he]
        exact hset n (by omega)
    · rw [hk.others n (by omega)]
      exact hrest n (by omega)
    · by_cases he : c / 256 = k
      · exact hk.limits c he
      · have hs := hk.others _ he
        rw [hk.cols c he, hlimits c (by omega)]
        exact (columnLimits_congr hk.tunes (by rw [hs]) (by rw [hs]) (by rw [hs]) (by rw [hs])).symm

/-- Every stack stands at its own value, but for what its power block shows of the duty, and every column has the window and the duty that
then follow. -/
structure StacksSet (v : Nat → Stack) (s t : State) : Prop where
  tunes  : Tunes s t
  values : ∀ n, n < 16 → t.stk n = { v n with dutyLow := (t.stk n).dutyLow }
  limits : ∀ c, c < 4096 → ((t.col c).winLen, (t.col c).duty) = columnLimits t c

theorem stacksSet_foldl (f : State → Nat → State) (v : Nat → Stack) (s : State)
    (h : ∀ u n, Tunes s u → u.stk n = s.stk n → StackSet n (v n) u (f u n)) : StacksSet v s ((List.range 16).foldl f s) := by
  obtain ⟨htunes, hset, -, hlimits⟩ := foldl_stackSet f v s h 16
  exact ⟨htunes, hset, fun c hc => hlimits c (by omega)⟩

end Sys2Proof.Machine
end

section
/-! SUPPORT. The arbiter's shares of the pool and its round, windows and duty as they are now, and monitor readings (R357 to R361). -/

namespace Sys2Proof.Machine

/-! ## Shares of the pool (R357) -/

/-- What a stack gets in a round of sharing: the leakage where it is kept at it, else its part of the rest by demand. -/
def roundShare (rest sum : Nat) (e : Nat × Bool) : Nat := if e.2 then leakage else rest * e.1 / sum

/-- A round of sharing. -/
def roundShares (pool : Nat) (demands : List Nat) (floor : List Bool) : List Nat :=
  (demands.zip floor).map (roundShare (pool - leakage * (floor.filter id).length) (((demands.zip floor).filter (!·.2)).map (·.1)).sum)

/-- The stacks that a round of sharing shows to be kept at the leakage. -/
def roundFloor (share : List Nat) : List Bool := share.map (fun v => decide (v ≤ leakage))

theorem shares_succ (pool : Nat) (demands : List Nat) (n : Nat) (floor : List Bool) :
    shares pool demands (n + 1) floor =
      if roundFloor (roundShares pool demands floor) = floor ∨ (roundShares pool demands floor).all (fun v => decide (leakage ≤ v)) = true
      then roundShares pool demands floor
      else shares pool demands n (roundFloor (roundShares pool demands floor)) := rfl

theorem length_roundShares (pool : Nat) {demands : List Nat} {floor : List Bool} (h : floor.length = demands.length) :
    (roundShares pool demands floor).length = demands.length := by
  simp [roundShares, h]

theorem length_roundFloor (pool : Nat) {demands : List Nat} {floor : List Bool} (h : floor.length = demands.length) :
    (roundFloor (roundShares pool demands floor)).length = demands.length := by
  rw [roundFloor, List.length_map, length_roundShares pool h]

/-- A round that shows the floor it began with leaves no stack below its leakage: those of the floor are at it, the others above. -/
theorem leakage_le_roundShares {pool : Nat} {demands : List Nat} {floor : List Bool} (h : floor.length = demands.length)
    (hf : roundFloor (roundShares pool demands floor) = floor) : ∀ v ∈ roundShares pool demands floor, leakage ≤ v := by
  have hz : roundFloor (roundShares pool demands floor) = (demands.zip floor).map Prod.snd := by
    rw [hf, List.map_snd_zip (le_of_eq h)]
  unfold roundFloor roundShares at hz
  rw [List.map_map, List.map_inj_left] at hz
  intro v hv
  unfold roundShares at hv
  obtain ⟨⟨d, b⟩, he, rfl⟩ := List.mem_map.1 hv
  have hb := hz _ he
  cases b
  · exact Nat.le_of_lt (by simpa using hb)
  · exact le_refl _

/-- The parts by demand of a rest come to no more than the same part of the whole. -/
theorem sum_roundShare_le (rest sum : Nat) (l : List (Nat × Bool)) : (l.map (roundShare rest sum)).sum ≤
    leakage * (l.filter (·.2)).length + rest * ((l.filter (!·.2)).map (·.1)).sum / sum := by
  induction l with
  | nil => simp
  | cons e l ih =>
    obtain ⟨d, b⟩ := e
    cases b
    · have hd : rest * d / sum + rest * ((l.filter (!·.2)).map (·.1)).sum / sum ≤ _ := Nat.div_add_div_le_add_div
      simp [roundShare, Nat.mul_add] at ih hd ⊢
      omega
    · simp [roundShare, Nat.mul_add] at ih ⊢
      omega

theorem sum_roundShares_le {pool : Nat} {demands : List Nat} {floor : List Bool} (h : floor.length = demands.length)
    (hp : leakage * demands.length ≤ pool) : (roundShares pool demands floor).sum ≤ pool := by
  have hk : ((demands.zip floor).filter (·.2)).length = (floor.filter id).length := by
    conv_rhs => rw [← List.map_snd_zip (le_of_eq h), List.filter_map, List.length_map]
    rfl
  have hle : leakage * (floor.filter id).length ≤ leakage * demands.length :=
    Nat.mul_le_mul_left _ (h ▸ List.length_filter_le _ _)
  have hsum := sum_roundShare_le (pool - leakage * (floor.filter id).length) (((demands.zip floor).filter (!·.2)).map (·.1)).sum
    (demands.zip floor)
  rw [hk] at hsum
  have hrest (a b : Nat) : a * b / b ≤ a := Nat.div_le_of_le_mul (le_of_eq (Nat.mul_comm a b))
  have hparts := hrest (pool - leakage * (floor.filter id).length) (((demands.zip floor).filter (!·.2)).map (·.1)).sum
  unfold roundShares
  omega

theorem length_shares (pool : Nat) (demands : List Nat) (n : Nat) :
    ∀ floor : List Bool, floor.length = demands.length → (shares pool demands n floor).length = demands.length := by
  induction n with
  | zero => exact fun floor h => (List.length_map _).trans h
  | succ n ih =>
    intro floor h
    rw [shares_succ]
    split
    · exact length_roundShares pool h
    · exact ih _ (length_roundFloor pool h)

/-- The sharing gives each stack a share of at least its leakage, and together no more than a pool that holds so much. -/
theorem shares_bounds {pool : Nat} {demands : List Nat} (hp : leakage * demands.length ≤ pool) (n : Nat) :
    ∀ floor : List Bool, floor.length = demands.length →
      (shares pool demands n floor).sum ≤ pool ∧ ∀ v ∈ shares pool demands n floor, leakage ≤ v := by
  induction n with
  | zero =>
    intro floor h
    unfold shares
    refine ⟨?_, by simp⟩
    simp only [List.map_const', List.sum_replicate, smul_eq_mul, h]
    rwa [Nat.mul_comm]
  | succ n ih =>
    intro floor h
    rw [shares_succ]
    split
    · rename_i hc
      refine ⟨sum_roundShares_le h hp, ?_⟩
      rcases hc with hf | ha
      · exact leakage_le_roundShares h hf
      · simpa using ha
    · exact ih _ (length_roundFloor pool h)

/-- A stack's budget: its share within its own cap, and at least its leakage (R357, R360). -/
def capped (s : State) (e : Nat × Nat) : Nat :=
  if (s.stk e.2).cap * 1000 = 0 then e.1 else max leakage (min e.1 ((s.stk e.2).cap * 1000))

theorem leakage_le_capped (s : State) {e : Nat × Nat} (h : leakage ≤ e.1) : leakage ≤ capped s e := by
  unfold capped
  split <;> omega

theorem capped_le (s : State) {e : Nat × Nat} (h : leakage ≤ e.1) : capped s e ≤ e.1 := by
  unfold capped
  split <;> omega

theorem budgets_eq (s : State) (demands : List Nat) : budgets s demands =
    (shares ((s.modcap - 450) * 1000) demands 16 (demands.map (fun _ => false))).zipIdx.map (capped s) := rfl

theorem length_budgets (s : State) (demands : List Nat) : (budgets s demands).length = demands.length := by
  rw [budgets_eq, List.length_map, List.length_zipIdx, length_shares _ _ _ _ (List.length_map _)]

/-- The budgets of the stacks come to no more than the pool, and none is below the leakage. -/
theorem budgets_bounds (s : State) {demands : List Nat} (hl : demands.length = 16) (hc : 900 ≤ s.modcap) :
    (budgets s demands).sum ≤ (s.modcap - 450) * 1000 ∧ ∀ b ∈ budgets s demands, leakage ≤ b := by
  have hp : leakage * demands.length ≤ (s.modcap - 450) * 1000 := by
    rw [hl]
    unfold leakage
    omega
  rw [budgets_eq]
  obtain ⟨hsum, hleak⟩ := shares_bounds hp 16 (demands.map (fun _ => false)) (List.length_map _)
  generalize shares ((s.modcap - 450) * 1000) demands 16 (demands.map (fun _ => false)) = l at hsum hleak
  have hmem : ∀ e ∈ l.zipIdx, leakage ≤ e.1 := fun e he => hleak _ (List.fst_mem_of_mem_zipIdx he)
  refine ⟨?_, fun b hb => ?_⟩
  · calc (l.zipIdx.map (capped s)).sum ≤ (l.zipIdx.map Prod.fst).sum := List.sum_le_sum fun e he => capped_le s (hmem e he)
      _ = l.sum := by rw [List.zipIdx_map_fst]
      _ ≤ _ := hsum
  · obtain ⟨e, he, rfl⟩ := List.mem_map.1 hb
    exact leakage_le_capped s (hmem e he)

end Sys2Proof.Machine

namespace Sys2Proof.Machine

/-! ## The arbiter's round (R357 to R360) -/

/-- A stack with a budget, the window and the duty that keep its demand within it, and what they take, the reserves met first. -/
def Stack.budgeted (k : Stack) (held : Nat) (d : Demand) (budget : Nat) : Stack :=
  { k with
    budget := budget
    pest := held + d.power (d.limits (budget - held) k.maxWin).1 (d.limits (budget - held) k.maxWin).2
    askWin := (d.limits (budget - held) k.maxWin).1
    askDuty := (d.limits (budget - held) k.maxWin).2 }

theorem giveBudget_stackSet (s : State) (n : Nat) (d : Demand) (b : Nat) :
    StackSet n ((s.stk n).budgeted (leakage + reserves s n) d b) s (giveBudget s n d b) :=
  applyLimits_modStk s n (fun _ => (s.stk n).budgeted (leakage + reserves s n) d b)

/-- The round in the order of the stacks. -/
def budgetRound (s : State) (ds : Nat → Demand) (all : List Nat) : State :=
  (List.range 16).foldl (fun s n => giveBudget s n (ds n) (all.getD n 0)) { s with free := s.free + 32 }

/-- The budgets of a round, from what the arbiter estimates. -/
def roundBudgets (s : State) : List Nat :=
  budgets s (((List.range 16).map (estimate s)).zipIdx.map (fun e => demandOf s e.2 e.1))

theorem length_roundBudgets (s : State) : (roundBudgets s).length = 16 := by
  unfold roundBudgets
  rw [length_budgets, List.length_map, List.length_zipIdx, List.length_map, List.length_range]

/-- The estimates, the budgets and the numbers of the stacks, in a row. -/
theorem zip_estimates (ds : Nat → Demand) {all : List Nat} (h : all.length = 16) :
    (((List.range 16).map ds).zip all).zipIdx = (List.range 16).map (fun n => ((ds n, all.getD n 0), n)) := by
  refine List.ext_getElem (by simp [h]) fun i h₁ h₂ => ?_
  have hi : i < all.length := by
    rw [List.length_map, List.length_range] at h₂
    omega
  simp [hi]

/-- The partitions' energy totals go on (R360). -/
def chargeEnergy (s : State) : State :=
  { s with
    free := s.free + s.partitions.length
    partitions := s.partitions.zipIdx.map (fun e =>
      (e.1.1, { e.1.2 with energy := e.1.2.energy + energyOf s e.1.1 (Config.pick (s.free + e.2)) })) }

theorem chargeEnergy_tunes (s : State) : Tunes s (chargeEnergy s) := ⟨_, _, _, _, rfl⟩

/-- A round of the arbiter. -/
theorem execBudgetRecompute_round (s : State) :
    execBudgetRecompute s = .next (chargeEnergy (budgetRound s (estimate s) (roundBudgets s))) := by
  have hround : execBudgetRecompute s = .next (chargeEnergy ((((List.range 16).map (estimate s)).zip (roundBudgets s)).zipIdx.foldl
      (fun s e => giveBudget s e.2 e.1.1 e.1.2) { s with free := s.free + 32 })) := rfl
  rw [hround, zip_estimates _ (length_roundBudgets s), List.foldl_map]
  rfl

/-- After a round every stack has its budget, with window and duty from its own demand, and every column the limits that follow. -/
theorem budgetRound_stacksSet (s : State) (ds : Nat → Demand) (all : List Nat) :
    StacksSet (fun n => (s.stk n).budgeted (leakage + reserves s n) (ds n) (all.getD n 0)) s (budgetRound s ds all) := by
  have hfree : Tunes s { s with free := s.free + 32 } := ⟨_, _, _, _, rfl⟩
  have hset := stacksSet_foldl (fun s n => giveBudget s n (ds n) (all.getD n 0))
    (fun n => (s.stk n).budgeted (leakage + reserves s n) (ds n) (all.getD n 0)) { s with free := s.free + 32 }
    (fun u n hu hn => by
      have hs : u.stk n = s.stk n := hn
      rw [← hs, ← reserves_tunes (hfree.trans hu) hs]
      exact giveBudget_stackSet u n (ds n) (all.getD n 0))
  exact ⟨hfree.trans hset.tunes, hset.values, hset.limits⟩

theorem StacksSet.charged {v : Nat → Stack} {s t : State} (h : StacksSet v s t) : StacksSet v s (chargeEnergy t) :=
  ⟨h.tunes.trans (chargeEnergy_tunes t), h.values,
    fun c hc => (h.limits c hc).trans (columnLimits_congr (chargeEnergy_tunes t) rfl rfl rfl rfl).symm⟩

/-! ## Windows now (R358, R359, R361) -/

theorem le_foldl_max (l : List Nat) (a b : Nat) (h : a ∈ l ∨ a ≤ b) : a ≤ l.foldl max b := by
  induction l generalizing b with
  | nil => simpa using h
  | cons x l ih =>
    refine ih _ ?_
    rcases h with h | h
    · rcases List.mem_cons.1 h with rfl | h
      · exact .inr (le_max_right _ _)
      · exact .inl h
    · exact .inr (h.trans (le_max_left _ _))

theorem winNow_le_resWin {s : State} {c : Nat} (h : classZero s c = true) : s.winNow c ≤ (s.stk (c / 256)).resWin := by
  unfold State.winNow
  rw [if_pos h]
  exact min_le_right _ _

theorem winNow_le_maxWin {s : State} {c : Nat} (h : classZero s c = false) : s.winNow c ≤ (s.stk (c / 256)).maxWin := by
  unfold State.winNow
  rw [if_neg (by simp [h])]
  split
  · exact le_refl _
  · exact min_le_right _ _

/-- WIN of a stack is no shorter than the window of any of its columns without a class-0 hart (R360). -/
theorem winNow_le_winShown {s : State} {c : Nat} (h : classZero s c = false) : s.winNow c ≤ s.winShown (c / 256) := by
  unfold State.winShown
  refine le_foldl_max _ _ _ (.inl (List.mem_map_of_mem ?_))
  rw [List.mem_filter, mem_stackSpan, h]
  exact ⟨rfl, rfl⟩

/-- The columns of a hot stack stand at the longest window, and at a quarter of the duty. -/
theorem winNow_thermal {s : State} {c : Nat} (h : classZero s c = false) (ht : (s.stk (c / 256)).thermal = true) :
    s.winNow c = (s.stk (c / 256)).maxWin ∧ (columnLimits s c).2 ≤ 4 := by
  unfold State.winNow columnLimits
  simp only [h, ht]
  simp

theorem columnLimits_lowRow {s : State} {c : Nat} (h : c % 256 / 16 ∈ (s.stk (c / 256)).lowRows) : (columnLimits s c).2 ≤ 8 := by
  have hc : (s.stk (c / 256)).lowRows.contains (c % 256 / 16) = true := by simpa using h
  unfold columnLimits
  simp only [hc]
  simp

/-! ## Monitor readings (R361) -/

/-- The grid rows that some reports name in a stack. -/
def rowsOf (l : List (Nat × Nat)) (n : Nat) : List Nat := (l.filter (·.1 == n)).map (·.2)

theorem mem_rowsOf {l : List (Nat × Nat)} {n r : Nat} : r ∈ rowsOf l n ↔ (n, r) ∈ l := by
  simp [rowsOf]

/-- A stack with the readings of its layers and the grid rows that now read low. -/
def Stack.monitored (k : Stack) (temps : Option (List Nat)) (low ok : List Nat) : Stack :=
  let k := match temps with
    | some l => readLayers k l
    | none => k
  { k with lowRows := (distinct (k.lowRows ++ low)).filter (fun r => !ok.contains r) }

@[simp] theorem readLayers_lowRows (k : Stack) (l : List Nat) : (readLayers k l).lowRows = k.lowRows := rfl

theorem mem_monitored_lowRows (k : Stack) (temps : Option (List Nat)) (low ok : List Nat) (r : Nat) :
    r ∈ (k.monitored temps low ok).lowRows ↔ (r ∈ k.lowRows ∨ r ∈ low) ∧ r ∉ ok := by
  unfold Stack.monitored
  cases temps <;> simp [mem_distinct]

/-- Stack n is read, and its columns get the limits that follow. -/
def readStack (temps : List (List Nat)) (lowRows okRows : List (Nat × Nat)) (s : State) (n : Nat) : State :=
  applyLimits (s.modStk n (·.monitored temps[n]? (rowsOf lowRows n) (rowsOf okRows n))) n

theorem monitored_some (k : Stack) (l low ok : List Nat) :
    (k.monitored (some l) low ok).temps = l ∧ (k.monitored (some l) low ok).tmax = l.foldl max 0 % 256 ∧
      ((k.monitored (some l) low ok).hot = true ↔ ∃ x ∈ l.take 8, 85 < x) ∧
      ((k.monitored (some l) low ok).thermal = true ↔ 95 ≤ l.foldl max 0 ∨ k.thermal = true ∧ 90 ≤ l.foldl max 0) := by
  refine ⟨rfl, rfl, ?_, ?_⟩
  · show (l.take 8).any (fun t => decide (85 < t)) = true ↔ _
    rw [List.any_eq_true]
    simp only [decide_eq_true_eq]
  · show (decide (95 ≤ l.foldl max 0) || (k.thermal && decide (90 ≤ l.foldl max 0))) = true ↔ _
    simp only [Bool.or_eq_true, Bool.and_eq_true, decide_eq_true_eq]

/-- Power is lost at 105 degrees. -/
theorem execMonitorReading_hot {temps : List (List Nat)} (h : ∃ l ∈ temps, ∃ x ∈ l, 105 ≤ x) (lowRows okRows : List (Nat × Nat))
    {s : State} (hp : s.powered = true) : execMonitorReading temps lowRows okRows s = .next (powerLost s) := by
  have hc : temps.any (·.any (fun t => decide (105 ≤ t))) = true := by simpa using h
  unfold execMonitorReading
  rw [if_pos hc, if_pos hp]

/-- After a reading every stack shows it, and every column has the limits that follow. -/
theorem readStacks_stacksSet (temps : List (List Nat)) (lowRows okRows : List (Nat × Nat)) (s : State) :
    StacksSet (fun n => (s.stk n).monitored temps[n]? (rowsOf lowRows n) (rowsOf okRows n)) s
      ((List.range 16).foldl (readStack temps lowRows okRows) s) :=
  stacksSet_foldl (readStack temps lowRows okRows) _ s fun u n _ hn => by
    rw [← hn]
    exact applyLimits_modStk u n (·.monitored temps[n]? (rowsOf lowRows n) (rowsOf okRows n))

/-- A reading of layers that are all below 105 degrees reads each stack. -/
theorem execMonitorReading_stacks {temps : List (List Nat)} (h : ∀ l ∈ temps, ∀ x ∈ l, x < 105) (lowRows okRows : List (Nat × Nat))
    (s : State) :
    execMonitorReading temps lowRows okRows s = .next ((List.range 16).foldl (readStack temps lowRows okRows) s) := by
  have hc : ¬temps.any (·.any (fun t => decide (105 ≤ t))) = true := by simpa using h
  unfold execMonitorReading
  rw [if_neg hc]
  rfl

end Sys2Proof.Machine
end

section
/-! SUPPORT. Bring-up, stage by stage, and what it leaves of sound hardware (R10, R344, R362, R363). -/

namespace Sys2Proof.Machine

/-! ## Bring-up, stage by stage (R344, R362, R363) -/

/-- A stage whose image fails stops bring-up. -/
theorem bringUp_badImage {s : State} {n : Nat} (h : imageOk s n = false) (l : List Nat) : bringUp (n :: l) s = { s with stage := n } := by
  unfold bringUp
  exact if_pos (by simp [h])

/-- A stage that a defect of the hardware fails stops bring-up, and no column is changed. -/
theorem bringUp_defect {s : State} {n : Nat} (h : imageOk s n = true) (hd : Defect.stage n ∈ s.defects) (l : List Nat) :
    (bringUp (n :: l) s).stage = n ∧ (bringUp (n :: l) s).columns = s.columns := by
  have hc : s.defects.contains (.stage n) = true := by simpa using hd
  unfold bringUp
  rw [if_neg (by simp [h]), if_pos hc]
  refine ⟨rfl, ?_⟩
  show (if n ≤ 3 then measure s n else s).columns = s.columns
  split
  · unfold measure
    split <;> rfl
  · rfl

/-- A stage that does not fail has its effect. -/
theorem bringUp_stage {s : State} {n : Nat} (h : imageOk s n = true) (hd : Defect.stage n ∉ s.defects) (l : List Nat) :
    bringUp (n :: l) s = bringUp l (doStage s n) := by
  have hc : ¬s.defects.contains (.stage n) = true := by simpa using hd
  rw [bringUp, if_neg (by simp [h]), if_neg hc]

/-- A module under bring-up with sound hardware, the images of its boot flash given: powered, memory zero, nothing placed. -/
structure SoundModule (images : List Image) (s : State) : Prop where
  powered : s.powered = true
  mem     : s.mem = State.reset.mem
  tasks   : s.tasks = []
  harts   : s.harts = []
  images  : s.images = images
  defects : s.defects = []
  faults  : s.faults = []

theorem SoundModule.tunes {images : List Image} {s t : State} (h : SoundModule images s) (g : Tunes s t) : SoundModule images t := by
  obtain ⟨h1, h2, h3, h4, h5, h6, h7⟩ := h
  obtain ⟨_, _, _, _, rfl⟩ := g
  exact ⟨h1, h2, h3, h4, h5, h6, h7⟩

theorem Tunes.measured {s t : State} (h : Tunes s t) : t.measured = s.measured := by
  obtain ⟨_, _, _, _, rfl⟩ := h
  rfl

/-- Where no hart is placed, a column that fails ends no task. -/
theorem failColumn_tunes {s : State} (h : s.harts = []) (c : Nat) : Tunes s (failColumn s c) := by
  have hf : failColumn s c = s.modCol c (fun k => { k with failed := true }) := by
    unfold failColumn
    dsimp only
    rw [show (s.modCol c fun k => { k with failed := true }).harts = [] from h]
    rfl
  rw [hf]
  exact Tunes.modCol _ _ _

theorem loadTable_tunes {s : State} (h : s.harts = []) (c : Nat) : Tunes s (loadTable s c) := by
  unfold loadTable
  dsimp only
  split
  · exact (Tunes.modCol s c _).trans (failColumn_tunes (s := s.modCol c recordCopies) h c)
  · exact (Tunes.modCol s c _).trans (Tunes.modCol _ c _)

/-- Tables that are loaded one after another. -/
theorem loadTables_tunes (l : List Nat) : ∀ {s : State}, s.harts = [] → Tunes s (l.foldl loadTable s) := by
  induction l with
  | nil => exact fun {s} _ => Tunes.refl s
  | cons c l ih =>
    intro s h
    have hc := loadTable_tunes h c
    obtain ⟨-, hharts, -⟩ := hc.frame
    exact hc.trans (ih (hharts.trans h))

section
variable {images : List Image} {s : State}

theorem readRings_tunes (s : State) : Tunes s (readRings s) := by
  unfold readRings
  generalize List.range 16 = l
  exact (Tunes.foldl _ (fun u n => Tunes.modStk u n _) l s).trans ⟨_, _, _, _, rfl⟩

/-- With no defect the memory trains. -/
theorem trainMemory_of_sound (h : SoundModule images s) : trainMemory s = s := by
  unfold trainMemory
  rw [h.defects]
  rfl

/-- The three copies of the columns' tables, as they are written from the boot flash. -/
def writeCopies (s : State) : State :=
  s.flashRemap.foldl (fun s e => s.modCol (e.1 / 768) (fun k => { k with
    remap := (List.range 3).foldl (fun m i => put m (i * 768 + e.1 % 768) (some e.2)) k.remap })) s

theorem writeCopies_tunes (s : State) : Tunes s (writeCopies s) := Tunes.foldl _ (fun s _ => Tunes.modCol s _ _) _ s

/-- With no defect the tables are loaded as they are written. -/
theorem loadRemap_of_sound (h : SoundModule images s) : loadRemap s = ((writeCopies s).columns.map (·.1)).foldl loadTable (writeCopies s) := by
  have hd : (writeCopies s).defects = [] := (h.tunes (writeCopies_tunes s)).defects
  unfold loadRemap
  change ((List.foldl _ (writeCopies s) (writeCopies s).defects).columns.map (·.1)).foldl loadTable
    (List.foldl _ (writeCopies s) (writeCopies s).defects) = _
  rw [hd]
  rfl

theorem testLanes_of_sound (h : SoundModule images s) : testLanes s = s := by
  unfold testLanes
  rw [h.defects]
  rfl

theorem meetFaults_of_sound (h : SoundModule images s) : meetFaults s = s := by
  have hf := h.faults
  cases s
  dsimp only at hf
  subst hf
  rfl

/-- The stages from the training of memory to the test of its cells keep a sound module sound, and measure nothing. -/
theorem SoundModule.stage_tunes (h : SoundModule images s) {n : Nat} (hlo : 4 ≤ n) (hhi : n ≤ 7) : Tunes s (doStage s n) := by
  have hring := readRings_tunes s
  obtain rfl | rfl | rfl | rfl : n = 4 ∨ n = 5 ∨ n = 6 ∨ n = 7 := by omega
  · show Tunes s (trainMemory (readRings s))
    rw [trainMemory_of_sound (h.tunes hring)]
    exact hring
  · show Tunes s (loadRemap s)
    rw [loadRemap_of_sound h]
    exact (writeCopies_tunes s).trans (loadTables_tunes _ (h.tunes (writeCopies_tunes s)).harts)
  · show Tunes s (testLanes s)
    rw [testLanes_of_sound h]
    exact Tunes.refl s
  · show Tunes s (meetFaults s)
    rw [meetFaults_of_sound h]
    exact Tunes.refl s

/-- The first three stages measure their image, and do nothing else (R344). -/
theorem measure_image {n : Nat} {i : Image} (hi : s.images[n]? = some i) :
    measure s (n + 1) = { s with measured := s.measured.setIfInBounds n (extend (s.measured.getD n []) i) } := by
  unfold measure
  rw [Nat.add_sub_cancel, hi]

theorem measure_sound (h : SoundModule images s) (n : Nat) : SoundModule images (measure s n) := by
  obtain ⟨h1, h2, h3, h4, h5, h6, h7⟩ := h
  unfold measure
  split
  · exact ⟨h1, h2, h3, h4, h5, h6, h7⟩
  · exact ⟨h1, h2, h3, h4, h5, h6, h7⟩

/-- Whether an image is good depends on the boot flash alone. -/
theorem imageOk_of_sound {t : State} (h : SoundModule images s) (ht : t.images = images) (n : Nat) : imageOk s n = imageOk t n := by
  unfold imageOk
  rw [h.images, ht]

/-- A sound module whose first k images are measured, each in its own register. -/
structure MeasuredTo (images : List Image) (k : Nat) (s : State) : Prop where
  sound : SoundModule images s
  done  : ∀ n i, n < k → images[n]? = some i → s.measured.toList.getD n [] = extend (List.replicate 64 0) i
  clear : ∀ n, k ≤ n → n < 8 → s.measured.toList.getD n [] = List.replicate 64 0

theorem MeasuredTo.tunes {k : Nat} {t : State} (h : MeasuredTo images k s) (g : Tunes s t) : MeasuredTo images k t :=
  ⟨h.sound.tunes g, g.measured ▸ h.done, g.measured ▸ h.clear⟩

/-- A measurement register after one of them is written. -/
theorem measured_setIfInBounds (v : Vector (List Byte) 8) {k : Nat} (hk : k < 8) (x : List Byte) (n : Nat) :
    (v.setIfInBounds k x).toList.getD n [] = if n = k then x else v.toList.getD n [] := by
  rw [Vector.toList_setIfInBounds, List.getD_eq_getElem?_getD, List.getD_eq_getElem?_getD, List.getElem?_set]
  by_cases h : n = k
  · simp [h, hk]
  · simp [h, Ne.symm h]

theorem doStage_measuredTo {k : Nat} (h : MeasuredTo images k s) (hk : k < 3) : MeasuredTo images (k + 1) (doStage s (k + 1)) := by
  have hs : doStage s (k + 1) = measure s (k + 1) := by
    obtain rfl | rfl | rfl : k = 0 ∨ k = 1 ∨ k = 2 := by omega
    all_goals rfl
  have hsound : SoundModule images (doStage s (k + 1)) := hs ▸ measure_sound h.sound (k + 1)
  cases hi : s.images[k]? with
  | none =>
    have hm : doStage s (k + 1) = s := by
      rw [hs, measure, Nat.add_sub_cancel, hi]
    rw [hm]
    refine ⟨h.sound, fun n i hn hn' => ?_, fun n hn => h.clear n (by omega)⟩
    have hne : n ≠ k := by
      rintro rfl
      rw [h.sound.images, hn'] at hi
      cases hi
    exact h.done n i (by omega) hn'
  | some i =>
    have hm : (doStage s (k + 1)).measured = s.measured.setIfInBounds k (extend (List.replicate 64 0) i) := by
      have hk0 : s.measured.getD k [] = List.replicate 64 0 := by
        rw [← h.clear k (le_refl k) (by omega)]
        simp [Vector.getD, List.getD_eq_getElem?_getD]
      rw [hs, measure_image hi, hk0]
    refine ⟨hsound, fun n j hn hj => ?_, fun n hn h8 => ?_⟩
    · rw [hm, measured_setIfInBounds _ (by omega)]
      split
      · subst_vars
        rw [h.sound.images, hj] at hi
        cases hi
        rfl
      · exact h.done n j (by omega) hj
    · rw [hm, measured_setIfInBounds _ (by omega), if_neg (by omega)]
      exact h.clear n (by omega) h8

/-- A sound module passes a stage whose image is good. -/
theorem bringUp_of_sound (h : SoundModule images s) {n : Nat} (hi : imageOk s n = true) (l : List Nat) :
    bringUp (n :: l) s = bringUp l (doStage s n) :=
  bringUp_stage hi (by rw [h.defects]; exact List.not_mem_nil) l

/-- What bring-up leaves of a sound module whose first k images it has measured: the pins stand at the next stage, or at 15 with the
module's identity. -/
structure EndsAt (images : List Image) (k : Nat) (t : State) : Prop where
  measured : MeasuredTo images k t
  few      : k ≤ 3
  pins     : t.stage = if k < 3 then k + 1 else 15
  identity : k = 3 → t.identity = deviceIdentity ∧ t.moduleNum = Config.moduleNumber % 18

theorem bringUp_stops {k : Nat} (h : MeasuredTo images k s) (hk : k < 3) (hi : imageOk s (k + 1) = false) (l : List Nat) :
    EndsAt images k (bringUp ((k + 1) :: l) s) := by
  obtain ⟨⟨h1, h2, h3, h4, h5, h6, h7⟩, hdone, hclear⟩ := h
  rw [bringUp_badImage hi]
  exact ⟨⟨⟨h1, h2, h3, h4, h5, h6, h7⟩, hdone, hclear⟩, Nat.le_of_lt hk, by rw [if_pos hk], fun h3 => by omega⟩

/-- From the fourth stage on nothing stops a sound module. -/
theorem bringUp_completes (h : MeasuredTo images 3 s) : EndsAt images 3 (bringUp [4, 5, 6, 7, 8] s) := by
  have hi (t : State) {n : Nat} (hn : 3 < n) : imageOk t n = true := by
    unfold imageOk
    rw [decide_eq_true hn, Bool.true_or]
  have h4 := h.tunes (h.sound.stage_tunes (n := 4) (by omega) (by omega))
  have h5 := h4.tunes (h4.sound.stage_tunes (n := 5) (by omega) (by omega))
  have h6 := h5.tunes (h5.sound.stage_tunes (n := 6) (by omega) (by omega))
  have h7 := h6.tunes (h6.sound.stage_tunes (n := 7) (by omega) (by omega))
  rw [bringUp_of_sound h.sound (hi _ (by omega)), bringUp_of_sound h4.sound (hi _ (by omega)), bringUp_of_sound h5.sound (hi _ (by omega)),
    bringUp_of_sound h6.sound (hi _ (by omega)), bringUp_of_sound h7.sound (hi _ (by omega))]
  generalize doStage (doStage (doStage (doStage s 4) 5) 6) 7 = u at h7
  obtain ⟨⟨p1, p2, p3, p4, p5, p6, p7⟩, hdone, hclear⟩ := h7
  exact ⟨⟨⟨p1, p2, p3, p4, p5, by show List.filter _ u.defects = []; rw [p6]; rfl, p7⟩, hdone, hclear⟩, le_refl 3, rfl,
    fun _ => ⟨rfl, rfl⟩⟩

/-- Bring-up of sound hardware ends at the first image that fails, or completes. -/
theorem bringUp_of_measuredTo (h : MeasuredTo images 0 s) : ∃ k, EndsAt images k (bringUp (span 1 8) s) ∧
    [1, 2, 3].find? (fun n => !imageOk s n) = if k < 3 then some (k + 1) else none := by
  have hs : span 1 8 = [1, 2, 3, 4, 5, 6, 7, 8] := rfl
  rw [hs]
  cases hi1 : imageOk s 1 with
  | false => exact ⟨0, bringUp_stops h (by omega) hi1 _, by simp [List.find?, hi1]⟩
  | true =>
    have h1 := doStage_measuredTo h (by omega)
    rw [bringUp_of_sound h.sound hi1]
    cases hi2 : imageOk s 2 with
    | false => exact ⟨1, bringUp_stops h1 (by omega) ((imageOk_of_sound h1.sound h.sound.images 2).trans hi2) _, by simp [List.find?, hi1, hi2]⟩
    | true =>
      have h2 := doStage_measuredTo h1 (by omega)
      rw [bringUp_of_sound h1.sound ((imageOk_of_sound h1.sound h.sound.images 2).trans hi2)]
      cases hi3 : imageOk s 3 with
      | false => exact ⟨2, bringUp_stops h2 (by omega) ((imageOk_of_sound h2.sound h.sound.images 3).trans hi3) _, by simp [List.find?, hi1, hi2, hi3]⟩
      | true =>
        have h3 := doStage_measuredTo h2 (by omega)
        rw [bringUp_of_sound h2.sound ((imageOk_of_sound h2.sound h.sound.images 3).trans hi3)]
        exact ⟨3, bringUp_completes h3, by simp [List.find?, hi1, hi2, hi3]⟩

end

/-- A module without power, with no defect and no cell or cluster that fails for good, is sound when power comes. -/
theorem measuredTo_powerLost {s : State} (hd : s.defects = []) (hf : s.faults = []) (hc : ∀ e ∈ s.columns, e.2.clusters = []) :
    MeasuredTo s.images 0 { powerLost s with powered := true } := by
  have hclusters : s.columns.flatMap (fun e => e.2.clusters.map (Defect.cluster e.1)) = [] := by
    rw [List.flatMap_eq_nil_iff]
    intro e he
    rw [hc e he]
    rfl
  refine ⟨⟨rfl, rfl, rfl, rfl, rfl, ?_, hf⟩, fun n i hn => by omega, fun n _ h8 => ?_⟩
  · show s.defects ++ s.columns.flatMap (fun e => e.2.clusters.map (Defect.cluster e.1)) = []
    rw [hd, hclusters]
    rfl
  · show (Vector.replicate 8 (List.replicate 64 (0 : Byte))).toList.getD n [] = _
    generalize List.replicate 64 (0 : Byte) = zeros
    rw [Vector.toList_replicate, List.getD_eq_getElem?_getD, List.getElem?_replicate, if_pos h8]
    rfl

theorem execPowerOn_bringUp {s : State} (h : s.powered = false) :
    execPowerOn s = .next (bringUp (span 1 8) { powerLost s with powered := true }) := by
  unfold execPowerOn
  exact if_neg (by simp [h])

/-- Power-on of sound hardware: bring-up ends at the first image that fails, else with the module's identity, and what it has passed it has
measured (R344, R362). -/
theorem bringUp_of_noDefects {s : State} (hd : s.defects = []) (hf : s.faults = []) (hc : ∀ e ∈ s.columns, e.2.clusters = []) :
    let bad := [1, 2, 3].find? (fun n => !imageOk s n)
    let t := bringUp (span 1 8) { powerLost s with powered := true }
    t.powered = true ∧ t.stage = bad.getD 15 ∧ t.mem = State.reset.mem ∧ t.tasks = [] ∧ t.harts = [] ∧
      (bad = none → t.identity = deviceIdentity ∧ t.moduleNum = Config.moduleNumber % 18) ∧
      (∀ n i, n < 3 → (∀ m, bad = some m → n + 1 < m) → s.images[n]? = some i →
        t.measured.toList.getD n [] = extend (List.replicate 64 0) i) ∧
      ∀ n, 3 ≤ n → n < 8 → t.measured.toList.getD n [] = List.replicate 64 0 := by
  obtain ⟨k, ⟨⟨hsound, hdone, hclear⟩, hfew, hpins, hidentity⟩, hbad⟩ := bringUp_of_measuredTo (measuredTo_powerLost hd hf hc)
  intro bad t
  have hbad' : bad = if k < 3 then some (k + 1) else none := hbad
  refine ⟨hsound.powered, ?_, hsound.mem, hsound.tasks, hsound.harts, fun hnone => hidentity ?_,
    fun n i hn hlate hi => hdone n i ?_ hi, fun n h3 => hclear n (by omega)⟩
  · rw [hbad']
    refine hpins.trans ?_
    split <;> rfl
  · rw [hbad'] at hnone
    by_contra hk
    rw [if_pos (by omega)] at hnone
    cases hnone
  · by_cases hk : k < 3
    · have hfirst := hlate (k + 1) (by rw [hbad', if_pos hk])
      omega
    · omega

end Sys2Proof.Machine
end

section
/-! SUPPORT. Lane retirement, the array ratio and the failure of a scale-up port (R27, R308, R309, R317, R343). -/

namespace Sys2Proof.Machine

/-! ## Lane retirement and remapping (R308 to R310) -/

section
variable {s : State} {c cluster : Nat}

/-- A cluster of a column can be retired: the column has not failed, and its Resident harts can halt. -/
theorem laneRetirement_occurs (hc : c < 4096) (hk : cluster < 8) (hf : (s.col c).failed = false) (hq : columnQuiet s c = true) :
    ¬(4096 ≤ c ∨ 8 ≤ cluster ∨ (s.col c).failed = true ∨ (!columnQuiet s c) = true) := by
  simp [hf, hq]
  omega

/-- The cluster is entered among those of the column that are retired, and in the steward's log. -/
def retireCluster (s : State) (c cluster : Nat) : State :=
  (s.note (.cluster c cluster)).modCol c (fun k => { k with clusters := k.clusters ++ [cluster] })

/-- A hart of a column that has become half-capable, where it stood on lanes that are lost (R309). -/
def shrinkWhere (half : Nat) (hit : Hart → Bool) (s : State) (e : Nat × Hart) : State :=
  match s.hart? e.1 with
  | some h => if (h.inPlace || h.status == .saved) && hit h then (shrinkHart s e.1 h half).getD (machineCheck s h.task) else s
  | none => s

/-- A column with its usable half, as its harts on the other half have halted. -/
def halveColumn (s : State) (c half : Nat) : State :=
  haltColumn (s.modCol c (fun k => { k with half := some half })) c (fun h => h.holds c (4 * (1 - half)) 4)

section
variable (h : ¬(4096 ≤ c ∨ 8 ≤ cluster ∨ (s.col c).failed = true ∨ (!columnQuiet s c) = true))
include h

/-- The first retired cluster of a column is replaced by the spare (R308). -/
theorem execLaneRetirement_first (hl : (s.col c).clusters = []) :
    execLaneRetirement c cluster s = .next (haltColumn (retireCluster s c cluster) c (fun _ => true)) := by
  unfold execLaneRetirement
  dsimp only
  rw [if_neg h]
  simp only [hl]
  rfl

/-- The second leaves half a column. -/
theorem execLaneRetirement_second {a : Nat} (hl : (s.col c).clusters = [a]) :
    execLaneRetirement c cluster s = .next ((halveColumn (retireCluster s c cluster) c (usableHalf a cluster)).harts.foldl
      (shrinkWhere (usableHalf a cluster) (fun h => h.holds c (4 * (1 - usableHalf a cluster)) 4))
      (halveColumn (retireCluster s c cluster) c (usableHalf a cluster))) := by
  unfold execLaneRetirement
  dsimp only
  rw [if_neg h]
  simp only [hl]
  rfl

/-- The third, and any later one, fails it. -/
theorem execLaneRetirement_third (hl : 2 ≤ (s.col c).clusters.length) :
    execLaneRetirement c cluster s = .next (failColumn (retireCluster s c cluster) c) := by
  unfold execLaneRetirement
  dsimp only
  rw [if_neg h]
  match hk : (s.col c).clusters, hl with
  | _ :: _ :: _, _ => rfl

end

end

/-! ## The array ratio (R27, R317) -/

/-- A stack changes its array ratio where none of its columns is refreshing. -/
theorem execArrayRatioChange_stall {s : State} {stack : Nat} (h : stack < 16)
    (hr : ∀ e ∈ s.columns, e.1 / 256 = stack → refreshing e.2 = false) (ratio : ArrayRatio) :
    execArrayRatioChange stack ratio s = .next ((passStack { s with free := s.free + 1 } stack
      (Config.stallCycles s.free % 801)).modStk stack (fun k => { k with ratio := ratio })) := by
  have hnone : s.columns.any (fun e => e.1 / 256 == stack && refreshing e.2) = false := by
    rw [List.any_eq_false]
    intro e he
    by_cases hs : e.1 / 256 = stack
    · simp [hr e he hs]
    · simp [hs]
  unfold execArrayRatioChange
  exact if_neg (by rw [hnone]; simp; omega)

/-! ## Scale-up ports (R343) -/

/-- A set bit that is cleared: the bits below it and those above it stay. -/
theorem testBit_sub_two_pow {s i : Nat} (h : s.testBit i = true) (j : Nat) : (s - 2 ^ i).testBit j = (s.testBit j && j != i) := by
  have hlt : s % 2 ^ i < 2 ^ i := Nat.mod_lt _ (Nat.two_pow_pos i)
  obtain ⟨m, hm⟩ : ∃ m, s / 2 ^ i = 2 * m + 1 := by
    rw [Nat.testBit_eq_decide_div_mod_eq, decide_eq_true_eq] at h
    exact ⟨s / 2 ^ i / 2, by omega⟩
  have hs : s = 2 ^ i * (2 * m + 1) + s % 2 ^ i := by
    rw [← hm]
    exact (Nat.div_add_mod s _).symm
  have hcleared : s - 2 ^ i = 2 ^ i * (2 * m) + s % 2 ^ i := by
    rw [Nat.mul_add] at hs
    omega
  rw [hcleared]
  conv_rhs => rw [hs]
  rw [Nat.testBit_two_pow_mul_add _ hlt, Nat.testBit_two_pow_mul_add _ hlt]
  split
  · rw [bne_iff_ne.2 (by omega), Bool.and_true]
  · by_cases hj : j = i
    · simp [hj]
    · obtain ⟨d, hd⟩ : ∃ d, j - i = d + 1 := ⟨j - i - 1, by omega⟩
      have hhalf : 2 * m / 2 = (2 * m + 1) / 2 := by omega
      rw [hd, Nat.testBit_succ, Nat.testBit_succ, hhalf, bne_iff_ne.2 hj, Bool.and_true]

theorem hasBit_putBit_false (s i j : Nat) : hasBit (putBit s i false) j = (hasBit s j && j != i) := by
  unfold putBit hasBit
  rw [if_neg Bool.false_ne_true]
  split
  · exact testBit_sub_two_pow ‹_› j
  · by_cases hj : j = i
    · simp_all
    · simp [hj]

/-- The ports in the order in which the hash of a line prefers them. -/
def portOrder (pa : Nat) : List Nat :=
  (List.range 16).map (fun n =>
    (Config.portHash (pa % 2 ^ 40 / 128) + n * (2 * (Config.portHash (pa % 2 ^ 40 / 128) / 16) + 1)) % 16)

theorem scaleupPort_eq (s : State) (pa : Nat) : scaleupPort s pa = ((portOrder pa).find? (hasBit s.ports)).getD 0 := rfl

/-- The failure of another port does not move the line of a port that is left. -/
theorem scaleupPort_putBit {s : State} {port pa : Nat} (hne : scaleupPort s pa ≠ port) :
    scaleupPort { s with ports := putBit s.ports port false } pa = scaleupPort s pa := by
  rw [scaleupPort_eq] at hne ⊢
  rw [scaleupPort_eq]
  refine congrArg (Option.getD · 0) ?_
  show (portOrder pa).find? (hasBit (putBit s.ports port false)) = _
  cases hf : (portOrder pa).find? (hasBit s.ports) with
  | none =>
    rw [List.find?_eq_none] at hf ⊢
    exact fun a ha => by simp [hasBit_putBit_false, hf a ha]
  | some p =>
    have hp' : p ≠ port := by
      rwa [hf] at hne
    rw [List.find?_eq_some_iff_append] at hf ⊢
    obtain ⟨hp, before, after, hl, hb⟩ := hf
    refine ⟨?_, before, after, hl, fun a ha => ?_⟩
    · rw [hasBit_putBit_false, hp, bne_iff_ne.2 hp']
      rfl
    · have ha' := hb a ha
      rw [hasBit_putBit_false]
      simp_all

end Sys2Proof.Machine

open Sys2Proof Sys2Proof.Machine

/-- Settles O59, clause by clause: each step of the platform by the lemma that says what it leaves where it can occur. -/
theorem platformStepsComplete : Obligations.PlatformStepsComplete := by
  unfold Obligations.PlatformStepsComplete
  intro s
  refine ⟨fun c cluster hc hk hf hq => ?_, fun c way spare row hc hw hs hr => if_neg (by omega),
    fun stack ratio hs hr => execArrayRatioChange_stall hs hr ratio, ?_, fun demands => budgets_bounds s,
    fun c => ⟨winNow_le_resWin, fun h => ⟨winNow_le_maxWin h, winNow_le_winShown h, winNow_thermal h⟩, columnLimits_lowRow⟩,
    fun temps lowRows okRows => ⟨fun h hp => execMonitorReading_hot h lowRows okRows hp, fun h => ?_⟩,
    fun hp => if_pos hp, execPowerOn_bringUp,
    fun u n l => ⟨fun h => bringUp_badImage h l, fun h hd => bringUp_defect h hd l, fun h hd => bringUp_stage h hd l, rfl⟩,
    fun hp hd hf hc => ?_, fun port hp hb => if_pos ⟨hp, hb⟩, fun port pa hne _ => scaleupPort_putBit hne⟩
  · have hoccurs := laneRetirement_occurs hc hk hf hq
    exact ⟨execLaneRetirement_first hoccurs, fun a => execLaneRetirement_second hoccurs, execLaneRetirement_third hoccurs⟩
  · have hset := (budgetRound_stacksSet s (estimate s) (roundBudgets s)).charged
    obtain ⟨hmem, hharts, htasks, hqueues, hcap⟩ := hset.tunes.frame
    refine ⟨_, execBudgetRecompute_round s, hmem, hharts, htasks, hqueues, hcap, fun n hn => ?_, hset.limits⟩
    rw [hset.values n hn]
    exact ⟨rfl, rfl, rfl, rfl⟩
  · have hset := readStacks_stacksSet temps lowRows okRows s
    obtain ⟨hmem, hharts, htasks, hqueues, -⟩ := hset.tunes.frame
    refine ⟨_, execMonitorReading_stacks h lowRows okRows s, hmem, hharts, htasks, hqueues, fun n l hn hl => ?_, fun n r hn => ?_,
      hset.limits⟩
    · rw [hset.values n hn, hl]
      exact monitored_some (s.stk n) l (rowsOf lowRows n) (rowsOf okRows n)
    · rw [hset.values n hn]
      have hrows := mem_monitored_lowRows (s.stk n) temps[n]? (rowsOf lowRows n) (rowsOf okRows n) r
      rwa [mem_rowsOf, mem_rowsOf] at hrows
  · exact ⟨_, execPowerOn_bringUp hp, bringUp_of_noDefects hd hf hc⟩
end

section
/-! SUPPORT. The scalar registers (R34, R149), and the results and the frame of the integer, predicate and scalar floating instructions (R152 to
R156, R164 to R167, R172). -/

namespace Sys2Proof.Machine

/-! ## Registers (R34, R149) -/

/-- `p0` reads true, whatever it holds. -/
theorem Hart.getP_zero (h : Hart) : h.getP 0 = true := rfl

/-- A write to `x0` is discarded. -/
theorem Hart.setX_zero (h : Hart) (v : Word) : h.setX 0 v = h := rfl

/-- A write to `p0` is discarded. -/
theorem Hart.setP_zero (h : Hart) (b : Bool) : h.setP 0 b = h := rfl

/-- A write of a general register changes the general registers alone. -/
theorem Hart.setX_frame (h : Hart) (r : XReg) (v : Word) : { h.setX r v with x := h.x } = h := by
  unfold Hart.setX; split <;> rfl

/-- A write of a predicate changes the predicates alone. -/
theorem Hart.setP_frame (h : Hart) (r : PReg) (b : Bool) : { h.setP r b with p := h.p } = h := by
  unfold Hart.setP; split <;> rfl

/-- What a general register reads after a write. -/
theorem Hart.getX_setX (h : Hart) (r q : XReg) (v : Word) : (h.setX r v).getX q = if q = r ∧ r ≠ 0 then v else h.getX q := by
  by_cases hq : q = r
  · subst hq
    by_cases hz : q = 0
    · rw [hz, if_neg (fun e => e.2 rfl), Hart.setX_zero]
    · rw [if_pos ⟨rfl, hz⟩, Hart.getX_setX_same _ _ _ hz]
  · rw [if_neg (fun e => hq e.1), Hart.getX_setX_other _ _ _ _ hq]

/-- What a predicate reads after a write. -/
theorem Hart.getP_setP (h : Hart) (a b : PReg) (w : Bool) : (h.setP a w).getP b = if b = a ∧ a ≠ 0 then w else h.getP b := by
  by_cases hb : b = a
  · subst hb
    by_cases hz : b = 0
    · rw [hz, if_neg (fun e => e.2 rfl), Hart.setP_zero]
    · rw [if_pos ⟨rfl, hz⟩, Hart.getP_setP_same _ _ _ hz]
  · rw [if_neg (fun e => hb e.1), Hart.getP_setP_other _ _ _ _ hb]

/-- A general register reads what the file holds. -/
theorem Hart.getX_of_x {g h : Hart} (e : g.x = h.x) (r : XReg) : g.getX r = h.getX r := by
  unfold Hart.getX
  rw [e]

theorem Hart.getP_of_p {g h : Hart} (e : g.p = h.p) (r : PReg) : g.getP r = h.getP r := by
  unfold Hart.getP
  rw [e]

/-! ## Results of the scalar instructions (R152 to R156, R164 to R167) -/

/-- An integer instruction completes with its result in xd: its meaning is its row of the table, and no other instruction has a row. -/
theorem intResult_completes {s : State} {id : Nat} {h : Hart} {i : Instr} {d : XReg} {v : Word} (hi : Issues s id h i)
    (hr : intResult i h = some (d, v)) : Completes i s h ((begun s id h i).setX d v) := by
  cases i <;> cases hr <;> exact issue_ok hi rfl

/-- A compare or predicate operation completes with its result in pd. -/
theorem predResult_completes {s : State} {id : Nat} {h : Hart} {i : Instr} {d : PReg} {v : Bool} (hi : Issues s id h i)
    (hr : predResult i h = some (d, v)) : Completes i s h ((begun s id h i).setP d v) := by
  cases i <;> cases hr <;> exact issue_ok hi rfl

/-- Without flags nothing is raised. -/
theorem Hart.raise_zero (h : Hart) : h.raise 0 = h := by
  have hf : h.fpflags ||| BitVec.ofNat 64 0 = h.fpflags := BitVec.or_zero
  unfold Hart.raise
  rw [hf]

/-- A scalar floating instruction completes with its result in xd and its flags raised. -/
theorem floatResult_completes {s : State} {id : Nat} {h : Hart} {i : Instr} {d : XReg} {v : Word} {f : Nat} (hi : Issues s id h i)
    (hr : floatResult i h = some (d, v, f)) :
    Completes i s h (({ begun s id h i with h := (begun s id h i).h.raise f } : Ctx).setX d v) := by
  cases i
  case fcvt d a u t =>
    by_cases hu : u.toNat < 3
    · cases (if_pos hu).symm.trans hr
      exact issue_ok hi (if_pos hu)
    · cases (if_neg hu).symm.trans hr
      exact issue_ok hi (if_neg hu)
  case fmin d a b t | fmax d a b t =>
    cases hr
    show Completes _ s h (({ begun s id h _ with h := (begun s id h _).h.raise 0 } : Ctx).setX d _)
    rw [Hart.raise_zero]
    exact issue_ok hi rfl
  all_goals cases hr <;> exact issue_ok hi rfl

/-! ## The frame of the scalar register instructions (R172) -/

/-- Hart g, but for the scalar registers, `FPFLAGS` and what issue and retirement move on, which are as in h. -/
def Hart.butScalars (g h : Hart) : Hart :=
  { g with
    x := h.x, p := h.p, fpflags := h.fpflags, pc := h.pc, loops := h.loops, instret := h.instret, pfx := h.pfx, wait := h.wait
    waitFrom := h.waitFrom, named := h.named, refDone := h.refDone, exempt := h.exempt, issueAt := h.issueAt, stalls := h.stalls
    tlbMissed := h.tlbMissed }

/-- Context c differs from the one in which instruction i of hart id began in the scalar registers and `FPFLAGS` alone: it transfers nowhere
and leaves nothing for its retirement. -/
structure WritesScalars (s : State) (id : Nat) (h : Hart) (i : Instr) (c : Ctx) : Prop where
  state   : c.s = s
  hart    : c.id = id
  untaken : c.taken = false
  quiet   : c.todo = []
  frame   : { c.h with x := h.x, p := h.p, fpflags := h.fpflags } = (begun s id h i).h

section
variable {s t : State} {id : Nat} {h : Hart} {i : Instr}

theorem writesScalars_setX (d : XReg) (v : Word) : WritesScalars s id h i ((begun s id h i).setX d v) :=
  ⟨rfl, rfl, rfl, rfl, congrArg (fun g : Hart => { g with p := h.p, fpflags := h.fpflags }) ((begun s id h i).h.setX_frame d v)⟩

theorem writesScalars_setP (d : PReg) (b : Bool) : WritesScalars s id h i ((begun s id h i).setP d b) :=
  ⟨rfl, rfl, rfl, rfl, congrArg (fun g : Hart => { g with x := h.x, fpflags := h.fpflags }) ((begun s id h i).h.setP_frame d b)⟩

theorem writesScalars_raise (d : XReg) (v : Word) (f : Nat) :
    WritesScalars s id h i (({ begun s id h i with h := (begun s id h i).h.raise f } : Ctx).setX d v) :=
  ⟨rfl, rfl, rfl, rfl,
    congrArg (fun g : Hart => { g with p := h.p, fpflags := h.fpflags }) (((begun s id h i).h.raise f).setX_frame d v)⟩

/-- The module after an instruction of a scalar major that writes the scalar registers alone, without debug: its hart has the values
written, and nothing else is changed but what issue and retirement move on. -/
theorem WritesScalars.next {c : Ctx} {m : Nat} (hw : WritesScalars s id h i c) (hm : i.major = some m) (hl : m < 0x14)
    (hu : Undebugged h) (hc : Completes i s h c) (ht : exec i s = .next t) :
    t.mem = s.mem ∧ { t with harts := s.harts, cur := s.cur } = s ∧ (∀ n, n ≠ id → t.hart? n = s.hart? n) ∧
    ∃ g, t.hart? id = some g ∧ g.x = c.h.x ∧ g.p = c.h.p ∧ g.fpflags = c.h.fpflags ∧ g.butScalars h = h := by
  obtain ⟨hs, hid, hk, htodo, hf⟩ := hw
  have hscalar : isVectorMajor m = false := decide_eq_false (by omega)
  have hctl : c.h.ctl = 0 := (congrArg Hart.ctl hf).trans hu.2
  have hexpo : (if (i.major.map isVectorMajor).getD false then c.h.expo + 1 else c.h.expo) = c.h.expo := by simp [hm, hscalar]
  have hnext := completes_quiet hc hctl (by rw [htodo]; rfl) hk (retiresApart_low hm (.inl hl)) (outruns_low hm hscalar h c)
  rw [ht, hs, hid] at hnext
  cases hnext
  refine ⟨rfl, rfl, fun n hn => find?_put_other _ _ _ _ hn, _, find?_put_same _ _ _, rfl, rfl, rfl, ?_⟩
  unfold Hart.after
  rw [hexpo]
  have hback := congrArg (Hart.butScalars · h) hf
  exact hback

end

end Sys2Proof.Machine

open Sys2Proof Sys2Proof.Machine

/-- Settles O9: the reads and writes of the two register files, by the lemma of each. -/
theorem registerReadWrite : Obligations.RegisterReadWrite := by
  unfold Obligations.RegisterReadWrite
  exact fun h r q v a b w => ⟨h.getX_zero, h.getP_zero, h.setX_zero v, h.setP_zero w, h.getX_setX r q v, h.getP_setP a b w,
    h.setX_frame r v, h.setP_frame a w⟩

/-- Settles O13: an instruction of the tables completes with its result, so it writes its destination, and for a floating one `FPFLAGS`. -/
theorem scalarFrame : Obligations.ScalarFrame := by
  unfold Obligations.ScalarFrame
  intro s t id h i hi hu hr ht
  obtain ⟨m, hm, hl⟩ := scalar_major hr
  rcases hr with hr | hr | hr
  · obtain ⟨⟨d, v⟩, hr⟩ := Option.isSome_iff_exists.1 hr
    obtain ⟨hmem, hs, hothers, g, hg, hx, hp, hf, hh⟩ := (writesScalars_setX d v).next hm hl hu (intResult_completes hi hr) ht
    refine ⟨fun a => by rw [hmem], hs, hothers, g, hg, fun r hd _ => ?_, fun p _ => Hart.getP_of_p (hp.trans (Hart.setX_p ..)) p,
      fun _ => hf.trans (Hart.setX_fpflags ..), hh⟩
    have hne : r ≠ d := fun e => hd v (e ▸ hr)
    exact (Hart.getX_of_x hx r).trans (Hart.getX_setX_other _ d r v hne)
  · obtain ⟨⟨d, b⟩, hr⟩ := Option.isSome_iff_exists.1 hr
    obtain ⟨hmem, hs, hothers, g, hg, hx, hp, hf, hh⟩ := (writesScalars_setP d b).next hm hl hu (predResult_completes hi hr) ht
    refine ⟨fun a => by rw [hmem], hs, hothers, g, hg, fun r _ _ => Hart.getX_of_x (hx.trans (Hart.setP_x ..)) r, fun p hd => ?_,
      fun _ => hf.trans (Hart.setP_fpflags ..), hh⟩
    have hne : p ≠ d := fun e => hd b (e ▸ hr)
    exact (Hart.getP_of_p hp p).trans (Hart.getP_setP_other _ d p b hne)
  · obtain ⟨⟨d, v, f⟩, hr⟩ := Option.isSome_iff_exists.1 hr
    obtain ⟨hmem, hs, hothers, g, hg, hx, hp, -, hh⟩ := (writesScalars_raise d v f).next hm hl hu (floatResult_completes hi hr) ht
    refine ⟨fun a => by rw [hmem], hs, hothers, g, hg, fun r _ hd => ?_, fun p _ => Hart.getP_of_p (hp.trans (Hart.setX_p ..)) p,
      fun hn => absurd (hn.symm.trans hr) (by simp), hh⟩
    have hne : r ≠ d := fun e => hd v f (e ▸ hr)
    exact (Hart.getX_of_x hx r).trans (Hart.getX_setX_other _ d r v hne)
end

section
/-! SUPPORT. What the instructions that configure a hart's vectors leave where their conditions hold (R38, R63, R133, R188, R189, R267,
R268). -/

namespace Sys2Proof.Machine

section
variable {s : State} {id : Nat} {h : Hart}

/-- `VGEOM` of a hart with lanes, whose geometry holds its kernel's registers and that nothing under way holds back. -/
theorem vgeom_completes {g : BitVec 2} (hi : Issues s id h (.vgeom g)) (hl : h.lanes ≠ 0)
    (hr : (begun s id h (.vgeom g)).header.vregCount ≤ 8 * 2 ^ g.toNat) (he : ∀ e ∈ h.elems, e.isLate = false)
    (ht : h.transport = none) (hd : h.tileLoad = none) :
    let c := begun s id h (.vgeom g)
    let s₁ := closeAll s id c.h c.registers
    Completes (.vgeom g) s h { c with
      s := { s₁ with outstanding := s₁.outstanding.filter (fun e => !(e.2.hart == id && e.2.chan.isSome)) }
      h := { c.h with geom := 8 * 2 ^ g.toNat, v := [], vl := 0, chans := [] } } := by
  intro c s₁
  have hlegal : (c.h.lanes != 0 && decide (c.header.vregCount ≤ 8 * 2 ^ g.toNat)) = true := by
    rw [Bool.and_eq_true, bne_iff_ne, decide_eq_true_eq]
    exact ⟨hl, hr⟩
  have hnone : (!c.h.waiting.isEmpty || c.h.elems.any (·.isLate)) = false := by
    have hw : c.h.waiting = [] := hi.noWaiting
    have hn : c.h.elems.any (·.isLate) = false := List.any_eq_false.2 fun e h => by simp [he e h]
    rw [hw, hn]
    rfl
  have htr : c.h.transport.isSome = false := by rw [show c.h.transport = none from ht]; rfl
  have htl : c.h.tileLoad.isSome = false := by rw [show c.h.tileLoad = none from hd]; rfl
  exact issue_ok hi (bind_ok (legal_true hlegal _) ((if_neg (ne_true_of_eq_false hnone)).trans
    ((if_neg (ne_true_of_eq_false htr)).trans (if_neg (ne_true_of_eq_false htl)))))

/-- `VTYPE` of declared registers, the first of which may change. -/
theorem vtype_completes {d sc : VNum} {t : BitVec 5} (hi : Issues s id h (.vtype d sc t))
    (hd : (begun s id h (.vtype d sc t)).declared (if (TypeTag.ofCode t.toNat).isMx then [d, sc] else [d]) = true)
    (hc : Changeable (begun s id h (.vtype d sc t)).h d) :
    let c := begun s id h (.vtype d sc t)
    Completes (.vtype d sc t) s h { c with h := c.h.setV d { h.getV d with tag := TypeTag.ofCode t.toNat, scale := sc } } :=
  issue_ok hi (bind_ok (legal_true hd _) (bind_ok (changeable_ok _ d hc) rfl))

/-- `VSETVL` of a hart with lanes. -/
theorem vsetvl_completes {d a : XReg} {w : BitVec 2} (hi : Issues s id h (.vsetvl d a w)) (hl : h.lanes ≠ 0) :
    let c := begun s id h (.vsetvl d a w)
    let vl := grantVl c.h ((c.task?.map (·.srec.ceiling)).getD 0) (h.getX a).toNat (4 * 2 ^ w.toNat)
    Completes (.vsetvl d a w) s h (({ c with h := { c.h with
      vl := vl, chans := h.chans.map (fun e => (e.1, if e.2.auto then e.2.advance h.pc else e.2)) } } : Ctx).setX d
        (BitVec.ofNat 64 vl)) :=
  issue_ok hi (bind_ok (legal_true (bne_iff_ne.2 hl) _) rfl)

/-- `VLOPEN` of a declared register. -/
theorem vlopen_completes {d : VNum} (hi : Issues s id h (.vlopen d)) (hd : (begun s id h (.vlopen d)).declared [d] = true) :
    let c := begun s id h (.vlopen d)
    Completes (.vlopen d) s h { c with h := { c.h with
      vl := h.lanes * 8 * popBits 8 (h.getV d).openWays * 32 / (h.getV d).tag.width } } :=
  issue_ok hi (bind_ok (legal_true hd _) rfl)

/-- `PFX` of a hart with lanes, off the innermost loop's end, with a declared register where it asks for a copy. -/
theorem pfx_completes {k : KReg} {pol dt zero cpen : Bool} {v : VNum} (hi : Issues s id h (.pfx k pol dt zero v cpen))
    (hl : h.lanes ≠ 0) (ho : OffLoopEnd h) (hd : cpen = true → (begun s id h (.pfx k pol dt zero v cpen)).declared [v] = true) :
    let c := begun s id h (.pfx k pol dt zero v cpen)
    Completes (.pfx k pol dt zero v cpen) s h { c with h := { c.h with
      pfx := some ⟨k, pol, dt, zero, v, cpen, (h.pc + (4 : Word)).extractLsb' 2 46⟩ } } := by
  intro c
  have hlegal : (c.h.lanes != 0 && (!cpen || c.declared [v])) = true := by
    rw [Bool.and_eq_true, bne_iff_ne, Bool.or_eq_true]
    refine ⟨hl, ?_⟩
    cases hc : cpen with
    | false => exact .inl rfl
    | true => exact .inr (hd hc)
  exact issue_ok hi (bind_ok (legal_true hlegal _) (bind_ok (notAtLoopEnd_ok _ ho) rfl))

end

end Sys2Proof.Machine

open Sys2Proof Sys2Proof.Machine

/-- Settles O28, instruction by instruction: each passes its checks and leaves its effect. -/
theorem configCompletes : Obligations.ConfigCompletes := by
  unfold Obligations.ConfigCompletes
  intro s id h
  exact ⟨fun g hi hl hr he ht hd => vgeom_completes hi hl hr he ht hd, fun d sc t hi hd hc => vtype_completes hi hd hc,
    fun d a w hi hl => vsetvl_completes hi hl, fun d hi hd => vlopen_completes hi hd,
    fun k pol dt zero v cpen hi hl ho hd => pfx_completes hi hl ho hd⟩
end

section
/-! SUPPORT. What the steps of pre-emption, of waits and of shootdown leave where they can occur (R58, R73, R77, R273, R287 to R291, R306). -/

namespace Sys2Proof.Machine

/-! ## The victims of a waiter (R288) -/

/-- Insertion adds the one element. -/
theorem mem_insertBy {α : Type} (first : α → α → Bool) (a x : α) (l : List α) : x ∈ insertBy first a l ↔ x = a ∨ x ∈ l := by
  induction l with
  | nil => simp [insertBy]
  | cons b l ih =>
    unfold insertBy
    split
    · simp
    · rw [List.mem_cons, ih, List.mem_cons]
      exact or_left_comm

/-- Sorting keeps the elements. -/
theorem mem_sortBy {α : Type} (first : α → α → Bool) (x : α) (l : List α) : x ∈ sortBy first l ↔ x ∈ l := by
  induction l with
  | nil => rfl
  | cons a l ih => rw [sortBy, mem_insertBy, ih, List.mem_cons]

/-- The units of a task are of its harts that stand in their columns. -/
theorem mem_victimUnits {s : State} {t : Task} {u : List Nat} {v : Nat} (hu : u ∈ victimUnits s t) (hv : v ∈ u) :
    v ∈ (taskHarts s t).map (·.1) := by
  unfold victimUnits at hu
  dsimp only at hu
  split at hu
  · split at hu
    · cases hu
    · rw [List.mem_singleton] at hu
      exact hu ▸ hv
  · rw [List.mem_map] at hu
    obtain ⟨e, he, rfl⟩ := hu
    rw [List.mem_singleton] at hv
    exact hv ▸ List.mem_map_of_mem ((mem_sortBy _ _ _).1 he)

/-- What is taken for a waiter was taken before or is of the units offered. -/
theorem mem_takeUnits {s : State} {gone : List Nat} {id : Nat} {t : Task} {claim : Option (List Hart)} {p : Placement} {u : List Nat}
    {l : List (List Nat)} : ∀ {taken rest}, takeUnits s gone id t claim taken rest = some (l, p) → u ∈ l → u ∈ taken ∨ u ∈ rest := by
  intro taken rest
  induction rest generalizing taken with
  | nil =>
    intro h hu
    unfold takeUnits at h
    split at h
    · cases h; exact .inl hu
    · cases h
    · cases ‹_ = _ :: _›
  | cons v rest ih =>
    intro h hu
    unfold takeUnits at h
    split at h
    · cases h; exact .inl hu
    · cases h
    · rename_i e
      cases e
      rcases ih h hu with hu | hu
      · rcases List.mem_cons.1 hu with rfl | hu
        · exact .inr (.head _)
        · exact .inl hu
      · exact .inr (.tail _ hu)

/-- What is left after the drop was kept before or is of the units gone through. -/
theorem mem_dropUnits {s : State} {gone : List Nat} {id : Nat} {p : Placement} {u : List Nat} :
    ∀ {l kept : List (List Nat)}, u ∈ dropUnits s gone id p kept l → u ∈ kept ∨ u ∈ l := by
  intro l
  induction l with
  | nil => exact fun h => .inl h
  | cons v l ih =>
    intro kept h
    unfold dropUnits at h
    split at h
    · exact (ih h).imp_right (.tail _)
    · rcases ih h with h | h
      · rcases List.mem_cons.1 h with rfl | h
        · exact .inr (.head _)
        · exact .inl h
      · exact .inr (.tail _ h)

/-- A victim is not chosen already, and is a hart in its column of another started task of those that give way. -/
theorem mem_victims {s : State} {n v : Nat} {t : Task} {claim : Option (List Hart)} {among : Nat → Task → Bool} {vs : List Nat}
    (h : victims s n t claim among = some vs) (hv : v ∈ vs) : v ∉ chosen s ∧
      ∃ e ∈ s.tasks, e.1 ≠ n ∧ e.2.phase = .started ∧ among e.1 e.2 = true ∧ v ∈ (taskHarts s e.2).map (·.1) := by
  unfold victims at h
  obtain ⟨⟨taken, p⟩, htake, hdrop⟩ := Option.map_eq_some_iff.1 h
  subst hdrop
  obtain ⟨u, hu, hvu⟩ := List.mem_flatten.1 hv
  have hunit := (mem_dropUnits hu).resolve_left List.not_mem_nil
  have hoffered := (mem_takeUnits htake hunit).resolve_left List.not_mem_nil
  rw [List.mem_filter, List.mem_flatMap] at hoffered
  obtain ⟨⟨e, he, hue⟩, hfree⟩ := hoffered
  rw [mem_sortBy, List.mem_filter] at he
  obtain ⟨hmem, htest⟩ := he
  simp only [Bool.and_eq_true, bne_iff_ne, beq_iff_eq] at htest
  obtain ⟨⟨⟨hne, hphase⟩, hamong⟩, -⟩ := htest
  refine ⟨fun hc => ?_, e, hmem, hne, hphase, hamong, mem_victimUnits hue hvu⟩
  rw [Bool.not_eq_true', List.any_eq_false] at hfree
  exact hfree v hvu (List.contains_iff_mem.2 hc)

/-- A waiter that has no place and that no task served earlier holds back gets the victims that are found for it. -/
theorem claimVictims_of_victims {s : State} {n : Nat} {t : Task} {claim : Option (List Hart)} {among : Nat → Task → Bool} {vs : List Nat}
    (hp : placement s [] n t claim = none) (hb : heldBack s n t (claimLanes s t claim) = false)
    (hv : victims s n t claim among = some vs) (hne : vs ≠ []) : claimVictims s n t claim among = some vs := by
  unfold claimVictims
  rw [hp, hb, if_neg (by simp), hv, Option.filter_some, if_pos (by simp [hne])]

/-! ## Pre-emption (R288, R289) -/

theorem execPreemptionRequest_next {s : State} {n : Nat} {t : Task} {vs : List Nat} (ht : s.task? n = some t)
    (hv : (claims s n t).findSome? (fun k => claimVictims s n t k (fun u _ => decide (classOf s n < classOf s u))) = some vs) :
    execPreemptionRequest n s = .next (askHalt s vs n) := by
  unfold execPreemptionRequest preempt
  rw [ht, Option.bind_some, hv]
  rfl

/-- The end of a slice marks the victims that the waiter then finds, if any. -/
theorem execSliceExpiry_next {s : State} {u n : Nat} {tu t : Task} {r : Option (List Nat)} (hu : s.task? u = some tu)
    (hn : s.task? n = some t) (hp : tu.phase = .started) :
    let s₁ := s.setTask u { tu with expired := true }
    (claims s₁ n t).findSome? (fun k => claimVictims s₁ n t k (givesWay s₁ (classOf s₁ n) k)) = r →
    execSliceExpiry u n s = .next ((r.map (fun vs => askHalt s₁ vs n)).getD s₁) := by
  rintro s₁ rfl
  unfold execSliceExpiry
  rw [hu, hn]
  exact if_neg (not_not_intro hp)

/-! ## Halting, saving and returning (R58, R287, R290, R291, R306) -/

theorem execHartHalt_next {s : State} {n : Nat} {h : Hart} (hh : s.hart? n = some h) (hs : h.status = .resident) (hq : h.haltReq = true)
    (hl : h.leaving = false) (hc : h.caughtUp = true) :
    execHartHalt n s = .next ((haltHart s n).modHart n (fun r => { r with status := .halted, haltReq := false })) := by
  unfold execHartHalt
  rw [hh]
  exact if_neg (by simp [hs, hq, hl, hc])

theorem execHartSaved_next {s : State} {n : Nat} {h : Hart} (hh : s.hart? n = some h) (hs : h.status = .halted)
    (ho : ∀ e ∈ s.outstanding, e.2.hart = n → e.2.load = true) :
    let f := writeFrame (contextRows (flushCounts s h.column) h) h 6 h.pc 0
    execHartSaved n s = .next (freeRows (f.1.setHart n { f.2 with status := .saved, saves := h.saves + 1 }) n h.column) := by
  have hwrites : s.outstanding.any (fun e => e.2.hart == n && !e.2.load) = false :=
    List.any_eq_false.2 fun e he => by
      by_cases hn : e.2.hart = n
      · simp [ho e he hn]
      · simp [hn]
  unfold execHartSaved
  rw [hh]
  exact if_neg (by simp [hs, hwrites])

/-- Of the Saved harts among those of a list, one has a bad piece of scalar state (R306). -/
def badScalar (s : State) (ids : List Nat) : Bool :=
  ids.any (fun k => (s.hart? k).any (fun r => r.status == .saved && r.badContext.any (·.part == .scalar)))

theorem badScalar_iff (s : State) (ids : List Nat) : badScalar s ids = true ↔
    ∃ k ∈ ids, ∃ r, s.hart? k = some r ∧ r.status = .saved ∧ ∃ b ∈ r.badContext, b.part = .scalar := by
  simp [badScalar, Option.any_eq_true]

theorem badScalar_eq_false {s : State} {ids : List Nat}
    (h : ∀ k ∈ ids, ∀ r, s.hart? k = some r → r.status = .saved → ∀ b ∈ r.badContext, b.part ≠ .scalar) : badScalar s ids = false := by
  rw [Bool.eq_false_iff, ne_eq, badScalar_iff]
  rintro ⟨k, hk, r, hr, hs, b, hb, hp⟩
  exact h k hk r hr hs b hb hp

/-- Harts ids, with the lanes given, return together with hart n of task t: it alone, or all of its gang, none of which is halting (R287). -/
structure ReturnTogether (s : State) (n : Nat) (h : Hart) (t : Task) (ids : List Nat) (lanes : Lanes) : Prop where
  ids_eq    : ids = if t.srec.mode % 2 = 1 then t.harts.map (·.2) else [n]
  lanes_eq  : lanes = if t.srec.mode % 2 = 1 then (savedHarts s h.task).flatMap (·.lanesOf) else h.lanesOf
  notHalted : t.srec.mode % 2 = 1 → ∀ e ∈ t.harts, ∀ r, s.hart? e.2 = some r → r.status ≠ .halted ∧ r.haltReq = false

theorem returnTogether_of {s : State} {n : Nat} {h : Hart} {t : Task} {ids : List Nat} {lanes : Lanes}
    (hr : t.srec.mode % 2 = 0 ∧ ids = [n] ∧ lanes = h.lanesOf ∨
      t.srec.mode % 2 = 1 ∧ ids = t.harts.map (·.2) ∧ lanes = (savedHarts s h.task).flatMap (·.lanesOf) ∧
        ∀ e ∈ t.harts, ∀ r, s.hart? e.2 = some r → r.status ≠ .halted ∧ r.haltReq = false) : ReturnTogether s n h t ids lanes := by
  rcases hr with ⟨hm, hi, hl⟩ | ⟨hm, hi, hl, hn⟩
  · have hne : t.srec.mode % 2 ≠ 1 := by omega
    exact ⟨by rw [if_neg hne, hi], by rw [if_neg hne, hl], fun hg => absurd hg hne⟩
  · exact ⟨by rw [if_pos hm, hi], by rw [if_pos hm, hl], fun _ => hn⟩

/-- `HART_RESUME` returns the harts, and ends the task where scalar state of one is lost (R306). -/
theorem execHartResume_next {s s' : State} {n : Nat} {h : Hart} {t : Task} {ids : List Nat} {lanes : Lanes} (hh : s.hart? n = some h)
    (hs : h.status = .saved) (ht : s.task? h.task = some t) (hr : ReturnTogether s n h t ids lanes)
    (hb : heldBack s h.task t lanes = false) (ha : returnAll s ids = some s') :
    let back := takenUp (resetAging s' h.task) h.task
    execHartResume n s = .next (if badScalar s ids then (endTask back h.task .mcheck).getD back else back) := by
  obtain ⟨rfl, rfl, hn⟩ := hr
  unfold execHartResume
  rw [hh]
  dsimp only
  rw [ht]
  dsimp only
  rw [if_neg, ha]
  · rfl
  rintro (hx | hx | hx)
  · exact hx hs
  · rw [Bool.and_eq_true, List.any_eq_true] at hx
    obtain ⟨hgang, e, he, hhalting⟩ := hx
    split at hhalting
    · obtain ⟨hne, hreq⟩ := hn (of_decide_eq_true hgang) e he _ ‹_›
      simp [hne, hreq] at hhalting
    · cases hhalting
  · exact Bool.false_ne_true (hb.symm.trans hx)

/-! ## Waits, shootdown and reload (R73, R77, R273) -/

theorem execWaitevWake_next {s : State} {n mask : Nat} {h : Hart} (hh : s.hart? n = some h) (hw : h.wait = .waitev mask)
    (he : eventsHeld s n h mask ≠ 0) : execWaitevWake n s = .next (s.setHart n { h with wait := .none }) := by
  unfold execWaitevWake
  rw [hh]
  dsimp only
  rw [hw]
  exact if_pos he

theorem execWaitevTimeout_next {s : State} {n mask : Nat} {h : Hart} (hh : s.hart? n = some h) (hw : h.wait = .waitev mask) :
    execWaitevTimeout n s = .next (s.setHart n { h with wait := .none }) := by
  unfold execWaitevTimeout
  rw [hh]
  dsimp only
  rw [hw]

theorem execRowWindowTimeout_next {s : State} {n : Nat} {va : Word} {h : Hart} (hh : s.hart? n = some h) (hw : h.wait = .staleRow va)
    (hc : h.caughtUp = true) : execRowWindowTimeout n s = .next (deliver s n h .pageWin h.pc va) := by
  unfold execRowWindowTimeout
  rw [hh]
  dsimp only
  rw [hw]
  exact if_pos hc

/-- A reload can occur where a stale entry of the column is hit and the leaf is a valid one of stacked DRAM (R74). -/
theorem rowWindowReload_occurs {k : Column} {hit : RowEntry → Bool} {leaf : Nat} (hr : ∃ r ∈ k.rowWin, hit r = true)
    (hl : leafOk leaf = true) (hd : regionOf (leafAddress leaf 0) = .dram) :
    ¬((!k.rowWin.any hit) = true ∨ (!leafOk leaf) = true ∨ regionOf (leafAddress leaf 0) ≠ .dram) := by
  rw [List.any_eq_true.2 hr, hl, hd]
  simp

end Sys2Proof.Machine

open Sys2Proof Sys2Proof.Machine

/-- Settles O58, clause by clause: each step of pre-emption, of waits and of shootdown by the lemma that says what it leaves where it can
occur. -/
theorem preemptionStepsComplete : Obligations.PreemptionStepsComplete := by
  unfold Obligations.PreemptionStepsComplete
  intro s
  refine ⟨fun n t vs ht hv => execPreemptionRequest_next ht hv,
    fun u n tu t hu hn hp => ⟨fun vs => execSliceExpiry_next hu hn hp, execSliceExpiry_next hu hn hp⟩,
    fun n t claim among => ⟨fun vs => claimVictims_of_victims, fun vs hv v => mem_victims hv⟩,
    fun n h hh => ⟨execHartHalt_next hh, execHartSaved_next hh, fun t s' ids lanes hs ht hids hb ha => ?_, fun mask hw =>
      ⟨execWaitevWake_next hh hw, execWaitevTimeout_next hh hw⟩, fun va => execRowWindowTimeout_next hh⟩,
    fun root vpages => rfl, fun c n vpage leaf hl hd hr => if_neg (rowWindowReload_occurs hr hl hd)⟩
  have hnext := execHartResume_next hh hs ht (returnTogether_of hids) hb ha
  exact ⟨fun hgood => by rwa [badScalar_eq_false hgood] at hnext, fun hbad => by rwa [(badScalar_iff s ids).2 hbad] at hnext⟩
end

section
/-! SUPPORT. The operation that each form of a vector instruction runs, and the vector and tile instructions at a vector length of 0 (R62). -/

namespace Sys2Proof.Machine

/-! ## The operations behind the forms -/

section
variable {i : Instr}

theorem exec_elementForm {op : VOp} {part : Nat} {d a : VNum} {b : BSource} (hf : elementForm i = some (op, part, d, a, b))
    (s : State) : exec i s = elementwise i op part d a b s := by
  unfold elementForm at hf
  split at hf <;> cases hf <;> rfl

theorem exec_compareForm {cc : VCc} {part : Nat} {k : KReg} {a : VNum} {b : BSource} (hf : compareForm i = some (cc, part, k, a, b))
    (s : State) : exec i s = compareElems i cc part k a b s := by
  unfold compareForm at hf
  split at hf <;> cases hf <;> rfl

theorem exec_selectForm {part : Nat} {d a : VNum} {b : BSource} (hf : selectForm i = some (part, d, a, b)) (s : State) :
    exec i s = selectElems i part d a b s := by
  unfold selectForm at hf
  split at hf <;> cases hf <;> rfl

theorem exec_permuteForm {d a : VNum} {b : Option VNum} {f : Ctx → Nat → Nat → Pick} (hf : permuteForm i = some (d, a, b, f))
    (s : State) : exec i s = permute i d a b f s := by
  unfold permuteForm at hf
  split at hf <;> cases hf <;> rfl

theorem exec_vloadForm {d : VNum} {f : VForm} {b : XReg} (hf : vloadForm i = some (d, f, b)) (s : State) :
    exec i s = vload i d f b s := by
  unfold vloadForm at hf
  split at hf <;> cases hf <;> rfl

theorem exec_vstoreForm {d : VNum} {f : VForm} {b : XReg} (hf : vstoreForm i = some (d, f, b)) (s : State) :
    exec i s = vstore i d f b s := by
  unfold vstoreForm at hf
  split at hf <;> cases hf <;> rfl

theorem exec_updateForm {op : UpdOp} {d vi : VNum} {b : XReg} (hf : updateForm i = some (op, d, vi, b)) (s : State) :
    exec i s = vupdate i op d vi b s := by
  unfold updateForm at hf
  split at hf <;> cases hf <;> rfl

theorem exec_tileForm {rs : List VNum} (hf : tileForm i = some rs) (s : State) : ∃ m, exec i s = tileOp i rs m s := by
  unfold tileForm at hf
  split at hf <;> cases hf <;> exact ⟨_, rfl⟩

end

/-! ## A vector length of 0 (R62) -/

/-- Instruction i checks that registers rs are declared and that its prefix may copy dest, and does no more at a vector length of 0. -/
def ChecksThenLength (i : Instr) (rs : List VNum) (dest : Option VNum) : Prop :=
  ∀ s, ∃ rest : Meaning, exec i s = issue i s fun c => vecLegal c rs dest >>= fun _ => if c.h.vl = 0 then .ok c else rest c

section
variable {s : State} {id : Nat} {h : Hart} {i : Instr}

theorem ChecksThenLength.completes {rs : List VNum} {dest : Option VNum} (hk : ChecksThenLength i rs dest) (hi : Issues s id h i)
    (hv : h.vl = 0) (hd : (begun s id h i).declared rs = true) (hc : (begun s id h i).copyOk dest = true) :
    Completes i s h (begun s id h i) := by
  obtain ⟨rest, he⟩ := hk s
  exact he.trans (issue_ok hi (bind_ok (vecLegal_ok _ _ _ hd hc) (if_pos hv)))

theorem elementForm_checks {op : VOp} {part : Nat} {d a : VNum} {b : BSource} (hf : elementForm i = some (op, part, d, a, b)) :
    ChecksThenLength i (d :: a :: b.regs) (some d) := fun s => by
  rw [exec_elementForm hf]
  cases b <;> exact ⟨_, rfl⟩

theorem compareForm_checks {cc : VCc} {part : Nat} {k : KReg} {a : VNum} {b : BSource} (hf : compareForm i = some (cc, part, k, a, b)) :
    ChecksThenLength i (a :: b.regs) none := fun s => by
  rw [exec_compareForm hf]
  cases b <;> exact ⟨_, rfl⟩

theorem selectForm_checks {part : Nat} {d a : VNum} {b : BSource} (hf : selectForm i = some (part, d, a, b)) :
    ChecksThenLength i (d :: a :: b.regs) (some d) := fun s => by
  rw [exec_selectForm hf]
  cases b <;> exact ⟨_, rfl⟩

theorem permuteForm_checks {d a : VNum} {b : Option VNum} {f : Ctx → Nat → Nat → Pick} (hf : permuteForm i = some (d, a, b, f)) :
    ChecksThenLength i (d :: a :: b.toList) (some d) := fun s => ⟨_, exec_permuteForm hf s⟩

theorem vloadForm_checks {d : VNum} {f : VForm} {b : XReg} (hf : vloadForm i = some (d, f, b)) :
    ChecksThenLength i (d :: f.index) (some d) := fun s => ⟨_, exec_vloadForm hf s⟩

theorem vstoreForm_checks {d : VNum} {f : VForm} {b : XReg} (hf : vstoreForm i = some (d, f, b)) :
    ChecksThenLength i (d :: f.index) none := fun s => ⟨_, exec_vstoreForm hf s⟩

theorem updateForm_checks {op : UpdOp} {d vi : VNum} {b : XReg} (hf : updateForm i = some (op, d, vi, b)) :
    ChecksThenLength i [d, vi] none := fun s => ⟨_, exec_updateForm hf s⟩

theorem vsplat_checks (d : VNum) (b : XReg) (dt : Bool) : ChecksThenLength (.vsplat d b dt) [d] (some d) := fun _ => ⟨_, rfl⟩
theorem viota_checks (d : VNum) (dt : Bool) : ChecksThenLength (.viota d dt) [d] (some d) := fun _ => ⟨_, rfl⟩
theorem vins_checks (d : VNum) (x b : XReg) (dt : Bool) : ChecksThenLength (.vins d x b dt) [d] (some d) := fun _ => ⟨_, rfl⟩
theorem vcomp_checks (d a : VNum) (ca dt : Bool) : ChecksThenLength (.vcomp d a ca dt) [d, a] (some d) := fun _ => ⟨_, rfl⟩
theorem vexpd_checks (d a : VNum) (ca dt : Bool) : ChecksThenLength (.vexpd d a ca dt) [d, a] (some d) := fun _ => ⟨_, rfl⟩
theorem vlsx_checks (d vi : VNum) (b : XReg) (ca dt : Bool) : ChecksThenLength (.vlsx d vi b ca dt) [d, vi] (some d) :=
  fun _ => ⟨_, rfl⟩
theorem vssx_checks (d vi : VNum) (b : XReg) (ca dt : Bool) : ChecksThenLength (.vssx d vi b ca dt) [d, vi] none :=
  fun _ => ⟨_, rfl⟩

/-- `VCOMP` with an index register checks also that it is neither the destination nor the source, before the vector length. -/
theorem vcompIdx_zeroLength {d a v : VNum} {ca dt : Bool} (hi : Issues s id h (.vcompIdx d a v ca dt)) (hv : h.vl = 0)
    (hd : (begun s id h (.vcompIdx d a v ca dt)).declared [d, a, v] = true)
    (hc : (begun s id h (.vcompIdx d a v ca dt)).copyOk (some d) = true) (hvd : v ≠ d) (hva : v ≠ a) :
    Completes (.vcompIdx d a v ca dt) s h (begun s id h (.vcompIdx d a v ca dt)) := by
  have hapart : (some v).all (fun v => v != d && v != a) = true := by simp [hvd, hva]
  exact issue_ok hi (bind_ok (vecLegal_ok _ _ _ hd hc) (bind_ok (legal_true hapart _) (if_pos hv)))

/-- A tile instruction of a hart that holds a tile slot. -/
theorem tileForm_zeroLength {rs : List VNum} (hf : tileForm i = some rs) (hi : Issues s id h i) (hv : h.vl = 0)
    (hheld : h.tileHeld = true) (htile : (begun s id h i).header.tile = 1) (hlanes : h.lanes % 32 = 0)
    (hd : (begun s id h i).declared rs = true) : Completes i s h (begun s id h i) := by
  obtain ⟨m, he⟩ := exec_tileForm hf s
  have hlegal : tileLegal (begun s id h i) rs = .ok () := by
    refine legal_true ?_ _
    simp only [Bool.and_eq_true, beq_iff_eq]
    exact ⟨⟨⟨hheld, htile⟩, hlanes⟩, hd⟩
  exact he.trans (issue_ok hi (bind_ok hlegal (if_pos hv)))

end

end Sys2Proof.Machine

open Sys2Proof Sys2Proof.Machine

/-- Settles O36, form by form: each of these instructions checks its registers and its prefix's copy, and then looks at the vector length. -/
theorem zeroLengthCompletes : Obligations.ZeroLengthCompletes := by
  unfold Obligations.ZeroLengthCompletes
  intro s id h i hi hv c
  refine ⟨fun d vs hd hform => ?_, fun rs hf hheld htile hlanes hd => tileForm_zeroLength hf hi hv hheld htile hlanes hd⟩
  rcases hform with ⟨hc, htakesCopy⟩ | ⟨hc, hnoCopy⟩
  · rcases htakesCopy with ⟨_, _, _, _, hf, rfl⟩ | ⟨_, _, _, hf, rfl⟩ | ⟨_, _, rfl | rfl | ⟨_, rfl⟩, rfl⟩ | ⟨_, _, _, hf, rfl⟩ |
      ⟨_, _, _, rfl | rfl, rfl⟩ | ⟨_, _, _, _, rfl, hvd, hva, rfl⟩ | ⟨_, _, _, _, rfl, rfl⟩ | ⟨_, _, hf, rfl⟩
    · exact (elementForm_checks hf).completes hi hv hd hc
    · exact (selectForm_checks hf).completes hi hv hd hc
    · exact (vsplat_checks _ _ _).completes hi hv hd hc
    · exact (viota_checks _ _).completes hi hv hd hc
    · exact (vins_checks _ _ _ _).completes hi hv hd hc
    · exact (permuteForm_checks hf).completes hi hv hd hc
    · exact (vcomp_checks _ _ _ _).completes hi hv hd hc
    · exact (vexpd_checks _ _ _ _).completes hi hv hd hc
    · exact vcompIdx_zeroLength hi hv hd hc hvd hva
    · exact (vlsx_checks _ _ _ _ _).completes hi hv hd hc
    · exact (vloadForm_checks hf).completes hi hv hd hc
  · rcases hnoCopy with ⟨_, _, hf, rfl⟩ | ⟨_, _, _, hf, rfl⟩ | ⟨_, _, _, _, rfl, rfl⟩ | ⟨_, _, _, _, hf, rfl⟩
    · exact (vstoreForm_checks hf).completes hi hv hd hc
    · exact (updateForm_checks hf).completes hi hv hd hc
    · exact (vssx_checks _ _ _ _ _).completes hi hv hd hc
    · exact (compareForm_checks hf).completes hi hv hd hc
end

section
/-! SUPPORT. How an instruction's meaning keeps the canonical form of memory: the form as a predicate of a state, what holds at the end of an
action whether it goes on or stops, and the checks that leave the state as it is. -/

namespace Sys2Proof.Machine

/-! ## The form, and steps that keep it -/

/-- Memory is in its canonical form. -/
def Formed (s : State) : Prop := Memory.wf s.mem = true

theorem KeepsForm.formed {s t : State} (h : KeepsForm s t) (hs : Formed s) : Formed t := h hs

theorem Formed.of_mem {s t : State} (hs : Formed s) (h : t.mem = s.mem) : Formed t := KeepsForm.of_mem h hs

/-- The state in a pair, where the call that gives the pair leaves memory as it is. -/
theorem mem_of_fst {α : Type} {p : State × α} {s t : State} {a : α} (e : p = (t, a)) (h : p.1.mem = s.mem) : t.mem = s.mem := by
  rw [← h, e]

/-- A state that an operation gives, if it gives one, keeps the form. -/
def KeepsIf (s : State) (o : Option State) : Prop := ∀ t, o = some t → KeepsForm s t

@[simp] theorem keepsIf_some {s t : State} : KeepsIf s (some t) ↔ KeepsForm s t := ⟨fun h => h t rfl, fun h _ e => by cases e; exact h⟩

@[simp] theorem keepsIf_none {s : State} : KeepsIf s none := fun _ e => by cases e

theorem KeepsIf.ite {p : Prop} [Decidable p] {s : State} {a b : Option State} (ha : KeepsIf s a) (hb : KeepsIf s b) :
    KeepsIf s (if p then a else b) := by
  split
  · exact ha
  · exact hb

/-- What follows a step that keeps the form. -/
theorem KeepsForm.thenIf {s t : State} {o : Option State} (h : KeepsForm s t) (g : KeepsIf t o) : KeepsIf s o := fun u e => h.trans (g u e)

/-- A step that answers a next state keeps the form. -/
def Steps (s : State) (r : Result) : Prop := ∀ t, r = .next t → KeepsForm s t

@[simp] theorem steps_next {s t : State} : Steps s (.next t) ↔ KeepsForm s t :=
  ⟨fun h => h t rfl, fun h _ e => by cases e; exact h⟩

@[simp] theorem steps_refused {s : State} {r : Refusal} : Steps s (.refused r) := fun _ e => by cases e

@[simp] theorem steps_fault {s : State} {f : Fault} : Steps s (.fault f) := fun _ e => by cases e

@[simp] theorem steps_cannot {s : State} : Steps s cannot := steps_refused

theorem Steps.ite {p : Prop} [Decidable p] {s : State} {a b : Result} (ha : Steps s a) (hb : Steps s b) : Steps s (if p then a else b) := by
  split
  · exact ha
  · exact hb

theorem KeepsForm.thenSteps {s t : State} {r : Result} (h : KeepsForm s t) (g : Steps t r) : Steps s r := fun u e => h.trans (g u e)

/-! ## The end of an action -/

/-- An action that stops leaves memory in its form, and one that goes on gives a value of which Q holds. -/
inductive Ends {α : Type} : Except Stop α → (α → Prop) → Prop
  | ok {a : α} {Q : α → Prop} (h : Q a) : Ends (.ok a) Q
  | error {e : Stop} {Q : α → Prop} (h : Formed (stopState e)) : Ends (.error e) Q

variable {α β : Type} {Q : α → Prop} {c : Ctx}

@[simp] theorem ends_ok (a : α) : Ends (.ok a) Q ↔ Q a := ⟨fun h => by cases h; assumption, .ok⟩
@[simp] theorem ends_error (e : Stop) : Ends (.error e) Q ↔ Formed (stopState e) := ⟨fun h => by cases h; assumption, .error⟩
@[simp] theorem stopState_trap (cause : Cause) (info : Word) : stopState (.trap cause info c) = c.s := rfl
@[simp] theorem stopState_wait (w : Wait) : stopState (.wait w c) = c.s := rfl

theorem Ends.trap {cause : Cause} {info : Word} (h : Formed c.s) : Ends (.error (.trap cause info c)) Q := .error h
theorem Ends.wait {w : Wait} (h : Formed c.s) : Ends (.error (.wait w c)) Q := .error h

theorem Ends.mono {P : α → Prop} {x : Except Stop α} (h : Ends x P) (hq : ∀ a, P a → Q a) : Ends x Q := by
  cases h with
  | ok h => exact .ok (hq _ h)
  | error h => exact .error h

@[simp] theorem ends_bind (x : Except Stop β) (f : β → Except Stop α) : Ends (x >>= f) Q ↔ Ends x (fun b => Ends (f b) Q) := by
  cases x with
  | ok b => exact (ends_ok (Q := fun b => Ends (f b) Q) b).symm
  | error e => exact (ends_error e).trans (ends_error (Q := fun b => Ends (f b) Q) e).symm

@[simp] theorem ends_ite {p : Prop} [Decidable p] (x y : Except Stop α) :
    Ends (if p then x else y) Q ↔ (p → Ends x Q) ∧ (¬p → Ends y Q) := by
  split <;> simp [*]

theorem Ends.ite {p : Prop} [Decidable p] {x y : Except Stop α} (hx : Ends x Q) (hy : Ends y Q) : Ends (if p then x else y) Q :=
  (ends_ite x y).2 ⟨fun _ => hx, fun _ => hy⟩

theorem Ends.bind {P : β → Prop} {x : Except Stop β} {f : β → Except Stop α} (h : Ends x P) (hf : ∀ b, P b → Ends (f b) Q) :
    Ends (x >>= f) Q := (ends_bind x f).2 (h.mono hf)

theorem Ends.bindPair {x : Except Stop (β × Ctx)} {f : β × Ctx → Except Stop α} (h : Ends x (fun r => Formed r.2.s))
    (hf : ∀ b c, Formed c.s → Ends (f (b, c)) Q) : Ends (x >>= f) Q := h.bind fun r hr => hf r.1 r.2 hr

theorem ends_endState (x : Except Stop Ctx) : Ends x (fun c => Formed c.s) ↔ Formed (endState x) := by
  match x with
  | .ok c => exact ends_ok c
  | .error (.trap ..) => exact ends_error _
  | .error (.wait ..) => exact ends_error _

/-- An instruction keeps the form of memory when its own meaning does. -/
theorem issue_steps (i : Instr) (s : State) (m : Meaning) (hm : ∀ c, Formed c.s → Ends (m c) (fun c => Formed c.s)) :
    Steps s (issue i s m) := fun t ht => issue_keeps i s t m (fun c h => (ends_endState _).1 (hm c h)) ht

/-! ## Checks -/

/-- A check that stops, if it does, in the state in which it is made. -/
def Checks {α : Type} (c : Ctx) (x : Except Stop α) : Prop := ∀ e, x = .error e → stopState e = c.s

theorem Checks.endsValue {x : Except Stop α} (hx : Checks c x) (h : Formed c.s) : Ends x Q ↔ ∀ a, x = .ok a → Q a := by
  cases x with
  | ok a => simp
  | error e => simpa [hx e rfl] using h

theorem Checks.ends {x : Except Stop Unit} {Q : Unit → Prop} (hx : Checks c x) (h : Formed c.s) : Ends x Q ↔ (x = .ok () → Q ()) := by
  cases x with
  | ok u => simp
  | error e => simpa [hx e rfl] using h

theorem checks_ok {a : α} : Checks c (.ok a) := fun _ he => by cases he

theorem checks_error {e : Stop} (h : stopState e = c.s) : Checks (α := α) c (.error e) := fun _ he => by cases he; exact h

theorem Checks.bind {x : Except Stop Unit} {f : Unit → Except Stop α} (hx : Checks c x) (hf : Checks c (f ())) : Checks c (x >>= f) := by
  cases x with
  | ok u => exact hf
  | error e => exact fun _ he => by cases he; exact hx e rfl

theorem Checks.ite {p : Prop} [Decidable p] {x y : Except Stop α} (hx : Checks c x) (hy : Checks c y) : Checks c (if p then x else y) := by
  split
  · exact hx
  · exact hy

theorem Checks.forM (f : α → Except Stop Unit) (hf : ∀ a, Checks c (f a)) (l : List α) : Checks c (l.forM f) := by
  induction l with
  | nil => exact checks_ok
  | cons a l ih => exact (hf a).bind ih

theorem need_checks (b : Bool) (cause : Cause) (info : Word) : Checks c (need b cause info c) := fun _ he => need_mem he

theorem legal_checks (b : Bool) : Checks c (legal b c) := need_checks _ _ _
theorem tagsOk_checks (b : Bool) : Checks c (tagsOk b c) := need_checks _ _ _
theorem notAtLoopEnd_checks : Checks c (notAtLoopEnd c) := legal_checks _
theorem vecLegal_checks (rs : List VNum) (d : Option VNum) : Checks c (vecLegal c rs d) := legal_checks _
theorem needOpen_checks (v : VNum) (js : List Nat) : Checks c (needOpen c v js) := need_checks _ _ _
theorem needRoom_checks : Checks c (needRoom c) := checks_ok.ite (checks_error rfl)
theorem afterAll_checks : Checks c (afterAll c) := checks_ok.ite (checks_error rfl)
theorem inTurn_checks (pas : List Nat) : Checks c (inTurn c pas) := Checks.ite (checks_error rfl) checks_ok

theorem copyTag_checks (d : VNum) : Checks c (copyTag c d) := by
  unfold copyTag
  split
  · exact tagsOk_checks _
  · exact checks_ok

theorem needElems_checks (o : Operand) (es : List Nat) : Checks c (needElems c o es) := by
  unfold needElems
  split
  · exact checks_ok
  · exact (needOpen_checks _ _).bind (Checks.ite (needOpen_checks _ _) checks_ok)

theorem stripOk_checks (es : List Nat) (n : Nat) (ch : Channel) : Checks c (stripOk c es n ch) := by
  unfold stripOk
  dsimp only
  split
  · exact checks_error rfl
  · exact Checks.ite (checks_error rfl) checks_ok

theorem arrived_checks (v : VNum) (es : List Nat) : Checks c (arrived c v es) :=
  Checks.ite (checks_error rfl) (Checks.forM _ (fun _ => stripOk_checks _ _ _) _)

theorem readable_checks (v : VNum) (es : List Nat) : Checks c (readable c v es) :=
  Checks.ite (checks_error rfl) (arrived_checks _ _)

theorem released_checks (v : VNum) : Checks c (released c v) :=
  Checks.ite (checks_error rfl) (Checks.ite (checks_error rfl) checks_ok)

theorem settled_checks (v : VNum) : Checks c (settled c v) := Checks.ite (checks_error rfl) (released_checks _)

theorem notStrip_checks (v : VNum) : Checks c (notStrip c v) := by
  unfold notStrip
  split
  · exact checks_ok
  · exact checks_error rfl

theorem writable_checks (v : VNum) : Checks c (writable c v) := (settled_checks v).bind (notStrip_checks v)
theorem changeable_checks (v : VNum) : Checks c (changeable c v) := (released_checks v).bind (notStrip_checks v)

theorem onScales_checks {f : VNum → List Nat → Except Stop Unit} (hf : ∀ v es, Checks c (f v es)) (r : VReg) (js : List Nat) :
    Checks c (onScales f c r js) := Checks.ite (hf _ _) checks_ok

theorem onOperand_checks {f : VNum → List Nat → Except Stop Unit} (hf : ∀ v es, Checks c (f v es)) (o : Operand) (es : List Nat) :
    Checks c (onOperand f c o es) := by
  unfold onOperand
  split
  · exact (hf _ _).bind (onScales_checks hf _ _)
  · exact checks_ok

theorem readableScales_checks (r : VReg) (js : List Nat) : Checks c (readableScales c r js) := onScales_checks readable_checks r js
theorem readableOp_checks (o : Operand) (es : List Nat) : Checks c (readableOp c o es) := onOperand_checks readable_checks o es
theorem arrivedOp_checks (o : Operand) (es : List Nat) : Checks c (arrivedOp c o es) := onOperand_checks arrived_checks o es

theorem needCopy_checks (d : VNum) (wg : Nat) : Checks c (needCopy c d wg) := by
  unfold needCopy
  split
  · exact (writable_checks _).bind ((needOpen_checks _ _).bind (needOpen_checks _ _))
  · exact checks_ok

theorem residueOk_checks : Checks c (residueOk c) := by
  unfold residueOk
  split
  · exact checks_error rfl
  · exact checks_ok

theorem collReady_checks (d a : VNum) : Checks c (collReady c d a) := by
  unfold collReady
  refine Checks.ite (Checks.bind (checks_error rfl) ?_) (Checks.bind checks_ok ?_) <;>
    exact Checks.ite checks_ok
      ((writable_checks _).bind ((readableOp_checks _ _).bind ((needOpen_checks _ _).bind (needElems_checks _ _))))

section
variable {Q : Unit → Prop} (h : Formed c.s)
include h

@[simp] theorem ends_need (b : Bool) (cause : Cause) (info : Word) : Ends (need b cause info c) Q ↔ (need b cause info c = .ok () → Q ()) :=
  (need_checks b cause info).ends h
@[simp] theorem ends_legal (b : Bool) : Ends (legal b c) Q ↔ (legal b c = .ok () → Q ()) :=
  (legal_checks b).ends h
@[simp] theorem ends_tagsOk (b : Bool) : Ends (tagsOk b c) Q ↔ (tagsOk b c = .ok () → Q ()) :=
  (tagsOk_checks b).ends h
@[simp] theorem ends_notAtLoopEnd : Ends (notAtLoopEnd c) Q ↔ (notAtLoopEnd c = .ok () → Q ()) :=
  notAtLoopEnd_checks.ends h
@[simp] theorem ends_vecLegal (rs : List VNum) (d : Option VNum) : Ends (vecLegal c rs d) Q ↔ (vecLegal c rs d = .ok () → Q ()) :=
  (vecLegal_checks rs d).ends h
@[simp] theorem ends_needOpen (v : VNum) (js : List Nat) : Ends (needOpen c v js) Q ↔ (needOpen c v js = .ok () → Q ()) :=
  (needOpen_checks v js).ends h
@[simp] theorem ends_needRoom : Ends (needRoom c) Q ↔ (needRoom c = .ok () → Q ()) :=
  needRoom_checks.ends h
@[simp] theorem ends_afterAll : Ends (afterAll c) Q ↔ (afterAll c = .ok () → Q ()) :=
  afterAll_checks.ends h
@[simp] theorem ends_inTurn (pas : List Nat) : Ends (inTurn c pas) Q ↔ (inTurn c pas = .ok () → Q ()) :=
  (inTurn_checks pas).ends h
@[simp] theorem ends_copyTag (d : VNum) : Ends (copyTag c d) Q ↔ (copyTag c d = .ok () → Q ()) :=
  (copyTag_checks d).ends h
@[simp] theorem ends_needElems (o : Operand) (es : List Nat) : Ends (needElems c o es) Q ↔ (needElems c o es = .ok () → Q ()) :=
  (needElems_checks o es).ends h
@[simp] theorem ends_arrived (v : VNum) (es : List Nat) : Ends (arrived c v es) Q ↔ (arrived c v es = .ok () → Q ()) :=
  (arrived_checks v es).ends h
@[simp] theorem ends_readable (v : VNum) (es : List Nat) : Ends (readable c v es) Q ↔ (readable c v es = .ok () → Q ()) :=
  (readable_checks v es).ends h
@[simp] theorem ends_settled (v : VNum) : Ends (settled c v) Q ↔ (settled c v = .ok () → Q ()) :=
  (settled_checks v).ends h
@[simp] theorem ends_writable (v : VNum) : Ends (writable c v) Q ↔ (writable c v = .ok () → Q ()) :=
  (writable_checks v).ends h
@[simp] theorem ends_changeable (v : VNum) : Ends (changeable c v) Q ↔ (changeable c v = .ok () → Q ()) :=
  (changeable_checks v).ends h
@[simp] theorem ends_readableScales (r : VReg) (js : List Nat) : Ends (readableScales c r js) Q ↔ (readableScales c r js = .ok () → Q ()) :=
  (readableScales_checks r js).ends h
@[simp] theorem ends_readableOp (o : Operand) (es : List Nat) : Ends (readableOp c o es) Q ↔ (readableOp c o es = .ok () → Q ()) :=
  (readableOp_checks o es).ends h
@[simp] theorem ends_arrivedOp (o : Operand) (es : List Nat) : Ends (arrivedOp c o es) Q ↔ (arrivedOp c o es = .ok () → Q ()) :=
  (arrivedOp_checks o es).ends h
@[simp] theorem ends_needCopy (d : VNum) (wg : Nat) : Ends (needCopy c d wg) Q ↔ (needCopy c d wg = .ok () → Q ()) :=
  (needCopy_checks d wg).ends h
@[simp] theorem ends_residueOk : Ends (residueOk c) Q ↔ (residueOk c = .ok () → Q ()) :=
  residueOk_checks.ends h
@[simp] theorem ends_collReady (d a : VNum) : Ends (collReady c d a) Q ↔ (collReady c d a = .ok () → Q ()) :=
  (collReady_checks d a).ends h

end

end Sys2Proof.Machine
end

section
/-! SUPPORT. What the shared operations of instructions leave of memory's canonical form: the store buffer, element accesses, places, waypoints
and the film. -/

namespace Sys2Proof.Machine

variable {c : Ctx}

/-! ## The store buffer and element accesses -/

theorem Ctx.global_formed {f : State → State} (h : Formed c.s) (hf : ∀ s, KeepsForm s (f s)) : Formed (c.global f).s :=
  global_keeps c f (hf _) h

@[simp] theorem Ctx.perform_formed (h : Formed c.s) (l keep : List BufStore) : Formed (c.perform l keep).s :=
  Ctx.global_formed h fun s => performStores_keeps s c.id l

@[simp] theorem Ctx.drainStores_formed (h : Formed c.s) : Formed c.drainStores.s := Ctx.perform_formed h _ _
@[simp] theorem Ctx.drainOverlap_formed (h : Formed c.s) (pa n : Nat) : Formed (c.drainOverlap pa n).s := Ctx.perform_formed h _ _

@[simp] theorem Ctx.bufferStore_formed (h : Formed c.s) (b : BufStore) : Formed (c.bufferStore b).s := by
  unfold Ctx.bufferStore
  split
  · exact h
  · exact Ctx.perform_formed h _ _

@[simp] theorem Ctx.performNow_formed (h : Formed c.s) (l keep : List ElemAccess) : Formed (c.performNow l keep).s :=
  Ctx.global_formed h fun s => performElems_keeps s c.id l

@[simp] theorem Ctx.drainElems_formed (h : Formed c.s) : Formed c.drainElems.s := Ctx.performNow_formed h _ _

@[simp] theorem Ctx.drainSeqs_formed (h : Formed c.s) (hit : ElemAccess → Bool) : Formed (c.drainSeqs hit).s := by
  unfold Ctx.drainSeqs
  dsimp only
  split
  · exact h
  · exact Ctx.performNow_formed h _ _

@[simp] theorem Ctx.drainMeeting_formed (h : Formed c.s) (pas : List Nat) : Formed (c.drainMeeting pas).s := Ctx.drainSeqs_formed h _

@[simp] theorem Ctx.writeRows_formed (h : Formed c.s) (read pas : List Nat) : Formed (c.writeRows read pas).s := writeRows_keeps c read pas h

/-- A read of the array leaves memory as it is. -/
@[simp] theorem Ctx.readAccess_formed (h : Formed c.s) (l : List (Nat × Bool)) (b : Bool) (src : ActSource) :
    Formed (c.global (fun s => readAccess s l b src)).s :=
  Ctx.global_formed h fun s => KeepsForm.of_mem (readAccess_mem s l b src)

@[simp] theorem Ctx.readBlockAt_formed (h : Formed c.s) (p : Nat × Nat) : Formed (c.readBlockAt p).s := Ctx.readAccess_formed h _ _ _

/-! ## Scalar places -/

/-- A translation for the instruction's hart leaves memory as it is. -/
theorem Formed.translate (h : Formed c.s) {w : Want} {va : Nat} {s : State} {r : Except Cause (Nat × Nat)}
    (e : hartTranslate c.s c.h w va = (s, r)) : Formed s :=
  h.of_mem (by rw [← hartTranslate_mem c.s c.h w va, e])

theorem place_ends (h : Formed c.s) (va : Word) (n : Nat) (w : Want) : Ends (place c va n w) (fun r => Formed r.2.s) := by
  unfold place
  refine .ite (.error h) (.ite (.ite (.ok h) (.error h)) ?_)
  split
  · exact .error (h.translate ‹_›)
  · exact .ok (h.translate ‹_›)

theorem placeGeneric_ends (h : Formed c.s) (va : Word) (n : Nat) (w : Want) : Ends (placeGeneric c va n w) (fun r => Formed r.2.s) := by
  obtain ⟨hok, herror⟩ := placeGeneric_mem c va n w
  cases e : placeGeneric c va n w with
  | ok r => exact .ok (h.of_mem (hok r.1 r.2 e))
  | error e' => exact .error (h.of_mem (herror e' e))

theorem blockAt_ends (h : Formed c.s) (va : Word) : Ends (blockAt c va) (fun r => Formed r.2.s) := placeGeneric_ends h _ _ _

theorem startRecordAt_ends (h : Formed c.s) (va : Word) : Ends (startRecordAt c va) (fun r => Formed r.2.s) := by
  obtain ⟨hok, herror⟩ := startRecordAt_mem c va
  cases e : startRecordAt c va with
  | ok r => exact .ok (h.of_mem (hok r.1 r.2 e))
  | error e' => exact .error (h.of_mem (herror e' e))

@[simp] theorem ends_needGood (h : Formed c.s) (pa n : Nat) (info : Word) {Q : Unit → Prop} :
    Ends (needGood c pa n info) Q ↔ (needGood c pa n info = .ok () → Q ()) := by
  cases e : needGood c pa n info with
  | ok u => simp
  | error e' => simpa using h.of_mem (needGood_mem e)

@[simp] theorem ends_placeGood (h : Formed c.s) (va : Word) (n : Nat) (filmed : Bool) (p : Place) {Q : Unit → Prop} :
    Ends (placeGood c va n filmed p) Q ↔ (placeGood c va n filmed p = .ok () → Q ()) := by
  cases p with
  | tcm off => simp [placeGood]
  | mem pa leaf => cases hr : filmed && c.h.replays <;> simp [placeGood, hr, h]

theorem readPlace_ends (h : Formed c.s) (va : Word) (n : Nat) (p : Place) : Ends (readPlace c va n p) (fun r => Formed r.2.s) := by
  cases p with
  | tcm off => exact .ok h
  | mem pa leaf => simp [readPlace, h]

@[simp] theorem writePlace_formed (h : Formed c.s) (data : List Byte) (p : Place) : Formed (writePlace c data p).s := by
  cases p with
  | tcm off => exact h
  | mem pa leaf => exact Ctx.bufferStore_formed h _

/-! ## Waypoints and the film -/

theorem applyWaypoints_ends (h : Formed c.s) (hit : Nat × Nat → Bool) : Ends (applyWaypoints c hit) (fun c => Formed c.s) :=
  (ends_endState _).2 (h.of_mem (congrArg State.mem (applyWaypoints_state c hit)))

theorem dataWaypoints_ends (h : Formed c.s) (reads writes : List (Nat × Nat)) :
    Ends (dataWaypoints c reads writes) (fun c => Formed c.s) := applyWaypoints_ends h _

@[simp] theorem diverge_ends {α : Type} {Q : α → Prop} (h : Formed c.s) : Ends (diverge c) Q := .error h

@[simp] theorem Ctx.noteFull_s : c.noteFull.s = c.s := by
  unfold Ctx.noteFull
  split <;> rfl

theorem nextRecord_ends (h : Formed c.s) (kind : Nat) : Ends (nextRecord c kind) (fun r => Formed r.2.s) := by
  unfold nextRecord
  split
  · dsimp only
    split
    · exact diverge_ends h
    · split
      · exact diverge_ends h
      · have hread : ∀ {d : Ctx} (l : List (Nat × Bool)) (ps : List Nat), Formed d.s →
            Formed (d.global fun s => recordPieces (readAccess s l false (.base d.id)) 1 ps).s := fun l ps hd =>
          Ctx.global_formed hd fun s => KeepsForm.of_mem ((recordPieces_mem _ _ _).trans (readAccess_mem _ _ _ _))
        split
        · exact diverge_ends (hread _ _ (h.translate ‹_›))
        · exact .ok (writeBytes_keeps _ _ _ _ (hread _ _ (h.translate ‹_›)))
  · exact diverge_ends h

@[simp] theorem filmRoom_mem (s : State) (h : Hart) : (filmRoom s h).1.mem = s.mem := by
  unfold filmRoom
  split
  · rfl
  · exact ringPlace_mem _ _ _

theorem filmGate_ends (h : Formed c.s) (kind : Nat) : Ends (filmGate c kind) (fun r => Formed r.2.s) := by
  have hroom := filmRoom_mem c.s c.h
  unfold filmGate
  split
  · exact .ok h
  · split
    · exact .ok h
    · exact (nextRecord_ends h kind).bindPair fun _ _ h => .ok h
    · split
      · exact .ok h
      · split
        · rename_i e
          rw [e] at hroom
          exact .ok (h.of_mem hroom)
        · rename_i e
          rw [e] at hroom
          simpa using h.of_mem hroom

@[simp] theorem keepFilm_mem (bytes : List Byte) : (keepFilm c bytes).s.mem = c.s.mem := by
  unfold keepFilm
  dsimp only
  split <;> rfl

theorem keepFilm_formed (h : Formed c.s) (bytes : List Byte) : Formed (keepFilm c bytes).s := h.of_mem (keepFilm_mem bytes)

@[simp] theorem filmRecord_formed (h : Formed c.s) (pa kind : Nat) (pred : Bool) (value : List Byte) :
    Formed (filmRecord c pa kind pred value).s := by
  have hk := fun bytes (g : Hart) => keepFilm_formed (c := { c with s := (putRecord c.s c.h 2 pa bytes).1, h := g })
    (putRecord_keeps _ _ _ _ _ h) bytes
  unfold filmRecord
  dsimp only
  split
  · simpa using hk _ _
  · exact hk _ _

theorem filmed_ends (h : Formed c.s) (kind : Nat) {run : Ctx → Except Stop (FilmVal × Ctx)} {replayed : Ctx → FilmVal → Ctx}
    {result : FilmVal → Ctx → Ctx} (hrun : ∀ c, Formed c.s → Ends (run c) (fun r => Formed r.2.s))
    (hreplayed : ∀ c v, Formed c.s → Formed (replayed c v).s) (hresult : ∀ v c, Formed c.s → Formed (result v c).s) :
    Ends (filmed kind c run replayed result) (fun c => Formed c.s) := by
  unfold filmed
  refine (filmGate_ends h kind).bindPair fun g c' h' => ?_
  cases g with
  | replay v => exact .ok (hresult v _ (hreplayed _ v h'))
  | pass =>
    exact (hrun c' h').bindPair fun v c'' h'' => .ok (hresult v _ h'')
  | record pa =>
    exact (hrun c' h').bindPair fun v c'' h'' => .ok (hresult v _ (filmRecord_formed h'' _ _ _ _))

theorem digestGate_ends (h : Formed c.s) (kind : Nat) (filmed : Bool) : Ends (digestGate kind filmed c) (fun r => Formed r.2.s) := by
  unfold digestGate
  exact .ite (.ok h) (.ite (.ok h) ((filmGate_ends h kind).bindPair fun _ _ h => .ok h))

theorem filmedDigest_ends (h : Formed c.s) (kind : Nat) (g : Option FilmDo) (ws : List LaneWord) :
    Ends (filmedDigest kind c g ws) (fun c => Formed c.s) := by
  unfold filmedDigest
  split
  · exact .ok h
  · exact .ok (filmRecord_formed h _ _ _ _)
  · split
    · refine (nextRecord_ends h kind).bindPair fun b c' h' => ?_
      exact .ite (.ok h') (diverge_ends h)
    · exact .ok h

theorem filmedNow_ends (h : Formed c.s) (kind : Nat) (ws : List LaneWord) : Ends (filmedNow kind c ws) (fun c => Formed c.s) :=
  (digestGate_ends h kind true).bindPair fun g _ h' => filmedDigest_ends h' kind g ws

end Sys2Proof.Machine
end

section
/-! SUPPORT. The scalar and the vector register instructions keep memory's canonical form (R149 to R170, R190 to R216). -/

namespace Sys2Proof.Machine

/-! ## Scalar instructions (R149 to R170) -/

@[simp] theorem Ctx.transfer_s (c : Ctx) (target : Word) : (c.transfer target).s = c.s := rfl
@[simp] theorem Ctx.jump_s (c : Ctx) (target : Word) : (c.jump target).s = c.s := rfl

/-- An instruction whose meaning leaves the module as it is. -/
theorem issue_ret_steps (i : Instr) (s : State) (f : Ctx → Ctx) (hf : ∀ c, (f c).s = c.s) : Steps s (issue i s fun c => .ok (f c)) :=
  issue_steps _ _ _ fun c h => by simpa [hf] using h

theorem binary_steps (i : Instr) (d a b : XReg) (f : Word → Word → Word) (s : State) : Steps s (binary i d a b f s) :=
  issue_ret_steps _ _ _ fun _ => rfl

theorem unary_steps (i : Instr) (d a : XReg) (f : Word → Word) (s : State) : Steps s (unary i d a f s) :=
  issue_ret_steps _ _ _ fun _ => rfl

theorem floatOp_steps (i : Instr) (d a b : XReg) (t : BitVec 3) (f : Fmt → RMode → FVal → FVal → FVal → Nat × Nat) (s : State) :
    Steps s (floatOp i d a b t f s) := issue_ret_steps _ _ _ fun _ => rfl

theorem floatMin_steps (i : Instr) (d a b : XReg) (t : BitVec 3) (isMax : Bool) (s : State) : Steps s (floatMin i d a b t isMax s) :=
  issue_ret_steps _ _ _ fun _ => rfl

theorem execFcvt_steps (d a : XReg) (u t : BitVec 3) (s : State) : Steps s (execFcvt d a u t s) := issue_steps _ _ _ fun c h => by
  simp [retF, h]

theorem execBp_steps (p : PReg) (neg : Bool) (off : BitVec 22) (s : State) : Steps s (execBp p neg off s) := issue_steps _ _ _ fun c h => by
  simp [h]

theorem execJal_steps (d : XReg) (imm : BitVec 14) (s : State) : Steps s (execJal d imm s) := issue_steps _ _ _ fun c h => by
  simp [h]

theorem execJalr_steps (d a : XReg) (imm : BitVec 14) (s : State) : Steps s (execJalr d a imm s) := issue_steps _ _ _ fun c h => by
  simp [h]

theorem execLoop_steps (a : XReg) (imm : BitVec 14) (s : State) : Steps s (execLoop a imm s) := issue_steps _ _ _ fun c h => by
  simp [h]

theorem load_steps (i : Instr) (d a : XReg) (imm : BitVec 13) (n : Nat) (sext : Bool) (s : State) : Steps s (load i d a imm n sext s) := by
  refine issue_steps _ _ _ fun c h => (place_ends h _ _ _).bindPair fun p c h => ?_
  refine (ends_bind _ _).2 ((ends_placeGood h _ _ _ _).2 fun _ => (dataWaypoints_ends h _ _).bind fun c h => ?_)
  cases p with
  | tcm off => exact .ok h
  | mem pa leaf =>
    refine .ite (filmed_ends h _ (fun c h => ?_) (fun _ _ h => h) (fun _ _ h => h)) ?_
    · exact (readPlace_ends h _ _ _).bindPair fun _ _ h => .ok h
    · simp only [ends_bind]
      exact (readPlace_ends h _ _ _).mono fun _ h => .ok (.ok h)

theorem store_steps (i : Instr) (r a : XReg) (imm : BitVec 13) (n : Nat) (s : State) : Steps s (store i r a imm n s) :=
  issue_steps _ _ _ fun _ h => (place_ends h _ _ _).bind fun _ h => (dataWaypoints_ends h _ _).bind fun _ h => .ok (writePlace_formed h _ _)

theorem amoWrite_formed {c : Ctx} (h : Formed c.s) (read : List Nat) (n m : Nat) (p : Place) : Formed (amoWrite c read n m p).s := by
  cases p with
  | tcm off => exact writePlace_formed h _ _
  | mem pa leaf => exact storeBytes_keeps _ _ _ _ (Ctx.writeRows_formed h _ _)

theorem amo_steps (i : Instr) (op : AmoOp) (d a b : XReg) (ord : BitVec 2) (dw : Bool) (s : State) : Steps s (amo i op d a b ord dw s) := by
  refine issue_steps _ _ _ fun c h => (place_ends h _ _ _).bindPair fun p c h => ?_
  have hdrained : Formed (if ord.toNat ≥ 2 then c.drainStores else match p with
      | .mem pa _ => c.drainOverlap pa (if dw then 8 else 4)
      | .tcm _ => c).s := by
    split
    · exact Ctx.drainStores_formed h
    · split
      · exact Ctx.drainOverlap_formed h _ _
      · exact h
  refine (ends_bind _ _).2 ((ends_placeGood hdrained _ _ _ _).2 fun _ => (dataWaypoints_ends hdrained _ _).bind fun c h => ?_)
  refine filmed_ends h _ (fun c h => ?_) (fun c v h => ?_) (fun _ _ h => h)
  · refine (readPlace_ends h _ _ _).bindPair fun m c h => ?_
    refine .ok ?_
    dsimp only
    split
    · exact h
    · split
      · exact h.of_mem (hubFetchAdd_mem _ _ _)
      · exact amoWrite_formed h _ _ _ _
    · exact amoWrite_formed h _ _ _ _
  · split
    · exact writePlace_formed h _ _
    · exact h

theorem execFence_steps (sc : BitVec 3) (ord : BitVec 2) (s : State) : Steps s (execFence sc ord s) := issue_steps _ _ _ fun c h => by
  split <;> simp [h]

/-! ## Elementwise instructions, masks and reductions (R190 to R195) -/

@[simp] theorem Ctx.writeV_s (c : Ctx) (d : VNum) (w : Nat) (es : List Elem) : (c.writeV d w es).s = c.s := rfl
@[simp] theorem stopState_poisonAt (c : Ctx) (what : Named) (n : Nat) : stopState (poisonAt c what n) = c.s := rfl
@[simp] theorem ends_ret {c : Ctx} {Q : Ctx → Prop} (d : XReg) (v : Word) : Ends (ret d v c) Q ↔ Q (c.setX d v) := ends_ok _

theorem elementwise_steps (i : Instr) (op : VOp) (part : Nat) (d a : VNum) (b : BSource) (s : State) :
    Steps s (elementwise i op part d a b s) := issue_steps _ _ _ fun c h => by
  simp [h]

theorem compareElems_steps (i : Instr) (cc : VCc) (part : Nat) (k : KReg) (a : VNum) (b : BSource) (s : State) :
    Steps s (compareElems i cc part k a b s) := issue_steps _ _ _ fun c h => by
  simp only [ends_bind, ends_ite, ends_ok, ends_vecLegal h, ends_tagsOk h, ends_readableOp h, ends_needElems h]
  refine fun _ => ⟨fun _ => h, fun _ _ _ _ _ _ => ?_⟩
  split <;> simp [h]

theorem selectElems_steps (i : Instr) (part : Nat) (d a : VNum) (b : BSource) (s : State) : Steps s (selectElems i part d a b s) :=
  issue_steps _ _ _ fun c h => by
  simp [h]

theorem fill_steps (i : Instr) (d : VNum) (intOnly : Bool) (f : Ctx → Nat → Nat) (s : State) : Steps s (fill i d intOnly f s) :=
  issue_steps _ _ _ fun c h => by
  simp [h]

theorem execVext_steps (d : XReg) (a : VNum) (b : XReg) (ca dt : Bool) (s : State) : Steps s (execVext d a b ca dt s) :=
  issue_steps _ _ _ fun c h => by
  simp [h]

theorem execVins_steps (d : VNum) (x b : XReg) (dt : Bool) (s : State) : Steps s (execVins d x b dt s) := issue_steps _ _ _ fun c h => by
  simp [h]

theorem maskOp_steps (i : Instr) (d : KReg) (f : Ctx → Nat → Bool) (s : State) : Steps s (maskOp i d f s) := issue_steps _ _ _ fun c h => by
  simp [h]

theorem maskOut_steps (i : Instr) (f : Ctx → Ctx) (s : State) (hf : ∀ c, (f c).s = c.s) : Steps s (maskOut i f s) :=
  issue_steps _ _ _ fun c h => by
  simp [h, hf]

theorem reduction_steps (i : Instr) (op : RedOp) (d : XReg) (a : VNum) (b : XReg) (wide : Bool) (s : State) :
    Steps s (reduction i op d a b wide s) := issue_steps _ _ _ fun c h => by
  simp only [ends_bind, ends_ite, ends_ret, ends_vecLegal h]
  refine fun _ => ⟨fun _ => h, fun _ => ?_⟩
  split
  · exact .error h
  · simp only [ends_bind, ends_readableOp h, ends_needElems h]
    intro _ _
    split
    · exact .error h
    · split <;> exact .ok h

/-! ## Permutes, compress and expand (R209, R210) -/

theorem permute_steps (i : Instr) (d a : VNum) (b : Option VNum) (f : Ctx → Nat → Nat → Pick) (s : State) :
    Steps s (permute i d a b f s) := issue_steps _ _ _ fun c h => by
  cases b <;> simp [h]

theorem compress_steps (i : Instr) (d a : VNum) (b : Option VNum) (s : State) : Steps s (compress i d a b s) :=
  issue_steps _ _ _ fun c h => by
  cases b <;> simp [h]

theorem execVexpd_steps (d a : VNum) (ca dt : Bool) (s : State) : Steps s (execVexpd d a ca dt s) := issue_steps _ _ _ fun c h => by
  simp [h]

end Sys2Proof.Machine
end

section
/-! SUPPORT. The row instructions and the instructions that configure vectors keep memory's canonical form (R180 to R189, R133). -/

namespace Sys2Proof.Machine

variable {c : Ctx}

theorem translateRow_checks (va : Word) (reg : Option VNum) (rd wr : Bool) : Checks c (translateRow c va reg rd wr) := by
  refine Checks.ite (checks_error rfl) (Checks.ite (checks_error rfl) ?_)
  split
  · exact checks_error rfl
  · exact Checks.ite (checks_error rfl) (Checks.ite (checks_error rfl) (Checks.ite (checks_error rfl)
      (Checks.ite (checks_error rfl) checks_ok)))

@[simp] theorem ends_translateRow {Q : Nat × Nat → Prop} (h : Formed c.s) (va : Word) (reg : Option VNum) (rd wr : Bool) :
    Ends (translateRow c va reg rd wr) Q ↔ ∀ r, translateRow c va reg rd wr = .ok r → Q r :=
  (translateRow_checks va reg rd wr).endsValue h

@[simp] theorem askWays_mem (s : State) (id : Nat) (h : Hart) (ways : List Nat) (act : WayAction) : (askWays s id h ways act).mem = s.mem :=
  foldl_mem _ _ _ fun _ _ => ask_mem _ _ _

@[simp] theorem activateWays_mem (s : State) (id : Nat) (h : Hart) (v row n : Nat) : (activateWays s id h v row n).mem = s.mem :=
  foldl_mem _ _ _ fun _ _ => ask_mem _ _ _

@[simp] theorem closeWays_mem (s : State) (id : Nat) (h : Hart) (v : VNum) : (closeWays s id h v).mem = s.mem := askWays_mem _ _ _ _ _
@[simp] theorem closeAll_mem (s : State) (id : Nat) (h : Hart) (vs : List VNum) : (closeAll s id h vs).mem = s.mem := askWays_mem _ _ _ _ _

theorem openRow_steps (i : Instr) (sure : Bool) (v : VNum) (a : XReg) (n : BitVec 3) (s : State) : Steps s (openRow i sure v a n s) := by
  refine issue_steps _ _ _ fun c h => ?_
  simp only [ends_bind, ends_legal h, ends_changeable h, ends_translateRow h]
  refine fun _ _ r _ => (dataWaypoints_ends h _ _).mono fun c h => ?_
  have hstart {d : Ctx} (hd : Formed d.s) (ways : Nat) :
      Formed (activateWays (closeWays d.s d.id d.h v) d.id d.h v.toNat (rowOf r.1) ways) := hd.of_mem (by simp)
  simp only [ends_ite, ends_bind, ends_needRoom h, ends_settled h, ends_inTurn h]
  refine ⟨fun _ _ => .ok (hstart h _), fun _ _ _ => (digestGate_ends h _ _).mono fun ⟨film, c⟩ h => ?_⟩
  have hread (ways : Nat) (pas pieces : List Nat) :=
    (hstart (Ctx.drainMeeting_formed h pas) ways).of_mem (recordPieces_mem _ 0 pieces)
  split
  · exact .error (hread _ _ _)
  · exact (filmedDigest_ends (hread _ _ _) _ _ _).bind fun _ h => .ok h

theorem writeBack_steps (i : Instr) (v : VNum) (a : XReg) (choose : Ctx → Except Stop (List Nat)) (s : State)
    (hchoose : ∀ c, Checks c (choose c)) : Steps s (writeBack i v a choose s) := by
  refine issue_steps _ _ _ fun c h => ?_
  simp only [ends_bind, ends_legal h, ends_translateRow h, ends_need h, (hchoose c).endsValue h]
  intro _ r _ _ js _
  simp only [ends_ite, ends_bind, ends_arrived h, ends_readable h]
  refine (fun hrest => ⟨fun _ _ => hrest, fun _ _ => hrest⟩) ((dataWaypoints_ends h _ _).mono fun c h => ?_)
  simp only [ends_needRoom h, ends_inTurn h]
  refine ⟨fun _ _ => .ok (h.of_mem (askWays_mem _ _ _ _ _)), fun _ _ => ?_⟩
  have hwritten (pas : List Nat) (ws : List (Nat × LaneWord)) :
      Formed (dropLines (writeWords (recordPieces (c.drainMeeting pas).s 0 (partWords ws)) ws) pas) :=
    Formed.of_mem (writeWords_keeps _ _ ((Ctx.drainMeeting_formed h _).of_mem (recordPieces_mem _ _ _))) (dropLines_mem _ _)
  exact .ok ((hwritten _ _).of_mem (askWays_mem _ _ _ _ _))

theorem execWbk_steps (v : VNum) (a : XReg) (k : KReg) (s : State) : Steps s (execWbk v a k s) :=
  writeBack_steps _ _ _ _ _ fun _ => (needOpen_checks _ _).bind checks_ok

theorem execPre_steps (v : VNum) (s : State) : Steps s (execPre v s) := issue_steps _ _ _ fun c h => by
  simpa [h] using fun _ _ => h.of_mem (closeWays_mem _ _ _ _)

theorem execPreall_steps (s : State) : Steps s (execPreall s) := issue_steps _ _ _ fun c h => by
  refine (ends_bind _ _).2 (((Checks.forM _ (fun v => changeable_checks v) _).ends h).2 fun _ => ?_)
  exact .ok (h.of_mem (closeAll_mem _ _ _ _))

theorem execRef_steps (n : BitVec 8) (s : State) : Steps s (execRef n s) := issue_steps _ _ _ fun c h => by
  have hask : Formed (if c.h.refDone < n.toNat then { c with s := c.h.columns.foldl (fun s col =>
      ask s col [rowSetOf (some c.id) (decide (c.h.refDone + 1 < n.toNat)) (s.col col).cycles]) c.s } else c).s := by
    split
    · exact h.of_mem (foldl_mem _ _ _ fun _ _ => ask_mem _ _ _)
    · exact h
  exact .ite (.error hask) (.ok hask)

theorem execRefn_steps (a : XReg) (s : State) : Steps s (execRefn a s) := issue_steps _ _ _ fun c h => by
  refine (ends_bind _ _).2 ((ends_translateRow h _ _ _ _).2 fun r _ => ?_)
  exact .ok (h.of_mem (foldl_mem _ _ _ fun _ _ => ask_mem _ _ _))

theorem execVgeom_steps (g : BitVec 2) (s : State) : Steps s (execVgeom g s) := issue_steps _ _ _ fun c h => by
  simp only [ends_bind, ends_ite, ends_ok, ends_error, ends_legal h]
  refine fun _ => ⟨fun _ => h, fun _ => ⟨fun _ => h, fun _ => ⟨fun _ => h, fun _ => ?_⟩⟩⟩
  exact h.of_mem (closeAll_mem c.s c.id c.h c.registers)

theorem execVtype_steps (d sc : VNum) (t : BitVec 5) (s : State) : Steps s (execVtype d sc t s) := issue_steps _ _ _ fun c h => by
  simp [h]

theorem execVsetvl_steps (d a : XReg) (w : BitVec 2) (s : State) : Steps s (execVsetvl d a w s) := issue_steps _ _ _ fun c h => by
  simp [h]

theorem execVlopen_steps (d : VNum) (s : State) : Steps s (execVlopen d s) := issue_steps _ _ _ fun c h => by
  simp [h]

theorem execPfx_steps (k : KReg) (pol dt zero : Bool) (v : VNum) (cpen : Bool) (s : State) : Steps s (execPfx k pol dt zero v cpen s) :=
  issue_steps _ _ _ fun c h => by
  simp [h]

end Sys2Proof.Machine
end

section
/-! SUPPORT. The vector memory instructions keep memory's canonical form (R197 to R218). -/

namespace Sys2Proof.Machine

variable {c : Ctx}

/-! ## The checks of the elements -/

theorem translateAll_ends (w : Want) (es : List (Nat × Word)) : ∀ {c : Ctx}, Formed c.s →
    Ends (translateAll c w es) (fun r => Formed r.2.s) := by
  induction es with
  | nil => exact fun h => .ok h
  | cons e es ih =>
    intro c h
    unfold translateAll
    split
    · exact .error h
    · split
      · exact .error (h.translate ‹_›)
      · exact (ih (h.translate ‹_›)).bindPair fun _ _ h => .ok h

theorem sameAttrs_checks (ts : List Touch) : Checks c (sameAttrs c ts) := by
  unfold sameAttrs
  split
  · exact checks_ok
  · split
    · exact checks_error rfl
    · exact checks_ok

theorem checkTouches_ends (h : Formed c.s) (w : Want) (n : Nat) (es : List (Nat × Word)) :
    Ends (checkTouches c w n es) (fun r => Formed r.2.s) := by
  unfold checkTouches
  split
  · exact .error h
  · refine Ends.bindPair (translateAll_ends w es (c := c.countMisses es) h) fun ts c h => ?_
    exact (ends_bind _ _).2 (((sameAttrs_checks ts).ends h).2 fun _ => .ok h)

theorem indexTag_checks (f : VForm) (w : Nat) : Checks c (indexTag c f w) := by
  cases f with
  | unit => exact checks_ok
  | strided s => exact tagsOk_checks _
  | indexed vi o => exact tagsOk_checks _

theorem indexReady_checks (f : VForm) (act : List Nat) : Checks c (indexReady c f act) := by
  cases f with
  | unit => exact checks_ok
  | strided s => exact checks_ok
  | indexed vi o => exact (readable_checks _ _).bind (needOpen_checks _ _)

theorem noPoison_checks (w : Nat) (act : List Nat) (p : Nat → Bool) : Checks c (noPoison c w act p) := by
  unfold noPoison
  split
  · exact checks_error rfl
  · exact checks_ok

theorem indexPoison_checks (f : VForm) (act : List Nat) : Checks c (indexPoison c f act) := by
  cases f with
  | unit => exact checks_ok
  | strided s => exact checks_ok
  | indexed vi o => exact noPoison_checks _ _ _

section
variable {Q : Unit → Prop} (h : Formed c.s)
include h

@[simp] theorem ends_indexTag (f : VForm) (w : Nat) : Ends (indexTag c f w) Q ↔ (indexTag c f w = .ok () → Q ()) :=
  (indexTag_checks f w).ends h
@[simp] theorem ends_indexReady (f : VForm) (act : List Nat) : Ends (indexReady c f act) Q ↔ (indexReady c f act = .ok () → Q ()) :=
  (indexReady_checks f act).ends h
@[simp] theorem ends_noPoison (w : Nat) (act : List Nat) (p : Nat → Bool) :
    Ends (noPoison c w act p) Q ↔ (noPoison c w act p = .ok () → Q ()) := (noPoison_checks w act p).ends h
@[simp] theorem ends_indexPoison (f : VForm) (act : List Nat) : Ends (indexPoison c f act) Q ↔ (indexPoison c f act = .ok () → Q ()) :=
  (indexPoison_checks f act).ends h

end

/-! ## Loads, stores and updates -/

@[simp] theorem sendRemote_formed (h : Formed c.s) (d : VNum) (w : Nat) (ts : List Touch) : Formed (sendRemote c d w ts).s := by
  unfold sendRemote
  induction ts generalizing c with
  | nil => exact h
  | cons t ts ih => exact ih (h.of_mem (sendAccess_mem _ _))

@[simp] theorem orderedLoad_s (w : Nat) (ts : List Touch) : ∀ c : Ctx, (orderedLoad c w ts).1.s = c.s := by
  induction ts with
  | nil => exact fun _ => rfl
  | cons t ts ih =>
    intro c
    unfold orderedLoad
    split
    · exact ih c
    · split
      · rfl
      · exact ih _

theorem awaitRemote_ends (h : Formed c.s) (d : VNum) (w : Nat) (ordered : Bool) (ts : List Touch) :
    Ends (awaitRemote c d w ordered ts) (fun c => Formed c.s) := by
  unfold awaitRemote
  simp only [ends_ite, ends_error, ends_ok, stopState_wait]
  refine ⟨fun _ => h, fun _ => ⟨fun _ => h, fun _ => ⟨fun _ => ?_, fun _ => ⟨fun _ => h, fun _ => sendRemote_formed h _ _ _⟩⟩⟩⟩
  have hs := orderedLoad_s w ts c
  split
  · exact .ok h
  · rename_i e
    rw [e] at hs
    exact .error (sendRemote_formed (h.of_mem (congrArg State.mem hs)) _ _ _)

@[simp] theorem Ctx.readTouches_formed (h : Formed c.s) (ts : List Touch) (alloc : Bool) : Formed (c.readTouches ts alloc).s :=
  Ctx.readAccess_formed h _ _ _

@[simp] theorem Ctx.writeTouches_formed (h : Formed c.s) (ts : List Touch) : Formed (c.writeTouches ts).s :=
  Ctx.global_formed h fun s => KeepsForm.of_mem (baseAccess_mem s _ _)

/-- Two checks on which the same goes on. -/
theorem joined {p A B K : Prop} (k : K) : (p → A → K) ∧ (¬p → B → K) := ⟨fun _ _ => k, fun _ _ => k⟩

theorem vload_steps (i : Instr) (d : VNum) (f : VForm) (b : XReg) (s : State) : Steps s (vload i d f b s) := by
  refine issue_steps _ _ _ fun c h => ?_
  simp only [ends_bind, ends_ite, ends_ok, ends_vecLegal h, ends_indexTag h, ends_copyTag h, ends_changeable h, ends_writable h, ends_needOpen h,
    ends_indexReady h, ends_needCopy h, ends_indexPoison h]
  refine fun _ => ⟨fun _ => h, fun _ _ _ => joined fun _ _ _ _ => ?_⟩
  refine (checkTouches_ends h _ _ _).mono fun ⟨ts, c⟩ h => (dataWaypoints_ends h _ _).mono fun c h => ?_
  simp only [ends_needRoom h, ends_settled h, ends_inTurn h]
  refine ⟨fun _ _ => Ctx.readTouches_formed h _ _, fun _ _ _ => (digestGate_ends h _ _).mono fun ⟨film, c⟩ h => ?_⟩
  refine (awaitRemote_ends (Ctx.drainMeeting_formed h _) _ _ _ _).mono fun c h => ?_
  exact (filmedDigest_ends ((Ctx.readTouches_formed h _ _).of_mem (recordPieces_mem _ _ _)) _ _ _).mono fun c h => h

theorem vstore_steps (i : Instr) (d : VNum) (f : VForm) (b : XReg) (s : State) : Steps s (vstore i d f b s) := by
  refine issue_steps _ _ _ fun c h => ?_
  simp only [ends_bind, ends_ite, ends_ok, ends_vecLegal h, ends_indexTag h, ends_arrivedOp h, ends_readableOp h, ends_needElems h,
    ends_indexReady h, ends_indexPoison h]
  refine fun _ => ⟨fun _ => h, fun _ _ => joined fun _ _ _ => (checkTouches_ends h _ _ _).mono fun ⟨ts, c⟩ h => ?_⟩
  simp only [ends_readableOp h, ends_noPoison h, ends_needRoom h]
  refine (fun hsent => ⟨fun _ _ _ => ⟨fun _ _ => hsent, fun _ => hsent⟩, fun _ => ⟨fun _ _ => hsent, fun _ => hsent⟩⟩) ?_
  exact (dataWaypoints_ends h _ _).mono fun c h => Ctx.writeTouches_formed h _

theorem vupdate_steps (i : Instr) (op : UpdOp) (d vi : VNum) (b : XReg) (s : State) : Steps s (vupdate i op d vi b s) := by
  refine issue_steps _ _ _ fun c h => ?_
  simp only [ends_bind, ends_ite, ends_ok, ends_vecLegal h]
  refine fun _ => ⟨fun _ => h, fun _ => ?_⟩
  split
  · exact .error h
  · simp only [ends_bind, ends_indexTag h, ends_readable h, ends_needOpen h, ends_indexReady h, ends_noPoison h]
    intro _ _ _ _ _
    exact (checkTouches_ends h _ _ _).mono fun ⟨ts, c⟩ h => (dataWaypoints_ends h _ _).mono fun c h =>
      .ok (Ctx.writeTouches_formed h _)

/-! ## Lane scratch, capture and ordering -/

theorem scratchChecks_ends (h : Formed c.s) (d vi : VNum) (b : XReg) (load : Bool) : Ends (scratchChecks c d vi b load) (fun _ => True) := by
  unfold scratchChecks
  cases load <;> simp only [if_true, if_false, Bool.false_eq_true, ends_bind, ends_ok, ends_indexTag h, ends_copyTag h, ends_writable h,
      ends_readableOp h, ends_needOpen h, ends_needElems h, ends_indexReady h, ends_needCopy h, ends_indexPoison h] <;>
    intros <;> split
  · exact .error h
  · split
    · exact .error h
    · exact .ok trivial
  · exact .error h
  · split
    · exact .error h
    · exact .ok trivial

theorem execVlsx_steps (d vi : VNum) (b : XReg) (ca dt : Bool) (s : State) : Steps s (execVlsx d vi b ca dt s) := by
  refine issue_steps _ _ _ fun c h => ?_
  simp only [ends_bind, ends_ite, ends_ok, ends_vecLegal h]
  exact fun _ => ⟨fun _ => h, fun _ => (scratchChecks_ends h _ _ _ _).mono fun _ _ => h⟩

theorem execVssx_steps (d vi : VNum) (b : XReg) (ca dt : Bool) (s : State) : Steps s (execVssx d vi b ca dt s) := by
  refine issue_steps _ _ _ fun c h => ?_
  simp only [ends_bind, ends_ite, ends_ok, ends_vecLegal h]
  exact fun _ => ⟨fun _ => h, fun _ => (scratchChecks_ends h _ _ _ _).mono fun _ _ => h⟩

theorem execVcapp_steps (a : VNum) (b : XReg) (ca dt : Bool) (s : State) : Steps s (execVcapp a b ca dt s) := by
  refine issue_steps _ _ _ fun c h => ?_
  simp only [ends_bind, ends_ite, ends_ok, ends_vecLegal h, ends_tagsOk h, ends_readable h, ends_needOpen h]
  refine fun _ => ⟨fun _ => h, fun _ _ _ _ => ⟨fun _ => h, fun _ => ?_⟩⟩
  refine (blockAt_ends (c := c.countMisses _) h _).mono fun ⟨p, c⟩ h => ?_
  simp only [ends_noPoison h, ends_inTurn h]
  intro _ _
  simp only [ends_needGood (Ctx.drainMeeting_formed h _)]
  intro _
  have hblock := Ctx.readBlockAt_formed (Ctx.drainMeeting_formed h (span p.1 64)) p
  generalize ((p, c).2.drainMeeting (span p.1 64)).readBlockAt p = c at hblock
  have hplaces (q : QBlock) (n : Nat) : Formed (appendPlaces (c.countBlock q n) q n).2.s := hblock.of_mem (appendPlaces_mem _ _ _)
  simp only [ends_inTurn (hplaces _ _)]
  intro _
  have hmet (q : QBlock) (n : Nat) (pas : List Nat) := Ctx.drainMeeting_formed (hplaces q n) pas
  split
  · exact .error ((Ctx.writeRows_formed (hmet _ _ _) _ _).of_mem (recordPieces_mem _ _ _))
  · refine Ends.bind (P := fun _ => True) (.ok trivial) fun _ _ => (dataWaypoints_ends (hmet _ _ _) _ _).bind fun c h => ?_
    simp only [ends_ite, ends_bind]
    refine ⟨fun _ => .ok h, fun _ => ?_⟩
    exact (ends_inTurn (c := c.later _) h _).2 fun _ => .ok (appendWords_keeps _ _ _ _ (Ctx.drainMeeting_formed (c := c.later _) h _))

theorem execSvfence_steps (s : State) : Steps s (execSvfence s) := issue_steps _ _ _ fun _ h => .ok (Ctx.drainStores_formed h)

theorem awaitRemoteWrites_checks (scope : Nat) : Checks c (awaitRemoteWrites c scope) := Checks.ite (checks_error rfl) checks_ok

theorem execVdrain_steps (sc : BitVec 3) (s : State) : Steps s (execVdrain sc s) := issue_steps _ _ _ fun c h => by
  have hd := Ctx.drainElems_formed h
  exact (ends_bind _ _).2 (((awaitRemoteWrites_checks _).ends hd).2 fun _ => .ok hd)

end Sys2Proof.Machine
end

section
/-! SUPPORT. The tile and the small-matrix instructions keep memory's canonical form (R221 to R243). -/

namespace Sys2Proof.Machine

variable {c : Ctx}

/-! ## The tile unit (R221 to R232) -/

theorem tileLegal_checks (rs : List VNum) : Checks c (tileLegal c rs) := legal_checks _
theorem tileValue_checks (v mask : Word) : Checks c (tileValue c v mask) := need_checks _ _ _
theorem tileIdle_checks : Checks c (tileIdle c) := Checks.ite (checks_error rfl) checks_ok

theorem tileReady_checks (reads : Nat → Bool) : Checks c (tileReady c reads) := by
  unfold tileReady
  split
  · exact checks_ok
  · exact Checks.ite (checks_error rfl) checks_ok

theorem accChecks_checks (d : VNum) (x : Word) {use : Except Stop Unit} (hu : Checks c use) : Checks c (accChecks c d x use) :=
  (tileValue_checks _ _).bind ((tagsOk_checks _).bind ((needOpen_checks _ _).bind (hu.bind ((need_checks _ _ _).bind checks_ok))))

section
variable {Q : Unit → Prop} (h : Formed c.s)
include h

@[simp] theorem ends_tileValue (v mask : Word) : Ends (tileValue c v mask) Q ↔ (tileValue c v mask = .ok () → Q ()) :=
  (tileValue_checks v mask).ends h
@[simp] theorem ends_tileIdle : Ends (tileIdle c) Q ↔ (tileIdle c = .ok () → Q ()) := tileIdle_checks.ends h
@[simp] theorem ends_tileReady (reads : Nat → Bool) : Ends (tileReady c reads) Q ↔ (tileReady c reads = .ok () → Q ()) :=
  (tileReady_checks reads).ends h

/-- The free value of `TRAPINFO` is the only thing that this check takes. -/
@[simp] theorem ends_needFree (b : Bool) (cause : Cause) : Ends (needFree b cause c) Q ↔ (needFree b cause c = .ok () → Q ()) := by
  cases b with
  | true => exact (ends_ok ()).trans ⟨fun hq _ => hq, fun hq => hq rfl⟩
  | false => exact (ends_error _).trans ⟨fun _ he => (by cases he), fun _ => h⟩

end

theorem tileOp_steps (i : Instr) (rs : List VNum) (m : Ctx → Except Stop Ctx) (s : State)
    (hm : ∀ c, Formed c.s → Ends (m c) (fun c => Formed c.s)) : Steps s (tileOp i rs m s) := issue_steps _ _ _ fun c h =>
  (ends_bind _ _).2 (((tileLegal_checks rs).ends h).2 fun _ => Ends.ite (.ok h) (hm c h))

theorem execTcfg_steps (a : XReg) (s : State) : Steps s (execTcfg a s) := tileOp_steps _ _ _ _ fun c h => by simp [h]

theorem execTld_steps (v : VNum) (a : XReg) (s : State) : Steps s (execTld v a s) := tileOp_steps _ _ _ _ fun c h => by simp [h]

@[simp] theorem markParity_formed (h : Formed c.s) (terms : List (Nat × FVal)) : Formed (markParity c terms).s := by
  unfold markParity
  generalize parityColumns c.h terms = ks
  induction ks generalizing c with
  | nil => exact h
  | cons k ks ih => exact ih (h.of_mem (State.note_mem _ _))

@[simp] theorem accumulate_formed (h : Formed c.s) (r : Nat) (terms : List (Nat × FVal)) (bad : Bool) :
    Formed (accumulate c r terms bad).s := markParity_formed h terms

theorem execTmul_steps (v : VNum) (a : XReg) (s : State) : Steps s (execTmul v a s) := tileOp_steps _ _ _ _ fun c h => by simp [h]

theorem execTmuls_steps (d v : VNum) (a : XReg) (s : State) : Steps s (execTmuls d v a s) := tileOp_steps _ _ _ _ fun c h => by
  simp only [ends_bind, ends_tileValue h, ends_tagsOk h, ends_needElems h, ends_needOpen h, ends_needFree h, ends_readableOp h,
    ends_readable h]
  intro _ _ _ _ _ _ _
  split
  · exact .error h
  · simp [h]

theorem execTrd_steps (d : VNum) (a : XReg) (s : State) : Steps s (execTrd d a s) := tileOp_steps _ _ _ _ fun _ h =>
  (ends_bind _ _).2 (((accChecks_checks d _ (writable_checks d)).endsValue h).2 fun _ _ => .ok h)

theorem execTacc_steps (d : VNum) (a : XReg) (s : State) : Steps s (execTacc d a s) := tileOp_steps _ _ _ _ fun c h => by
  refine (ends_bind _ _).2 (((accChecks_checks d _ (readable_checks d _)).endsValue h).2 fun _ _ => ?_)
  simp [h]

theorem execTzero_steps (a : XReg) (s : State) : Steps s (execTzero a s) := tileOp_steps _ _ _ _ fun c h => by simp [h]

theorem execTrel_steps (s : State) : Steps s (execTrel s) := tileOp_steps _ _ _ _ fun c h => by simp [h]

/-! ## Small matrices (R234 to R243) -/

theorem matLegal_checks : Checks c (matLegal c) := legal_checks _

@[simp] theorem ends_matLegal {Q : Unit → Prop} (h : Formed c.s) : Ends (matLegal c) Q ↔ (matLegal c = .ok () → Q ()) :=
  matLegal_checks.ends h

theorem matPlace_checks (d : MReg) (a : Word) : Checks c (matPlace c d a) :=
  (need_checks _ _ _).bind ((need_checks _ _ _).bind checks_ok)

theorem matOp_steps (sums : Bool) (i : Instr) (d : MReg) (ok : Hart → Bool) (shape : Hart → MatShape) (f : Ctx → Nat → Mat) (s : State) :
    Steps s (matOp sums i d ok shape f s) := issue_steps _ _ _ fun c h => by simp [h]

theorem execMset_steps (d : MReg) (cols rows : BitVec 3) (s : State) : Steps s (execMset d cols rows s) :=
  issue_steps _ _ _ fun c h => by simp [h]

theorem execMld_steps (d : MReg) (x : XReg) (s : State) : Steps s (execMld d x s) := issue_steps _ _ _ fun c h => by
  simp [h, (matPlace_checks d (c.x x)).endsValue h]

theorem execMst_steps (d : MReg) (x : XReg) (s : State) : Steps s (execMst d x s) := issue_steps _ _ _ fun c h => by
  simp [h, (matPlace_checks d (c.x x)).endsValue h]

theorem factorise_steps (i : Instr) (d a : MReg) (form : MatForm) (reads : Nat → Nat → Bool) (f : Bool → Nat → Nat → Mat → Factor)
    (s : State) : Steps s (factorise i d a form reads f s) := issue_steps _ _ _ fun c h => by
  simp only [ends_bind, ends_matLegal h, ends_tagsOk h]
  intro _ _
  split
  · exact .error h
  · simp [h]

theorem execMflag_steps (f : BitVec 2) (k : KReg) (s : State) : Steps s (execMflag f k s) := issue_steps _ _ _ fun c h => by simp [h]

end Sys2Proof.Machine
end

section
/-! SUPPORT. The collectives and the stream channels keep memory's canonical form (R214 to R216, R264 to R271). -/

namespace Sys2Proof.Machine

variable {c : Ctx}

/-! ## Collectives (R214 to R216) -/

theorem beginTransport_ends (h : Formed c.s) (d a : VNum) (es : List Elem) (flags : Nat) :
    Ends (beginTransport c d a es flags) (fun c => Formed c.s) :=
  (filmedNow_ends h _ _).bind fun _ h => by
    refine .ok ?_
    split <;> exact h

theorem collective_steps (i : Instr) (fn : Nat) (d a : VNum) (xb : Option XReg) (s : State) : Steps s (collective i fn d a xb s) :=
  issue_steps _ _ _ fun c h => by
  simp only [ends_bind, ends_ite, ends_legal h, ends_need h, ends_collReady h]
  exact fun _ => ⟨fun _ => ⟨fun _ => .error h, fun _ => .error h⟩, fun _ =>
    ⟨fun _ => filmedNow_ends h _ _, fun _ _ _ => beginTransport_ends h _ _ _ _⟩⟩

theorem joinMeaning_ends (h : Formed c.s) (l : List (Nat × Hart)) (p : Nat) (k : Collective) :
    Ends (joinMeaning l p k c) (fun c => Formed c.s) := by
  unfold joinMeaning
  simp only [ends_bind, ends_need h, ends_collReady h]
  exact fun _ _ => beginTransport_ends (c := { c with h := { c.h with coll := none } }) h _ _ _ _

theorem joinOutcome_keeps (s : State) (l : List (Nat × Hart)) (p id : Nat) (h : Hart) (k : Collective) :
    KeepsForm s (endState (joinOutcome s l p id h k)) :=
  runInstr_keeps _ _ (startCtx s id h k.instr.word) fun _ h => (ends_endState _).1 (joinMeaning_ends h l p k)

theorem settleJoin_keeps (s : State) (l : List (Nat × Hart)) (only : Except Stop Ctx → Bool) : KeepsForm s (settleJoin s l only) := by
  refine KeepsForm.foldl _ _ _ fun s e => ?_
  split
  · split
    · exact KeepsForm.ite ((joinOutcome_keeps _ _ _ _ _ _).trans (settle_keeps _ _ _)) (KeepsForm.refl s)
    · exact KeepsForm.refl s
  · exact KeepsForm.refl s

theorem execCollectiveJoin_steps (t stack : Nat) (s : State) : Steps s (execCollectiveJoin t stack s) := by
  unfold execCollectiveJoin
  split
  · exact steps_cannot
  · refine Steps.ite steps_cannot (Steps.ite ?_ (Steps.ite (Steps.ite ?_ steps_cannot) (Steps.ite steps_cannot ?_)))
    · exact steps_next.2 (settleJoin_keeps _ _ _)
    · exact steps_next.2 (settleJoin_keeps _ _ _)
    · exact steps_next.2 (KeepsForm.foldl _ _ _ fun s n => KeepsForm.of_mem (modHart_mem s n _))

theorem execCollectiveTransport_steps (h g : Nat) (s : State) : Steps s (execCollectiveTransport h g s) := by
  unfold execCollectiveTransport
  split
  · exact steps_cannot
  · split
    · exact steps_cannot
    · exact Steps.ite steps_cannot (steps_next.2 (KeepsForm.of_mem rfl))

theorem execTldTransfer_steps (h : Nat) (s : State) : Steps s (execTldTransfer h s) := by
  unfold execTldTransfer
  split
  · exact steps_cannot
  · split
    · exact steps_cannot
    · exact Steps.ite steps_cannot (steps_next.2 (KeepsForm.of_mem rfl))

/-! ## Channels: the instructions (R264 to R271) -/

theorem chanLegal_checks : Checks c (chanLegal c) := legal_checks _

@[simp] theorem ends_chanLegal {Q : Unit → Prop} (h : Formed c.s) : Ends (chanLegal c) Q ↔ (chanLegal c = .ok () → Q ()) :=
  chanLegal_checks.ends h

theorem bindChannel_ends (h : Formed c.s) (d : XReg) (n : BitVec 2) (va : Word) (pa : Nat) :
    Ends (bindChannel d n va pa c) (fun c => Formed c.s) := by
  unfold bindChannel
  split
  · exact .error h
  · simp only [ends_bind, ends_ite, ends_tagsOk h, ends_needOpen h, ends_settled h]
    have hdrained := Ctx.drainStores_formed (c := { c with s := { c.s with free := c.s.free + 128 } }) h
    exact fun _ _ _ => ⟨fun _ => .ok h, fun _ => .ok (hdrained.of_mem rfl)⟩

theorem Ctx.readGood_formed (h : Formed c.s) (l : List (Nat × Bool)) (src : ActSource) (n : Nat) (ps : List Nat) :
    Formed (c.global fun s => recordPieces (readAccess s l false src) n ps).s :=
  Ctx.global_formed h fun _ => KeepsForm.of_mem ((recordPieces_mem _ _ _).trans (readAccess_mem _ _ _ _))

theorem execScfg_steps (d a : XReg) (n : BitVec 2) (s : State) : Steps s (execScfg d a n s) := issue_steps _ _ _ fun c h => by
  refine (ends_bind _ _).2 ((ends_chanLegal h).2 fun _ => (placeGeneric_ends h _ _ _).bindPair fun p c h => ?_)
  exact bindChannel_ends (Ctx.readGood_formed (Ctx.drainOverlap_formed h _ _) _ _ _ _) _ _ _ _

theorem execSstep_steps (n : BitVec 2) (s : State) : Steps s (execSstep n s) := issue_steps _ _ _ fun c h => by
  simp only [ends_bind, ends_chanLegal h]
  intro _
  split
  · exact .ok h
  · exact .ok (Ctx.drainStores_formed h)

theorem execSstat_steps (d : XReg) (n : BitVec 2) (s : State) : Steps s (execSstat d n s) := issue_steps _ _ _ fun c h => by
  simp only [ends_bind, ends_chanLegal h]
  exact fun _ => filmed_ends h _ (fun _ h => .ok h) (fun _ _ h => h) (fun _ _ h => h)

theorem execSclose_steps (n : BitVec 2) (s : State) : Steps s (execSclose n s) := issue_steps _ _ _ fun c h => by
  simp only [ends_bind, ends_ite, ends_chanLegal h]
  exact fun _ => ⟨fun _ => .ok h, fun _ => .ok h⟩

/-! ## Channels: the fetch (R265, R267, R269) -/

@[simp] theorem tableEntry_mem (s : State) (id n : Nat) (h : Hart) (ch : Channel) (e : Nat) : (tableEntry s id n h ch e).1.mem = s.mem := by
  unfold tableEntry
  dsimp only
  split
  · rfl
  · split
    · rfl
    · split
      · exact mem_of_fst ‹_› (hartTranslate_mem _ _ _ _)
      · have ht := mem_of_fst ‹_› (hartTranslate_mem _ _ _ _)
        split <;> simp [ht]

@[simp] theorem elementAddress_mem (s : State) (id n : Nat) (h : Hart) (ch : Channel) (e : Nat) :
    (elementAddress s id n h ch e).1.mem = s.mem := by
  unfold elementAddress
  dsimp only
  split
  · rfl
  · split <;> exact mem_of_fst ‹_› (tableEntry_mem _ _ _ _ _ _)

@[simp] theorem elementPlace_mem (s : State) (id n : Nat) (h : Hart) (ch : Channel) (e : Nat) :
    (elementPlace s id n h ch e).1.mem = s.mem := by
  unfold elementPlace
  split
  · exact mem_of_fst ‹_› (elementAddress_mem _ _ _ _ _ _)
  · have ha := mem_of_fst ‹_› (elementAddress_mem _ _ _ _ _ _)
    split
    · exact ha
    · split
      · exact ha
      · split <;> exact (mem_of_fst ‹_› (hartTranslate_mem _ _ _ _)).trans ha

@[simp] theorem lowestFault_mem (id n : Nat) (h : Hart) (l : List Nat) : ∀ (s : State) (ch : Channel),
    (lowestFault id n h l s ch).1.mem = s.mem := by
  induction l with
  | nil => exact fun _ _ => rfl
  | cons e l ih =>
    intro s ch
    unfold lowestFault
    split
    · exact mem_of_fst ‹_› (elementPlace_mem _ _ _ _ _ _)
    · exact (ih _ _).trans (mem_of_fst ‹_› (elementPlace_mem _ _ _ _ _ _))

theorem holdStrip_keeps (s : State) (id : Nat) (h : Hart) : KeepsIf s (holdStrip s id h) :=
  KeepsIf.ite keepsIf_none (keepsIf_some.2 (KeepsForm.of_mem (modHart_mem _ _ _)))

theorem deliverElement_keeps (s : State) (id n : Nat) (h : Hart) (ch : Channel) (e : Nat) (x : Elem) (record : Bool) :
    KeepsIf s (deliverElement s id n h ch e x record) := by
  unfold deliverElement
  dsimp only
  split
  · intro t ht hs
    have hf := fun ws => filmedNow_ends (c := ⟨s, id, { h with pc := ch.pc }, 0, false, none, 0, []⟩) hs 14 ws
    split at ht
    · rename_i e
      cases ht
      exact ((ends_ok _).1 (e ▸ hf _) :)
    · rename_i e
      split at ht
      · cases ht
        have hc : Formed _ := (ends_error _).1 (e ▸ hf _)
        exact deliver_keeps _ _ _ _ _ _ hc
      · cases ht
    · cases ht
  · exact keepsIf_some.2 (KeepsForm.of_mem rfl)

theorem fetchElement_keeps (s : State) (id n : Nat) (h : Hart) (ch : Channel) (e : Nat) : KeepsIf s (fetchElement s id n h ch e) := by
  unfold fetchElement
  split
  · exact keepsIf_none
  · have hp := KeepsForm.of_mem (mem_of_fst ‹_› (elementPlace_mem _ _ _ _ _ _))
    refine hp.thenIf (KeepsIf.ite ?_ (KeepsIf.ite (holdStrip_keeps _ _ _) ?_))
    · exact keepsIf_some.2 (KeepsForm.of_mem (by simp))
    · exact KeepsForm.thenIf (KeepsForm.of_mem (by simp)) (deliverElement_keeps _ _ _ _ _ _ _ _)

theorem execStreamFetch_steps (id n : Nat) (s : State) : Steps s (execStreamFetch id n s) := by
  unfold execStreamFetch
  split
  · exact steps_cannot
  · split
    · exact steps_cannot
    · refine Steps.ite steps_cannot ?_
      dsimp only
      split
      · rename_i e
        exact steps_next.2 (KeepsForm.of_mem ((modHart_mem _ _ _).trans (mem_of_fst e (lowestFault_mem _ _ _ _ _ _))))
      · rename_i e
        have hl : KeepsForm s _ := KeepsForm.of_mem (mem_of_fst e (lowestFault_mem _ _ _ _ _ _))
        split
        · exact steps_next.2 (hl.trans (fetchElement_keeps _ _ _ _ _ _ _ ‹_›))
        · exact steps_cannot

end Sys2Proof.Machine
end

section
/-! SUPPORT. The system registers, placement and the leaving of a column keep memory's canonical form (R141, R285 to R288, R331). -/

namespace Sys2Proof.Machine

variable {c : Ctx}

/-! ## System registers (R141, R142, R171) -/

@[simp] theorem writeOwner_mem (s : State) (id : Nat) (h : Hart) (v : Word) : (writeOwner s id h v).mem = s.mem :=
  foldl_mem _ _ _ fun s n => State.modCol_mem s n _

@[simp] theorem dropOwner_mem (s : State) (id : Nat) (h : Hart) : (dropOwner s id h).mem = s.mem :=
  foldl_mem _ _ _ fun s n => State.modCol_mem s n _

@[simp] theorem stewardOwner_mem (s : State) (column : Nat) (v : Word) : (stewardOwner s column v).mem = s.mem := State.modCol_mem _ _ _

theorem sysWrite_formed (h : Formed c.s) (n : Nat) (v : Word) : Formed (sysWrite c n v).s := by
  unfold sysWrite
  split
  · exact h.of_mem (State.modCol_mem _ _ _)
  · split
    · exact h.of_mem (writeOwner_mem _ _ _ _)
    · exact Ctx.global_formed h fun s => KeepsForm.of_mem (stewardOwner_mem _ _ _)
  · exact h

theorem execNop_steps (s : State) : Steps s (execNop s) := issue_steps _ _ _ fun _ h => .ok h

theorem execSrd_steps (d : XReg) (r : BitVec 12) (s : State) : Steps s (execSrd d r s) := issue_steps _ _ _ fun c h => by
  refine .ite ?_ (.ite ?_ (.ok h))
  · exact (ends_bind (afterAll c) _).2 ((ends_afterAll h).2 fun _ => .ok h)
  · exact filmed_ends h _ (fun _ h => .ok h) (fun _ _ h => h) (fun _ _ h => h)

theorem execSwr_steps (a : XReg) (r : BitVec 12) (s : State) : Steps s (execSwr a r s) := issue_steps _ _ _ fun c h => by
  simp only [ends_bind, ends_ite, ends_ok, ends_need h, ends_afterAll h]
  exact fun _ _ => ⟨fun _ _ => sysWrite_formed h _ _, fun _ => sysWrite_formed h _ _⟩

theorem onHart_steps (s : State) (n : Nat) (f : Hart → State) (hf : ∀ h, KeepsForm s (f h)) : Steps s (onHart s n f) := by
  unfold onHart
  split
  · exact Steps.ite steps_cannot (steps_next.2 (hf _))
  · exact steps_cannot

theorem execFpmodeWrite_steps (n : Nat) (v : Word) (s : State) : Steps s (execFpmodeWrite n v s) := onHart_steps _ _ _ fun _ =>
  KeepsForm.ite (deliver_keeps _ _ _ _ _ _) (KeepsForm.of_mem rfl)

theorem execFpflagsRead_steps (n : Nat) (d : XReg) (s : State) : Steps s (execFpflagsRead n d s) :=
  onHart_steps _ _ _ fun _ => KeepsForm.of_mem rfl

theorem execFpflagsWrite_steps (n : Nat) (v : Word) (s : State) : Steps s (execFpflagsWrite n v s) :=
  onHart_steps _ _ _ fun _ => KeepsForm.of_mem rfl

theorem execMstatAccess_steps (n : Nat) (d : XReg) (v : Option Word) (s : State) : Steps s (execMstatAccess n d v s) :=
  onHart_steps _ _ _ fun _ => by cases v <;> exact KeepsForm.of_mem rfl

theorem execRefownerWrite_steps (n : Nat) (v : Word) (s : State) : Steps s (execRefownerWrite n v s) :=
  onHart_steps _ _ _ fun _ => KeepsForm.of_mem (writeOwner_mem _ _ _ _)

theorem execErrcolClear_steps (k : Nat) (s : State) : Steps s (execErrcolClear k s) :=
  Steps.ite (steps_next.2 (KeepsForm.of_mem (State.modCol_mem _ _ _))) steps_cannot

/-! ## Harts at their start (R55, R322) -/

@[simp] theorem addHart_mem (s : State) (id : Nat) (t : Task) (r : Nat) (p : Spot) (code : List Byte) :
    (addHart s id t r p code).mem = s.mem := rfl

theorem placeFilm_keeps (s : State) (h : Hart) (base : Nat) (film : List Byte) : KeepsForm s (placeFilm s h base film) := by
  refine KeepsForm.foldl _ _ _ fun s n => ?_
  have ht := hubTranslate_mem s (s.rootOf h) (s.partOf h) ⟨false, true, false⟩ (base + 32 * n)
  split
  · rename_i e
    exact (KeepsForm.of_mem ((baseAccess_mem _ _ _).trans (mem_of_fst e ht))).trans (writeBytes_keeps _ _ _ _)
  · exact KeepsForm.of_mem (mem_of_fst ‹_› ht)

theorem giveDebugBlock_keeps (s : State) (n : Nat) : KeepsForm s (giveDebugBlock s n) := by
  unfold giveDebugBlock
  split
  · exact KeepsForm.refl s
  · refine KeepsForm.ite (KeepsForm.refl s) ?_
    refine KeepsForm.trans (u := placeFilm (writeBytes _ _ _ _) _ _ _) ?_ (KeepsForm.of_mem rfl)
    exact (KeepsForm.of_mem (t := { s with free := s.free + 16 }) rfl).trans ((writeBytes_keeps _ _ _ _).trans (placeFilm_keeps _ _ _ _))

@[simp] theorem hubReads_mem (s : State) (pas : List (Nat × Bool)) : (hubReads s pas).mem = s.mem := readAccess_mem _ _ _ _

@[simp] theorem hubReadBytes_mem (s : State) (root va n : Nat) : (hubReadBytes s root va n).1.mem = s.mem := by
  have hp := hubPlaces_mem s root 0 ⟨true, false, false⟩ va n
  unfold hubReadBytes
  generalize hubPlaces s root 0 ⟨true, false, false⟩ va n = p at hp
  obtain ⟨t, l, fail⟩ := p
  have hr (l : List (Nat × Bool)) : (hubReads t l).mem = s.mem := (hubReads_mem _ _).trans hp
  dsimp only
  split
  · split
    · exact (recordPieces_mem _ _ _).trans (hr _)
    · exact hr _
  · exact hr _
  · exact hr _

@[simp] theorem pagesNow_mem (s : State) (t : Task) : (pagesNow s t).1.mem = s.mem := by
  unfold pagesNow
  split
  · rfl
  · split <;> exact mem_of_fst ‹_› (hubReadBytes_mem _ _ _ _)

/-! ## Leaving a column -/

@[simp] theorem takenUp_mem (s : State) (id : Nat) : (takenUp s id).mem = s.mem := by
  unfold takenUp
  split
  · rfl
  · split <;> rfl

theorem addCounter_keeps (s : State) (pa n : Nat) : KeepsForm s (addCounter s pa n) :=
  (KeepsForm.of_mem (baseAccess_mem s [pa] .hub)).trans (storeBytes_keeps _ _ _ _)

theorem flushCounts_keeps (s : State) (column : Nat) : KeepsForm s (flushCounts s column) :=
  (KeepsForm.foldl _ _ _ fun _ _ => KeepsForm.ite (KeepsForm.refl _) (addCounter_keeps _ _ _)).trans
    (KeepsForm.of_mem (State.modCol_mem _ _ _))

@[simp] theorem freeRows_mem (s : State) (id column : Nat) : (freeRows s id column).mem = s.mem := State.modCol_mem _ _ _

@[simp] theorem dropCode_mem (s : State) (h : Hart) : (dropCode s h).mem = s.mem := by
  unfold dropCode
  split
  · rfl
  · exact State.modCol_mem _ _ _

@[simp] theorem leave_mem (s : State) (id : Nat) (h : Hart) (st : Residency) : (leave s id h st).mem = s.mem := by
  simp [leave]

@[simp] theorem resetAging_mem (s : State) (id : Nat) : (resetAging s id).mem = s.mem := by
  unfold resetAging
  split
  · rfl
  · split <;> rfl

end Sys2Proof.Machine
end

section
/-! SUPPORT. The instructions on tasks, queues, keys, strips, barriers, waiting, traps and debug keep memory's canonical form (R246 to R263,
R272 to R275). -/

namespace Sys2Proof.Machine

variable {c : Ctx}

/-! ## Tasks (R247 to R251) -/

/-- A filmed action whose replay reads no memory, and whose result goes to registers. -/
theorem filmedX_ends (h : Formed c.s) (kind : Nat) {run : Ctx → Except Stop (FilmVal × Ctx)} {result : FilmVal → Ctx → Ctx}
    (hrun : ∀ c, Formed c.s → Ends (run c) (fun r => Formed r.2.s)) (hresult : ∀ v c, (result v c).s = c.s) :
    Ends (filmed kind c run (fun c _ => c) result) (fun c => Formed c.s) :=
  filmed_ends h kind hrun (fun _ _ h => h) fun v c h => by rw [hresult]; exact h

theorem execTspawn_steps (d a : XReg) (s : State) : Steps s (execTspawn d a s) := issue_steps _ _ _ fun c h => by
  simp only [ends_bind, ends_need h]
  refine fun _ => (placeGeneric_ends h _ _ _).mono fun ⟨p, c⟩ h => (ends_placeGood h _ _ _ _).2 fun _ => ?_
  refine (dataWaypoints_ends h _ _).mono fun c h => filmedX_ends h _ (fun c h => ?_) fun _ _ => Ctx.setX_s _ _ _
  refine (startRecordAt_ends (Ctx.drainStores_formed h) _).bindPair fun record c h => ?_
  exact .ok (submitRecord_keeps c record h)

theorem orderingStep_ends (h : Formed c.s) : Ends (orderingStep c) (fun c => Formed c.s) := by
  have hd := Ctx.drainStores_formed (Ctx.global_formed (Ctx.drainElems_formed h) fun s => flushCounts_keeps s c.drainElems.h.column)
  refine (ends_bind _ _).2 (((awaitRemoteWrites_checks _).ends ?_).2 fun _ => .ok ?_) <;> exact hd

theorem closeChannels_mem (l : AMap Channel) : ∀ c : Ctx, (l.foldl (fun (c : Ctx) e =>
    let r := closeChannel c.s c.id c.h e.1
    { c with s := r.1, h := r.2 }) c).s.mem = c.s.mem := by
  induction l with
  | nil => exact fun _ => rfl
  | cons e l ih => exact fun c => (ih _).trans rfl

theorem execTexit_steps (s : State) : Steps s (execTexit s) := issue_steps _ _ _ fun c h => by
  refine (ends_bind _ _).2 ((ends_afterAll h).2 fun _ => ?_)
  refine (orderingStep_ends (c := { c with h := { c.h with leaving := true } }) h).bind fun c h => ?_
  simp only [ends_bind, ends_ite, ends_ok, ends_error, stopState_wait]
  refine ⟨fun _ => h, fun _ => ⟨fun _ => h, fun _ => ?_⟩⟩
  have hclosed := h.of_mem (closeChannels_mem c.h.chans c)
  exact Ctx.global_formed hclosed fun s => KeepsForm.of_mem (leave_mem _ _ _ _)

@[simp] theorem askHalt_mem (s : State) (ids : List Nat) (waiter : Nat) : (askHalt s ids waiter).mem = s.mem :=
  foldl_mem _ _ _ fun s n => modHart_mem s n _

theorem execTyield_steps (s : State) : Steps s (execTyield s) := issue_steps _ _ _ fun c h => by
  split
  · exact .ok h
  · refine .ite (.ok h) ?_
    dsimp only
    split
    · exact .ok h
    · exact .ok (Ctx.global_formed h fun s => KeepsForm.of_mem (askHalt_mem _ _ _))

theorem execTinfo_steps (d : XReg) (sel : BitVec 5) (s : State) : Steps s (execTinfo d sel s) := issue_steps _ _ _ fun c h => by
  refine (ends_bind _ _).2 ((ends_legal h _).2 fun _ => .ite ?_ (.ok h))
  exact filmedX_ends h _ (fun _ h => .ok h) fun _ _ => Ctx.setX_s _ _ _

/-! ## Queues (R256) -/

@[simp] theorem blockPlaces_mem (c : Ctx) (b : QBlock) (ns : List Nat) : (blockPlaces c b ns).2.s.mem = c.s.mem := by
  have hs := slotPlaces_mem (b.ring :: ns.map b.slot) c
  unfold blockPlaces
  split
  · rfl
  · split <;> (rename_i e; rw [e] at hs; exact hs)

theorem queueEntry_mem (c : Ctx) (b : QBlock) (n : Nat) (blocked : Bool) : (queueEntry c b n blocked).2.s.mem = c.s.mem := by
  have hb := blockPlaces_mem c b [n]
  unfold queueEntry
  split
  · rfl
  · split <;> (rename_i e; rw [e] at hb; exact hb)

theorem queuePlan_ends (h : Formed c.s) (p : Nat × Nat) (va : Word) (at' : QBlock → Nat) (blocked : QBlock → Bool) :
    Ends (queuePlan c p va at' blocked) (fun r => Formed r.2.s) := by
  refine .ite (.ok h) ?_
  have hd := Ctx.drainOverlap_formed h p.1 64
  refine (ends_bind _ _).2 ((ends_needGood hd _ _ _).2 fun _ => ?_)
  dsimp only
  have hq (q : QBlock) (n : Nat) (b : Bool) := (Ctx.readBlockAt_formed hd p).of_mem (queueEntry_mem _ q n b)
  split
  · refine (ends_bind _ _).2 ((ends_needGood (Ctx.drainOverlap_formed (hq _ _ _) _ _) _ _ _).2 fun _ => ?_)
    exact .ok (Ctx.drainOverlap_formed (hq _ _ _) _ _)
  · exact .ok (hq _ _ _)

theorem pushEntry_ends (h : Formed c.s) (plan : QBlock × Option Nat × List Nat) (b : XReg) (pa : Nat) :
    Ends (pushEntry plan b pa c) (fun r => Formed r.2.s) := by
  unfold pushEntry
  split
  · exact .ok h
  · refine .ok ?_
    dsimp only
    refine (triggerCheck_keeps _ _).formed ?_
    refine (storeBytes_keeps _ _ _ _).formed ((storeBytes_keeps _ _ _ _).formed ?_)
    exact Ctx.writeRows_formed (Ctx.drainStores_formed h) _ _

theorem popEntry_ends (h : Formed c.s) (plan : QBlock × Option Nat × List Nat) (pa : Nat) :
    Ends (popEntry plan pa c) (fun r => Formed r.2.s) := by
  unfold popEntry
  split
  · exact .ok h
  · exact .ok ((storeBytes_keeps _ _ _ _).formed (Ctx.writeRows_formed h _ _))

theorem execQpush_steps (a b : XReg) (p : PReg) (s : State) : Steps s (execQpush a b p s) := issue_steps _ _ _ fun c h => by
  refine (blockAt_ends h _).bindPair fun place c h => (queuePlan_ends h _ _ _ _).bindPair fun plan c h => ?_
  have hfilmed (c : Ctx) (h : Formed c.s) : Ends (filmed 3 c (pushEntry plan b place.1) (fun c _ => c) (fun v c => c.setP p v.pred))
      (fun c => Formed c.s) := filmedX_ends h _ (fun _ h => pushEntry_ends h _ _ _) fun _ _ => Ctx.setP_s _ _ _
  exact .ite (.bind (.ok h) hfilmed) (.ite ((dataWaypoints_ends h _ _).bind hfilmed) ((dataWaypoints_ends h _ _).bind hfilmed))

theorem execQpop_steps (d a : XReg) (p : PReg) (s : State) : Steps s (execQpop d a p s) := issue_steps _ _ _ fun c h => by
  refine (blockAt_ends h _).bindPair fun place c h => (queuePlan_ends h _ _ _ _).bindPair fun plan c h => ?_
  have hfilmed (c : Ctx) (h : Formed c.s) : Ends (filmed 2 c (popEntry plan place.1) (fun c _ => c) (fun v c => (c.setX d v.lo).setP p v.pred))
      (fun c => Formed c.s) := filmedX_ends h _ (fun _ h => popEntry_ends h _ _) fun _ _ => by simp
  exact .ite (.bind (.ok h) hfilmed) (.ite ((dataWaypoints_ends h _ _).bind hfilmed) ((dataWaypoints_ends h _ _).bind hfilmed))

/-! ## Keys (R259, R260) and strips (R261) -/

theorem keyId_checks (a : XReg) : Checks c (keyId c a) := (need_checks _ _ _).bind checks_ok

theorem execKeyrel_steps (a : XReg) (s : State) : Steps s (execKeyrel a s) := issue_steps _ _ _ fun _ h =>
  (ends_bind _ _).2 (((keyId_checks a).endsValue h).2 fun _ _ =>
    .ok ((Ctx.drainStores_formed (Ctx.drainElems_formed h)).of_mem (State.modTask_mem _ _ _)))

theorem execKeyq_steps (d a : XReg) (s : State) : Steps s (execKeyq d a s) := issue_steps _ _ _ fun _ h =>
  (ends_bind _ _).2 (((keyId_checks a).endsValue h).2 fun _ _ =>
    filmedX_ends h _ (fun _ h => .ok h) fun _ _ => Ctx.setX_s _ _ _)

theorem execStrip_steps (d a : XReg) (p : PReg) (s : State) : Steps s (execStrip d a p s) := issue_steps _ _ _ fun c h => by
  refine (ends_bind _ _).2 ((ends_legal h _).2 fun _ => (ends_bind _ _).2 ((ends_need h _ _ _).2 fun _ => ?_))
  refine filmedX_ends h _ (fun c h => ?_) fun _ _ => by simp
  split
  · exact .ok h
  · exact .ok h

/-! ## Barriers (R262, R263) -/

theorem barLegal_checks (sc : BitVec 3) : Checks c (barLegal c sc) := legal_checks _

theorem barWait_ends (h : Formed c.s) : Ends (barWait c) (fun c => Formed c.s) := .ite (.ok h) (.wait h)

theorem execBar_steps (sc : BitVec 3) (s : State) : Steps s (execBar sc s) := issue_steps _ _ _ fun c h => by
  refine (ends_bind _ _).2 (((barLegal_checks sc).ends h).2 fun _ => Ends.bind (barWait_ends ?_) fun _ h => .ok h)
  split <;> exact Ctx.drainStores_formed h

theorem execBara_steps (sc : BitVec 3) (s : State) : Steps s (execBara sc s) := issue_steps _ _ _ fun _ h =>
  (ends_bind _ _).2 (((barLegal_checks sc).ends h).2 fun _ => (barWait_ends (Ctx.drainStores_formed h)).bind fun _ h => .ok h)

theorem execBarw_steps (sc : BitVec 3) (s : State) : Steps s (execBarw sc s) := issue_steps _ _ _ fun _ h =>
  (ends_bind _ _).2 (((barLegal_checks sc).ends h).2 fun _ => barWait_ends (Ctx.drainStores_formed h))

/-! ## Waiting, traps and debug (R272 to R275) -/

theorem execWaitev_steps (d a : XReg) (m : BitVec 12) (s : State) : Steps s (execWaitev d a m s) := issue_steps _ _ _ fun _ h =>
  (ends_bind _ _).2 ((ends_legal h _).2 fun _ =>
    filmedX_ends h _ (fun _ h => .ite (.ok h) (.error h)) fun _ _ => Ctx.setX_s _ _ _)

theorem execTrap_steps (code : BitVec 12) (s : State) : Steps s (execTrap code s) := issue_steps _ _ _ fun c h => by simp [h]

theorem execRft_steps (s : State) : Steps s (execRft s) := issue_steps _ _ _ fun c h => by simp [h]

theorem execHalt_steps (s : State) : Steps s (execHalt s) := issue_steps _ _ _ fun c h => by simp [h]

theorem countBlock_keeps (s : State) (column pa : Nat) : KeepsForm s (countBlock s column pa) := by
  unfold countBlock
  dsimp only
  split
  · exact (KeepsForm.ite (addCounter_keeps _ _ _) (KeepsForm.refl s)).trans (KeepsForm.of_mem (State.modCol_mem _ _ _))
  · refine KeepsForm.trans ?_ (KeepsForm.of_mem (State.modCol_mem _ _ _))
    split
    · exact KeepsForm.ite (addCounter_keeps _ _ _) (KeepsForm.refl s)
    · exact KeepsForm.refl s

theorem execBbh_steps (a : XReg) (imm : BitVec 12) (s : State) : Steps s (execBbh a imm s) := issue_steps _ _ _ fun c h => by
  refine .ite (.ok h) ((placeGeneric_ends h _ _ _).bindPair fun p c h => (dataWaypoints_ends h _ _).bind fun c h => ?_)
  exact .ok (Ctx.global_formed h fun s => countBlock_keeps _ _ _)

theorem execMark_steps (code : BitVec 12) (s : State) : Steps s (execMark code s) := issue_steps _ _ _ fun _ h => .ok h

theorem execBkpt_steps (code : BitVec 12) (s : State) : Steps s (execBkpt code s) := issue_steps _ _ _ fun _ h => .error h

end Sys2Proof.Machine
end

section
/-! SUPPORT. The scheduler, the dispatcher, grants, pre-emption and the end of tasks keep memory's canonical form (R50 to R58, R252 to R254,
R276 to R291, R303). -/

namespace Sys2Proof.Machine

theorem KeepsIf.bind {s : State} {o : Option State} {f : State → Option State} (h : KeepsIf s o) (hf : ∀ t, KeepsIf t (f t)) :
    KeepsIf s (o.bind f) := by
  cases o with
  | none => exact keepsIf_none
  | some t => exact (h t rfl).thenIf (hf t)

theorem KeepsIf.getD {s d : State} {o : Option State} (h : KeepsIf s o) (hd : KeepsForm s d) : KeepsForm s (o.getD d) := by
  cases o with
  | none => exact hd
  | some t => exact h t rfl

theorem KeepsIf.orElse {s : State} {o : Option State} {f : Unit → Option State} (h : KeepsIf s o) (hf : KeepsIf s (f ())) :
    KeepsIf s (o.orElse f) := by
  cases o with
  | none => exact hf
  | some t => exact h

theorem KeepsIf.map {s : State} {o : Option State} {f : State → State} (h : KeepsIf s o) (hf : ∀ t, (f t).mem = t.mem) :
    KeepsIf s (o.map f) := by
  cases o with
  | none => exact keepsIf_none
  | some t => exact keepsIf_some.2 ((h t rfl).trans (KeepsForm.of_mem (hf t)))

/-- A step that keeps the form, from a state with the same memory. -/
theorem KeepsForm.after {s t u : State} (h : KeepsForm t u) (e : t.mem = s.mem) : KeepsForm s u := (KeepsForm.of_mem e).trans h

/-! ## The hub's own traffic (R341, R346) -/

theorem sendWrite_keeps (s : State) (r : Route) (data : List Byte) (hi : Option Bool) : KeepsIf s (sendWrite s r data hi) :=
  fun _ e => KeepsForm.of_mem (sendWrite_mem e)

theorem sendRead_keeps (s : State) (r : Route) (n : Nat) : KeepsIf s (sendRead s r n) := fun _ e => KeepsForm.of_mem (sendRead_mem e)

theorem sendHub_keeps (s : State) (task : Nat) (load : Bool) (pa : Nat) (data : List Byte) : KeepsIf s (sendHub s task load pa data) := by
  refine KeepsIf.map ?_ fun _ => rfl
  cases load
  · exact sendWrite_keeps _ _ _ _
  · exact sendRead_keeps _ _ _

/-! ## Completion records and accounts (R252 to R254, R345, R347) -/

theorem hubStore_keeps (s : State) (id pa : Nat) (data : List Byte) : KeepsIf s (hubStore s id pa data) :=
  KeepsIf.ite (sendHub_keeps _ _ _ _ _) (keepsIf_some.2 ((KeepsForm.of_mem (baseAccess_mem _ _ _)).trans (storeBytes_keeps _ _ _ _)))

theorem writeCompletionRecord_keeps (s : State) (id root part crec : Nat) (bytes : List Byte) :
    KeepsForm s (writeCompletionRecord s id root part crec bytes) := by
  have ht := hubTranslate_mem s root part ⟨false, true, true⟩ crec
  unfold writeCompletionRecord
  refine KeepsForm.ite (KeepsForm.of_mem rfl) ?_
  split
  · rename_i e
    exact KeepsForm.of_mem ((State.note_mem _ _).trans (mem_of_fst e ht))
  · rename_i e
    refine (KeepsForm.of_mem (mem_of_fst e ht)).trans (KeepsIf.getD ?_ (KeepsForm.of_mem rfl))
    exact (hubStore_keeps _ _ _ _).bind fun t => hubStore_keeps _ _ _ _

@[simp] theorem accountTask_mem (s : State) (t : Task) (status cause : Nat) : (accountTask s t status cause).mem = s.mem := by
  unfold accountTask
  split
  · rfl
  · dsimp only
    split <;> rfl

@[simp] theorem takeHead_mem (s : State) (q : Nat) : (takeHead s q).mem = s.mem := noteActive_mem _ _

theorem finishTask_keeps (s : State) (id : Nat) (t : Task) (status : Nat) : KeepsForm s (finishTask s id t status) :=
  (writeCompletionRecord_keeps _ _ _ _ _ _).trans (KeepsForm.of_mem (accountTask_mem _ _ _ _))

theorem execTaskCompletion_steps (id : Nat) (s : State) : Steps s (execTaskCompletion id s) := by
  unfold execTaskCompletion
  split
  · exact steps_cannot
  · have hf := fun t status => steps_next.2 (finishTask_keeps s id t status)
    exact Steps.ite steps_cannot (Steps.ite (hf _ _) (Steps.ite (hf _ _) steps_cannot))

/-! ## The end of a task by the steward (R57, R253, R303) -/

theorem writeFault_keeps (s : State) (h : Hart) (cause : Cause) (pc info : Word) (inh : Bool) (errcol : Word) :
    KeepsForm s (writeFault s h cause pc info inh errcol).1 := (KeepsForm.free s _).trans (writeBytes_keeps _ _ _ _)

theorem endFields_keeps {s t : State} {k : Task} {why : EndReason} {r : Nat × Nat × Nat × Word × Word × Nat}
    (e : endFields s k why = some (t, r)) : KeepsForm s t := by
  unfold endFields at e
  split at e
  case h_4 =>
    split at e
    · cases e
    · split at e
      · cases e
        exact writeFault_keeps _ _ _ _ _ _ _
      · cases e
  case h_5 =>
    split at e
    · cases e
    · cases e
      exact writeFault_keeps _ _ _ _ _ _ _
  all_goals
    cases e
    exact KeepsForm.refl s

theorem endHarts_keeps (s : State) (t : Task) : KeepsForm s (endHarts s t) := by
  refine KeepsForm.foldl _ _ _ fun s e => ?_
  split
  · exact KeepsForm.refl s
  · rename_i h _
    refine KeepsForm.ite ?_ (KeepsForm.ite ?_ (KeepsForm.refl s))
    · have hh := (haltHart_keeps s e.2).trans (flushCounts_keeps (haltHart s e.2) h.column)
      dsimp only
      split
      · exact hh.trans (KeepsForm.of_mem (leave_mem _ _ _ _))
      · exact hh
    · exact (flushCounts_keeps _ _).trans (KeepsForm.of_mem (leave_mem _ _ _ _))

theorem endTask_keeps (s : State) (id : Nat) (why : EndReason) : KeepsIf s (endTask s id why) := by
  unfold endTask
  split
  · exact keepsIf_none
  · refine KeepsIf.ite keepsIf_none ?_
    split
    · exact keepsIf_none
    · rename_i e
      refine (endFields_keeps e).thenIf (KeepsIf.ite ?_ ?_)
      · exact keepsIf_some.2 (KeepsForm.of_mem (by simp))
      · exact keepsIf_some.2 ((endHarts_keeps _ _).trans (KeepsForm.of_mem (State.modTask_mem _ _ _)))

theorem execTaskEnd_steps (id : Nat) (why : EndReason) (s : State) : Steps s (execTaskEnd id why s) := by
  unfold execTaskEnd
  split
  · exact steps_next.2 (endTask_keeps s id why _ ‹_›)
  · exact steps_cannot

/-! ## Queues and slots (R277, R279) -/

theorem execDoorbell_steps (q p : Nat) (s : State) : Steps s (execDoorbell q p s) :=
  Steps.ite (steps_next.2 (KeepsForm.of_mem (ringDoorbell_mem _ _ _))) steps_cannot

theorem execQueueBind_steps (s : State) : Steps s (execQueueBind s) := by
  refine Steps.ite steps_cannot ?_
  split
  · exact steps_cannot
  · exact steps_next.2 (KeepsForm.of_mem rfl)

theorem execQueueUnbind_steps (slot : Nat) (s : State) : Steps s (execQueueUnbind slot s) := by
  unfold execQueueUnbind
  split
  · exact steps_cannot
  · split
    · exact steps_cannot
    · exact steps_next.2 (KeepsForm.of_mem rfl)

/-! ## The dispatcher (R51, R54, R74, R283) -/

@[simp] theorem checkHeader_mem (s : State) (root : Nat) (r : StartRecord) : (checkHeader s root r).1.mem = s.mem := by
  unfold checkHeader
  split
  · rfl
  · split
    · exact mem_of_fst ‹_› (hubReadBytes_mem _ _ _ _)
    · have hread := mem_of_fst ‹_› (hubReadBytes_mem s root r.khdr 64)
      dsimp only
      split
      · exact hread
      · split <;> exact (mem_of_fst ‹_› (hubReadBytes_mem _ _ _ _)).trans hread

@[simp] theorem checkPages_mem (s : State) (root : Nat) (r : StartRecord) : (checkPages s root r).1.mem = s.mem := by
  unfold checkPages
  split
  · rfl
  · split
    · rfl
    · split
      · exact mem_of_fst ‹_› (hubReadBytes_mem _ _ _ _)
      · dsimp only
        split <;> exact mem_of_fst ‹_› (hubReadBytes_mem _ _ _ _)

@[simp] theorem readCounter_mem (s : State) (root part : Nat) (r : StartRecord) : (readCounter s root part r).1.mem = s.mem := by
  have ht := hubTranslate_mem s root part ⟨true, false, true⟩ r.depaddr
  unfold readCounter
  split
  · rfl
  · split
    · rfl
    · split
      · exact mem_of_fst ‹_› ht
      · have ht := mem_of_fst ‹_› ht
        split
        · exact ht
        · split
          · exact ht
          · dsimp only
            split <;> simp [ht]

theorem askCounter_keeps (s : State) (id : Nat) (d : DepRead) : KeepsForm s (askCounter s id d) := by
  cases d with
  | away pa => exact KeepsForm.ite (KeepsForm.refl s) (KeepsIf.getD (sendHub_keeps _ _ _ _ _) (KeepsForm.refl s))
  | met => exact KeepsForm.refl s
  | notMet => exact KeepsForm.refl s
  | bad => exact KeepsForm.refl s

theorem reject_keeps (s : State) (q : Nat) (d : QueueDesc) (r : StartRecord) (status : Nat) : KeepsForm s (reject s q d r status) :=
  (writeCompletionRecord_keeps _ _ _ _ _ _).trans (KeepsForm.of_mem (takeHead_mem _ _))

@[simp] theorem headRecord_mem (s : State) (d : QueueDesc) : (headRecord s d).1.mem = s.mem :=
  (recordPieces_mem _ _ _).trans (hubAccess_mem _ _ _)

theorem execDispatchHead_steps (q : Nat) (s : State) : Steps s (execDispatchHead q s) := by
  unfold execDispatchHead
  dsimp only
  refine Steps.ite steps_cannot ?_
  refine (KeepsForm.of_mem (headRecord_mem s (s.queue q))).thenSteps (t := (headRecord s (s.queue q)).1) ?_
  generalize headRecord s (s.queue q) = p
  obtain ⟨s, r⟩ := p
  have hreject (s d r st) := steps_next.2 (reject_keeps s q d r st)
  refine Steps.ite (steps_next.2 (KeepsForm.of_mem (takeHead_mem _ _))) (Steps.ite (hreject _ _ _ _) ?_)
  split
  · exact (KeepsForm.of_mem (mem_of_fst ‹_› (checkHeader_mem _ _ _))).thenSteps (hreject _ _ _ _)
  · refine (KeepsForm.of_mem (mem_of_fst ‹_› (checkHeader_mem _ _ _))).thenSteps ?_
    split
    · exact (KeepsForm.of_mem (mem_of_fst ‹_› (checkPages_mem _ _ _))).thenSteps (hreject _ _ _ _)
    · refine (KeepsForm.of_mem (mem_of_fst ‹_› (checkPages_mem _ _ _))).thenSteps ?_
      split
      · exact (KeepsForm.of_mem (mem_of_fst ‹_› (readCounter_mem _ _ _ _))).thenSteps (hreject _ _ _ _)
      · rename_i e
        refine (KeepsForm.of_mem (mem_of_fst e (readCounter_mem _ _ _ _))).thenSteps (steps_next.2 ?_)
        exact (askCounter_keeps _ _ _).after rfl

theorem execDependenceReread_steps (id : Nat) (s : State) : Steps s (execDependenceReread id s) := by
  unfold execDependenceReread
  split
  · exact steps_cannot
  · refine Steps.ite steps_cannot ?_
    split <;> refine (KeepsForm.of_mem (mem_of_fst ‹_› (readCounter_mem _ _ _ _))).thenSteps (steps_next.2 ?_)
    · exact KeepsForm.of_mem rfl
    · exact KeepsForm.refl _
    · exact askCounter_keeps _ _ _
    · exact (writeCompletionRecord_keeps _ _ _ _ _ _).trans (KeepsForm.of_mem (takeHead_mem _ _))

theorem execAgingTick_steps (id : Nat) (s : State) : Steps s (execAgingTick id s) := by
  unfold execAgingTick
  split
  · exact steps_cannot
  · exact Steps.ite steps_cannot (steps_next.2 (KeepsForm.of_mem rfl))

/-! ## Grants (R52, R286, R287) -/

@[simp] theorem fetchCode_mem (s : State) (t : Task) (p : Spot) : (fetchCode s t p).1.mem = s.mem := by
  unfold fetchCode
  split
  · rfl
  · exact hubReadBytes_mem _ _ _ _

/-- The state in which a placing of harts ends keeps the form. -/
def PlacesKeep (s : State) : Placed → Prop
  | .done t => KeepsForm s t
  | .noPlace => True
  | .badCode t _ _ _ => KeepsForm s t

theorem PlacesKeep.after {s t : State} (h : KeepsForm s t) : ∀ {r : Placed}, PlacesKeep t r → PlacesKeep s r
  | .done _, hr => h.trans hr
  | .noPlace, _ => trivial
  | .badCode .., hr => h.trans hr

theorem placeHarts_keep (id n : Nat) : ∀ (r : Nat) (picks : List Nat) (s : State), PlacesKeep s (placeHarts id n r picks s) := by
  induction n with
  | zero => exact fun _ _ s => KeepsForm.refl s
  | succ n ih =>
    intro r picks s
    unfold placeHarts
    split
    · trivial
    · split
      · trivial
      · split
        · exact KeepsForm.of_mem (mem_of_fst ‹_› (fetchCode_mem _ _ _))
        · refine PlacesKeep.after ?_ (ih _ _ _)
          refine (KeepsForm.of_mem ?_).trans (giveDebugBlock_keeps _ _)
          exact (addHart_mem _ _ _ _ _ _).trans (mem_of_fst ‹_› (fetchCode_mem _ _ _))

theorem grant_steps (s : State) (id : Nat) (t : Task) (n : Nat) (picks : List Nat) : Steps s (grant s id t n picks) := by
  have hp := placeHarts_keep id n t.granted picks s
  unfold grant
  split <;> (rename_i e; rw [e] at hp)
  · exact steps_next.2 (KeepsForm.trans hp (KeepsForm.of_mem (by simp)))
  · exact steps_cannot
  · dsimp only
    refine KeepsForm.thenSteps (KeepsForm.trans hp (KeepsForm.of_mem (State.modTask_mem _ id fun t => { t with phase := .started }))) ?_
    split
    · exact steps_next.2 (endTask_keeps _ _ _ _ ‹_›)
    · exact steps_cannot

theorem execTaskStart_steps (id : Nat) (pick : List Nat) (s : State) : Steps s (execTaskStart id pick s) := by
  unfold execTaskStart
  split
  · exact steps_cannot
  · refine Steps.ite steps_cannot ?_
    exact KeepsForm.thenSteps (KeepsForm.of_mem (takeHead_mem (s.setTask id _) _)) (grant_steps _ _ _ _ _)

theorem execHartGrant_steps (id : Nat) (pick : List Nat) (s : State) : Steps s (execHartGrant id pick s) := by
  unfold execHartGrant
  split
  · exact steps_cannot
  · exact Steps.ite steps_cannot (grant_steps _ _ _ _ _)

/-! ## Pre-emption (R288 to R291) -/

theorem preempt_mem {s t : State} {id : Nat} {k : Task} {among : Option (List Hart) → Nat → Task → Bool}
    (e : preempt s id k among = some t) : t.mem = s.mem := by
  obtain ⟨l, -, rfl⟩ := Option.map_eq_some_iff.1 e
  exact askHalt_mem _ _ _

theorem preempt_keeps (s : State) (id : Nat) (k : Task) (among : Option (List Hart) → Nat → Task → Bool) :
    KeepsIf s (preempt s id k among) := fun _ e => KeepsForm.of_mem (preempt_mem e)

theorem execPreemptionRequest_steps (id : Nat) (s : State) : Steps s (execPreemptionRequest id s) := by
  unfold execPreemptionRequest
  split
  · rename_i e
    obtain ⟨t, -, ht⟩ := Option.bind_eq_some_iff.1 e
    exact steps_next.2 (preempt_keeps _ _ _ _ _ ht)
  · exact steps_cannot

theorem execSliceExpiry_steps (id waiter : Nat) (s : State) : Steps s (execSliceExpiry id waiter s) := by
  unfold execSliceExpiry
  split
  · refine Steps.ite steps_cannot (steps_next.2 ?_)
    exact KeepsForm.trans (KeepsForm.of_mem (State.setTask_mem s id _)) (KeepsIf.getD (preempt_keeps _ _ _ _) (KeepsForm.refl _))
  · exact steps_cannot

theorem execHartHalt_steps (h : Nat) (s : State) : Steps s (execHartHalt h s) := by
  unfold execHartHalt
  split
  · exact steps_cannot
  · exact Steps.ite steps_cannot (steps_next.2 ((haltHart_keeps s h).trans (KeepsForm.of_mem (modHart_mem _ _ _))))

@[simp] theorem contextRows_mem (s : State) (h : Hart) : (contextRows s h).mem = s.mem := foldl_mem _ _ _ fun s c => ask_mem s c _

theorem execHartSaved_steps (h : Nat) (s : State) : Steps s (execHartSaved h s) := by
  unfold execHartSaved
  split
  · exact steps_cannot
  · refine Steps.ite steps_cannot (steps_next.2 ?_)
    have hrows := (flushCounts_keeps s ‹Hart›.column).trans (KeepsForm.of_mem (contextRows_mem _ ‹Hart›))
    exact (hrows.trans (writeFrame_keeps _ _ _ _ _)).trans (KeepsForm.of_mem (freeRows_mem _ _ _))

@[simp] theorem restoreBad_mem (s : State) (h : Hart) (b : BadContext) : (restoreBad s h b).1.mem = s.mem := State.modCol_mem _ _ _

theorem returnHart_keeps (s : State) (id : Nat) (h : Hart) : KeepsForm s (returnHart s id h) := by
  unfold returnHart
  split
  · exact KeepsForm.refl s
  · rename_i t _
    have hpages : (pagesNow (contextRows s h) t).1.mem = s.mem := (pagesNow_mem _ _).trans (contextRows_mem _ _)
    generalize pagesNow (contextRows s h) t = p at hpages ⊢
    obtain ⟨u, pages⟩ := p
    refine KeepsForm.trans ?_ (KeepsForm.trans (writeFrame_keeps _ _ _ _ _) (KeepsForm.of_mem (State.setHart_mem _ _ _)))
    refine KeepsForm.of_mem (Eq.trans (foldl_fst_mem _ ?_ _ _) hpages)
    exact fun _ _ => restoreBad_mem _ _ _

theorem returnAll_keeps (l : List Nat) : ∀ s : State, KeepsIf s (returnAll s l) := by
  induction l with
  | nil => exact fun s => keepsIf_some.2 (KeepsForm.refl s)
  | cons id l ih =>
    intro s
    unfold returnAll
    split
    · exact keepsIf_none
    · refine KeepsIf.ite (ih s) ?_
      split
      · exact keepsIf_none
      · exact (returnHart_keeps _ _ _).thenIf (ih _)

theorem execHartResume_steps (id : Nat) (s : State) : Steps s (execHartResume id s) := by
  unfold execHartResume
  split
  · exact steps_cannot
  · split
    · exact steps_cannot
    · refine Steps.ite steps_cannot ?_
      split
      · refine (returnAll_keeps _ _ _ ‹_›).thenSteps (steps_next.2 ?_)
        have htaken (s : State) (id : Nat) : KeepsForm s (takenUp (resetAging s id) id) := KeepsForm.of_mem (by simp)
        exact KeepsForm.ite ((htaken _ _).trans (KeepsIf.getD (endTask_keeps _ _ _) (KeepsForm.refl _))) (htaken _ _)
      · exact steps_cannot

/-! ## Barriers and waits -/

theorem execBarrierPhase_steps (id : Nat) (s : State) : Steps s (execBarrierPhase id s) := by
  unfold execBarrierPhase
  split
  · exact steps_cannot
  · exact Steps.ite steps_cannot (steps_next.2 ((KeepsForm.of_mem (State.setTask_mem s id _)).trans
      (KeepsForm.foldl _ _ _ fun s e => KeepsForm.of_mem (modHart_mem s e.1 _))))

theorem execWaitevWake_steps (id : Nat) (s : State) : Steps s (execWaitevWake id s) := by
  unfold execWaitevWake
  split
  · exact steps_cannot
  · split
    · exact Steps.ite (steps_next.2 (KeepsForm.of_mem rfl)) steps_cannot
    · exact steps_cannot

theorem execWaitevTimeout_steps (id : Nat) (s : State) : Steps s (execWaitevTimeout id s) := by
  unfold execWaitevTimeout
  split
  · exact steps_cannot
  · split
    · exact steps_next.2 (KeepsForm.of_mem rfl)
    · exact steps_cannot

end Sys2Proof.Machine
end

section
/-! SUPPORT. The sequencer, the ways, retirement, trap delivery, the steward's hand on a hart, shootdown, remote accesses and refresh keep
memory's canonical form (R21, R73, R100, R174, R296, R311 to R316, R341 to R343). -/

namespace Sys2Proof.Machine

variable {c : Ctx}

/-! ## The sequencer and the ways (R21, R100, R179, R293, R316) -/

@[simp] theorem pass_mem (s : State) (c n : Nat) : (pass s c n).mem = s.mem := rfl

@[simp] theorem tick_mem (s : State) (c n : Nat) : (tick s c n).mem = s.mem := by simp [tick]

theorem execSequencerIssue_steps (c : Nat) (s : State) : Steps s (execSequencerIssue c s) := by
  refine Steps.ite steps_cannot ?_
  dsimp only
  split
  · exact steps_next.2 (KeepsForm.of_mem (tick_mem _ _ _))
  · exact steps_next.2 (KeepsForm.of_mem (by simp))

theorem execWayActivation_steps (c way row : Nat) (src : ActSource) (segs : Nat) (s : State) :
    Steps s (execWayActivation c way row src segs s) := by
  refine Steps.ite steps_cannot ?_
  dsimp only
  split
  · exact Steps.ite (steps_next.2 (KeepsForm.of_mem (grantRequest_mem _ _ _))) steps_cannot
  · refine Steps.ite steps_cannot (steps_next.2 (KeepsForm.ite ?_ (KeepsForm.of_mem rfl)))
    exact KeepsForm.of_mem (grantRequest_mem _ _ _)

theorem execSpeculativePreactivation_steps (n c way row : Nat) (s : State) : Steps s (execSpeculativePreactivation n c way row s) := by
  unfold execSpeculativePreactivation
  split
  · exact steps_cannot
  · exact Steps.ite steps_cannot (steps_next.2 (KeepsForm.of_mem (State.modCol_mem _ _ _)))

theorem execSpeculativeDiscard_steps (c n : Nat) (s : State) : Steps s (execSpeculativeDiscard c n s) := by
  unfold execSpeculativeDiscard
  split
  · exact Steps.ite (steps_next.2 (KeepsForm.of_mem (State.modCol_mem _ _ _))) steps_cannot
  · exact steps_cannot

theorem execClass5Promotion_steps (c n : Nat) (s : State) : Steps s (execClass5Promotion c n s) := by
  unfold execClass5Promotion
  split
  · exact Steps.ite (steps_next.2 (KeepsForm.of_mem (State.modCol_mem _ _ _))) steps_cannot
  · exact steps_cannot

theorem execAlertDeadline_steps (c way row : Nat) (s : State) : Steps s (execAlertDeadline c way row s) :=
  Steps.ite (steps_next.2 (KeepsForm.of_mem (ask_mem _ _ _))) steps_cannot

/-! ## Retirement and performing (R150, R163, R174, R182, R203) -/

theorem execElementGroupValid_steps (n v g : Nat) (s : State) : Steps s (execElementGroupValid n v g s) := by
  unfold execElementGroupValid
  split
  · exact steps_cannot
  · exact Steps.ite (steps_next.2 (KeepsForm.of_mem rfl)) steps_cannot

theorem execVectorRetire_steps (n : Nat) (s : State) : Steps s (execVectorRetire n s) := by
  unfold execVectorRetire
  split
  · exact Steps.ite (steps_next.2 (KeepsForm.of_mem (commitShadow_mem _ _))) steps_cannot
  · split
    · exact steps_next.2 (retireFront_keeps _ _ _ _)
    · exact Steps.ite (steps_next.2 (KeepsForm.of_mem (modHart_mem s n _))) steps_cannot
  · exact steps_cannot

theorem execScalarRetire_steps (n : Nat) (s : State) : Steps s (execScalarRetire n s) := by
  unfold execScalarRetire
  split
  · exact Steps.ite (steps_next.2 (KeepsForm.of_mem (commitShadow_mem _ _))) steps_cannot
  · exact steps_cannot

theorem execStoreBufferPerform_steps (n i : Nat) (s : State) : Steps s (execStoreBufferPerform n i s) := by
  unfold execStoreBufferPerform
  split
  · exact steps_cannot
  · split
    · exact steps_cannot
    · exact Steps.ite steps_cannot (steps_next.2 ((performStores_keeps _ _ _).trans (KeepsForm.of_mem (modHart_mem _ _ _))))

theorem execElementWritePerform_steps (n i : Nat) (s : State) : Steps s (execElementWritePerform n i s) := by
  unfold execElementWritePerform
  split
  · exact steps_cannot
  · split
    · exact steps_cannot
    · exact Steps.ite (steps_next.2 ((performElem_keeps _ _ _).trans (KeepsForm.of_mem (modHart_mem _ _ _)))) steps_cannot

/-! ## Traps (R296, R299, R302) -/

theorem execTrapDelivery_steps (n : Nat) (cause : Cause) (pc info : Word) (s : State) : Steps s (execTrapDelivery n cause pc info s) := by
  unfold execTrapDelivery
  split
  · exact Steps.ite steps_cannot (steps_next.2 (deliver_keeps _ _ _ _ _ _))
  · exact steps_cannot

theorem deliverDue_keeps (s : State) (n : Nat) (h : Hart) : KeepsIf s (deliverDue s n h) := by
  refine KeepsIf.ite keepsIf_none fun t e => ?_
  obtain ⟨d, -, rfl⟩ := Option.map_eq_some_iff.1 e
  exact deliver_keeps _ _ _ _ _ _

theorem execAsyncDelivery_steps (n : Nat) (s : State) : Steps s (execAsyncDelivery n s) := by
  unfold execAsyncDelivery
  split
  · rename_i e
    obtain ⟨h, -, ht⟩ := Option.bind_eq_some_iff.1 e
    exact steps_next.2 (deliverDue_keeps _ _ _ _ ht)
  · exact steps_cannot

/-! ## The steward's hand on a hart (R16, R300, R321, R329) -/

theorem writeBlock_formed (h : Formed c.s) (off : Nat) (b : Byte) : Formed (writeBlock c off b).s := by
  unfold writeBlock
  split
  · split
    · exact (writeBytes_keeps _ _ _ _).formed h
    · exact h
  · exact h

theorem Formed.ite {p : Prop} [Decidable p] {a b : Ctx} (ha : Formed a.s) (hb : Formed b.s) : Formed (if p then a else b).s := by
  split
  · exact ha
  · exact hb

theorem stewardEdit_formed (h : Formed c.s) (e : StewardEdit) : Formed (stewardEdit c e).s := by
  cases e with
  | x | p | mask | vl | rft | dump => exact h
  | word | tag | entry | ways | shape | perm | laneFlags | scratch | tile | generator | tcm => exact Formed.ite h h
  | system n v => exact Formed.ite h (sysWrite_formed h _ _)
  | code off b => exact h.of_mem (State.modCol_mem _ _ _)
  | testRow way off b => exact Formed.ite (h.of_mem rfl) h
  | block off b => exact writeBlock_formed h _ _

theorem stewardEdits_formed (xs : List StewardEdit) : ∀ {c : Ctx}, Formed c.s → Formed (xs.foldl stewardEdit c).s := by
  induction xs with
  | nil => exact fun h => h
  | cons e xs ih => exact fun h => ih (stewardEdit_formed h e)

theorem execStewardResume_steps (n : Nat) (pc : Option Word) (xs : List StewardEdit) (s : State) :
    Steps s (execStewardResume n pc xs s) := by
  unfold execStewardResume
  split
  · exact steps_cannot
  · split
    · exact Steps.ite steps_cannot (steps_next.2 fun hs => stewardEdits_formed xs (c := ⟨s, n, _, _, _, _, _, _⟩) hs)
    · exact Steps.ite steps_cannot (steps_next.2 fun hs => stewardEdits_formed xs (c := ⟨s, n, _, _, _, _, _, _⟩) hs)

theorem execStewardDeliver_steps (n : Nat) (s : State) : Steps s (execStewardDeliver n s) := by
  unfold execStewardDeliver
  split
  · exact steps_cannot
  · split
    · exact Steps.ite steps_cannot (steps_next.2 ((writeFrame_keeps _ _ _ _ _).trans (KeepsForm.of_mem (State.setHart_mem _ _ _))))
    · exact steps_cannot

/-! ## Shootdown (R73, R77) -/

theorem execShootdown_steps (root : Nat) (vpages : List Nat) (s : State) : Steps s (execShootdown root vpages s) :=
  steps_next.2 (KeepsForm.of_mem rfl)

theorem execRowWindowReload_steps (c t vpage : Nat) (leaf : BitVec 64) (s : State) : Steps s (execRowWindowReload c t vpage leaf s) :=
  Steps.ite steps_cannot (steps_next.2 (KeepsForm.of_mem (State.modTask_mem _ _ _)))

theorem execRowWindowTimeout_steps (n : Nat) (s : State) : Steps s (execRowWindowTimeout n s) := by
  unfold execRowWindowTimeout
  split
  · exact steps_cannot
  · split
    · exact Steps.ite (steps_next.2 (deliver_keeps _ _ _ _ _ _)) steps_cannot
    · exact steps_cannot

/-! ## Remote accesses (R340 to R343, R346) -/

theorem remoteLoaded_keeps (s : State) (id : Nat) (r : Remote) (h : Hart) (data : Option Nat) : KeepsIf s (remoteLoaded s id r h data) := by
  unfold remoteLoaded
  split
  · exact KeepsIf.ite (keepsIf_some.2 (KeepsForm.of_mem rfl)) (keepsIf_some.2 (KeepsForm.refl s))
  · split
    · exact keepsIf_some.2 (KeepsForm.refl s)
    · refine KeepsIf.ite (keepsIf_some.2 (KeepsForm.refl s)) (KeepsIf.ite keepsIf_none ?_)
      have ht := KeepsForm.of_mem (hartTranslate_mem s h ⟨true, false, true⟩ r.va.toNat)
      generalize hartTranslate s h ⟨true, false, true⟩ r.va.toNat = p at ht ⊢
      obtain ⟨u, leaf⟩ := p
      refine ht.thenIf (KeepsIf.ite ?_ (deliverElement_keeps _ _ _ _ _ _ _ _))
      exact (KeepsForm.of_mem (t := { u with outstanding := put u.outstanding id r }) rfl).thenIf (holdStrip_keeps _ _ _)

theorem keepOut_keeps {s : State} {id step : Nat} {r : Remote} {sent : Option State} (h : KeepsIf s sent) :
    KeepsForm s (keepOut s id r step sent) := by
  unfold keepOut
  split
  · exact (h _ rfl).trans (KeepsForm.of_mem rfl)
  · exact KeepsForm.of_mem rfl

theorem writeNibble_keeps (s : State) (id : Nat) (r : Remote) (high : Bool) (old : Nat) : KeepsForm s (writeNibble s id r high old) :=
  keepOut_keeps (sendWrite_keeps _ _ _ _)

@[simp] theorem launchWaiting_mem (s : State) : (launchWaiting s).mem = s.mem := by
  refine foldl_mem _ _ _ fun s e => ?_
  split
  · exact launch_mem _ _ _
  · rfl

theorem remoteEnds_keeps (s : State) (id : Nat) (r : Remote) (data : Option Nat) : KeepsIf s (remoteEnds s id r data) := by
  unfold remoteEnds
  split
  · exact keepsIf_some.2 (writeNibble_keeps _ _ _ _ _)
  · dsimp only
    generalize hgone : launchWaiting _ = u
    have hu : u.mem = s.mem := by
      rw [← hgone, launchWaiting_mem]
      split <;> rfl
    refine (KeepsForm.of_mem hu).thenIf ?_
    split
    · exact keepsIf_some.2 (KeepsForm.refl _)
    · refine (KeepsForm.of_mem (State.setHart_mem _ r.hart _)).thenIf (KeepsIf.ite (remoteLoaded_keeps _ _ _ _ _) (KeepsIf.ite ?_ ?_))
      · exact (endTask_keeps _ _ _).orElse (keepsIf_some.2 (KeepsForm.refl _))
      · exact keepsIf_some.2 (KeepsForm.refl _)

@[simp] theorem hubEnds_mem (s : State) (id : Nat) (a : HubAccess) (data : Option Nat) : (hubEnds s id a data).mem = s.mem := by
  unfold hubEnds
  dsimp only
  generalize hnoted : (if data.isNone = true then _ else _ : State) = u
  have hu : u.mem = s.mem := by
    rw [← hnoted]
    split <;> rfl
  split
  · split
    · split <;> exact hu
    · exact hu
  · exact hu

theorem hubEnds_keeps (s : State) (id : Nat) (a : HubAccess) (data : Option Nat) : KeepsIf s (some (hubEnds s id a data)) :=
  keepsIf_some.2 (KeepsForm.of_mem (hubEnds_mem _ _ _ _))

/-- The state of a payload has the memory of another. -/
def Payload.SameMem (s : State) : Payload → Prop
  | .ok t _ => t.mem = s.mem
  | .refused => True
  | .dropped t _ => t.mem = s.mem

theorem openIn_mem (s : State) (part : Nat) (qp : HostQp) (hd : Nat → List Byte) (data : List Byte) :
    (openIn s part qp hd data).SameMem s := by
  unfold openIn
  split
  · rfl
  · dsimp only
    split
    · rfl
    · split
      · trivial
      · split <;> rfl

theorem openAnswer_mem (s : State) (pa n v : Nat) : (openAnswer s pa n v).SameMem s := by
  unfold openAnswer
  dsimp only
  split
  · rfl
  · split
    · rfl
    · exact openIn_mem _ _ _ _ _

theorem answered_keeps (s : State) (pa n v : Nat) (ends : State → Option Nat → Option State) (he : ∀ t d, KeepsIf t (ends t d)) :
    KeepsIf s (answered s pa n v ends) := by
  have ho := openAnswer_mem s pa n v
  unfold answered
  split <;> (rename_i e; rw [e] at ho)
  · exact (KeepsForm.of_mem ho).thenIf (he _ _)
  · exact he _ _
  · exact keepsIf_some.2 (KeepsForm.of_mem ho)

/-- What an event answers that goes on as an operation allows. -/
theorem KeepsIf.steps {s : State} {o : Option State} : KeepsIf s o → Steps s (match o with | some s => .next s | none => cannot) := by
  cases o with
  | none => exact fun _ => steps_cannot
  | some t => exact fun h => steps_next.2 (h t rfl)

theorem execRemoteResponse_steps (id : Nat) (data : Option Nat) (s : State) : Steps s (execRemoteResponse id data s) := by
  refine KeepsIf.steps ?_
  split
  · refine KeepsIf.ite keepsIf_none (KeepsIf.ite ?_ (remoteEnds_keeps _ _ _ _))
    exact answered_keeps _ _ _ _ _ fun _ _ => remoteEnds_keeps _ _ _ _
  · exact KeepsIf.ite keepsIf_none (remoteEnds_keeps _ _ _ _)
  · exact KeepsIf.ite (answered_keeps _ _ _ _ _ fun _ _ => hubEnds_keeps _ _ _ _) (hubEnds_keeps _ _ _ _)
  · exact hubEnds_keeps _ _ _ _
  · exact keepsIf_none

theorem execRemoteTimeout_steps (id : Nat) (s : State) : Steps s (execRemoteTimeout id s) := by
  refine KeepsIf.steps ?_
  split
  · exact KeepsIf.ite keepsIf_none (remoteEnds_keeps _ _ _ _)
  · exact hubEnds_keeps _ _ _ _
  · exact keepsIf_none

theorem resend_keeps (s : State) (id : Nat) (r : Remote) : KeepsForm s (resend s id r) := keepOut_keeps (sendWrite_keeps _ _ _ _)

theorem resendHub_keeps (s : State) (id : Nat) (a : HubAccess) : KeepsForm s (resendHub s id a) := by
  unfold resendHub
  dsimp only
  split
  · rename_i e
    exact (sendWrite_keeps _ _ _ _ _ e).trans (KeepsForm.of_mem rfl)
  · exact KeepsForm.of_mem (hubEnds_mem _ _ _ _)

theorem execScaleupPortFailure_steps (port : Nat) (s : State) : Steps s (execScaleupPortFailure port s) := by
  refine Steps.ite (steps_next.2 ?_) steps_cannot
  refine KeepsForm.trans ?_ (KeepsForm.foldl _ _ _ fun s e => resendHub_keeps s e.1 e.2)
  refine KeepsForm.trans ?_ (KeepsForm.foldl _ _ _ fun s e => resend_keeps s e.1 e.2)
  exact KeepsForm.of_mem rfl

theorem execIncomingRemoteAccess_steps (pa n : Nat) (data : Option PeerWrite) (s : State) :
    Steps s (execIncomingRemoteAccess pa n data s) := by
  refine Steps.ite (steps_next.2 (KeepsForm.of_mem rfl)) ?_
  dsimp only
  split
  · exact steps_next.2 ((KeepsForm.of_mem (baseAccess_mem _ _ _)).trans (writeBytes_keeps _ _ _ _))
  · exact steps_next.2 (KeepsForm.of_mem ((recordPieces_mem _ _ _).trans (hubAccess_mem _ _ _)))

/-! ## Refresh (R311 to R313) -/

@[simp] theorem raiseDeadline_mem (s : State) (c : Nat) : (raiseDeadline s c).mem = s.mem := by
  unfold raiseDeadline
  dsimp only
  split
  · exact modHart_mem _ _ _
  · rfl

theorem execRefreshInterval_steps (c : Nat) (s : State) : Steps s (execRefreshInterval c s) := by
  refine Steps.ite steps_cannot (steps_next.2 (KeepsForm.of_mem ?_))
  simp only [apply_ite State.mem, ask_mem, State.modCol_mem, raiseDeadline_mem, ite_self]

end Sys2Proof.Machine
end

section
/-! SUPPORT. Lane retirement, remapping, the hardware's faults, power and bring-up keep memory's canonical form (R10, R308 to R310, R317, R344,
R357 to R363). -/

namespace Sys2Proof.Machine

/-! ## A hart on fewer lanes (R309, R320) -/

/-- The state that moving a hart leaves, if it can be moved, keeps the form. -/
theorem moveHart_keeps {s t : State} {n c : Nat} {h : Hart} {r : Except (Nat × Cause) Hart} (e : moveHart s n h c = some (t, r)) :
    KeepsForm s t := by
  unfold moveHart at e
  split at e
  · cases e
    exact KeepsForm.refl s
  · split at e
    · cases e
    · split at e
      · cases e
      · split at e
        · cases e
          exact KeepsForm.of_mem (mem_of_fst ‹_› (fetchCode_mem _ _ _))
        · rename_i hf
          cases e
          refine (KeepsForm.of_mem (mem_of_fst hf (fetchCode_mem _ _ _))).trans ((flushCounts_keeps _ h.column).trans (KeepsForm.of_mem ?_))
          exact (dropCode_mem _ _).trans (freeRows_mem (flushCounts _ _) n h.column)

theorem becomeSaved_keeps (s : State) (n : Nat) (h : Hart) : KeepsForm s (becomeSaved s n h).1 := by
  unfold becomeSaved
  split
  · exact KeepsForm.refl s
  · exact ((flushCounts_keeps _ _).trans (writeFrame_keeps _ _ _ _ _)).trans (KeepsForm.of_mem (freeRows_mem _ _ _))

theorem shrinkHart_keeps (s : State) (n : Nat) (h : Hart) (half : Nat) : KeepsIf s (shrinkHart s n h half) := by
  have hu := dropOwner_mem s n h
  unfold shrinkHart
  generalize dropOwner s n h = u at hu ⊢
  dsimp only
  refine (KeepsForm.of_mem hu).thenIf (KeepsIf.ite (KeepsIf.ite ?_ ?_) ?_)
  · exact keepsIf_some.2 (KeepsForm.of_mem rfl)
  · exact keepsIf_some.2 (KeepsForm.after (becomeSaved_keeps _ n _) rfl)
  · split
    · exact keepsIf_none
    · split
      · exact keepsIf_none
      · rename_i e
        exact (KeepsForm.after (moveHart_keeps e) rfl).thenIf (endTask_keeps _ _ _)
      · rename_i e
        exact keepsIf_some.2 ((KeepsForm.after (moveHart_keeps e) rfl).trans (KeepsForm.of_mem rfl))

theorem machineCheck_keeps (s : State) (t : Nat) : KeepsForm s (machineCheck s t) := KeepsIf.getD (endTask_keeps _ _ _) (KeepsForm.refl s)

theorem failColumn_keeps (s : State) (c : Nat) : KeepsForm s (failColumn s c) :=
  (KeepsForm.foldl _ _ _ machineCheck_keeps).after (State.modCol_mem s c _)

theorem haltColumn_keeps (s : State) (c : Nat) (who : Hart → Bool) : KeepsForm s (haltColumn s c who) :=
  KeepsForm.foldl _ _ _ fun s e => KeepsForm.ite (haltHart_keeps s e.1) (KeepsForm.refl s)

theorem execLaneRetirement_steps (c cluster : Nat) (s : State) : Steps s (execLaneRetirement c cluster s) := by
  refine Steps.ite steps_cannot ?_
  dsimp only
  split
  · exact steps_next.2 ((haltColumn_keeps _ _ _).after rfl)
  · refine steps_next.2 (((haltColumn_keeps _ _ _).trans (KeepsForm.foldl _ _ _ fun s e => ?_)).after rfl)
    split
    · exact KeepsForm.ite (KeepsIf.getD (shrinkHart_keeps _ _ _ _) (machineCheck_keeps _ _)) (KeepsForm.refl s)
    · exact KeepsForm.refl s
  · exact steps_next.2 ((failColumn_keeps _ _).after rfl)

/-! ## Remap tables and what befalls the hardware (R304 to R306, R310, R364) -/

theorem loadTable_keeps (s : State) (c : Nat) : KeepsForm s (loadTable s c) := by
  unfold loadTable
  dsimp only
  split
  · exact (failColumn_keeps _ _).after rfl
  · exact KeepsForm.of_mem rfl

@[simp] theorem askCopies_mem (s : State) (c : Nat) (ways : List Nat) : (askCopies s c ways).mem = s.mem := ask_mem _ _ _

/-- Memory is apart from the boot flash. -/
theorem withFlash_mem (s : State) (m : AMap (BitVec 32)) : ({ s with flashRemap := m } : State).mem = s.mem := rfl

theorem execRemapUpdate_steps (c way spare row : Nat) (s : State) : Steps s (execRemapUpdate c way spare row s) := by
  unfold execRemapUpdate
  refine Steps.ite steps_cannot (steps_next.2 ?_)
  refine KeepsForm.trans ?_ (KeepsForm.foldl _ _ _ poisonPiece_keeps)
  refine KeepsForm.trans ?_ (KeepsForm.of_mem (baseAccess_mem _ _ _))
  refine (loadTable_keeps _ c).after ?_
  refine (askCopies_mem _ _ _).trans ((askCopies_mem _ _ _).trans ((State.modCol_mem _ _ _).trans ((State.note_mem _ _).trans ?_)))
  exact (withFlash_mem _ _).trans ((recordPieces_mem _ _ _).trans (baseAccess_mem _ _ _))

@[simp] theorem changeHart_mem (s : State) (n : Nat) (f : Hart → Hart) : (changeHart s n f).mem = s.mem := by
  unfold changeHart
  dsimp only
  split <;> exact modHart_mem _ _ _

@[simp] theorem befall_mem (s : State) (u : Upset) : (befall s u).mem = s.mem := by
  cases u with
  | corrected pa | piece pa lasting | remapCopy => exact (apply_ite State.mem _ _ _).trans (ite_self _)
  | context n bad => exact modHart_mem _ _ _
  | parity | residue => exact changeHart_mem _ _ _
  | defect d => rfl

/-! ## Clock, budgets and power (R10, R27, R317, R357 to R361) -/

theorem execArrayRatioChange_steps (stack : Nat) (ratio : ArrayRatio) (s : State) : Steps s (execArrayRatioChange stack ratio s) := by
  refine Steps.ite steps_cannot (steps_next.2 (KeepsForm.of_mem ?_))
  exact (State.modStk_mem _ _ _).trans (foldl_mem _ _ _ fun s c => pass_mem s c _)

@[simp] theorem applyLimits_mem (s : State) (stack : Nat) : (applyLimits s stack).mem = s.mem :=
  (State.modStk_mem _ _ _).trans (foldl_mem _ _ _ fun s e => State.modCol_mem s e.1 _)

@[simp] theorem giveBudget_mem (s : State) (stack : Nat) (d : Demand) (budget : Nat) : (giveBudget s stack d budget).mem = s.mem :=
  (applyLimits_mem _ _).trans (State.modStk_mem _ _ _)

theorem execBudgetRecompute_steps (s : State) : Steps s (execBudgetRecompute s) :=
  steps_next.2 (KeepsForm.of_mem (foldl_mem _ _ _ fun s e => giveBudget_mem s e.2 e.1.1 e.1.2))

/-- A power loss leaves no memory, and none is the canonical form of memory that is zero. -/
theorem powerLost_keeps (s : State) : KeepsForm s (powerLost s) := fun _ => rfl

theorem execPowerRemoval_steps (s : State) : Steps s (execPowerRemoval s) := Steps.ite (steps_next.2 (powerLost_keeps s)) steps_cannot

theorem execMonitorReading_steps (temps : List (List Nat)) (lowRows okRows : List (Nat × Nat)) (s : State) :
    Steps s (execMonitorReading temps lowRows okRows s) := by
  refine Steps.ite (Steps.ite (steps_next.2 (powerLost_keeps s)) steps_cannot) (steps_next.2 (KeepsForm.of_mem ?_))
  exact foldl_mem _ _ _ fun s n => (applyLimits_mem _ _).trans (State.modStk_mem _ _ _)

theorem execModcapWrite_steps (v : BitVec 16) (s : State) : Steps s (execModcapWrite v s) := steps_next.2 (KeepsForm.of_mem rfl)

/-! ## Bring-up (R344, R362, R363) -/

@[simp] theorem measure_mem (s : State) (n : Nat) : (measure s n).mem = s.mem := by
  unfold measure
  split <;> rfl

@[simp] theorem trainMemory_mem (s : State) : (trainMemory s).mem = s.mem := by
  refine foldl_mem _ _ _ fun s d => ?_
  split <;> rfl

theorem loadRemap_keeps (s : State) : KeepsForm s (loadRemap s) := by
  refine KeepsForm.after (KeepsForm.foldl _ _ _ loadTable_keeps) ((foldl_mem _ _ _ fun s d => ?_).trans ?_)
  · split <;> rfl
  · exact foldl_mem _ _ _ fun s e => State.modCol_mem s _ _

theorem testLanes_keeps (s : State) : KeepsForm s (testLanes s) := by
  refine KeepsForm.foldl _ _ _ fun s d => ?_
  split
  · refine KeepsForm.ite (KeepsForm.refl s) ?_
    split
    · exact execLaneRetirement_steps _ _ _ _ ‹_›
    · exact KeepsForm.refl s
  · exact KeepsForm.refl s

@[simp] theorem readRings_mem (s : State) : (readRings s).mem = s.mem := foldl_mem _ _ _ fun s n => State.modStk_mem s n _

theorem doStage_keeps (s : State) (n : Nat) : KeepsForm s (doStage s n) := by
  unfold doStage
  split
  · exact KeepsForm.of_mem (measure_mem _ _)
  · exact KeepsForm.of_mem (measure_mem _ _)
  · exact KeepsForm.of_mem (measure_mem _ _)
  · exact KeepsForm.of_mem ((trainMemory_mem _).trans (readRings_mem _))
  · exact loadRemap_keeps s
  · exact testLanes_keeps s
  · exact KeepsForm.of_mem rfl
  · exact KeepsForm.of_mem rfl

theorem bringUp_keeps (l : List Nat) : ∀ s : State, KeepsForm s (bringUp l s) := by
  induction l with
  | nil => exact fun s => KeepsForm.of_mem rfl
  | cons n l ih =>
    intro s
    refine KeepsForm.ite (KeepsForm.of_mem rfl) (KeepsForm.ite (KeepsForm.of_mem ?_) ((doStage_keeps s n).trans (ih _)))
    show (if n ≤ 3 then measure s n else s).mem = s.mem
    split
    · exact measure_mem _ _
    · rfl

theorem execPowerOn_steps (s : State) : Steps s (execPowerOn s) :=
  Steps.ite steps_cannot (steps_next.2 ((powerLost_keeps s).trans ((bringUp_keeps _ _).after rfl)))

end Sys2Proof.Machine
end

section
/-! SUPPORT. What hosts and the steward do over the host ports and the hub registers keeps memory's canonical form (R276, R337 to R340, R345 to
R347). -/

namespace Sys2Proof.Machine

@[simp] theorem sealOut_mem (s : State) (part port qpn : Nat) (headers : Nat → List Byte) (data : List Byte) :
    (sealOut s part port qpn headers data).1.mem = s.mem := by
  unfold sealOut
  split
  · rfl
  · dsimp only
    split
    · rfl
    · split <;> rfl

@[simp] theorem refuse_steps (s : State) (qp : HostQp) : Steps s (refuse s qp) := steps_next.2 (KeepsForm.of_mem rfl)

theorem hostOp_steps (s : State) (qp : HostQp) (rkey : Nat) (k : MemRegion → Result) (hk : ∀ r, Steps s (k r)) :
    Steps s (hostOp s qp rkey k) := by
  refine Steps.ite steps_cannot (Steps.ite (steps_next.2 (KeepsForm.of_mem rfl)) ?_)
  split
  · exact refuse_steps _ _
  · exact Steps.ite (hk _) (refuse_steps _ _)

/-! ## Operations (R337 to R339) -/

theorem hostStore_keeps (s : State) (queues : Bool) (pas : List Nat) (data : List Byte) : KeepsIf s (hostStore s queues pas data) := by
  refine KeepsIf.ite (keepsIf_some.2 ?_) (KeepsIf.ite keepsIf_none (KeepsIf.ite (keepsIf_some.2 ?_) (keepsIf_some.2 ?_)))
  · exact (KeepsForm.of_mem (baseAccess_mem _ _ _)).trans (writeAll_keeps _ _ _ _)
  · exact KeepsForm.of_mem (hubWrite_mem _ _ _ _)
  · exact KeepsForm.of_mem rfl

theorem regionWrite_mem (s : State) (r : MemRegion) (va : Nat) (data : List Byte) : (regionWrite s r va data).1.mem = s.mem := by
  unfold regionWrite
  split <;> exact mem_of_fst ‹_› (regionPlaces_mem _ _ _ _ _)

theorem regionWrite_keeps (s : State) (r : MemRegion) (va : Nat) (data : List Byte) : KeepsIf s (regionWrite s r va data).2 := by
  unfold regionWrite
  split
  · exact keepsIf_none
  · exact (KeepsForm.of_mem (mem_of_fst ‹_› (regionPlaces_mem _ _ _ _ _))).thenIf (hostStore_keeps _ _ _ _)

theorem execRdmaWrite_steps (qp : HostQp) (rkey va : Nat) (data : List Byte) (s : State) : Steps s (execRdmaWrite qp rkey va data s) := by
  refine hostOp_steps _ _ _ _ fun r => ?_
  have ho := openIn_mem s r.part qp (headersOf .hostWrite qp.qpn r.rkey va data.length) data
  split <;> (rename_i e; rw [e] at ho)
  · exact refuse_steps _ _
  · refine (KeepsForm.of_mem ho).thenSteps (steps_next.2 (KeepsForm.trans ?_ (KeepsForm.of_mem (State.reply_mem _ _))))
    exact KeepsForm.ite (KeepsForm.refl _) (KeepsIf.getD (regionWrite_keeps _ _ _ _) (KeepsForm.refl _))
  · rename_i t d
    refine (KeepsForm.of_mem ho).thenSteps ?_
    have hmem := regionWrite_mem t r va d
    have hkeeps := regionWrite_keeps t r va d
    split <;> (rename_i e; rw [e] at hmem hkeeps)
    · exact steps_next.2 ((hkeeps _ rfl).trans (KeepsForm.of_mem (State.reply_mem _ _)))
    · exact (KeepsForm.of_mem hmem).thenSteps (refuse_steps _ _)

theorem answer_steps (s : State) (r : MemRegion) (qp : HostQp) (va : Nat) (bytes : List Byte) : Steps s (answer s r qp va bytes) := by
  unfold answer
  split <;> refine (KeepsForm.of_mem (mem_of_fst ‹_› (sealOut_mem _ _ _ _ _ _))).thenSteps ?_
  · exact steps_next.2 (KeepsForm.of_mem (State.reply_mem _ _))
  · exact refuse_steps _ _

theorem execRdmaRead_steps (qp : HostQp) (rkey va n : Nat) (s : State) : Steps s (execRdmaRead qp rkey va n s) := by
  refine hostOp_steps _ _ _ _ fun r => ?_
  split <;> refine (KeepsForm.of_mem (mem_of_fst ‹_› (regionPlaces_mem _ _ _ _ _))).thenSteps ?_
  · exact refuse_steps _ _
  · refine Steps.ite (refuse_steps _ _) (KeepsForm.thenSteps (KeepsForm.of_mem ?_) (answer_steps _ _ _ _ _))
    exact (recordPieces_mem _ _ _).trans (hubReads_mem _ _)

@[simp] theorem atomicReply_mem (s : State) (qp : HostQp) (pas : List Nat) : (atomicReply s qp pas).1.mem = s.mem :=
  (recordPieces_mem _ _ _).trans (baseAccess_mem _ _ _)

theorem execFetchAndAdd_steps (qp : HostQp) (rkey va : Nat) (v : Word) (s : State) : Steps s (execFetchAndAdd qp rkey va v s) := by
  refine hostOp_steps _ _ _ _ fun r => ?_
  split <;> refine (KeepsForm.of_mem (mem_of_fst ‹_› (atomicPlaces_mem _ _ _))).thenSteps ?_
  · exact refuse_steps _ _
  · refine Steps.ite (refuse_steps _ _) (Steps.ite (steps_next.2 ?_) (Steps.ite (refuse_steps _ _) (steps_next.2 ?_)))
    · exact KeepsForm.of_mem ((hubFetchAdd_mem _ _ _).trans (atomicReply_mem _ _ _))
    · exact (writePieces_keeps _ _ _).after (atomicReply_mem _ qp _)

theorem execCmpAndSwap_steps (qp : HostQp) (rkey va : Nat) (cmp swap : Word) (s : State) :
    Steps s (execCmpAndSwap qp rkey va cmp swap s) := by
  refine hostOp_steps _ _ _ _ fun r => ?_
  split <;> refine (KeepsForm.of_mem (mem_of_fst ‹_› (atomicPlaces_mem _ _ _))).thenSteps ?_
  · exact refuse_steps _ _
  · refine Steps.ite (refuse_steps _ _) (Steps.ite (steps_next.2 ?_) (Steps.ite (refuse_steps _ _) (steps_next.2 ?_)))
    · exact KeepsForm.of_mem (atomicReply_mem _ qp _)
    · exact KeepsForm.ite ((writePieces_keeps _ _ _).after (atomicReply_mem _ qp _)) (KeepsForm.of_mem (atomicReply_mem _ qp _))

theorem execUnsupportedOperation_steps (qp : HostQp) (opcode : Nat) (s : State) : Steps s (execUnsupportedOperation qp opcode s) :=
  Steps.ite steps_cannot (steps_next.2 (KeepsForm.of_mem (State.reply_mem _ _)))

/-! ## The management queue pair and the registers (R276, R341, R345, R346) -/

theorem execAttestationRequest_steps (port : Nat) (nonce : List Byte) (part : Nat) (s : State) :
    Steps s (execAttestationRequest port nonce part s) := Steps.ite steps_cannot (steps_next.2 (KeepsForm.of_mem (State.reply_mem _ _)))

theorem execKeyEncapsulation_steps (port part : Nat) (ct : List Byte) (s : State) : Steps s (execKeyEncapsulation port part ct s) := by
  refine Steps.ite steps_cannot ?_
  split
  · exact refuse_steps _ _
  · exact Steps.ite (refuse_steps _ _) (steps_next.2 (KeepsForm.of_mem rfl))

theorem execPartitionCreation_steps (part : Nat) (confidential : Bool) (regions : List MemRegion) (s : State) :
    Steps s (execPartitionCreation part confidential regions s) := Steps.ite steps_cannot (steps_next.2 (KeepsForm.of_mem rfl))

theorem execRegisterWrite_steps (who : Agent) (addr : Nat) (v : Word) (s : State) : Steps s (execRegisterWrite who addr v s) :=
  Steps.ite (steps_next.2 (KeepsForm.of_mem (hubWrite_mem _ _ _ _))) steps_cannot

end Sys2Proof.Machine
end

section
/-! SUPPORT. Every instruction and event keeps memory's canonical form. -/

namespace Sys2Proof.Machine

theorem exec_steps (i : Instr) (s : State) : Steps s (exec i s) := by
  unfold exec
  cases i with
  | add | sub | mul | mulh | mulhu | div | divu | rem | remu | and | or | xor | shl | shr | sra | min | max | minu | maxu =>
    exact binary_steps _ _ _ _ _ _
  | sel | lui | addpc | fcmp | cmp | pand | por | pxor | pnot | cmpi => exact issue_ret_steps _ _ _ fun _ => rfl
  | clz | ctz | popc | addi | andi | ori | xori | shli | shri | srai => exact unary_steps _ _ _ _ _
  | fadd | fsub | fmul | fma => exact floatOp_steps _ _ _ _ _ _ _
  | fmin | fmax => exact floatMin_steps _ _ _ _ _ _ _
  | ldb | ldbu | ldh | ldhu | ldw | ldwu | ldd => exact load_steps _ _ _ _ _ _ _
  | stb | sth | stw | std => exact store_steps _ _ _ _ _ _
  | amoadd | amoand | amoor | amoxor | amomin | amomax | amominu | amomaxu | amoswap | amocas => exact amo_steps _ _ _ _ _ _ _ _
  | act | acts => exact openRow_steps _ _ _ _ _ _
  | wb => exact writeBack_steps _ _ _ _ _ fun _ => checks_ok
  | vadd | vsub | vmul | vmulh | vmad | vnmad | vmin | vmax | vabs | vneg | vcvt | vdot | vand | vor | vxor | vshl | vshr | vdiv | vsqrt
  | vrcp | vrsq | vexp2 | vlog2 | vscale | vaddVx | vsubVx | vmulVx | vmulhVx | vmadVx | vnmadVx | vminVx | vmaxVx | vdotVx | vandVx |
  vorVx | vxorVx | vshlVx | vshrVx | vdivVx | vscaleVx =>
    exact elementwise_steps _ _ _ _ _ _ _
  | vcmpEq | vcmpNe | vcmpLt | vcmpLtu | vcmpGe | vcmpGeu | vcmpEqVx | vcmpNeVx | vcmpLtVx | vcmpLtuVx | vcmpGeVx | vcmpGeuVx =>
    exact compareElems_steps _ _ _ _ _ _ _
  | vsel | vselVx => exact selectElems_steps _ _ _ _ _ _
  | vsplat | viota => exact fill_steps _ _ _ _ _
  | kand | kor | kxor | knot | kmov | kset => exact maskOp_steps _ _ _ _
  | kpop | kfirst | kany | kall => exact maskOut_steps _ _ _ fun _ => rfl
  | vradd | vrmax | vrmin => exact reduction_steps _ _ _ _ _ _ _
  | vld | vlds | vldx | vldxo => exact vload_steps _ _ _ _ _
  | vst | vsts | vstx | vstxo => exact vstore_steps _ _ _ _ _
  | vupdAdd | vupdMin | vupdMax | vupdAnd | vupdOr | vupdXor => exact vupdate_steps _ _ _ _ _ _
  | vperm | vrot | vslideup | vslidedn => exact permute_steps _ _ _ _ _ _
  | vcomp | vcompIdx => exact compress_steps _ _ _ _ _
  | vshuf | vbcast | vallredAdd | vallredMax | vallredMin => exact collective_steps _ _ _ _ _ _
  | mmul | mmac | madd | mtrn | msolv | mscal | mid => exact matOp_steps _ _ _ _ _ _ _
  | mchol | mlu => exact factorise_steps _ _ _ _ _ _ _
  | fcvt => exact execFcvt_steps _ _ _ _ _
  | bp => exact execBp_steps _ _ _ _
  | jal => exact execJal_steps _ _ _
  | jalr => exact execJalr_steps _ _ _ _
  | loop => exact execLoop_steps _ _ _
  | fence => exact execFence_steps _ _ _
  | nop => exact execNop_steps _
  | srd => exact execSrd_steps _ _ _
  | swr => exact execSwr_steps _ _ _
  | fpmodeWrite => exact execFpmodeWrite_steps _ _ _
  | fpflagsRead => exact execFpflagsRead_steps _ _ _
  | fpflagsWrite => exact execFpflagsWrite_steps _ _ _
  | mstatAccess => exact execMstatAccess_steps _ _ _ _
  | refownerWrite => exact execRefownerWrite_steps _ _ _
  | errcolClear => exact execErrcolClear_steps _ _
  | wbk => exact execWbk_steps _ _ _ _
  | pre => exact execPre_steps _ _
  | preall => exact execPreall_steps _
  | ref => exact execRef_steps _ _
  | refn => exact execRefn_steps _ _
  | vgeom => exact execVgeom_steps _ _
  | vtype => exact execVtype_steps _ _ _ _
  | vsetvl => exact execVsetvl_steps _ _ _ _
  | vlopen => exact execVlopen_steps _ _
  | pfx => exact execPfx_steps _ _ _ _ _ _ _
  | vext => exact execVext_steps _ _ _ _ _ _
  | vins => exact execVins_steps _ _ _ _ _
  | vlsx => exact execVlsx_steps _ _ _ _ _ _
  | vssx => exact execVssx_steps _ _ _ _ _ _
  | vexpd => exact execVexpd_steps _ _ _ _ _
  | vcapp => exact execVcapp_steps _ _ _ _ _
  | svfence => exact execSvfence_steps _
  | vdrain => exact execVdrain_steps _ _
  | tcfg => exact execTcfg_steps _ _
  | tld => exact execTld_steps _ _ _
  | tmul => exact execTmul_steps _ _ _
  | tmuls => exact execTmuls_steps _ _ _ _
  | trd => exact execTrd_steps _ _ _
  | tacc => exact execTacc_steps _ _ _
  | tzero => exact execTzero_steps _ _
  | trel => exact execTrel_steps _
  | mset => exact execMset_steps _ _ _ _
  | mld => exact execMld_steps _ _ _
  | mst => exact execMst_steps _ _ _
  | mflag => exact execMflag_steps _ _ _
  | tspawn => exact execTspawn_steps _ _ _
  | texit => exact execTexit_steps _
  | tyield => exact execTyield_steps _
  | tinfo => exact execTinfo_steps _ _ _
  | qpush => exact execQpush_steps _ _ _ _
  | qpop => exact execQpop_steps _ _ _ _
  | keyrel => exact execKeyrel_steps _ _
  | keyq => exact execKeyq_steps _ _ _
  | strip => exact execStrip_steps _ _ _ _
  | bar => exact execBar_steps _ _
  | bara => exact execBara_steps _ _
  | barw => exact execBarw_steps _ _
  | scfg => exact execScfg_steps _ _ _ _
  | sstep => exact execSstep_steps _ _
  | sstat => exact execSstat_steps _ _ _
  | sclose => exact execSclose_steps _ _
  | waitev => exact execWaitev_steps _ _ _ _
  | trap => exact execTrap_steps _ _
  | rft => exact execRft_steps _
  | halt => exact execHalt_steps _
  | bbh => exact execBbh_steps _ _ _
  | mark => exact execMark_steps _ _
  | bkpt => exact execBkpt_steps _ _
  | sequencerIssue => exact execSequencerIssue_steps _ _
  | wayActivation => exact execWayActivation_steps _ _ _ _ _ _
  | elementGroupValid => exact execElementGroupValid_steps _ _ _ _
  | alertDeadline => exact execAlertDeadline_steps _ _ _ _
  | speculativePreactivation => exact execSpeculativePreactivation_steps _ _ _ _ _
  | speculativeDiscard => exact execSpeculativeDiscard_steps _ _ _
  | class5Promotion => exact execClass5Promotion_steps _ _ _
  | vectorRetire => exact execVectorRetire_steps _ _
  | storeBufferPerform => exact execStoreBufferPerform_steps _ _ _
  | trapDelivery => exact execTrapDelivery_steps _ _ _ _ _
  | asyncDelivery => exact execAsyncDelivery_steps _ _
  | stewardResume => exact execStewardResume_steps _ _ _ _
  | stewardDeliver => exact execStewardDeliver_steps _ _
  | taskEnd => exact execTaskEnd_steps _ _ _
  | taskCompletion => exact execTaskCompletion_steps _ _
  | doorbell => exact execDoorbell_steps _ _ _
  | queueBind => exact execQueueBind_steps _
  | queueUnbind => exact execQueueUnbind_steps _ _
  | dispatchHead => exact execDispatchHead_steps _ _
  | dependenceReread => exact execDependenceReread_steps _ _
  | agingTick => exact execAgingTick_steps _ _
  | taskStart => exact execTaskStart_steps _ _ _
  | hartGrant => exact execHartGrant_steps _ _ _
  | preemptionRequest => exact execPreemptionRequest_steps _ _
  | sliceExpiry => exact execSliceExpiry_steps _ _ _
  | hartHalt => exact execHartHalt_steps _ _
  | hartSaved => exact execHartSaved_steps _ _
  | hartResume => exact execHartResume_steps _ _
  | barrierPhase => exact execBarrierPhase_steps _ _
  | collectiveJoin => exact execCollectiveJoin_steps _ _ _
  | collectiveTransport => exact execCollectiveTransport_steps _ _ _
  | tldTransfer => exact execTldTransfer_steps _ _
  | streamFetch => exact execStreamFetch_steps _ _ _
  | waitevWake => exact execWaitevWake_steps _ _
  | waitevTimeout => exact execWaitevTimeout_steps _ _
  | shootdown => exact execShootdown_steps _ _ _
  | rowWindowReload => exact execRowWindowReload_steps _ _ _ _ _
  | rowWindowTimeout => exact execRowWindowTimeout_steps _ _
  | remoteResponse => exact execRemoteResponse_steps _ _ _
  | remoteTimeout => exact execRemoteTimeout_steps _ _
  | scaleupPortFailure => exact execScaleupPortFailure_steps _ _
  | refreshInterval => exact execRefreshInterval_steps _ _
  | laneRetirement => exact execLaneRetirement_steps _ _ _
  | remapUpdate => exact execRemapUpdate_steps _ _ _ _ _
  | arrayRatioChange => exact execArrayRatioChange_steps _ _ _
  | budgetRecompute => exact execBudgetRecompute_steps _
  | monitorReading => exact execMonitorReading_steps _ _ _ _
  | powerOn => exact execPowerOn_steps _
  | powerRemoval => exact execPowerRemoval_steps _
  | rdmaWrite => exact execRdmaWrite_steps _ _ _ _ _
  | rdmaRead => exact execRdmaRead_steps _ _ _ _ _
  | fetchAndAdd => exact execFetchAndAdd_steps _ _ _ _ _
  | cmpAndSwap => exact execCmpAndSwap_steps _ _ _ _ _ _
  | unsupportedOperation => exact execUnsupportedOperation_steps _ _ _
  | attestationRequest => exact execAttestationRequest_steps _ _ _ _
  | keyEncapsulation => exact execKeyEncapsulation_steps _ _ _ _
  | modcapWrite => exact execModcapWrite_steps _ _
  | registerWrite => exact execRegisterWrite_steps _ _ _ _
  | incomingRemoteAccess => exact execIncomingRemoteAccess_steps _ _ _ _
  | partitionCreation => exact execPartitionCreation_steps _ _ _ _
  | scalarRetire => exact execScalarRetire_steps _ _
  | elementWritePerform => exact execElementWritePerform_steps _ _ _

end Sys2Proof.Machine
end

section
/-! SUPPORT. The module's own engines and one step keep memory's canonical form. -/

namespace Sys2Proof.Machine

/-! ## Turns of the engines -/

/-- Each of some turns keeps the form in whatever state it is taken. -/
def TurnsKeep (l : List Turn) : Prop := ∀ f ∈ l, ∀ s, Steps s (f s)

theorem turnsKeep_nil : TurnsKeep [] := fun _ hf => nomatch hf

theorem TurnsKeep.cons {f : Turn} {l : List Turn} (hf : ∀ s, Steps s (f s)) (hl : TurnsKeep l) : TurnsKeep (f :: l) :=
  fun g hg => by
  rcases List.mem_cons.1 hg with rfl | hg
  · exact hf
  · exact hl g hg

theorem turnsKeep_one {f : Turn} (hf : ∀ s, Steps s (f s)) : TurnsKeep [f] := .cons hf turnsKeep_nil

theorem TurnsKeep.append {l m : List Turn} (hl : TurnsKeep l) (hm : TurnsKeep m) : TurnsKeep (l ++ m) := fun f hf =>
  (List.mem_append.1 hf).elim (hl f) (hm f)

theorem TurnsKeep.ite {p : Prop} [Decidable p] {l m : List Turn} (hl : TurnsKeep l) (hm : TurnsKeep m) : TurnsKeep (if p then l else m) := by
  split
  · exact hl
  · exact hm

theorem turnsKeep_map {α : Type} {g : α → Turn} (l : List α) (hg : ∀ a s, Steps s (g a s)) : TurnsKeep (l.map g) := fun f hf => by
  obtain ⟨a, -, rfl⟩ := List.mem_map.1 hf
  exact hg a

theorem turnsKeep_flatMap {α : Type} {g : α → List Turn} (l : List α) (hg : ∀ a, TurnsKeep (g a)) : TurnsKeep (l.flatMap g) :=
  fun f hf => by
  obtain ⟨a, -, ha⟩ := List.mem_flatMap.1 hf
  exact hg a f ha

theorem hartTurns_keep (s : State) (id : Nat) (h : Hart) : TurnsKeep (hartTurns s id h) := by
  have hvector := execVectorRetire_steps id
  unfold hartTurns
  refine .append (.append (.append (.append (.append ?_ ?_) ?_) ?_) ?_) (.append ?_ ?_)
  · split
    · exact .append (turnsKeep_map _ fun _ => execElementGroupValid_steps _ _ _) (.cons hvector (turnsKeep_one (execScalarRetire_steps id)))
    · exact .ite turnsKeep_nil (turnsKeep_one hvector)
  · split
    · exact turnsKeep_map _ fun _ => execCollectiveTransport_steps _ _
    · exact turnsKeep_nil
  · exact .ite (turnsKeep_one (execTldTransfer_steps id)) turnsKeep_nil
  · exact turnsKeep_map _ fun _ => execStreamFetch_steps _ _
  · split
    · exact .cons (execWaitevWake_steps id) (.ite (turnsKeep_one (execWaitevTimeout_steps id)) turnsKeep_nil)
    · exact turnsKeep_one (execCollectiveJoin_steps _ _)
    · exact turnsKeep_nil
  · exact .ite (turnsKeep_one (execHartHalt_steps id)) turnsKeep_nil
  · split
    · exact turnsKeep_one (execHartSaved_steps id)
    · exact turnsKeep_one (execHartResume_steps id)
    · exact turnsKeep_nil

theorem taskTurns_keep (s : State) (id : Nat) (t : Task) : TurnsKeep (taskTurns s id t) := by
  refine .append (.append ?_ (.ite (turnsKeep_one (execDependenceReread_steps id)) turnsKeep_nil)) ?_
  · exact .cons (execBarrierPhase_steps id) (turnsKeep_one (execTaskCompletion_steps id))
  · exact .cons (execTaskStart_steps id []) (.cons (execHartGrant_steps id []) (turnsKeep_one (execPreemptionRequest_steps id)))

theorem firstPerform_steps (s : State) (id n : Nat) : Steps s (firstPerform s id n) := by
  unfold firstPerform
  split
  · exact execElementWritePerform_steps _ _ _
  · exact steps_cannot

theorem writeTurns_keep (id : Nat) (h : Hart) : TurnsKeep (writeTurns id h) :=
  .append (.ite turnsKeep_nil (turnsKeep_one (execStoreBufferPerform_steps id 0)))
    (.ite turnsKeep_nil (turnsKeep_one fun s => firstPerform_steps s id _))

theorem wayTurns_keep (c : Nat) (k : Column) : TurnsKeep (wayTurns c k) :=
  .append (.append (turnsKeep_map _ fun _ => execSpeculativeDiscard_steps _ _) (turnsKeep_map _ fun _ => execClass5Promotion_steps _ _))
    (turnsKeep_map _ fun _ => execWayActivation_steps _ _ _ _ _)

theorem engineTurns_keep (s : State) : TurnsKeep (engineTurns s) := by
  refine .append (.append (.append (.append (.append (.append ?_ ?_) ?_) ?_) ?_) ?_) ?_
  · exact turnsKeep_flatMap _ fun _ => wayTurns_keep _ _
  · exact turnsKeep_flatMap _ fun _ => hartTurns_keep _ _ _
  · exact turnsKeep_flatMap _ fun _ => taskTurns_keep _ _ _
  · exact turnsKeep_one execQueueBind_steps
  · exact turnsKeep_map _ fun _ => execRemoteTimeout_steps _
  · exact turnsKeep_map _ fun _ => execDispatchHead_steps _
  · exact turnsKeep_flatMap _ fun _ => writeTurns_keep _ _

theorem firstNext_keeps (s : State) (l : List Turn) (hl : TurnsKeep l) : KeepsIf s (firstNext s l) := by
  induction l with
  | nil => exact keepsIf_none
  | cons f l ih =>
    unfold firstNext
    split
    · exact keepsIf_some.2 (hl f List.mem_cons_self s _ ‹_›)
    · exact ih fun g hg => hl g (List.mem_cons_of_mem f hg)

theorem goOn_steps (s : State) : Steps s (goOn s) := by
  unfold goOn
  split
  · exact steps_next.2 (firstNext_keeps s _ (engineTurns_keep s) _ ‹_›)
  · exact KeepsForm.thenSteps (KeepsForm.of_mem rfl) (execSequencerIssue_steps _ { s with turn := (s.turn + 1) % 4096 })

/-! ## One step -/

theorem orPass_steps {s : State} {r : Result} (h : Steps s r) : Steps s (orPass s r) := by
  cases r with
  | refused r => exact steps_next.2 (KeepsForm.refl s)
  | next t => exact h
  | fault f => exact steps_fault

@[simp] theorem fetch_mem (s : State) (h : Hart) : (fetch s h).1.mem = s.mem := by
  unfold fetch
  split <;> rfl

theorem illegalWord_keeps (s : State) (id : Nat) (h : Hart) (word : Word) (hit : Nat × Nat → Bool) :
    KeepsForm s (illegalWord s id h word hit) := by
  refine KeepsForm.ite (KeepsForm.of_mem (holdBack_mem _ _ _)) (KeepsForm.trans (fun hs => ?_) (settle_keeps _ _ _))
  exact (ends_endState _).1 ((applyWaypoints_ends (c := startCtx s id h word) hs hit).bind fun _ h => .error h)

theorem runHart_steps (s : State) (id : Nat) (h : Hart) : Steps s (runHart s id h) := by
  unfold runHart
  refine Steps.ite ?_ (Steps.ite (steps_next.2 (KeepsForm.of_mem rfl)) ?_)
  · split
    · exact exec_steps _ _
    · exact steps_next.2 (KeepsForm.of_mem rfl)
  · split
    · rename_i e
      exact steps_next.2 ((KeepsForm.after (deliverDue_keeps _ _ _ _ e) rfl).trans (KeepsForm.of_mem rfl))
    · split <;> refine (KeepsForm.of_mem (mem_of_fst ‹_› (fetch_mem s h))).thenSteps ?_
      · exact steps_next.2 (illegalWord_keeps _ _ _ _ _)
      · split
        · exact exec_steps _ _
        · exact steps_next.2 (illegalWord_keeps _ _ _ _ _)

/-- Every step keeps memory in its form. -/
theorem step_keeps (s : State) : Steps s (step s) := by
  have hagenda (rest : List Instr) : KeepsForm s { s with agenda := rest } := KeepsForm.of_mem rfl
  have hpass (rest : List Instr) {r : Result} (hr : Steps { s with agenda := rest } r) : Steps s (orPass { s with agenda := rest } r) :=
    (hagenda rest).thenSteps (orPass_steps hr)
  refine Steps.ite ?_ ?_
  · split
    · split
      · exact runHart_steps _ _ _
      · exact steps_next.2 (KeepsForm.of_mem rfl)
    · split
      · exact steps_next.2 (KeepsForm.of_mem (befall_mem _ _))
      · split
        · exact hpass _ (exec_steps _ _)
        · exact goOn_steps s
  · split
    · exact hpass _ (execPowerOn_steps _)
    · exact hpass _ (execPowerRemoval_steps _)
    · exact steps_next.2 (hagenda _)
    · exact steps_fault

end Sys2Proof.Machine
end

section
open Sys2Proof Sys2Proof.Machine

/-- Settles O8: memory is written only by operations that keep its form, and a power loss leaves no memory. -/
theorem stepKeepsMemory : Obligations.StepKeepsMemory := fun s t hs ht => step_keeps s t ht hs

end

section
/-! SUPPORT. The accesses of system registers as steps of a hart whose earlier instructions have all retired (R108, R109, R118, R119, R235,
R312), and the limits of the module cap (R360). -/

namespace Sys2Proof.Machine

section
variable {s : State} {n : Nat} {h : Hart}

/-- An event acts on a hart that is in place, holds no result apart and has retired its earlier instructions. -/
theorem onHart_next (hh : s.hart? n = some h) (hs : find? s.shadows n = none) (hc : h.caughtUp = true) (f : Hart → State) :
    onHart s n f = .next (f h) := by
  unfold onHart
  rw [hh]
  exact if_neg (by simp [hs, hc])

variable (hh : s.hart? n = some h) (hs : find? s.shadows n = none) (hc : h.caughtUp = true)
include hh hs hc

theorem execFpmodeWrite_next {v : Word} (hv : v.toNat % 8 ≤ 4) : execFpmodeWrite n v s = .next (s.setHart n (writeFpmode h v)) :=
  (onHart_next hh hs hc _).trans (congrArg _ (if_neg (by omega)))

theorem execFpmodeWrite_reserved {v : Word} (hv : 4 < v.toNat % 8) : execFpmodeWrite n v s = .next (deliver s n h .illegal h.pc v) :=
  (onHart_next hh hs hc _).trans (congrArg _ (if_pos hv))

theorem execFpflagsRead_next (d : XReg) : execFpflagsRead n d s = .next (s.setHart n (h.setX d h.fpflags)) := onHart_next hh hs hc _

theorem execFpflagsWrite_next (v : Word) : execFpflagsWrite n v s = .next (s.setHart n { h with fpflags := v &&& 0x1F }) :=
  onHart_next hh hs hc _

theorem execMstatAccess_read (d : XReg) : execMstatAccess n d none s = .next (s.setHart n (h.setX d h.mstat)) := onHart_next hh hs hc _

theorem execMstatAccess_write (d : XReg) (v : Word) : execMstatAccess n d (some v) s = .next (s.setHart n (writeMstat h v)) :=
  onHart_next hh hs hc _

theorem execRefownerWrite_next (v : Word) : execRefownerWrite n v s = .next (writeOwner s n h v) := onHart_next hh hs hc _

end

/-- The limits of the module cap (R360). -/
theorem clampCap_eq (v : Nat) : clampCap v = min 1800 (max 900 v) := by
  unfold clampCap
  split
  · omega
  · split <;> omega

theorem execModcapWrite_next (v : BitVec 16) (s : State) : execModcapWrite v s = .next { s with modcap := min 1800 (max 900 v.toNat) } := by
  rw [execModcapWrite, clampCap_eq]

end Sys2Proof.Machine

open Sys2Proof Sys2Proof.Machine

/-- Settles O24, access by access: the event can occur on such a hart, and then leaves what the register's write or read leaves. -/
theorem registerStepsComplete : Obligations.RegisterStepsComplete := by
  unfold Obligations.RegisterStepsComplete
  intro s id h hh hs hc
  exact ⟨fun v => execFpmodeWrite_next hh hs hc, fun v => execFpmodeWrite_reserved hh hs hc, execFpflagsRead_next hh hs hc,
    execFpflagsWrite_next hh hs hc, execMstatAccess_read hh hs hc, execMstatAccess_write hh hs hc, execRefownerWrite_next hh hs hc,
    fun c hcol => if_pos hcol, fun v => execModcapWrite_next v s⟩

end

section
/-! SUPPORT. What a word's slices say of the instruction that it encodes: reading the fields of a word back, and putting a word together
from its slices (R126 to R139). -/

namespace Sys2Proof

/-! ## Slices of a word (R6) -/

theorem bits_lt (w lo n : Nat) : bits w lo n < 2 ^ n := Nat.mod_lt _ (Nat.two_pow_pos n)

@[simp] theorem bits_zero (w lo : Nat) : bits w lo 0 = 0 := by rw [bits, pow_zero, Nat.mod_one]

@[simp] theorem toNat_ofNat_bits (w lo n : Nat) : (BitVec.ofNat n (bits w lo n)).toNat = bits w lo n :=
  (BitVec.toNat_ofNat ..).trans (Nat.mod_eq_of_lt (bits_lt w lo n))

@[simp] theorem toNat_bits_beq_one (w lo : Nat) : (bits w lo 1 == 1).toNat = bits w lo 1 := by
  rcases Nat.le_one_iff_eq_zero_or_eq_one.1 (Nat.le_of_lt_succ (bits_lt w lo 1)) with h | h <;> rw [h] <;> rfl

@[simp] theorem toNat_beq_one (b : Bool) : (b.toNat == 1) = b := by cases b <;> rfl

/-- A slice of a slice. -/
theorem bits_bits {w lo m a t : Nat} (h : a + t ≤ m) : bits (bits w lo m) a t = bits w (lo + a) t := by
  obtain ⟨k, rfl⟩ := Nat.exists_eq_add_of_le h
  rw [bits, bits, bits, Nat.add_assoc, Nat.pow_add 2 a, Nat.mod_mul_right_div_self, Nat.div_div_eq_div_mul, ← Nat.pow_add,
    Nat.mod_mod_of_dvd _ (Nat.pow_dvd_pow 2 (Nat.le_add_right t k))]

/-- The low bits of a word in three slices. -/
theorem mod_eq_bits (w p m k : Nat) : w % 2 ^ (p + m + k) = w % 2 ^ p + 2 ^ p * (bits w p m + 2 ^ m * bits w (p + m) k) := by
  rw [Nat.pow_add 2 (p + m) k, Nat.mod_mul, Nat.pow_add 2 p m, Nat.mod_mul, bits, bits, ← Nat.pow_add]; ring

/-- A number below A with a multiple of A is taken apart in one way. -/
theorem add_mul_eq_iff {A a a' b b' : Nat} (ha : a < A) (ha' : a' < A) : a + A * b = a' + A * b' ↔ a = a' ∧ b = b' := by
  refine ⟨fun h => ?_, fun h => by rw [h.1, h.2]⟩
  have hm := congrArg (· % A) h
  have hd := congrArg (· / A) h
  simp only [Nat.add_mul_mod_self_left, Nat.mod_eq_of_lt ha, Nat.mod_eq_of_lt ha'] at hm
  simp only [Nat.add_mul_div_left _ _ (Nat.zero_lt_of_lt ha), Nat.div_eq_of_lt ha, Nat.div_eq_of_lt ha', Nat.zero_add] at hd
  exact ⟨hm, hd⟩

/-- Slice [lo + m - 1 : lo] at k and slice [lo' + n - 1 : lo'] at c differ in a bit that both have. -/
def Clash (lo m k lo' n c : Nat) : Prop :=
  let both := min (lo + m) (lo' + n) - max lo lo'
  bits k (lo' - lo) both ≠ bits c (lo - lo') both

/-- The same in terms that compute on numerals. -/
theorem clash_iff {lo m k lo' n c : Nat} : Clash lo m k lo' n c ↔
    ¬k / 2 ^ (lo' - lo) % 2 ^ (lo + m - (lo + m - (lo' + n)) - (lo + (lo' - lo))) =
      c / 2 ^ (lo - lo') % 2 ^ (lo + m - (lo + m - (lo' + n)) - (lo + (lo' - lo))) := by
  rw [Clash, show min (lo + m) (lo' + n) - max lo lo' = lo + m - (lo + m - (lo' + n)) - (lo + (lo' - lo)) by omega]
  rfl

theorem bits_ne_of_clash {w lo m k lo' n c : Nat} (h : bits w lo m = k) (hc : Clash lo m k lo' n c) : bits w lo' n ≠ c := by
  rintro rfl
  subst h
  refine hc ?_
  by_cases ht : min (lo + m) (lo' + n) - max lo lo' = 0
  · rw [ht, bits_zero, bits_zero]
  · rw [bits_bits (by omega), bits_bits (by omega)]
    congr 1
    omega

/-! ## Words and their fields (R128) -/

/-- How the fields of a word are written: each as bits, or as a flag. -/
inductive Fields : List Nat → Type
  | nil : Fields []
  | put {m : Nat} {v : BitVec m} {lo : Nat} {l : List Nat} (rest : Fields l) : Fields (putAt v lo :: l)
  | flag {v : Bool} {lo : Nat} {l : List Nat} (rest : Fields l) : Fields (flagAt v lo :: l)

namespace Fields

/-- Below bit q the fields stand one under the other, where the fixed bits n are 0. -/
def fit (n : Nat) {l : List Nat} : Nat → Fields l → Bool
  | _, nil => true
  | q, put (m := m) (lo := p) rest => Nat.ble (p + m) q && Nat.beq (bits n p m) 0 && rest.fit n p
  | q, flag (lo := p) rest => Nat.ble (p + 1) q && Nat.beq (bits n p 1) 0 && rest.fit n p

/-- Below bit q the word w holds the fields, and the fixed bits n between them. -/
def Read (w n : Nat) {l : List Nat} : Nat → Fields l → Prop
  | q, nil => bits w 0 q = n % 2 ^ q
  | q, put (m := m) (v := v) (lo := p) rest =>
    bits w (p + m) (q - (p + m)) = n / 2 ^ (p + m) % 2 ^ (q - (p + m)) ∧ bits w p m = v.toNat ∧ rest.Read w n p
  | q, flag (v := v) (lo := p) rest =>
    bits w (p + 1) (q - (p + 1)) = n / 2 ^ (p + 1) % 2 ^ (q - (p + 1)) ∧ bits w p 1 = v.toNat ∧ rest.Read w n p

/-- Fixed bits between the fields differ from c in the slice [lo + k - 1 : lo]. -/
def Conflict (n lo k c : Nat) {l : List Nat} : Nat → Fields l → Prop
  | q, nil => Clash 0 q (n % 2 ^ q) lo k c
  | q, put (m := m) (lo := p) rest =>
    Clash (p + m) (q - (p + m)) (n / 2 ^ (p + m) % 2 ^ (q - (p + m))) lo k c ∨ rest.Conflict n lo k c p
  | q, flag (lo := p) rest =>
    Clash (p + 1) (q - (p + 1)) (n / 2 ^ (p + 1) % 2 ^ (q - (p + 1))) lo k c ∨ rest.Conflict n lo k c p

section
variable {n lo k c q : Nat}

theorem conflict_nil : (nil).Conflict n lo k c q ↔ Clash 0 q (n % 2 ^ q) lo k c := by rw [Conflict]

theorem conflict_put {m p : Nat} {v : BitVec m} {l : List Nat} (rest : Fields l) : (put (v := v) (lo := p) rest).Conflict n lo k c q ↔
    Clash (p + m) (q - (p + m)) (n / 2 ^ (p + m) % 2 ^ (q - (p + m))) lo k c ∨ rest.Conflict n lo k c p := by rw [Conflict]

theorem conflict_flag {p : Nat} {v : Bool} {l : List Nat} (rest : Fields l) : (flag (v := v) (lo := p) rest).Conflict n lo k c q ↔
    Clash (p + 1) (q - (p + 1)) (n / 2 ^ (p + 1) % 2 ^ (q - (p + 1))) lo k c ∨ rest.Conflict n lo k c p := by rw [Conflict]

end

section
variable {w n p m q S v : Nat}

/-- A field v at bit p, where the fixed bits are 0, leaves room below bit q. -/
theorem field_lt (hq : p + m ≤ q) (hn : bits n p m = 0) (hv : v < 2 ^ m) (hS : n % 2 ^ p + S < 2 ^ p) :
    n % 2 ^ q + (v * 2 ^ p + S) < 2 ^ q := by
  obtain ⟨k, rfl⟩ := Nat.exists_eq_add_of_le hq
  have hhi : 2 ^ m * bits n (p + m) k + v < 2 ^ m * 2 ^ k := by
    calc 2 ^ m * bits n (p + m) k + v < 2 ^ m * (bits n (p + m) k + 1) := by rw [Nat.mul_succ]; omega
      _ ≤ 2 ^ m * 2 ^ k := Nat.mul_le_mul_left _ (bits_lt n (p + m) k)
  have := Nat.mul_le_mul_left (2 ^ p) hhi
  rw [mod_eq_bits, hn, Nat.zero_add, Nat.pow_add, Nat.pow_add, Nat.mul_assoc]
  rw [Nat.mul_succ, Nat.mul_add, Nat.mul_comm _ v] at this
  omega

/-- The word's low q bits are the fixed ones, a field v at bit p and the rest below, just if each of its slices is what it should be. -/
theorem field_iff (hq : p + m ≤ q) (hn : bits n p m = 0) (hv : v < 2 ^ m) (hS : n % 2 ^ p + S < 2 ^ p) :
    w % 2 ^ q = n % 2 ^ q + (v * 2 ^ p + S) ↔
      bits w (p + m) (q - (p + m)) = n / 2 ^ (p + m) % 2 ^ (q - (p + m)) ∧ bits w p m = v ∧ w % 2 ^ p = n % 2 ^ p + S := by
  obtain ⟨k, rfl⟩ := Nat.exists_eq_add_of_le hq
  have hsum : n % 2 ^ p + 2 ^ p * (0 + 2 ^ m * bits n (p + m) k) + (v * 2 ^ p + S) =
      n % 2 ^ p + S + 2 ^ p * (v + 2 ^ m * bits n (p + m) k) := by ring
  rw [mod_eq_bits w, mod_eq_bits n, hn, hsum, add_mul_eq_iff (Nat.mod_lt w (Nat.two_pow_pos p)) hS, add_mul_eq_iff (bits_lt w p m) hv,
    Nat.add_sub_cancel_left]
  exact ⟨fun ⟨a, b, c⟩ => ⟨c, b, a⟩, fun ⟨c, b, a⟩ => ⟨a, b, c⟩⟩

end

theorem fit_lt {n : Nat} {l : List Nat} (F : Fields l) {q : Nat} (h : F.fit n q = true) : n % 2 ^ q + l.sum < 2 ^ q := by
  induction F generalizing q with
  | nil => exact Nat.mod_lt n (Nat.two_pow_pos q)
  | put rest ih =>
    simp only [fit, Bool.and_eq_true, Nat.ble_eq, Nat.beq_eq] at h
    rw [List.sum_cons]
    exact field_lt h.1.1 h.1.2 (BitVec.isLt _) (ih h.2)
  | flag rest ih =>
    simp only [fit, Bool.and_eq_true, Nat.ble_eq, Nat.beq_eq] at h
    rw [List.sum_cons]
    exact field_lt h.1.1 h.1.2 (Bool.toNat_lt _) (ih h.2)

theorem read_iff {w n : Nat} {l : List Nat} (F : Fields l) {q : Nat} (h : F.fit n q = true) :
    F.Read w n q ↔ w % 2 ^ q = n % 2 ^ q + l.sum := by
  induction F generalizing q with
  | nil => rw [Read, bits, pow_zero, Nat.div_one, List.sum_nil, Nat.add_zero]
  | put rest ih =>
    simp only [fit, Bool.and_eq_true, Nat.ble_eq, Nat.beq_eq] at h
    rw [Read, ih h.2, List.sum_cons]
    exact (field_iff h.1.1 h.1.2 (BitVec.isLt _) (rest.fit_lt h.2)).symm
  | flag rest ih =>
    simp only [fit, Bool.and_eq_true, Nat.ble_eq, Nat.beq_eq] at h
    rw [Read, ih h.2, List.sum_cons]
    exact (field_iff h.1.1 h.1.2 (Bool.toNat_lt _) (rest.fit_lt h.2)).symm

/-- A slice of a word that differs from the fixed bits is not there. -/
theorem Read.ne {w n : Nat} {l : List Nat} {F : Fields l} {q : Nat} (h : F.Read w n q) {lo k c : Nat}
    (hc : F.Conflict n lo k c q) : (bits w lo k = c) = False := by
  refine eq_false ?_
  induction F generalizing q with
  | nil => exact bits_ne_of_clash h hc
  | put rest ih | flag rest ih =>
    obtain ⟨hgap, -, hrest⟩ := h
    rcases hc with hc | hc
    · exact bits_ne_of_clash hgap hc
    · exact ih hrest hc

end Fields

section
variable {i : Instr} {w n : Nat} {l : List Nat}

/-- A word is an instruction's just if it holds the instruction's major, fields and fixed bits. -/
theorem encode_eq_some_iff (he : encode i = some (wordOf n l)) (F : Fields l) (hf : F.fit n 26 = true) :
    encode i = some w ↔ w / 2 ^ 26 = n / 2 ^ 26 ∧ F.Read w n 26 := by
  have := F.fit_lt hf
  rw [he, Option.some.injEq, F.read_iff hf, wordOf]
  omega

/-- The same where the major has a field: it is the part of an elementwise instruction (R138). -/
theorem encode_eq_some_iff_part {part : BitVec 3} (he : encode i = some (wordOf n (putAt part 26 :: l))) (F : Fields l)
    (hf : F.fit n 26 = true) : encode i = some w ↔ w / 2 ^ 26 = n / 2 ^ 26 + part.toNat ∧ F.Read w n 26 := by
  have := F.fit_lt hf
  rw [he, Option.some.injEq, F.read_iff hf, wordOf, List.sum_cons, putAt]
  omega

end

end Sys2Proof
end

section
/-! SUPPORT. The decoder and the encoder undo each other (R126 to R139). -/

namespace Sys2Proof

/-- A word decodes just if its fixed fields name the instruction and that is well formed. -/
theorem decode_eq_ok_iff {w : Nat} {i : Instr} : decode w = .ok i ↔ decodeFields w = .ok i ∧ i.wf = true := by
  unfold decode
  cases decodeFields w with
  | error e => simp
  | ok j =>
    by_cases hj : j.wf = true
    · simp only [hj, if_true, Except.ok.injEq]
      exact ⟨fun h => ⟨h, h ▸ hj⟩, And.left⟩
    · simp only [hj, Except.ok.injEq, Bool.false_eq_true, if_false, reduceCtorEq, false_iff, not_and]
      rintro rfl
      exact hj

/-- The majors 0x1C to 0x23 share a decoder: they differ in the part (R138). -/
theorem decodeFields_elementwise {w : Nat} (hm : 28 ≤ w / 2 ^ 26 ∧ w / 2 ^ 26 < 36) : decodeFields w = decodeMajor1C w := by
  obtain ⟨hlo, hhi⟩ := hm
  rw [decodeFields, Nat.mod_eq_of_lt (by omega)]
  interval_cases w / 2 ^ 26 <;> rfl

/-! ## From an instruction to its word and back -/

section
variable {i : Instr} {w n : Nat} {l : List Nat}

/-- An instruction's word has 32 bits, and decodes to it, if its major's decoder gives the instruction from the slices of the word. The slices
that are fixed bits decide the decoder's rows, and those that are fields give the operands. -/
theorem decodes (f : Nat → Except DecodeError Instr) (h : encode i = some w) (he : encode i = some (wordOf n l))
    (F : Fields l := by repeat' constructor) (hf : F.fit n 26 = true := by rfl) (hn : n / 2 ^ 26 < 64 := by decide)
    (hd : ∀ w, w / 2 ^ 26 % 64 = n / 2 ^ 26 → decodeFields w = f w := by intro w hw; unfold decodeFields; rw [hw]; rfl)
    (hrow : F.Read w n 26 → f w = .ok i := by
      intro hr
      have hs := hr
      simp only [Fields.Read, Nat.reduceAdd, Nat.reduceSub, bits_zero, Nat.reducePow, Nat.reduceDiv, Nat.reduceMod, true_and] at hs
      simp only [decodeMajor01, decodeMajor02, decodeMajor03, decodeMajor04, decodeMajor05, decodeMajor06, decodeMajor07,
        decodeMajor08, decodeMajor09, decodeMajor10, decodeMajor11, decodeMajor12, decodeMajor13, decodeMajor14, decodeMajor15,
        decodeMajor16, decodeMajor17, decodeMajor18, decodeMajor19, decodeMajor1A, decodeMajor1C, decodeMajor24, decodeMajor25,
        decodeMajor26, decodeMajor27, decodeMajor2C, decodeMajor2D, decodeMajor2E, decodeMajor2F, decodeMajor30, decodeMajor31,
        decodeMajor32, decodeMajor34, decodeMajor38, decodeMajor3C, decodeMajor3D, decodeMajor3E, hr.ne, hs, Fields.conflict_nil,
        Fields.conflict_put, Fields.conflict_flag, clash_iff, Nat.reduceEqDiff, ↓reduceIte, Nat.reduceAdd, Nat.reduceSub,
        Nat.reducePow, Nat.reduceDiv, Nat.reduceMod, not_false_eq_true, true_or, or_true, and_self, false_and, and_false,
        BitVec.ofNat_toNat, BitVec.setWidth_eq, toNat_beq_one]) :
    w < 2 ^ 32 ∧ decodeFields w = .ok i := by
  obtain ⟨hm, hr⟩ := (encode_eq_some_iff he F hf).1 h
  exact ⟨by omega, (hd w (by omega)).trans (hrow hr)⟩

/-- The same for an elementwise instruction, whose part is a field of its major. -/
theorem decodes_part {part : BitVec 3} (h : encode i = some w) (he : encode i = some (wordOf n (putAt part 26 :: l)))
    (F : Fields l := by repeat' constructor) (hf : F.fit n 26 = true := by rfl) (hn : n / 2 ^ 26 = 28 := by rfl)
    (hrow : w / 2 ^ 26 - 28 = part.toNat → F.Read w n 26 → decodeMajor1C w = .ok i := by
      intro hp hs
      simp only [Fields.Read, Nat.reduceAdd, Nat.reduceSub, bits_zero, Nat.reducePow, Nat.reduceDiv, Nat.reduceMod, true_and] at hs
      simp only [decodeMajor1C, hs, hp, Nat.reduceEqDiff, ↓reduceIte, and_self, false_and, BitVec.ofNat_toNat, BitVec.setWidth_eq,
        toNat_beq_one]) :
    w < 2 ^ 32 ∧ decodeFields w = .ok i := by
  obtain ⟨hm, hr⟩ := (encode_eq_some_iff_part he F hf).1 h
  have := part.isLt
  exact ⟨by omega, (decodeFields_elementwise (by omega)).trans (hrow (by omega) hr)⟩
end

/-- Every instruction with a word is found in it by its fixed fields, major by major. -/
theorem decodeFields_of_encode {i : Instr} {w : Nat} (h : encode i = some w) : w < 2 ^ 32 ∧ decodeFields w = .ok i := by
  cases i with
  | add | sub | mul | mulh | mulhu | div | divu | rem | remu | and | or | xor | shl | shr | sra | min | max | minu | maxu | clz | ctz |
  popc | sel =>
    exact decodes decodeMajor01 h rfl
  | addi => exact decodes decodeMajor02 h rfl
  | andi => exact decodes decodeMajor03 h rfl
  | ori => exact decodes decodeMajor04 h rfl
  | xori => exact decodes decodeMajor05 h rfl
  | shli | shri | srai => exact decodes decodeMajor06 h rfl
  | lui => exact decodes decodeMajor07 h rfl
  | addpc => exact decodes decodeMajor08 h rfl
  | fadd | fsub | fmul | fma | fmin | fmax | fcmp | fcvt => exact decodes decodeMajor09 h rfl
  | cmp | pand | por | pxor | pnot => exact decodes decodeMajor10 h rfl
  | cmpi => exact decodes decodeMajor11 h rfl
  | bp => exact decodes decodeMajor12 h rfl
  | jal | jalr | loop => exact decodes decodeMajor13 h rfl
  | ldb | ldbu | ldh | ldhu | ldw | ldwu | ldd => exact decodes decodeMajor14 h rfl
  | stb | sth | stw | std => exact decodes decodeMajor15 h rfl
  | amoadd | amoand | amoor | amoxor | amomin | amomax | amominu | amomaxu | amoswap | amocas | fence =>
    exact decodes decodeMajor16 h rfl
  | nop | srd | swr => exact decodes decodeMajor17 h rfl
  | act | acts | wb | wbk | pre | preall | ref | refn => exact decodes decodeMajor18 h rfl
  | vgeom | vtype | vsetvl | vlopen => exact decodes decodeMajor19 h rfl
  | pfx => exact decodes decodeMajor1A h rfl
  | vadd | vsub | vmul | vmulh | vmad | vnmad | vmin | vmax | vabs | vneg | vcvt | vdot | vand | vor | vxor | vshl | vshr | vdiv | vsqrt |
  vrcp | vrsq | vexp2 | vlog2 | vscale | vcmpEq | vcmpNe | vcmpLt | vcmpLtu | vcmpGe | vcmpGeu | vsel =>
    exact decodes_part h rfl
  | vaddVx | vsubVx | vmulVx | vmulhVx | vmadVx | vnmadVx | vminVx | vmaxVx | vdotVx | vandVx | vorVx | vxorVx | vshlVx | vshrVx |
  vdivVx | vscaleVx | vcmpEqVx | vcmpNeVx | vcmpLtVx | vcmpLtuVx | vcmpGeVx | vcmpGeuVx | vselVx =>
    exact decodes decodeMajor24 h rfl
  | vsplat | viota | vext | vins => exact decodes decodeMajor25 h rfl
  | kand | kor | kxor | knot | kmov | kset | kpop | kfirst | kany | kall => exact decodes decodeMajor26 h rfl
  | vradd | vrmax | vrmin => exact decodes decodeMajor27 h rfl
  | vld | vlds | vldx | vldxo | vlsx => exact decodes decodeMajor2C h rfl
  | vst | vsts | vstx | vstxo | vssx => exact decodes decodeMajor2D h rfl
  | vupdAdd | vupdMin | vupdMax | vupdAnd | vupdOr | vupdXor => exact decodes decodeMajor2E h rfl
  | vperm | vcomp | vcompIdx | vexpd => exact decodes decodeMajor2F h rfl
  | vrot | vslideup | vslidedn | vcapp => exact decodes decodeMajor30 h rfl
  | vshuf | vbcast | vallredAdd | vallredMax | vallredMin => exact decodes decodeMajor31 h rfl
  | svfence | vdrain => exact decodes decodeMajor32 h rfl
  | tcfg | tld | tmul | tmuls | trd | tacc | tzero | trel => exact decodes decodeMajor34 h rfl
  | mset | mld | mst | mmul | mmac | madd | mtrn | mchol | mlu | msolv | mscal | mid | mflag => exact decodes decodeMajor38 h rfl
  | tspawn | texit | tyield | tinfo | qpush | qpop | keyrel | keyq | strip => exact decodes decodeMajor3C h rfl
  | bar | bara | barw | scfg | sstep | sstat | sclose => exact decodes decodeMajor3D h rfl
  | waitev | trap | rft | halt | bbh | mark | bkpt => exact decodes decodeMajor3E h rfl
  | fpmodeWrite | fpflagsRead | fpflagsWrite | mstatAccess | refownerWrite | errcolClear | sequencerIssue | wayActivation |
  elementGroupValid | alertDeadline | speculativePreactivation | speculativeDiscard | class5Promotion | vectorRetire |
  storeBufferPerform | trapDelivery | asyncDelivery | stewardResume | stewardDeliver | taskEnd | taskCompletion | doorbell | queueBind |
  queueUnbind | dispatchHead | dependenceReread | agingTick | taskStart | hartGrant | preemptionRequest | sliceExpiry | hartHalt |
  hartSaved | hartResume | barrierPhase | collectiveJoin | collectiveTransport | tldTransfer | streamFetch | waitevWake | waitevTimeout |
  shootdown | rowWindowReload | rowWindowTimeout | remoteResponse | remoteTimeout | scaleupPortFailure | refreshInterval |
  laneRetirement | remapUpdate | arrayRatioChange | budgetRecompute | monitorReading | powerOn | powerRemoval | rdmaWrite | rdmaRead |
  fetchAndAdd | cmpAndSwap | unsupportedOperation | attestationRequest | keyEncapsulation | modcapWrite | registerWrite |
  incomingRemoteAccess | partitionCreation | scalarRetire | elementWritePerform =>
    cases h

/-! ## From a word to its instruction and back -/

/-- What a decoder answers for the word w is an instruction with that word. -/
def Inverts (w : Nat) (r : Except DecodeError Instr) : Prop := ∀ i, r = .ok i → encode i = some w

/-- A word that holds the fixed bits and the fields of an instruction is its word. -/
theorem encode_of_read {i : Instr} {w n : Nat} {l : List Nat} (hm : w / 2 ^ 26 = n / 2 ^ 26) (he : encode i = some (wordOf n l))
    (F : Fields l := by repeat' constructor) (hf : F.fit n 26 = true := by rfl) (h : F.Read w n 26) : encode i = some w :=
  (encode_eq_some_iff he F hf).2 ⟨hm, h⟩

/-- The same for an elementwise instruction, whose part is what its major has above 28. -/
theorem encode_of_read_part {i : Instr} {w n : Nat} {l : List Nat} (hm : 28 ≤ w / 2 ^ 26 ∧ w / 2 ^ 26 < 36)
    (he : encode i = some (wordOf n (putAt (BitVec.ofNat 3 (w / 2 ^ 26 - 28)) 26 :: l))) (F : Fields l := by repeat' constructor)
    (hf : F.fit n 26 = true := by rfl) (hn : n / 2 ^ 26 = 28 := by rfl) (h : F.Read w n 26) : encode i = some w :=
  (encode_eq_some_iff_part he F hf).2 ⟨by rw [BitVec.toNat_ofNat]; omega, h⟩

namespace Inverts

variable {w n : Nat} {l : List Nat} {F : Fields l} {i : Instr} {r : Except DecodeError Instr} {c : Prop} [Decidable c]

theorem error {e : DecodeError} : Inverts w (.error e) := fun _ h => nomatch h

/-- The only instruction of its major: its fields are the slices of the word. -/
theorem only (h : F.Read w n 26 → encode i = some w)
    (hrow : F.Read w n 26 := by
      simp only [Fields.Read, Nat.reduceAdd, Nat.reduceSub, Nat.reducePow, Nat.reduceDiv, Nat.reduceMod, bits_zero, toNat_ofNat_bits,
        toNat_bits_beq_one, and_self]) : Inverts w (.ok i) := by
  rintro _ ⟨⟩
  exact h hrow

/-- A row of a major's decoder: the row's condition is that the word holds the fixed bits, and the fields are its other slices. -/
theorem row (h : F.Read w n 26 → encode i = some w) (hr : Inverts w r)
    (hrow : c → F.Read w n 26 := by
      intro hc
      simp only [Fields.Read, Nat.reduceAdd, Nat.reduceSub, Nat.reducePow, Nat.reduceDiv, Nat.reduceMod, bits_zero, toNat_ofNat_bits,
        toNat_bits_beq_one, hc, and_self]) : Inverts w (if c then .ok i else r) := by
  split
  · exact only h (hrow ‹_›)
  · exact hr

end Inverts

theorem decodeMajor1C_inverts {w : Nat} (hm : 28 ≤ w / 2 ^ 26 ∧ w / 2 ^ 26 < 36) : Inverts w (decodeMajor1C w) := by
  repeat refine .row (encode_of_read_part hm rfl) ?_
  exact .error

/-- Major by major and row by row, the instruction that the decoder finds has the word. -/
theorem decodeFields_inverts {w : Nat} (hw : w < 2 ^ 32) : Inverts w (decodeFields w) := by
  rw [decodeFields, Nat.mod_eq_of_lt (by omega)]
  split
  any_goals exact decodeMajor1C_inverts (by omega)
  any_goals exact .only (encode_of_read ‹_› rfl)
  all_goals
    repeat refine .row (encode_of_read ‹_› rfl) ?_
    exact .error

end Sys2Proof

open Sys2Proof Sys2Proof.Machine

/-- Settles O1: an instruction's word holds its fields, so the decoder finds the instruction, which is well formed. -/
theorem decodeOfEncode : Obligations.DecodeOfEncode := by
  unfold Obligations.DecodeOfEncode
  intro i w hwf he
  obtain ⟨hlt, hd⟩ := decodeFields_of_encode he
  exact ⟨hlt, decode_eq_ok_iff.2 ⟨hd, hwf⟩⟩

/-- Settles O2: what the decoder finds in a word is well formed, and its fields make up the word. -/
theorem encodeOfDecode : Obligations.EncodeOfDecode := by
  unfold Obligations.EncodeOfDecode
  intro i w hw hd
  obtain ⟨hf, hwf⟩ := decode_eq_ok_iff.1 hd
  exact ⟨hwf, decodeFields_inverts hw i hf⟩

end

section
/-! SUPPORT. Words of the spec, the step of a hart at its boundary, and the prefix that a trap saves (R126 to R139, R293, R299 to R301). -/

namespace Sys2Proof.Machine

/-- The word of four bytes in memory order. -/
theorem ofBytes_four (b0 b1 b2 b3 : Byte) :
    ofBytes [b0, b1, b2, b3] = b0.toNat + 256 * b1.toNat + 65536 * b2.toNat + 16777216 * b3.toNat := by
  simp only [ofBytes]
  omega

/-! ## The saved prefix (R136) -/

/-- The fields of `PFXSTATE`. -/
abbrev pfxFields (p : Pfx) : List Nat :=
  [putAt p.succ 18, flagAt p.cpen 13, putAt p.vcopy 7, flagAt p.zero 6, flagAt p.dt 5, flagAt p.pol 4, putAt p.k 1]

theorem packPfx_eq (p : Pfx) : packPfx p p.succ = BitVec.ofNat 64 (wordOf 1 (pfxFields p)) := by
  unfold packPfx wordOf
  congr 1
  simp only [List.sum_cons, List.sum_nil, putAt, flagAt]
  omega

theorem getLsbD_eq_bits (w : Word) (n : Nat) : w.getLsbD n = (bits w.toNat n 1 == 1) := by
  rw [BitVec.getLsbD, Nat.testBit_eq_decide_div_mod_eq]
  rfl

theorem extractLsb'_eq_bits (w : Word) (lo n : Nat) : w.extractLsb' lo n = BitVec.ofNat n (bits w.toNat lo n) := by
  apply BitVec.eq_of_toNat_eq
  rw [BitVec.extractLsb'_toNat, toNat_ofNat_bits, Nat.shiftRight_eq_div_pow, bits]

/-- The slices of a saved prefix. -/
theorem packPfx_read (p : Pfx) (F : Fields (pfxFields p)) (hf : F.fit 1 64 = true) : F.Read (packPfx p p.succ).toNat 1 64 := by
  have hlt := F.fit_lt hf
  rw [F.read_iff hf, packPfx_eq, BitVec.toNat_ofNat, wordOf, Nat.mod_mod]
  omega

/-- Saving a prefix loses nothing of it, and marks `PFXSTATE` as holding one. -/
theorem unpackPfx_packPfx (p : Pfx) : unpackPfx (packPfx p p.succ) = p ∧ (packPfx p p.succ).getLsbD 0 = true := by
  have h := packPfx_read p (.put (.flag (.put (.flag (.flag (.flag (.put .nil))))))) rfl
  simp only [Fields.Read, Nat.reduceAdd, Nat.reduceSub, Nat.reducePow, Nat.reduceDiv, Nat.reduceMod] at h
  constructor
  · simp only [unpackPfx, extractLsb'_eq_bits, getLsbD_eq_bits, h, BitVec.ofNat_toNat, BitVec.setWidth_eq, toNat_beq_one]
  · simp only [getLsbD_eq_bits, h, beq_self_eq_true]

/-- A set low bit goes with a decrement. -/
theorem getLsbD_zero_sub_one {w : Word} (h : w.getLsbD 0 = true) : (w - 1).getLsbD 0 = false := by
  simp only [getLsbD_eq_bits, bits, pow_zero, Nat.div_one, pow_one, beq_iff_eq] at h
  have hodd : (w - 1).toNat % 2 ≠ 1 := by bv_omega
  simpa only [getLsbD_eq_bits, bits, pow_zero, Nat.div_one, pow_one, beq_eq_false_iff_ne] using hodd

/-- An entry to the task vector sets INH (R298). -/
theorem enterVector_inh (h : Hart) (cause : Cause) (pc info : Word) : (enterVector h cause pc info).inh = true := by
  show (BitVec.ofNat 64 (2 ^ 16 + (if causeAsync cause then 2 ^ 8 else 0) + causeCode cause)).getLsbD 16 = true
  cases cause <;> decide

/-- A return clears it. -/
theorem returnFromTrap_inh (h : Hart) : (returnFromTrap h).inh = false := by
  simp [Hart.inh, returnFromTrap]

end Sys2Proof.Machine

open Sys2Proof Sys2Proof.Machine

/-- Settles O54: the entry saves the prefix in `PFXSTATE`, from which the return reads it back. -/
theorem returnRestoresPrefix : Obligations.ReturnRestoresPrefix := by
  unfold Obligations.ReturnRestoresPrefix
  intro h p cause pc info hp
  obtain ⟨hback, hheld⟩ := unpackPfx_packPfx p
  have hsaved : (enterVector h cause pc info).pfxstate = packPfx p p.succ := by simp only [enterVector, hp]
  refine ⟨enterVector_inh h cause pc info, returnFromTrap_inh _, ?_, ?_, rfl, rfl, rfl, rfl, rfl⟩
  · simp only [returnFromTrap, hsaved, hheld, if_true, hback]
  · simp only [returnFromTrap, hsaved, hheld, if_true, getLsbD_zero_sub_one hheld]

/-- Settles O5: at its boundary the hart runs the word it fetches, and this one is only the trap. -/
theorem undecodedWordIllegal : Obligations.UndecodedWordIllegal := by
  unfold Obligations.UndecodedWordIllegal
  intro s s' id h b0 b1 b2 b3 e hp hs hc hh hq ha hg hd hf hw
  have hnone : decodeList [b0, b1, b2, b3] = none := by rw [decodeList_bytes, hw]; rfl
  rw [step_picked s id h hp hs hc hh, runHart_undecoded hq ha hd hf hnone hg, ofBytes_four]

/-- Settles O4: at its boundary the hart runs the word it fetches, which is one that may be next. -/
theorem stepRunsDecoded : Obligations.StepRunsDecoded := by
  unfold Obligations.StepRunsDecoded
  intro s s' id h b0 b1 b2 b3 i hp hs hc hh hq ha hd hf hw
  have hsome : decodeList [b0, b1, b2, b3] = some i := by rw [decodeList_bytes, hw]; rfl
  exact ⟨(step_picked s id h hp hs hc hh).trans (runHart_word hq ha hd hf hsome), fetch_cases hf⟩

/-- Settles O3: each word is the one that encodes its instruction, which is well formed; major 0 is unassigned. -/
theorem decodeWords : Obligations.DecodeWords := by
  unfold Obligations.DecodeWords
  have words {i : Instr} {w : Nat} (hwf : i.wf = true) (he : encode i = some w) : decode w = .ok i := (decodeOfEncode i w hwf he).2
  exact ⟨words rfl rfl, words rfl rfl, words rfl rfl, words rfl rfl, words rfl rfl, words rfl rfl, words rfl rfl, words rfl rfl,
    words rfl rfl, words rfl rfl, words rfl rfl, words rfl rfl, rfl⟩

end

section
/-! SUPPORT. What a read and a write of a system register leave (R141, R142, R171, R312). -/

namespace Sys2Proof.Machine

/-! ## The system registers of a hart and of its column -/

/-- A write of a register leaves what is no system register. -/
theorem writeOwn_x (h : Hart) (n : Nat) (v : Word) : (writeOwn h n v).x = h.x := by
  unfold writeOwn
  split <;> rfl

theorem writeOwn_ctl (h : Hart) (n : Nat) (v : Word) : (writeOwn h n v).ctl = h.ctl := by
  unfold writeOwn
  split <;> rfl

/-- A setting of the module that leaves the harts leaves the instruction's hart. -/
theorem global_h (c : Ctx) (f : State → State) (hf : ∀ s, (f s).harts = s.harts) : (c.global f).h = c.h := by
  show (find? (f (c.s.setHart c.id c.h)).harts c.id).getD c.h = c.h
  rw [hf]
  exact congrArg (·.getD c.h) (find?_put_same ..)

theorem writeOwner_harts (s : State) (id : Nat) (h : Hart) (v : Word) : (writeOwner s id h v).harts = s.harts :=
  foldl_harts (fun s n => s.modCol n _) (fun _ _ => rfl) _ s

/-- A write gives the hart its own registers: those of a column are none of them. -/
theorem sysWrite_h (c : Ctx) (n : Nat) (v : Word) : (sysWrite c n v).h = writeOwn c.h n v := by
  unfold sysWrite
  split
  · rfl
  · split
    · rfl
    · exact global_h _ _ fun _ => rfl
  · rfl

/-- A write stays with its instruction, transfers nowhere and leaves nothing for its retirement. -/
theorem sysWrite_issue (c : Ctx) (n : Nat) (v : Word) :
    (sysWrite c n v).id = c.id ∧ (sysWrite c n v).taken = c.taken ∧ (sysWrite c n v).todo = c.todo := by
  unfold sysWrite
  split
  · exact ⟨rfl, rfl, rfl⟩
  · split <;> exact ⟨rfl, rfl, rfl⟩
  · exact ⟨rfl, rfl, rfl⟩

theorem sysWrite_mem (c : Ctx) (n : Nat) (v : Word) : (sysWrite c n v).s.mem = c.s.mem := by
  unfold sysWrite
  split
  · rfl
  · split
    · exact writeOwner_mem ..
    · exact global_mem _ _ fun s => stewardOwner_mem ..
  · rfl

theorem sysWrite_others (c : Ctx) (n : Nat) (v : Word) {m : Nat} (hm : m ≠ c.id) : (sysWrite c n v).s.hart? m = c.s.hart? m := by
  unfold sysWrite
  split
  · rfl
  · split
    · exact congrArg (find? · m) (writeOwner_harts ..)
    · exact find?_put_other _ _ _ _ hm
  · rfl

/-- A register reads as its written fields leave it, also when the hart has moved on. -/
theorem sysRead_sysWrite (c : Ctx) (i : Instr) (next : Word × List LoopEntry) {n : Nat} {v w : Word}
    (hw : written n (sysRead c.s c.h n) v = some w) :
    let g := (sysWrite c n v).h.after i next
    sysRead ({ (sysWrite c n v).s with cur := none }.setHart c.id g) g n = w := by
  unfold written at hw
  split at hw
  case h_13 =>
    cases hw
    exact congrArg Column.errcol (col_modCol_same c.s c.h.column fun k => { k with errcol := writeErrcol k.errcol v })
  case h_14 => cases hw
  all_goals
    cases hw
    rfl

/-! ## `REFOWNER` (R312) -/

theorem Hart.columns_nodup (h : Hart) : h.columns.Nodup := List.Nodup.map (add_right_injective h.column) List.nodup_range

/-- One change made to some different columns is made once to each of them, and the others are as they were. -/
theorem col_foldl_modCol (f : Column → Column) (k : Nat) {l : List Nat} (hl : l.Nodup) : ∀ s : State,
    (l.foldl (fun s n => s.modCol n f) s).col k = if k ∈ l then f (s.col k) else s.col k := by
  induction l with
  | nil => exact fun s => rfl
  | cons a l ih =>
    intro s
    obtain ⟨ha, hl⟩ := List.nodup_cons.1 hl
    rw [List.foldl_cons, ih hl]
    by_cases hk : k = a
    · subst hk
      rw [if_neg ha, if_pos List.mem_cons_self, col_modCol_same]
    · rw [col_modCol_other _ _ hk]
      simp only [List.mem_cons, hk, false_or]

/-- A write in task mode leaves the owner of a column outside the partition. -/
theorem writeOwner_outside (s : State) (id : Nat) (h : Hart) (v : Word) {k : Nat} (hk : k ∉ h.columns) :
    (writeOwner s id h v).col k = s.col k := by
  unfold writeOwner
  rw [col_foldl_modCol _ _ h.columns_nodup, if_neg hk]

/-- It names the hart in a column of the partition, or clears the register where the hart is the owner. -/
theorem writeOwner_refowner (s : State) (id : Nat) (h : Hart) (v : Word) {k : Nat} (hk : k ∈ h.columns) :
    ((writeOwner s id h v).col k).refowner =
      if v.getLsbD 8 then BitVec.ofNat 64 (256 + h.ctx) else if (s.col k).owner = some id then 0 else (s.col k).refowner := by
  unfold writeOwner
  rw [col_foldl_modCol _ _ h.columns_nodup, if_pos hk]
  split
  · rfl
  · split <;> rfl

/-- A write of `REFOWNER` in task mode, column by column. -/
theorem sysWrite_refowner (c : Ctx) (v : Word) (hm : c.h.mode = .task) (k : Nat) :
    (sysWrite c 0x061 v).s.col k = (writeOwner c.s c.id c.h v).col k :=
  congrArg (fun c : Ctx => c.s.col k) (if_pos hm)

/-! ## `SRD` and `SWR` (R109, R171) -/

section
variable {s : State} {id : Nat} {h : Hart} {x : XReg} {r : BitVec 12}

/-- An access that waits for the earlier instructions of its hart, some of which have not retired, waits at its pc. -/
theorem afterAll_wait (c : Ctx) (h : c.h.caughtUp = false) : afterAll c = .error (.wait .access c) :=
  if_neg (by rw [h]; exact Bool.false_ne_true)

theorem srd_held (hi : Issues s id h (.srd x r)) (hr : afterRetirement r.toNat = true) (hc : h.caughtUp = false) :
    exec (.srd x r) s = .next (holdBack s id h) := by
  refine issue_held hi (c := begun s id h (.srd x r)) ?_ hc ?_
  · rw [if_pos hr, afterAll_wait _ hc]
    rfl
  · simp only [queueable, srd_major, Option.any_some]
    decide

/-- `SRD` completes with the value of the register. -/
theorem srd_completes (hi : Issues s id h (.srd x r)) (hf : r = 0x010 → h.filmMode = 0)
    (hc : afterRetirement r.toNat = true → h.caughtUp = true) :
    Completes (.srd x r) s h ((begun s id h (.srd x r)).setX x (sysRead s h r.toNat)) := by
  refine issue_ok hi ?_
  by_cases hr : afterRetirement r.toNat = true
  · rw [if_pos hr, afterAll_ok _ (hc hr)]
    rfl
  · rw [if_neg hr]
    by_cases hcycle : r = 0x010
    · subst hcycle
      rw [if_pos rfl, filmed_off _ _ _ _ _ (hf rfl)]
      rfl
    · rw [if_neg hcycle]
      rfl

/-- The checks of `SWR`: no reserved rounding mode, and a register that the mode may write. -/
theorem rounding_legal (hrm : r = 0x030 → (h.getX x).toNat % 8 ≤ 4) :
    (!(r == 0x030 && decide (4 < (h.getX x).toNat % 8))) = true := by
  simp only [Bool.not_eq_true', Bool.and_eq_false_iff, beq_eq_false_iff_ne, decide_eq_false_iff_not, Nat.not_lt]
  exact Decidable.not_or_of_imp hrm

theorem mode_writes (hw : h.mode = .steward ∨ taskWritable r.toNat = true) :
    (h.mode == .steward || taskWritable r.toNat) = true := by
  rcases hw with hw | hw <;> simp [hw]

theorem swr_illegal (hi : Issues s id h (.swr x r)) (hr : r = 0x030) (hrm : 4 < (h.getX x).toNat % 8) :
    Traps (.swr x r) s id h .illegal (h.getX x) := by
  refine issue_trap hi (c := begun s id h (.swr x r)) ?_ rfl
  have hbad : (!(r == 0x030 && decide (4 < (h.getX x).toNat % 8))) = false := by simp [hr, hrm]
  exact congrArg (· >>= _) (need_false hbad ..)

theorem swr_priv (hi : Issues s id h (.swr x r)) (hm : h.mode = .task) (hw : taskWritable r.toNat = false) :
    Traps (.swr x r) s id h .priv (Instr.swr x r).word := by
  refine issue_trap hi (c := begun s id h (.swr x r)) ?_ rfl
  have hne : r = 0x030 → (h.getX x).toNat % 8 ≤ 4 := fun hr => absurd (hr ▸ hw) (by decide)
  have hbad : (h.mode == .steward || taskWritable r.toNat) = false := by rw [hm, hw]; rfl
  exact bind_ok (need_true (rounding_legal hne) ..) (congrArg (· >>= _) (need_false hbad ..))

theorem swr_held (hi : Issues s id h (.swr x r)) (hr : afterRetirement r.toNat = true) (hc : h.caughtUp = false)
    (hrm : r = 0x030 → (h.getX x).toNat % 8 ≤ 4) (hw : h.mode = .steward ∨ taskWritable r.toNat = true) :
    exec (.swr x r) s = .next (holdBack s id h) := by
  refine issue_held hi (c := begun s id h (.swr x r)) ?_ hc ?_
  · refine bind_ok (need_true (rounding_legal hrm) ..) (bind_ok (need_true (mode_writes hw) ..) ?_)
    rw [if_pos hr, afterAll_wait _ hc]
    rfl
  · simp only [queueable, swr_major, Option.any_some]
    decide

/-- `SWR` completes with the register written. -/
theorem swr_completes (hi : Issues s id h (.swr x r)) (hc : afterRetirement r.toNat = true → h.caughtUp = true)
    (hrm : r = 0x030 → (h.getX x).toNat % 8 ≤ 4) (hw : h.mode = .steward ∨ taskWritable r.toNat = true) :
    Completes (.swr x r) s h (sysWrite (begun s id h (.swr x r)) r.toNat (h.getX x)) := by
  refine issue_ok hi (bind_ok (need_true (rounding_legal hrm) ..) (bind_ok (need_true (mode_writes hw) ..) ?_))
  by_cases hr : afterRetirement r.toNat = true
  · exact (if_pos hr).trans (bind_ok (afterAll_ok _ (hc hr)) rfl)
  · exact if_neg hr

/-- Without debug, an instruction of major 0x17 that neither transfers nor leaves anything for its retirement completes in a next state. -/
theorem completes_system {i : Instr} {c : Ctx} (he : Completes i s h c) (hm : i.major = some 0x17) (hctl : c.h.ctl = 0)
    (hk : c.taken = false) (ht : c.todo = []) (hid : c.id = id) :
    exec i s = .next ({ c.s with cur := none }.setHart id (c.h.after i ((loopNext c.h).1, (loopNext c.h).2.1))) := by
  rw [completes_quiet he hctl (by rw [ht]; rfl) hk (retiresApart_low hm (.inr rfl)) (outruns_low hm (by decide) h c), hid]

/-- The next state of `SRD` without debug: its hart has the value in xd and moves on. -/
theorem srd_next (hu : Undebugged h)
    (he : Completes (.srd x r) s h ((begun s id h (.srd x r)).setX x (sysRead s h r.toNat))) :
    ∃ next, exec (.srd x r) s = .next ({ s with cur := none }.setHart id
      (((begun s id h (.srd x r)).h.setX x (sysRead s h r.toNat)).after (.srd x r) next)) := by
  have hctl : ((begun s id h (.srd x r)).h.setX x (sysRead s h r.toNat)).ctl = 0 := by
    rw [Hart.setX_ctl]
    exact hu.2
  exact ⟨_, completes_system he (srd_major x r) hctl rfl rfl rfl⟩

/-- The next state of `SWR` without debug: the register is written, and its hart moves on. -/
theorem swr_next (hu : Undebugged h) {c : Ctx} (hc : c = sysWrite (begun s id h (.swr x r)) r.toNat (h.getX x))
    (he : Completes (.swr x r) s h c) :
    ∃ next, exec (.swr x r) s = .next ({ c.s with cur := none }.setHart id (c.h.after (.swr x r) next)) := by
  subst hc
  obtain ⟨hid, hk, ht⟩ := sysWrite_issue (begun s id h (.swr x r)) r.toNat (h.getX x)
  have hctl : (sysWrite (begun s id h (.swr x r)) r.toNat (h.getX x)).h.ctl = 0 := by
    rw [sysWrite_h, writeOwn_ctl]
    exact hu.2
  exact ⟨_, completes_system he (swr_major x r) hctl hk ht hid⟩

end

end Sys2Proof.Machine

open Sys2Proof Sys2Proof.Machine

/-- Settles O23: each access completes, waits or traps by its own lemma, and its next state holds what the read or the write leaves. -/
theorem systemRegistersComplete : Obligations.SystemRegistersComplete := by
  unfold Obligations.SystemRegistersComplete
  intro s id h x r
  refine ⟨srd_held, fun hi hf hc => ⟨srd_completes hi hf hc, fun hu => ?_⟩,
    fun hi => ⟨swr_illegal hi, swr_priv hi, swr_held hi, fun hc hrm hw => ⟨swr_completes hi hc hrm hw, fun hu => ?_⟩⟩⟩
  · let c := begun s id h (.srd x r)
    obtain ⟨next, hnext⟩ := srd_next hu (srd_completes hi hf hc)
    exact ⟨_, _, hnext, find?_put_same .., fun hx => Hart.getX_setX_same c.h x _ hx, fun q hq => Hart.getX_setX_other c.h x q _ hq, rfl,
      fun n hn => find?_put_other _ _ _ _ hn⟩
  · let c := begun s id h (.swr x r)
    obtain ⟨next, hnext⟩ := swr_next hu rfl (swr_completes hi hc hrm hw)
    have hx : (sysWrite c r.toNat (h.getX x)).h.x = h.x := by
      rw [sysWrite_h]
      exact writeOwn_x c.h _ _
    refine ⟨_, _, hnext, find?_put_same .., fun q => Hart.getX_of_x hx q, sysWrite_mem ..,
      fun n hn => (find?_put_other _ _ _ _ hn).trans (sysWrite_others c _ _ hn), fun w => sysRead_sysWrite c _ _, fun hr hm => ?_⟩
    subst hr
    have hcol := sysWrite_refowner c (h.getX x) hm
    exact ⟨fun k hk => congrArg Column.refowner ((hcol k).trans (writeOwner_outside _ _ _ _ hk)),
      fun k hk => (congrArg Column.refowner (hcol k)).trans (writeOwner_refowner _ _ _ _ hk)⟩

end

section
/-! SUPPORT. Control flow, hardware loops, ordering and the retirement of an instruction (R157 to R160, R170 to R174, R217, R218, R220, R275). -/

namespace Sys2Proof.Machine

section
variable {s : State} {id : Nat} {h : Hart}

/-! ## Transfers and loops (R157 to R160) -/

/-- A `BP` whose predicate does not hold only retires. -/
theorem bp_untaken {p : PReg} {neg : Bool} {off : BitVec 22} (hi : Issues s id h (.bp p neg off)) (hl : OffLoopEnd h) (hp : h.getP p = neg) :
    Completes (.bp p neg off) s h (begun s id h (.bp p neg off)) :=
  issue_ok hi (bind_ok (notAtLoopEnd_ok _ hl) (if_pos (beq_iff_eq.2 hp)))

/-- A taken `BP` leaves the loops that hold it and not its target. -/
theorem bp_taken {p : PReg} {neg : Bool} {off : BitVec 22} (hi : Issues s id h (.bp p neg off)) (hl : OffLoopEnd h) (hp : h.getP p ≠ neg) :
    let c := begun s id h (.bp p neg off)
    let target := h.pc + off.signExtend 64 <<< 2
    Completes (.bp p neg off) s h (({ c with h := { c.h with loops := breakOut h.pc target h.loops } } : Ctx).transfer target) :=
  issue_ok hi (bind_ok (notAtLoopEnd_ok _ hl) (if_neg (fun e => hp (beq_iff_eq.1 e))))

theorem jal_completes {d : XReg} {imm : BitVec 14} (hi : Issues s id h (.jal d imm)) (hl : OffLoopEnd h) :
    Completes (.jal d imm) s h (((begun s id h (.jal d imm)).setX d (h.pc + 4)).transfer (h.pc + imm.signExtend 64 <<< 2)) :=
  issue_ok hi (bind_ok (notAtLoopEnd_ok _ hl) rfl)

/-- The target of `JALR` is found before xd is written, and is a multiple of 4. -/
theorem jalr_completes {d a : XReg} {imm : BitVec 14} (hi : Issues s id h (.jalr d a imm)) (hl : OffLoopEnd h)
    (ht : (h.getX a + imm.signExtend 64 <<< 2).toNat % 4 = 0) :
    Completes (.jalr d a imm) s h
      (((begun s id h (.jalr d a imm)).setX d (h.pc + 4)).transfer (h.getX a + imm.signExtend 64 <<< 2)) :=
  issue_ok hi (bind_ok (notAtLoopEnd_ok _ hl) (bind_ok (need_true (beq_iff_eq.2 ht) ..) rfl))

/-- A `LOOP` that has a free entry, and whose body lies as it must, goes past the body where the count is 0 and pushes it otherwise. -/
theorem loop_completes {a : XReg} {imm : BitVec 14} {start last : Word} (hs : start = h.pc + 4)
    (he : last = start + (imm.setWidth 64 : Word) <<< 2) (hi : Issues s id h (.loop a imm)) (hl : OffLoopEnd h)
    (hfree : h.loops.length < 4) (hbody : overlaps start last h.loops = false) :
    let c := begun s id h (.loop a imm)
    Completes (.loop a imm) s h
      (if h.getX a = 0 then c.jump (last + 4) else { c with h := { c.h with loops := ⟨start, last, h.getX a⟩ :: h.loops } }) := by
  have hlegal : (decide (h.loops.length < 4) && !overlaps start last h.loops) = true := by
    rw [decide_eq_true hfree, hbody]
    rfl
  subst hs he
  exact issue_ok hi (bind_ok (notAtLoopEnd_ok _ hl) (bind_ok (legal_true hlegal _) (apply_ite Except.ok ..).symm))

/-! ## Ordering (R217, R218) -/

/-- No remote write of the hart is outstanding, or the scope does not ask for that. -/
theorem awaitRemoteWrites_ok {c : Ctx} {scope : Nat}
    (hw : scope = 4 → ∀ e ∈ c.s.outstanding, e.2.hart = c.id → e.2.load = true) : awaitRemoteWrites c scope = .ok () := by
  refine if_neg ?_
  rintro ⟨hs, ho⟩
  obtain ⟨e, he, hx⟩ := List.any_eq_true.1 ho
  simp only [Bool.and_eq_true, beq_iff_eq, Bool.not_eq_true'] at hx
  exact absurd (hw hs e he hx.1) (by rw [hx.2]; exact Bool.false_ne_true)

theorem vdrain_completes {sc : BitVec 3} (hi : Issues s id h (.vdrain sc))
    (hw : sc.toNat = 4 → ∀ e ∈ (begun s id h (.vdrain sc)).drainElems.s.outstanding, e.2.hart = id → e.2.load = true) :
    Completes (.vdrain sc) s h (begun s id h (.vdrain sc)).drainElems :=
  issue_ok hi (bind_ok (awaitRemoteWrites_ok hw) rfl)

end

/-! ## The next pc and the loop stack (R159) -/

theorem loopNext_nil {h : Hart} (hl : h.loops = []) : loopNext h = (h.pc + 4, [], none) := by
  unfold loopNext
  rw [hl]

section
variable {h : Hart} {e : LoopEntry} {rest : List LoopEntry}

/-- Inside the body of the innermost loop the next word follows. -/
theorem loopNext_within (hl : h.loops = e :: rest) (hp : h.pc ≠ e.last) : loopNext h = (h.pc + 4, e :: rest, none) := by
  unfold loopNext
  simp only [hl, if_pos hp]

/-- After the last repetition the entry is popped. -/
theorem loopNext_exit (hl : h.loops = e :: rest) (hp : h.pc = e.last) (hr : e.remaining = 1) :
    loopNext h = (e.last + 4, rest, some (e.last + 4)) := by
  unfold loopNext
  simp only [hl, hp, hr, ne_eq, not_true, if_false, sub_self]

/-- After another the body starts again, with one repetition less. -/
theorem loopNext_again (hl : h.loops = e :: rest) (hp : h.pc = e.last) (hr : e.remaining ≠ 1) :
    loopNext h = (e.start, { e with remaining := e.remaining - 1 } :: rest, none) := by
  have hne : e.remaining - 1 ≠ 0 := fun hz => hr (sub_eq_zero.1 hz)
  unfold loopNext
  simp only [hl, hp, ne_eq, not_true, if_false, if_pos hne]

end

/-! ## Instructions that their hart goes past (R220) -/

/-- An instruction that its hart goes past leaves its results, and an entry of the vector queue with what is left for its retirement. -/
theorem retire_outrun {i : Instr} {h0 : Hart} {c : Ctx} (ho : outruns i h0 c = true) :
    ∃ todo, retire i h0 c = { c.s.setHart c.id (c.h.outrun i h0 (if c.taken then c.npc else (loopNext c.h).1)
      (if c.taken then c.h.loops else (loopNext c.h).2.1) todo) with cur := none } := by
  unfold retire
  rw [if_pos ho]
  cases c.taken
  · exact ⟨_, rfl⟩
  · exact ⟨_, rfl⟩

/-- An instruction that its hart has gone past does not yet count as retired (R172). -/
theorem Hart.outrun_retired (h : Hart) (i : Instr) (h0 : Hart) (pc : Word) (loops : List LoopEntry) (todo : List AtRetire) :
    (h.outrun i h0 pc loops todo).retired = h.retired := by
  show h.instret + 1 - BitVec.ofNat 64 (h.vqueue ++ [_]).length = h.instret - BitVec.ofNat 64 h.vqueue.length
  rw [List.length_append, List.length_singleton, BitVec.ofNat_add]
  exact add_sub_add_right_eq_sub ..

end Sys2Proof.Machine

open Sys2Proof Sys2Proof.Machine

/-- Settles O10, by the completion of the instructions of the table of integer results. -/
theorem integerCompletes : Obligations.IntegerCompletes := by
  unfold Obligations.IntegerCompletes
  exact fun _ _ _ _ _ _ hi hr => intResult_completes hi hr

/-- Settles O11, by the completion of the instructions of the table of predicate results. -/
theorem predicateCompletes : Obligations.PredicateCompletes := by
  unfold Obligations.PredicateCompletes
  exact fun _ _ _ _ _ _ hi hr => predResult_completes hi hr

/-- Settles O12, by the completion of the instructions of the table of floating results. -/
theorem floatCompletes : Obligations.FloatCompletes := by
  unfold Obligations.FloatCompletes
  exact fun _ _ _ _ _ _ _ hi hr => floatResult_completes hi hr

/-- Settles O14: each transfer passes the check of the loop's end address, and `JALR` that of its target. -/
theorem transferCompletes : Obligations.TransferCompletes := by
  unfold Obligations.TransferCompletes
  exact fun _ _ _ hl => ⟨fun _ _ _ hi hp => bp_untaken hi hl hp, fun _ _ _ hi hp => bp_taken hi hl hp,
    fun _ _ hi => jal_completes hi hl, fun _ _ _ hi ht => jalr_completes hi hl ht⟩

/-- Settles O15, by the two cases of the count. -/
theorem loopCompletes : Obligations.LoopCompletes := by
  unfold Obligations.LoopCompletes
  intro s id h a imm i c start last hi hl hfree hbody
  have hc : Completes i s h (if h.getX a = 0 then _ else _) := loop_completes rfl rfl hi hl hfree hbody
  exact ⟨fun hz => by rwa [if_pos hz] at hc, fun hz => by rwa [if_neg hz] at hc⟩

/-- Settles O16: the next pc and loop stack are those of `loopNext`, in each of its cases. -/
theorem retirementMovesOn : Obligations.RetirementMovesOn := by
  unfold Obligations.RetirementMovesOn
  intro i h0 c next
  have hnext : next = (if c.taken then c.npc else (loopNext c.h).1, if c.taken then c.h.loops else (loopNext c.h).2.1) := by
    cases ht : c.taken with
    | true => simp only [next, ht, if_true]
    | false =>
      simp only [next, ht, Bool.false_eq_true, if_false]
      cases hl : c.h.loops with
      | nil => rw [loopNext_nil hl]
      | cons e rest =>
        by_cases hp : c.h.pc = e.last
        · by_cases hr : e.remaining = 1
          · rw [loopNext_exit hl hp hr]
            exact (if_neg (not_not.2 hp)).trans (if_pos hr)
          · rw [loopNext_again hl hp hr]
            exact (if_neg (not_not.2 hp)).trans (if_neg hr)
        · rw [loopNext_within hl hp]
          exact if_pos hp
  clear_value next
  subst hnext
  refine ⟨fun ho hctl ht => ?_, fun ho => ?_⟩
  · rw [retire_quiet i h0 c hctl ht ho]
    cases c.taken <;> rfl
  · obtain ⟨todo, hretire⟩ := retire_outrun ho
    exact ⟨_, hretire, rfl, Hart.outrun_retired .., ⟨_, rfl, rfl, rfl⟩, rfl, rfl, rfl, rfl, rfl, rfl, rfl⟩

/-- Settles O22: each instruction is its effect, and `VDRAIN` passes its wait for remote writes. -/
theorem orderingCompletes : Obligations.OrderingCompletes := by
  unfold Obligations.OrderingCompletes
  exact fun _ _ _ => ⟨fun hi => issue_ok hi rfl, fun _ _ hi => issue_ok hi rfl, fun hi => issue_ok hi rfl,
    fun _ hi hw => vdrain_completes hi hw, fun _ hi => issue_ok hi rfl⟩

end

section
/-! SUPPORT. Scalar loads and stores, the store buffer and atomics (R69, R161 to R163, R168, R169, R201, R364). -/

namespace Sys2Proof.Machine

/-! ## Places (R69, R162) -/

section
variable {c : Ctx} {va : Word} {n : Nat} {w : Want}

/-- An address that is not a multiple of the size is no place. -/
theorem place_misaligned (ha : va.toNat % n ≠ 0) : place c va n w = .error (.trap .align va c) := if_pos ha

/-- In the hart's share of the TCM window a place is in its bank. -/
theorem place_inShare (ha : va.toNat % n = 0) (hin : InShare c.s c.h va n) :
    place c va n w = .ok (.tcm (va.toNat - 0xFFFFFFFF0000), c) := by
  unfold place
  rw [if_neg (not_not.2 ha), if_pos hin.1]
  exact if_pos hin.2

/-- Elsewhere it is where translation puts it. -/
theorem place_translated {s' : State} {pa leaf : Nat} (ha : va.toNat % n = 0) (ht : inTcm va.toNat = false)
    (htr : hartTranslate c.s c.h w va.toNat = (s', .ok (pa, leaf))) : place c va n w = .ok (.mem pa leaf, { c with s := s' }) := by
  unfold place
  rw [if_neg (not_not.2 ha), if_neg (ht ▸ Bool.false_ne_true), htr]

/-- Finding a place changes nothing of the instruction's context but the module. -/
theorem place_near {p : Place} {c' : Ctx} (hp : place c va n w = .ok (p, c')) : c.Near c' := by
  have ht := hartTranslate_harts c.s c.h w va.toNat
  unfold place at hp
  split at hp
  · cases hp
  · split at hp
    · split at hp <;> cases hp
      exact .refl c
    · split at hp
      · cases hp
      · rename_i e
        cases hp
        rw [e] at ht
        exact .of_harts c ht

/-- A place in the bank, or in good pieces of memory, passes the check of a load. -/
theorem placeGood_ok {p : Place} {filmed : Bool} (hg : ∀ pa leaf, p = .mem pa leaf → badBytes c.s pa n = false) :
    placeGood c va n filmed p = .ok () := by
  cases p with
  | tcm off => rfl
  | mem pa leaf =>
    show (if filmed && c.h.replays then .ok () else needGood c pa n va) = _
    rw [needGood_ok c pa n va (hg pa leaf rfl), ite_self]

end

/-! ## Loads (R161, R163) -/

/-- No address of memory is a hub register. -/
theorem inMemory_not_regs {pa : Nat} (hm : inMemory pa = true) : regionOf pa ≠ .regs := by
  intro hr
  rw [inMemory, hr] at hm
  exact absurd hm (by decide)

/-- What a hart's load finds at an address of memory rests on the bytes of memory and its buffered stores. -/
theorem loadByteBuffered_congr {s t : State} {h g : Hart} {pa : Nat} (hm : inMemory pa = true) (hmem : t.mem = s.mem)
    (hstores : g.stores = h.stores) : loadByteBuffered t g pa = loadByteBuffered s h pa := by
  unfold loadByteBuffered loadByte
  rw [hstores, hmem, if_neg (inMemory_not_regs hm), if_neg (inMemory_not_regs hm)]

/-- A load's access leaves the instruction's hart, and the bytes of memory. -/
theorem loadAccess_h (s : State) (id pa leaf : Nat) (c : Ctx) : (loadAccess s id pa leaf c).h = c.h :=
  global_h { c with s := s } _ fun s => readAccess_harts s _ _ _

theorem loadAccess_mem (s : State) (id pa leaf : Nat) (c : Ctx) : (loadAccess s id pa leaf c).s.mem = s.mem :=
  global_mem { c with s := s } _ fun s => readAccess_mem s _ _ _

/-- A load from good pieces of memory reads, byte by byte, the hart's latest buffered store, else memory. -/
theorem readPlace_good {c : Ctx} {va : Word} {n pa leaf : Nat} (hg : GoodBytes c.s pa n) :
    readPlace c va n (.mem pa leaf) =
      .ok (ofBytes ((span pa n).map (loadByteBuffered c.s c.h)), loadAccess c.s c.id pa leaf c) := by
  have hbytes : (span pa n).map (loadByteBuffered (loadAccess c.s c.id pa leaf c).s (loadAccess c.s c.id pa leaf c).h) =
      (span pa n).map (loadByteBuffered c.s c.h) := List.map_congr_left fun a ha =>
    loadByteBuffered_congr (hg.1 a ha) (loadAccess_mem ..) (congrArg Hart.stores (loadAccess_h ..))
  rw [← hbytes]
  exact bind_ok (needGood_ok c pa n va hg.2) rfl

section
variable {s : State} {id : Nat} {h : Hart} {i : Instr} {d r a : XReg} {imm : BitVec 13} {n : Nat} {sg : Bool}

/-- Every scalar load is `load` with its row of the table. -/
theorem exec_loadForm (hf : loadForm i = some (d, a, imm, n, sg)) (s : State) : exec i s = load i d a imm n sg s := by
  cases i <;> cases hf <;> rfl

/-- Every scalar store is `store` with its row of the table. -/
theorem exec_storeForm (hf : storeForm i = some (r, a, imm, n)) (s : State) : exec i s = store i r a imm n s := by
  cases i <;> cases hf <;> rfl

/-- A load from the hart's share of the TCM window reads its bank. -/
theorem load_inShare (hf : loadForm i = some (d, a, imm, n, sg)) (hi : Issues s id h i)
    (ha : (scalarAddress h a imm).toNat % n = 0) (hin : InShare s h (scalarAddress h a imm) n) :
    Completes i s h ((begun s id h i).setX d
      (extendLoad n sg (ofBytes ((span ((scalarAddress h a imm).toNat - 0xFFFFFFFF0000) n).map h.tcmByte)))) := by
  refine (exec_loadForm hf s).trans (issue_ok hi ?_)
  exact bind_ok (place_inShare ha hin) (bind_ok (a := ()) rfl (bind_ok (dataWaypoints_none _ _ _ hi.noDebug) rfl))

/-- A load from good pieces of memory, which no film asks for, reads them. -/
theorem load_translated (hf : loadForm i = some (d, a, imm, n, sg)) (hi : Issues s id h i)
    (ha : (scalarAddress h a imm).toNat % n = 0) {s' : State} {pa leaf : Nat} (ht : inTcm (scalarAddress h a imm).toNat = false)
    (htr : hartTranslate s h ⟨true, false, false⟩ (scalarAddress h a imm).toNat = (s', .ok (pa, leaf)))
    (hfilm : leafRec leaf = false ∨ h.filmMode = 0) (hg : GoodBytes s' pa n) :
    Completes i s h ((loadAccess s' id pa leaf (begun s id h i)).setX d
      (extendLoad n sg (ofBytes ((span pa n).map (loadByteBuffered s h))))) := by
  let c : Ctx := { begun s id h i with s := s' }
  have hmem : s'.mem = s.mem := by
    have hm := hartTranslate_mem s h ⟨true, false, false⟩ (scalarAddress h a imm).toNat
    rwa [htr] at hm
  have hbytes : (span pa n).map (loadByteBuffered s' c.h) = (span pa n).map (loadByteBuffered s h) :=
    List.map_congr_left fun x hx => loadByteBuffered_congr (hg.1 x hx) hmem rfl
  have hread : readPlace c (scalarAddress h a imm) n (.mem pa leaf) =
      .ok (ofBytes ((span pa n).map (loadByteBuffered s h)), loadAccess s' id pa leaf (begun s id h i)) := by
    rw [← hbytes]
    exact readPlace_good hg
  refine (exec_loadForm hf s).trans (issue_ok hi ?_)
  have hgood : placeGood c (scalarAddress h a imm) n (leafRec leaf) (.mem pa leaf) = .ok () := placeGood_ok fun _ _ e => by cases e; exact hg.2
  refine bind_ok (place_translated ha ht htr) (bind_ok hgood (bind_ok (dataWaypoints_none c _ _ hi.noDebug) ?_))
  dsimp only
  by_cases hr : leafRec leaf = true
  · have hoff : c.h.filmMode = 0 := hfilm.resolve_left (by simp [hr])
    rw [if_pos hr, filmed_off _ _ _ _ _ hoff]
    exact bind_ok (bind_ok hread rfl) rfl
  · rw [if_neg hr]
    exact bind_ok (bind_ok hread rfl) rfl

/-! ## Stores (R161, R163) -/

theorem toBytes_length (n v : Nat) : (toBytes n v).length = n := by
  induction n generalizing v with
  | zero => rfl
  | succ n ih => exact congrArg (· + 1) (ih _)

/-- A store at a place that its checks find writes there. -/
theorem store_placed (hf : storeForm i = some (r, a, imm, n)) (hi : Issues s id h i) {p : Place} {c : Ctx}
    (hp : place (begun s id h i) (scalarAddress h a imm) n ⟨false, true, false⟩ = .ok (p, c)) :
    Completes i s h (writePlace c (toBytes n (h.getX r).toNat) p) := by
  obtain ⟨hkept, -⟩ := place_near hp
  have hdbg : c.h.dbg = none := (congrArg Hart.dbg hkept).trans hi.noDebug
  have hx : c.x r = h.getX r := Hart.getX_of_x (congrArg Hart.x hkept) r
  rw [← hx]
  exact (exec_storeForm hf s).trans <| issue_ok hi (bind_ok hp (bind_ok (dataWaypoints_none c _ _ hdbg) rfl))

/-- A write into the bank of n bytes of a value. -/
theorem writePlace_tcm (c : Ctx) (n v off : Nat) : writePlace c (toBytes n v) (.tcm off) =
    { c with h := { c.h with tcm := putAll c.h.tcm ((span off n).zip (toBytes n v)) } } := by
  unfold writePlace
  dsimp only
  rw [toBytes_length]

end

/-! ## The store buffer (R163, R364) -/

/-- A store performed in good pieces of memory writes its bytes there, and changes no other byte. -/
theorem performStores_good {s : State} (id : Nat) {b : BufStore} (hw : Memory.wf s.mem = true) (hg : GoodBytes s b.pa b.data.length)
    (hne : b.data ≠ []) (hlen : b.data.length < 32) (x : Nat) : readByte (performStores s id [b]).mem x =
      if b.pa ≤ x ∧ x < b.pa + b.data.length then b.data.getD (x - b.pa) 0 else readByte s.mem x := by
  obtain ⟨hmem, hmarks, -⟩ := baseAccess_frame s [b.pa] (.base id)
  have hpos : 0 < b.data.length := List.length_pos_iff.2 hne
  have hregs : regionOf b.pa ≠ .regs := inMemory_not_regs (hg.1 _ (mem_span.2 ⟨le_rfl, by omega⟩))
  have hgood : badBytes (baseAccess s [b.pa] (.base id)) b.pa b.data.length = false := by
    unfold badBytes
    rw [hmarks]
    exact hg.2
  obtain ⟨m, hm, hread⟩ := storeSpan_good 1 b.pa b.data (baseAccess s [b.pa] (.base id)) hlen (hmem.symm ▸ hw) hgood
  have hstore : performStores s id [b] = { baseAccess s [b.pa] (.base id) with mem := m } := (if_neg hregs).trans hm
  rw [hstore, ← hmem]
  exact hread x

/-- A buffered store that no earlier one to a common byte precedes is performed, and leaves the buffer. -/
theorem execStoreBufferPerform_ready {s : State} {id n : Nat} {h : Hart} {b : BufStore} (hh : s.hart? id = some h)
    (hb : h.stores[n]? = some b) (hfirst : ∀ e ∈ h.stores.take n, e.touches b.pa b.data.length = false) :
    execStoreBufferPerform id n s =
      .next ((performStores s id [b]).modHart id (fun h => { h with stores := h.stores.eraseIdx n })) := by
  have hnone : ¬(h.stores.take n).any (·.touches b.pa b.data.length) = true := by
    rw [Bool.not_eq_true, List.any_eq_false]
    exact fun e he => by rw [hfirst e he]; exact Bool.false_ne_true
  unfold execStoreBufferPerform
  rw [hh]
  dsimp only
  rw [hb]
  exact if_neg hnone

/-- A change of a hart that stands shows in that hart alone. -/
theorem modHart_some {s : State} {id : Nat} {h : Hart} (hh : s.hart? id = some h) (f : Hart → Hart) : s.modHart id f = s.setHart id (f h) := by
  unfold State.modHart
  rw [hh]

/-! ## Atomics (R168, R169) -/

/-- The stores that an atomic waits for change nothing of its context but the module, and of its hart what performing changes. -/
theorem amoOrdered_near (c : Ctx) (ord : BitVec 2) (n : Nat) (p : Place) : c.Near (amoOrdered c ord n p) := by
  unfold amoOrdered
  split
  · split
    · exact perform_near c _ _
    · exact perform_near c _ _
  · split
    · exact perform_near c _ _
    · exact .refl c

/-- Every atomic is `amo` with its row of the table. -/
theorem exec_amoForm {i : Instr} {op : AmoOp} {d a b : XReg} {ord : BitVec 2} {dw : Bool} (hf : amoForm i = some (op, d, a, b, ord, dw))
    (s : State) : exec i s = amo i op d a b ord dw s := by
  cases i <;> cases hf <;> rfl

/-- The context that an atomic leaves, but for xd: m′ written where the operation on m writes. -/
def amoEffect (op : AmoOp) (n m bv dv : Nat) (read : List Nat) (p : Place) (c : Ctx) : Ctx :=
  match amoNew op (8 * n) m bv dv with
  | some m' => amoWrite c read n m' p
  | none => c

/-- With the film off an atomic at a place that is good performs the stores that it waits for, reads, writes m′ and returns the old value. -/
theorem amo_completes {s : State} {id : Nat} {h : Hart} {i : Instr} {op : AmoOp} {d a b : XReg} {ord : BitVec 2} {dw : Bool} {p : Place}
    {c₁ c₂ : Ctx} {m : Nat} (hi : Issues s id h i) (hfilm : h.filmMode = 0) :
    let n := if dw then 8 else 4
    let c := amoOrdered c₁ ord n p
    place (begun s id h i) (h.getX a) n ⟨true, true, false⟩ = .ok (p, c₁) → readPlace c (h.getX a) n p = .ok (m, c₂) →
    (∀ pa leaf, p = .mem pa leaf → inMemory pa = true ∧ badBytes c.s pa n = false) →
    amo i op d a b ord dw s = .next (retire i h
      ((amoEffect op n m ((h.getX b).toNat % 2 ^ (8 * n)) ((h.getX d).toNat % 2 ^ (8 * n)) (readRows c.s p) p c₂).setX d
        (if dw ∨ op = .minu ∨ op = .maxu then BitVec.ofNat 64 m else sextWord 32 m))) := by
  intro n c hp hr hg
  obtain ⟨hkept, -⟩ := (place_near hp).trans (amoOrdered_near c₁ ord n p)
  have hdbg : c.h.dbg = none := (congrArg Hart.dbg hkept).trans hi.noDebug
  have hoff : c.h.filmMode = 0 := (congrArg Hart.filmMode hkept).trans hfilm
  have hx (r : XReg) : c.x r = h.getX r := Hart.getX_of_x (congrArg Hart.x hkept) r
  rw [← hx b, ← hx d]
  refine issue_ok hi (bind_ok hp ?_)
  cases p with
  | tcm off =>
    refine bind_ok (a := ()) rfl (bind_ok (dataWaypoints_none c _ _ hdbg) ?_)
    dsimp only
    rw [filmed_off _ _ _ _ _ hoff]
    refine bind_ok (bind_ok hr rfl) ?_
    unfold amoEffect
    cases amoNew op (8 * n) m ((c.x b).toNat % 2 ^ (8 * n)) ((c.x d).toNat % 2 ^ (8 * n)) <;> rfl
  | mem pa leaf =>
    obtain ⟨hm, hb⟩ := hg pa leaf rfl
    have hgood : placeGood c (h.getX a) n true (.mem pa leaf) = .ok () := placeGood_ok fun _ _ e => by cases e; exact hb
    refine bind_ok hgood (bind_ok (dataWaypoints_none c _ _ hdbg) ?_)
    dsimp only
    rw [filmed_off _ _ _ _ _ hoff]
    refine bind_ok (bind_ok hr rfl) ?_
    have hregs : ¬(regionOf pa = .regs ∧ op = .add ∧ dw = true) := fun e => inMemory_not_regs hm e.1
    unfold amoEffect
    cases amoNew op (8 * n) m ((c.x b).toNat % 2 ^ (8 * n)) ((c.x d).toNat % 2 ^ (8 * n)) with
    | none => rfl
    | some m' => exact congrArg (fun e => Except.ok (Ctx.setX e d _)) (if_neg hregs)

end Sys2Proof.Machine

open Sys2Proof Sys2Proof.Machine

/-- Settles O17: the place of the load is in the bank, or where translation puts it, and the read finds its bytes. -/
theorem loadCompletes : Obligations.LoadCompletes := by
  unfold Obligations.LoadCompletes
  intro s id h i d a imm n sg hf hi va c ha
  exact ⟨load_inShare hf hi ha, fun s' pa leaf ht htr hfilm hg => load_translated hf hi ha ht htr hfilm hg⟩

/-- Settles O18: the place of the store is in the bank, or where translation puts it. -/
theorem storeCompletes : Obligations.StoreCompletes := by
  unfold Obligations.StoreCompletes
  intro s id h i r a imm n hf hi va c data ha
  refine ⟨fun hin => ?_, fun s' pa leaf ht htr => store_placed hf hi (place_translated ha ht htr)⟩
  have hs := store_placed hf hi (place_inShare ha hin)
  rwa [writePlace_tcm] at hs

/-- Settles O19: alignment is the first check of a scalar place. -/
theorem misalignedAccessTraps : Obligations.MisalignedAccessTraps := by
  unfold Obligations.MisalignedAccessTraps
  intro s id h i r a imm n sg hf hi ha
  rcases hf with hf | hf
  · exact (exec_loadForm hf s).trans (issue_trap hi (congrArg (· >>= _) (place_misaligned ha)) rfl)
  · exact (exec_storeForm hf s).trans (issue_trap hi (congrArg (· >>= _) (place_misaligned ha)) rfl)

/-- Settles O20: the store is written to good pieces, and performing it leaves every hart but for the buffer of its own. -/
theorem bufferedStorePerforms : Obligations.BufferedStorePerforms := by
  unfold Obligations.BufferedStorePerforms
  intro s id n h b hw hh hb hfirst hg hne hlen
  have hbytes := performStores_good id hw hg hne (by omega)
  have hharts := hart_of_harts (performStores_harts s id [b])
  refine ⟨_, execStoreBufferPerform_ready hh hb hfirst, ?_⟩
  rw [modHart_some ((hharts id).trans hh)]
  refine ⟨fun k hk => ?_, fun x hx => ?_, find?_put_same .., fun m hm => (find?_put_other _ _ _ _ hm).trans (hharts m)⟩
  · rw [State.setHart_mem, hbytes, if_pos ⟨by omega, by omega⟩, Nat.add_sub_cancel_left]
  · rw [State.setHart_mem, hbytes, if_neg (by omega)]

/-- Settles O21, by the completion of `amo`. -/
theorem atomicCompletes : Obligations.AtomicCompletes := by
  unfold Obligations.AtomicCompletes
  intro s id h i op d a b ord dw p c₁ c₂ m hf hi hfilm n va old hp hr hg
  exact (exec_amoForm hf s).trans (amo_completes hi hfilm hp hr hg)

end

section
/-! SUPPORT. Vector arithmetic, comparison, movement, masks and reductions where their conditions hold (R122, R190 to R195). -/

namespace Sys2Proof.Machine

section
variable {s : State} {id : Nat} {h : Hart} {i : Instr}

/-! ## Data movement (R193) -/

/-- `VSPLAT` and `VIOTA` fill the active positions, each from its position. -/
theorem exec_fillForm {d : VNum} {f : Nat → Nat}
    (hf : (∃ b dt, i = .vsplat d b dt ∧ f = fun _ => (h.getX b).toNat) ∨
      (∃ dt, i = .viota d dt ∧ f = (fun e => e) ∧ (h.getV d).tag.isInt = true)) (s : State) (id : Nat) :
    ∃ io g, exec i s = fill i d io g s ∧ g (begun s id h i) = f ∧ ((h.getV d).tag.isInt || !io) = true := by
  rcases hf with ⟨b, dt, rfl, rfl⟩ | ⟨dt, rfl, rfl, hint⟩
  · exact ⟨false, _, rfl, rfl, Bool.or_true _⟩
  · exact ⟨true, _, rfl, rfl, by rw [hint]; rfl⟩

/-- `VINS` writes element x of vd where it is active. -/
theorem vins_completes {d : VNum} {x b : XReg} {dt : Bool} (hi : Issues s id h (.vins d x b dt)) :
    let c := begun s id h (.vins d x b dt)
    let w := (h.getV d).tag.width
    let j := (h.getX x).toNat
    let out : List Elem := if j ∈ c.active w then [⟨j, (h.getX b).toNat % 2 ^ w, false⟩] else []
    h.vl ≠ 0 → c.declared [d] = true → CopyReady c d w → Idle c.h d → Opened c.h d (out.map (fun e => elemWord w e.e)) →
    Completes (.vins d x b dt) s h (c.writeV d w out) := by
  intro c w j out hv hd hcopy hidle hopen
  let hit := decide (j < min c.h.vl (c.h.capacity w)) && c.masked j
  have hactive : hit = true ↔ j ∈ c.active w := by rw [mem_active, Bool.and_eq_true, decide_eq_true_eq]
  have hout : out = if hit then [⟨j, (h.getX b).toNat % 2 ^ w, false⟩] else [] := by simp only [out, hactive]
  have hword : Opened c.h d (if hit then [elemWord w j] else []) := by
    rw [hout, apply_ite (List.map _)] at hopen
    exact hopen
  rw [hout]
  exact issue_ok hi (bind_ok (vecLegal_ok c _ _ hd hcopy.1) ((if_neg hv).trans (bind_ok (copyTag_ok c d w hcopy)
    (bind_ok (writable_ok c d hidle) (bind_ok (needOpen_ok c d _ hword) (bind_ok (needCopy_ok c d w hcopy) rfl))))))

/-- `VEXT` reads an active element that is ready and not poisoned. -/
theorem vext_active {d b : XReg} {a : VNum} {ca dt : Bool} (hi : Issues s id h (.vext d a b ca dt)) :
    let c := begun s id h (.vext d a b ca dt)
    let r := h.getV a
    let j := (h.getX b).toNat
    c.declared [a] = true → c.copyOk none = true → j ∈ c.active r.tag.width → OperandReady c.h (.reg a r) [j] →
    c.h.badElem r j = false → Completes (.vext d a b ca dt) s h (c.setX d (r.tag.extend (r.bits r.tag.width j))) := by
  intro c r j hd hcopy hj hready hgood
  refine issue_ok hi (bind_ok (vecLegal_ok c _ _ hd hcopy) ((if_pos ((mem_active c _ j).1 hj)).trans
    (bind_ok (readableOp_ok c _ _ hready) (bind_ok (needElems_ok c _ _ hready) ((if_neg (ne_true_of_eq_false hgood)).trans rfl)))))

/-- `VEXT` returns 0 for an element that is not active. -/
theorem vext_inactive {d b : XReg} {a : VNum} {ca dt : Bool} (hi : Issues s id h (.vext d a b ca dt)) :
    let c := begun s id h (.vext d a b ca dt)
    c.declared [a] = true → c.copyOk none = true → (h.getX b).toNat ∉ c.active (h.getV a).tag.width →
    Completes (.vext d a b ca dt) s h (c.setX d 0) := by
  intro c hd hcopy hj
  exact issue_ok hi (bind_ok (vecLegal_ok c _ _ hd hcopy) ((if_neg fun hact => hj ((mem_active c _ _).2 hact)).trans rfl))

/-! ## Masks (R194) -/

/-- A hart with lanes has masks. -/
theorem hasMasks_ok {c : Ctx} (hl : c.h.lanes ≠ 0) : legal (c.h.lanes != 0) c = .ok () := legal_true (bne_iff_ne.2 hl) c

/-- Every instruction that writes a mask is `maskOp` with its function of the position. -/
theorem exec_maskForm {d : KReg} {f : Nat → Bool} (hf : maskForm i h = some (d, f)) (s : State) (id : Nat) :
    ∃ g, exec i s = maskOp i d g s ∧ g (begun s id h i) = f := by
  unfold maskForm at hf
  split at hf <;> cases hf <;> exact ⟨_, rfl, rfl⟩

theorem maskForm_completes {d : KReg} {f : Nat → Bool} (hi : Issues s id h i) (hl : h.lanes ≠ 0) (hf : maskForm i h = some (d, f)) :
    let c := begun s id h i
    let bits := (List.range (min h.vl (h.vlmax * 8))).foldl (fun m e => putBit m e (f e)) (h.getK d)
    Completes i s h { c with h := c.h.setK d bits } := by
  intro c bits
  obtain ⟨g, he, rfl⟩ := exec_maskForm hf s id
  exact he.trans (issue_ok hi (bind_ok (hasMasks_ok hl) rfl))

/-- An instruction that returns what it finds in a mask. -/
theorem maskOut_completes (hi : Issues s id h i) (hl : h.lanes ≠ 0) {f : Ctx → Ctx} (he : exec i s = maskOut i f s) :
    Completes i s h (f (begun s id h i)) := he.trans (issue_ok hi (bind_ok (hasMasks_ok hl) rfl))

theorem maskCount_completes {x : XReg} {a : KReg} {v : Word} (hi : Issues s id h i) (hl : h.lanes ≠ 0)
    (hf : maskCount i ((begun s id h i).maskHits a) = some (x, a, v)) : Completes i s h ((begun s id h i).setX x v) := by
  unfold maskCount at hf
  split at hf <;> cases hf
  · exact maskOut_completes hi hl (f := fun c => c.setX x (BitVec.ofNat 64 (c.maskHits a).length)) rfl
  · exact maskOut_completes hi hl (f := fun c => c.setX x (match (c.maskHits a).head? with
      | some e => BitVec.ofNat 64 e
      | none => -1)) rfl

/-- Some position is set where not none of them is. -/
theorem maskHits_any (c : Ctx) (a : KReg) : (!(c.maskHits a).isEmpty) = (List.range c.maskLen).any (hasBit (c.h.getK a)) := by
  rw [Bool.eq_iff_iff, Bool.not_eq_true', List.isEmpty_eq_false_iff_exists_mem, List.any_eq_true]
  exact exists_congr fun e => List.mem_filter

/-! ## Reductions (R122, R195) -/

theorem exec_reduceForm {op : RedOp} {d b : XReg} {a : VNum} {wide : Bool} (hf : reduceForm i = some (op, d, a, b, wide))
    (s : State) : exec i s = reduction i op d a b wide s := by
  unfold reduceForm at hf
  split at hf <;> cases hf <;> rfl

/-- An operation that raises no flag leaves `FPFLAGS`. -/
theorem Hart.raise_none (h : Hart) : h.raise 0 = h := by
  have hflags : h.fpflags ||| BitVec.ofNat 64 (0 % 32) = h.fpflags := BitVec.or_zero
  unfold Hart.raise
  rw [hflags]

/-- A reduction at a vector length of 0 writes its seed. -/
theorem reduction_zeroLength {op : RedOp} {d b : XReg} {a : VNum} {wide : Bool} (hi : Issues s id h i)
    (hd : (begun s id h i).declared [a] = true) (hcopy : (begun s id h i).copyOk none = true) (hv : h.vl = 0) :
    reduction i op d a b wide s = .next (retire i h ((begun s id h i).setX d (h.getX b))) :=
  issue_ok hi (bind_ok (vecLegal_ok _ _ _ hd hcopy) ((if_pos hv).trans rfl))

/-- A reduction of ready elements without poison writes its result, and raises its flags. -/
theorem reduction_completes {op : RedOp} {d b : XReg} {a : VNum} {wide : Bool} {t : RedType} (hi : Issues s id h i) :
    let c := begun s id h i
    let r := h.getV a
    let o := Operand.reg a r
    let act := c.active r.tag.width
    c.declared [a] = true → c.copyOk none = true → h.vl ≠ 0 → redType r.tag wide = some t → OperandReady c.h o act →
    (∀ e ∈ act, o.poisoned c.h e = false) →
    let v := reduced c op r a (h.getX b) t
    reduction i op d a b wide s = .next (retire i h (({ c with h := c.h.raise v.2 } : Ctx).setX d v.1)) := by
  intro c r o act hd hcopy hv ht hready hgood v
  refine issue_ok hi (bind_ok (vecLegal_ok c _ _ hd hcopy) ((if_neg hv).trans ?_))
  change (match redType r.tag wide with | none => _ | some t => _) = _
  rw [ht]
  refine bind_ok (readableOp_ok c o act hready) (bind_ok (needElems_ok c o act hready) ?_)
  change (match act.find? (o.poisoned c.h) with | some e => _ | none => _) = _
  rw [find_none act _ hgood]
  cases t with
  | int rw sg =>
    show _ = Except.ok (({ c with h := c.h.raise 0 } : Ctx).setX d _)
    rw [Hart.raise_none]
    rfl
  | float f => rfl

end

end Sys2Proof.Machine

open Sys2Proof Sys2Proof.Machine

/-- Settles O29: every elementwise instruction is `elementwise` with its row of the table. -/
theorem elementwiseCompletes : Obligations.ElementwiseCompletes := by
  unfold Obligations.ElementwiseCompletes
  exact fun s _ _ _ op part d a b hf hi hr => (exec_elementForm hf s).trans (elem_ok op part d a b hi hr)

/-- Settles O30: every comparison is `compareElems` with its row of the table. -/
theorem compareCompletes : Obligations.CompareCompletes := by
  unfold Obligations.CompareCompletes
  intro s id h i cc k a b c o t p act hf hi hv hd hcopy htag hlisted ho hp
  obtain ⟨hwrites, htraps⟩ := comp_ok cc k a b hi hv hd hcopy htag hlisted ho hp
  exact ⟨fun hgood => (exec_compareForm hf s).trans (hwrites hgood), fun e he => (exec_compareForm hf s).trans (htraps e he)⟩

/-- Settles O31, instruction by instruction. -/
theorem dataMovementCompletes : Obligations.DataMovementCompletes := by
  unfold Obligations.DataMovementCompletes
  intro s id h
  refine ⟨fun i d a b hf hi hv hd hcopy hsame hidle hopen ho hp => ?_, fun i d f hf hi hv hd hcopy hidle hopen => ?_,
    fun d x b dt hi => vins_completes hi, fun d b a ca dt hi hd hcopy => ⟨vext_active hi hd hcopy, vext_inactive hi hd hcopy⟩⟩
  · exact (exec_selectForm hf s).trans (sel_ok i d a b hi hv hd hcopy hsame hidle hopen ho hp)
  · obtain ⟨io, g, he, rfl, hint⟩ := exec_fillForm hf s id
    exact he.trans (fill_ok i d io g hi hv hd hcopy hint hidle hopen)

/-- Settles O32: the mask instructions write or return what they find below the length of the masks. -/
theorem maskCompletes : Obligations.MaskCompletes := by
  unfold Obligations.MaskCompletes
  intro s id h i hi hl c l
  refine ⟨fun d f hf => maskForm_completes hi hl hf, fun x a hits v hf hhits => ?_, fun p a hk => ?_, fun p a hk => ?_⟩
  · subst hhits
    exact maskCount_completes hi hl hf
  · subst hk
    have hany := maskOut_completes hi hl (f := fun c => c.setP p (!(c.maskHits a).isEmpty)) rfl
    rwa [maskHits_any] at hany
  · subst hk
    exact maskOut_completes hi hl (f := fun c => c.setP p ((List.range c.maskLen).all (hasBit (c.h.getK a)))) rfl

/-- Settles O33: every reduction is `reduction` with its row of the table. -/
theorem reductionCompletes : Obligations.ReductionCompletes := by
  unfold Obligations.ReductionCompletes
  intro s id h i op d b a wide c r o act hf hi hd hcopy
  exact ⟨fun hv => (exec_reduceForm hf s).trans (reduction_zeroLength hi hd hcopy hv),
    fun t hv ht ho hgood => (exec_reduceForm hf s).trans (reduction_completes hi hd hcopy hv ht ho hgood)⟩

end

section
/-! SUPPORT. Elements written into a vector register, bit by bit of its lane words (R41, R175). -/

namespace Sys2Proof.Machine

/-! ## Numbers as bit sets -/

/-- Numbers without a common bit add without a carry. -/
theorem add_eq_or_of_and_eq_zero {a b : Nat} (h : a &&& b = 0) : a + b = a ||| b := by
  have hsum : a + b < 2 ^ (a + b) := Nat.lt_two_pow_self
  have hadd := congrArg BitVec.toNat (BitVec.add_eq_or_of_and_eq_zero (BitVec.ofNat (a + b) a) (BitVec.ofNat (a + b) b)
    (by rw [← BitVec.ofNat_and, h]))
  rwa [BitVec.toNat_add, BitVec.toNat_or, BitVec.toNat_ofNat, BitVec.toNat_ofNat, Nat.mod_eq_of_lt (by omega : a < 2 ^ (a + b)),
    Nat.mod_eq_of_lt (by omega : b < 2 ^ (a + b)), Nat.mod_eq_of_lt hsum] at hadd

/-- A number without the bits of a mask. -/
theorem sub_and_eq_ldiff (a m : Nat) : a - (a &&& m) = Nat.ldiff a m := by
  have hdisjoint : (a &&& m) &&& Nat.ldiff a m = 0 := Nat.eq_of_testBit_eq fun i => by
    rw [Nat.testBit_and, Nat.testBit_and, Nat.testBit_ldiff, Nat.zero_testBit]
    cases a.testBit i <;> cases m.testBit i <;> rfl
  have hunion : (a &&& m) ||| Nat.ldiff a m = a := Nat.eq_of_testBit_eq fun i => by
    rw [Nat.testBit_or, Nat.testBit_and, Nat.testBit_ldiff]
    cases a.testBit i <;> cases m.testBit i <;> rfl
  have hsum := (add_eq_or_of_and_eq_zero hdisjoint).trans hunion
  omega

/-- Bits of b in place of those of a under a mask that holds b. -/
theorem testBit_overwrite {a m b : Nat} (hb : ∀ i, b.testBit i = true → m.testBit i = true) (i : Nat) :
    ((a - (a &&& m)) + b).testBit i = if m.testBit i then b.testBit i else a.testBit i := by
  have hdisjoint : Nat.ldiff a m &&& b = 0 := Nat.eq_of_testBit_eq fun i => by
    rw [Nat.testBit_and, Nat.testBit_ldiff, Nat.zero_testBit]
    cases hbi : b.testBit i with
    | false => exact Bool.and_false _
    | true => simp [hb i hbi]
  rw [sub_and_eq_ldiff, add_eq_or_of_and_eq_zero hdisjoint, Nat.testBit_or, Nat.testBit_ldiff]
  cases hm : m.testBit i with
  | true => simp
  | false =>
    have hbi : b.testBit i = false := Bool.eq_false_iff.2 fun h => by simp [hb i h] at hm
    simp [hbi]

theorem look_put {α : Type} (m : AMap α) (k j : Nat) (v d : α) : look (put m k v) j d = if j = k then v else look m j d := by
  unfold look
  rw [find?_put]
  split <;> rfl

/-! ## Elements and their bits -/

/-- Element x of width w lies at bit i of lane word j. -/
def covers (w j i : Nat) (x : Elem) : Bool := decide (i < 32 ∧ (32 * j + i) / w = x.e)

/-- The bits that a result of width w takes in its lane word. -/
def elemField (w : Nat) (x : Elem) : Nat := (2 ^ w - 1) * 2 ^ (x.e * w % 32)

/-- What is written into a lane word, with one result more. -/
def Written.add (w : Nat) (o : Written) (x : Elem) : Written :=
  ⟨(o.val - (o.val &&& elemField w x)) + x.bits % 2 ^ w * 2 ^ (x.e * w % 32), o.mask ||| elemField w x, o.poison || x.poison⟩

/-- One result is gathered. -/
def gatherInto (w : Nat) (m : AMap Written) (x : Elem) : AMap Written := put m (elemWord w x.e) ((look m (elemWord w x.e) {}).add w x)

theorem gather_eq (w : Nat) (es : List Elem) : gather w es = es.foldl (gatherInto w) [] := rfl

theorem testBit_elemField (w : Nat) (x : Elem) (i : Nat) :
    (elemField w x).testBit i = decide (x.e * w % 32 ≤ i ∧ i < x.e * w % 32 + w) := by
  unfold elemField
  rw [Nat.testBit_mul_two_pow, Nat.testBit_two_pow_sub_one, ← Bool.decide_and, decide_eq_decide]
  omega

/-- A result more takes its own bits and leaves the others. -/
theorem testBit_add_val (w : Nat) (o : Written) (x : Elem) (i : Nat) : (o.add w x).val.testBit i =
    if (elemField w x).testBit i then x.bits.testBit (i - x.e * w % 32) else o.val.testBit i := by
  have hin (i : Nat) : (x.bits % 2 ^ w * 2 ^ (x.e * w % 32)).testBit i =
      ((elemField w x).testBit i && x.bits.testBit (i - x.e * w % 32)) := by
    rw [testBit_elemField, Nat.testBit_mul_two_pow, Nat.testBit_mod_two_pow, ← Bool.and_assoc, ← Bool.decide_and]
    congr 1
    rw [decide_eq_decide]
    omega
  have hsub (i : Nat) (h : (x.bits % 2 ^ w * 2 ^ (x.e * w % 32)).testBit i = true) : (elemField w x).testBit i = true := by
    rw [hin, Bool.and_eq_true] at h
    exact h.1
  refine (testBit_overwrite hsub i).trans ?_
  split
  · rename_i hx
    rw [hin, hx, Bool.true_and]
  · rfl

section
variable {w : Nat} (hw : w = 4 ∨ w = 8 ∨ w = 16 ∨ w = 32)
include hw

/-- The bits of an element are its field in its lane word. -/
theorem covers_iff (j i : Nat) (x : Elem) : covers w j i x = true ↔ elemWord w x.e = j ∧ (elemField w x).testBit i = true := by
  rw [testBit_elemField, covers, elemWord, decide_eq_true_eq, decide_eq_true_eq]
  rcases hw with rfl | rfl | rfl | rfl <;> omega

/-- Its place among them. -/
theorem bit_in_elem {j i : Nat} {x : Elem} (h : covers w j i x = true) : i - x.e * w % 32 = (32 * j + i) % w := by
  rw [covers, decide_eq_true_eq] at h
  rcases hw with rfl | rfl | rfl | rfl <;> omega

/-- Bit k of element e lies in its lane word at bit k of its field. -/
theorem elem_of_bit {e k : Nat} (hk : k < w) :
    e * w % 32 + k < 32 ∧ (32 * elemWord w e + (e * w % 32 + k)) / w = e ∧ (32 * elemWord w e + (e * w % 32 + k)) % w = k := by
  unfold elemWord
  rcases hw with rfl | rfl | rfl | rfl <;> omega

/-- The elements of a lane word. -/
theorem mem_wordSpan (j e : Nat) : e ∈ span (j * (32 / w)) (32 / w) ↔ elemWord w e = j := by
  rw [mem_span, elemWord]
  rcases hw with rfl | rfl | rfl | rfl <;> omega

/-- A result for another element covers none of an element's bits. -/
theorem covers_other {e k : Nat} (hk : k < w) {x : Elem} (hx : x.e ≠ e) : covers w (elemWord w e) (e * w % 32 + k) x = false := by
  rw [covers, (elem_of_bit hw hk).2.1]
  exact decide_eq_false fun h => hx h.2.symm

theorem covers_self {k : Nat} (hk : k < w) (x : Elem) : covers w (elemWord w x.e) (x.e * w % 32 + k) x = true :=
  decide_eq_true ⟨(elem_of_bit hw hk).1, (elem_of_bit hw hk).2.1⟩

/-! ## Results gathered by lane word -/

theorem testBit_gatherInto_val (m : AMap Written) (x : Elem) (j i : Nat) : (look (gatherInto w m x) j {}).val.testBit i =
    if covers w j i x then x.bits.testBit ((32 * j + i) % w) else (look m j {}).val.testBit i := by
  unfold gatherInto
  rw [look_put]
  split
  · subst j
    rw [testBit_add_val]
    by_cases hc : covers w (elemWord w x.e) i x = true
    · rw [if_pos hc, if_pos ((covers_iff hw _ i x).1 hc).2, bit_in_elem hw hc]
    · rw [if_neg hc, if_neg fun h => hc ((covers_iff hw _ i x).2 ⟨rfl, h⟩)]
  · rw [if_neg fun hc => absurd ((covers_iff hw j i x).1 hc).1.symm ‹_›]

theorem testBit_gatherInto_mask (m : AMap Written) (x : Elem) (j i : Nat) :
    (look (gatherInto w m x) j {}).mask.testBit i = (covers w j i x || (look m j {}).mask.testBit i) := by
  unfold gatherInto
  rw [look_put]
  split
  · subst j
    have hfield : (elemField w x).testBit i = covers w (elemWord w x.e) i x := Bool.eq_iff_iff.2
      ⟨fun h => (covers_iff hw _ i x).2 ⟨rfl, h⟩, fun h => ((covers_iff hw _ i x).1 h).2⟩
    rw [Written.add, Nat.testBit_or, hfield, Bool.or_comm]
  · rw [Bool.eq_false_iff.2 fun hc => absurd ((covers_iff hw j i x).1 hc).1.symm ‹_›, Bool.false_or]

/-- A bit that no result covers stays. -/
theorem testBit_gathered_val {j i : Nat} {es : List Elem} (h : ∀ x ∈ es, covers w j i x = false) : ∀ m : AMap Written,
    (look (es.foldl (gatherInto w) m) j {}).val.testBit i = (look m j {}).val.testBit i := by
  induction es with
  | nil => exact fun _ => rfl
  | cons x es ih =>
    intro m
    rw [List.foldl_cons, ih (fun y hy => h y (List.mem_cons_of_mem _ hy)), testBit_gatherInto_val hw, h x List.mem_cons_self]
    rfl

/-- The mask of a lane word is what its results cover. -/
theorem testBit_gather_mask (j i : Nat) (es : List Elem) : (look (gather w es) j {}).mask.testBit i = es.any (covers w j i) := by
  suffices h : ∀ m : AMap Written, (look (es.foldl (gatherInto w) m) j {}).mask.testBit i =
      (es.any (covers w j i) || (look m j {}).mask.testBit i) by
    rw [gather_eq, h []]
    show (_ || Nat.testBit 0 i) = _
    rw [Nat.zero_testBit, Bool.or_false]
  induction es with
  | nil => exact fun _ => (Bool.false_or _).symm
  | cons x es ih =>
    intro m
    rw [List.foldl_cons, ih, testBit_gatherInto_mask hw, List.any_cons, ← Bool.or_assoc, Bool.or_comm (es.any _)]

/-- Of several results for one element the last stands. -/
theorem testBit_gather_last {j i : Nat} {x : Elem} (before after : List Elem) (hx : covers w j i x = true)
    (h : ∀ y ∈ after, covers w j i y = false) :
    (look (gather w (before ++ x :: after)) j {}).val.testBit i = x.bits.testBit ((32 * j + i) % w) := by
  rw [gather_eq, List.foldl_append, List.foldl_cons, testBit_gathered_val hw h, testBit_gatherInto_val hw, if_pos hx]

/-- What is written lies under its mask. -/
theorem gather_val_masked (es : List Elem) (j i : Nat) (h : (look (gather w es) j {}).val.testBit i = true) :
    (look (gather w es) j {}).mask.testBit i = true := by
  rw [testBit_gather_mask hw]
  by_contra hnone
  rw [Bool.not_eq_true, List.any_eq_false] at hnone
  rw [gather_eq, testBit_gathered_val hw (fun x hx => Bool.eq_false_iff.2 (hnone x hx))] at h
  exact absurd h (by show ¬Nat.testBit 0 i = true; rw [Nat.zero_testBit]; exact Bool.false_ne_true)

end

theorem gather_poison (w j : Nat) (es : List Elem) :
    (look (gather w es) j {}).poison = es.any (fun x => elemWord w x.e == j && x.poison) := by
  suffices h : ∀ m : AMap Written, (look (es.foldl (gatherInto w) m) j {}).poison =
      (es.any (fun x => elemWord w x.e == j && x.poison) || (look m j {}).poison) by
    rw [gather_eq, h []]
    exact Bool.or_false _
  induction es with
  | nil => exact fun _ => (Bool.false_or _).symm
  | cons x es ih =>
    intro m
    have hstep : (look (gatherInto w m x) j {}).poison = ((elemWord w x.e == j && x.poison) || (look m j {}).poison) := by
      unfold gatherInto
      rw [look_put]
      split
      · subst j
        rw [beq_self_eq_true, Bool.true_and, Bool.or_comm]
        rfl
      · rw [beq_eq_false_iff_ne.2 (Ne.symm ‹_›), Bool.false_and, Bool.false_or]
    rw [List.foldl_cons, ih, hstep, List.any_cons, ← Bool.or_assoc, Bool.or_comm (es.any _)]

/-- A lane word is gathered where a result lies in it. -/
theorem gather_isSome (w j : Nat) (es : List Elem) : (find? (gather w es) j).isSome = es.any (fun x => elemWord w x.e == j) := by
  suffices h : ∀ m : AMap Written, (find? (es.foldl (gatherInto w) m) j).isSome =
      (es.any (fun x => elemWord w x.e == j) || (find? m j).isSome) by
    rw [gather_eq, h []]
    exact Bool.or_false _
  induction es with
  | nil => exact fun _ => (Bool.false_or _).symm
  | cons x es ih =>
    intro m
    have hstep : (find? (gatherInto w m x) j).isSome = ((elemWord w x.e == j) || (find? m j).isSome) := by
      unfold gatherInto
      rw [find?_put]
      split
      · subst j
        rw [beq_self_eq_true, Bool.true_or]
        rfl
      · rw [beq_eq_false_iff_ne.2 (Ne.symm ‹_›), Bool.false_or]
    rw [List.foldl_cons, ih, hstep, List.any_cons, ← Bool.or_assoc, Bool.or_comm (es.any _)]

theorem gather_rising (w : Nat) (es : List Elem) : rising (gather w es) = true := by
  suffices h : ∀ m : AMap Written, rising m = true → rising (es.foldl (gatherInto w) m) = true from h [] rfl
  induction es with
  | nil => exact fun _ h => h
  | cons x es ih => exact fun m h => ih _ (rising_put _ _ _ h)

/-! ## Lane words of a register written -/

/-- Each gathered lane word is written once. -/
theorem look_writes {g : AMap Written} (hg : rising g = true) (j : Nat) : ∀ ws : AMap LaneWord,
    look (g.foldl (fun m x => put m x.1 ((look m x.1 {}).write x.2)) ws) j {} =
      ((find? g j).map (look ws j {}).write).getD (look ws j {}) := by
  induction g with
  | nil => exact fun _ => rfl
  | cons x g ih =>
    intro ws
    obtain ⟨a, v⟩ := x
    obtain ⟨hbelow, hrest⟩ := (rising_cons a v g).1 hg
    rw [List.foldl_cons, ih hrest, look_put]
    by_cases hj : j = a
    · subst hj
      rw [find?_below g j hbelow, if_pos rfl]
      simp [find?]
    · rw [if_neg hj]
      by_cases hlt : j < a
      · rw [find?_below g j fun e he => hlt.trans (hbelow e he)]
        simp [find?, Ne.symm hj, hlt]
      · simp [find?, Ne.symm hj, hlt]

/-- A result of which a register keeps the low n bits: of an fp6 value 6. -/
def Elem.kept (n : Nat) (x : Elem) : Elem := { x with bits := x.bits % 2 ^ n }

/-- A lane word in which a result lies is written, and any other stays. -/
theorem word_writeElems (r : VReg) (w : Nat) (es : List Elem) (j : Nat) : (r.writeElems w es).word j =
    if es.any (fun x => elemWord w x.e == j) then
      (r.word j).write (look (gather w (es.map (Elem.kept (min w r.tag.used)))) j {})
    else r.word j := by
  let g := gather w (es.map (Elem.kept (min w r.tag.used)))
  have hsome : (find? g j).isSome = es.any (fun x => elemWord w x.e == j) := (gather_isSome w j _).trans List.any_map
  have hword : (r.writeElems w es).word j = ((find? g j).map (r.word j).write).getD (r.word j) := look_writes (gather_rising w _) j r.words
  rw [hword, ← hsome]
  show _ = if (find? g j).isSome then (r.word j).write ((find? g j).getD {}) else r.word j
  cases find? g j <;> rfl

section
variable {w : Nat} (hw : w = 4 ∨ w = 8 ∨ w = 16 ∨ w = 32)
include hw

/-- A bit of a lane word after a write. -/
theorem testBit_write (o : LaneWord) (es : List Elem) (j : Nat) {i : Nat} (hi : i < 32) :
    (o.write (look (gather w es) j {})).val.toNat.testBit i =
      if es.any (covers w j i) then (look (gather w es) j {}).val.testBit i else o.val.toNat.testBit i := by
  rw [← testBit_gather_mask hw]
  show (BitVec.ofNat 32 _).toNat.testBit i = _
  rw [BitVec.toNat_ofNat, Nat.testBit_mod_two_pow, decide_eq_true hi, Bool.true_and]
  exact testBit_overwrite (gather_val_masked hw es j) i

/-- An element that no result is for keeps its bits. -/
theorem bits_writeElems_other (r : VReg) {es : List Elem} {e : Nat} (he : ∀ x ∈ es, x.e ≠ e) :
    (r.writeElems w es).bits w e = r.bits w e := by
  refine Nat.eq_of_testBit_eq fun k => ?_
  unfold VReg.bits
  rw [Nat.testBit_mod_two_pow, Nat.testBit_mod_two_pow, Nat.testBit_div_two_pow, Nat.testBit_div_two_pow]
  by_cases hk : k < min w r.tag.used
  · rw [word_writeElems]
    split
    · have hkw : k < w := by omega
      have hnone : (es.map (Elem.kept (min w r.tag.used))).any (covers w (elemWord w e) (e * w % 32 + k)) = false := by
        rw [List.any_eq_false]
        intro y hy
        obtain ⟨x, hx, rfl⟩ := List.mem_map.1 hy
        exact Bool.eq_false_iff.1 (covers_other hw hkw (he x hx))
      rw [Nat.add_comm k, testBit_write hw _ _ _ (elem_of_bit hw hkw).1, hnone]
      rfl
    · rfl
  · rw [show (r.writeElems w es).tag = r.tag from rfl, decide_eq_false hk, Bool.false_and, Bool.false_and]

/-- An element holds the bits of the last result for it. -/
theorem bits_writeElems_last (r : VReg) (before : List Elem) {after : List Elem} {x : Elem} (h : ∀ y ∈ after, y.e ≠ x.e) :
    (r.writeElems w (before ++ x :: after)).bits w x.e = x.bits % 2 ^ min w r.tag.used := by
  refine Nat.eq_of_testBit_eq fun k => ?_
  have hword : (before ++ x :: after).any (fun y => elemWord w y.e == elemWord w x.e) = true :=
    List.any_eq_true.2 ⟨x, by simp, beq_self_eq_true _⟩
  unfold VReg.bits
  rw [Nat.testBit_mod_two_pow, Nat.testBit_mod_two_pow, Nat.testBit_div_two_pow, word_writeElems, if_pos hword]
  by_cases hk : k < min w r.tag.used
  · have hkw : k < w := by omega
    have hx : covers w (elemWord w x.e) (x.e * w % 32 + k) (x.kept (min w r.tag.used)) = true := covers_self hw hkw x
    have hafter : ∀ y ∈ after.map (Elem.kept (min w r.tag.used)), covers w (elemWord w x.e) (x.e * w % 32 + k) y = false := by
      intro y hy
      obtain ⟨z, hz, rfl⟩ := List.mem_map.1 hy
      exact covers_other hw hkw (h z hz)
    rw [Nat.add_comm k, testBit_write hw _ _ _ (elem_of_bit hw hkw).1, List.map_append, List.map_cons,
      if_pos (List.any_eq_true.2 ⟨_, by simp, hx⟩), testBit_gather_last hw _ _ hx hafter, (elem_of_bit hw hkw).2.2]
    show (decide (k < min w r.tag.used) && (x.bits % 2 ^ min w r.tag.used).testBit k) = _
    rw [Nat.testBit_mod_two_pow, ← Bool.and_assoc, Bool.and_self]
  · rw [show (r.writeElems w (before ++ x :: after)).tag = r.tag from rfl, decide_eq_false hk, Bool.false_and, Bool.false_and]

/-- A gathered mask leaves some bit of its lane word where some element of it has no result. -/
theorem mask_partial (es : List Elem) (j : Nat) : ((look (gather w es) j {}).mask != 2 ^ 32 - 1) =
    (span (j * (32 / w)) (32 / w)).any (fun e => es.all (fun x => x.e != e)) := by
  rw [Bool.eq_iff_iff, bne_iff_ne, List.any_eq_true]
  constructor
  · intro hne
    by_contra hall
    refine hne (Nat.eq_of_testBit_eq fun i => ?_)
    rw [testBit_gather_mask hw, Nat.testBit_two_pow_sub_one]
    by_cases hi : i < 32
    · have he : (32 * j + i) / w ∈ span (j * (32 / w)) (32 / w) := by
        rw [mem_wordSpan hw, elemWord]
        rcases hw with rfl | rfl | rfl | rfl <;> omega
      have hsome : ¬es.all (fun x => x.e != (32 * j + i) / w) = true := fun h => hall ⟨_, he, h⟩
      rw [List.all_eq_true] at hsome
      push Not at hsome
      obtain ⟨x, hx, heq⟩ := hsome
      have heq : x.e = (32 * j + i) / w := by simpa using heq
      rw [decide_eq_true hi]
      exact List.any_eq_true.2 ⟨x, hx, decide_eq_true ⟨hi, heq.symm⟩⟩
    · rw [decide_eq_false hi, List.any_eq_false]
      exact fun x _ hc => hi (of_decide_eq_true hc).1
  · rintro ⟨e, he, hnone⟩ hfull
    rw [mem_wordSpan hw] at he
    subst he
    have hpos : 0 < w := by omega
    obtain ⟨hlt, -, -⟩ := elem_of_bit hw (e := e) hpos
    have hbit := testBit_gather_mask hw (elemWord w e) (e * w % 32 + 0) es
    rw [hfull, Nat.testBit_two_pow_sub_one, decide_eq_true hlt] at hbit
    obtain ⟨x, hx, hc⟩ := List.any_eq_true.1 hbit.symm
    rw [covers_other hw hpos (bne_iff_ne.1 (List.all_eq_true.1 hnone x hx))] at hc
    exact Bool.false_ne_true hc

/-- A written lane word is poisoned by a result in it, or stays so where some element of it has none. -/
theorem poison_writeElems (r : VReg) {es : List Elem} {j : Nat} (hj : ∃ x ∈ es, elemWord w x.e = j) :
    ((r.writeElems w es).word j).poison = (es.any (fun x => elemWord w x.e == j && x.poison) ||
      ((r.word j).poison && (span (j * (32 / w)) (32 / w)).any (fun e => es.all (fun x => x.e != e)))) := by
  have hword : es.any (fun x => elemWord w x.e == j) = true := by simpa using hj
  rw [word_writeElems, if_pos hword]
  let g := gather w (es.map (Elem.kept (min w r.tag.used)))
  show ((look g j {}).poison || ((r.word j).poison && ((look g j {}).mask != 2 ^ 32 - 1))) = _
  rw [gather_poison, mask_partial hw, List.any_map]
  simp only [List.all_map]
  rfl

end

/-- A lane word in which no result lies stays. -/
theorem word_writeElems_other (r : VReg) (w : Nat) {es : List Elem} {j : Nat} (hj : ∀ x ∈ es, elemWord w x.e ≠ j) :
    (r.writeElems w es).word j = r.word j := by
  rw [word_writeElems, if_neg]
  rw [Bool.not_eq_true, List.any_eq_false]
  exact fun x hx h => hj x hx (beq_iff_eq.1 h)

end Sys2Proof.Machine

open Sys2Proof Sys2Proof.Machine

/-- Settles O37, by the bits and the poison of the lane words that a write of elements leaves. -/
theorem elementWriteFrame : Obligations.ElementWriteFrame := by
  unfold Obligations.ElementWriteFrame
  intro r w es hw
  refine ⟨fun e he => bits_writeElems_other hw r he, fun before after x hes h => ?_, fun j hj => word_writeElems_other r w hj,
    fun j hj => poison_writeElems hw r hj, rfl⟩
  subst hes
  exact bits_writeElems_last hw r before h

end

section
/-! SUPPORT. The row instructions where their conditions hold: opening, writing back, closing and refreshing rows (R179 to R187, R220,
R364). -/

namespace Sys2Proof.Machine

/-! ## What the checks of a hart without debug answer -/

section
variable {c : Ctx}

theorem late_undebugged (hd : c.h.dbg = none) : c.late = c.h.late := by simp [Ctx.late, Hart.stepping, hd]

theorem films_undebugged (hd : c.h.dbg = none) (recorded : Bool) : c.films recorded = false := by simp [Ctx.films, hd]

theorem needRoom_ok (hq : c.h.queued < 16) : needRoom c = .ok () := if_pos hq

/-- Where nothing waits in the vector queue, no earlier access is stuck behind it. -/
theorem inTurn_ok (hw : c.h.waiting = []) (pas : List Nat) : inTurn c pas = .ok () := by
  have hnone : ¬c.h.elems.any (fun e => (neededSeqs (fun e => pas.any e.touches) c.h.elems).contains e.seq && c.h.stuck e) = true := by
    simp [Hart.stuck, hw]
  exact if_neg hnone

/-- Performing earlier accesses leaves the place of each lane word, and the film's mode. -/
theorem drainMeeting_wordOffset (c : Ctx) (pas : List Nat) : (c.drainMeeting pas).h.wordOffset = c.h.wordOffset := by
  obtain ⟨hkept, -⟩ := drainMeeting_near c pas
  have hoffset := congrArg Hart.wordOffset hkept
  exact hoffset

theorem drainMeeting_filmMode (c : Ctx) (pas : List Nat) : (c.drainMeeting pas).h.filmMode = c.h.filmMode := by
  obtain ⟨hkept, -⟩ := drainMeeting_near c pas
  have hmode := congrArg Hart.filmMode hkept
  exact hmode

end

/-! ## ACT and ACTS (R182, R183) -/

/-- The closes and the activations that opening some ways of a register asks for. -/
def openAsked (c : Ctx) (v : VNum) (pa ways : Nat) : Ctx :=
  { c with s := activateWays (closeWays c.s c.id c.h v) c.id c.h v.toNat (rowOf pa) ways }

/-- The register with its ways open on the image at pa. -/
def rowOpened (c : Ctx) (v : VNum) (pa ways : Nat) (js : List Nat) (ws : AMap LaneWord) (invalid : Nat) : Ctx :=
  ({ c with h := c.h.setV v { c.h.getV v with openWays := 2 ^ ways - 1, image := pa, words := ws, invalid := invalid } } : Ctx).later
    (rowSample c.h pa js (ways * c.h.cols))

section
variable {s : State} {id : Nat} {h : Hart} {i : Instr} {sure : Bool} {v : VNum} {a : XReg} {n : BitVec 3} {pa leaf : Nat}

/-- The register is declared, and has the ways that are asked for. -/
theorem openLegal_ok {c : Ctx} (hd : c.declared [v] = true) (hn : n.toNat < c.h.wayCount ∨ n = 0) :
    legal (c.declared [v] && decide (n.toNat < c.h.wayCount ∨ n = 0)) c = .ok () :=
  legal_true ((Bool.and_eq_true _ _).mpr ⟨hd, decide_eq_true hn⟩) c

/-- An `ACT` that its hart goes past sends the accesses that bring the lane words. -/
theorem openRow_late (hi : Issues s id h i) :
    let c := begun s id h i
    let ways := if n = 0 then h.wayCount else n.toNat
    let js := c.h.wordsIn (2 ^ ways - 1)
    let c₁ := openAsked c v pa ways
    c.declared [v] = true → (n.toNat < h.wayCount ∨ n = 0) → Changeable c.h v →
    translateRow c (h.getX a) (some v) true false = .ok (pa, leaf) → h.late = true → sure = false → h.queued < 16 →
    openRow i sure v a n s = .next (retire i h
      ((rowOpened c₁ v pa ways js (h.leftWords v) 0).sendElems (openAccesses c₁ v (h.getX a) pa js))) := by
  intro c ways js c₁ hd hn hchange ht hlate hsure hq
  have hpast : (c.late && !sure && !c.films (leafRec leaf)) = true := by
    rw [late_undebugged hi.noDebug, films_undebugged hi.noDebug, hsure, show c.h.late = true from hlate]
    rfl
  exact issue_ok hi (bind_ok (openLegal_ok hd hn) (bind_ok (changeable_ok c v hchange) (bind_ok ht
    (bind_ok (dataWaypoints_none c _ _ hi.noDebug) ((if_pos hpast).trans (bind_ok (needRoom_ok hq) rfl))))))

/-- Otherwise the lane words come at once, after the earlier accesses with a byte in common; for `ACTS` every piece is good. -/
theorem openRow_now (hi : Issues s id h i) :
    let c := begun s id h i
    let ways := if n = 0 then h.wayCount else n.toNat
    let js := c.h.wordsIn (2 ^ ways - 1)
    let c₁ := openAsked (c.drainMeeting (js.map (fun j => pa + c.h.wordOffset j))) v pa ways
    let s₂ := recordPieces c₁.s 0 (js.map (fun j => pieceOf (pa + c₁.h.wordOffset j)))
    c.declared [v] = true → (n.toNat < h.wayCount ∨ n = 0) → Changeable c.h v →
    translateRow c (h.getX a) (some v) true false = .ok (pa, leaf) → (h.late = false ∨ sure = true) → h.engages v = false →
    (leafRec leaf = false ∨ h.filmMode = 0) → (sure = true → ∀ j ∈ js, badByte s₂ (pa + c₁.h.wordOffset j) = false) →
    openRow i sure v a n s = .next (retire i h (rowOpened { c₁ with s := s₂ } v pa ways js
      (js.map (fun j => (j, readLaneWord s₂ (pa + c₁.h.wordOffset j)))) (pendingGroups c₁.h js))) := by
  intro c ways js c₁ s₂ hd hn hchange ht hnow hfree hfilm hgood
  have hpast : ¬(c.late && !sure && !c.films (leafRec leaf)) = true := by
    rw [late_undebugged hi.noDebug]
    rcases hnow with hl | hs
    · simp [show c.h.late = false from hl]
    · simp [hs]
  have hfilm₁ : leafRec leaf = false ∨ c₁.h.filmMode = 0 := hfilm.imp_right (drainMeeting_filmMode c _).trans
  have hfound : (if sure = true then js.find? (fun j => badByte s₂ (pa + c₁.h.wordOffset j)) else none) = none := by
    split
    · exact find_none js _ (hgood ‹_›)
    · rfl
  refine issue_ok hi (bind_ok (openLegal_ok hd hn) (bind_ok (changeable_ok c v hchange) (bind_ok ht
    (bind_ok (dataWaypoints_none c _ _ hi.noDebug) ((if_neg hpast).trans (bind_ok (settled_ok c v ⟨hfree, hchange.1⟩)
      (bind_ok (inTurn_ok hi.noWaiting _) (bind_ok (digestGate_off 12 _ c hfilm) ?_))))))))
  change (match (if sure = true then js.find? (fun j => badByte s₂ (pa + c₁.h.wordOffset j)) else none) with
    | some j => _
    | none => _) = _
  rw [hfound]
  exact bind_ok (filmedDigest_off 12 _ { c₁ with s := s₂ } _ hfilm₁) rfl

end

/-! ## WB and WBK (R184, R364) -/

/-- The write asked of the open ways of a register. -/
def writeAsked (c : Ctx) (v : VNum) (pa : Nat) (js : List Nat) : Ctx :=
  ({ c with s := askWays c.s c.id c.h (c.h.openWays v) .write } : Ctx).later (rowSample c.h pa js 0)

section
variable {s : State} {id : Nat} {h : Hart} {i : Instr} {v : VNum} {a : XReg} {js : List Nat} {pa leaf : Nat}
  {choose : Ctx → Except Stop (List Nat)}

/-- A write-back that its hart goes past sends the accesses that write the lane words, or that take them once they are there. -/
theorem writeBack_late (hi : Issues s id h i) :
    let c := begun s id h i
    choose c = .ok js → c.declared [v] = true → Brought c.h v (wordElems (h.getV v).tag.width js) →
    translateRow c (h.getX a) (some v) false true = .ok (pa, leaf) → (h.getV v).openWays ≠ 0 → h.late = true → h.queued < 16 →
    writeBack i v a choose s = .next (retire i h ((writeAsked c v pa js).sendElems
      (if h.awaits v then backLater c v (h.getX a) pa js else backAccesses c v (h.getX a) pa js))) := by
  intro c hchoose hd hbrought ht hopen hlate hq
  have hpast : c.late = true := (late_undebugged hi.noDebug).trans hlate
  exact issue_ok hi (bind_ok (legal_true hd c) (bind_ok ht (bind_ok (need_true (bne_iff_ne.2 hopen) ..) (bind_ok hchoose
    ((if_pos hpast).trans (bind_ok (arrived_ok c v _ hbrought) (bind_ok (dataWaypoints_none c _ _ hi.noDebug)
      ((if_pos hpast).trans (bind_ok (needRoom_ok hq) rfl)))))))))

/-- Otherwise the lane words are written at once, piece by piece, after the earlier accesses with a byte in common. -/
theorem writeBack_now (hi : Issues s id h i) :
    let c := begun s id h i
    let pas := js.map (fun j => pa + h.wordOffset j)
    let c₁ := c.drainMeeting pas
    let ws := js.map (fun j => (pa + h.wordOffset j, (h.getV v).word j))
    choose c = .ok js → c.declared [v] = true → Brought c.h v (wordElems (h.getV v).tag.width js) →
    translateRow c (h.getX a) (some v) false true = .ok (pa, leaf) → (h.getV v).openWays ≠ 0 → h.late = false → Filled h v →
    writeBack i v a choose s = .next (retire i h
      (writeAsked { c₁ with s := dropLines (writeWords (recordPieces c₁.s 0 (partWords ws)) ws) pas } v pa js)) := by
  intro c pas c₁ ws hchoose hd hbrought ht hopen hlate hfilled
  have hpast : ¬c.late = true := by
    rw [late_undebugged hi.noDebug]
    exact ne_true_of_eq_false hlate
  have hws : ws = js.map (fun j => (pa + c₁.h.wordOffset j, (h.getV v).word j)) := by
    rw [drainMeeting_wordOffset]
    rfl
  rw [hws]
  exact issue_ok hi (bind_ok (legal_true hd c) (bind_ok ht (bind_ok (need_true (bne_iff_ne.2 hopen) ..) (bind_ok hchoose
    ((if_neg hpast).trans (bind_ok (readable_ok c v _ ⟨hfilled, hbrought⟩) (bind_ok (dataWaypoints_none c _ _ hi.noDebug)
      ((if_neg hpast).trans (bind_ok (inTurn_ok hi.noWaiting pas) rfl)))))))))

/-- `WB` and `WBK` are `writeBack` with their choice of lane words. -/
theorem exec_backForm (hf : i = .wb v a ∧ js = (begun s id h i).h.wordsIn (h.getV v).openWays ∨
      ∃ k, i = .wbk v a k ∧ js = distinct ((((begun s id h i).positions (h.getV v).tag.width).filter (hasBit (h.getK k))).map
        (elemWord (h.getV v).tag.width)) ∧ Opened (begun s id h i).h v js) :
    ∃ choose, exec i s = writeBack i v a choose s ∧ choose (begun s id h i) = .ok js := by
  rcases hf with ⟨rfl, rfl⟩ | ⟨k, rfl, rfl, hopen⟩
  · exact ⟨_, rfl, rfl⟩
  · exact ⟨_, rfl, bind_ok (needOpen_ok _ _ _ hopen) rfl⟩

end

/-! ## Retirement of an instruction of which nothing else is seen -/

/-- Without debug, an instruction whose result is not held apart, and that neither transfers nor traps, completes in a next state with what it
left of the module and, whether its hart goes past it or not, of the scalar and the vector registers. -/
theorem completes_next {i : Instr} {s : State} {h : Hart} {c : Ctx} (he : Completes i s h c) (hctl : c.h.ctl = 0)
    (ht : swTrapOf c.todo = none) (hk : c.taken = false) (ha : retiresApart i = none) :
    ∃ g, exec i s = .next ({ c.s with cur := none }.setHart c.id g) ∧ g.x = c.h.x ∧ g.v = c.h.v := by
  by_cases ho : outruns i h c = true
  · obtain ⟨todo, hretire⟩ := retire_outrun ho
    exact ⟨_, Eq.trans he (congrArg Host.Outcome.next hretire), rfl, rfl⟩
  · exact ⟨_, completes_quiet he hctl ht hk ha (Bool.eq_false_iff.2 ho), rfl, rfl⟩

theorem Hart.getV_of_v {g h : Hart} (e : g.v = h.v) (u : VNum) : g.getV u = h.getV u := by
  unfold Hart.getV
  rw [e]

/-! ## PRE and PREALL (R185) -/

theorem Hart.getV_setV_same (h : Hart) (v : VNum) (r : VReg) : (h.setV v r).getV v = r := by
  unfold Hart.getV Hart.setV look
  rw [find?_put_same]
  rfl

theorem Hart.getV_setV_other (h : Hart) {u v : VNum} (r : VReg) (hu : u ≠ v) : (h.setV v r).getV u = h.getV u := by
  unfold Hart.getV Hart.setV look
  rw [find?_put_other _ _ _ _ fun e => hu (BitVec.eq_of_toNat_eq e)]

section
variable (h : Hart) (v : VNum)

/-- A register that closes keeps its tag and, while an access is still to take them, its lane words. -/
theorem closeReg_open (ho : (h.getV v).openWays ≠ 0) :
    (closeReg h v).getV v = { h.getV v with openWays := 0, words := h.leftWords v, invalid := 0 } := by
  unfold closeReg
  rw [if_neg ho]
  exact h.getV_setV_same v _

theorem closeReg_closed (ho : (h.getV v).openWays = 0) : closeReg h v = h := if_pos ho

theorem closeReg_other {u : VNum} (hu : u ≠ v) : (closeReg h v).getV u = h.getV u := by
  unfold closeReg
  dsimp only
  split
  · rfl
  · exact h.getV_setV_other _ hu

@[simp] theorem closeReg_openWays : ((closeReg h v).getV v).openWays = 0 := by
  by_cases ho : (h.getV v).openWays = 0
  · rw [closeReg_closed h v ho]
    exact ho
  · rw [closeReg_open h v ho]

@[simp] theorem closeReg_tag (u : VNum) : ((closeReg h v).getV u).tag = (h.getV u).tag := by
  by_cases hu : u = v
  · subst hu
    by_cases ho : (h.getV u).openWays = 0
    · rw [closeReg_closed h u ho]
    · rw [closeReg_open h u ho]
  · rw [closeReg_other h v hu]

/-- Closing a register changes nothing else of its hart. -/
theorem closeReg_frame : { closeReg h v with v := h.v } = h := by
  unfold closeReg
  dsimp only
  split <;> rfl

end

/-- Registers that close, one after another, are closed, keep their tags and leave everything else of their hart. -/
theorem closeRegs_closed (vs : List VNum) : ∀ h : Hart, { vs.foldl closeReg h with v := h.v } = h ∧
    (∀ u, ((vs.foldl closeReg h).getV u).tag = (h.getV u).tag) ∧
    ∀ u, u ∈ vs ∨ (h.getV u).openWays = 0 → ((vs.foldl closeReg h).getV u).openWays = 0 := by
  induction vs with
  | nil => exact fun h => ⟨rfl, fun _ => rfl, fun u hu => hu.resolve_left List.not_mem_nil⟩
  | cons v vs ih =>
    intro h
    obtain ⟨hframe, htag, hclosed⟩ := ih (closeReg h v)
    refine ⟨?_, fun u => (htag u).trans (closeReg_tag h v u), fun u hu => hclosed u ?_⟩
    · have hv := congrArg (fun g : Hart => { g with v := h.v }) hframe
      exact hv.trans (closeReg_frame h v)
    · by_cases huv : u = v
      · subst huv
        exact .inr (closeReg_openWays h u)
      · rw [closeReg_other h v huv]
        exact hu.imp_left fun hm => (List.mem_cons.1 hm).resolve_left huv

/-! ## Requests of the columns of a partition (R186, R187) -/

/-- Each column of a partition is asked once for what its own state makes of a request, and no other column is changed. -/
theorem col_askEach (r : Column → WayRequest) (h : Hart) (s : State) (k : Nat) :
    (h.columns.foldl (fun s n => ask s n [r (s.col n)]) s).col k =
      if k ∈ h.columns then { s.col k with requests := (s.col k).requests ++ [r (s.col k)] } else s.col k :=
  col_foldl_modCol (fun k => { k with requests := k.requests ++ [r k] }) k h.columns_nodup s

theorem askEach_mem (r : Column → WayRequest) (h : Hart) (s : State) :
    (h.columns.foldl (fun s n => ask s n [r (s.col n)]) s).mem = s.mem := foldl_mem _ _ _ fun _ _ => rfl

section
variable {s : State} {id : Nat} {h : Hart}

theorem pre_completes {v : VNum} (hi : Issues s id h (.pre v)) (hd : (begun s id h (.pre v)).declared [v] = true)
    (hc : Changeable (begun s id h (.pre v)).h v) :
    let c := begun s id h (.pre v)
    Completes (.pre v) s h (({ c with s := closeWays s id c.h v, h := closeReg c.h v } : Ctx).later (.sample 7 0 0 0 0)) :=
  issue_ok hi (bind_ok (legal_true hd _) (bind_ok (changeable_ok _ v hc) rfl))

theorem preall_completes (hi : Issues s id h .preall)
    (hc : ∀ v ∈ (begun s id h .preall).registers, Changeable (begun s id h .preall).h v) :
    let c := begun s id h .preall
    Completes .preall s h (({ c with
      s := closeAll s id c.h c.registers, h := c.registers.foldl closeReg c.h } : Ctx).later (.sample 7 0 0 0 0)) :=
  issue_ok hi (bind_ok (forM_ok _ _ fun v hv => changeable_ok _ v (hc v hv)) rfl)

/-- The context of a `REF` that has asked for one more row-set in each column. -/
def rowSetAsked (c : Ctx) (more : Bool) : Ctx :=
  { c with s := c.h.columns.foldl (fun s col => ask s col [rowSetOf (some c.id) more (s.col col).cycles]) c.s }

/-- A `REF` that asks for its last row-set completes. -/
theorem ref_completes {n : BitVec 8} (hi : Issues s id h (.ref n)) (hn : h.refDone + 1 = n.toNat) :
    Completes (.ref n) s h ((rowSetAsked (begun s id h (.ref n)) (decide (h.refDone + 1 < n.toNat))).later (.sample 7 0 0 0 0)) := by
  have hk : h.refDone < n.toNat := by omega
  have hmore : ¬decide (h.refDone + 1 < n.toNat) = true := by
    rw [decide_eq_true_eq]
    omega
  refine issue_ok hi ((if_neg hmore).trans ?_)
  exact congrArg (fun c : Ctx => Except.ok (c.later (.sample 7 0 0 0 0))) (if_pos hk)

/-- A `REF` that has more to ask for waits until its row-set has started. -/
theorem ref_waits {n : BitVec 8} (hi : Issues s id h (.ref n)) (hn : h.refDone + 1 < n.toNat) :
    let c := rowSetAsked (begun s id h (.ref n)) (decide (h.refDone + 1 < n.toNat))
    exec (.ref n) s = .next { c.s.setHart id { c.h with refDone := h.refDone + 1, pfx := h.pfx, wait := .refresh } with cur := none } := by
  intro c
  have hk : h.refDone < n.toNat := by omega
  refine issue_wait hi (w := .refresh) (c := { c with h := { c.h with refDone := h.refDone + 1 } })
    ((if_pos (decide_eq_true hn)).trans ?_) (by simp)
  exact congrArg (fun d : Ctx => Except.error (Stop.wait .refresh { d with h := { d.h with refDone := h.refDone + 1 } })) (if_pos hk)

theorem refn_completes {a : XReg} {pa leaf : Nat} (hi : Issues s id h (.refn a))
    (ht : translateRow (begun s id h (.refn a)) (h.getX a) none true false = .ok (pa, leaf)) :
    let c := begun s id h (.refn a)
    let way := layerOf pa * 8 + wayOf pa
    Completes (.refn a) s h (({ c with s := h.columns.foldl (fun s col =>
      ask s col [actionOf id .refn way ((s.col col).physicalRow way (rowOf pa)) (s.col col).cycles]) s } : Ctx).later
        (.sample 7 0 0 0 (2 * h.cols))) :=
  issue_ok hi (bind_ok ht rfl)

/-- The next state of a row instruction that changes no scalar register and leaves a sample for its retirement. -/
theorem rowControl_next {i : Instr} {c : Ctx} {e : AtRetire} (hu : Undebugged h) (he : Completes i s h (c.later e))
    (hf : { c.h with v := h.v } = { (begun s id h i).h with v := h.v }) (hid : c.id = id) (htodo : swTrapOf (c.todo ++ [e]) = none)
    (hk : c.taken = false) (hm : c.s.mem = s.mem) (ha : retiresApart i = none) :
    ∃ t g, exec i s = .next t ∧ (t.hart? id = some g ∧ t.mem = s.mem ∧ ∀ q, g.getX q = h.getX q) ∧
      (∀ u, g.getV u = c.h.getV u) ∧ t.columns = c.s.columns := by
  have hctl := congrArg Hart.ctl hf
  have hx := congrArg Hart.x hf
  replace hctl : c.h.ctl = 0 := hctl.trans hu.2
  obtain ⟨g, hnext, hgx, hgv⟩ := completes_next he hctl htodo hk ha
  rw [Ctx.later_id, hid] at hnext
  exact ⟨_, g, hnext, ⟨find?_put_same .., hm, fun q => Hart.getX_of_x (hgx.trans hx) q⟩, Hart.getV_of_v hgv, rfl⟩

end

end Sys2Proof.Machine

open Sys2Proof Sys2Proof.Machine

/-- Settles O25: `ACT` and `ACTS` are `openRow`, with the lane words on their way or at once. -/
theorem rowOpenCompletes : Obligations.RowOpenCompletes := by
  unfold Obligations.RowOpenCompletes
  intro s id h sure v a n pa leaf i c ways js start opened hi hd hn hchange ht
  have he : exec i s = openRow i sure v a n s := by cases sure <;> rfl
  exact ⟨fun hlate hsure hq => he.trans (openRow_late hi hd hn hchange ht hlate hsure hq),
    fun hnow hfree hfilm hgood => he.trans (openRow_now hi hd hn hchange ht hnow hfree hfilm hgood)⟩

/-- Settles O26: `WB` and `WBK` are `writeBack`, with the lane words taken later or at once. -/
theorem writeBackCompletes : Obligations.WriteBackCompletes := by
  unfold Obligations.WriteBackCompletes
  intro s id h i v a js pa leaf c r w hf hi hd hbrought ht hopen busy
  obtain ⟨choose, he, hchoose⟩ := exec_backForm hf
  exact ⟨fun hlate hq => he.trans (writeBack_late hi hchoose hd hbrought ht hopen hlate hq),
    fun hlate hfilled => he.trans (writeBack_now hi hchoose hd hbrought ht hopen hlate hfilled)⟩

/-- Settles O27, instruction by instruction: each completes, or waits, by its own lemma, and its next state holds what it asked and closed. -/
theorem rowControlCompletes : Obligations.RowControlCompletes := by
  unfold Obligations.RowControlCompletes
  intro s id h kept asked
  have hasked (r : Column → WayRequest) {t : State} (ht : t.columns = (h.columns.foldl (fun s n => ask s n [r (s.col n)]) s).columns) :
      asked t r := by
    have hcol (k : Nat) : t.col k = _ := Eq.trans (congrArg (fun m => look m k ({} : Column)) ht) (col_askEach r h s k)
    exact ⟨fun k hk => (hcol k).trans (if_pos hk), fun k hk => (hcol k).trans (if_neg hk)⟩
  refine ⟨fun v hi hd hc => ⟨pre_completes hi hd hc, fun hu => ?_⟩, fun hi hc => ⟨preall_completes hi hc, fun hu => ?_⟩,
    fun n hi _ hk => ⟨hasked (fun k => rowSetOf (some id) (decide (h.refDone + 1 < n.toNat)) k.cycles) rfl,
      fun hn => ⟨ref_completes hi hn, fun hu => ?_⟩, ref_waits hi⟩,
    fun a pa leaf hi ht => ⟨refn_completes hi ht, fun hu => ?_⟩⟩
  · obtain ⟨t, g, hnext, hkept, hv, -⟩ := rowControl_next hu (pre_completes hi hd hc)
      (congrArg (fun g : Hart => { g with v := h.v }) (closeReg_frame (begun s id h (.pre v)).h v)) rfl rfl rfl (closeWays_mem ..) rfl
    refine ⟨t, g, hnext, hkept, ?_, fun ho hfree => ?_, ?_, fun u hu => (hv u).trans (closeReg_other _ v hu)⟩
    · rw [hv]
      exact closeReg_openWays ..
    · rw [hv]
      exact (congrArg VReg.words (closeReg_open (begun s id h (.pre v)).h v ho)).trans (if_neg (ne_true_of_eq_false hfree))
    · rw [hv]
      exact closeReg_tag ..
  · obtain ⟨hframe, htag, hclosed⟩ := closeRegs_closed (begun s id h .preall).registers (begun s id h .preall).h
    obtain ⟨t, g, hnext, hkept, hv, -⟩ := rowControl_next hu (preall_completes hi hc)
      (congrArg (fun g : Hart => { g with v := h.v }) hframe) rfl rfl rfl (closeAll_mem ..) rfl
    refine ⟨t, g, hnext, hkept, fun v hm => ?_, fun v => ?_⟩
    · rw [hv]
      exact hclosed v (.inl hm)
    · rw [hv]
      exact htag v
  · let r (k : Column) : WayRequest := rowSetOf (some id) (decide (h.refDone + 1 < n.toNat)) k.cycles
    obtain ⟨t, g, hnext, hkept, -, hcols⟩ := rowControl_next hu (ref_completes hi hn) rfl rfl rfl rfl (askEach_mem r h s) rfl
    exact ⟨t, g, hnext, hkept, hasked r hcols⟩
  · let r (k : Column) : WayRequest := actionOf id .refn (layerOf pa * 8 + wayOf pa)
      (k.physicalRow (layerOf pa * 8 + wayOf pa) (rowOf pa)) k.cycles
    obtain ⟨t, g, hnext, hkept, -, hcols⟩ := rowControl_next hu (refn_completes hi ht) rfl rfl rfl rfl (askEach_mem r h s) rfl
    exact ⟨t, g, hnext, hkept, hasked r hcols⟩

end

section
/-! SUPPORT. Permutes, compress and expand where their conditions hold (R209, R210). -/

namespace Sys2Proof.Machine

/-- The tags of a permute or a compress: those of vd and va are the same, and the index register has an integer tag of their width. -/
theorem moveTags_ok {c : Ctx} {d a : VNum} {b : Option VNum} (hsame : (c.h.getV d).sameTag (c.h.getV a) = true)
    (hb : ∀ v, b = some v → (c.h.getV v).tag.isInt = true ∧ (c.h.getV v).tag.width = (c.h.getV a).tag.width) :
    let bt := (b.map (fun v => (c.h.getV v).tag)).getD .uint32
    tagsOk ((c.h.getV d).sameTag (c.h.getV a) && (b.isNone || (bt.isInt && bt.width == (c.h.getV a).tag.width))) c = .ok () := by
  refine tagsOk_true ?_ c
  rw [hsame, Bool.true_and]
  cases b with
  | none => rfl
  | some v =>
    obtain ⟨hint, hwidth⟩ := hb v rfl
    simp [hint, hwidth]

section
variable {s : State} {id : Nat} {h : Hart} {i : Instr}

/-! ## Permutes (R209) -/

/-- A permute of ready elements writes what each of its positions is given. -/
theorem permute_completes {d a : VNum} {b : Option VNum} {f : Ctx → Nat → Nat → Pick} (hi : Issues s id h i) :
    let c := begun s id h i
    let r := h.getV a
    let w := r.tag.width
    let l := picksOf c a f
    let zs := permuteZeroes c w l
    h.vl ≠ 0 → c.declared (d :: a :: b.toList) = true → CopyReady c d w → (h.getV d).sameTag r = true → Idle c.h d →
    OperandReady c.h (.reg a r) (pickedFrom l) →
    (∀ v, b = some v → (h.getV v).tag.isInt = true ∧ (h.getV v).tag.width = w ∧ Arrived c.h v (c.active w) ∧
      Opened c.h v ((c.active w).map (elemWord w))) →
    Opened c.h d (((l.filter (fun p => p.2 != .keep)).map (·.1) ++ zs).map (elemWord w)) →
    permute i d a b f s = .next (retire i h (c.writeV d w (permuted c.h r l ++ zs.map (fun e => ⟨e, 0, false⟩)))) := by
  intro c r w l zs hv hd hcopy hsame hidle hready hindex hopen
  rw [← zeroElems_self w]
  refine issue_ok hi (bind_ok (vecLegal_ok c _ _ hd hcopy.1) ((if_neg hv).trans
    (bind_ok (moveTags_ok hsame fun v hb => ⟨(hindex v hb).1, (hindex v hb).2.1⟩) (bind_ok (copyTag_ok c d w hcopy)
      (bind_ok (writable_ok c d hidle) ?_)))))
  cases b
  case' none => refine (ok_bind _ _).trans ?_
  case' some v =>
    obtain ⟨-, -, harrived, hopenv⟩ := hindex v rfl
    refine bind_ok (readable_ok c v _ harrived) (bind_ok (needOpen_ok c v _ hopenv) ?_)
  all_goals exact bind_ok (readableOp_ok c _ _ hready) (bind_ok (needOpen_ok c d _ hopen) (bind_ok (needElems_ok c _ _ hready)
    (bind_ok (needCopy_ok c d w hcopy) rfl)))

/-! ## Compress and expand (R210) -/

/-- `VCOMP`, with the indices where there is a register for them. -/
theorem compress_completes {d a : VNum} {b : Option VNum} (hi : Issues s id h i) :
    let c := begun s id h i
    let r := h.getV a
    let w := r.tag.width
    let act := c.active w
    let low := List.range act.length
    let rest := if c.zeroing then span act.length ((c.positions w).length - act.length) else []
    let idx := (low.zip act).map (fun p => (⟨p.1, p.2 % 2 ^ w, false⟩ : Elem)) ++ rest.map (fun e => ⟨e, 0, false⟩)
    h.vl ≠ 0 → c.declared (d :: a :: b.toList) = true → CopyReady c d w → (h.getV d).sameTag r = true → Idle c.h d →
    OperandReady c.h (.reg a r) act → Opened c.h d ((low ++ rest).map (elemWord w)) →
    (∀ v, b = some v → v ≠ d ∧ v ≠ a ∧ (h.getV v).tag.isInt = true ∧ (h.getV v).tag.width = w ∧ Idle c.h v ∧
      Opened c.h v ((low ++ rest).map (elemWord w))) →
    compress i d a b s = .next (retire i h (({ c with h := match b with
        | some v => c.h.setV v ((h.getV v).writeElems w idx)
        | none => c.h } : Ctx).writeV d w
      ((low.zip act).map (fun p => movedElem c.h r p.1 p.2) ++ rest.map (fun e => ⟨e, 0, false⟩)))) := by
  intro c r w act low rest idx hv hd hcopy hsame hidle hready hopen hindex
  have hapart : legal (b.all (fun v => v != d && v != a)) c = .ok () := by
    refine legal_true ?_ c
    cases b with
    | none => rfl
    | some v =>
      obtain ⟨hvd, hva, -⟩ := hindex v rfl
      simp [hvd, hva]
  simp only [idx, ← zeroElems_self w]
  refine issue_ok hi (bind_ok (vecLegal_ok c _ _ hd hcopy.1) (bind_ok hapart ((if_neg hv).trans
    (bind_ok (moveTags_ok hsame fun v hb => ⟨(hindex v hb).2.2.1, (hindex v hb).2.2.2.1⟩) (bind_ok (copyTag_ok c d w hcopy)
      (bind_ok (writable_ok c d hidle) (bind_ok (readableOp_ok c _ _ hready) (bind_ok (needOpen_ok c d _ hopen)
        (bind_ok (needElems_ok c _ _ hready) ?_)))))))))
  cases b with
  | none => exact (ok_bind _ _).trans (bind_ok (needCopy_ok c d w hcopy) rfl)
  | some v =>
    obtain ⟨-, -, -, -, hidlev, hopenv⟩ := hindex v rfl
    exact bind_ok (writable_ok c v hidlev) (bind_ok (needOpen_ok c v _ hopenv) (bind_ok (needCopy_ok c d w hcopy) rfl))

/-- `VEXPD` spreads the low elements over the active positions. -/
theorem vexpd_completes {d a : VNum} {ca dt : Bool} (hi : Issues s id h (.vexpd d a ca dt)) :
    let c := begun s id h (.vexpd d a ca dt)
    let r := h.getV a
    let w := r.tag.width
    let act := c.active w
    let low := List.range act.length
    h.vl ≠ 0 → c.declared [d, a] = true → CopyReady c d w → (h.getV d).sameTag r = true → Idle c.h d →
    OperandReady c.h (.reg a r) low → Opened c.h d ((act ++ c.zeroed w).map (elemWord w)) →
    Completes (.vexpd d a ca dt) s h (c.writeV d w
      ((act.zip low).map (fun p => movedElem c.h r p.1 p.2) ++ (c.zeroed w).map (fun e => ⟨e, 0, false⟩))) := by
  intro c r w act low hv hd hcopy hsame hidle hready hopen
  rw [← zeroElems_self w]
  exact issue_ok hi (bind_ok (vecLegal_ok c _ _ hd hcopy.1) ((if_neg hv).trans (bind_ok (tagsOk_true hsame c)
    (bind_ok (copyTag_ok c d w hcopy) (bind_ok (writable_ok c d hidle) (bind_ok (readableOp_ok c _ _ hready)
      (bind_ok (needOpen_ok c d _ hopen) (bind_ok (needElems_ok c _ _ hready) (bind_ok (needCopy_ok c d w hcopy) rfl)))))))))

end

end Sys2Proof.Machine

open Sys2Proof Sys2Proof.Machine

/-- Settles O34: every permute is `permute` with its row of the table. -/
theorem permuteCompletes : Obligations.PermuteCompletes := by
  unfold Obligations.PermuteCompletes
  intro s id h i d a b f c r w l zs hf hi hv hd hcopy hsame hidle hready hindex hopen
  exact (exec_permuteForm hf s).trans (permute_completes hi hv hd hcopy hsame hidle hready hindex hopen)

/-- Settles O35: both forms of `VCOMP` are `compress`, without and with an index register. -/
theorem compressCompletes : Obligations.CompressCompletes := by
  unfold Obligations.CompressCompletes
  intro s id h i d a c r w act low hi hv hcopy hsame hidle
  refine ⟨?_, fun ca dt he hd hready hopen => ?_⟩
  · intro b hb rest idx hd hready hopen hindex
    have he : exec i s = compress i d a b s := by
      rcases hb with ⟨ca, dt, rfl, rfl⟩ | ⟨v, ca, dt, rfl, rfl⟩ <;> rfl
    exact he.trans (compress_completes hi hv hd hcopy hsame hidle hready hopen hindex)
  · subst he
    exact vexpd_completes hi hv hd hcopy hsame hidle hready hopen

end

section
/-! SUPPORT. Vector loads, stores and updates where their conditions hold (R78 to R85, R173, R197 to R207, R219, R220). -/

namespace Sys2Proof.Machine

/-! ## What translation and earlier accesses leave of the hart -/

section
variable {c c₁ : Ctx} {w : Want} {n : Nat} {es : List (Nat × Word)} {ts : List Touch}

/-- The translation of the elements counts the TLB misses of the instruction and changes nothing else of its hart. -/
theorem Touches.hart (ht : Touches c w n es ts c₁) : c₁.h = (c.countMisses es).h := translateAll_h w es _ ts c₁ ht.2.1

theorem Touches.operandReady {v : VNum} {act : List Nat} (ht : Touches c w n es ts c₁) (ho : OperandReady c.h (c.reg v) act) :
    OperandReady c₁.h (c₁.reg v) act := by
  unfold Ctx.reg
  rw [ht.hart]
  exact ho

theorem Touches.settled {v : VNum} (ht : Touches c w n es ts c₁) (hs : Settled c.h v) : Settled c₁.h v := by
  rw [ht.hart]
  exact hs

theorem Touches.badElem (ht : Touches c w n es ts c₁) (r : VReg) : c₁.h.badElem r = c.h.badElem r := by
  rw [ht.hart]
  rfl

theorem Touches.awaits (ht : Touches c w n es ts c₁) (v : VNum) : c₁.h.awaits v = c.h.awaits v := by
  rw [ht.hart]
  rfl

end

/-- Performing earlier accesses leaves the remote elements of a load that are awaited, and those that have come. -/
theorem loadMeeting_remote (c : Ctx) (w : Nat) (ts : List Touch) :
    (loadMeeting c w ts).h.remote = c.h.remote ∧ (loadMeeting c w ts).h.arrived = c.h.arrived := by
  obtain ⟨hkept, -⟩ := drainMeeting_near c (ts.flatMap (fun t => span t.pa (elemBytes w)))
  have hremote := congrArg Hart.remote hkept
  have harrived := congrArg Hart.arrived hkept
  exact ⟨hremote, harrived⟩

/-- A load that is performed at once leaves the film's mode. -/
theorem loadedFrom_filmMode (c : Ctx) (w : Nat) (alloc : Bool) (ts : List Touch) :
    (loadedFrom c w alloc ts).h.filmMode = c.h.filmMode := by
  have hread : (loadMeeting c w ts).Near ((loadMeeting c w ts).readTouches ts alloc) :=
    .global _ _ fun s => .of_harts (readAccess_harts s _ _ _) _
  obtain ⟨hkept, -⟩ := (drainMeeting_near c _).trans hread
  have hmode := congrArg Hart.filmMode hkept
  exact hmode

/-- Some element goes to the remote window. -/
theorem any_remote {ts : List Touch} : ts.any (fun t => regionOf t.pa == .remote) = true ↔ ∃ u ∈ ts, regionOf u.pa = .remote := by
  simp

/-- A check that has two forms, the one or the other of which is asked for. -/
theorem either_ok {α : Type} {p : Prop} [Decidable p] {x y : Except Stop Unit} {k : Unit → Except Stop α} {r : Except Stop α}
    (hx : p → x = .ok ()) (hy : ¬p → y = .ok ()) (hk : k () = r) : (if p then x >>= k else y >>= k) = r := by
  split
  · exact bind_ok (hx ‹_›) hk
  · exact bind_ok (hy ‹_›) hk

section
variable {s : State} {id : Nat} {h : Hart} {i : Instr} {d : VNum} {f : VForm} {b : XReg} {ts : List Touch} {c₁ : Ctx}

/-- A load that its hart goes past sends the accesses that bring its elements; any other brings them at once. -/
theorem vload_completes (hi : Issues s id h i) :
    let c := begun s id h i
    let t := (h.getV d).tag
    let w := t.width
    let act := c.active w
    let zeroes (c : Ctx) : List Elem := (c.zeroed w).map (fun e => ⟨e, 0, false⟩)
    let alloc := mayAllocate c₁ f w ts
    let past := h.late = true ∧ ∀ u ∈ ts, regionOf u.pa ≠ .remote
    h.vl ≠ 0 → c.declared (d :: f.index) = true → CopyReady c d w → IndexReady c f w act → Changeable c.h d →
    (past ∧ c.zeroing = false ∧ c.copyReg = none ∨ Idle c.h d) → Opened c.h d ((act ++ c.zeroed w).map (elemWord w)) →
    Touches c ⟨true, false, true⟩ (elemBytes w) (elementsOf c f w b) ts c₁ →
    (past → h.queued < 16 →
      let c₂ := c₁.readTouches ts alloc
      vload i d f b s = .next (retire i h (((c₂.writeV d w (zeroes c₂)).sendElems (readAccesses c₂ d w f.ordered ts)).later
        (memSample (sampleClass c₂ f w) ts (baseCount (misses c₁.s (ts.map (fun t => (t.pa, leafUc t.leaf))))))))) ∧
    (¬past → h.remote = [] → (∀ u ∈ ts, regionOf u.pa = .remote → (find? h.arrived u.i).isSome = true) →
      ((∀ u ∈ ts, leafRec u.leaf = false) ∨ h.filmMode = 0) →
      let c₀ := loadMeeting c₁ w ts
      let c₂ := loadedFrom c₁ w alloc ts
      let c₃ := c₂.writeV d w (ts.map (loadElem c₂ t) ++ zeroes c₂)
      vload i d f b s = .next (retire i h (({ c₃ with h := { c₃.h with arrived := [] } } : Ctx).later
        (memSample (sampleClass c₂ f w) ts (baseCount (misses c₀.s (ts.map (fun t => (t.pa, leafUc t.leaf))))))))) := by
  intro c t w act zeroes alloc past hv hd hcopy hindex hchange hfree hopen ht
  simp only [zeroes, ← zeroElems_self w]
  have hlater : ¬(c.late && !c.zeroing && c.copyReg.isNone) = true → Idle c.h d := by
    rw [late_undebugged hi.noDebug]
    intro hlater
    refine hfree.resolve_left fun ⟨hpast, hzero, hnone⟩ => hlater ?_
    rw [show c.h.late = true from hpast.1, hzero, hnone]
    rfl
  have hdbg : c₁.h.dbg = none := ht.hart ▸ hi.noDebug
  have hpast : (c₁.late && !c₁.films (ts.any fun t => leafRec t.leaf) && !ts.any (fun t => regionOf t.pa == .remote)) = true ↔
      past := by
    rw [late_undebugged hdbg, films_undebugged hdbg, ht.hart]
    simp [past, show (c.countMisses (elementsOf c f w b)).h.late = h.late from rfl]
  refine ⟨fun hp hq => ?_, fun hp hremote harrived hfilm => ?_⟩
  all_goals refine issue_ok hi (bind_ok (vecLegal_ok c _ _ hd hcopy.1) ((if_neg hv).trans (bind_ok (indexTag_ok c f w act hindex)
    (bind_ok (copyTag_ok c d w hcopy) (either_ok (fun _ => changeable_ok c d hchange) (fun hl => writable_ok c d (hlater hl))
      (bind_ok (needOpen_ok c d _ hopen) (bind_ok (indexReady_ok c f w act hindex) (bind_ok (needCopy_ok c d w hcopy)
        (bind_ok (indexPoison_ok c f w act hindex) (bind_ok (checkTouches_ok c _ _ _ ts c₁ ht)
          (bind_ok (dataWaypoints_none c₁ _ _ hdbg) ?_)))))))))))
  · exact (if_pos (hpast.2 hp)).trans (bind_ok (needRoom_ok (ht.hart ▸ hq)) rfl)
  · have hsettled : Settled c₁.h d := ht.settled (hfree.resolve_left fun h => hp h.1).1
    have hwaiting : c₁.h.waiting = [] := ht.hart ▸ hi.noWaiting
    have hfilm₁ : ts.any (fun t => leafRec t.leaf) = false ∨ c₁.h.filmMode = 0 :=
      hfilm.imp (fun hall => List.any_eq_false.2 fun u hu => ne_true_of_eq_false (hall u hu)) fun hoff => ht.hart ▸ hoff
    obtain ⟨hremote₀, harrived₀⟩ := loadMeeting_remote c₁ w ts
    have hcome : awaitRemote (loadMeeting c₁ w ts) d w f.ordered ts = .ok (loadMeeting c₁ w ts) := by
      refine awaitRemote_ok _ d w _ ts (hremote₀.trans (ht.hart ▸ hremote)) fun u hu hfar => ?_
      rw [harrived₀, ht.hart]
      exact harrived u hu hfar
    rw [← sampleClass_writeV (loadedFrom c₁ w alloc ts) d w w
      (ts.map (loadElem (loadedFrom c₁ w alloc ts) t) ++ zeroElems w w 0 ((loadedFrom c₁ w alloc ts).zeroed w)) f]
    exact (if_neg fun hx => hp (hpast.1 hx)).trans (bind_ok (settled_ok c₁ d hsettled) (bind_ok (inTurn_ok hwaiting _)
      (bind_ok (digestGate_off 12 _ c₁ hfilm₁) (bind_ok hcome
        (bind_ok (filmedDigest_off 12 _ (loadedFrom c₁ w alloc ts) _ (hfilm₁.imp_right (loadedFrom_filmMode c₁ w alloc ts).trans)) rfl)))))

/-! ## Stores (R173, R197 to R204, R219) -/

/-- An operand that has arrived has been brought. -/
theorem operandBrought_of_ready {h : Hart} {v : VNum} {es : List Nat} (ho : OperandReady h (.reg v (h.getV v)) es) :
    OperandBrought h v es := by
  obtain ⟨⟨-, hbrought⟩, hopen, hscales⟩ := ho
  exact ⟨hbrought, hopen, fun hmx => ⟨(hscales hmx).1.2, (hscales hmx).2⟩⟩

/-- An operand that has been brought lies in open ways. -/
theorem needElems_brought (c : Ctx) (v : VNum) (es : List Nat) (ho : OperandBrought c.h v es) : needElems c (c.reg v) es = .ok () := by
  obtain ⟨-, hopen, hscales⟩ := ho
  refine bind_ok (needOpen_ok c v _ hopen) ?_
  split
  · exact needOpen_ok c _ _ (hscales ‹_›).2
  · rfl

/-- A store sends the write of each of its elements, with the element's bytes or with the register that they are still to come to. -/
theorem vstore_completes (hi : Issues s id h i) :
    let c := begun s id h i
    let r := h.getV d
    let w := r.tag.width
    let act := c.active w
    h.vl ≠ 0 → c.declared (d :: f.index) = true → c.copyOk none = true → IndexReady c f w act → StoreReady c.h d act ts →
    Touches c ⟨false, true, true⟩ (elemBytes w) (elementsOf c f w b) ts c₁ →
    ((∃ u ∈ ts, regionOf u.pa = .remote) → ∀ e ∈ act, c.h.badElem r e = false) →
    vstore i d f b s = .next (retire i h (((c₁.writeTouches ts).sendElems (ts.map (storeAccess c₁ d w f.ordered))).later
      (memSample (sampleClass c₁ f w) ts (baseCount (ts.map (·.pa)))))) := by
  intro c r w act hv hd hcopy hindex hready ht hgood
  have hbrought : OperandBrought c.h d act := hready.elim operandBrought_of_ready fun h => h.2.2.1
  have hstill : ¬c.late = true → OperandReady c.h (c.reg d) act := fun hl =>
    hready.resolve_right fun hlate => hl ((late_undebugged hi.noDebug).trans hlate.1)
  have hroom : c₁.h.awaits d = true → c₁.h.queued < 16 := by
    rw [ht.awaits, ht.hart]
    exact fun hawait => hready.elim (fun ho => absurd hawait (ne_true_of_eq_false ho.1.1)) fun hlate => hlate.2.1
  have hdbg : c₁.h.dbg = none := ht.hart ▸ hi.noDebug
  refine issue_ok hi (bind_ok (vecLegal_ok c _ _ hd hcopy) ((if_neg hv).trans (bind_ok (indexTag_ok c f w act hindex)
    (either_ok (fun _ => arrivedOp_ok c d act hbrought) (fun hl => readableOp_ok c _ act (hstill hl))
      (bind_ok (needElems_brought c d act hbrought) (bind_ok (indexReady_ok c f w act hindex)
        (bind_ok (indexPoison_ok c f w act hindex) (bind_ok (checkTouches_ok c _ _ _ ts c₁ ht) ?_))))))))
  by_cases hfar : ts.any (fun t => regionOf t.pa == .remote) = true
  case' pos =>
    obtain ⟨u, hu, hregion⟩ := any_remote.1 hfar
    have hnow : OperandReady c₁.h (c₁.reg d) act := ht.operandReady (hready.resolve_right fun hlate => hlate.2.2.2 u hu hregion)
    have hclean : ∀ e ∈ act, c₁.h.badElem r e = false := ht.badElem r ▸ hgood ⟨u, hu, hregion⟩
    refine (if_pos hfar).trans (bind_ok (readableOp_ok c₁ _ act hnow) (bind_ok (noPoison_ok c₁ w act _ hclean) ?_))
  case' neg => refine (if_neg hfar).trans ((ok_bind _ _).trans ?_)
  all_goals exact either_ok (fun hawait => needRoom_ok (hroom hawait)) (fun _ => rfl) (bind_ok (dataWaypoints_none c₁ _ _ hdbg) rfl)

/-! ## Updates (R207) -/

/-- The tags that R207 lists are of 32 bits. -/
theorem UpdOp.on_width {op : UpdOp} {t : TypeTag} {e : ElemOp} (hop : op.on t = some e) : t.width = 32 := by
  unfold UpdOp.on at hop
  split at hop
  on_goal -1 => cases hop
  all_goals rfl

/-- `VUPD` sends an update of each of its elements, of the operation that its data tag lists. -/
theorem vupdate_completes {vi : VNum} {op : UpdOp} {eop : ElemOp} (hi : Issues s id h i) :
    let c := begun s id h i
    let r := h.getV d
    let act := c.active r.tag.width
    h.vl ≠ 0 → op.on r.tag = some eop → c.declared [d, vi] = true → c.copyOk none = true → OperandReady c.h (.reg d r) act →
    IndexReady c (.indexed vi false) r.tag.width act → (∀ e ∈ act, c.h.badElem r e = false) →
    Touches c ⟨true, true, false⟩ 4 (elementsOf c (.indexed vi false) r.tag.width b) ts c₁ →
    vupdate i op d vi b s = .next (retire i h (((c₁.writeTouches ts).sendElems (ts.map (updatedElem c₁ d eop))).later
      (memSample 6 ts (baseCount (ts.map (·.pa)))))) := by
  intro c r act hv hop hd hcopy hready hindex hgood ht
  obtain ⟨harrived, hopen, -⟩ := hready
  have ⟨_, _, _, _, _, hindexGood⟩ := hindex
  have hdbg : c₁.h.dbg = none := ht.hart ▸ hi.noDebug
  have hclean : ∀ e ∈ act, (c.h.badElem r e || c.h.badElem (c.h.getV vi) e) = false := fun e he => by
    rw [hgood e he, hindexGood e he]
    rfl
  have hdata : updatedElem c₁ d eop = fun t => ⟨c₁.h.elemSeq, t.i, t.pa, t.va, eop, toBytes 4 (r.bits 32 t.i), false, false, c₁.h.ftz,
      c₁.h.pc, []⟩ := by
    unfold updatedElem
    rw [ht.hart]
    rfl
  simp only [act, UpdOp.on_width hop] at *
  rw [hdata]
  refine issue_ok hi (bind_ok (vecLegal_ok c _ _ hd hcopy) ((if_neg hv).trans ?_))
  change (match op.on r.tag with | none => _ | some eop => _) = _
  rw [hop]
  exact bind_ok (indexTag_ok c _ 32 _ hindex) (bind_ok (readable_ok c d _ harrived) (bind_ok (needOpen_ok c d _ hopen)
    (bind_ok (indexReady_ok c _ 32 _ hindex) (bind_ok (noPoison_ok c 32 _ _ hclean) (bind_ok (checkTouches_ok c _ _ _ ts c₁ ht)
      (bind_ok (dataWaypoints_none c₁ _ _ hdbg) rfl))))))

end

end Sys2Proof.Machine

open Sys2Proof Sys2Proof.Machine

/-- Settles O38: every vector load is `vload` with its address form. -/
theorem vectorLoadCompletes : Obligations.VectorLoadCompletes := by
  unfold Obligations.VectorLoadCompletes
  intro s id h i d f b ts c₁ c t w act zeroes alloc past hf hi hv hd hcopy hindex hchange hfree hopen ht
  obtain ⟨hlate, hnow⟩ := vload_completes hi hv hd hcopy hindex hchange hfree hopen ht
  have he := exec_vloadForm hf s
  exact ⟨fun hp hq => he.trans (hlate hp hq), fun hp hremote hcome hfilm => he.trans (hnow hp hremote hcome hfilm)⟩

/-- Settles O39: every vector store is `vstore` with its address form, and every `VUPD` is `vupdate` with its operation. -/
theorem vectorStoreCompletes : Obligations.VectorStoreCompletes := by
  unfold Obligations.VectorStoreCompletes
  intro s id h i d b ts c₁ c r w act acts hi hv
  refine ⟨fun f hf hd hcopy hindex hready ht hgood => ?_, fun vi op eop hf hop hd hcopy hready hindex hgood ht => ?_⟩
  · exact (exec_vstoreForm hf s).trans (vstore_completes hi hv hd hcopy hindex hready ht hgood)
  · exact (exec_updateForm hf s).trans (vupdate_completes hi hv hop hd hcopy hready hindex hgood ht)

end

section
/-! SUPPORT. The performing of one element access (R85, R90, R176, R203, R207, R305, R364). -/

namespace Sys2Proof.Machine

/-! ## When an access is performed -/

section
variable {s : State} {id n : Nat} {h : Hart} {e : ElemAccess}

/-- An access that nothing holds back is performed, and leaves its hart. -/
theorem execElementWritePerform_ready (hh : s.hart? id = some h) (he : h.elems[n]? = some e) (hp : mayPerform h n = true) :
    execElementWritePerform id n s = .next ((performElem s id e).modHart id (fun h => { h.withElems (h.elems.eraseIdx n) with
      wait := if h.wait = .access then .none else h.wait })) := by
  unfold execElementWritePerform
  rw [hh]
  dsimp only
  rw [he]
  exact if_pos hp

/-- An access that does not take what it writes from a register is performed as it was sent. -/
theorem performElem_sent (hh : s.hart? id = some h) (hself : e.resolve h = e) : performElem s id e = performResolved s id e := by
  unfold performElem
  rw [hh]
  exact congrArg (performResolved s id) hself

/-- A store whose elements have gone, an update, an append and a read carry what they write. -/
theorem ElemAccess.resolve_self (hop : e.takes = [] ) : e.resolve h = e := by
  unfold ElemAccess.resolve
  split
  · rename_i hx
    unfold takes at hop
    rw [hx] at hop
    dsimp only at hop
    split at hop <;> cases hop
  · rename_i hx
    unfold takes at hop
    rw [hx] at hop
    cases hop
  · rfl

end

/-- Only an access of an instruction that its hart has gone past takes what it writes from a register. -/
theorem ElemAccess.takes_none {e : ElemAccess} (hlate : e.isLate = false) : e.takes = [] := by
  unfold isLate at hlate
  unfold takes
  split <;> rename_i hop
  · rw [hop] at hlate
    cases hlate
  · rw [hop] at hlate
    cases hlate
  · rfl

/-! ## What is recorded (R305) -/

section
variable {s : State} {id : Nat} {h : Hart}

/-- A record of the pieces that an access met changes of its hart what it has recorded, and nothing else. -/
theorem recordFor_hart (hh : s.hart? id = some h) (q src : Nat) (l : List Nat) :
    ∃ m, (recordFor s id q src l).hart? id = some { h with met := m } := by
  unfold recordFor
  dsimp only
  split
  · exact ⟨h.met, hh⟩
  · have hharts := foldl_harts (fun s p => recordPiece s src p) (fun s p => recordPiece_harts s src p)
      ((distinct l).filter (fun p => find? s.marks p == some .uncorrectable && !(((s.hart? id).map (·.met)).getD []).contains (q, p))) s
    rw [modHart_some ((hart_of_harts hharts id).trans hh)]
    exact ⟨_, find?_put_same ..⟩

/-- Nothing is recorded of good pieces. -/
theorem recordFor_good {l : List Nat} (hg : ∀ p ∈ l, find? s.marks p = none) (q src : Nat) : recordFor s id q src l = s := by
  have hnone : (distinct l).filter (fun p => find? s.marks p == some .uncorrectable &&
      !(((s.hart? id).map (·.met)).getD []).contains (q, p)) = [] := by
    rw [List.filter_eq_nil_iff]
    intro p hp
    rw [hg p ((mem_distinct l p).1 hp)]
    simp
  unfold recordFor
  dsimp only
  rw [hnone]
  rfl

end

/-! ## Reads (R176, R203) -/

section
variable {s : State} {id : Nat} {h : Hart} {e : ElemAccess} {d : VNum} {t : TypeTag} {copy : Option VNum}

theorem performResolved_read (hop : e.op = .read d t copy) (hlocal : regionOf e.pa ≠ .remote) :
    performResolved s id e = fillElem s id d t copy e := by
  unfold performResolved
  rw [if_neg hlocal, hop]

/-- Registers after one has taken an element and another a copy of its lane word. -/
theorem Hart.getV_copied (h : Hart) {d u : VNum} (r : VReg) (j : Nat) (hud : u ≠ d) :
    let g := h.setV d r
    let k := g.setV u { g.getV u with words := put (g.getV u).words j ((g.getV d).word j) }
    k.getV d = r ∧
      ∀ v, v ≠ d → k.getV v = if some u = some v then { h.getV v with words := put (h.getV v).words j (r.word j) } else h.getV v := by
  intro g k
  have hg : g.getV d = r := Hart.getV_setV_same ..
  refine ⟨(Hart.getV_setV_other _ _ hud.symm).trans hg, fun v hv => ?_⟩
  have hother : g.getV v = h.getV v := Hart.getV_setV_other _ _ hv
  by_cases huv : u = v
  · subst huv
    rw [if_pos rfl, ← hother, ← hg]
    exact Hart.getV_setV_same ..
  · rw [if_neg fun heq => huv (Option.some.inj heq)]
    exact (Hart.getV_setV_other _ _ (Ne.symm huv)).trans hother

/-- A read puts its element into its register and the lane word into the copy, and changes no other register of its hart. -/
theorem fillElem_hart (hh : s.hart? id = some h) (hcopy : copy ≠ some d) :
    let r := (h.getV d).writeElems t.width [memoryElem s t e.idx e.pa]
    let j := elemWord t.width e.idx
    ∃ g, (fillElem s id d t copy e).hart? id = some g ∧ g.elems = h.elems ∧ g.wait = h.wait ∧ g.x = h.x ∧ g.getV d = r ∧
      ∀ v, v ≠ d → g.getV v = if copy = some v then { h.getV v with words := put (h.getV v).words j (r.word j) } else h.getV v := by
  intro r j
  obtain ⟨m, hm⟩ := recordFor_hart hh e.seq 1 (piecesOf e.pa e.data.length)
  unfold fillElem
  rw [modHart_some hm]
  refine ⟨_, find?_put_same .., ?_⟩
  cases copy with
  | none => exact ⟨rfl, rfl, rfl, Hart.getV_setV_same .., fun v hv => Hart.getV_setV_other _ _ hv⟩
  | some u =>
    obtain ⟨hd, hothers⟩ := Hart.getV_copied { h with met := m } r j fun heq => hcopy (congrArg some heq)
    exact ⟨rfl, rfl, rfl, hd, hothers⟩

theorem fillElem_performs (s : State) (id : Nat) (d : VNum) (t : TypeTag) (copy : Option VNum) (e : ElemAccess) :
    Performs id s (fillElem s id d t copy e) :=
  (recordFor_performs s id e.seq 1 _).modHart _ fun h => by dsimp only; split <;> rfl

end

/-! ## Writes (R207, R364) -/

section
variable {s : State} {id : Nat} {e : ElemAccess} {data : List Byte}

/-- A store, a nibble store or an update of bytes of memory writes one run of bytes. -/
theorem performResolved_write (hlate : e.isLate = false) (happend : ∀ ring read, e.op ≠ .append ring read) (hclean : e.poison = false)
    (hm : inMemory e.pa = true)
    (hdata : data = match e.op with
      | .store => e.data
      | .nibble high =>
        let old := (readByte s.mem e.pa).toNat
        let v := (e.data.getD 0 0).toNat % 16
        [BitVec.ofNat 8 (if high then old % 16 + v * 16 else old / 16 * 16 + v)]
      | op => toBytes 4 (elemUpdate op e.ftz (readNat s e.pa 4) (ofBytes e.data))) :
    performResolved s id e = writeElem s id e ((span e.pa data.length).zip data) false := by
  have hremote : regionOf e.pa ≠ .remote := fun hr => by
    rw [inMemory, hr] at hm
    exact absurd hm (by decide)
  have hregs := inMemory_not_regs hm
  unfold performResolved
  rw [if_neg hremote]
  obtain ⟨seq, idx, pa, va, op, bytes, poison, ordered, ftz, pc, after⟩ := e
  subst hclean hdata
  cases op with
  | store | nibble => exact if_neg hregs
  | read | open' | back | storeOf | backOf => cases hlate
  | append ring read => exact absurd rfl (happend ring read)
  | addI | minS | minU | maxS | maxU | and | or | xor | addF | minF | maxF => exact if_neg hregs

/-- A write of a run of at most 31 bytes in good pieces changes those bytes of memory, and nothing else of the module. -/
theorem writeElem_good {pa : Nat} (hw : Memory.wf s.mem = true) (hg : badBytes s pa data.length = false) (hlen : data.length < 32) :
    ∃ m, writeElem s id e ((span pa data.length).zip data) false = { s with mem := m } ∧
      ∀ a, readByte m a = if pa ≤ a ∧ a < pa + data.length then data.getD (a - pa) 0 else readByte s.mem a := by
  have hcells : ∀ x ∈ (span pa data.length).zip data, find? s.marks (pieceOf x.1) = none := fun x hx =>
    goodByte_piece hg _ (span_zip_mem hx)
  have hpieces : ∀ p ∈ partPieces ((span pa data.length).zip data), find? s.marks p = none := fun p hp => by
    obtain ⟨x, hx, rfl⟩ := mem_partPieces hp
    exact hcells x hx
  have hcount : ((span pa data.length).zip data).length < 32 := by
    rw [List.length_zip]
    omega
  obtain ⟨m, hm, hread⟩ := writePieces_good _ s hcount hw hcells
  unfold writeElem
  rw [recordFor_good hpieces]
  exact ⟨m, hm, fun a => (hread a).trans (foldl_span ..)⟩

end

end Sys2Proof.Machine

open Sys2Proof Sys2Proof.Machine

/-- Settles O40: what a ready access performs, by its lemma for a read and for a write, is all that it leaves beside its hart's list. -/
theorem elementWritePerforms : Obligations.ElementWritePerforms := by
  unfold Obligations.ElementWritePerforms
  intro s id n h e hw hh he hp left wait
  have hexec := execElementWritePerform_ready hh he hp
  refine ⟨fun d tag copy hop hcopy hlocal => ?_, fun data hlate happend hclean hgood hne hlen hdata => ?_⟩
  · intro r j
    have hself : e.resolve h = e := ElemAccess.resolve_self (by unfold ElemAccess.takes; rw [hop])
    obtain ⟨g, hg, helems, hwait, hx, hd, hothers⟩ := fillElem_hart (e := e) (t := tag) hh hcopy
    rw [performElem_sent hh hself, performResolved_read hop hlocal, modHart_some hg, helems, hwait] at hexec
    refine ⟨_, _, hexec, fillElem_mem .., find?_put_same .., rfl, rfl, hd, fun v hv => ?_, Hart.getX_of_x hx, fun m hm => ?_⟩
    · exact (hothers v hv).trans (hd ▸ rfl)
    · exact (find?_put_other _ _ _ _ hm).trans ((fillElem_performs s id d tag copy e).2 m hm)
  · have hpos : 0 < data.length := List.length_pos_iff.2 hne
    have hm : inMemory e.pa = true := hgood.1 _ (mem_span.2 ⟨le_rfl, by omega⟩)
    have hself : e.resolve h = e := ElemAccess.resolve_self (ElemAccess.takes_none hlate)
    obtain ⟨m, hwrite, hread⟩ := writeElem_good (id := id) (e := e) hw hgood.2 (by omega)
    rw [performElem_sent hh hself, performResolved_write hlate happend hclean hm hdata, hwrite,
      modHart_some (s := { s with mem := m }) (id := id) hh] at hexec
    refine ⟨_, hexec, fun k hk => ?_, fun a ha => ?_, find?_put_same .., fun q hq => find?_put_other _ _ _ _ hq⟩
    · exact (hread _).trans ((if_pos ⟨by omega, by omega⟩).trans (by rw [Nat.add_sub_cancel_left]))
    · exact (hread a).trans (if_neg (by omega))

end

section
/-! SUPPORT. Lane scratch where its conditions hold (R66, R206). -/

namespace Sys2Proof.Machine

/-- Offsets that are aligned and below the declared bytes pass the checks of a lane-scratch instruction. -/
theorem scratchFit_ok {n bytes : Nat} {offs : List (Nat × Nat)} (hfit : ∀ o ∈ offs, o.2 % n = 0 ∧ o.2 + n ≤ bytes) :
    let l := offs.map (fun o => (o.1, (o.2 : Int)))
    l.find? (fun o => o.2 % (n : Int) != 0) = none ∧ l.find? (fun o => decide (o.2 < 0 ∨ (bytes : Int) < o.2 + n)) = none ∧
      l.map (fun o => (o.1, o.2.toNat)) = offs := by
  intro l
  refine ⟨find_none _ _ fun o ho => ?_, find_none _ _ fun o ho => ?_, ?_⟩
  · obtain ⟨p, hp, rfl⟩ := List.mem_map.1 ho
    have halign : ((p.2 : Int) % (n : Int)) = 0 := by exact_mod_cast (hfit p hp).1
    simp [halign]
  · obtain ⟨p, hp, rfl⟩ := List.mem_map.1 ho
    have hbelow := (hfit p hp).2
    rw [decide_eq_false_iff_not]
    dsimp only
    omega
  · simp [l, Function.comp_def]

/-- The checks of a lane-scratch instruction whose registers are ready give the active elements with their offsets. -/
theorem scratchChecks_ok {c : Ctx} {d vi : VNum} {b : XReg} {load : Bool} {offs : List (Nat × Nat)} :
    let w := (c.h.getV d).tag.width
    let act := c.active w
    let index (e : Nat) : Int := if (c.h.getV vi).tag.isSigned then (c.offset vi e).toInt else ((c.offset vi e).toNat : Int)
    (load = true → CopyReady c d w ∧ Idle c.h d ∧ Opened c.h d ((act ++ c.zeroed w).map (elemWord w))) →
    (¬load = true → OperandReady c.h (c.reg d) act) → IndexReady c (.indexed vi false) w act →
    offs.map (fun o => (o.1, (o.2 : Int))) = act.map (fun e => (e, ((c.x b).toNat : Int) + index e)) →
    (∀ o ∈ offs, o.2 % elemBytes w = 0 ∧ o.2 + elemBytes w ≤ c.header.scratch) →
    scratchChecks c d vi b load = .ok offs := by
  intro w act index hload hstore hindex hoffs hfit
  obtain ⟨haligned, hinside, hback⟩ := scratchFit_ok hfit
  refine bind_ok (indexTag_ok c _ w act hindex) (either_ok (fun hl => copyTag_ok c d w (hload hl).1) (fun _ => rfl)
    (either_ok (fun hl => writable_ok c d (hload hl).2.1) (fun hl => readableOp_ok c _ act (hstore hl))
      (either_ok (fun hl => needOpen_ok c d _ (hload hl).2.2) (fun hl => needElems_ok c _ act (hstore hl))
        (bind_ok (indexReady_ok c _ w act hindex) (either_ok (fun hl => needCopy_ok c d w (hload hl).1) (fun _ => rfl)
          (bind_ok (indexPoison_ok c _ w act hindex) ?_))))))
  dsimp only
  rw [← hoffs, haligned, hinside, hback]

section
variable {s : State} {id : Nat} {h : Hart} {d vi : VNum} {b : XReg} {ca dt : Bool} {offs : List (Nat × Nat)}

/-- `VLSX` writes what the lane scratch of each active element holds. -/
theorem vlsx_completes (hi : Issues s id h (.vlsx d vi b ca dt)) :
    let c := begun s id h (.vlsx d vi b ca dt)
    let t := (h.getV d).tag
    let w := t.width
    h.vl ≠ 0 → c.declared [d, vi] = true → c.copyOk (some d) = true → scratchChecks c d vi b true = .ok offs →
    Completes (.vlsx d vi b ca dt) s h ((c.writeV d w (offs.map (fun o =>
        let x := h.scratchWord (scratchKey (h.wordLane (elemWord w o.1)) o.2)
        ⟨o.1, if x.poison then t.lostBits else x.val.toNat / 2 ^ (8 * (o.2 % 4)) % 2 ^ w, x.poison⟩)
      ++ (c.zeroed w).map (fun e => ⟨e, 0, false⟩))).later (scratchSample c.h w offs)) := by
  intro c t w hv hd hcopy hchecks
  rw [← zeroElems_self w]
  exact issue_ok hi (bind_ok (vecLegal_ok c _ _ hd hcopy) ((if_neg hv).trans (bind_ok hchecks rfl)))

/-- `VSSX` writes each active element to the scratch of its own lane. -/
theorem vssx_completes (hi : Issues s id h (.vssx d vi b ca dt)) :
    let c := begun s id h (.vssx d vi b ca dt)
    let scratch := (scratchWrites c.h (h.getV d) offs).foldl (fun m x => put m x.1 ((h.scratchWord x.1).write x.2)) h.scratch
    h.vl ≠ 0 → c.declared [d, vi] = true → c.copyOk none = true → scratchChecks c d vi b false = .ok offs →
    Completes (.vssx d vi b ca dt) s h (({ c with h := { c.h with scratch := scratch } } : Ctx).later
      (scratchSample c.h (h.getV d).tag.width offs)) := by
  intro c scratch hv hd hcopy hchecks
  exact issue_ok hi (bind_ok (vecLegal_ok c _ _ hd hcopy) ((if_neg hv).trans (bind_ok hchecks rfl)))

end

end Sys2Proof.Machine

open Sys2Proof Sys2Proof.Machine

/-- Settles O41: both instructions make the checks of `scratchChecks`, as a load and as a store. -/
theorem scratchCompletes : Obligations.ScratchCompletes := by
  unfold Obligations.ScratchCompletes
  intro s id h i d vi b offs c t w act index hi hv hd hindex hoffs hfit
  refine ⟨fun ca dt he hcopy hidle hopen => ?_, fun ca dt he hcopy hready => ?_⟩
  · subst he
    exact vlsx_completes hi hv hd hcopy.1
      (scratchChecks_ok (fun _ => ⟨hcopy, hidle, hopen⟩) (fun hl => absurd rfl hl) hindex hoffs hfit)
  · subst he
    exact vssx_completes hi hv hd hcopy
      (scratchChecks_ok (fun hl => absurd hl Bool.false_ne_true) (fun _ => hready) hindex hoffs hfit)

end

section
/-! SUPPORT. Capture where its conditions hold (R85, R211, R212, R218, R219, R256). -/

namespace Sys2Proof.Machine

/-! ## What lets an instruction of a hart run on -/

/-- The hart's vector queue, its debug block, its pc, and whether it goes past the instruction at hand: what decides, besides the hart's
registers, how its instruction goes on. -/
def Hart.turn (h : Hart) : List Queued × Option Nat × Word × Bool := (h.vqueue, h.dbg, h.pc, h.late)

theorem Hart.waiting_of_turn {g h : Hart} (ht : g.turn = h.turn) : g.waiting = h.waiting :=
  congrArg (fun t => t.1.filter (fun q => !q.done)) ht

theorem Hart.dbg_of_turn {g h : Hart} (ht : g.turn = h.turn) : g.dbg = h.dbg := congrArg (fun t => t.2.1) ht

theorem Hart.pc_of_turn {g h : Hart} (ht : g.turn = h.turn) : g.pc = h.pc := congrArg (fun t => t.2.2.1) ht

theorem Hart.late_of_turn {g h : Hart} (ht : g.turn = h.turn) : g.late = h.late := congrArg (fun t => t.2.2.2) ht

theorem Ctx.Near.turn {c d : Ctx} (hn : c.Near d) : d.h.turn = c.h.turn := by
  obtain ⟨hkept, -⟩ := hn
  have hturn := congrArg Hart.turn hkept
  exact hturn

theorem countMisses_turn (c : Ctx) (es : List (Nat × Word)) : (c.countMisses es).h.turn = c.h.turn := rfl

theorem countBlock_turn (c : Ctx) (q : QBlock) (n : Nat) : (c.countBlock q n).h.turn = c.h.turn := countMisses_turn ..

theorem countMisses_badElem (c : Ctx) (es : List (Nat × Word)) (r : VReg) : (c.countMisses es).h.badElem r = c.h.badElem r := rfl

/-- The tags that `VCAPP` takes. -/
theorem captured_tag {t : TypeTag} (ht : t = .uint32 ∨ t = .int32) : (t == .uint32 || t == .int32) = true := by
  rcases ht with rfl | rfl <;> rfl

theorem readBlockAt_near (c : Ctx) (p : Nat × Nat) : c.Near (c.readBlockAt p) :=
  .global c _ fun s => .of_harts (readAccess_harts s _ _ _) _

section
variable {s : State} {id : Nat} {h : Hart} {a : VNum} {b : XReg} {ca dt : Bool}

/-- `VCAPP` of active elements without poison appends them to its block, or sends that action. -/
theorem vcapp_completes {pa leaf : Nat} {places : Option (List Nat)} {c₁ c₄ : Ctx} (hi : Issues s id h (.vcapp a b ca dt)) :
    let i := Instr.vcapp a b ca dt
    let c := begun s id h i
    let r := h.getV a
    let act := c.active 32
    let n := act.length
    let words := act.map (r.bits 32)
    c.declared [a] = true → c.copyOk none = true → h.vl ≠ 0 → (r.tag = .uint32 ∨ r.tag = .int32) → Arrived c.h a act →
    Opened c.h a (act.map (elemWord 32)) → act ≠ [] →
    blockAt (c.countMisses [(0, h.getX b)]) (h.getX b) = .ok ((pa, leaf), c₁) → (∀ e ∈ act, c.h.badElem r e = false) →
    let c₂ := c₁.drainMeeting (span pa 64)
    badBytes c₂.s pa 64 = false →
    let read := misses c₂.s [(pa, leafUc leaf)]
    let c₃ := c₂.readBlockAt (pa, leaf)
    let q := readBlock c₃.s pa
    appendPlaces (c₃.countBlock q n) q n = (places, c₄) →
    let pas := places.getD []
    let c₅ := c₄.drainMeeting (pas.flatMap (fun p => span p 4))
    badEntry c₅.s pas = none →
    let launch := if places.isSome then launchPlace c₅ q n else none
    let c₆ := c₅.later (cappSample c₅.s n read (pa :: pas) launch)
    (h.late = false → Completes i s h (appendWords (c₆.drainMeeting ((launch.map (fun p => span p.1 128)).getD [])) pa words read)) ∧
    (h.late = true → Completes i s h (c₆.sendElems [⟨c₆.h.elemSeq, 0, pa, h.getX b, .append (ringRanges c₆.s c₆.h q) (!read.isEmpty),
      words.flatMap (toBytes 4), false, false, false, h.pc, []⟩])) := by
  intro i c r act n words hd hcopy hv htag harrived hopen hact hblock hgood c₂ hsound read c₃ q hplaces pas c₅ hwhole launch c₆
  obtain ⟨hh₁, -⟩ := blockAt_h hblock
  have ht₁ : c₁.h.turn = h.turn := by rw [hh₁, countMisses_turn]; rfl
  have ht₃ : c₃.h.turn = h.turn := (readBlockAt_near c₂ (pa, leaf)).turn.trans ((drainMeeting_near c₁ _).turn.trans ht₁)
  have ht₄ : c₄.h.turn = h.turn := by
    have hnear := (appendPlaces_near (c₃.countBlock q n) q n).turn
    rw [hplaces] at hnear
    exact hnear.trans ((countBlock_turn c₃ q n).trans ht₃)
  have ht₅ : c₅.h.turn = h.turn := (drainMeeting_near c₄ _).turn.trans ht₄
  have hturn : ∀ g : Ctx, g.h.turn = h.turn → ∀ l, inTurn g l = .ok () := fun g hg =>
    inTurn_ok ((Hart.waiting_of_turn hg).trans hi.noWaiting)
  have hdbg : c₅.h.dbg = none := (Hart.dbg_of_turn ht₅).trans hi.noDebug
  have hpast : (c₆.late && !(c₆.h.dbg.isSome && c₆.h.ctl.getLsbD 3)) = h.late := by
    have hdbg₆ : c₆.h.dbg = none := hdbg
    rw [late_undebugged hdbg₆, hdbg₆, show c₆.h.late = h.late from Hart.late_of_turn ht₅]
    exact Bool.and_true _
  have hclean : ∀ e ∈ act, c₁.h.badElem r e = false := by
    rw [hh₁, countMisses_badElem]
    exact hgood
  refine ⟨fun hl => ?_, fun hl => ?_⟩
  all_goals refine issue_ok hi (bind_ok (vecLegal_ok c _ _ hd hcopy) ((if_neg hv).trans (bind_ok (tagsOk_true (captured_tag htag) c)
    (bind_ok (readable_ok c a act harrived) (bind_ok (needOpen_ok c a _ hopen) ((if_neg (by simpa using hact)).trans (bind_ok hblock
      (bind_ok (noPoison_ok c₁ 32 act _ hclean) (bind_ok (hturn c₁ ht₁ _) (bind_ok (needGood_ok c₂ pa 64 _ hsound) ?_))))))))))
  all_goals
    dsimp only
    rw [hplaces]
    dsimp only
    refine bind_ok (hturn c₄ ht₄ _) ?_
    rw [hwhole]
    refine (ok_bind _ _).trans (bind_ok (dataWaypoints_none c₅ _ _ hdbg) ?_)
  · exact (if_neg (ne_true_of_eq_false (hpast.trans hl))).trans (bind_ok (hturn c₆ ht₅ _) rfl)
  · rw [← Hart.pc_of_turn ht₅]
    exact (if_pos (hpast.trans hl)).trans rfl

/-- Where no position is active, `VCAPP` only retires. -/
theorem vcapp_none (hi : Issues s id h (.vcapp a b ca dt)) :
    let i := Instr.vcapp a b ca dt
    let c := begun s id h i
    let r := h.getV a
    c.declared [a] = true → c.copyOk none = true → h.vl ≠ 0 → (r.tag = .uint32 ∨ r.tag = .int32) → Arrived c.h a (c.active 32) →
    Opened c.h a ((c.active 32).map (elemWord 32)) → c.active 32 = [] → Completes i s h (c.later (.sample 3 0 0 0 0)) := by
  intro i c r hd hcopy hv htag harrived hopen hnone
  exact issue_ok hi (bind_ok (vecLegal_ok c _ _ hd hcopy) ((if_neg hv).trans (bind_ok (tagsOk_true (captured_tag htag) c)
    (bind_ok (readable_ok c a _ harrived) (bind_ok (needOpen_ok c a _ hopen) (if_pos (List.isEmpty_iff.2 hnone)))))))

theorem vcapp_checks (a : VNum) (b : XReg) (ca dt : Bool) : ChecksThenLength (.vcapp a b ca dt) [a] none := fun _ => ⟨_, rfl⟩

end

/-! ## The action at the block's home (R211, R256) -/

section
variable {c c' : Ctx} {pa : Nat} {words read : List Nat}

/-- A block without room for all the words, or malformed, counts them all as dropped. -/
theorem appendWords_dropped (hp : appendPlaces c (readBlock c.s pa) words.length = (none, c')) :
    let d := c'.writeRows read [pa]
    appendWords c pa words read = { d with s := storeBytes d.s 1 (pa + 32) (toBytes 8 ((readBlock c.s pa).dropped + words.length)) } := by
  unfold appendWords
  dsimp only
  rw [hp]

/-- Otherwise the words are written at their places, the tail moves past them, and the launch is checked. -/
theorem appendWords_written {pas : List Nat} (hp : appendPlaces c (readBlock c.s pa) words.length = (some pas, c')) :
    let d := c'.writeRows read (pa :: pas)
    let cells := (pas.zip words).flatMap (fun e => (span e.1 4).zip (toBytes 4 e.2))
    appendWords c pa words read = triggerCheck { d with
      s := storeBytes (writeAll d.s 1 cells false) 1 (pa + 24) (toBytes 8 ((readBlock c.s pa).tail + words.length)) } pa := by
  unfold appendWords
  dsimp only
  rw [hp]

end

/-- An append that is performed leaves what its action leaves of the module and of its hart. -/
theorem performElem_append {s : State} {id : Nat} {h : Hart} {e : ElemAccess} {ring : List (Nat × Nat)} {read : Bool}
    (hh : s.hart? id = some h) (hop : e.op = .append ring read) (hlocal : regionOf e.pa ≠ .remote) :
    let c := appendWords ⟨s, id, h, h.pc, false, none, 0, []⟩ e.pa (wordsIn e.data) (if read then [e.pa] else [])
    performElem s id e = c.s.setHart id c.h := by
  have hself : e.resolve h = e := ElemAccess.resolve_self (by unfold ElemAccess.takes; rw [hop])
  rw [performElem_sent hh hself]
  unfold performResolved
  rw [if_neg hlocal, hop]
  dsimp only
  rw [hh]

end Sys2Proof.Machine

open Sys2Proof Sys2Proof.Machine

/-- Settles O42: what `VCAPP` does, what its action does at the block's home, and the event that performs an action that was sent. -/
theorem captureCompletes : Obligations.CaptureCompletes := by
  unfold Obligations.CaptureCompletes
  refine ⟨?_, ?_, ?_⟩
  · intro s id h a b ca dt i c r act n words hi hd hcopy
    refine ⟨fun hv => (vcapp_checks a b ca dt).completes hi hv hd hcopy, fun hv htag harrived hopen => ?_⟩
    exact ⟨vcapp_none hi hd hcopy hv htag harrived hopen, fun pa leaf places c₁ c₄ =>
      vcapp_completes hi hd hcopy hv htag harrived hopen⟩
  · exact fun c c' pa words read => ⟨appendWords_dropped, fun pas => appendWords_written⟩
  · intro s id n h e ring read hh he hp hop hlocal c
    have hexec := execElementWritePerform_ready hh he hp
    have hleft : (c.s.setHart id c.h).hart? id = some c.h := find?_put_same ..
    rw [performElem_append hh hop hlocal, modHart_some hleft, setHart_setHart] at hexec
    exact hexec

end

section
/-! SUPPORT. Collectives outside a gang and in one, their join, and the steps of transports and tile transfers (R62, R213 to R216, R226). -/

namespace Sys2Proof.Machine

/-! ## A hart's own collective (R213 to R216) -/

section
variable {s : State} {id : Nat} {h : Hart} {i : Instr} {fn : Nat} {d a : VNum} {xb : Option XReg}

/-- Every collective is `collective` with its row of the table. -/
theorem exec_collectiveForm (hf : collectiveForm i = some (fn, d, a, xb)) (s : State) : exec i s = collective i fn d a xb s := by
  unfold collectiveForm at hf
  split at hf <;> cases hf <;> rfl

/-- Registers that are ready pass a collective's own checks. -/
theorem collReady_ok {c : Ctx} (hfree : c.h.transport = none) (hv : c.h.vl ≠ 0) (hidle : Idle c.h d) :
    let act := c.positions (c.h.getV d).tag.width
    OperandReady c.h (c.reg a) act → Opened c.h d (act.map (elemWord (c.h.getV d).tag.width)) → collReady c d a = .ok () := by
  intro act hready hopen
  have hnone : ¬c.h.transport.isSome = true := by simp [hfree]
  exact (if_neg hnone).trans ((ok_bind _ _).trans ((if_neg hv).trans (bind_ok (writable_ok c d hidle)
    (bind_ok (readableOp_ok c _ act hready) (bind_ok (needOpen_ok c d _ hopen) (needElems_ok c _ act hready))))))

/-- Outside a gang, at a vector length of 0, a collective only retires. -/
theorem collective_zeroLength (hi : Issues s id h i) (hd : (begun s id h i).declared [d, a] = true) (hgang : (begun s id h i).gang = false)
    (hfilm : h.filmMode = 0) (hv : h.vl = 0) : collective i fn d a xb s = .next (retire i h (begun s id h i)) :=
  issue_ok hi (bind_ok (legal_true hd _) ((if_neg (ne_true_of_eq_false hgang)).trans ((if_pos hv).trans (filmedNow_off 13 _ [] hfilm))))

/-- Outside a gang a collective of ready registers combines the hart's own slices. -/
theorem collective_completes (hi : Issues s id h i) :
    let c := begun s id h i
    let r := h.getV a
    let w := r.tag.width
    let sel : Word := (xb.map h.getX).getD 0
    let own := ownSlices c.h w
    let es := collResults c fn d sel.toNat (own.map (fun p => cellsOf c.h r p.2)) own
    c.declared [d, a] = true → h.transport = none → c.gang = false → h.filmMode = 0 → h.vl ≠ 0 →
    collTagsOk fn (h.getV d) r = true → Idle c.h d → Opened c.h d ((c.positions w).map (elemWord w)) →
    OperandReady c.h (.reg a r) (c.positions w) →
    collective i fn d a xb s = .next (retire i h { c with h := transported c.h d a es.1 es.2 }) := by
  intro c r w sel own es hd hfree hgang hfilm hv htags hidle hopen hready
  have hwidth : (h.getV d).tag.width = w := by
    have hsame := (Bool.and_eq_true _ _).mp ((Bool.and_eq_true _ _).mp htags).1
    exact congrArg TypeTag.width (eq_of_beq hsame.1)
  have hchecks : collReady c d a = .ok () := by
    refine collReady_ok hfree hv hidle ?_ ?_
    all_goals rw [show (c.h.getV d).tag.width = w from hwidth]
    · exact hready
    · exact hopen
  exact issue_ok hi (bind_ok (legal_true hd c) ((if_neg (ne_true_of_eq_false hgang)).trans ((if_neg hv).trans
    (bind_ok (need_true htags ..) (bind_ok hchecks (beginTransport_off c d a es.1 es.2 hfilm))))))

/-- In a gang a collective waits for the join, with its operands recorded. -/
theorem collective_waits (hi : Issues s id h i) :
    let c := begun s id h i
    let k : Collective := ⟨fn, d, a, (xb.map h.getX).getD 0⟩
    c.declared [d, a] = true → h.transport = none → c.gang = true → collective i fn d a xb s =
      .next { s.setHart id { c.h with coll := some k, pfx := h.pfx, wait := .collective } with cur := none } := by
  intro c k hd hfree hgang
  have hnone : ¬c.h.transport.isSome = true := by simp [show c.h.transport = none from hfree]
  exact issue_wait (c := { c with h := { c.h with coll := some k } }) hi (w := .collective)
    (bind_ok (legal_true hd c) ((if_pos hgang).trans (if_neg hnone))) (by simp)

end

/-! ## The join (R214) -/

/-- Where every participant has issued its collective and all pass their checks, the join settles them all. -/
theorem collectiveJoin_settles {s : State} {t stack : Nat} {task : Task} (ht : s.task? t = some task) :
    let l := participants s task stack
    joinDue l = true → (∀ e ∈ l.zipIdx, ∃ k c, e.1.2.coll = some k ∧ joinOutcome s l e.2 e.1.1 e.1.2 k = .ok c) →
    execCollectiveJoin t stack s = .next (settleJoin s l (fun _ => true)) := by
  intro l hdue hpass
  unfold execCollectiveJoin
  rw [ht]
  dsimp only
  rw [if_neg (by simp [show joinDue (participants s task stack) = true from hdue]), if_pos]
  rw [List.all_map, List.all_eq_true]
  intro e he
  obtain ⟨k, c, hk, hc⟩ := hpass e he
  dsimp only [Function.comp]
  rw [hk]
  dsimp only
  rw [hc]
  rfl

/-! ## Transports and tile transfers (R216, R226) -/

section
variable {s : State} {id : Nat} {h : Hart}

/-- An event of a transport writes the lane words of one element group. -/
theorem collectiveTransport_writes {g : Nat} {t : Transport} (hh : s.hart? id = some h) (ht : h.transport = some t)
    (hapart : find? s.shadows id = none) (hnow : t.items.filter (fun e => h.wordGroup e.1 == g) ≠ []) :
    let r := h.getV t.vd
    let rest := t.items.filter (fun e => h.wordGroup e.1 != g)
    execCollectiveTransport id g s = .next (s.setHart id { h.setV t.vd { r with
        words := putAll r.words (t.items.filter (fun e => h.wordGroup e.1 == g)), invalid := putBit r.invalid g false } with
      transport := if rest = [] then none else some { t with items := rest }
      wait := if h.wait = .transport then .none else h.wait }) := by
  intro r rest
  unfold execCollectiveTransport
  rw [hh]
  dsimp only
  rw [ht]
  dsimp only
  rw [if_neg (by simp [hapart, hnow])]
  simp only [List.isEmpty_iff, rest, r]

theorem tileIn_wait (h : Hart) (scales : Bool) (items : AMap TileCell) : (h.tileIn scales items).wait = h.wait := by
  unfold Hart.tileIn
  split <;> rfl

/-- An event of a tile transfer moves its next row. -/
theorem tldTransfer_moves {t : TileLoad} (hh : s.hart? id = some h) (ht : h.tileLoad = some t) (hapart : find? s.shadows id = none) :
    let now := t.items.filter (fun e => nextRow t e.1)
    let rest := t.items.filter (fun e => !nextRow t e.1)
    execTldTransfer id s = .next (s.setHart id { h.tileIn t.scales now with
      tileLoad := if rest = [] then none else some { t with items := rest }
      wait := if h.wait = .tile then .none else h.wait }) := by
  intro now rest
  unfold execTldTransfer
  rw [hh]
  dsimp only
  rw [ht]
  dsimp only
  rw [if_neg (by simp [hapart])]
  simp only [List.isEmpty_iff, rest, now, tileIn_wait]

end

end Sys2Proof.Machine

open Sys2Proof Sys2Proof.Machine

/-- Settles O43: every collective is `collective`, which completes outside a gang and waits in one. -/
theorem collectiveCompletes : Obligations.CollectiveCompletes := by
  unfold Obligations.CollectiveCompletes
  intro s id h i fn d a xb c r w sel own es hf hi hd hfree
  have he := exec_collectiveForm hf s
  exact ⟨fun hgang hfilm hv => he.trans (collective_zeroLength hi hd hgang hfilm hv),
    fun hgang hfilm hv htags hidle hopen hready =>
      he.trans (collective_completes hi hd hfree hgang hfilm hv htags hidle hopen hready),
    fun hgang => he.trans (collective_waits hi hd hfree hgang)⟩

/-- Settles O44, event by event. -/
theorem transportStepsComplete : Obligations.TransportStepsComplete := by
  unfold Obligations.TransportStepsComplete
  exact ⟨fun s t stack task ht => collectiveJoin_settles ht,
    fun s id g h t hh ht hapart hnow => collectiveTransport_writes hh ht hapart hnow,
    fun s id h t hh ht hapart => tldTransfer_moves hh ht hapart⟩

end

section
/-! SUPPORT. The tile instructions of a hart that holds a tile slot (R62, R221 to R232). -/

namespace Sys2Proof.Machine

/-! ## Checks (R224, R226, R231) -/

section
variable {c : Ctx}

theorem tileValue_ok {v mask : Word} (hv : v &&& ~~~mask = 0) : tileValue c v mask = .ok () := need_true (beq_iff_eq.2 hv) ..

theorem needFree_ok {b : Bool} {cause : Cause} (hb : b = true) : needFree b cause c = .ok () := if_pos hb

theorem tileIdle_ok (hl : c.h.tileLoad = none) : tileIdle c = .ok () := if_neg (by simp [hl])

/-- An instruction does not wait for a transfer of cells in rows that it does not read. -/
theorem tileReady_ok {reads : Nat → Bool} (hr : RowsArrived c.h reads) : tileReady c reads = .ok () := by
  unfold tileReady
  split
  · rfl
  · rename_i t ht
    obtain ⟨hcells, hrows⟩ := hr t ht
    exact if_neg (by simpa [hcells] using hrows)

/-- A usable row and an open register of tag fp32 pass the checks of `TRD` and `TACC`, whose row is the value. -/
theorem accChecks_ok {d : VNum} {x : Word} {use : Except Stop Unit} (hx : x &&& ~~~0x1FF = 0) (htag : (c.h.getV d).tag = .fp32)
    (hopen : Opened c.h d (c.h.outputs.map (fun p => p.1 * c.h.perColumn + p.2))) (huse : use = .ok ())
    (hrow : c.rowUsable x.toNat = true) : accChecks c d x use = .ok x.toNat :=
  bind_ok (tileValue_ok hx) (bind_ok (tagsOk_true (beq_iff_eq.2 htag) c) (bind_ok (needOpen_ok c d _ hopen)
    (bind_ok huse (bind_ok (need_true hrow ..) rfl))))

end

/-- A format has no bit outside its field. -/
theorem format_field {x : Word} (hx : x.toNat ≤ 3) : x &&& ~~~0xF = 0 := by
  have hcases : x = 0 ∨ x = 1 ∨ x = 2 ∨ x = 3 := by bv_omega
  rcases hcases with rfl | rfl | rfl | rfl <;> decide

/-- Scales for the whole tile, or cells for rows of it, pass the checks that `TLD` makes of both kinds of transfer. -/
theorem tld_fits {sc : Bool} {t fmt vl : Nat} {tag : TypeTag}
    (hfit : if sc then t = 0 ∧ tag = .uint8 ∧ 2 ≤ fmt else tag = tileSource fmt ∧ t + ceilDiv vl 128 ≤ tileRows fmt) :
    (!sc || t == 0) = true ∧ (if sc then tag == .uint8 && decide (2 ≤ fmt) else tag == tileSource fmt) = true ∧
      (sc || decide (t + ceilDiv vl 128 ≤ tileRows fmt)) = true := by
  cases sc with
  | false => simpa using hfit
  | true => simpa using hfit

/-! ## Configuring, loading and giving back (R225, R226, R230) -/

section
variable {s : State} {id : Nat} {h : Hart} {d v : VNum} {a : XReg}

theorem tcfg_completes (hi : Issues s id h (.tcfg a)) :
    let c := begun s id h (.tcfg a)
    TileHolds c [] → (h.getX a).toNat ≤ 3 → h.tileLoad = none →
    Completes (.tcfg a) s h { c with h := c.h.clearTile (h.getX a).toNat } := by
  intro c hh hx hl
  exact tileOp_ok hi [] _ hh (bind_ok (tileValue_ok (format_field hx)) (bind_ok (need_true (decide_eq_true hx) ..)
    (bind_ok (tileIdle_ok hl) rfl)))

theorem tld_completes (hi : Issues s id h (.tld v a)) :
    let c := begun s id h (.tld v a)
    let x := h.getX a
    let r := h.getV v
    let sc := x.getLsbD 15
    let t := x.toNat % 256
    let es := c.positions r.tag.width
    TileHolds c [v] → x &&& ~~~0x80FF = 0 →
    (if sc then t = 0 ∧ r.tag = .uint8 ∧ 2 ≤ h.tileFmt else r.tag = tileSource h.tileFmt ∧ t + ceilDiv h.vl 128 ≤ tileRows h.tileFmt) →
    Arrived c.h v es → Opened c.h v (es.map (elemWord r.tag.width)) → h.tileLoad = none →
    Completes (.tld v a) s h { c with h := { c.h with tileLoad := some ⟨v, sc, loadItems c.h r t sc⟩ } } := by
  intro c x r sc t es hh hx hfit harrived hopen hl
  obtain ⟨hwhole, htag, hrows⟩ := tld_fits hfit
  exact tileOp_ok hi [v] _ hh (bind_ok (tileValue_ok hx) (bind_ok (need_true hwhole ..) (bind_ok (tagsOk_true htag c)
    (bind_ok (needOpen_ok c v _ hopen) (bind_ok (needFree_ok hrows) (bind_ok (readable_ok c v es harrived)
      (bind_ok (tileIdle_ok hl) rfl)))))))

theorem trel_completes (hi : Issues s id h .trel) :
    let c := begun s id h .trel
    TileHolds c [] → h.tileLoad = none → Completes .trel s h { c with h := c.h.releaseTile } := by
  intro c hh hl
  exact tileOp_ok hi [] _ hh (bind_ok (tileIdle_ok hl) rfl)

/-! ## Products (R124, R227, R228) -/

theorem tmul_completes (hi : Issues s id h (.tmul v a)) :
    let c := begun s id h (.tmul v a)
    let x := h.getX a
    let r := h.getV v
    let o := Operand.reg v r
    let row := x.toNat % 512
    let sl := x.toNat / 2 ^ 16 % 256
    let k := tileRows h.tileFmt
    let es := (span (sl * k) k).filter (fun e => decide (e < h.vl ∧ e < h.capacity r.tag.width))
    TileHolds c [v] → x &&& ~~~0xFF01FF = 0 → tileOperand h.tileFmt r.tag = true → OperandReady c.h o es →
    (sl + 1) * k ≤ h.capacity r.tag.width → c.rowUsable row = true → h.residue = none →
    RowsArrived h (fun q => decide (sl * k + q < h.vl)) →
    Completes (.tmul v a) s h
      (accumulate c row (es.map (fun e => (e - sl * k, o.value c.h e))) (es.any (o.poisoned c.h))) := by
  intro c x r o row sl k es hh hx htag hready hslice hrow hres hrows
  have hfit : (decide ((sl + 1) * k ≤ h.capacity r.tag.width) && c.rowUsable row) = true := by simp [hslice, hrow]
  exact tileOp_ok hi [v] _ hh (bind_ok (tileValue_ok hx) (bind_ok (tagsOk_true htag c) (bind_ok (needElems_ok c o es hready)
    (bind_ok (needFree_ok hfit) (bind_ok (readableOp_ok c o es hready) (bind_ok (residueOk_none c hres)
      (bind_ok (tileReady_ok hrows) rfl)))))))

theorem tmuls_completes (hi : Issues s id h (.tmuls d v a)) :
    let c := begun s id h (.tmuls d v a)
    let x := h.getX a
    let r := h.getV v
    let row := x.toNat % 512
    let vals := Operand.reg d (h.getV d)
    let es := c.positions 8
    TileHolds c [d, v] → x &&& ~~~0x1FF = 0 → h.tileFmt ≤ 2 → tileOperand h.tileFmt vals.tag = true →
    (r.tag = .int8 ∨ r.tag = .uint8) → OperandReady c.h vals es → Arrived c.h v es → Opened c.h v (es.map (elemWord 8)) →
    c.rowUsable row = true → h.residue = none → (∀ e ∈ es, r.bits 8 e < 128 ∧ c.h.badElem r e = false) →
    RowsArrived h (fun q => es.any (fun e => r.bits 8 e == q)) →
    Completes (.tmuls d v a) s h
      (accumulate c row (es.map (fun e => (r.bits 8 e, vals.value c.h e))) (es.any (vals.poisoned c.h))) := by
  intro c x r row vals es hh hx hfmt hvals hidx hready harrived hopen hrow hres hgood hrows
  have htags : (decide (h.tileFmt ≤ 2) && tileOperand h.tileFmt vals.tag && (r.tag == .int8 || r.tag == .uint8)) = true := by
    simp [hfmt, hvals, hidx]
  have hbelow : es.find? (fun e => decide (128 ≤ (c.h.getV v).bits 8 e)) = none :=
    find_none _ _ fun e he => decide_eq_false (Nat.not_le.2 (hgood e he).1)
  refine tileOp_ok hi [d, v] _ hh (bind_ok (tileValue_ok hx) (bind_ok (tagsOk_true htags c) (bind_ok (needElems_ok c vals es hready)
    (bind_ok (needOpen_ok c v _ hopen) (bind_ok (needFree_ok hrow) (bind_ok (readableOp_ok c vals es hready)
      (bind_ok (readable_ok c v es harrived) ?_)))))))
  dsimp only
  rw [hbelow]
  exact (ok_bind _ _).trans (bind_ok (noPoison_ok c 8 es _ fun e he => (hgood e he).2) (bind_ok (residueOk_none c hres)
    (bind_ok (tileReady_ok hrows) rfl)))

/-! ## Accumulator rows (R229, R231, R232) -/

/-- The element of its register that `TRD` gives from an output column of a row: the entry as it stands, in a marked column too (log 74). -/
def Hart.accElem (h : Hart) (row : Nat) (p : Nat × Nat) : Elem :=
  let w := h.scratchWord (accKey p.1 row p.2)
  ⟨p.1 * h.perColumn + p.2, if w.badF32 then 0x7FA00BAD else w.val.toNat, w.badF32⟩

theorem trd_completes (hi : Issues s id h (.trd d a)) :
    let c := begun s id h (.trd d a)
    let row := (h.getX a).toNat
    TileHolds c [d] → h.getX a &&& ~~~0x1FF = 0 → Idle c.h d → (h.getV d).tag = .fp32 →
    Opened c.h d (c.h.outputs.map (fun p => p.1 * h.perColumn + p.2)) → c.rowUsable row = true →
    Completes (.trd d a) s h (c.writeV d 32 (c.h.outputs.map (h.accElem row))) := by
  intro c row hh hx hidle htag hopen hrow
  exact tileOp_ok hi [d] _ hh (bind_ok (accChecks_ok hx htag hopen (writable_ok c d hidle) hrow) rfl)

/-- The sum, with its flags, that `TACC` leaves of register r in an output column of a row, and the key of its scratch word. -/
def Hart.accSum (h : Hart) (r : VReg) (row : Nat) (p : Nat × Nat) : Nat × LaneWord × Nat :=
  let key := accKey p.1 row p.2
  let w := h.scratchWord key
  let y := r.word (p.1 * h.perColumn + p.2)
  if w.badF32 || y.badF32 || (find? h.tileBad (p.1 * 128 + p.2)).isSome then (key, badWord, 0)
  else
    let e := fAdd fp32 (rne h.ftz) (fp32.value h.ftz w.val.toNat) (fp32.value h.ftz y.val.toNat)
    (key, (⟨BitVec.ofNat 32 e.1, false⟩ : LaneWord), e.2)

theorem tacc_completes (hi : Issues s id h (.tacc d a)) :
    let c := begun s id h (.tacc d a)
    let row := (h.getX a).toNat
    let places := c.h.outputs.map (fun p => p.1 * h.perColumn + p.2)
    let rs := c.h.outputs.map (h.accSum (h.getV d) row)
    TileHolds c [d] → h.getX a &&& ~~~0x1FF = 0 → (h.getV d).tag = .fp32 → Arrived c.h d places → Opened c.h d places →
    c.rowUsable row = true → h.residue = none →
    Completes (.tacc d a) s h
      { c with h := (c.h.putScratch (rs.map (fun y => (y.1, y.2.1)))).raise (rs.foldl (fun f y => f ||| y.2.2) 0) } := by
  intro c row places rs hh hx htag harrived hopen hrow hres
  exact tileOp_ok hi [d] _ hh (bind_ok (accChecks_ok hx htag hopen (readable_ok c d places harrived) hrow)
    (bind_ok (residueOk_none c hres) rfl))

theorem tzero_completes (hi : Issues s id h (.tzero a)) :
    let c := begun s id h (.tzero a)
    let x := h.getX a
    let row := x.toNat % 512
    let n := x.toNat / 2 ^ 16 % 512 + 1
    TileHolds c [] → x &&& ~~~0x1FF01FF = 0 → row + n ≤ 512 → c.rowUsable (row + n - 1) = true →
    Completes (.tzero a) s h { c with h := c.h.putScratch ((span row n).flatMap (fun q =>
      c.h.outputs.map (fun p => (accKey p.1 q p.2, (⟨0, false⟩ : LaneWord))))) } := by
  intro c x row n hh hx hfit hrow
  have hrows : (decide (row + n ≤ 512) && c.rowUsable (row + n - 1)) = true := by simp [hfit, hrow]
  exact tileOp_ok hi [] _ hh (bind_ok (tileValue_ok hx) (bind_ok (need_true hrows ..) rfl))

end

end Sys2Proof.Machine

open Sys2Proof Sys2Proof.Machine

/-- Settles O45, instruction by instruction: each passes its checks and leaves its effect. -/
theorem tileCompletes : Obligations.TileCompletes := by
  unfold Obligations.TileCompletes
  intro s id h i d v a c x r o row hi
  refine ⟨?_, ?_, ?_, ?_, ?_, ?_, ?_, ?_⟩ <;> rintro rfl
  · exact tcfg_completes hi
  · exact tld_completes hi
  · exact tmul_completes hi
  · exact tmuls_completes hi
  · exact trd_completes hi
  · exact tacc_completes hi
  · exact tzero_completes hi
  · exact trel_completes hi

end

section
/-! SUPPORT. The small-matrix instructions of a hart with lanes and small-matrix registers (R234 to R242, R123). -/

namespace Sys2Proof.Machine

/-! ## Checks (R236, R238) -/

theorem matLegal_ok {c : Ctx} (hm : HasMatrices c) : matLegal c = .ok () := by
  obtain ⟨hlanes, hsmat⟩ := hm
  exact legal_true (by simp [hlanes, hsmat]) c

theorem matPlace_ok {c : Ctx} {d : MReg} {x : Word} (halign : x.toNat % 4 = 0)
    (hfit : x.toNat + 4 * ((c.h.shape d).rows * (c.h.shape d).cols) ≤ c.header.scratch) : matPlace c d x = .ok x.toNat :=
  bind_ok (need_true (beq_iff_eq.2 halign) ..) (bind_ok (need_true (decide_eq_true hfit) ..) rfl)

/-! ## Results of registers alone (R238, R241, R123) -/

section
variable {s : State} {id : Nat} {h : Hart} {i : Instr} {d a : MReg}

/-- Every instruction of the table of matrices is `matOp` with its row. -/
theorem exec_matrixForm {c : Ctx} {fits : Bool} {sh : MatShape} {f : Nat → Mat} (hf : matrixForm i c = some (d, fits, sh, f)) :
    ∃ ok shape g, (∀ s, exec i s = matOp (sums i) i d ok shape g s) ∧ ok c.h = fits ∧ shape c.h = sh ∧ g c = f := by
  unfold matrixForm at hf
  split at hf <;> cases hf
  · exact ⟨_, _, _, fun s => .trans (b := execMid _ s) rfl rfl, rfl, rfl, rfl⟩
  · exact ⟨_, _, _, fun s => .trans (b := execMadd _ _ _ s) rfl rfl, rfl, rfl, rfl⟩
  · exact ⟨_, _, _, fun s => .trans (b := execMscal _ _ _ s) rfl rfl, rfl, rfl, rfl⟩
  · exact ⟨_, _, _, fun s => .trans (b := execMtrn _ _ s) rfl rfl, rfl, rfl, rfl⟩
  · exact ⟨_, _, _, fun s => .trans (b := execMmul _ _ _ s) rfl rfl, rfl, rfl, rfl⟩
  · exact ⟨_, _, _, fun s => .trans (b := execMmac _ _ _ s) rfl rfl, rfl, rfl, rfl⟩
  · exact ⟨_, _, _, fun s => .trans (b := execMsolv _ _ _ s) rfl rfl, rfl, rfl, rfl⟩

theorem matrixForm_completes (hi : Issues s id h i) :
    let c := begun s id h i
    HasMatrices c → ∀ sh f, matrixForm i c = some (d, true, sh, f) → (sums i = true → h.residue = none) →
    Completes i s h (matPut c d sh f) := by
  intro c hm sh f hf hres
  obtain ⟨ok, shape, g, hexec, hok, rfl, rfl⟩ := exec_matrixForm hf
  exact (hexec s).trans (matOp_ok hi (sums i) d ok shape g (matLegal_ok hm) hok hres)

/-! ## Factorisations (R239, R240) -/

/-- `MCHOL` and `MLU` are `factorise` with their row of the table. -/
theorem exec_factorForm {form : MatForm} {reads : Nat → Nat → Bool} {f : Bool → Nat → Nat → Mat → Factor}
    (hf : factorForm i = some (d, a, form, reads, f)) (s : State) : exec i s = factorise i d a form reads f s := by
  unfold factorForm at hf
  split at hf <;> cases hf <;> rfl

theorem no_bad_read {n : Nat} {reads bad : Nat → Nat → Bool} (h : ∀ p q, p < n → q < n → reads p q = true → bad p q = false) :
    (List.range n).any (fun p => (List.range n).any (fun q => reads p q && bad p q)) = false := by
  simpa using fun p hp q hq => h p q hp hq

/-- Register md takes a lane's factor, with its permutation and flags. -/
def Hart.putFactor (g : Hart) (d : MReg) (r : Nat × Factor) : Hart :=
  { g.putMat r.1 d r.2.m with
    perm := put g.perm (r.1 * 4 + d.toNat) r.2.perm
    laneFlags := put g.laneFlags r.1 r.2.bits
    mstat := g.mstat ||| r.2.bits.setWidth 64 }

theorem factorForm_completes {form : MatForm} {reads : Nat → Nat → Bool} {f : Bool → Nat → Nat → Mat → Factor}
    (hi : Issues s id h i) (hm : HasMatrices (begun s id h i)) (hf : factorForm i = some (d, a, form, reads, f)) :
    let c := begun s id h i
    let n := (h.shape a).rows
    let rs := h.laneList.map (fun l => (l, f h.ftz (h.mstat.toNat / 2 ^ 32) n (h.getMat l a)))
    let h' := rs.foldl (fun g r => g.putFactor d r) (c.h.setShape d ⟨n, n, form⟩)
    (h.shape a).cols = n → h.residue = none →
    (∀ l ∈ h.laneList, ∀ p q, p < n → q < n → reads p q = true → ((h.getMat l a).at p q).bad = false) →
    Completes i s h { c with h := h'.raise (rs.foldl (fun fl r => fl ||| r.2.flags) 0) } := by
  intro c n rs h' hsquare hres hgood
  have hclean : c.h.laneList.find? (fun l => (List.range (c.h.shape a).rows).any (fun p => (List.range (c.h.shape a).rows).any (fun q =>
      reads p q && ((c.h.getMat l a).at p q).bad))) = none := find_none _ _ fun l hl => no_bad_read (hgood l hl)
  refine (exec_factorForm hf s).trans (issue_ok hi (bind_ok (matLegal_ok hm)
    (bind_ok (tagsOk_true (beq_iff_eq.2 hsquare.symm) c) ?_)))
  dsimp only
  rw [hclean]
  exact bind_ok (residueOk_none c hres) rfl

/-! ## Moves (R238) and `MFLAG` (R242) -/

/-- Register md takes a shape, and in each lane the matrix given for it. -/
def Hart.fillMat (h : Hart) (d : MReg) (sh : MatShape) (f : Nat → Mat) : Hart :=
  h.laneList.foldl (fun g l => g.putMat l d (f l)) (h.setShape d sh)

theorem mset_completes {cols rows : BitVec 3} (hi : Issues s id h (.mset d cols rows)) :
    let c := begun s id h (.mset d cols rows)
    let z := Mat.of (rows.toNat + 1) (cols.toNat + 1) (fun _ _ => ⟨0, 0⟩)
    HasMatrices c → rows.toNat ≤ 5 → cols.toNat ≤ 5 →
    Completes (.mset d cols rows) s h { c with h := c.h.fillMat d (general (rows.toNat + 1) (cols.toNat + 1)) (fun _ => z) } := by
  intro c z hm hrows hcols
  exact issue_ok hi (bind_ok (matLegal_ok hm) (bind_ok (legal_true (decide_eq_true ⟨hrows, hcols⟩) c) rfl))

/-- The matrix of a size that a lane's scratch holds, row by row, from an offset on. -/
def Hart.scratchMat (h : Hart) (rows cols p l : Nat) : Mat :=
  Mat.of rows cols (fun u v =>
    let w := h.scratchWord (scratchKey l (p + 4 * (u * cols + v)))
    ⟨if w.poison then 0x7FA00BAD else w.val.toNat, 0⟩)

theorem mld_completes {x : XReg} (hi : Issues s id h (.mld d x)) :
    let c := begun s id h (.mld d x)
    let sh := h.shape d
    let p := (h.getX x).toNat
    HasMatrices c → p % 4 = 0 → p + 4 * (sh.rows * sh.cols) ≤ c.header.scratch →
    Completes (.mld d x) s h { c with h := c.h.fillMat d (general sh.rows sh.cols) (h.scratchMat sh.rows sh.cols p) } := by
  intro c sh p hm halign hfit
  exact issue_ok hi (bind_ok (matLegal_ok hm) (bind_ok (matPlace_ok halign hfit) rfl))

/-- The scratch words from an offset on that hold a lane's matrix of register md, row by row. -/
def Hart.matWords (h : Hart) (d : MReg) (p l : Nat) : List (Nat × LaneWord) :=
  let sh := h.shape d
  (List.range (sh.rows * sh.cols)).map (fun n =>
    let v := (h.getMat l d).at (n / sh.cols) (n % sh.cols)
    (scratchKey l (p + 4 * n), ⟨BitVec.ofNat 32 v.bits, v.bad⟩))

theorem mst_completes {x : XReg} (hi : Issues s id h (.mst d x)) :
    let c := begun s id h (.mst d x)
    let sh := h.shape d
    let p := (h.getX x).toNat
    HasMatrices c → p % 4 = 0 → p + 4 * (sh.rows * sh.cols) ≤ c.header.scratch →
    Completes (.mst d x) s h { c with h := c.h.putScratch (h.laneList.flatMap (h.matWords d p)) } := by
  intro c sh p hm halign hfit
  exact issue_ok hi (bind_ok (matLegal_ok hm) (bind_ok (matPlace_ok halign hfit) rfl))

theorem mflag_completes {f : BitVec 2} {k : KReg} (hi : Issues s id h (.mflag f k)) :
    let c := begun s id h (.mflag f k)
    let hit (e : Nat) : Bool := decide (e < h.vlmax) && h.laneFlag (h.wordLane e) f.toNat
    HasMatrices c →
    Completes (.mflag f k) s h
      { c with h := c.h.setK k ((List.range h.vl).foldl (fun m e => putBit m e (hit e)) (h.getK k)) } := by
  intro c hit hm
  exact issue_ok hi (bind_ok (matLegal_ok hm) rfl)

end

end Sys2Proof.Machine

open Sys2Proof Sys2Proof.Machine

/-- Settles O46: the instructions of the two tables by their row, the others each by its own lemma. -/
theorem smallMatrixCompletes : Obligations.SmallMatrixCompletes := by
  unfold Obligations.SmallMatrixCompletes
  intro s id h i hi c hm
  refine ⟨fun d sh f => matrixForm_completes hi hm sh f, fun d cols rows he => ?_,
    fun d a form reads f hf => factorForm_completes hi hm hf, fun d x halign hfit => ⟨fun he => ?_, fun he => ?_⟩, fun f k he => ?_⟩
  · subst he
    exact mset_completes hi hm
  · subst he
    exact mld_completes hi hm halign hfit
  · subst he
    exact mst_completes hi hm halign hfit
  · subst he
    exact mflag_completes hi hm

end

section
/-! SUPPORT. The task instructions where their conditions hold (R56, R96, R246 to R251, R289). -/

namespace Sys2Proof.Machine

/-- With the film off a filmed instruction ends with the result of its action. -/
theorem filmed_runs {k : Nat} {c c' : Ctx} {run : Ctx → Except Stop (FilmVal × Ctx)} {replayed : Ctx → FilmVal → Ctx}
    {result : FilmVal → Ctx → Ctx} {v : FilmVal} {r : Ctx} (hoff : c.h.filmMode = 0) (hrun : run c = .ok (v, c')) (hr : result v c' = r) :
    filmed k c run replayed result = .ok r :=
  (filmed_off k c run replayed result hoff).trans (bind_ok hrun (congrArg Except.ok hr))

section
variable {s : State} {id : Nat} {h : Hart}

/-! ## `TSPAWN` and `TEXIT` (R96, R247 to R249) -/

/-- `TSPAWN` returns the ticket of the record that it submits, or −1. -/
theorem tspawn_completes {d a : XReg} {pa leaf : Nat} {c₁ c₂ : Ctx} {record : List Byte} (hi : Issues s id h (.tspawn d a))
    (hfilm : h.filmMode = 0) :
    let va := h.getX a
    let r := submitRecord c₂ record
    va.toNat % 128 = 0 → placeGeneric (begun s id h (.tspawn d a)) va 8 ⟨true, false, false⟩ = .ok ((pa, leaf), c₁) →
    badBytes c₁.s pa 128 = false → startRecordAt c₁.drainStores va = .ok (record, c₂) →
    Completes (.tspawn d a) s h (r.2.setX d ((r.1.map (BitVec.ofNat 64)).getD (-1))) := by
  intro va r halign hplace hgood hrecord
  obtain ⟨hh, -⟩ := placeGeneric_h hplace
  have hdbg : c₁.h.dbg = none := (congrArg Hart.dbg hh).trans hi.noDebug
  have hoff : c₁.h.filmMode = 0 := (congrArg Hart.filmMode hh).trans hfilm
  have hsound : placeGood c₁ va 128 true (.mem pa leaf) = .ok () := placeGood_ok fun _ _ e => by cases e; exact hgood
  exact issue_ok hi (bind_ok (need_true (beq_iff_eq.2 halign) ..) (bind_ok hplace (bind_ok hsound
    (bind_ok (dataWaypoints_none c₁ _ _ hdbg) (filmed_runs hoff (bind_ok hrecord rfl) rfl)))))

/-- `TEXIT` waits until every earlier instruction has retired. -/
theorem texit_held (hi : Issues s id h .texit) (hc : h.caughtUp = false) : exec .texit s = .next (holdBack s id h) :=
  issue_held hi (c := begun s id h .texit) (congrArg (· >>= _) (afterAll_wait _ hc)) hc rfl

/-- A channel of the instruction's hart is closed. -/
def Ctx.closeChan (c : Ctx) (n : Nat) : Ctx := { c with s := (closeChannel c.s c.id c.h n).1, h := (closeChannel c.s c.id c.h n).2 }

/-- After its ordering step, with no transport and no tile load under way, `TEXIT` closes the channels and leaves the column. -/
theorem texit_leaves {c₁ : Ctx} (hi : Issues s id h .texit) (hc : h.caughtUp = true) :
    let c := begun s id h .texit
    let c₂ := c₁.h.chans.foldl (fun c e => c.closeChan e.1) c₁
    orderingStep { c with h := { c.h with leaving := true } } = .ok c₁ → c₁.h.transport = none → c₁.h.tileLoad = none →
    Completes .texit s h ((c₂.global (fun s => leave s c₂.id c₂.h .exited)).later (.frame 8 0)) := by
  intro c c₂ hordered htransport htile
  refine issue_ok hi (bind_ok (afterAll_ok c hc) (bind_ok hordered ?_))
  rw [htransport, htile]
  rfl

/-! ## `TYIELD` (R250, R289) -/

/-- A task that needs lanes of those of task t that hart h, of that task, may offer. -/
def Hart.wantedBy (h : Hart) (s : State) (t : Task) : Option Nat :=
  lanesWanted s h.task (classOf s h.task) ((taskHarts s t).flatMap (·.2.lanesOf))

/-- The harts that a `TYIELD` of hart id offers: its own, or all of its gang. -/
def yielding (s : State) (id : Nat) (t : Task) : List Nat := if t.srec.mode % 2 = 1 then (taskHarts s t).map (·.1) else [id]

theorem tyield_noTask (hi : Issues s id h .tyield) (ht : (begun s id h .tyield).task? = none) :
    Completes .tyield s h (begun s id h .tyield) := by
  refine issue_ok hi ?_
  dsimp only
  rw [ht]

/-- In a gang only the hart of rank 0 offers lanes. -/
theorem tyield_follower {t : Task} (hi : Issues s id h .tyield) (ht : (begun s id h .tyield).task? = some t)
    (hgang : t.srec.mode % 2 = 1) (hrank : h.rank ≠ 0) : Completes .tyield s h (begun s id h .tyield) := by
  refine issue_ok hi ?_
  dsimp only
  rw [ht]
  exact if_pos ⟨hgang, hrank⟩

/-- A hart that may offer its lanes marks itself, or its gang, to give way to a task that needs some of them. -/
theorem tyield_offers {t : Task} (hi : Issues s id h .tyield) (ht : (begun s id h .tyield).task? = some t)
    (hoffers : t.srec.mode % 2 = 1 → h.rank = 0) :
    let c := begun s id h .tyield
    Completes .tyield s h ((h.wantedBy s t).elim c fun w => c.global (fun s' => askHalt s' (yielding s id t) w)) := by
  intro c
  refine issue_ok hi ?_
  dsimp only
  rw [ht]
  refine (if_neg fun hf => hf.2 (hoffers hf.1)).trans ?_
  change (match h.wantedBy s t with | none => _ | some w => _) = _
  cases h.wantedBy s t <;> rfl

/-! ## `TINFO` (R251) -/

theorem tinfo_completes {d : XReg} {sel : BitVec 5} {t : Task} (hi : Issues s id h (.tinfo d sel)) (hsel : sel.toNat ≤ 11)
    (hfilm : h.filmMode = 0 ∨ sel.toNat < 4 ∨ 4 < sel.toNat ∧ sel.toNat < 9) (ht : (begun s id h (.tinfo d sel)).task? = some t) :
    let c := begun s id h (.tinfo d sel)
    Completes (.tinfo d sel) s h (c.setX d (taskInfo s c.h t sel.toNat)) := by
  intro c
  refine issue_ok hi (bind_ok (legal_true (decide_eq_true hsel) c) ?_)
  dsimp only
  rw [ht]
  by_cases hasked : sel = 4 ∨ sel = 9 ∨ sel = 10 ∨ sel = 11
  · have hoff : h.filmMode = 0 := hfilm.resolve_right (by rcases hasked with rfl | rfl | rfl | rfl <;> decide)
    exact (if_pos hasked).trans (filmed_runs hoff rfl rfl)
  · exact (if_neg hasked).trans rfl

end

end Sys2Proof.Machine

open Sys2Proof Sys2Proof.Machine

/-- Settles O47, instruction by instruction. -/
theorem taskInstructionsComplete : Obligations.TaskInstructionsComplete := by
  unfold Obligations.TaskInstructionsComplete
  intro s id h
  refine ⟨?_, texit_held, fun c₁ => texit_leaves, ?_, fun d sel t => tinfo_completes⟩
  · intro d a pa leaf c₁ c₂ record hi hfilm va halign hplace hgood hrecord r
    have hticket := tspawn_completes hi hfilm halign hplace hgood hrecord
    cases hr : r.1 with
    | none => rwa [hr] at hticket
    | some ticket => rwa [hr] at hticket
  · intro hi c
    refine ⟨tyield_noTask hi, fun t => tyield_follower hi, fun t who ht hwho => ?_⟩
    have hyields : who = yielding s id t ∧ (t.srec.mode % 2 = 1 → h.rank = 0) := by
      rcases hwho with ⟨hgang, hrank, rfl⟩ | ⟨halone, rfl⟩
      · exact ⟨(if_pos hgang).symm, fun _ => hrank⟩
      · exact ⟨(if_neg halone).symm, fun hgang => absurd hgang halone⟩
    obtain ⟨rfl, hoffers⟩ := hyields
    have hdone := tyield_offers hi ht hoffers
    refine ⟨fun hw => ?_, fun w hw => ?_⟩
    · rwa [show h.wantedBy s t = none from hw] at hdone
    · rwa [show h.wantedBy s t = some w from hw] at hdone

end

section
/-! SUPPORT. `QPUSH` and `QPOP` where no piece that they touch is bad and the film is off (R85, R219, R255 to R258). -/

namespace Sys2Proof.Machine

/-- Without a film there is no replay. -/
theorem Hart.replays_off {h : Hart} (hoff : h.filmMode = 0) : h.replays = false := by
  unfold Hart.replays
  rw [hoff]
  rfl

/-! ## What an action finds (R256) -/

section
variable {c c₄ : Ctx} {pa leaf : Nat} {va : Word} {pos : QBlock → Nat} {stops : QBlock → Bool}

/-- The context in which a queue instruction has read its block. -/
abbrev Ctx.atBlock (c : Ctx) (pa leaf : Nat) : Ctx := (c.drainOverlap pa 64).readBlockAt (pa, leaf)

/-- What it reads in the array for that. -/
abbrev Ctx.blockReads (c : Ctx) (pa leaf : Nat) : List Nat := misses (c.drainOverlap pa 64).s [(pa, leafUc leaf)]

/-- A block that is malformed, or that turns the action away, gives no entry. -/
theorem queuePlan_none (hoff : c.h.filmMode = 0) (hgood : badBytes (c.drainOverlap pa 64).s pa 64 = false) :
    let q := readBlock (c.atBlock pa leaf).s pa
    queueEntry (c.atBlock pa leaf) q (pos q) (!q.ok || stops q) = (none, c₄) →
    queuePlan c (pa, leaf) va pos stops = .ok ((q, none, c.blockReads pa leaf), c₄) := by
  intro q hentry
  unfold queuePlan
  rw [if_neg (ne_true_of_eq_false (Hart.replays_off hoff))]
  refine bind_ok (needGood_ok _ pa 64 va hgood) ?_
  dsimp only
  rw [hentry]

/-- Otherwise the entry's bytes, with the earlier stores to them performed, are good. -/
theorem queuePlan_some {e : Nat} (hoff : c.h.filmMode = 0) (hgood : badBytes (c.drainOverlap pa 64).s pa 64 = false) :
    let q := readBlock (c.atBlock pa leaf).s pa
    let c₅ := c₄.drainOverlap e q.entry
    queueEntry (c.atBlock pa leaf) q (pos q) (!q.ok || stops q) = (some e, c₄) → badBytes c₅.s e q.entry = false →
    queuePlan c (pa, leaf) va pos stops = .ok ((q, some e, c.blockReads pa leaf), c₅) := by
  intro q c₅ hentry hwhole
  unfold queuePlan
  rw [if_neg (ne_true_of_eq_false (Hart.replays_off hoff))]
  refine bind_ok (needGood_ok _ pa 64 va hgood) ?_
  dsimp only
  rw [hentry]
  exact bind_ok (needGood_ok c₅ e q.entry _ hwhole) rfl

end

/-! ## The actions on the block (R256, R257) -/

section
variable (q : QBlock) (e pa : Nat) (read : List Nat) (c : Ctx)

theorem pushEntry_none (b : XReg) : pushEntry (q, none, read) b pa c = .ok (⟨true, 0, 0⟩, c) := rfl

theorem popEntry_none : popEntry (q, none, read) pa c = .ok (⟨true, 0, 0⟩, c) := rfl

/-- The buffered stores are performed, the entry at tail is written, tail moves, and the launch is checked. -/
theorem pushEntry_some (b : XReg) :
    let c₁ := c.drainStores.writeRows read [pa, e]
    let s₁ := storeBytes c₁.s 1 e (toBytes q.entry (c₁.x b).toNat)
    pushEntry (q, some e, read) b pa c =
      .ok (⟨false, 0, 0⟩, triggerCheck { c₁ with s := storeBytes s₁ 1 (pa + 24) (toBytes 8 (q.tail + 1)) } pa) := rfl

/-- The entry at head is read, and head moves. -/
theorem popEntry_some :
    let c₁ := c.writeRows read [pa, e]
    popEntry (q, some e, read) pa c = .ok (⟨false, BitVec.ofNat 64 (loadNat c₁.s e q.entry), 0⟩,
      { c₁ with s := storeBytes c₁.s 1 (pa + 16) (toBytes 8 (q.head + 1)) }) := rfl

end

/-! ## `QPUSH` and `QPOP` (R256) -/

/-- Performing earlier stores to some bytes leaves the film off, and the hart without debug. -/
theorem drainOverlap_quiet {c : Ctx} (pa n : Nat) (hoff : c.h.filmMode = 0) (hdbg : c.h.dbg = none) :
    (c.drainOverlap pa n).h.filmMode = 0 ∧ (c.drainOverlap pa n).h.dbg = none := by
  obtain ⟨hkept, -⟩ := perform_near c (neededStores pa n c.h.stores).1 (neededStores pa n c.h.stores).2
  have hfilm := congrArg Hart.filmMode hkept
  have hnone := congrArg Hart.dbg hkept
  exact ⟨hfilm.trans hoff, hnone.trans hdbg⟩

/-- Without debug an instruction goes on past the waypoints on what it reads and writes, in each of a queue instruction's cases. -/
theorem queueWaypoints_ok {c : Ctx} {empty : Bool} {r₁ w₁ r₂ w₂ : List (Nat × Nat)} {k : Ctx → Except Stop Ctx} {r : Except Stop Ctx}
    (hdbg : c.h.dbg = none) (hk : k c = r) :
    (if c.h.replays then Except.ok c >>= k else if empty then dataWaypoints c r₁ w₁ >>= k else dataWaypoints c r₂ w₂ >>= k) = r := by
  simp only [dataWaypoints_none c _ _ hdbg, ok_bind, ite_self]
  exact hk

section
variable {s : State} {id : Nat} {h : Hart} {a b d : XReg} {p : PReg} {pa leaf : Nat} {plan : QBlock × Option Nat × List Nat}
  {c₁ c₂ c₃ : Ctx} {v : Word} {full empty : Bool}

/-- `QPUSH` performs its action on the block as its checks find it. -/
theorem qpush_completes (hi : Issues s id h (.qpush a b p))
    (hblock : blockAt (begun s id h (.qpush a b p)) (h.getX a) = .ok ((pa, leaf), c₁))
    (hplan : queuePlan c₁ (pa, leaf) (h.getX a) (·.tail) (fun q => q.count == q.capacity) = .ok (plan, c₂))
    (hoff : c₂.h.filmMode = 0) (hdbg : c₂.h.dbg = none) (hpush : pushEntry plan b pa c₂ = .ok (⟨full, 0, 0⟩, c₃)) :
    Completes (.qpush a b p) s h (c₃.setP p full) :=
  issue_ok hi (bind_ok hblock (bind_ok hplan (queueWaypoints_ok hdbg (filmed_runs hoff hpush rfl))))

/-- So does `QPOP`. -/
theorem qpop_completes (hi : Issues s id h (.qpop d a p))
    (hblock : blockAt (begun s id h (.qpop d a p)) (h.getX a) = .ok ((pa, leaf), c₁))
    (hplan : queuePlan c₁ (pa, leaf) (h.getX a) (·.head) (fun q => q.count == 0) = .ok (plan, c₂))
    (hoff : c₂.h.filmMode = 0) (hdbg : c₂.h.dbg = none) (hpop : popEntry plan pa c₂ = .ok (⟨empty, v, 0⟩, c₃)) :
    Completes (.qpop d a p) s h ((c₃.setX d v).setP p empty) :=
  issue_ok hi (bind_ok hblock (bind_ok hplan (queueWaypoints_ok hdbg (filmed_runs hoff hpop rfl))))

end

end Sys2Proof.Machine

open Sys2Proof Sys2Proof.Machine

/-- Settles O48: each of the two acts on the block as its checks find it, with an entry and without. -/
theorem queueInstructionsComplete : Obligations.QueueInstructionsComplete := by
  unfold Obligations.QueueInstructionsComplete
  intro s id h i a p pa leaf c₁ c₄ c₂ c₃ q read hi hfilm hblock hgood hoff hdbg
  have hoff₁ : c₁.h.filmMode = 0 := (congrArg Hart.filmMode (blockAt_h hblock).1).trans hfilm
  refine ⟨?_, ?_⟩
  · rintro b rfl blocked
    refine ⟨fun hentry => ?_, ?_⟩
    · exact qpush_completes hi hblock (queuePlan_none hoff₁ hgood hentry) hoff hdbg (pushEntry_none q pa read c₄ b)
    · intro e hentry c₅ hwhole
      obtain ⟨hoff₅, hdbg₅⟩ := drainOverlap_quiet e q.entry hoff hdbg
      exact qpush_completes hi hblock (queuePlan_some hoff₁ hgood hentry hwhole) hoff₅ hdbg₅ (pushEntry_some q e pa read c₅ b)
  · rintro d rfl blocked
    refine ⟨fun hentry => ?_, ?_⟩
    · exact qpop_completes hi hblock (queuePlan_none hoff₁ hgood hentry) hoff hdbg (popEntry_none q pa read c₄)
    · intro e hentry c₅ hwhole
      obtain ⟨hoff₅, hdbg₅⟩ := drainOverlap_quiet e q.entry hoff hdbg
      exact qpop_completes hi hblock (queuePlan_some hoff₁ hgood hentry hwhole) hoff₅ hdbg₅ (popEntry_some q e pa read c₅)

end

section
/-! SUPPORT. The barrier instructions in a gang, and the end of a phase (R262, R263). -/

namespace Sys2Proof.Machine

theorem barLegal_ok {c : Ctx} {sc : BitVec 3} (hgang : c.gang = true) (hlow : 1 ≤ sc.toNat) (hhigh : sc.toNat ≤ 4) :
    barLegal c sc = .ok () := legal_true (by rw [hgang, decide_eq_true ⟨hlow, hhigh⟩]; rfl) c

/-- The phase that a hart waits for has completed. -/
theorem barWait_passed {c : Ctx} (hw : c.h.barA ≤ c.barC) : barWait c = .ok c := if_pos hw

/-- It has not: the hart waits. -/
theorem barWait_pending {c : Ctx} (hw : c.barC < c.h.barA) : barWait c = .error (.wait .barrier c) := if_neg (Nat.not_le.2 hw)

/-- The context in which a `BAR` has arrived, once at its pc, at the barrier that its hart has not arrived at. -/
def Ctx.arriveOnce (c : Ctx) : Ctx :=
  if c.h.barA = c.barC ∧ c.h.barAt ≠ some c.h.pc then { c with h := { c.h with barA := c.h.barA + 1, barAt := some c.h.pc } } else c

theorem arriveOnce_s (c : Ctx) : c.arriveOnce.s = c.s := by
  unfold Ctx.arriveOnce
  split <;> rfl

theorem arriveOnce_id (c : Ctx) : c.arriveOnce.id = c.id := by
  unfold Ctx.arriveOnce
  split <;> rfl

/-- An arrival leaves the count of the gang. -/
theorem arriveOnce_barC (c : Ctx) : c.arriveOnce.barC = c.barC := by
  unfold Ctx.arriveOnce
  split <;> rfl

/-- The arrival of `BAR`, as its meaning tests for it. -/
theorem arrival_arriveOnce (c : Ctx) :
    (if (decide (c.h.barA = c.barC) && c.h.barAt != some c.h.pc) = true then
      { c with h := { c.h with barA := c.h.barA + 1, barAt := some c.h.pc } } else c) = c.arriveOnce := by
  simp [Ctx.arriveOnce]

section
variable {s : State} {id : Nat} {h : Hart} {sc : BitVec 3}

/-- `BAR` in a gang arrives, and goes on where the phase at which it has arrived is complete. -/
theorem bar_completes (hi : Issues s id h (.bar sc)) (hlegal : barLegal (begun s id h (.bar sc)) sc = .ok ()) :
    let c := (begun s id h (.bar sc)).drainStores
    let c' := c.arriveOnce
    c'.h.barA ≤ c.barC → Completes (.bar sc) s h { c' with h := { c'.h with barAt := none } } := by
  intro c c' hw
  refine issue_ok hi (bind_ok hlegal ?_)
  dsimp only
  rw [arrival_arriveOnce]
  exact bind_ok (barWait_passed ((arriveOnce_barC c).symm ▸ hw)) rfl

theorem bar_waits (hi : Issues s id h (.bar sc)) (hlegal : barLegal (begun s id h (.bar sc)) sc = .ok ()) :
    let c := (begun s id h (.bar sc)).drainStores
    let c' := c.arriveOnce
    c.barC < c'.h.barA → exec (.bar sc) s = .next { c.s.setHart c.id { c'.h with pfx := h.pfx, wait := .barrier } with cur := none } := by
  intro c c' hw
  rw [← arriveOnce_s c, ← arriveOnce_id c]
  refine issue_wait hi (w := .barrier) (c := c') (bind_ok hlegal ?_) Wait.noConfusion
  dsimp only
  rw [arrival_arriveOnce]
  exact congrArg (· >>= _) (barWait_pending ((arriveOnce_barC c).symm ▸ hw))

/-- `BARA` arrives once the phase before is complete. -/
theorem bara_completes (hi : Issues s id h (.bara sc)) (hlegal : barLegal (begun s id h (.bara sc)) sc = .ok ()) :
    let c := (begun s id h (.bara sc)).drainStores
    c.h.barA ≤ c.barC → Completes (.bara sc) s h { c with h := { c.h with barA := c.h.barA + 1 } } := by
  intro c hw
  exact issue_ok hi (bind_ok hlegal (bind_ok (barWait_passed hw) rfl))

theorem barw_completes (hi : Issues s id h (.barw sc)) (hlegal : barLegal (begun s id h (.barw sc)) sc = .ok ()) :
    let c := (begun s id h (.barw sc)).drainStores
    c.h.barA ≤ c.barC → Completes (.barw sc) s h c := by
  intro c hw
  exact issue_ok hi (bind_ok hlegal (barWait_passed hw))

theorem barw_waits (hi : Issues s id h (.barw sc)) (hlegal : barLegal (begun s id h (.barw sc)) sc = .ok ()) :
    let c := (begun s id h (.barw sc)).drainStores
    c.barC < c.h.barA → exec (.barw sc) s = .next { c.s.setHart c.id { c.h with pfx := h.pfx, wait := .barrier } with cur := none } := by
  intro c hw
  exact issue_wait hi (w := .barrier) (bind_ok hlegal (barWait_pending hw)) Wait.noConfusion

end

/-! ## The end of a phase (R262) -/

/-- The harts of a gang that have not left. -/
def leftHarts (s : State) (t : Task) : List (Nat × Hart) :=
  t.harts.filterMap (fun e => (s.hart? e.2).bind (fun h =>
    if h.status = .exited ∨ h.status = .ended then none else some (e.2, h)))

/-- A phase completes when every hart of the gang that is left has arrived, and the waiting ones go on. -/
theorem execBarrierPhase_completes {s : State} {n : Nat} {t : Task} (ht : s.task? n = some t) (hgang : t.srec.mode % 2 = 1)
    (hleft : leftHarts s t ≠ []) (harrived : ∀ e ∈ leftHarts s t, t.barC < e.2.barA) :
    execBarrierPhase n s = .next ((leftHarts s t).foldl (fun s e => s.modHart e.1 (fun h =>
      if h.wait = .barrier then { h with wait := .none } else h)) (s.setTask n { t with barC := t.barC + 1 })) := by
  have hall : (leftHarts s t).any (fun e => decide (e.2.barA ≤ t.barC)) = false :=
    List.any_eq_false.2 fun e he => by simpa using harrived e he
  have hoccurs : ¬(t.srec.mode % 2 = 0 ∨ (leftHarts s t).isEmpty = true ∨
      (leftHarts s t).any (fun e => decide (e.2.barA ≤ t.barC)) = true) := by simp [hgang, hleft, hall]
  unfold execBarrierPhase
  rw [ht]
  exact if_neg hoccurs

end Sys2Proof.Machine

open Sys2Proof Sys2Proof.Machine

/-- Settles O50, instruction by instruction, and for the end of a phase. -/
theorem barriersComplete : Obligations.BarriersComplete := by
  unfold Obligations.BarriersComplete
  refine ⟨fun s id h sc hlow hhigh => ⟨fun hi hgang => ?_, fun hi hgang => ?_, fun hi hgang => ?_⟩,
    fun s n t => execBarrierPhase_completes⟩
  all_goals have hlegal := barLegal_ok hgang hlow hhigh
  · exact ⟨bar_completes hi hlegal, bar_waits hi hlegal⟩
  · exact bara_completes hi hlegal
  · exact ⟨barw_completes hi hlegal, barw_waits hi hlegal⟩

end

section
/-! SUPPORT. The stream channel instructions and the steps of the fetch where their conditions hold (R264 to R271). -/

namespace Sys2Proof.Machine

theorem chanLegal_ok {c : Ctx} (hl : c.h.lanes ≠ 0) : chanLegal c = .ok () := legal_true (bne_iff_ne.2 hl) c

/-! ## Binding (R265, R266, R270) -/

/-- The context in which the free values of a block's bad pieces are taken. -/
def Ctx.pastBlock (c : Ctx) : Ctx := { c with s := { c.s with free := c.s.free + 128 } }

/-- Channel n is bound to ch, in the place of what it was. -/
def Ctx.bindChan (c : Ctx) (n : Nat) (ch : Channel) : Ctx :=
  let r := closeChannel c.s c.id c.h n
  { c with s := r.1, h := { r.2 with chans := put r.2.chans n ch } }

/-- A well-formed block with its destination open and settled binds its channel, unless another hart of the column holds it. -/
theorem bindChannel_ok {c : Ctx} {d : XReg} {n : BitVec 2} {va : Word} {pa : Nat} (hfields : badField c pa = none) :
    let ch := channelOf c.s pa c.h.pc
    let w := (c.h.getV ch.dest).tag.width
    let c₃ := c.pastBlock
    w ≠ 4 → Opened c.h ch.dest ((List.range ch.strip).map (elemWord w)) → Settled c.h ch.dest →
    bindChannel d n va pa c = .ok (if heldByOther c₃.s c₃.id c₃.h n.toNat then c₃.setX d 1
      else (c₃.drainStores.bindChan n.toNat ch).setX d 0) := by
  intro ch w c₃ hw hopen hsettled
  unfold bindChannel
  rw [hfields]
  refine bind_ok (tagsOk_true (bne_iff_ne.2 hw) c) (bind_ok (needOpen_ok c _ _ hopen) (bind_ok (settled_ok c _ hsettled) ?_))
  exact (apply_ite Except.ok ..).symm

section
variable {s : State} {id : Nat} {h : Hart} {d a : XReg} {n : BitVec 2}

/-- The context in which `SCFG` has read its block. -/
def Ctx.readChannel (c : Ctx) (pa leaf : Nat) : Ctx :=
  let c := c.drainOverlap pa 64
  c.global (fun s => recordPieces (readAccess s [(pa, leafUc leaf)] false (.base c.id)) 1 (piecesOf pa 64))

theorem scfg_completes {pa leaf : Nat} {c₁ c' : Ctx} (hi : Issues s id h (.scfg d a n)) (hl : h.lanes ≠ 0)
    (hplace : placeGeneric (begun s id h (.scfg d a n)) (h.getX a) 64 ⟨true, false, false⟩ = .ok ((pa, leaf), c₁))
    (hbind : bindChannel d n (h.getX a) pa (c₁.readChannel pa leaf) = .ok c') : Completes (.scfg d a n) s h c' :=
  issue_ok hi (bind_ok (chanLegal_ok hl) (bind_ok hplace hbind))

/-! ## Advancing, status, closing (R268, R270, R271) -/

theorem sstep_completes {ch : Channel} (hi : Issues s id h (.sstep n)) (hl : h.lanes ≠ 0) (hch : find? h.chans n.toNat = some ch) :
    let c := (begun s id h (.sstep n)).drainStores
    Completes (.sstep n) s h { c with h := { c.h with chans := put c.h.chans n.toNat (ch.advance c.h.pc) } } := by
  intro c
  refine issue_ok hi (bind_ok (chanLegal_ok hl) ?_)
  change (match find? h.chans n.toNat with | none => _ | some ch => _) = _
  rw [hch]

theorem sstat_completes (hi : Issues s id h (.sstat d n)) (hl : h.lanes ≠ 0) (hfilm : h.filmMode = 0) :
    let c := begun s id h (.sstat d n)
    Completes (.sstat d n) s h (c.setX d (chanStatus s id c.h n.toNat)) :=
  issue_ok hi (bind_ok (chanLegal_ok hl) (filmed_runs hfilm rfl rfl))

/-- `SCLOSE` of a channel that the hart does not hold only retires. -/
theorem sclose_unbound (hi : Issues s id h (.sclose n)) (hl : h.lanes ≠ 0) (hch : find? h.chans n.toNat = none) :
    Completes (.sclose n) s h (begun s id h (.sclose n)) :=
  issue_ok hi (bind_ok (chanLegal_ok hl) (if_pos (Option.isNone_iff_eq_none.2 hch)))

theorem sclose_bound (hi : Issues s id h (.sclose n)) (hl : h.lanes ≠ 0) (hch : find? h.chans n.toNat ≠ none) :
    Completes (.sclose n) s h ((begun s id h (.sclose n)).closeChan n.toNat) :=
  issue_ok hi (bind_ok (chanLegal_ok hl) (if_neg fun hnone => hch (Option.isNone_iff_eq_none.1 hnone)))

end

/-! ## The fetch (R265, R267, R269) -/

section
variable {s t : State} {id n e pa leaf : Nat} {h : Hart} {ch ch' : Channel} {va : Word}

/-- Nothing is recorded of the pieces of good bytes. -/
theorem recordPieces_goodBytes {size : Nat} (src : Nat) (hgood : badBytes s pa size = false) :
    recordPieces s src (piecesOf pa size) = s :=
  recordPieces_good s src _ fun p hp => by simpa using List.any_eq_false.1 hgood p hp

/-- An element of the remote window is asked for there. -/
theorem fetchElement_remote (hplace : elementPlace s id n h ch e = (t, .ok (ch', va, pa, leaf))) (hr : regionOf pa = .remote) :
    fetchElement s id n h ch e = some ((sendAccess t ⟨id, true, pa, va, h.pc, ch'.dest, e, some n,
      List.replicate ((h.getV ch'.dest).tag.width / 8) 0, none, 0, 0⟩).modHart id (fun h => { h with chans := put h.chans n ch' })) := by
  unfold fetchElement
  rw [hplace]
  exact if_pos hr

/-- A strip that the film holds back waits. -/
theorem fetchElement_held (hplace : elementPlace s id n h ch e = (t, .ok (ch', va, pa, leaf))) (hr : regionOf pa ≠ .remote)
    (hheld : stripHeld t h ch' e (leafRec leaf) = true) : fetchElement s id n h ch e = holdStrip t id h := by
  unfold fetchElement
  rw [hplace]
  exact (if_neg hr).trans (if_pos hheld)

/-- Any other element is read where it lies, and delivered. -/
theorem fetchElement_read (hplace : elementPlace s id n h ch e = (t, .ok (ch', va, pa, leaf))) (hr : regionOf pa ≠ .remote)
    (hheld : stripHeld t h ch' e (leafRec leaf) = false) :
    let size := (h.getV ch'.dest).tag.width / 8
    let u := readAccess t [(pa, leafUc leaf)] false (.stream id n)
    badBytes u pa size = false → fetchElement s id n h ch e =
      deliverElement u id n ((u.hart? id).getD h) ch' e ⟨e - ch'.k * ch'.strip, loadNat u pa size, false⟩ (leafRec leaf) := by
  intro size u hgood
  unfold fetchElement
  rw [hplace]
  refine (if_neg hr).trans ((if_neg (ne_true_of_eq_false hheld)).trans ?_)
  dsimp only
  rw [if_neg (ne_true_of_eq_false hgood), recordPieces_goodBytes 2 hgood]

/-- An element that does not end a strip to be filmed comes into the buffer, and wakes the hart. -/
theorem deliverElement_quiet {x : Elem} (hend : ¬((ch.take e).m = ch.stop ∧ ch.recRead = true)) :
    deliverElement s id n h ch e x false = some (s.setHart id { h.setV ch.dest ((h.getV ch.dest).writeElems (h.getV ch.dest).tag.width [x]) with
      chans := put h.chans n { ch.take e with recRead := ch.recRead }
      wait := if h.wait = .channel n then .none else h.wait }) := by
  unfold deliverElement
  dsimp only
  rw [Bool.or_false]
  exact if_neg hend

/-- The elements that the strip of channel n lacks and that are not on their way from the remote window. -/
abbrev fetchable (s : State) (id n : Nat) (ch : Channel) : List Nat :=
  let sent := (s.outstanding.filter (fun o => o.2.hart == id && o.2.chan == some n)).map (·.2.idx)
  ch.missing.filter (fun e => !sent.contains e)

/-- The one that a fetch picks. -/
abbrev fetchPick (s : State) (id n : Nat) (ch : Channel) : Nat :=
  (fetchable s id n ch).getD (Config.pick s.free % (fetchable s id n ch).length) ch.m

/-- What a fetch finds among the missing elements up to the one that it picks: the lowest that meets a cause. -/
abbrev fetchLooks (s : State) (id n : Nat) (h : Hart) (ch : Channel) : State × Channel × Option (Nat × Cause × Word) :=
  lowestFault id n h (ch.missing.filter (fun a => decide (a ≤ fetchPick s id n ch))) { s with free := s.free + 1 } ch

/-- `STREAM_FETCH` records the fault that it finds, else it leaves what the fetch of the element leaves. -/
theorem execStreamFetch_ends (hh : s.hart? id = some h) (hch : find? h.chans n = some ch) (hstatus : h.status = .resident)
    (hshadow : find? s.shadows id = none) (hl : fetchable s id n ch ≠ []) :
    let f := fetchLooks s id n h ch
    (∀ x, f.2.2 = some x → execStreamFetch id n s = .next (f.1.modHart id (fun h => { h with
      chans := put h.chans n { f.2.1 with fault := some x }
      wait := if h.wait = .channel n then .none else h.wait }))) ∧
    (f.2.2 = none → ∀ t, fetchElement f.1 id n ((f.1.hart? id).getD h) f.2.1 (fetchPick s id n ch) = some t →
      execStreamFetch id n s = .next t) := by
  intro f
  have hoccurs : ¬(h.status ≠ .resident ∨ (find? s.shadows id).isSome ∨ (fetchable s id n ch).isEmpty) := by
    simp [hstatus, hshadow, hl]
  have hlooks : ∀ {x}, f.2.2 = x → lowestFault id n h (ch.missing.filter (fun a => decide (a ≤ fetchPick s id n ch)))
      { s with free := s.free + 1 } ch = (f.1, f.2.1, x) := fun hx => hx ▸ rfl
  refine ⟨fun x hx => ?_, fun hx t ht => ?_⟩
  all_goals
    unfold execStreamFetch
    rw [hh]
    dsimp only
    rw [hch]
    refine (if_neg hoccurs).trans ?_
    rw [hlooks hx]
  dsimp only
  rw [ht]

end

end Sys2Proof.Machine

open Sys2Proof Sys2Proof.Machine

/-- Settles O51: the instructions, and the steps of the fetch. -/
theorem channelsComplete : Obligations.ChannelsComplete := by
  unfold Obligations.ChannelsComplete
  refine ⟨?_, ?_, ?_, ?_, ?_⟩
  · intro s id h d a n pa leaf c₁ i hi hl hplace c₂ hfields ch w hw hopen hsettled c₃
    have hbind := bindChannel_ok (d := d) (n := n) (va := h.getX a) hfields hw hopen hsettled
    exact ⟨fun hheld => scfg_completes hi hl hplace (hbind.trans (congrArg Except.ok (if_pos hheld))),
      fun hfree => scfg_completes hi hl hplace (hbind.trans (congrArg Except.ok (if_neg (ne_true_of_eq_false hfree))))⟩
  · intro s id h n hl
    refine ⟨fun ch hi hch => sstep_completes hi hl hch, fun d hi hfilm => sstat_completes hi hl hfilm, fun hi => ?_⟩
    exact ⟨sclose_unbound hi hl, sclose_bound hi hl⟩
  · intro s id n h ch hh hch hstatus hshadow sent l hl
    exact execStreamFetch_ends hh hch hstatus hshadow hl
  · intro s t id n e va pa leaf h ch ch' hplace
    exact ⟨fetchElement_remote hplace, fun hr => ⟨fetchElement_held hplace hr, fetchElement_read hplace hr⟩⟩
  · exact fun s id n e h ch x => deliverElement_quiet

end

section
/-! SUPPORT. Waiting, the return from a trap, and the instructions that trap or count (R272 to R275, R301, R331). -/

namespace Sys2Proof.Machine

section
variable {s : State} {id : Nat} {h : Hart}

/-! ## `WAITEV` (R273) -/

variable {d a : XReg} {m : BitVec 12}

/-- The lane cycle at which a `WAITEV` of the hart first issued. -/
def Hart.waitStart (h : Hart) (s : State) : Nat := h.waitFrom.getD (s.col h.column).cycles

theorem waitev_completes (hi : Issues s id h (.waitev d a m)) (hm : m.toNat < 64) (hfilm : h.filmMode = 0) :
    let c := begun s id h (.waitev d a m)
    let held := eventsHeld s id c.h m.toNat
    held ≠ 0 ∨ timedOut s h (h.waitStart s) (h.getX a).toNat = true →
    Completes (.waitev d a m) s h (c.setX d (BitVec.ofNat 64 held)) := by
  intro c held hends
  exact issue_ok hi (bind_ok (legal_true (decide_eq_true hm) c) (filmed_runs hfilm (if_pos hends) rfl))

theorem waitev_waits (hi : Issues s id h (.waitev d a m)) (hm : m.toNat < 64) (hfilm : h.filmMode = 0) :
    let c := begun s id h (.waitev d a m)
    eventsHeld s id c.h m.toNat = 0 → timedOut s h (h.waitStart s) (h.getX a).toNat = false →
    exec (.waitev d a m) s = .next { s.setHart id { c.h with
      waitFrom := some (h.waitStart s), pfx := h.pfx, wait := .waitev m.toNat } with cur := none } := by
  intro c hnone htime
  have hpending : ¬(eventsHeld s id c.h m.toNat ≠ 0 ∨ timedOut s h (h.waitStart s) (h.getX a).toNat = true) := by
    simp [hnone, htime]
  refine issue_wait hi (w := .waitev m.toNat) (c := { c with h := { c.h with waitFrom := some (h.waitStart s) } }) ?_ Wait.noConfusion
  refine bind_ok (legal_true (decide_eq_true hm) c) ?_
  dsimp only
  rw [filmed_off _ _ _ _ _ hfilm]
  exact congrArg (· >>= _) (if_neg hpending)

end

section
variable {s : State} {id : Nat} {h : Hart} {code : BitVec 12}

/-! ## `TRAP` and `RFT` (R272, R274) -/

theorem trap_major (code : BitVec 12) : (Instr.trap code).major = some 0x3E :=
  major_fixed rfl (cons_sum_le (putAt_le ..) nil_sum_le) (by decide) (by decide)

theorem trap_completes (hi : Issues s id h (.trap code)) (hc : h.caughtUp = true) :
    Completes (.trap code) s h ((begun s id h (.trap code)).later (.swTrap (code.setWidth 64))) :=
  issue_ok hi (bind_ok (afterAll_ok _ hc) rfl)

/-- Without debug it retires, and then raises `SWTRAP` with its code. -/
theorem trap_delivers (hi : Issues s id h (.trap code)) (hc : h.caughtUp = true) (hctl : h.ctl = 0) :
    exec (.trap code) s = .next (deliver { s with cur := none } id
      ((begun s id h (.trap code)).h.after (.trap code) ((loopNext h).1, (loopNext h).2.1)) .swTrap (loopNext h).1 (code.setWidth 64)) := by
  have hpast := outruns_low (trap_major code) (by decide) h ((begun s id h (.trap code)).later (.swTrap (code.setWidth 64)))
  exact (trap_completes hi hc).trans (congrArg Host.Outcome.next (retire_swTrap _ _ _ _ hctl rfl rfl hpast))

theorem trap_held (hi : Issues s id h (.trap code)) (hc : h.caughtUp = false) : exec (.trap code) s = .next (holdBack s id h) := by
  refine issue_held hi (c := begun s id h (.trap code)) (congrArg (· >>= _) (afterAll_wait _ hc)) hc ?_
  simp only [queueable, trap_major, Option.any_some]
  decide

theorem rft_completes (hi : Issues s id h .rft) (hl : OffLoopEnd h) (halign : h.trappc.toNat % 4 = 0) :
    let c := begun s id h .rft
    Completes .rft s h ((({ c with h := { returnFromTrap c.h with pc := h.pc } } : Ctx).jump h.trappc).later
      (.frame 3 (s.pcOffset h h.trappc))) :=
  issue_ok hi (bind_ok (notAtLoopEnd_ok _ hl) (bind_ok (need_true (beq_iff_eq.2 halign) ..) rfl))

/-! ## `HALT` (R275) -/

theorem halt_completes (hi : Issues s id h .halt) (hmode : h.mode = .steward) (hc : h.caughtUp = true) :
    let c := begun s id h .halt
    Completes .halt s h { c with h := { c.h with presented := some ⟨none, (loopNext h).1, 0, h.inh, (s.col h.column).errcol⟩ } } :=
  issue_ok hi (bind_ok (need_true (beq_iff_eq.2 hmode) ..) (bind_ok (afterAll_ok _ hc) rfl))

theorem halt_held (hi : Issues s id h .halt) (hmode : h.mode = .steward) (hc : h.caughtUp = false) :
    exec .halt s = .next (holdBack s id h) :=
  issue_held hi (c := begun s id h .halt)
    (bind_ok (need_true (beq_iff_eq.2 hmode) ..) (congrArg (· >>= _) (afterAll_wait _ hc))) hc rfl

theorem halt_priv (hi : Issues s id h .halt) (hmode : h.mode = .task) : Traps .halt s id h .priv (begun s id h .halt).word := by
  have hbad : ((begun s id h .halt).h.mode == .steward) = false := by
    change (h.mode == .steward) = false
    rw [hmode]
    rfl
  exact issue_trap hi (congrArg (· >>= _) (need_false hbad ..)) rfl

/-! ## `BBH` and `BKPT` (R128, R275, R331) -/

variable {a : XReg} {imm : BitVec 12}

/-- Without a base nothing is counted. -/
theorem bbh_noBase (hi : Issues s id h (.bbh a imm)) (hbase : h.bbcbase = 0) :
    Completes (.bbh a imm) s h (begun s id h (.bbh a imm)) := issue_ok hi (if_pos hbase)

theorem bbh_counts {pa leaf : Nat} {c₁ : Ctx} (hi : Issues s id h (.bbh a imm)) (hbase : h.bbcbase ≠ 0)
    (hplace : placeGeneric (begun s id h (.bbh a imm)) (h.bbcbase + 8 * (h.getX a + imm.signExtend 64)) 8 ⟨true, true, false⟩ =
      .ok ((pa, leaf), c₁)) : Completes (.bbh a imm) s h (c₁.global (fun s => countBlock s c₁.h.column pa)) := by
  have hdbg : c₁.h.dbg = none := (congrArg Hart.dbg (placeGeneric_h hplace).1).trans hi.noDebug
  exact issue_ok hi ((if_neg hbase).trans (bind_ok hplace (bind_ok (dataWaypoints_none c₁ _ _ hdbg) rfl)))

theorem bkpt_traps (hi : Issues s id h (.bkpt code)) : Traps (.bkpt code) s id h .bkpt (code.setWidth 64) := issue_trap hi rfl rfl

end

end Sys2Proof.Machine

open Sys2Proof Sys2Proof.Machine

/-- Settles O52, instruction by instruction. -/
theorem waitAndTrapInstructions : Obligations.WaitAndTrapInstructions := by
  unfold Obligations.WaitAndTrapInstructions
  intro s id h
  refine ⟨fun d a m hi hm hfilm => ⟨waitev_completes hi hm hfilm, waitev_waits hi hm hfilm⟩, fun code hi => ⟨fun hc =>
    ⟨trap_completes hi hc, trap_delivers hi hc⟩, trap_held hi⟩, rft_completes, fun hi => ⟨halt_completes hi, halt_held hi, halt_priv hi⟩,
    fun a imm hi => ⟨bbh_noBase hi, fun pa leaf c₁ => bbh_counts hi⟩, fun code => bkpt_traps⟩

end

section
/-! SUPPORT. The machine right after bring-up (R10, R276, R305, R311, R312, R341, R360, R362). -/

open Sys2Proof Sys2Proof.Machine

/-- Settles O6: each part of the state right after bring-up is the one that `State.reset` gives it, unlisted parts their default. -/
theorem resetState : Obligations.ResetState := by
  unfold Obligations.ResetState
  exact ⟨rfl, rfl, fun _ => rfl, fun _ => ⟨rfl, rfl, rfl⟩, fun _ => rfl, fun _ => ⟨rfl, rfl, rfl, rfl⟩, fun _ => ⟨rfl, rfl, rfl⟩, rfl,
    fun _ => BitVec.getLsbD_zero⟩

/-- Settles O7: the memory of a module right after bring-up lists no byte. -/
theorem resetMemory : Obligations.ResetMemory := by
  unfold Obligations.ResetMemory
  rfl

end

section
/-! SUPPORT. `KEYREL`, `KEYQ` and `STRIP` where their conditions hold (R59, R259 to R261, R295). -/

namespace Sys2Proof.Machine

section
variable {s : State} {id : Nat} {h : Hart} {d a : XReg} {p : PReg}

/-- A key number below 2^24 is the key's (R259). -/
theorem keyId_ok {c : Ctx} (hk : (c.x a).toNat < 2 ^ 24) : keyId c a = .ok (c.x a).toNat :=
  bind_ok (need_true (decide_eq_true hk) ..) rfl

theorem keyrel_completes (hi : Issues s id h (.keyrel a)) (hk : (h.getX a).toNat < 2 ^ 24) :
    let c := (begun s id h (.keyrel a)).drainElems.drainStores
    Completes (.keyrel a) s h { c with
      s := c.s.modTask c.h.task (fun t => { t with held := t.held.filter (fun k => k.id != (h.getX a).toNat) }) } :=
  issue_ok hi (bind_ok (keyId_ok (c := begun s id h (.keyrel a)) hk) rfl)

theorem keyq_completes (hi : Issues s id h (.keyq d a)) (hk : (h.getX a).toNat < 2 ^ 24) (hfilm : h.filmMode = 0) :
    Completes (.keyq d a) s h ((begun s id h (.keyq d a)).setX d (keyState s h.task (h.getX a).toNat)) :=
  issue_ok hi (bind_ok (keyId_ok (c := begun s id h (.keyq d a)) hk) (filmed_runs hfilm rfl rfl))

/-- A claim of a strip that is left takes what is asked for, up to the limit and the end of the farm (R295). -/
theorem claimStrip_left {t : Task} {q limit : Nat} (hf : t.srec.farm ≠ 0 ∧ t.farm < t.srec.farm) :
    claimStrip t q limit = (t.farm, min q (min limit (t.srec.farm - t.farm)), true) := by
  unfold claimStrip
  rw [if_neg hf.1, if_neg (Nat.not_le.2 hf.2)]

/-- Where none is left the claim answers the farm total, count 0 and false (R295). -/
theorem claimStrip_done {t : Task} {q limit : Nat} (hf : ¬(t.srec.farm ≠ 0 ∧ t.farm < t.srec.farm)) :
    claimStrip t q limit = (t.srec.farm, 0, false) := by
  unfold claimStrip
  by_cases h0 : t.srec.farm = 0
  · rw [if_pos h0, h0]
  · rw [if_neg h0, if_pos (Nat.not_lt.1 fun hlt => hf ⟨h0, hlt⟩)]

/-- `STRIP` answers what its claim of the task's farm gives (R59, R295). -/
theorem strip_completes {t : Task} {r : Nat × Nat × Bool} (hi : Issues s id h (.strip d a p)) (heven : d.toNat % 2 = 0)
    (hlow : 2 ≤ d.toNat) (hhigh : d.toNat ≤ 28) (hx : (h.getX a).toNat < 2 ^ 50) (hfilm : h.filmMode = 0)
    (ht : s.task? h.task = some t) (hclaim : claimStrip t ((h.getX a).toNat % 2 ^ 48)
      (if h.lanes = 0 then (h.getX a).toNat % 2 ^ 48 else h.vlmax * 32 / widthOf ((h.getX a).toNat / 2 ^ 48)) = r) :
    let c := begun s id h (.strip d a p)
    Completes (.strip d a p) s h
      (((({ c with s := s.setTask h.task { t with farm := if r.2.2 then t.farm + r.2.1 else t.farm } } : Ctx).setX d
        (BitVec.ofNat 64 r.1)).setX (d + 1) (BitVec.ofNat 64 r.2.1)).setP p r.2.2) := by
  intro c
  refine issue_ok hi (bind_ok (legal_true (by simp [heven, hlow, hhigh]) c) (bind_ok (need_true (decide_eq_true hx) ..) ?_))
  subst hclaim
  refine filmed_runs hfilm (v := ⟨_, _, _⟩) ?_ rfl
  dsimp only
  rw [show c.task? = some t from ht]
  rfl

end

end Sys2Proof.Machine

open Sys2Proof Sys2Proof.Machine

/-- Settles O49, instruction by instruction; what `STRIP` claims depends on whether the farm has a strip left. -/
theorem keysAndStripsComplete : Obligations.KeysAndStripsComplete := by
  unfold Obligations.KeysAndStripsComplete
  intro s id h
  refine ⟨fun a => keyrel_completes, fun d a => keyq_completes, ?_⟩
  intro d a p t hi heven hlow hhigh hx hfilm c ht q limit left n
  by_cases hleft : t.srec.farm ≠ 0 ∧ t.farm < t.srec.farm
  · rw [if_pos hleft]
    exact strip_completes (r := (t.farm, n, true)) hi heven hlow hhigh hx hfilm ht (claimStrip_left hleft)
  · rw [if_neg hleft]
    exact strip_completes (r := (t.srec.farm, 0, false)) hi heven hlow hhigh hx hfilm ht (claimStrip_done hleft)

end

section
/-! SUPPORT. Taking an exception, and the steps of trap delivery and of the steward's resumption (R69, R136, R296, R297, R299 to R303, R329). -/

namespace Sys2Proof.Machine

/-! ## Taking an exception (R297, R299) -/

section
variable {s : State} {id : Nat} {h : Hart} {cause : Cause} {pc info : Word}

/-- What a hart waited for, and what its instruction at hand had on its way, is dropped when it takes an exception (R299). -/
def Hart.interrupted (h : Hart) : Hart :=
  { h with wait := .none, coll := none, remote := [], arrived := [], waitFrom := none, refDone := 0, issueAt := none, stalls := 0, tlbMissed := 0 }

/-- With CTL 0 no frame is written, and a cause that its hart takes itself enters the task vector (R299). -/
theorem deliver_vector (hc : h.ctl = 0) (hr : routedToTask s h.interrupted cause info = true) (hv : h.trapvec.toNat / 4 ≠ 0)
    (hi : h.inh = false) : deliver s id h cause pc info = s.setHart id (enterVector h.interrupted cause pc info) := by
  unfold deliver
  rw [writeFrame_off s h _ _ _ hc]
  exact if_pos ⟨hr, hv, congrArg not hi⟩

/-- Any other cause is presented to the steward; only one of debug may stop a gang as well (R297, R325). -/
theorem deliver_presented (hc : h.ctl = 0)
    (hn : routedToTask s h.interrupted cause info = false ∨ h.trapvec.toNat / 4 = 0 ∨ h.inh = true)
    (hd : cause ≠ .bkpt ∧ cause ≠ .waypoint ∧ cause ≠ .step) :
    deliver s id h cause pc info = s.setHart id { h.interrupted with
      presented := some ⟨some cause, pc, info, h.inh, (s.col h.column).errcol⟩, mode := .steward } := by
  obtain ⟨hbkpt, hwaypoint, hstep⟩ := hd
  have hnot : ¬(routedToTask s h.interrupted cause info = true ∧ h.interrupted.trapvec.toNat / 4 ≠ 0 ∧ (!h.interrupted.inh) = true) := by
    rintro ⟨hr, hv, hi⟩
    rcases hn with hn | hn | hn
    · exact Bool.false_ne_true (hn.symm.trans hr)
    · exact hv hn
    · rw [show h.interrupted.inh = true from hn] at hi
      exact Bool.false_ne_true hi
  unfold deliver
  rw [writeFrame_off s h _ _ _ hc]
  refine (if_neg hnot).trans ?_
  split
  · exact absurd rfl hbkpt
  · exact absurd rfl hwaypoint
  · exact absurd rfl hstep
  · rfl

end

/-! ## Delivery at a boundary (R301, R302) -/

section
variable {s : State} {id : Nat} {h : Hart}

theorem execTrapDelivery_next {cause : Cause} (pc info : Word) (hh : s.hart? id = some h) (hs : causeAsync cause = false)
    (hr : allRetired s id h = true) : execTrapDelivery id cause pc info s = .next (deliver s id h cause pc info) := by
  unfold execTrapDelivery
  rw [hh]
  exact if_neg (by simp [hs, hr])

theorem execAsyncDelivery_next {cause : Cause} {info : Word} {h' : Hart} (hh : s.hart? id = some h) (hr : allRetired s id h = true)
    (hw : h.wait = .none) (hl : h.leaving = false) (hd : dueAsync s id h = some (cause, info, h')) :
    execAsyncDelivery id s = .next (deliver s id h' cause h.pc info) := by
  have hdue : deliverDue s id h = some (deliver s id h' cause h.pc info) := by
    unfold deliverDue
    rw [if_neg (by simp [hr, hw, hl]), hd]
    rfl
  unfold execAsyncDelivery
  rw [hh, Option.bind_some, hdue]

/-! ## The steward's hand on a hart (R16, R69, R300, R303) -/

/-- What the steward may do to a hart that is not presented changes none of its registers and not its pc, and its TCM share only while it
is Saved; its residency stays. -/
structure Beside (g h : Hart) : Prop where
  x      : g.x = h.x
  p      : g.p = h.p
  v      : g.v = h.v
  pc     : g.pc = h.pc
  status : g.status = h.status
  tcm    : h.status ≠ .saved → g.tcm = h.tcm

theorem Beside.trans {f g h : Hart} (a : Beside f g) (b : Beside g h) : Beside f h :=
  ⟨a.x.trans b.x, a.p.trans b.p, a.v.trans b.v, a.pc.trans b.pc, a.status.trans b.status,
    fun hs => (a.tcm (fun hg => hs (b.status.symm.trans hg))).trans (b.tcm hs)⟩

theorem Beside.refl (h : Hart) : Beside h h := ⟨rfl, rfl, rfl, rfl, rfl, fun _ => rfl⟩

theorem Beside.ite {f g h : Hart} {q : Prop} [Decidable q] (a : Beside f h) (b : Beside g h) : Beside (if q then f else g) h := by
  split
  · exact a
  · exact b

theorem beside_filmbase (h : Hart) (v : Word) : Beside { h with filmbase := v } h := ⟨rfl, rfl, rfl, rfl, rfl, fun _ => rfl⟩

/-- A write of the debug block changes of the hart only CTL and what follows it (R321, R324). -/
theorem writeBlock_beside (c : Ctx) (off : Nat) (b : Byte) : Beside (writeBlock c off b).h c.h := by
  have hctl (ctl : BitVec 32) : Beside (if off < 4 then c.h.withCtl ctl else c.h) c.h :=
    Beside.ite ⟨rfl, rfl, rfl, rfl, rfl, fun _ => rfl⟩ (.refl _)
  unfold writeBlock
  split
  · split
    · exact Beside.ite ((beside_filmbase _ _).trans (hctl _)) (hctl _)
    · exact .refl _
  · exact .refl _

/-- Each thing that the steward may do with no hart presented leaves the hart as `Beside` says (R16, R69, R321). -/
theorem stewardEdit_beside {c : Ctx} {x : StewardEdit} (hx : aside x = true) : Beside (stewardEdit c x).h c.h := by
  cases x <;> simp only [aside, Bool.false_eq_true] at hx
  case tcm off b =>
    by_cases hw : off < c.header.tcmstack ∧ c.h.status = .saved
    · rw [show stewardEdit c (.tcm off b) = _ from if_pos hw]
      exact ⟨rfl, rfl, rfl, rfl, rfl, fun hs => absurd hw.2 hs⟩
    · rw [show stewardEdit c (.tcm off b) = c from if_neg hw]
      exact .refl _
  case code off b => exact .refl _
  case testRow way off b =>
    unfold stewardEdit
    dsimp only
    split
    · exact .refl _
    · exact .refl _
  case block off b => exact writeBlock_beside c off b

theorem stewardEdits_beside {xs : List StewardEdit} : ∀ {c : Ctx}, (∀ x ∈ xs, aside x = true) → Beside (xs.foldl stewardEdit c).h c.h := by
  induction xs with
  | nil => exact fun _ => .refl _
  | cons x xs ih => exact fun hx => (ih fun y hy => hx y (.tail _ hy)).trans (stewardEdit_beside (hx x (.head _)))

theorem execStewardResume_presented {p : Presented} (pc : Option Word) (xs : List StewardEdit) (hh : s.hart? id = some h)
    (hp : h.presented = some p) :
    let c := xs.foldl stewardEdit ⟨s, id, { h with mode := .steward }, p.pc, false, none, 0, []⟩
    (pc.getD c.npc).toNat % 4 = 0 →
    execStewardResume id pc xs s = .next (c.s.setHart id { c.h with presented := none, mode := .task, pc := pc.getD c.npc, exempt := true }) := by
  intro c halign
  unfold execStewardResume
  rw [hh]
  dsimp only
  split
  · exact absurd (hp.symm.trans ‹h.presented = none›) (by simp)
  · obtain rfl := Option.some.inj (hp.symm.trans ‹h.presented = some _›)
    exact if_neg (not_not_intro halign)

theorem execStewardResume_aside {xs : List StewardEdit} (hh : s.hart? id = some h) (hp : h.presented = none)
    (hs : find? s.shadows id = none) (hne : xs ≠ []) (hx : ∀ x ∈ xs, aside x = true) :
    let c := xs.foldl stewardEdit ⟨s, id, h, h.pc, false, none, 0, []⟩
    execStewardResume id none xs s = .next (c.s.setHart id c.h) := by
  unfold execStewardResume
  rw [hh]
  dsimp only
  rw [hp]
  exact if_neg (by simp [hs, hne, List.all_eq_true.2 hx])

theorem execStewardDeliver_next {cause : Cause} {pc info e : Word} {inh : Bool} (hh : s.hart? id = some h)
    (hp : h.presented = some ⟨some cause, pc, info, inh, e⟩) (hv : h.trapvec.toNat / 4 ≠ 0) :
    let f := writeFrame s { h with presented := none } 2 pc (causeCode cause)
    execStewardDeliver id s = .next (f.1.setHart id (enterVector f.2 cause pc info)) := by
  unfold execStewardDeliver
  rw [hh]
  dsimp only
  rw [hp]
  exact if_neg hv

end

end Sys2Proof.Machine

open Sys2Proof Sys2Proof.Machine

/-- Settles O53: the cause enters the task vector, or is presented to the steward. -/
theorem trapEntry : Obligations.TrapEntry := by
  unfold Obligations.TrapEntry
  exact fun s id h cause pc info hc => ⟨deliver_vector hc, fun hn hbkpt hwaypoint hstep => deliver_presented hc hn ⟨hbkpt, hwaypoint, hstep⟩⟩

/-- Settles O55, step by step. -/
theorem trapStepsComplete : Obligations.TrapStepsComplete := by
  unfold Obligations.TrapStepsComplete
  intro s id h hh
  refine ⟨fun cause pc info => execTrapDelivery_next pc info hh, fun cause info h' => execAsyncDelivery_next hh,
    fun p pc xs => execStewardResume_presented pc xs hh, fun xs hp hs hne hx => ?_, fun cause pc info inh e => execStewardDeliver_next hh⟩
  have hbeside := stewardEdits_beside (c := ⟨s, id, h, h.pc, false, none, 0, []⟩) hx
  exact ⟨execStewardResume_aside hh hp hs hne hx, hbeside.x, hbeside.p, hbeside.v, hbeside.pc, hbeside.tcm⟩

end

section
/-! SUPPORT. The steps of the queue scheduler, the dispatcher and the allocator where they can occur (R51 to R57, R74, R252 to R254, R276 to
R287, R303). -/

namespace Sys2Proof.Machine

/-! ## Slots (R279) -/

section
variable {s : State}

theorem execQueueBind_next {q : Nat} (hfree : s.slots.length < 64) (hn : nextQueue (unbound s) = some q) :
    execQueueBind s = .next { s with slots := s.slots ++ [(q, s.order)], order := s.order + 1 } := by
  unfold execQueueBind
  rw [if_neg (Nat.not_le.2 hfree), hn]

theorem execQueueUnbind_next {n q k since : Nat} (hslot : s.slots[n]? = some (q, since))
    (hn : nextQueue ((unbound s).filter (fun e => decide (e.2.1 ≤ headClass s q))) = some k) :
    execQueueUnbind n s = .next { s with slots := s.slots.set n (k, s.order), order := s.order + 1 } := by
  unfold execQueueUnbind
  rw [hslot]
  dsimp only
  rw [hn]

end

/-! ## The dispatcher's first sight of a record (R51, R54, R74, R283) -/

/-- The dispatcher is to see the record at the head of a queue: the queue is enabled and bound, and its head has come and is not yet seen. -/
structure HeadDue (s : State) (q : Nat) : Prop where
  enabled : (s.queue q).state = 1
  come    : (s.queue q).head < (s.queue q).tail
  unseen  : (s.queue q).seen = none
  bound   : ∃ e ∈ s.slots, e.1 = q

section
variable {s : State} {q : Nat} (hd : HeadDue s q)
include hd

theorem HeadDue.occurs : ¬((s.queue q).state ≠ 1 ∨ (s.queue q).tail ≤ (s.queue q).head ∨ (s.queue q).seen.isSome = true ∨
    (!(s.slots.any (·.1 == q))) = true) := by
  obtain ⟨e, he, hq⟩ := hd.bound
  have hbound : s.slots.any (·.1 == q) = true := List.any_eq_true.2 ⟨e, he, beq_iff_eq.2 hq⟩
  simp [hd.enabled, hd.unseen, hd.come, hbound]

variable {s₁ : State} {r : StartRecord} (hrec : headRecord s (s.queue q) = (s₁, r))
include hrec

/-- A record whose header address is 0 is passed over (R53). -/
theorem execDispatchHead_null (hk : r.khdr = 0) : execDispatchHead q s = .next (takeHead s₁ q) := by
  unfold execDispatchHead
  dsimp only
  rw [if_neg hd.occurs, hrec]
  exact if_pos hk

variable (hk : r.khdr ≠ 0)
include hk

theorem execDispatchHead_badRecord (hr : recordOk (look (s.queue q).lanesAt (s.queue q).head (usableLanes s₁)) r = false) :
    execDispatchHead q s = .next (reject s₁ q (s.queue q) r 0x18) := by
  unfold execDispatchHead
  dsimp only
  rw [if_neg hd.occurs, hrec]
  exact (if_neg hk).trans (if_pos (by rw [hr]; rfl))

variable (hr : recordOk (look (s.queue q).lanesAt (s.queue q).head (usableLanes s₁)) r = true)
include hr

theorem execDispatchHead_badHeader {s₂ : State} {st : Nat} (hh : checkHeader s₁ (s.queue q).root r = (s₂, .error st)) :
    execDispatchHead q s = .next (reject s₂ q (s.queue q) r st) := by
  unfold execDispatchHead
  dsimp only
  rw [if_neg hd.occurs, hrec]
  dsimp only
  rw [if_neg hk, if_neg (by simp [hr]), hh]

variable {s₂ : State} {k : KernelHeader} (hh : checkHeader s₁ (s.queue q).root r = (s₂, .ok k))
include hh

theorem execDispatchHead_badPages {s₃ : State} (hp : checkPages s₂ (s.queue q).root r = (s₃, none)) :
    execDispatchHead q s = .next (reject s₃ q (s.queue q) r 0x19) := by
  unfold execDispatchHead
  dsimp only
  rw [if_neg hd.occurs, hrec]
  dsimp only
  rw [if_neg hk, if_neg (by simp [hr]), hh]
  dsimp only
  rw [hp]

/-- A record that passes every check but perhaps that of its counter is rejected for a bad one, or becomes a task (R31, R53, R283). -/
theorem execDispatchHead_seen {s₃ s₄ : State} {pages : List PageEntry} {dep : DepRead}
    (hp : checkPages s₂ (s.queue q).root r = (s₃, some pages)) (hc : readCounter s₃ (s.queue q).root (s.queue q).part r = (s₄, dep)) :
    execDispatchHead q s = .next (if dep = .bad then reject s₄ q (s.queue q) r 0x18
      else askCounter { (s₄.setTask s₄.nextTask { newTask s₄ q (s.queue q) r k pages with depMet := dep == .met }).setQueue q
        { s₄.queue q with seen := some s₄.nextTask } with nextTask := s₄.nextTask + 1, stamps := s₄.stamps + 1 } s₄.nextTask dep) := by
  unfold execDispatchHead
  dsimp only
  rw [if_neg hd.occurs, hrec]
  dsimp only
  rw [if_neg hk, if_neg (by simp [hr]), hh]
  dsimp only
  rw [hp]
  dsimp only
  rw [hc]
  cases dep with
  | bad => rfl
  | met => rfl
  | notMet => rfl
  | away pa => rfl

end

/-! ## Counters in the remote window (R341, R346) -/

theorem askCounter_asked {s : State} {n pa : Nat} (he : ∃ e ∈ s.hubOut, e.2.task = n ∧ e.2.load = true) : askCounter s n (.away pa) = s :=
  if_pos (by simpa using he)

theorem askCounter_sends {s : State} {n pa : Nat} (he : ∀ e ∈ s.hubOut, e.2.task = n → e.2.load = false) :
    askCounter s n (.away pa) = (sendHub s n true pa (List.replicate 8 0)).getD s := by
  refine if_neg ?_
  rw [Bool.not_eq_true, List.any_eq_false]
  intro e hm
  by_cases ht : e.2.task = n
  · simp [he e hm ht]
  · simp [ht]

/-! ## Rereading, aging, granting and ending (R52 to R57, R252 to R254, R281, R286, R287, R303) -/

/-- The state that a read of task n's counter leaves, by what the read has found. -/
def afterReread (s : State) (n : Nat) (t : Task) : DepRead → State
  | .met => s.setTask n { t with depMet := true }
  | .notMet => s
  | .away pa => askCounter s n (.away pa)
  | .bad => takeHead ((writeCompletionRecord s n t.root t.part t.srec.crec (completionBytes t 0x18 0 0xFFFFFFFF 0 0 0)).setTask n
      { t with phase := .done, status := 0x18, written := true }) t.queue

section
variable {s : State} {n : Nat} {t : Task} (ht : s.task? n = some t)
include ht

/-- The dispatcher reads the counter of a task that is visible and waits for it. -/
theorem execDependenceReread_next {s' : State} {dep : DepRead} (hp : t.phase = .waiting) (hm : t.depMet = false) (hv : visible s n t = true)
    (hc : readCounter s t.root t.part t.srec = (s', dep)) : execDependenceReread n s = .next (afterReread s' n t dep) := by
  unfold execDependenceReread
  rw [ht]
  dsimp only
  rw [if_neg (by simp [hp, hm, hv]), hc]
  cases dep with
  | bad => rfl
  | met => rfl
  | notMet => rfl
  | away pa => rfl

theorem execAgingTick_next (hp : t.phase ≠ .done) (hm : t.depMet = true) (hl : t.lacking s = true) :
    execAgingTick n s = .next (s.setTask n { t with aged := if t.aged ≤ 1 then t.aged else t.aged - 1 }) := by
  unfold execAgingTick
  rw [ht]
  exact if_neg (by simp [hp, hm, hl])

/-- The start of a task is the grant of its first harts, once it has its keys and its record has left the ring (R52, R54). -/
theorem execTaskStart_grant (picks : List Nat) (he : eligible s n t = true) (hp : canPlace s [] n t = true)
    (hb : heldBack s n t (wantedLanes s t) = false) :
    execTaskStart n picks s = grant (takeHead (s.setTask n { t with phase := .started, held := t.keys }) t.queue) n t t.batch picks := by
  unfold execTaskStart
  rw [ht]
  exact if_neg (by simp [he, hp, hb])

/-- A further hart of a started task that is no gang (R56). -/
theorem execHartGrant_grant (picks : List Nat) (hp : t.phase = .started) (hs : t.status = 0) (hmode : t.srec.mode % 2 = 0)
    (hg : t.granted < t.srec.harts) (hb : heldBack s n t (wantedLanes s t) = false) : execHartGrant n picks s = grant s n t 1 picks := by
  unfold execHartGrant
  rw [ht]
  refine if_neg ?_
  simp [hp, hs, hb, Task.growing, hmode, hg]

/-- A started task whose completion record is not written completes, at `SYSTEM` scope once its harts' remote writes have ended (R253). -/
theorem execTaskCompletion_next (hp : t.phase = .started) (hw : t.written = false)
    (hr : systemScope s t = true → ∀ e ∈ s.outstanding, e.2.load = false → ∀ h ∈ t.harts, h.2 ≠ e.2.hart) :
    (t.status ≠ 0 → execTaskCompletion n s = .next (finishTask s n t t.status)) ∧
    (t.status = 0 → t.exited = t.srec.harts → execTaskCompletion n s = .next (finishTask s n t 1)) := by
  have hended : ¬(systemScope s t = true ∧ s.outstanding.any (fun e => !e.2.load && t.harts.any (fun h => h.2 == e.2.hart)) = true) := by
    rintro ⟨hscope, hout⟩
    obtain ⟨e, he, hwrite⟩ := List.any_eq_true.1 hout
    rw [Bool.and_eq_true, Bool.not_eq_true', List.any_eq_true] at hwrite
    obtain ⟨hload, k, hk, hhart⟩ := hwrite
    exact hr hscope e he hload k hk (beq_iff_eq.1 hhart)
  have hoccurs : ¬(t.phase ≠ .started ∨ t.written = true ∨
      systemScope s t = true ∧ s.outstanding.any (fun e => !e.2.load && t.harts.any (fun h => h.2 == e.2.hart)) = true) := by
    simp only [hp, hw, hended, ne_eq, not_true_eq_false, Bool.false_eq_true, or_self, not_false_eq_true]
  unfold execTaskCompletion
  rw [ht]
  exact ⟨fun hs => (if_neg hoccurs).trans (if_pos hs), fun hs hx => (if_neg hoccurs).trans ((if_neg (not_not_intro hs)).trans (if_pos hx))⟩

/-- The steward ends a task that has not ended: its fields are marked, and it leaves its queue, or its harts end (R57, R303). -/
theorem execTaskEnd_next {why : EndReason} {s' : State} {status cause rank frec : Nat} {pc info : Word} (hp : t.phase ≠ .done)
    (hs : t.status = 0) (hf : endFields s t why = some (s', status, cause, rank, pc, info, frec)) :
    let mark (s : State) : State := s.modTask n (fun t => { t with
      status := status, cause := cause, frank := rank, fpc := pc, finfo := info, frec := frec, phase := .started })
    execTaskEnd n why s = .next (if t.phase = .waiting then takeHead (mark s') t.queue else mark (endHarts s' t)) := by
  intro mark
  have hend : endTask s n why = some (if t.phase = .waiting then takeHead (mark s') t.queue else mark (endHarts s' t)) := by
    unfold endTask
    rw [ht]
    dsimp only
    rw [if_neg (by simp [hp, hs]), hf]
    exact (apply_ite some ..).symm
  unfold execTaskEnd
  rw [hend]

end

section
variable {s s' : State} {n m : Nat} {t : Task} {picks : List Nat}

/-- The harts of a grant that have their places stand, and the task's aging starts again (R286, R287). -/
theorem grant_done (hp : placeHarts n m t.granted picks s = .done s') : grant s n t m picks = .next (takenUp (resetAging s' n) n) := by
  unfold grant
  rw [hp]

/-- A grant whose code cannot be copied ends the task (R52). -/
theorem grant_badCode {s'' : State} {rank va : Nat} {cause : Cause} (hp : placeHarts n m t.granted picks s = .badCode s' rank cause va)
    (he : endTask (s'.modTask n (fun t => { t with phase := .started })) n (.codeCopy rank cause va) = some s'') :
    grant s n t m picks = .next s'' := by
  unfold grant
  rw [hp]
  dsimp only
  rw [he]

end

end Sys2Proof.Machine

open Sys2Proof Sys2Proof.Machine

/-- Settles O57, step by step. -/
theorem schedulerStepsComplete : Obligations.SchedulerStepsComplete := by
  unfold Obligations.SchedulerStepsComplete
  intro s
  refine ⟨fun q p hq => if_pos hq, fun q => execQueueBind_next, fun n q k since => execQueueUnbind_next,
    fun q henabled hcome hunseen hbound => ?_, fun n => ⟨rfl, rfl, fun pa => ⟨askCounter_asked, askCounter_sends⟩⟩,
    fun n t ht => ⟨fun hp hm hv => ?_, execAgingTick_next ht, fun picks he hp hb => ?_, fun picks s' hp hs hmode hg hb hplace => ?_,
      execTaskCompletion_next ht, fun why s' status cause rank pc info frec => execTaskEnd_next ht⟩⟩
  · have hd : HeadDue s q := ⟨henabled, hcome, hunseen, hbound⟩
    refine ⟨execDispatchHead_null hd rfl, execDispatchHead_badRecord hd rfl, fun hk hr =>
      ⟨fun s₂ st => execDispatchHead_badHeader hd rfl hk hr, fun s₂ k hh =>
        ⟨fun s₃ => execDispatchHead_badPages hd rfl hk hr hh, fun s₃ pages hp => ⟨fun s₄ hc => ?_, fun s₄ dep hne hc => ?_⟩⟩⟩⟩
    · exact (execDispatchHead_seen hd rfl hk hr hh hp hc).trans (congrArg _ (if_pos rfl))
    · exact (execDispatchHead_seen hd rfl hk hr hh hp hc).trans (congrArg _ (if_neg hne))
  · have hreread {s' : State} {dep : DepRead} := execDependenceReread_next (s' := s') (dep := dep) ht hp hm hv
    exact ⟨fun s' => hreread, fun s' => hreread, fun s' pa => hreread, fun s' => hreread⟩
  · have hstart := execTaskStart_grant ht picks he hp hb
    exact ⟨fun s' hplace => hstart.trans (grant_done hplace), fun s' rank cause va s'' hplace hend => hstart.trans (grant_badCode hplace hend)⟩
  · exact (execHartGrant_grant ht picks hp hs hmode hg hb).trans (grant_done hplace)

end

section
/-! SUPPORT. The hart that a sequencer picks, the order of the requests for ways, and what a request that is granted does (R21, R179, R187, R293,
R311, R315, R316). -/

namespace Sys2Proof.Machine

/-! ## The hart that a sequencer picks (R293) -/

section
variable {s : State} {c : Nat}

theorem longerIdle_eq (a b : Nat × Hart) : longerIdle a b = a ∨ longerIdle a b = b := by
  unfold longerIdle
  split
  · exact .inr rfl
  · exact .inl rfl

theorem le_longerIdle (a b : Nat × Hart) : a.2.idle ≤ (longerIdle a b).2.idle ∧ b.2.idle ≤ (longerIdle a b).2.idle := by
  unfold longerIdle
  split
  · omega
  · omega

/-- The hart that has waited longest of some is one of them, and none has waited longer. -/
theorem foldl_longerIdle (l : List (Nat × Hart)) : ∀ a, l.foldl longerIdle a ∈ a :: l ∧
    ∀ e ∈ a :: l, e.2.idle ≤ (l.foldl longerIdle a).2.idle := by
  induction l with
  | nil => exact fun a => ⟨.head _, fun e he => by rw [List.mem_singleton.1 he]; exact le_rfl⟩
  | cons b l ih =>
    intro a
    obtain ⟨hmem, hlong⟩ := ih (longerIdle a b)
    have hfirst := hlong _ (.head _)
    obtain ⟨ha, hb⟩ := le_longerIdle a b
    refine ⟨?_, fun e he => ?_⟩
    · rcases List.mem_cons.1 hmem with hm | hm
      · rw [List.foldl_cons, hm]
        rcases longerIdle_eq a b with h | h
        · rw [h]; exact .head _
        · rw [h]; exact .tail _ (.head _)
      · exact .tail _ (.tail _ hm)
    · rcases List.mem_cons.1 he with rfl | he
      · exact ha.trans hfirst
      · rcases List.mem_cons.1 he with rfl | he
        · exact hb.trans hfirst
        · exact hlong e (.tail _ he)

theorem foldl_min_le (l : List Nat) : ∀ a, l.foldl min a ≤ a ∧ ∀ n ∈ l, l.foldl min a ≤ n := by
  induction l with
  | nil => exact fun a => ⟨le_rfl, fun n hn => absurd hn List.not_mem_nil⟩
  | cons b l ih =>
    intro a
    obtain ⟨ha, hl⟩ := ih (min a b)
    refine ⟨ha.trans (min_le_left ..), fun n hn => ?_⟩
    rcases List.mem_cons.1 hn with rfl | hn
    · exact ha.trans (min_le_right ..)
    · exact hl n hn

/-- The harts that a column's sequencer may issue from. -/
def readyHarts (s : State) (c : Nat) : List (Nat × Hart) := s.harts.filter (fun e => ready s c e.1 e.2)

theorem mem_readyHarts {e : Nat × Hart} : e ∈ readyHarts s c ↔ e ∈ s.harts ∧ ready s c e.1 e.2 = true := List.mem_filter

/-- Of the ready harts a sequencer picks the one that has waited longest, where one has waited 1,024 lane cycles, and else one of the lowest
class. -/
theorem pickHart_cases {e : Nat × Hart} (hp : pickHart s c = some e) : e ∈ readyHarts s c ∧
    ((∀ a ∈ readyHarts s c, 1024 ≤ a.2.idle → a.2.idle ≤ e.2.idle) ∧
      ((∃ a ∈ readyHarts s c, 1024 ≤ a.2.idle) ∨ ∀ a ∈ readyHarts s c, classOf s e.2.task ≤ classOf s a.2.task)) := by
  unfold pickHart at hp
  dsimp only at hp
  split at hp
  next a rest hlong =>
    obtain rfl := Option.some.inj hp
    obtain ⟨hmem, hmost⟩ := foldl_longerIdle rest a
    rw [← hlong] at hmem hmost
    obtain ⟨hready, hidle⟩ := List.mem_filter.1 hmem
    exact ⟨hready, fun b hb hi => hmost b (List.mem_filter.2 ⟨hb, decide_eq_true hi⟩),
      .inl ⟨_, hready, of_decide_eq_true hidle⟩⟩
  next hnone =>
    obtain ⟨i, -, hfind⟩ := List.exists_of_findSome?_eq_some hp
    have hclass := List.find?_some hfind
    rw [Bool.and_eq_true, beq_iff_eq] at hclass
    refine ⟨List.mem_of_find?_eq_some hfind, fun a ha hi => ?_, .inr fun a ha => ?_⟩
    · exact absurd (decide_eq_true hi) (List.filter_eq_nil_iff.1 hnone a ha)
    · rw [hclass.1]
      exact (foldl_min_le _ _).2 _ (List.mem_map_of_mem ha)

/-- The module once lane cycles have passed in a column whose sequencer issues next: one, and so many more as the interlocks take. -/
def laneCycle (s : State) (c : Nat) : State := tick { s with free := s.free + 2 } c (1 + Config.stallCycles s.free)

section
variable (hc : c < 4096) (hcur : s.cur = none)
include hc hcur

theorem execSequencerIssue_none (hp : pickHart (laneCycle s c) c = none) : execSequencerIssue c s = .next (laneCycle s c) := by
  unfold laneCycle at hp ⊢
  unfold execSequencerIssue
  rw [if_neg (by simp [hc, hcur])]
  dsimp only
  rw [hp]

theorem execSequencerIssue_some {n : Nat} {h : Hart} (hp : pickHart (laneCycle s c) c = some (n, h)) :
    execSequencerIssue c s = .next { ((laneCycle s c).modCol c (·.picks h.ctx (underDuty (laneCycle s c) h))).modHart n
      (·.picked (Config.pick (s.free + 1))) with cur := some n } := by
  unfold laneCycle at hp ⊢
  unfold execSequencerIssue
  rw [if_neg (by simp [hc, hcur])]
  dsimp only
  rw [hp]

end

end

/-! ## The order of requests (R21) -/

section
variable {s : State} {c t : Nat} {r b : WayRequest}

theorem nextRequest_cons_cons (a : WayRequest) (l : List WayRequest) :
    nextRequest t (a :: r :: l) = nextRequest t ((if r.first t a then r else a) :: l) := by
  unfold nextRequest
  simp only [List.foldl_cons]
  split
  · rfl
  · rfl

/-- The request of some that is granted first is one of them, and none comes before it. -/
theorem nextRequest_cons (l : List WayRequest) : ∀ a, ∃ b ∈ a :: l, nextRequest t (a :: l) = some b ∧
    ∀ q ∈ a :: l, b.place t ≤ q.place t := by
  induction l with
  | nil => exact fun a => ⟨a, .head _, rfl, fun q hq => by rw [List.mem_singleton.1 hq]⟩
  | cons r l ih =>
    intro a
    obtain ⟨b, hb, hnext, hfirst⟩ := ih (if r.first t a then r else a)
    have hle : b.place t ≤ a.place t ∧ b.place t ≤ r.place t := by
      have hhead := hfirst _ (.head _)
      unfold WayRequest.first at hhead
      split at hhead
      next hlt => have := of_decide_eq_true hlt; omega
      next hge => rw [decide_eq_true_eq] at hge; omega
    refine ⟨b, ?_, (nextRequest_cons_cons a l).trans hnext, fun q hq => ?_⟩
    · rcases List.mem_cons.1 hb with rfl | hb
      · split
        · exact .tail _ (.head _)
        · exact .head _
      · exact .tail _ (.tail _ hb)
    · rcases List.mem_cons.1 hq with rfl | hq
      · exact hle.1
      · rcases List.mem_cons.1 hq with rfl | hq
        · exact hle.2
        · exact hfirst q (.tail _ hq)

theorem nextRequest_first {l : List WayRequest} (hn : nextRequest t l = some b) : b ∈ l ∧ ∀ q ∈ l, q.first t b = false := by
  cases l with
  | nil => cases hn
  | cons a l =>
    obtain ⟨b', hb, hnext, hfirst⟩ := nextRequest_cons (t := t) l a
    obtain rfl := Option.some.inj (hnext.symm.trans hn)
    exact ⟨hb, fun q hq => decide_eq_false (Nat.not_lt.2 (hfirst q hq))⟩

/-- A request that may be granted is admitted by the scoreboard, and none that meets it comes before it (R21, R179). -/
theorem mayGrant_first (hg : mayGrant s c r = true) : (s.col c).admits (s.winNow c) r (s.col c).cycles = true ∧
    ∃ b ∈ liveRequests s c, r.same b = true ∧ ∀ q ∈ liveRequests s c, r.meets q = true → q.first (s.col c).cycles b = false := by
  unfold mayGrant at hg
  rw [Bool.and_eq_true, Option.any_eq_true] at hg
  obtain ⟨hadmits, b, hnext, hsame⟩ := hg
  obtain ⟨hmem, hfirst⟩ := nextRequest_first hnext
  exact ⟨hadmits, b, (List.mem_filter.1 hmem).1, hsame, fun q hq hm => hfirst q (List.mem_filter.2 ⟨hq, hm⟩)⟩

/-- A source may ask for so many segments of a physical row of a way of a column (R19, R21). -/
structure MayAsk (s : State) (c way row : Nat) (src : ActSource) (segs : Nat) : Prop where
  colLt   : c < 4096
  wayLt   : way < 64
  rowLt   : row < 2112
  segsPos : 0 < segs
  segsLe  : segs ≤ 8
  source  : sourceOk s c src = true
  reaches : rowReaches (s.col c) way row src = true

section
variable {way row segs : Nat} {src : ActSource} (ha : MayAsk s c way row src segs)
include ha

theorem MayAsk.occurs : ¬(4096 ≤ c ∨ 64 ≤ way ∨ 2112 ≤ row ∨ segs = 0 ∨ 8 < segs ∨ (!sourceOk s c src) = true ∨
    (!rowReaches (s.col c) way row src) = true) := by
  obtain ⟨hc, hway, hrow, hpos, hsegs, hsrc, hreach⟩ := ha
  simp only [hsrc, hreach, Bool.not_true, Bool.false_eq_true, or_self, or_false]
  omega

/-- A request that waits is granted when it may be. -/
theorem execWayActivation_waiting {q : WayRequest}
    (hf : (s.col c).requests.find? (requestOf src way row segs (s.col c).cycles).same = some q) (hg : mayGrant s c q = true) :
    execWayActivation c way row src segs s = .next (grantRequest s c q) := by
  unfold execWayActivation
  rw [if_neg ha.occurs]
  dsimp only
  rw [hf]
  exact if_pos hg

/-- A new request, but for a speculative one, joins those that wait, and is granted when it may be. -/
theorem execWayActivation_new :
    let r := requestOf src way row segs (s.col c).cycles
    let s₁ := ask s c [r]
    (s.col c).requests.find? r.same = none → r.cls ≠ 6 →
    execWayActivation c way row src segs s = .next (if mayGrant s₁ c r then grantRequest s₁ c r else s₁) := by
  intro r s₁ hf hcls
  unfold execWayActivation
  rw [if_neg ha.occurs]
  dsimp only
  rw [hf]
  exact if_neg hcls

end

/-- A stream channel of a hart asks for a row that it is declared to reach next, in a page that the hart's entries show (R100). -/
theorem execSpeculativePreactivation_next {n way row va leaf i k : Nat} {h : Hart} {ch : Channel} (hh : s.hart? n = some h)
    (hc : c < 4096) (hway : way < 64) (hrow : row < 2048) (hs : h.status = .resident) (hch : (k, ch) ∈ h.chans) (hi : i ∈ ch.toReach)
    (ha : ch.knownAddress i = some va) (hl : shownLeaf s n h va = some leaf) (hdram : regionOf (leafAddress leaf va) = .dram)
    (hcol : columnOf (leafAddress leaf va) = c) (hw : layerOf (leafAddress leaf va) * 8 + wayOf (leafAddress leaf va) = way)
    (hr : rowOf (leafAddress leaf va) = row) :
    execSpeculativePreactivation n c way row s = .next (s.modCol c (fun k => { k with
      requests := k.requests ++ [requestOf (.spec n) way (k.physicalRow way row) 8 k.cycles] })) := by
  have hreach : h.chans.any (fun e => e.2.toReach.any (fun i => (e.2.knownAddress i).any (fun va => (shownLeaf s n h va).any (fun l =>
      let pa := leafAddress l va
      regionOf pa == .dram && columnOf pa == c && layerOf pa * 8 + wayOf pa == way && rowOf pa == row)))) = true := by
    refine List.any_eq_true.2 ⟨_, hch, List.any_eq_true.2 ⟨i, hi, ?_⟩⟩
    dsimp only
    rw [ha, Option.any_some, hl, Option.any_some, hdram, hcol, hw, hr]
    simp
  unfold execSpeculativePreactivation
  rw [hh]
  dsimp only
  exact if_neg (by rw [hreach]; simp [hc, hway, hrow, hs])

theorem execSpeculativeDiscard_next {n : Nat} (hc : c < 4096) (hr : (s.col c).requests[n]? = some r) (hcls : r.cls = 6)
    (hold : r.since + 64 ≤ (s.col c).cycles) :
    execSpeculativeDiscard c n s = .next (s.modCol c (fun k => { k with requests := k.requests.eraseIdx n })) := by
  unfold execSpeculativeDiscard
  rw [hr]
  exact if_pos ⟨hc, by simp [WayRequest.expired, hcls, hold]⟩

theorem execClass5Promotion_next {n : Nat} (hc : c < 4096) (hr : (s.col c).requests[n]? = some r) (hcls : r.cls = 5)
    (hp : r.promoted = false) (hold : r.since + 128 ≤ (s.col c).cycles) :
    execClass5Promotion c n s = .next (s.modCol c (fun k => { k with requests := k.requests.set n { r with promoted := true } })) := by
  unfold execClass5Promotion
  rw [hr]
  exact if_pos ⟨hc, hcls, by rw [hp]; rfl, hold⟩

/-- The base layer asks for the `REFN` of an open alert that none asks for yet (R316). -/
theorem execAlertDeadline_next {way row : Nat} (ha : ∃ a ∈ (s.col c).alerts, a.way = way ∧ a.row = row) :
    let r := hardwareRefn way row (s.col c).cycles
    (∀ q ∈ (s.col c).requests, r.same q = false) → execAlertDeadline c way row s = .next (ask s c [r]) := by
  intro r hnew
  have hopen : (s.col c).alerts.any (fun a => a.way == way && a.row == row) = true := by simpa using ha
  have hnone : (s.col c).requests.any r.same = false := List.any_eq_false.2 fun q hq => Bool.not_eq_true _ ▸ hnew q hq
  unfold execAlertDeadline
  exact if_pos (by rw [hopen, hnone]; rfl)

end

/-! ## What a grant does (R179, R187, R311, R315) -/

section
variable (s : State) (c : Nat) (r : WayRequest)

@[simp] theorem col_setCol_same (k : Column) : (s.setCol c k).col c = k := by
  unfold State.setCol State.col
  rw [look_put, if_pos rfl]

@[simp] theorem col_modHart (n : Nat) (f : Hart → Hart) : (s.modHart n f).col c = s.col c := by
  unfold State.col
  rw [State.modHart_columns]

@[simp] theorem col_note (e : LogEntry) : (s.note e).col c = s.col c := rfl

/-- An activation enters the way's account and raises the count of its row, whatever alert it opens (R179, R315, R316). -/
theorem activate_account :
    ((activate s c r).col c).ways = put (s.col c).ways r.way { look (s.col c).ways r.way {} with
      lastAct := some (s.col c).cycles, busyUntil := (s.col c).cycles + 12, hidden := if r.cls ≠ 3 ∧ r.segs = 8 then some r.row else none } ∧
    ((activate s c r).col c).actCount =
      put (s.col c).actCount (r.way * 4096 + r.row) (look (s.col c).actCount (r.way * 4096 + r.row) 0 + 1) := by
  unfold activate
  dsimp only
  split
  · simp [Column.enter]
  · split
    · simp [Column.enter]
    · split
      · simp [Column.enter]
      · simp [Column.enter]

/-- The withdrawal of a `REFDEADLINE` changes nothing else of its column (R302). -/
theorem withdrawDeadline_col : ∃ raised, (withdrawDeadline s c).col c = { s.col c with refRaised := raised } := by
  unfold withdrawDeadline
  split
  · exact ⟨false, col_modCol_same s c fun k => { k with refRaised := false }⟩
  · exact ⟨_, rfl⟩

/-- A row-set moves the position on, occupies the column and credits the account (R179, R186, R311). -/
theorem refreshSet_account :
    let k := (refreshSet s c).col c
    k.refPos = ((s.col c).refPos + 1) % 2048 ∧ k.refBusy = (s.col c).cycles + 40 ∧
    k.debt = if -128 < (s.col c).debt then (s.col c).debt - 1 else (s.col c).debt := by
  unfold refreshSet
  dsimp only
  generalize hu : s.modCol c _ = u
  obtain ⟨raised, hcol⟩ := withdrawDeadline_col u c
  rw [hcol, ← hu, col_modCol_same]
  exact ⟨rfl, rfl, rfl⟩

/-- The module once a request has left those that wait in a column. -/
def granting (s : State) (c : Nat) (r : WayRequest) : State := s.modCol c (fun k => { k with requests := dropFirst r.same k.requests })

@[simp] theorem granting_col : (granting s c r).col c = { s.col c with requests := dropFirst r.same (s.col c).requests } := col_modCol_same ..

variable {r}

theorem grantRequest_activate (ha : r.act = .activate) : grantRequest s c r = activate (granting s c r) c r := by
  unfold grantRequest
  rw [ha]
  rfl

theorem grantRequest_close (ha : r.act = .close) : grantRequest s c r = (granting s c r).modCol c (·.keepBusy r.way 10) := by
  unfold grantRequest
  rw [ha]
  rfl

theorem grantRequest_write (ha : r.act = .write) : grantRequest s c r = (granting s c r).modCol c (·.keepBusy r.way 16) := by
  unfold grantRequest
  rw [ha]
  rfl

theorem grantRequest_refn (ha : r.act = .refn) : grantRequest s c r = refreshNeighbours (granting s c r) c r.way r.row := by
  unfold grantRequest
  rw [ha]
  rfl

theorem grantRequest_rowSet (ha : r.act = .rowSet) : grantRequest s c r = refreshSet (if r.cls = 3 then
    (granting s c r).modCol c (fun k => { k with refHart := if r.more then r.hart else none }) else granting s c r) c := by
  unfold grantRequest
  rw [ha]
  rfl

theorem grant_activates (ha : r.act = .activate) :
    let t := grantRequest s c r
    let w := look (t.col c).ways r.way {}
    w.lastAct = some (s.col c).cycles ∧ w.busyUntil = (s.col c).cycles + 12 ∧
    look (t.col c).actCount (r.way * 4096 + r.row) 0 = look (s.col c).actCount (r.way * 4096 + r.row) 0 + 1 := by
  obtain ⟨hways, hcount⟩ := activate_account (granting s c r) c r
  dsimp only
  rw [grantRequest_activate s c ha, hways, hcount, look_put, look_put, if_pos rfl, if_pos rfl, granting_col]
  exact ⟨rfl, rfl, rfl⟩

theorem keepBusy_until (k : Column) (way n : Nat) : (look (k.keepBusy way n).ways way {}).busyUntil = k.cycles + n := by
  unfold Column.keepBusy
  rw [look_put, if_pos rfl]

theorem grant_closes (ha : r.act = .close) :
    (look ((grantRequest s c r).col c).ways r.way {}).busyUntil = (s.col c).cycles + 10 := by
  rw [grantRequest_close s c ha, col_modCol_same, keepBusy_until, granting_col]

theorem grant_writes (ha : r.act = .write) :
    (look ((grantRequest s c r).col c).ways r.way {}).busyUntil = (s.col c).cycles + 16 := by
  rw [grantRequest_write s c ha, col_modCol_same, keepBusy_until, granting_col]

/-- A `REFN` keeps its way busy, starts the count of its row again and satisfies its alerts (R187, R315, R316). -/
theorem refreshNeighbours_account (way row : Nat) :
    let k := (refreshNeighbours s c way row).col c
    (look k.ways way {}).busyUntil = (s.col c).cycles + 80 ∧ look k.actCount (way * 4096 + row) 0 = 0 ∧
    ∀ a ∈ k.alerts, ¬(a.way = way ∧ a.row = row) := by
  have hcol : (refreshNeighbours s c way row).col c = _ := col_setCol_same s c _
  dsimp only
  rw [hcol]
  refine ⟨?_, ?_, fun a ha hmeets => ?_⟩
  · rw [look_put, if_pos rfl]
  · rw [look_put, if_pos rfl]
  · obtain ⟨-, hother⟩ := List.mem_filter.1 ha
    simp [hmeets.1, hmeets.2] at hother

theorem grant_refreshes (ha : r.act = .refn) :
    let k := (grantRequest s c r).col c
    (look k.ways r.way {}).busyUntil = (s.col c).cycles + 80 ∧ look k.actCount (r.way * 4096 + r.row) 0 = 0 ∧
    ∀ a ∈ k.alerts, ¬(a.way = r.way ∧ a.row = r.row) := by
  have haccount := refreshNeighbours_account (granting s c r) c r.way r.row
  rw [granting_col] at haccount
  rw [grantRequest_refn s c ha]
  exact haccount

theorem grant_rowSet (ha : r.act = .rowSet) :
    let k := (grantRequest s c r).col c
    k.refPos = ((s.col c).refPos + 1) % 2048 ∧ k.refBusy = (s.col c).cycles + 40 ∧
    k.debt = if -128 < (s.col c).debt then (s.col c).debt - 1 else (s.col c).debt := by
  dsimp only
  rw [grantRequest_rowSet s c ha]
  split
  · have haccount := refreshSet_account ((granting s c r).modCol c (fun k => { k with refHart := if r.more then r.hart else none })) c
    rwa [col_modCol_same, granting_col] at haccount
  · have haccount := refreshSet_account (granting s c r) c
    rwa [granting_col] at haccount

end

end Sys2Proof.Machine
end

section
/-! SUPPORT. Retirement, the vector queue and the interval of refresh where they can occur (R150, R172 to R174, R182, R220, R301, R311 to R313). -/

namespace Sys2Proof.Machine

/-! ## Retirement (R150, R174, R182) -/

section
variable {s : State} {n : Nat}

theorem execElementGroupValid_next {v g : Nat} {r : Hart} (hr : find? s.shadows n = some r) (hg : hasBit (look r.v v {}).invalid g = true)
    (ht : ∀ t, r.transport = some t → t.vd.toNat ≠ v) :
    let reg := look r.v v {}
    execElementGroupValid n v g s =
      .next { s with shadows := put s.shadows n { r with v := put r.v v { reg with invalid := putBit reg.invalid g false } } } := by
  have hmoves : r.transport.any (fun t => t.vd.toNat == v) = false := by
    cases h : r.transport with
    | none => rfl
    | some t => simpa using ht t h
  unfold execElementGroupValid
  rw [hr]
  exact if_pos ⟨hg, by rw [hmoves]; rfl⟩

variable {h : Hart} (hh : s.hart? n = some h)
include hh

theorem execVectorRetire_shadow {r : Hart} (hr : find? s.shadows n = some r) (hw : h.wait = .retire .vector) (hg : groupsPending r = false) :
    execVectorRetire n s = .next (commitShadow s n) := by
  unfold execVectorRetire
  rw [hh, hr]
  exact if_pos ⟨hw, by rw [hg]; rfl⟩

theorem execScalarRetire_shadow {r : Hart} (hr : find? s.shadows n = some r) (hw : h.wait = .retire .load ∨ h.wait = .retire .sent) :
    execScalarRetire n s = .next (commitShadow s n) := by
  unfold execScalarRetire
  rw [hh, hr]
  exact if_pos hw

variable (hs : find? s.shadows n = none)
include hs

theorem execVectorRetire_front {q : Queued} (hq : h.canRetire = some q) : execVectorRetire n s = .next (retireFront s n h q) := by
  unfold execVectorRetire
  rw [hh, hs]
  dsimp only
  rw [hq]

theorem execVectorRetire_head (hq : h.canRetire = none) (hc : s.cur = none) (hres : h.status = .resident) (hready : headReady h = true) :
    execVectorRetire n s = .next { s.modHart n (fun h => { h with atHead := true }) with cur := some n } := by
  unfold execVectorRetire
  rw [hh, hs]
  dsimp only
  rw [hq]
  exact if_pos ⟨by rw [hc]; rfl, hres, hready⟩

end

/-! ## The vector queue (R173, R220, R301) -/

section
variable {s : State} {n id : Nat} {h : Hart} {q : Queued} {i : Instr} {m : Meaning}

/-- One more retired, where one leaves the queue. -/
theorem retired_drop (a : Word) (k : Nat) : a - BitVec.ofNat 64 k = a - BitVec.ofNat 64 (k + 1) + 1 := by
  rw [BitVec.ofNat_add]
  bv_omega

/-- None more retired, where one that the hart goes past enters the queue. -/
theorem retired_push (a : Word) (k : Nat) : a + 1 - BitVec.ofNat 64 (k + 1) = a - BitVec.ofNat 64 k := by
  rw [BitVec.ofNat_add]
  bv_omega

/-- The retirement of the oldest instruction of the vector queue, without debug, takes it out of the queue and counts it (R172, R330). -/
theorem retireFront_quiet {rest : List Queued} (hc : h.ctl = 0) (hstop : h.stopDue = false) (hv : h.vqueue = q :: rest) :
    retireFront s n h q = s.setHart n { h with
      vqueue := rest, expo := h.expo + 1, wait := if h.wait = .access then .none else h.wait } := by
  unfold retireFront
  dsimp only
  rw [if_neg (by simp [hstop]), applyTodo_off, countVector_off, hv]
  · rfl
  · exact hc
  · exact hc

theorem retired_of_front {rest : List Queued} (hv : h.vqueue = q :: rest) : Hart.retired { h with vqueue := rest } = h.retired + 1 := by
  unfold Hart.retired
  rw [hv]
  exact retired_drop ..

theorem ok_of_isOk {e : Except Stop Ctx} (he : e.isOk = true) : ∃ c, e = .ok c := by
  cases e with
  | ok c => exact ⟨c, rfl⟩
  | error e => cases he

/-- An instruction that waits for a register leaves for the vector queue once its checks pass (R220). -/
theorem tryQueue_enters {c : Ctx} (hq : queueable h i = true) (hroom : h.queued < 16)
    (hm : runInstr i m (startCtx s id { h with elems := [], vqueue := [] } i.word) = .ok c) :
    tryQueue i s id h m = enterQueue i s id h (c.leaves (loopNext h).2.2) := by
  unfold tryQueue
  rw [if_pos (by simp [hq, hroom]), hm]

/-- A queueable instruction of a hart that has others in the queue, without a debug block, tries for the queue (R220). -/
theorem issue_tries (hc : s.cur = some id) (hh : s.hart? id = some h) (ha : h.atHead = false) (hw : h.waiting ≠ [])
    (hq : queueable h i = true) (hd : h.dbg = none) : issue i s m = .next (tryQueue i s id h m) := by
  have hstep : h.stepping = false := by simp [Hart.stepping, hd]
  have hwait : h.waiting.isEmpty = false := by simp [hw]
  simp only [issue, hc, hh, ha, hstep, hwait, hq, Bool.false_and, Bool.false_eq_true, if_false, if_true]

/-- The first instruction that waits in the queue runs with what it left with (R173, R220). -/
theorem issue_head {c : Ctx} (hc : s.cur = some id) (hh : s.hart? id = some h) (ha : h.atHead = true) (hf : h.firstWaiting = some q)
    (hm : runInstr i m (startCtx { s with cur := none } id (h.forHead q) q.word) = .ok c) :
    issue i s m = .next (c.s.setHart id (h.headDone q c.h)) := by
  simp only [issue, hc, hh, ha, if_true, runHead, hf, hm]

/-- What a fold of writes, each to its own entry's key, leaves at a key. -/
theorem find?_foldl_put {α β : Type} (f : Nat → β) (k : Nat) (l : List (Nat × α)) : ∀ b : AMap β,
    find? (l.foldl (fun b e => put b e.1 (f e.1)) b) k = if l.any (fun e => e.1 == k) then some (f k) else find? b k := by
  induction l with
  | nil => exact fun b => rfl
  | cons e l ih =>
    intro b
    rw [List.foldl_cons, ih, find?_put, List.any_cons]
    by_cases hk : e.1 = k
    · subst hk
      simp
    · rw [if_neg (Ne.symm hk), beq_eq_false_iff_ne.2 hk, Bool.false_or]

section
variable (h) (q) (r : Hart) {v : VNum}

/-- Of the vector registers those that the instruction names take its lane words (R220). -/
theorem find?_headDone (k : Nat) : find? (h.headDone q r).v k =
    if q.regs.any (fun e => e.1 == k) then some { look h.v k {} with words := (look r.v k {}).words } else find? h.v k :=
  find?_foldl_put (fun k => ({ look h.v k {} with words := (look r.v k {}).words } : VReg)) k q.regs h.v

theorem headDone_named (hv : q.names v = true) : ((h.headDone q r).getV v).words = (r.getV v).words :=
  congrArg (fun o => (o.getD {}).words) ((find?_headDone h q r v.toNat).trans (if_pos hv))

theorem headDone_unnamed (hv : q.names v = false) : (h.headDone q r).getV v = h.getV v :=
  congrArg (·.getD {}) ((find?_headDone h q r v.toNat).trans (if_neg (ne_true_of_eq_false hv)))

theorem headDone_retired : (h.headDone q r).retired = h.retired := by
  unfold Hart.retired
  rw [show (h.headDone q r).vqueue.length = h.vqueue.length from List.length_map ..]
  rfl

theorem headDone_done {e : Queued} (he : e ∈ (h.headDone q r).vqueue) (hseq : e.seq = q.seq) : e.done = true := by
  obtain ⟨a, -, rfl⟩ := List.mem_map.1 he
  by_cases ha : a.seq = q.seq
  · rw [if_pos ha]
  · rw [if_neg ha] at hseq
    exact absurd hseq ha

end

end

/-! ## The interval of refresh (R311 to R313) -/

section
variable (s : State) (c : Nat)

theorem raiseDeadline_cycles : ((raiseDeadline s c).col c).cycles = (s.col c).cycles := by
  unfold raiseDeadline
  dsimp only
  split
  · rw [col_modHart, col_modCol_same]
  · rw [col_modCol_same]

/-- An interval of refresh adds a row-set to the account, raises a `REFDEADLINE` where the account comes to 64, forces a refresh where it is
full, and lets the base layer refresh a column in which no hart stands (R311 to R313). -/
theorem execRefreshInterval_next (hc : c < 4096) :
    let k := s.col c
    let r := rowSetOf none false k.cycles
    let s₁ := s.modCol c (fun k => { k with debt := min 128 (k.debt + 1) })
    let s₂ := if k.debt = 63 ∧ (s₁.col c).refRaised = false then raiseDeadline s₁ c else s₁
    let s₃ := if 127 ≤ k.debt then ask (s₂.modCol c (fun k => { k with forced := k.forced + 1 })) c [r] else s₂
    execRefreshInterval c s = .next (if occupied s₃ c = false ∧ 0 < (s₃.col c).debt then ask s₃ c [r] else s₃) := by
  intro k r s₁ s₂ s₃
  have hcycles : (s₂.col c).cycles = k.cycles := by
    have h₁ : (s₁.col c).cycles = k.cycles := by rw [show s₁.col c = _ from col_modCol_same ..]
    dsimp only [s₂]
    split
    · rw [raiseDeadline_cycles, h₁]
    · exact h₁
  have hr : rowSetOf none false (s₂.col c).cycles = r := congrArg _ hcycles
  unfold execRefreshInterval
  rw [if_neg (Nat.not_le.2 hc)]
  simp only [Bool.not_eq_true', s₃, ← hr]
  rfl

end

end Sys2Proof.Machine

open Sys2Proof Sys2Proof.Machine

/-- Settles O56, clause by clause: each step by the lemma that says what it leaves where it can occur. -/
theorem sequencerStepsComplete : Obligations.SequencerStepsComplete := by
  unfold Obligations.SequencerStepsComplete
  intro s
  refine ⟨fun c hc hcur => ⟨execSequencerIssue_none hc hcur, fun n h => execSequencerIssue_some hc hcur⟩, fun c n h hp => ?_,
    fun c way row src segs hc hway hrow hpos hsegs hsrc hreach => ?_, fun c r => mayGrant_first,
    fun c r => ⟨grantRequest_mem s c r, grant_activates s c, grant_closes s c, grant_writes s c, grant_refreshes s c, grant_rowSet s c⟩,
    fun n c way row h ch i va leaf hh hc hway hrow hs hch hi ha hl => ?_, fun c n r hc hr =>
      ⟨execSpeculativeDiscard_next hc hr, execClass5Promotion_next hc hr⟩, fun c way row => execAlertDeadline_next,
    fun n v g r => execElementGroupValid_next, fun n h r hh hr => ⟨execVectorRetire_shadow hh hr, execScalarRetire_shadow hh hr⟩,
    fun n h hh hs => ⟨fun q => execVectorRetire_front hh hs, execVectorRetire_head hh hs⟩, fun n h q rest hc hstop hv => ?_,
    fun i id h m hcur hh => ⟨fun ha hw hq hd hroom hok => ?_, fun q c ha hf hm => ?_⟩, fun c => execRefreshInterval_next s c⟩
  · obtain ⟨hmem, hidle, hclass⟩ := pickHart_cases hp
    obtain ⟨hin, hready⟩ := mem_readyHarts.1 hmem
    refine ⟨hin, hready, fun e he hr => hidle e (mem_readyHarts.2 ⟨he, hr⟩), fun hshort e he hr => ?_⟩
    rcases hclass with ⟨a, ha, hlong⟩ | hclass
    · obtain ⟨hain, haready⟩ := mem_readyHarts.1 ha
      exact absurd hlong (Nat.not_le.2 (hshort a hain haready))
    · exact hclass e (mem_readyHarts.2 ⟨he, hr⟩)
  · have hmay : MayAsk s c way row src segs := ⟨hc, hway, hrow, hpos, hsegs, hsrc, hreach⟩
    exact ⟨fun q => execWayActivation_waiting hmay, execWayActivation_new hmay⟩
  · obtain ⟨k, hk⟩ := hch
    exact execSpeculativePreactivation_next hh hc hway hrow hs hk hi ha hl
  · exact ⟨_, retireFront_quiet hc hstop hv, rfl, retired_of_front hv, rfl, rfl, rfl, rfl, rfl, rfl, rfl⟩
  · obtain ⟨c, hm⟩ := ok_of_isOk hok
    refine ⟨_, _, _, (issue_tries hcur hh ha hw hq hd).trans (congrArg _ (tryQueue_enters hq hroom hm)), find?_put_same .., rfl, rfl, rfl,
      rfl, rfl, rfl, rfl, ?_, rfl, rfl, rfl⟩
    exact (congrArg (h.instret + 1 - BitVec.ofNat 64 ·) (List.length_append ..)).trans (retired_push ..)
  · exact ⟨_, _, issue_head hcur hh ha hf hm, find?_put_same .., rfl, fun v => headDone_named h q c.h,
      fun v => headDone_unnamed h q c.h, rfl, rfl, rfl, rfl, rfl, rfl, headDone_retired h q c.h, fun e => headDone_done h q c.h⟩

end
